-- ==== Sys2Proof/Word.lean ====
section
/-! DEFINITION. The word types of the GZ9 and the plain record of what a peer package sends.
Memory is little-endian and a register is 32 bits wide (02 R39). -/

namespace Sys2Proof

/-- A byte of memory. -/
abbrev Byte := BitVec 8

/-- A 32-bit register or word (02 R39). -/
abbrev Word := BitVec 32

/-- A 64-bit value: a register pair, an address or a latch (02 R39, 04 R80). -/
abbrev Dword := BitVec 64

/-- What another rank of a launch sends for one collective command (17 R401-R408): its rank, the
sub-code, COUNT and word D+9 of its descriptor, the bytes of its SRC, its order table (used of rank 0
only), and whether reading them faulted there. -/
structure PeerInput where
  rank : Nat
  sub : Nat
  count : Nat
  ctl : Word
  src : List Byte
  ord : List Nat
  fault : Bool
  deriving DecidableEq, Repr

end Sys2Proof
end

