-- ==== Sys2Proof/Config.lean ====
section
/-! DEFINITION. What the spec leaves open, as constants with no body: nothing can be proved about their
values. Each draws a fresh value from a counter of the state, or depends on what is named (log entry 3). -/

namespace Sys2Proof.Config

open Sys2Proof

/-- A byte of stage memory that nothing has written since its block started: undefined (01 R15). The
argument is the allocation and offset, as one number. -/
opaque stageByte : Nat → Byte

/-- An accumulator of a region when it is allocated: undefined (13 R324). Arguments: the allocation's
serial number and the accumulator's index. -/
opaque accInit : Nat → Nat → BitVec 40

/-- A byte that the spec calls undefined, drawn from the state's counter (15 R374, R378; 17 R409; 06 R148). -/
opaque freeByte : Nat → Byte

/-- A word that the spec leaves open, drawn from the state's counter. -/
opaque freeWord : Nat → Word

/-- An order among equals that the spec leaves open (15 R374, R376): the key of item `i` in draw `c`. -/
opaque freeRank : Nat → Nat → Nat

/-- The channel, bank and row of a stack that hold a physical address (18 R417, R425). -/
opaque channelOf : Nat → Nat
opaque bankOf : Nat → Nat
opaque rowOf : Nat → Nat

/-- The physical address of a row within its stack (18 R420): channel, bank, row. -/
opaque rowAddr : Nat → Nat → Nat → Nat

/-- The SM3 digest of a byte string (20 R447). The spec names the algorithm and does not state it. -/
opaque sm3 : List Byte → List Byte

/-- An SM2 signature with the device key (20 R447): the key is the device's own. -/
opaque sm2Sign : List Byte → List Byte

/-- The row that a swap takes a row for, of its bank, at a cycle (18 R425): at random. -/
opaque swapRow : Nat → Nat

/-- Whether a firmware image carries a valid signature over its version, its counter and its bytes (20 R446). -/
opaque imageSigned : Nat → Nat → List Byte → Bool

/-- The public key of a firmware image, and the SM3 digest of the key that the fuses fix (20 R446). -/
opaque imageKey : List Byte → List Byte
opaque fusedKey : Unit → List Byte

/-- Whether a stage of bring-up fails, in a cycle (20 R445). -/
opaque stageFails : Nat → Nat → Bool

/-- The packages whose timebase cannot be brought within 4 ticks of this one's, in a cycle (20 R445). -/
opaque peersApart : Nat → List Nat

/-- The MGC's boot ROM (20 R447). -/
opaque bootRom : Unit → List Byte

/-- The certificate chain of slot 0 (20 R447). -/
opaque certChain : Unit → List Byte

end Sys2Proof.Config
end

