-- ==== Sys2Proof/Machine/Flags.lean ====
section
/-! DEFINITION. Number formats, rounding and the floating-point flags (02 R32-R54), with the exact
arithmetic that every unit rounds once (05 R97, R105-R112). A flag set is a word with the flag bits of
FPCTL (02 R45). -/

namespace Sys2Proof.Machine

open Sys2Proof

/-! ### Flags, R44, R45 -/

/-- NV, invalid. -/
def flagNV : Word := 0x100#32
/-- DZ, division by zero. -/
def flagDZ : Word := 0x200#32
/-- OF, overflow. -/
def flagOF : Word := 0x400#32
/-- UF, underflow. -/
def flagUF : Word := 0x800#32
/-- NX, inexact. -/
def flagNX : Word := 0x1000#32
/-- SAT, saturation. -/
def flagSAT : Word := 0x2000#32
/-- RB, rotation of a block that holds a NaN or an infinity. -/
def flagRB : Word := 0x4000#32

/-- A flag, when the condition that raises it holds. -/
def flagIf (c : Bool) (f : Word) : Word := if c then f else 0#32

/-! ### Rounding modes, R42 -/

/-- The four rounding modes. -/
inductive Rnd where
  | rn | rz | rd | ru
  deriving DecidableEq, Repr

/-- The 2-bit code of a mode. -/
def Rnd.ofCode (c : Nat) : Rnd :=
  match c % 4 with
  | 0 => .rn | 1 => .rz | 2 => .rd | _ => .ru

/-- Whether a magnitude with integer part `q` and fraction `r / d` is rounded up. -/
def Rnd.up (md : Rnd) (neg : Bool) (q r d : Nat) : Bool :=
  match md with
  | .rn => decide (d < 2 * r) || (decide (2 * r = d) && decide (q % 2 = 1))
  | .rz => false
  | .rd => neg && decide (r ≠ 0)
  | .ru => !neg && decide (r ≠ 0)

/-- Whether an overflow of this sign goes to infinity, R48. -/
def Rnd.toInf (md : Rnd) (neg : Bool) : Bool :=
  match md with
  | .rn => true
  | .rz => false
  | .rd => neg
  | .ru => !neg

/-! ### Exact values -/

/-- The exact value of a number: a NaN, an infinity, or (-1)^neg * m * 2^e. -/
inductive Num where
  | nan (signalling : Bool)
  | inf (neg : Bool)
  | fin (neg : Bool) (m : Nat) (e : Int)
  deriving DecidableEq, Repr

/-- The exact value of an integer. -/
def Num.ofInt (z : Int) : Num := .fin (decide (z < 0)) z.natAbs 0

def Num.isNan : Num → Bool
  | .nan _ => true
  | _ => false

def Num.isSig : Num → Bool
  | .nan s => s
  | _ => false

def Num.isZero : Num → Bool
  | .fin _ m _ => decide (m = 0)
  | _ => false

/-- Whether the sign is minus; a NaN has none. -/
def Num.sgn : Num → Bool
  | .nan _ => false
  | .inf n => n
  | .fin n _ _ => n

def Num.neg : Num → Num
  | .nan s => .nan s
  | .inf n => .inf (!n)
  | .fin n m e => .fin (!n) m e

def Num.abs : Num → Num
  | .nan s => .nan s
  | .inf _ => .inf false
  | .fin _ m e => .fin false m e

/-- A finite value times 2^k. -/
def Num.scale (x : Num) (k : Int) : Num :=
  match x with
  | .fin n m e => .fin n m (e + k)
  | y => y

/-- NV for a signalling NaN among the operands. -/
def sigFlag (a b : Num) : Word := flagIf (a.isSig || b.isSig) flagNV

/-- A magnitude with a sign, as an integer at exponent `e0 ≤ e`. -/
def signedAt (neg : Bool) (m : Nat) (e e0 : Int) : Int :=
  let v : Int := (m * 2 ^ (e - e0).toNat : Nat)
  if neg then -v else v

/-- The sign that an exact zero sum takes, R97. -/
def zeroSumSign (md : Rnd) (na : Bool) (za : Bool) (nb : Bool) (zb : Bool) : Bool :=
  if za && zb && na == nb then na else decide (md = .rd)

/-- The exact sum, R97; its exact zero has the sign the mode gives it. -/
def Num.add (md : Rnd) (a b : Num) : Num × Word :=
  match a, b with
  | .nan _, _ => (.nan false, sigFlag a b)
  | _, .nan _ => (.nan false, sigFlag a b)
  | .inf x, .inf y => if x = y then (.inf x, 0) else (.nan false, flagNV)
  | .inf x, .fin .. => (.inf x, 0)
  | .fin .., .inf y => (.inf y, 0)
  | .fin na ma ea, .fin nb mb eb =>
    let e0 := min ea eb
    let s := signedAt na ma ea e0 + signedAt nb mb eb e0
    if s = 0 then (.fin (zeroSumSign md na (decide (ma = 0)) nb (decide (mb = 0))) 0 0, 0)
    else (.fin (decide (s < 0)) s.natAbs e0, 0)

/-- The exact product. -/
def Num.mul (a b : Num) : Num × Word :=
  match a, b with
  | .nan _, _ => (.nan false, sigFlag a b)
  | _, .nan _ => (.nan false, sigFlag a b)
  | .inf x, .inf y => (.inf (x != y), 0)
  | .inf x, .fin y m _ => if m = 0 then (.nan false, flagNV) else (.inf (x != y), 0)
  | .fin x m _, .inf y => if m = 0 then (.nan false, flagNV) else (.inf (x != y), 0)
  | .fin x m e, .fin y m' e' => (.fin (x != y) (m * m') (e + e'), 0)

/-- The exact a * b + c, the product negated by `g` (R110, R111). -/
def Num.fma (md : Rnd) (g : Bool) (a b c : Num) : Num × Word :=
  let (p, f) := Num.mul a b
  let p := if g then p.neg else p
  let (r, f') := Num.add md p c
  (r, f ||| f')

/-- Exact order of two numbers that are no NaN: whether a < b, with -0 equal to +0. -/
def Num.lt (a b : Num) : Bool :=
  match a, b with
  | .nan _, _ => false
  | _, .nan _ => false
  | .inf x, .inf y => x && !y
  | .inf x, .fin .. => x
  | .fin .., .inf y => !y
  | .fin na ma ea, .fin nb mb eb =>
    let e0 := min ea eb
    decide (signedAt na ma ea e0 < signedAt nb mb eb e0)

/-- Exact equality of two numbers that are no NaN, with -0 equal to +0. -/
def Num.eqv (a b : Num) : Bool := !a.isNan && !b.isNan && !Num.lt a b && !Num.lt b a

/-- ⌊log2(num / den)⌋ for nonzero num and den. -/
def log2Rat (num den : Nat) : Int :=
  let k : Int := (Nat.log2 num : Int) - (Nat.log2 den : Int)
  let below : Bool := if 0 ≤ k then decide (num < den * 2 ^ k.toNat) else decide (num * 2 ^ (-k).toNat < den)
  if below then k - 1 else k

/-- num / den * 2^s as a quotient of naturals. -/
def scaleQ (num den : Nat) (s : Int) : Nat × Nat :=
  if 0 ≤ s then (num * 2 ^ s.toNat, den) else (num, den * 2 ^ (-s).toNat)

/-- ⌊log2 |x|⌋ of a finite nonzero value. -/
def Num.floorLog2 : Num → Int
  | .fin _ m e => (Nat.log2 m : Int) + e
  | _ => 0

/-! ### Floating-point layouts, R34, R35 -/

/-- How the all-ones exponent is read: IEEE style, the one E4M3 NaN, or all finite (E2M1). -/
inductive FKind where
  | ieee | e4m3 | e2m1
  deriving DecidableEq, Repr

/-- A floating-point layout: exponent and fraction widths and bias. -/
structure Fmt where
  ebits : Nat
  fbits : Nat
  bias : Nat
  kind : FKind
  deriving DecidableEq, Repr

def fp64 : Fmt := ⟨11, 52, 1023, .ieee⟩
def fp32 : Fmt := ⟨8, 23, 127, .ieee⟩
def fp16 : Fmt := ⟨5, 10, 15, .ieee⟩
def bf16 : Fmt := ⟨8, 7, 127, .ieee⟩
def e4m3 : Fmt := ⟨4, 3, 7, .e4m3⟩
def e5m2 : Fmt := ⟨5, 2, 15, .ieee⟩
def e2m1 : Fmt := ⟨2, 1, 1, .e2m1⟩
def fp32e : Fmt := ⟨8, 31, 127, .ieee⟩

/-- The position of the sign bit. -/
def Fmt.signPos (f : Fmt) : Nat := f.ebits + f.fbits

/-- The encoding of the largest finite value. -/
def Fmt.maxEnc (f : Fmt) : Nat :=
  match f.kind with
  | .ieee => (2 ^ f.ebits - 1) * 2 ^ f.fbits - 1
  | .e4m3 => 0x7E
  | .e2m1 => 0x7

/-- The encoding of infinity, where the format has one. -/
def Fmt.infEnc (f : Fmt) : Nat := (2 ^ f.ebits - 1) * 2 ^ f.fbits

/-- The canonical NaN; E2M1 has none and takes +6 (R48). -/
def Fmt.nanEnc (f : Fmt) : Nat :=
  match f.kind with
  | .ieee => f.infEnc + 2 ^ (f.fbits - 1)
  | .e4m3 => 0x7F
  | .e2m1 => 0x7

/-- The value of an encoding, R34. -/
def Fmt.value (f : Fmt) (bits : Nat) : Num :=
  let s : Bool := decide (bits / 2 ^ f.signPos % 2 = 1)
  let e := bits / 2 ^ f.fbits % 2 ^ f.ebits
  let fr := bits % 2 ^ f.fbits
  if f.kind = .ieee ∧ e = 2 ^ f.ebits - 1 then
    if fr = 0 then .inf s else .nan (decide (fr < 2 ^ (f.fbits - 1)))
  else if f.kind = .e4m3 ∧ e = 15 ∧ fr = 7 then .nan false
  else if e = 0 then .fin s fr (1 - (f.bias : Int) - f.fbits)
  else .fin s (2 ^ f.fbits + fr) ((e : Int) - f.bias - f.fbits)

/-- An encoding with its sign. -/
def Fmt.withSign (f : Fmt) (neg : Bool) (enc : Nat) : Nat := enc + (if neg then 2 ^ f.signPos else 0)

/-- What an overflow delivers, R48. -/
def Fmt.overflow (f : Fmt) (md : Rnd) (sat neg : Bool) : Nat × Word :=
  match f.kind with
  | .e2m1 => (f.withSign neg f.maxEnc, flagSAT ||| flagNX)
  | .e4m3 =>
    if sat then (f.withSign neg f.maxEnc, flagSAT ||| flagNX)
    else if md.toInf neg then (f.nanEnc, flagOF ||| flagNX)
    else (f.withSign neg f.maxEnc, flagOF ||| flagNX)
  | .ieee =>
    if sat then (f.withSign neg f.maxEnc, flagSAT ||| flagNX)
    else if md.toInf neg then (f.withSign neg f.infEnc, flagOF ||| flagNX)
    else (f.withSign neg f.maxEnc, flagOF ||| flagNX)

/-- Rounds the exact value (-1)^neg * num / den * 2^e once into a format, R44, R47, R48. -/
def Fmt.roundQ (f : Fmt) (md : Rnd) (sat neg : Bool) (num den : Nat) (e : Int) : Nat × Word :=
  if num = 0 then (f.withSign neg 0, 0)
  else
    let emin : Int := 1 - (f.bias : Int)
    let E := log2Rat num den + e
    let top := max E emin
    let (n, d) := scaleQ num den (e - (top - f.fbits))
    let q := n / d
    let r := n % d
    let q' := if md.up neg q r d then q + 1 else q
    let enc := (top + f.bias - 1).toNat * 2 ^ f.fbits + q'
    if f.maxEnc < enc then f.overflow md sat neg
    else
      let (n1, d1) := scaleQ num den (e - (E - f.fbits))
      let q1 := n1 / d1
      let carries := decide (E = emin - 1) && md.up neg q1 (n1 % d1) d1 && decide (q1 + 1 = 2 ^ (f.fbits + 1))
      let tiny := decide (E < emin) && !carries
      let nx := decide (r ≠ 0)
      (f.withSign neg enc, flagIf nx flagNX ||| flagIf (nx && tiny) flagUF)

/-- Rounds an exact value once into a format (R47, R48); the NV of a signalling NaN is the caller's. -/
def Fmt.round (f : Fmt) (md : Rnd) (sat : Bool) (x : Num) : Nat × Word :=
  match x with
  | .nan _ => (f.nanEnc, if f.kind = .e2m1 then flagNV else 0)
  | .inf n =>
    match f.kind with
    | .e2m1 => (f.withSign n f.maxEnc, flagSAT)
    | .e4m3 => if sat then (f.withSign n f.maxEnc, flagSAT) else (f.nanEnc, flagNV)
    | .ieee => if sat then (f.withSign n f.maxEnc, flagSAT) else (f.withSign n f.infEnc, 0)
  | .fin n m e => f.roundQ md sat n m 1 e

/-- Rounds a positive or negative value that lies strictly between q and q + 1 (or is q, when exact)
units of 2^e; q must have more bits than the format keeps. -/
def Fmt.roundSticky (f : Fmt) (md : Rnd) (neg : Bool) (q : Nat) (e : Int) (exact : Bool) : Nat × Word :=
  if exact then f.roundQ md false neg q 1 e else f.roundQ md false neg (2 * q + 1) 1 (e - 1)

/-! ### Rounding to integers -/

/-- (-1)^neg * num / den * 2^e rounded to an integer, and whether it changed. -/
def roundInt (md : Rnd) (neg : Bool) (num den : Nat) (e : Int) : Int × Bool :=
  let (n, d) := scaleQ num den e
  let q := n / d
  let r := n % d
  let q' : Nat := if md.up neg q r d then q + 1 else q
  (if neg then -(q' : Int) else (q' : Int), decide (r ≠ 0))

/-- Float to integer with saturation, R49. -/
def floatToInt (md : Rnd) (lo hi : Int) (x : Num) : Int × Word :=
  match x with
  | .nan _ => (0, flagNV)
  | .inf n => (if n then lo else hi, flagNV ||| flagSAT)
  | .fin n m e =>
    if m = 0 then (0, 0)
    else
      let big := decide (64 < (Nat.log2 m : Int) + e)
      let (v, nx) := if big then (if n then lo - 1 else hi + 1, true) else roundInt md n m 1 (max e (-(Nat.log2 m : Int) - 2))
      if hi < v then (hi, flagNV ||| flagSAT ||| flagNX)
      else if v < lo then (lo, flagNV ||| flagSAT ||| flagNX)
      else (v, flagIf nx flagNX)

/-! ### Element type codes, R32, R38 -/

/-- The width in bits of an element type code. -/
def typeWidth (c : Nat) : Nat :=
  match c with
  | 0 => 64 | 1 => 32 | 2 => 16 | 3 => 16 | 4 => 8 | 5 => 8 | 6 => 4 | 7 => 8 | 8 => 8 | 9 => 4 | 10 => 4
  | 11 => 32 | 12 => 40 | _ => 0

/-- Whether a code is an integer type. -/
def typeIsInt (c : Nat) : Bool := c == 7 || c == 8 || c == 9 || c == 10 || c == 11

/-- Codes 13 to 15 are reserved (R33). -/
def typeReserved (c : Nat) : Bool := decide (13 ≤ c)

/-- The floating-point layout of a code. -/
def typeFmt (c : Nat) : Fmt :=
  match c with
  | 0 => fp64 | 1 => fp32 | 2 => fp16 | 3 => bf16 | 4 => e4m3 | 5 => e5m2 | 6 => e2m1 | 12 => fp32e | _ => fp32

/-- The range of an integer type, R38. -/
def typeRange (c : Nat) : Int × Int :=
  match c with
  | 7 => (-128, 127) | 8 => (0, 255) | 9 => (-8, 7) | 10 => (0, 15) | _ => (-2147483648, 2147483647)

/-- A w-bit pattern read as two's complement. -/
def toSigned (w bits : Nat) : Int :=
  let b := bits % 2 ^ w
  if b < 2 ^ (w - 1) then (b : Int) else (b : Int) - (2 ^ w : Nat)

/-- The low w bits of an integer. -/
def ofInt (w : Nat) (z : Int) : Nat := (z % ((2 ^ w : Nat) : Int)).toNat

/-- The integer an integer-typed element holds. -/
def elemInt (c bits : Nat) : Int :=
  match c with
  | 8 => (bits % 256 : Nat)
  | 10 => (bits % 16 : Nat)
  | _ => toSigned (typeWidth c) bits

/-- The exact value of an element, R47 step 1. -/
def elemNum (c bits : Nat) : Num :=
  if typeIsInt c then .ofInt (elemInt c bits) else (typeFmt c).value bits

/-- Converts one element, R47-R49. -/
def convertElem (src dst : Nat) (md : Rnd) (sat : Bool) (bits : Nat) : Nat × Word :=
  if typeIsInt dst then
    let (lo, hi) := typeRange dst
    if typeIsInt src then
      let v := elemInt src bits
      if lo ≤ v ∧ v ≤ hi then (ofInt (typeWidth dst) v, 0)
      else if sat then (ofInt (typeWidth dst) (if v < lo then lo else hi), flagSAT)
      else (ofInt (typeWidth dst) v, 0)
    else
      let (v, f) := floatToInt md lo hi (elemNum src bits)
      (ofInt (typeWidth dst) v, f)
  else
    let x := elemNum src bits
    let (r, f) := (typeFmt dst).round md sat x
    (r, f ||| flagIf x.isSig flagNV)

/-! ### Arithmetic of one format, R97, R105-R111 -/

/-- Rounds an operation's exact result without saturation. -/
def Fmt.finish (f : Fmt) (md : Rnd) (r : Num × Word) : Nat × Word :=
  let (b, g) := f.round md false r.1
  (b, g ||| r.2)

def Fmt.fadd (f : Fmt) (md : Rnd) (a b : Nat) : Nat × Word := f.finish md ((f.value a).add md (f.value b))

/-- A - B: B's sign is turned, which changes no NaN. -/
def Fmt.fsub (f : Fmt) (md : Rnd) (a b : Nat) : Nat × Word := f.finish md ((f.value a).add md (f.value b).neg)

def Fmt.fmul (f : Fmt) (md : Rnd) (a b : Nat) : Nat × Word := f.finish md ((f.value a).mul (f.value b))

def Fmt.ffma (f : Fmt) (md : Rnd) (g : Bool) (a b c : Nat) : Nat × Word :=
  f.finish md (Num.fma md g (f.value a) (f.value b) (f.value c))

/-- Division, R108. -/
def Fmt.fdiv (f : Fmt) (md : Rnd) (a b : Nat) : Nat × Word :=
  match f.value a, f.value b with
  | .nan s, y => (f.nanEnc, sigFlag (.nan s) y)
  | x, .nan s => (f.nanEnc, sigFlag x (.nan s))
  | .inf _, .inf _ => (f.nanEnc, flagNV)
  | .inf x, .fin y _ _ => (f.withSign (x != y) f.infEnc, 0)
  | .fin x _ _, .inf y => (f.withSign (x != y) 0, 0)
  | .fin x m e, .fin y m' e' =>
    if m' = 0 then
      if m = 0 then (f.nanEnc, flagNV) else (f.withSign (x != y) f.infEnc, flagDZ)
    else f.roundQ md false (x != y) m m' (e - e')

/-- Minimum or maximum, R106: an operand unchanged. -/
def Fmt.fminmax (f : Fmt) (wantMax : Bool) (a b : Nat) : Nat × Word :=
  let x := f.value a
  let y := f.value b
  let fl := sigFlag x y
  if x.isNan then
    if y.isNan then (f.nanEnc, fl) else (b, fl)
  else if y.isNan then (a, fl)
  else
    let less : Bool := Num.lt x y || (Num.eqv x y && x.sgn && !y.sgn)
    (if less == wantMax then b else a, fl)

/-- Rounds to an integral value in the same format, R105 `frint`. -/
def Fmt.frint (f : Fmt) (md : Rnd) (a : Nat) : Nat × Word :=
  match f.value a with
  | .nan s => (f.nanEnc, flagIf s flagNV)
  | .inf _ => (a, 0)
  | .fin n m e =>
    if 0 ≤ e then (a, 0)
    else
      let (v, nx) := roundInt md n m 1 e
      let (r, _) := f.roundQ md false n v.natAbs 1 0
      (r, flagIf nx flagNX)

/-- The integer square root: the bits of the root from bit k down. -/
def isqrtFrom (n : Nat) : Nat → Nat → Nat
  | 0, r => r
  | k + 1, r => let r' := r + 2 ^ k; isqrtFrom n k (if r' * r' ≤ n then r' else r)

/-- ⌊√n⌋. -/
def isqrt (n : Nat) : Nat := isqrtFrom n (Nat.log2 n / 2 + 1) 0

/-- √ of a finite positive value m * 2^e, as ⌊√⌋ at 2^k with its exactness; `w` sets the precision. -/
def sqrtParts (m : Nat) (e : Int) (w : Nat) : Nat × Int × Bool :=
  let odd : Bool := decide (e % 2 = 1)
  let m' := (if odd then 2 * m else m) * 2 ^ (2 * w)
  let e' := (if odd then e - 1 else e) - 2 * w
  let q := isqrt m'
  (q, e' / 2, decide (q * q = m'))

/-- Square root, R108, R116. -/
def Fmt.fsqrt (f : Fmt) (md : Rnd) (a : Nat) : Nat × Word :=
  match f.value a with
  | .nan s => (f.nanEnc, flagIf s flagNV)
  | .inf n => if n then (f.nanEnc, flagNV) else (a, 0)
  | .fin n m e =>
    if m = 0 then (a, 0)
    else if n then (f.nanEnc, flagNV)
    else
      let (q, k, ex) := sqrtParts m e 64
      f.roundSticky md false q k ex

/-- 1 / √A, R115, R116. -/
def Fmt.frsq (f : Fmt) (md : Rnd) (a : Nat) : Nat × Word :=
  match f.value a with
  | .nan s => (f.nanEnc, flagIf s flagNV)
  | .inf n => if n then (f.nanEnc, flagNV) else (0, 0)
  | .fin n m e =>
    if m = 0 then (f.withSign n f.infEnc, flagDZ)
    else if n then (f.nanEnc, flagNV)
    else
      let odd : Bool := decide (e % 2 = 1)
      let m' := if odd then 2 * m else m
      let e' := if odd then e - 1 else e
      let q := isqrt (2 ^ 256 / m')
      f.roundSticky md false q (-(e' / 2) - 128) (decide (q * q * m' = 2 ^ 256))

/-- 1 / A, R115, R116. -/
def Fmt.frcp (f : Fmt) (md : Rnd) (a : Nat) : Nat × Word :=
  match f.value a with
  | .nan s => (f.nanEnc, flagIf s flagNV)
  | .inf n => (f.withSign n 0, 0)
  | .fin n m e =>
    if m = 0 then (f.withSign n f.infEnc, flagDZ)
    else f.roundQ md false n 1 m (-e)

/-! ### Compares, R112 -/

/-- The float compare of a condition code: its truth and its flag. -/
def floatCond (cond : Nat) (x y : Num) : Bool × Word :=
  let un := x.isNan || y.isNan
  let sig := sigFlag x y
  let quietNV := flagIf un flagNV
  match cond with
  | 0 => (!un && Num.eqv x y, sig)
  | 1 => (!un && !Num.eqv x y, sig)
  | 2 => (!un && Num.lt x y, quietNV)
  | 3 => (!un && !Num.lt y x, quietNV)
  | 4 => (!un && Num.lt y x, quietNV)
  | 5 => (!un && !Num.lt x y, quietNV)
  | 6 => (!un, sig)
  | 7 => (un, sig)
  | 8 => (un || Num.eqv x y, sig)
  | 9 => (un || !Num.eqv x y, sig)
  | 10 => (un || Num.lt x y, sig)
  | 11 => (un || !Num.lt y x, sig)
  | 12 => (un || Num.lt y x, sig)
  | 13 => (un || !Num.lt x y, sig)
  | 14 => (true, 0)
  | _ => (false, 0)

/-- The integer compare of a condition code. -/
def intCond (cond : Nat) (x y : Int) : Bool :=
  match cond with
  | 0 => decide (x = y)
  | 1 => decide (x ≠ y)
  | 2 => decide (x < y)
  | 3 => decide (x ≤ y)
  | 4 => decide (y < x)
  | 5 => decide (y ≤ x)
  | 14 => true
  | _ => false

/-! ### Scale schemes, R50-R54 -/

/-- The factor of an E8M0 scale as a power of two, or none for 0xFF (R50). -/
def e8m0Exp (c : Nat) : Option Int := if c % 256 = 255 then none else some ((c % 256 : Nat) - 127)

/-- The exponent of a target's largest finite value, R52. -/
def e8m0Emax (target : Nat) : Int :=
  match target with
  | 4 => 8 | 5 => 15 | _ => 2

/-- The largest magnitude among finite values, as a finite nonnegative value. -/
def numMaxAbs (xs : List Num) : Num :=
  xs.foldl (fun m x => if Num.lt m x.abs then x.abs else m) (.fin false 0 0)

/-- Whether a NaN or an infinity is among the values. -/
def numsBad (xs : List Num) : Bool :=
  xs.any fun x => match x with | .fin .. => false | _ => true

/-- The scale byte that R52 gives a largest magnitude. -/
def e8m0Scale (target : Nat) (amax : Num) : Nat :=
  if amax.isZero then 127
  else
    let s := max (-127) (min 127 (amax.floorLog2 - e8m0Emax target))
    (s + 127).toNat

/-- One element of a block quantised with scale byte `c` (R52): a scaled value beyond the largest finite one is clamped to it,
with SAT and NX, also where it would round back to it. -/
def e8m0Elem (target : Nat) (md : Rnd) (c : Nat) (x : Num) : Nat × Word :=
  let f := typeFmt target
  let y := x.scale (127 - (c : Int))
  if Num.lt (f.value f.maxEnc) y.abs then (f.withSign y.sgn f.maxEnc, flagSAT ||| flagNX) else f.round md true y

/-- Quantises a block into an E8M0 format, R52: the scale byte, the elements and the flags. -/
def e8m0Block (target : Nat) (md : Rnd) (xs : List Num) : Nat × List Nat × Word :=
  if numsBad xs then (255, xs.map (fun _ => 0), flagNV)
  else
    let amax := numMaxAbs xs
    if amax.isZero then (127, xs.map (fun _ => 0), 0)
    else
      let c := e8m0Scale target amax
      let es := xs.map (e8m0Elem target md c)
      (c, es.map (·.1), es.foldl (fun f e => f ||| e.2) 0)

/-- The numerator and denominator that a dyadic value divided by another gives. -/
def quotParts (x d : Num) : Bool × Nat × Nat × Int :=
  match x, d with
  | .fin n m e, .fin n' m' e' => (n != n', m, m', e - e')
  | _, _ => (false, 0, 1, 0)

/-- Quantises an asymmetric group, R54. The rounding of the scale and the zero point raises no flag of its own; a
saturated scale and a clamped element do (DEDUCED, safe to read so: R54 names each flag it sets; log entry 12).
It gives the FP16 scale, the zero point, the elements and the flags. -/
def asymGroup (target : Nat) (md : Rnd) (xs : List Num) : Nat × Int × List Int × Word :=
  if numsBad xs then (0x7E00, 0, xs.map (fun _ => 0), flagNV)
  else
    let (qmin, qmax) := typeRange target
    let lo := xs.foldl (fun m x => if Num.lt x m then x else m) (.fin false 0 0)
    let hi := xs.foldl (fun m x => if Num.lt m x then x else m) (.fin false 0 0)
    let span := (hi.add .rn lo.neg).1
    let d0 := match span with
      | .fin _ m e => (fp16.roundQ .ru false false m (qmax - qmin).toNat e).1
      | _ => 0
    let (d1, f1) := if d0 = fp16.infEnc then (0x7BFF, flagSAT ||| flagNX) else (d0, 0#32)
    let d := if d1 = 0 then 0x3C00 else d1
    let dv := fp16.value d
    let (ln, lm, ld, le) := quotParts lo dv
    let (lz, _) := roundInt .rn ln lm ld le
    let z := max qmin (min qmax (qmin - lz))
    let es := xs.map fun x =>
      let (n, m, dn, e) := quotParts x dv
      let (v, nx) := roundInt md n m dn e
      let q := v + z
      if q < qmin ∨ qmax < q then (max qmin (min qmax q), flagSAT ||| flagNX) else (q, flagIf nx flagNX)
    (d, z, es.map (·.1), es.foldl (fun f e => f ||| e.2) f1)

/-- The exact value of an element of an asymmetric group, d * (q - z) (R53). -/
def asymValue (d : Nat) (z q : Int) : Num := ((fp16.value d).mul (.ofInt (q - z))).1

/-- The record of an asymmetric group, R53. -/
def asymRecord (target d : Nat) (z : Int) : Nat :=
  d % 2 ^ 16 + ofInt (if typeWidth target = 4 then 4 else 8) z * 2 ^ 16

/-- The scale and zero point of a record, R53. -/
def asymOfRecord (target r : Nat) : Nat × Int :=
  (r % 2 ^ 16, elemInt target (r / 2 ^ 16 % 256))

end Sys2Proof.Machine
end

