-- ==== Sys2Proof/Machine/Atomics.lean ====
section
/-! DEFINITION. The functions of atomics and reductions (06 R152, R156, R159): operand widths and the value each
step leaves. -/

namespace Sys2Proof.Machine

open Sys2Proof

/-- The operand width in bytes of an atomic's op and T, or none where R152 does not list the pair. -/
def atomWidth (op ty : Nat) : Option Nat :=
  if op = 8 ∨ op = 9 ∨ op = 19 then
    match ty with
    | 0 => some 4 | 1 => some 8 | 2 => some 16 | _ => none
  else if op = 10 ∨ op = 11 ∨ op = 12 then
    match ty with
    | 0 => some 4 | 1 => some 8 | 2 => some 4 | 3 => some 4 | _ => none
  else if op ≤ 19 then
    match ty with
    | 0 => some 4 | 1 => some 8 | _ => none
  else none

/-- The operand width in bytes of a reduction's op and T (R159). -/
def redWidth (op ty : Nat) : Option Nat :=
  if op ≤ 7 then
    match ty with
    | 0 => some 4 | 1 => some 8 | _ => none
  else if op ≤ 11 then
    match ty with
    | 0 => some 4 | 1 => some 8 | 2 => some 4 | 3 => some 4 | _ => none
  else none

/-- A two-operand function of a floating-point type T: on the whole, or on each packed element. -/
def fpByType (ty : Nat) (g : Fmt → Nat → Nat → Nat) (a b : Nat) : Nat :=
  match ty with
  | 0 => g fp32 a b
  | 1 => g fp64 a b
  | 2 => g fp16 (a % 65536) (b % 65536) + 65536 * g fp16 (a / 65536 % 65536) (b / 65536 % 65536)
  | _ => g bf16 (a % 65536) (b % 65536) + 65536 * g bf16 (a / 65536 % 65536) (b / 65536 % 65536)

/-- A floating-point sum, to nearest, with no flag (R156). -/
def fpSum (ty a b : Nat) : Nat := fpByType ty (fun f x y => (f.fadd .rn x y).1) a b

/-- A floating-point minimum or maximum (R106, R156). -/
def fpExt (mx : Bool) (ty a b : Nat) : Nat := fpByType ty (fun f x y => (f.fminmax mx x y).1) a b

/-- An element's magnitude: its sign bit cleared. -/
def fpMag (ty a : Nat) : Nat := fpByType ty (fun f x _ => x % 2 ^ f.signPos) a 0

/-- The minimum or maximum of two w-byte values, signed or not. -/
def intExt (w : Nat) (signed mx : Bool) (a b : Nat) : Nat :=
  let lt : Bool := if signed then decide (toSigned (8 * w) a < toSigned (8 * w) b) else decide (a < b)
  if lt == mx then b else a

/-- The memory value an atomic's step leaves (R152): `m` the value, `v` and `v2` the operands, `l` the limit. -/
def atomStep (op ty w m v v2 l : Nat) : Nat :=
  let q := 2 ^ (8 * w)
  match op with
  | 0 => (m + v) % q
  | 1 => intExt w true false m v
  | 2 => intExt w true true m v
  | 3 => intExt w false false m v
  | 4 => intExt w false true m v
  | 5 => Nat.land m v
  | 6 => Nat.lor m v
  | 7 => Nat.xor m v
  | 8 => v
  | 9 => if m = v then v2 else m
  | 10 => fpSum ty m v
  | 11 => fpExt false ty m v
  | 12 => fpExt true ty m v
  | 13 => if m < v then m + 1 else m
  | 14 => if m < v then m + 1 else 0
  | 15 => if m ≠ 0 then m - 1 else m
  | 16 => if 0 < toSigned (8 * w) m then m - 1 else m
  | 17 => if m + v ≤ l then m + v else m
  | 18 =>
    let z := toSigned (8 * w) m + toSigned (8 * w) v
    if z ≤ toSigned (8 * w) l then ofInt (8 * w) z else m
  | _ => m

/-- The combining function of a reduction (R159): `m` is what stands, `c` the contribution. -/
def redCombine (op ty w m c : Nat) : Nat :=
  match op with
  | 0 => (m + c) % 2 ^ (8 * w)
  | 1 => intExt w true false m c
  | 2 => intExt w true true m c
  | 3 => intExt w false false m c
  | 4 => intExt w false true m c
  | 5 => Nat.land m c
  | 6 => Nat.lor m c
  | 7 => Nat.xor m c
  | 8 => fpSum ty m c
  | 9 => fpExt false ty m c
  | 10 => fpExt true ty m c
  | _ => fpSum ty m (fpMag ty c)

/-- A contribution as it enters (R159): a sum of magnitudes clears its sign. -/
def redEnter (op ty c : Nat) : Nat := if op = 11 then fpMag ty c else c

end Sys2Proof.Machine
end

