-- ==== Sys2Proof/Machine/Store.lean ====
section
/-! DEFINITION. Sparse maps by number: lists of pairs with strictly rising keys. Memory is one of bytes,
with nothing listed for a byte that is 0 (log entry 2). -/

namespace Sys2Proof.Machine

open Sys2Proof

/-- A sparse map: pairs of a key and a value, keys strictly rising. -/
abbrev SMap (β : Type) := List (Nat × β)

/-- The value at a key. -/
def sget {β : Type} : SMap β → Nat → Option β
  | [], _ => none
  | p :: m, k => if p.1 = k then some p.2 else sget m k

/-- The map without a key. -/
def sdel {β : Type} (m : SMap β) (k : Nat) : SMap β := m.filter fun p => decide (p.1 ≠ k)

/-- A pair put in its place, before the first larger key. -/
def splace {β : Type} (k : Nat) (v : β) : SMap β → SMap β
  | [] => [(k, v)]
  | p :: m => if k < p.1 then (k, v) :: p :: m else p :: splace k v m

/-- The map with a value at a key. -/
def sput {β : Type} (m : SMap β) (k : Nat) (v : β) : SMap β := splace k v (sdel m k)

/-- The value at a key, or a default. -/
def sgetD {β : Type} (m : SMap β) (k : Nat) (d : β) : β := (sget m k).getD d

/-- A change of the value at a key, where there is one. -/
def smod {β : Type} (m : SMap β) (k : Nat) (f : β → β) : SMap β := m.map fun p => if p.1 = k then (k, f p.2) else p

/-- Whether the keys rise strictly. -/
def keysRise {β : Type} : SMap β → Bool
  | [] => true
  | [_] => true
  | p :: q :: m => decide (p.1 < q.1) && keysRise (q :: m)

/-- One byte; a byte not listed reads 0. -/
def bget (m : SMap Byte) (a : Nat) : Byte := sgetD m a 0

/-- One byte written, in canonical form. -/
def bset (m : SMap Byte) (a : Nat) (v : Byte) : SMap Byte := if v = 0 then sdel m a else sput m a v

/-- The canonical form of memory: keys strictly rising, and no byte 0 listed. -/
def Memory.wf (m : SMap Byte) : Bool := keysRise m && m.all fun p => decide (p.2 ≠ 0)

/-- Bytes written from an address on. -/
def bsetMany (m : SMap Byte) (a : Nat) : List Byte → SMap Byte
  | [] => m
  | b :: bs => bsetMany (bset m a b) (a + 1) bs

/-- `n` bytes from an address on. -/
def bgetMany (m : SMap Byte) (a n : Nat) : List Byte := (List.range n).map fun i => bget m (a + i)

/-- A register file: a register not listed reads 0. -/
def rget (m : SMap Word) (r : Nat) : Word := sgetD m r 0

/-- One register written; a register that holds 0 is not listed. -/
def rset (m : SMap Word) (r : Nat) (v : Word) : SMap Word := if v = 0 then sdel m r else sput m r v

/-- The element of a list at a place, or a default. -/
def nth {β : Type} (l : List β) (i : Nat) (d : β) : β := (l[i]?).getD d

end Sys2Proof.Machine
end

