-- ==== Sys2Proof/Syntax.lean ====
section
/-! DEFINITION. The instruction syntax of the GZ9: one constructor for each row of spec/opcode_table.json.
Rows with an encoding carry that encoding's fields as the table names them, raw (04 R73, 14 R346); rows
without one are events of the machine, and carry what names the item they act on. -/

namespace Sys2Proof

/-- One constructor per row of spec/opcode_table.json, in the table's order. The first 279 are Densil
instructions, the next 52 fixer instructions, the last 108 events. -/
inductive Instr where
  /-- R72. 16-bit form: D := S; the result is latched and N suppresses the register write. -/
  | mov16 (n : BitVec 1) (s d : BitVec 5)
  /-- R72. 16-bit form: D := D + S mod 2^32. -/
  | iadd16 (n : BitVec 1) (s d : BitVec 5)
  /-- R72. 16-bit form: D := D - S mod 2^32. -/
  | isub16 (n : BitVec 1) (s d : BitVec 5)
  /-- R72. 16-bit form: D := the low 32 bits of D x S. -/
  | imul16 (n : BitVec 1) (s d : BitVec 5)
  /-- R72. 16-bit form: D := D and S. -/
  | and16 (n : BitVec 1) (s d : BitVec 5)
  /-- R72. 16-bit form: D := D or S. -/
  | or16 (n : BitVec 1) (s d : BitVec 5)
  /-- R72. 16-bit form: D := D xor S. -/
  | xor16 (n : BitVec 1) (s d : BitVec 5)
  /-- R72. 16-bit form: D := D shifted left by S, or 0 when S is 32 or more. -/
  | shl16 (n : BitVec 1) (s d : BitVec 5)
  /-- R72. 16-bit form: D := D shifted right by S with zero fill. -/
  | shr16 (n : BitVec 1) (s d : BitVec 5)
  /-- R72. 16-bit form: D := D shifted right by S with sign fill. -/
  | sar16 (n : BitVec 1) (s d : BitVec 5)
  /-- R72. 16-bit form: FP32 D := round(D + S). -/
  | fadd16 (n : BitVec 1) (s d : BitVec 5)
  /-- R72. 16-bit form: FP32 D := round(D - S). -/
  | fsub16 (n : BitVec 1) (s d : BitVec 5)
  /-- R72. 16-bit form: FP32 D := round(D x S). -/
  | fmul16 (n : BitVec 1) (s d : BitVec 5)
  /-- R72. 16-bit form: FP32 minimum of D and S, under the rules of R106. -/
  | fmin16 (n : BitVec 1) (s d : BitVec 5)
  /-- R72. 16-bit form: FP32 maximum of D and S, under the rules of R106. -/
  | fmax16 (n : BitVec 1) (s d : BitVec 5)
  /-- R72. 16-bit form: D := D + S x b0 in FP32, with one rounding. -/
  | fmac16 (n : BitVec 1) (s d : BitVec 5)
  /-- R101. D := B; the A field is not read. -/
  | mov (n : BitVec 1) (b a d : BitVec 7)
  /-- R101. 32-bit integer add, mod 2^32. -/
  | iadd (n : BitVec 1) (b a d : BitVec 7)
  /-- R101. 32-bit integer subtract, mod 2^32. -/
  | isub (n : BitVec 1) (b a d : BitVec 7)
  /-- R101. The low 32 bits of A x B. -/
  | imul (n : BitVec 1) (b a d : BitVec 7)
  /-- R101. Bitwise and. -/
  | and (n : BitVec 1) (b a d : BitVec 7)
  /-- R101. Bitwise or. -/
  | or (n : BitVec 1) (b a d : BitVec 7)
  /-- R101. Bitwise xor. -/
  | xor (n : BitVec 1) (b a d : BitVec 7)
  /-- R101. Left shift by the whole of B, or 0 when B is 32 or more. -/
  | shl (n : BitVec 1) (b a d : BitVec 7)
  /-- R101. Logical right shift by the whole of B. -/
  | shr (n : BitVec 1) (b a d : BitVec 7)
  /-- R101. Arithmetic right shift by the whole of B. -/
  | sar (n : BitVec 1) (b a d : BitVec 7)
  /-- R101. Signed 32-bit minimum. -/
  | iminS32 (n : BitVec 1) (b a d : BitVec 7)
  /-- R101. Signed 32-bit maximum. -/
  | imaxS32 (n : BitVec 1) (b a d : BitVec 7)
  /-- R101. Unsigned 32-bit minimum. -/
  | iminN32 (n : BitVec 1) (b a d : BitVec 7)
  /-- R101. Unsigned 32-bit maximum. -/
  | imaxN32 (n : BitVec 1) (b a d : BitVec 7)
  /-- R103. 64-bit pair add, mod 2^64. -/
  | iaddB64 (n : BitVec 1) (b a d : BitVec 7)
  /-- R103. 64-bit pair subtract, mod 2^64. -/
  | isubB64 (n : BitVec 1) (b a d : BitVec 7)
  /-- R103. Exact 64-bit product of two signed 32-bit values. -/
  | imulwS32 (n : BitVec 1) (b a d : BitVec 7)
  /-- R103. Exact 64-bit product of two unsigned 32-bit values. -/
  | imulwN32 (n : BitVec 1) (b a d : BitVec 7)
  /-- R103. 64-bit pair left shift. -/
  | shlB64 (n : BitVec 1) (b a d : BitVec 7)
  /-- R103. 64-bit pair logical right shift. -/
  | shrB64 (n : BitVec 1) (b a d : BitVec 7)
  /-- R104. Signed bit-field extract. -/
  | bfxS32 (n : BitVec 1) (b a d : BitVec 7)
  /-- R104. Unsigned bit-field extract. -/
  | bfxN32 (n : BitVec 1) (b a d : BitVec 7)
  /-- R104. Bit-field insert into D. -/
  | bfiB32 (n : BitVec 1) (b a d : BitVec 7)
  /-- R103. Population count of A. -/
  | popcB32 (n : BitVec 1) (a d : BitVec 7)
  /-- R102. Add of a sign-extended 9-bit immediate. -/
  | iaddImm (i : BitVec 9) (a d : BitVec 7)
  /-- R102. Multiply by an immediate. -/
  | imulImm (i : BitVec 9) (a d : BitVec 7)
  /-- R102. And with an immediate. -/
  | andImm (i : BitVec 9) (a d : BitVec 7)
  /-- R102. Or with an immediate. -/
  | orImm (i : BitVec 9) (a d : BitVec 7)
  /-- R102. Xor with an immediate. -/
  | xorImm (i : BitVec 9) (a d : BitVec 7)
  /-- R102. Left shift by an immediate. -/
  | shlImm (i : BitVec 9) (a d : BitVec 7)
  /-- R102. Logical right shift by an immediate. -/
  | shrImm (i : BitVec 9) (a d : BitVec 7)
  /-- R102. Arithmetic right shift by an immediate. -/
  | sarImm (i : BitVec 9) (a d : BitVec 7)
  /-- R92. D := the sign-extended 18-bit immediate; does not latch. -/
  | mvk (k : BitVec 18) (d : BitVec 7)
  /-- R92. Replaces bits [31:14] of D with the 18-bit immediate. -/
  | mvkh (k : BitVec 18) (d : BitVec 7)
  /-- R105. FP32 add, rounded once. -/
  | fadd (n : BitVec 1) (b a d : BitVec 7)
  /-- R105. FP32 subtract. -/
  | fsub (n : BitVec 1) (b a d : BitVec 7)
  /-- R105. FP32 multiply. -/
  | fmul (n : BitVec 1) (b a d : BitVec 7)
  /-- R106. FP32 minimum. -/
  | fmin (n : BitVec 1) (b a d : BitVec 7)
  /-- R106. FP32 maximum. -/
  | fmax (n : BitVec 1) (b a d : BitVec 7)
  /-- R108. FP32 divide, correctly rounded. -/
  | fdiv (n : BitVec 1) (b a d : BitVec 7)
  /-- R105. Rounds A to an integral FP32 value. -/
  | frint (n : BitVec 1) (a d : BitVec 7)
  /-- R105. A with its sign replaced by the sign of B. -/
  | fsgnj (n : BitVec 1) (b a d : BitVec 7)
  /-- R107. FP64 add. -/
  | faddF64 (n : BitVec 1) (b a d : BitVec 7)
  /-- R107. FP64 multiply. -/
  | fmulF64 (n : BitVec 1) (b a d : BitVec 7)
  /-- R108. FP64 divide. -/
  | fdivF64 (n : BitVec 1) (b a d : BitVec 7)
  /-- R108. FP64 square root. -/
  | fsqrtF64 (n : BitVec 1) (a d : BitVec 7)
  /-- R107. FP64 minimum. -/
  | fminF64 (n : BitVec 1) (b a d : BitVec 7)
  /-- R107. FP64 maximum. -/
  | fmaxF64 (n : BitVec 1) (b a d : BitVec 7)
  /-- R109. Packed FP16 add. -/
  | faddF16 (n : BitVec 1) (b a d : BitVec 7)
  /-- R109. Packed FP16 multiply. -/
  | fmulF16 (n : BitVec 1) (b a d : BitVec 7)
  /-- R109. Packed FP16 maximum. -/
  | fmaxF16 (n : BitVec 1) (b a d : BitVec 7)
  /-- R109. Packed BF16 add. -/
  | faddBf16 (n : BitVec 1) (b a d : BitVec 7)
  /-- R109. Packed BF16 multiply. -/
  | fmulBf16 (n : BitVec 1) (b a d : BitVec 7)
  /-- R109. Packed BF16 maximum. -/
  | fmaxBf16 (n : BitVec 1) (b a d : BitVec 7)
  /-- R110. FP32 fused multiply-add (G negates the product), adding D or b0. -/
  | fmaF32 (n g c : BitVec 1) (b a d : BitVec 7)
  /-- R110. FP64 fused multiply-add on register pairs. -/
  | fmaF64 (n g c : BitVec 1) (b a d : BitVec 7)
  /-- R110. Packed FP16 fused multiply-add. -/
  | fmaF16x2 (n g c : BitVec 1) (b a d : BitVec 7)
  /-- R110. Packed BF16 fused multiply-add. -/
  | fmaBf16x2 (n g c : BitVec 1) (b a d : BitVec 7)
  /-- R112. Compare equal, writing a predicate. -/
  | ceq (t : BitVec 2) (b a : BitVec 7) (p : BitVec 6)
  /-- R112. Compare not equal. -/
  | cne (t : BitVec 2) (b a : BitVec 7) (p : BitVec 6)
  /-- R112. Compare less than. -/
  | clt (t : BitVec 2) (b a : BitVec 7) (p : BitVec 6)
  /-- R112. Compare less or equal. -/
  | cle (t : BitVec 2) (b a : BitVec 7) (p : BitVec 6)
  /-- R112. Compare greater than. -/
  | cgt (t : BitVec 2) (b a : BitVec 7) (p : BitVec 6)
  /-- R112. Compare greater or equal. -/
  | cge (t : BitVec 2) (b a : BitVec 7) (p : BitVec 6)
  /-- R112. True when neither float operand is a NaN. -/
  | cord (t : BitVec 1) (b a : BitVec 7) (p : BitVec 6)
  /-- R112. True when either float operand is a NaN. -/
  | cuno (t : BitVec 1) (b a : BitVec 7) (p : BitVec 6)
  /-- R112. Unordered or equal. -/
  | cueq (t : BitVec 1) (b a : BitVec 7) (p : BitVec 6)
  /-- R112. Unordered or not equal. -/
  | cune (t : BitVec 1) (b a : BitVec 7) (p : BitVec 6)
  /-- R112. Unordered or less than. -/
  | cult (t : BitVec 1) (b a : BitVec 7) (p : BitVec 6)
  /-- R112. Unordered or less or equal. -/
  | cule (t : BitVec 1) (b a : BitVec 7) (p : BitVec 6)
  /-- R112. Unordered or greater than. -/
  | cugt (t : BitVec 1) (b a : BitVec 7) (p : BitVec 6)
  /-- R112. Unordered or greater or equal. -/
  | cuge (t : BitVec 1) (b a : BitVec 7) (p : BitVec 6)
  /-- R112. Writes the predicate true. -/
  | ctrue (t : BitVec 2) (b a : BitVec 7) (p : BitVec 6)
  /-- R112. Writes the predicate false. -/
  | cfalse (t : BitVec 2) (b a : BitVec 7) (p : BitVec 6)
  /-- R113. Pd := fn(Pa, Pb). -/
  | plop (f : BitVec 4) (b a p : BitVec 6)
  /-- R113. Pd := Pd and fn(Pa, Pb). -/
  | pland (f : BitVec 4) (b a p : BitVec 6)
  /-- R113. Pd := Pd or fn(Pa, Pb). -/
  | plor (f : BitVec 4) (b a p : BitVec 6)
  /-- R113. Pd := Pd xor fn(Pa, Pb). -/
  | plxor (f : BitVec 4) (b a p : BitVec 6)
  /-- R114. D := A if Ps is true, else B. -/
  | sel (n : BitVec 1) (s : BitVec 4) (b a d : BitVec 7)
  /-- R115. Correctly rounded 2^A. -/
  | exp2 (n : BitVec 1) (a d : BitVec 7)
  /-- R115. Correctly rounded log2 A. -/
  | log2 (n : BitVec 1) (a d : BitVec 7)
  /-- R115. Correctly rounded 1/A. -/
  | rcp (n : BitVec 1) (a d : BitVec 7)
  /-- R115. Correctly rounded 1/sqrt A. -/
  | rsq (n : BitVec 1) (a d : BitVec 7)
  /-- R115. Correctly rounded sqrt A. -/
  | sqrt (n : BitVec 1) (a d : BitVec 7)
  /-- R115. Correctly rounded sin A. -/
  | sin (n : BitVec 1) (a d : BitVec 7)
  /-- R115. Correctly rounded cos A. -/
  | cos (n : BitVec 1) (a d : BitVec 7)
  /-- R115. Correctly rounded tanh A. -/
  | tanh (n : BitVec 1) (a d : BitVec 7)
  /-- R95. Reads a special register into D. -/
  | movs (s : BitVec 12) (d : BitVec 7)
  /-- R95. Writes a special register, checked by R94. -/
  | sets (s : BitVec 12) (a : BitVec 7)
  /-- R95. Sets the register window base WB. -/
  | setwb (w : BitVec 12)
  /-- R95. Sets index register xk. -/
  | xset (k : BitVec 2) (u : BitVec 10)
  /-- R95. Adds a signed value to xk, mod 1,024. -/
  | xadd (k : BitVec 2) (v : BitVec 10)
  /-- R95. No effect. -/
  | nop
  /-- R136. Orders the thread's accesses with release and/or acquire semantics at a scope. -/
  | fence (r : BitVec 2) (s : BitVec 3)
  /-- R137. Holds the thread until osc is at most n. -/
  | oswait (n : BitVec 12)
  /-- R138. Evicts k lines from the reducing cache to HBM. -/
  | rcflush (k : BitVec 12) (a : BitVec 7)
  /-- R436. Writes a marker trace record in each active lane. -/
  | tmark (i : BitVec 12) (a : BitVec 7)
  /-- R436. Marks the thread's next load as sampled. -/
  | tsmp
  /-- R173. Branch, optionally on a predicate and its negation, with a uniformity assertion. -/
  | br (o : BitVec 18) (q : BitVec 1) (p : BitVec 6) (u : BitVec 1)
  /-- R176. Pushes the return address and jumps to a PC-relative target. -/
  | call (o : BitVec 25) (u : BitVec 1)
  /-- R178. Indirect call through a register pair. -/
  | calli (u : BitVec 1) (a : BitVec 7)
  /-- R178. Indirect jump through a register pair. -/
  | jmpi (u : BitVec 1) (a : BitVec 7)
  /-- R178. Pops the return stack and jumps to the popped address. -/
  | ret (u : BitVec 1)
  /-- R188. Raises software trap cause 0x20 with subcause n. -/
  | trap (n : BitVec 8)
  /-- R187. Leaves the handler and returns to trpch:trpc. -/
  | trapret
  /-- R190. Holds until osc = 0, then ends the thread. -/
  | exit
  /-- R191. Lets the issue stage switch to another ready group. -/
  | yield
  /-- R91. Starts a zero-overhead loop whose count is taken from a register. -/
  | loop (o : BitVec 13) (a : BitVec 7) (l : BitVec 2)
  /-- R91. Starts a zero-overhead loop with an immediate count. -/
  | loopi (o : BitVec 13) (i : BitVec 7) (l : BitVec 2)
  /-- R91. Leaves loop level k and the inner levels. -/
  | lbrk (l : BitVec 2)
  /-- R91. Ends the current iteration of loop level k. -/
  | lcont (l : BitVec 2)
  /-- R181. Block barrier arrival and wait. -/
  | bar
  /-- R183. Arms or disarms a convergence register. -/
  | cvarm (k : BitVec 4) (a : BitVec 7)
  /-- R184. Signs a convergence register without waiting. -/
  | cvsign (k : BitVec 4)
  /-- R184. Signs a convergence register and waits for the phase. -/
  | cvsync (k : BitVec 4)
  /-- R184. Waits until the phase moves past the thread's last sign. -/
  | cvwait (k : BitVec 4)
  /-- R199. Takes A from rank B[4:0]. -/
  | shflIdx (n : BitVec 1) (b a d : BitVec 7)
  /-- R199. Takes A from rank r - B. -/
  | shflUp (n : BitVec 1) (b a d : BitVec 7)
  /-- R199. Takes A from rank r + B. -/
  | shflDn (n : BitVec 1) (b a d : BitVec 7)
  /-- R199. Takes A from rank r xor B. -/
  | shflXor (n : BitVec 1) (b a d : BitVec 7)
  /-- R199. Quad exchange with a xor pattern. -/
  | qxchXor (n : BitVec 1) (m : BitVec 2) (a d : BitVec 7)
  /-- R199. Quad broadcast from a position within the quad. -/
  | qxchBc (n : BitVec 1) (m : BitVec 2) (a d : BitVec 7)
  /-- R201. Mask of the ranks whose A is nonzero. -/
  | gqMask (n : BitVec 1) (a d : BitVec 7)
  /-- R201. 1 if every lane has A nonzero. -/
  | gqEvery (n : BitVec 1) (a d : BitVec 7)
  /-- R201. 1 if some lane has A nonzero. -/
  | gqSome (n : BitVec 1) (a d : BitVec 7)
  /-- R201. 1 if every lane holds the same A. -/
  | gqSame (n : BitVec 1) (a d : BitVec 7)
  /-- R202. Mask of the lanes with an equal 32-bit key. -/
  | peersB32 (n : BitVec 1) (a d : BitVec 7)
  /-- R202. Mask of the lanes with an equal 64-bit key. -/
  | peersB64 (n : BitVec 1) (a d : BitVec 7)
  /-- R203. One radix-2 butterfly stage across ranks. -/
  | bflyS64 (n : BitVec 1) (k : BitVec 3) (a d : BitVec 7)
  /-- R205. Inclusive integer add scan. -/
  | scanAdd (n : BitVec 1) (a d : BitVec 7)
  /-- R205. Inclusive FP32 add scan. -/
  | scanFadd (n : BitVec 1) (a d : BitVec 7)
  /-- R205. Inclusive signed max scan. -/
  | scanMax (n : BitVec 1) (a d : BitVec 7)
  /-- R205. Inclusive signed min scan. -/
  | scanMin (n : BitVec 1) (a d : BitVec 7)
  /-- R205. Exclusive integer add scan. -/
  | scanxAdd (n : BitVec 1) (a d : BitVec 7)
  /-- R205. Exclusive FP32 add scan. -/
  | scanxFadd (n : BitVec 1) (a d : BitVec 7)
  /-- R205. Exclusive signed max scan. -/
  | scanxMax (n : BitVec 1) (a d : BitVec 7)
  /-- R205. Exclusive signed min scan. -/
  | scanxMin (n : BitVec 1) (a d : BitVec 7)
  /-- R205. Group integer add reduction. -/
  | gredAdd (n : BitVec 1) (a d : BitVec 7)
  /-- R205. Group FP32 add reduction. -/
  | gredFadd (n : BitVec 1) (a d : BitVec 7)
  /-- R205. Group signed max reduction. -/
  | gredMax (n : BitVec 1) (a d : BitVec 7)
  /-- R205. Group signed min reduction. -/
  | gredMin (n : BitVec 1) (a d : BitVec 7)
  /-- R206. Compacts the kept values into the low ranks. -/
  | cmpct (n : BitVec 1) (b a d : BitVec 7)
  /-- R207. Block-wide rendezvous that repacks the live threads into groups. -/
  | regroup
  /-- R209. Returns the current location of a logical thread. -/
  | remap (n : BitVec 1) (a d : BitVec 7)
  /-- R206. Spreads a dense run of values to the kept lanes. -/
  | expand (n : BitVec 1) (b a d : BitVec 7)
  /-- R254. Converts one element per lane under the CCW. -/
  | cvt (n : BitVec 1) (b a d : BitVec 7)
  /-- R255. Rotates and quantises a register run, with scales. -/
  | qnt (n : BitVec 1) (b a d : BitVec 7)
  /-- R256. Dequantises a run and applies the inverse rotation. -/
  | dqnt (n : BitVec 1) (b a d : BitVec 7)
  /-- R257. Running maximum of the rotated magnitudes, for E8M0 scale choice. -/
  | qscl (n : BitVec 1) (b a d : BitVec 7)
  /-- R258. Forward block Hadamard rotation of an FP32 run. -/
  | rot (n : BitVec 1) (b a d : BitVec 7)
  /-- R258. Inverse rotation of an FP32 run. -/
  | irot (n : BitVec 1) (b a d : BitVec 7)
  /-- R259. Writes a seed slot and raises its generation. -/
  | seed (n : BitVec 1) (k : BitVec 3) (a d : BitVec 7)
  /-- R259. Writes a seed slot with an explicit generation. -/
  | seedr (n : BitVec 1) (k : BitVec 3) (a d : BitVec 7)
  /-- R260. Builds a rotation tag carrying the current generations. -/
  | tagmk (n : BitVec 1) (a d : BitVec 7)
  /-- R261. Returns g(seed, A) for sign reproduction. -/
  | sgen (n : BitVec 1) (k : BitVec 3) (a d : BitVec 7)
  /-- R125. Byte load, zero-extended. -/
  | ldN8 (q : BitVec 4) (s : BitVec 3) (o : BitVec 2) (a v : BitVec 7)
  /-- R125. Byte load, sign-extended. -/
  | ldS8 (q : BitVec 4) (s : BitVec 3) (o : BitVec 2) (a v : BitVec 7)
  /-- R125. Halfword load, zero-extended. -/
  | ldN16 (q : BitVec 4) (s : BitVec 3) (o : BitVec 2) (a v : BitVec 7)
  /-- R125. Halfword load, sign-extended. -/
  | ldS16 (q : BitVec 4) (s : BitVec 3) (o : BitVec 2) (a v : BitVec 7)
  /-- R127. Word load with order and scope. -/
  | ldB32 (q : BitVec 4) (s : BitVec 3) (o : BitVec 2) (a v : BitVec 7)
  /-- R125. Doubleword load into a pair. -/
  | ldB64 (q : BitVec 4) (s : BitVec 3) (o : BitVec 2) (a v : BitVec 7)
  /-- R125. 16-byte load into a quad. -/
  | ldB128 (q : BitVec 4) (s : BitVec 3) (o : BitVec 2) (a v : BitVec 7)
  /-- R127. Prefetches a line into the L1 and L2 without faulting. -/
  | prf (q : BitVec 4) (a : BitVec 7)
  /-- R126. Byte store. -/
  | stB8 (q : BitVec 4) (s : BitVec 3) (o : BitVec 2) (a v : BitVec 7)
  /-- R126. Halfword store. -/
  | stB16 (q : BitVec 4) (s : BitVec 3) (o : BitVec 2) (a v : BitVec 7)
  /-- R126. Word store with order and scope. -/
  | stB32 (q : BitVec 4) (s : BitVec 3) (o : BitVec 2) (a v : BitVec 7)
  /-- R126. Doubleword store. -/
  | stB64 (q : BitVec 4) (s : BitVec 3) (o : BitVec 2) (a v : BitVec 7)
  /-- R126. 16-byte store from a quad. -/
  | stB128 (q : BitVec 4) (s : BitVec 3) (o : BitVec 2) (a v : BitVec 7)
  /-- R126. Writes 128 zero bytes to a line. -/
  | zline (q : BitVec 4) (s : BitVec 3) (o : BitVec 1) (a : BitVec 7)
  /-- R133. Writes back a line's dirty bytes and keeps the line. -/
  | cwb (q : BitVec 4) (a : BitVec 7)
  /-- R133. Writes back a line's dirty bytes and drops the line. -/
  | cinv (q : BitVec 4) (a : BitVec 7)
  /-- R152. Atomic integer add. -/
  | atomAdd (t : BitVec 2) (s : BitVec 3) (r : BitVec 2) (a v : BitVec 7)
  /-- R152. Atomic signed minimum. -/
  | atomMinS (t : BitVec 2) (s : BitVec 3) (r : BitVec 2) (a v : BitVec 7)
  /-- R152. Atomic signed maximum. -/
  | atomMaxS (t : BitVec 2) (s : BitVec 3) (r : BitVec 2) (a v : BitVec 7)
  /-- R152. Atomic unsigned minimum. -/
  | atomMinN (t : BitVec 2) (s : BitVec 3) (r : BitVec 2) (a v : BitVec 7)
  /-- R152. Atomic unsigned maximum. -/
  | atomMaxN (t : BitVec 2) (s : BitVec 3) (r : BitVec 2) (a v : BitVec 7)
  /-- R152. Atomic and. -/
  | atomAnd (t : BitVec 2) (s : BitVec 3) (r : BitVec 2) (a v : BitVec 7)
  /-- R152. Atomic or. -/
  | atomOr (t : BitVec 2) (s : BitVec 3) (r : BitVec 2) (a v : BitVec 7)
  /-- R152. Atomic xor. -/
  | atomXor (t : BitVec 2) (s : BitVec 3) (r : BitVec 2) (a v : BitVec 7)
  /-- R152. Atomic exchange. -/
  | atomXchg (t : BitVec 2) (s : BitVec 3) (r : BitVec 2) (a v : BitVec 7)
  /-- R152. Atomic compare and swap. -/
  | atomCas (t : BitVec 2) (s : BitVec 3) (r : BitVec 2) (a v : BitVec 7)
  /-- R156. Atomic floating-point add, rounded to nearest. -/
  | atomFadd (t : BitVec 2) (s : BitVec 3) (r : BitVec 2) (a v : BitVec 7)
  /-- R152. Atomic floating-point minimum. -/
  | atomFmin (t : BitVec 2) (s : BitVec 3) (r : BitVec 2) (a v : BitVec 7)
  /-- R152. Atomic floating-point maximum. -/
  | atomFmax (t : BitVec 2) (s : BitVec 3) (r : BitVec 2) (a v : BitVec 7)
  /-- R152. Bounded increment. -/
  | atomBinc (t : BitVec 2) (s : BitVec 3) (r : BitVec 2) (a v : BitVec 7)
  /-- R152. Wrapping increment. -/
  | atomWinc (t : BitVec 2) (s : BitVec 3) (r : BitVec 2) (a v : BitVec 7)
  /-- R152. Unsigned decrement that stops at zero. -/
  | atomDdecN (t : BitVec 2) (s : BitVec 3) (r : BitVec 2) (a v : BitVec 7)
  /-- R152. Signed decrement that stops at zero. -/
  | atomDdecS (t : BitVec 2) (s : BitVec 3) (r : BitVec 2) (a v : BitVec 7)
  /-- R152. Unsigned add bounded by the limit word that follows. -/
  | atomLaddN (t : BitVec 2) (s : BitVec 3) (r : BitVec 2) (a v : BitVec 7)
  /-- R152. Signed limited add. -/
  | atomLaddS (t : BitVec 2) (s : BitVec 3) (r : BitVec 2) (a v : BitVec 7)
  /-- R152. Atomic load. -/
  | atomLd (t : BitVec 2) (s : BitVec 3) (r : BitVec 2) (a v : BitVec 7)
  /-- R160. Fire-and-forget integer add reduction. -/
  | redAdd (t : BitVec 2) (s : BitVec 3) (r : BitVec 1) (a v : BitVec 7)
  /-- R160. Signed minimum reduction. -/
  | redMinS (t : BitVec 2) (s : BitVec 3) (r : BitVec 1) (a v : BitVec 7)
  /-- R160. Signed maximum reduction. -/
  | redMaxS (t : BitVec 2) (s : BitVec 3) (r : BitVec 1) (a v : BitVec 7)
  /-- R160. Unsigned minimum reduction. -/
  | redMinN (t : BitVec 2) (s : BitVec 3) (r : BitVec 1) (a v : BitVec 7)
  /-- R160. Unsigned maximum reduction. -/
  | redMaxN (t : BitVec 2) (s : BitVec 3) (r : BitVec 1) (a v : BitVec 7)
  /-- R160. And reduction. -/
  | redAnd (t : BitVec 2) (s : BitVec 3) (r : BitVec 1) (a v : BitVec 7)
  /-- R160. Or reduction. -/
  | redOr (t : BitVec 2) (s : BitVec 3) (r : BitVec 1) (a v : BitVec 7)
  /-- R160. Xor reduction. -/
  | redXor (t : BitVec 2) (s : BitVec 3) (r : BitVec 1) (a v : BitVec 7)
  /-- R160. Floating-point add reduction. -/
  | redFadd (t : BitVec 2) (s : BitVec 3) (r : BitVec 1) (a v : BitVec 7)
  /-- R160. Floating-point minimum reduction. -/
  | redFmin (t : BitVec 2) (s : BitVec 3) (r : BitVec 1) (a v : BitVec 7)
  /-- R160. Floating-point maximum reduction. -/
  | redFmax (t : BitVec 2) (s : BitVec 3) (r : BitVec 1) (a v : BitVec 7)
  /-- R159. Sum-of-magnitudes reduction. -/
  | redFadda (t : BitVec 2) (s : BitVec 3) (r : BitVec 1) (a v : BitVec 7)
  /-- R268. Per-lane copies of 4, 8 or 16 bytes. -/
  | cpl (m : BitVec 2) (t : BitVec 6) (d : BitVec 7)
  /-- R271. Tile copy between tensor and box, one command per lane. -/
  | cpt (t : BitVec 6) (d : BitVec 7)
  /-- R272. Tile copy that lands in group registers. -/
  | cptr (t : BitVec 6) (d : BitVec 7)
  /-- R273. Converting tile copy through the rotation stage. -/
  | cptc (t : BitVec 6) (d : BitVec 7)
  /-- R274. Multicast of a tile to cluster receivers. -/
  | cpml (t : BitVec 6) (c d : BitVec 7)
  /-- R275. Multicast of common and per-receiver slices. -/
  | cpms (t : BitVec 6) (c d : BitVec 7)
  /-- R277. Adds the summed byte counts to a copy tag's balance and arms it. -/
  | expect (t : BitVec 6) (d : BitVec 7)
  /-- R278. Waits until some masked tag is ready. -/
  | wany (m : BitVec 2) (c d : BitVec 7)
  /-- R278. Waits until every masked tag is ready. -/
  | wall (m : BitVec 2) (d : BitVec 7)
  /-- R278. Returns the lowest ready masked tag without waiting. -/
  | ffrdy (m : BitVec 2) (c d : BitVec 7)
  /-- R280. Waits for a filled ring slot and returns it. -/
  | awaitf (c d : BitVec 7)
  /-- R280. Releases a ring slot (RS := RS + 1). -/
  | relslot (d : BitVec 7)
  /-- R293. Gather with indices taken from registers. -/
  | gsg (t : BitVec 6) (c d : BitVec 7)
  /-- R293. Gather with indices taken from memory. -/
  | gsgm (t : BitVec 6) (c d : BitVec 7)
  /-- R295. Scatter or reducing scatter with indices taken from registers. -/
  | gss (t : BitVec 6) (c d : BitVec 7)
  /-- R295. Scatter with indices taken from memory. -/
  | gssm (t : BitVec 6) (c d : BitVec 7)
  /-- R299. Waits on the tag, then reads the trailer STAT, trapping on fault if asked. -/
  | gswt (m : BitVec 2) (t : BitVec 6) (c d : BitVec 7)
  /-- R299. Polls the tag and the trailer without waiting. -/
  | gspoll (m : BitVec 2) (t : BitVec 6) (c d : BitVec 7)
  /-- R313. Signs a matrix operation with A and B taken from registers; the last sign issues it. -/
  | mma (z p w : BitVec 1) (k : BitVec 4) (d : BitVec 7)
  /-- R313. Signs a matrix operation with B taken from memory. -/
  | mmam (z p w : BitVec 1) (k : BitVec 4) (d : BitVec 7)
  /-- R326. Requests accumulator units for a region. -/
  | aalloc (p : BitVec 6) (a d : BitVec 7)
  /-- R328. Frees an accumulator region. -/
  | afree (a : BitVec 7)
  /-- R328. Waits for the issued operations, then takes the region token. -/
  | aacq (a : BitVec 7)
  /-- R328. Releases the region token to the engine. -/
  | arel (a : BitVec 7)
  /-- R328. Zeroes a region's accumulators. -/
  | azero (a : BitVec 7)
  /-- R329. Reads accumulators into registers, converting them. -/
  | ard (b a d : BitVec 7)
  /-- R330. Writes accumulators from registers. -/
  | awr (b a d : BitVec 7)
  /-- R331. Saves accumulator images to register pairs. -/
  | asv (l : BitVec 3) (a d : BitVec 7)
  /-- R331. Restores accumulators from images. -/
  | arst (l : BitVec 3) (a d : BitVec 7)
  /-- R332. Computes the rotation tag of C. -/
  | mtag (b a d : BitVec 7)
  /-- R386. Projects a 3D Gaussian to a screen ellipse. -/
  | sproj (a d : BitVec 7)
  /-- R391. Group-wide load of one splat record. -/
  | sload (s : BitVec 3) (a d : BitVec 7)
  /-- R393. Blends one splat front to back into the pixel state. -/
  | sblend (b a d : BitVec 7)
  /-- R395. Replays one splat back to front and writes its gradients. -/
  | sgrad (b a d : BitVec 7)
  /-- R389. Initialises the pixel state for the forward pass. -/
  | sinit (a : BitVec 7)
  /-- R389. Switches the pixel state to the reverse pass. -/
  | sinitr
  /-- R389. Reads the pixel state into registers. -/
  | srd (d : BitVec 7)
  /-- R389. Writes the pixel state from registers. -/
  | swr (a : BitVec 7)
  /-- R387. Builds a splat sort key. -/
  | skey (b a d : BitVec 7)
  /-- R370. Claims key-ring slots atomically and stores the records. -/
  | kemit (c d : BitVec 7)
  /-- R374. Queues a key sort command. -/
  | ksort (t : BitVec 6) (c d : BitVec 7)
  /-- R377. Queues a batched key sort. -/
  | ksortBat (t : BitVec 6) (c d : BitVec 7)
  /-- R376. Queues a bucket top-k selection. -/
  | ksel (t : BitVec 6) (c d : BitVec 7)
  /-- R377. Queues a batched selection. -/
  | kselBat (t : BitVec 6) (c d : BitVec 7)
  /-- R375. Queues a contact sheet build. -/
  | kcs (t : BitVec 6) (c d : BitVec 7)
  /-- R404. Issues an ordered compositing collective. -/
  | ocomp (t : BitVec 6) (c d : BitVec 7)
  /-- R405. Issues an ordered sum collective. -/
  | ored (t : BitVec 6) (c d : BitVec 7)
  /-- R407. Issues a cross-package barrier. -/
  | cbar (t : BitVec 6) (c d : BitVec 7)
  /-- R410. Reports this package as lost to its peers. -/
  | cfail (c d : BitVec 7)
  /-- R227. Posts a launch record from memory to a queue. -/
  | launch (c d : BitVec 7)
  /-- R227. Posts a launch and credits a copy tag at its completion. -/
  | launchSig (t : BitVec 6) (c d : BitVec 7)
  /-- R228. Places a new thread in a spawn bin. -/
  | spawn (k : BitVec 3) (c d : BitVec 7)
  /-- R228. Spawns a thread and closes the bin. -/
  | spawnNow (k : BitVec 3) (c d : BitVec 7)
  /-- R229. Decrements a task-graph node. -/
  | tgsig (c d : BitVec 7)
  /-- R229. Closes the core's filling spawn bin. -/
  | binflush (c d : BitVec 7)
  /-- R358. Dispatches a fixer kernel payload. -/
  | fxrun (c d : BitVec 7)
  /-- R358. Dispatches a fixer kernel and credits a tag after its status write. -/
  | fxrunSig (t : BitVec 6) (c d : BitVec 7)
  /-- R362. Aborts and rolls back the running kernels of a payload. -/
  | fxabort (c d : BitVec 7)
  /-- R437. Writes a snapshot of the issue-slot counters to memory and credits a tag. -/
  | tcsnap (t : BitVec 6) (d : BitVec 7)
  /-- R437. Credits a tag once the lane's trace records are visible. -/
  | tflush (t : BitVec 6)
  /-- R346. Fixer: sD := sign-extended immediate. -/
  | sli (d : BitVec 5) (i : BitVec 16)
  /-- R346. Fixer: sD := sA + immediate. -/
  | saddi (d a : BitVec 5) (i : BitVec 16)
  /-- R347. Fixer scalar add. -/
  | saluAdd (d a b : BitVec 5)
  /-- R347. Fixer scalar subtract. -/
  | saluSub (d a b : BitVec 5)
  /-- R347. Fixer scalar multiply. -/
  | saluMul (d a b : BitVec 5)
  /-- R347. Fixer scalar and. -/
  | saluAnd (d a b : BitVec 5)
  /-- R347. Fixer scalar or. -/
  | saluOr (d a b : BitVec 5)
  /-- R347. Fixer scalar xor. -/
  | saluXor (d a b : BitVec 5)
  /-- R347. Fixer scalar left shift. -/
  | saluShl (d a b : BitVec 5)
  /-- R347. Fixer scalar right shift. -/
  | saluShr (d a b : BitVec 5)
  /-- R347. Fixer 8-byte scalar load. -/
  | sld (d a : BitVec 5) (i : BitVec 16)
  /-- R347. Fixer 8-byte scalar store, logged. -/
  | sst (d a : BitVec 5) (i : BitVec 16)
  /-- R347. Fixer unconditional branch. -/
  | b (i : BitVec 16)
  /-- R347. Fixer branch if sA = 0. -/
  | bEqz (a : BitVec 5) (i : BitVec 16)
  /-- R347. Fixer branch if sA is nonzero. -/
  | bNez (a : BitVec 5) (i : BitVec 16)
  /-- R347. Fixer branch if sA < 0. -/
  | bLtz (a : BitVec 5) (i : BitVec 16)
  /-- R347. Fixer branch if sA >= 0. -/
  | bGez (a : BitVec 5) (i : BitVec 16)
  /-- R347. Fixer: decrements sA and branches when it is nonzero. -/
  | floop (a : BitVec 5) (i : BitVec 16)
  /-- R360. Commits the open undo step. -/
  | stepend
  /-- R360. Commits the step and ends the instance. -/
  | fend
  /-- R348. Fixer loads of n 64-byte lines. -/
  | fld (d a n : BitVec 5) (i : BitVec 11)
  /-- R348. Fixer stores of n lines, logged first. -/
  | fst (d a n : BitVec 5) (i : BitVec 11)
  /-- R348. Fixer FP32 add reductions of n lines. -/
  | fredf (d a n : BitVec 5) (i : BitVec 11)
  /-- R346. Broadcasts half of sA to every lane. -/
  | fbc (d a : BitVec 5) (h : BitVec 1)
  /-- R346. Extracts one lane to a scalar register. -/
  | fext (d a : BitVec 5) (l : BitVec 4)
  /-- R346. Inserts a scalar into one lane. -/
  | fins (d a : BitVec 5) (l : BitVec 4)
  /-- R349. Fixer FP32 add over a run. -/
  | fopAdd (d a b : BitVec 5) (n : BitVec 2)
  /-- R349. Fixer FP32 subtract. -/
  | fopSub (d a b : BitVec 5) (n : BitVec 2)
  /-- R349. Fixer FP32 multiply. -/
  | fopMul (d a b : BitVec 5) (n : BitVec 2)
  /-- R349. Fixer FP32 divide. -/
  | fopDiv (d a b : BitVec 5) (n : BitVec 2)
  /-- R349. Fixer FP32 minimum. -/
  | fopMin (d a b : BitVec 5) (n : BitVec 2)
  /-- R349. Fixer FP32 maximum. -/
  | fopMax (d a b : BitVec 5) (n : BitVec 2)
  /-- R349. Fixer FP32 fused multiply-add. -/
  | fopFma (d a b c : BitVec 5) (n : BitVec 2)
  /-- R349. Fixer FP32 negated fused multiply-add. -/
  | fopFnma (d a b c : BitVec 5) (n : BitVec 2)
  /-- R349. Fixer FP32 square root. -/
  | fopSqrt (d a : BitVec 5) (n : BitVec 2)
  /-- R349. Fixer register move. -/
  | fopMov (d a : BitVec 5) (n : BitVec 2)
  /-- R349. Fixer integer add. -/
  | iopAdd (d a b : BitVec 5) (n : BitVec 2)
  /-- R349. Fixer integer subtract. -/
  | iopSub (d a b : BitVec 5) (n : BitVec 2)
  /-- R349. Fixer and. -/
  | iopAnd (d a b : BitVec 5) (n : BitVec 2)
  /-- R349. Fixer or. -/
  | iopOr (d a b : BitVec 5) (n : BitVec 2)
  /-- R349. Fixer xor. -/
  | iopXor (d a b : BitVec 5) (n : BitVec 2)
  /-- R349. Fixer left shift. -/
  | iopShl (d a b : BitVec 5) (n : BitVec 2)
  /-- R349. Fixer right shift. -/
  | iopShr (d a b : BitVec 5) (n : BitVec 2)
  /-- R349. Fixer per-lane select. -/
  | iopSel (d a b c : BitVec 5) (n : BitVec 2)
  /-- R349. Fixer FP32 less-than compare. -/
  | iopFclt (d a b : BitVec 5) (n : BitVec 2)
  /-- R349. Fixer integer equality compare. -/
  | iopIeq (d a b : BitVec 5) (n : BitVec 2)
  /-- R350. Fixer format conversion of a run. -/
  | fcvt (d a c : BitVec 5)
  /-- R351. Fixer dequantise with the inverse rotation. -/
  | fdq (d a b c : BitVec 5) (o : BitVec 4)
  /-- R351. Fixer rotate and requantise. -/
  | frq (d a b c : BitVec 5) (o : BitVec 4)
  /-- R352. Fixer forward or inverse rotation. -/
  | frot (d a c : BitVec 5) (v : BitVec 1)
  /-- R353. Rebuilds an FP32 master from BF16. -/
  | wbld (d a : BitVec 5) (n : BitVec 2)
  /-- R346. Reads, and optionally clears, the fixer flags. -/
  | fflg (d : BitVec 5) (c : BitVec 1)
  /-- R207. After the deferral, the rendezvous repacks the live threads and releases them. -/
  | regroupComplete (core blk : Nat)
  /-- R165. A group that has issued 16 slots switches out at the next slot that reads no latch. -/
  | groupSlotQuota (core quad : Nat)
  /-- R166. A group ready for 1,024 cycles without issuing becomes aged and takes priority. -/
  | groupAged (core blk grp : Nat)
  /-- R168. A thread whose starve count reaches 64 forces its path into the second place. -/
  | starveForced (core blk grp : Nat)
  /-- R137. A store, reduction or write-back is performed and osc falls, which may release oswait or exit. -/
  | storePerformed (id : Nat)
  /-- R129. Load data arrives in the destination registers. -/
  | loadDataReturn (id : Nat)
  /-- R155. The aggregated request of one address is performed indivisibly and returns the old values. -/
  | atomicPerform (id : Nat)
  /-- R131. The L1 writes dirty bytes back to the home at a time of its own choosing. -/
  | l1Writeback (core line : Nat)
  /-- R340. A reduction request merges into the reducing cache, allocating a partial line or taking the line over as full. -/
  | rdcRequestArrive (id : Nat)
  /-- R23. A waiting engine command whose ranges have cleared is admitted, in issue order. -/
  | rangeLockGrant (id : Nat)
  /-- R20. Bytes landing from an engine lower a copy tag's balance and may make it ready. -/
  | engineBytesArrive (id : Nat)
  /-- R280. A waiting ring copy claims a freed slot. -/
  | ringSlotClaim (id : Nat)
  /-- R267. A copy command has every byte visible, merges its flags, releases its locks and gives its last credit. -/
  | copyCommandComplete (id : Nat)
  /-- R298. A gather-scatter command writes its trailer, releases its locks and credits 128 bytes. -/
  | gseCommandComplete (id : Nat)
  /-- R314. The operand register reads finish and the convergence phase ends. -/
  | matrixPhaseEnd (id : Nat)
  /-- R335. The array work finishes, and waiting aacq calls are released. -/
  | matrixOperationComplete (id : Nat)
  /-- R326. A waiting accumulator request is granted once units free. -/
  | aallocGrant (core : Nat)
  /-- R444. A write to QTEN enables or disables the watch of the queue table. -/
  | qtenWrite (value : Word)
  /-- R210. A write to a watched queue-table line makes the device re-read and check its entries. -/
  | queueTableWake (line : Nat)
  /-- R211. A write to a watched ring line wakes the queue to re-read it. -/
  | ringLineWake (queue : Nat)
  /-- R213. A launch record whose sequence matches is accepted and checked. -/
  | launchRecord (queue : Nat)
  /-- R212. A TLB invalidation record starts an invalidation. -/
  | tlbInvalidationRecord (queue : Nat)
  /-- R212. The invalidation completes and writes its status. -/
  | tlbInvalidationComplete (id : Nat)
  /-- R212. A marker record is accepted and waits for the earlier records. -/
  | markerRecord (queue : Nat)
  /-- R25. A held item begins when the timebase reaches its start tick. -/
  | startTickReached (id : Nat)
  /-- R222. A waiting launch enters dispatching once its conditions hold. -/
  | launchDispatch (launch : Nat)
  /-- R220. Freed resources let a cluster be placed whole on one die. -/
  | clusterPlace (launch die qoff : Nat)
  /-- R16. Lent stage finishes draining and the reserved cluster may dispatch. -/
  | stageDrainComplete (launch : Nat)
  /-- R223. A queue's time slice expires, which makes it eligible for pre-emption. -/
  | sliceExpire (queue : Nat)
  /-- R233. After its commands drain, a pre-empted block's image is written and its resources are freed. -/
  | blockSave (core blk : Nat)
  /-- R235. A pre-empted queue is resumed: the blocks are restored and the held commands reissued. -/
  | queueResume (queue : Nat)
  /-- R228. A filling spawn bin's timer expires and closes the bin. -/
  | spawnBinTimerExpire (core bin : Nat)
  /-- R228. A closed bin becomes a resident spawn block. -/
  | spawnBlockDispatch (core bin : Nat)
  /-- R222. A launch releases at .sys, writes its status and completes its node. -/
  | launchComplete (launch : Nat)
  /-- R224. A host atomic decrement of PEND to 0 dispatches a node. -/
  | hostPendDecrement (queue node : Nat)
  /-- R356. A kernel waiting on its range lock is admitted. -/
  | fixerKernelAdmit (kernel : Nat)
  /-- R356. A free fixer starts the next instance and writes its checkpoint. -/
  | fixerInstanceStart (kernel : Nat)
  /-- R357. A kernel whose instances have ended and whose requests have merged writes its status and releases its lock. -/
  | fixerKernelComplete (kernel : Nat)
  /-- R373. A queued key sort command reads its header and registers its locks. -/
  | kseCommandBegin (id : Nat)
  /-- R378. A key sort command writes its outputs and status, releases its locks and credits 32 bytes. -/
  | kseCommandComplete (id : Nat)
  /-- R407. A collective command registers its locks and reads its inputs. -/
  | collectiveBegin (id : Nat)
  /-- R407. Once every rank's command q has arrived, the result and status are written and the tag is credited. -/
  | collectiveComplete (id : Nat) (peers : List PeerInput)
  /-- R399. No flit to a needed peer for 10 ms makes that peer lost. -/
  | peerFlitTimeout (pkg : Nat)
  /-- R409. A peer-loss report ends collectives, sets clost and aborts FL[1] kernels. -/
  | peerLossReport (pkg : Nat)
  /-- R417. A channel picks and serves its next request by age, deadline and class. -/
  | channelRequestServe (unit ch ecc : Nat)
  /-- R417. A request that has waited AGELIM ticks becomes aged. -/
  | requestAged (unit ch : Nat)
  /-- R421. A burst CRC mismatch replays the burst and counts in LCRC. -/
  | burstCrcError (unit ch lane : Nat)
  /-- R421. The eighth failed replay makes the burst link-uncorrectable. -/
  | burstReplayExhausted (unit ch : Nat)
  /-- R421. A lane passing LCRTH errors in 1 ms requests a repair. -/
  | laneCrcThreshold (unit ch lane : Nat)
  /-- R422. Once no replay is outstanding, a lane switches to a spare and the failed burst is re-issued. -/
  | laneRepair (unit ch : Nat) (reissueOk : Bool)
  /-- R415. Write of REPAIR with go set requests a lane repair. -/
  | repair (unit : Nat) (value : Word)
  /-- R424. Write of RETRAIN starts a retrain of a channel. -/
  | retrain (unit : Nat) (value : Word)
  /-- R424. The retrained channel serves its held requests and logs kind 6. -/
  | retrainDone (unit ch : Nat)
  /-- R423. The millisecond eye-margin sample may set LOW and request a repair. -/
  | eyeSample (unit ch lane hm vm : Nat)
  /-- R425. A row reaching SWTH activations in 32 ms is swapped with a random row. -/
  | rowSwap (unit ch bank row partner : Nat)
  /-- R426. Write of RETIRE with go set retires a row onto a spare row. -/
  | retire (unit : Nat) (value : Word)
  /-- R415. A write to LCRC, LUNC, ACE or AUE clears it. -/
  | errorCountClear (unit off : Nat)
  /-- R416. Write-1-to-clear of partition event bits. -/
  | irqstClear (unit : Nat) (value : Word)
  /-- R419. A write to a MISS counter clears it. -/
  | missCounterClear (unit off : Nat)
  /-- R429. A write to HCTL enables page-heat sampling only when the heat setup is valid. -/
  | hctlWrite (unit : Nat) (value : Word)
  /-- R429. HCMD 1 starts a pass that halves every heat counter. -/
  | heatHalve (unit : Nat)
  /-- R429. HCMD 2 starts a pass that clears every heat counter. -/
  | heatClear (unit : Nat)
  /-- R429. The halve or clear pass finishes and HCMD stops reading busy. -/
  | heatPassDone (unit : Nat)
  /-- R428. An expansion link going down fails its requests as uncorrectable. -/
  | cxlLinkDown (port : Nat)
  /-- R430. A write of MGCMD at 0x004 submits a migration descriptor. -/
  | migrationSubmit (value : Word)
  /-- R431. After the invalidation, held writes go to the destination and the status is written. -/
  | migrationComplete (id : Nat)
  /-- R435. A write to TCTL turns records on or off, which consumes the buffer. -/
  | tctlWrite (value : Word)
  /-- R433. A write to TDROP clears it. -/
  | tdropClear
  /-- R442. HCMD 1 halts the named threads. -/
  | halt
  /-- R442. HCMD 2 resumes the named halted threads. -/
  | resume
  /-- R442. HCMD 3 runs the named threads for one instruction each. -/
  | step
  /-- R24. Reading tbl returns the low half and latches the high half. -/
  | timebaseLowRead (core blk thr d : Nat)
  /-- R24. Reading tbh returns and consumes the latch, or the live high half. -/
  | timebaseHighRead (core blk thr d : Nat)
  /-- R247. Reading rslk latches rshk and rsgk of that slot. -/
  | seedLowRead (core blk thr slot d : Nat)
  /-- R439. Reading 0x700 latches all sixteen counter words. -/
  | counterSnapshotRead (core blk thr d : Nat)
  /-- R445. Power-up runs bring-up stages 0 to 8. -/
  | powerUp
  /-- R445. Bexkai command 0x30 with argument 1 performs a cold reset. -/
  | coldReset
  /-- R445. Bexkai command 0x30 with argument 2 reruns stages 2 to 8. -/
  | warmReset
  /-- R443. Bexkai command 0x01 reads a BAR 0 window register. -/
  | windowRead (off : Nat)
  /-- R443. Bexkai command 0x02 writes a BAR 0 window register. -/
  | windowWrite (off : Nat) (value : Word)
  /-- R446. Command 0x10 writes an image into the slot not running. -/
  | firmwareStage (version counter : Nat) (image : List Byte)
  /-- R446. Command 0x11 verifies the image and marks it for the next reset. -/
  | firmwareActivate
  /-- R443. Command 0x20 returns the self-test log. -/
  | selfTestLogRead
  /-- R443. Command 0x21 returns the retirement table. -/
  | retirementTableRead
  /-- R443. A request with an unknown command returns completion code 0x02. -/
  | unknownCommand (cmd : Nat)
  /-- R447. The SPDM GET_VERSION request. -/
  | getVersion
  /-- R447. The SPDM GET_CAPABILITIES request. -/
  | getCapabilities
  /-- R447. The SPDM algorithm negotiation: SM2 and SM3 only. -/
  | negotiateAlgorithms (sign hash : Nat)
  /-- R447. The SPDM GET_DIGESTS request. -/
  | getDigests
  /-- R447. Returns the certificate chain in slot 0. -/
  | getCertificate (slot : Nat)
  /-- R447. The SPDM CHALLENGE, signed with the device key. -/
  | challenge (nonce : List Byte)
  /-- R447. Returns the signed SM3 measurements 1 to 4. -/
  | getMeasurements (nonce : List Byte)
  /-- R444. Sets the package id through Bexkai only, before stage 5. -/
  | pkidWrite (value : Word) (bexkai : Bool)
  /-- R444. Sets the queue table base, ignored while QTEN[0] = 1. -/
  | qtbWrite (off : Nat) (value : Word)
  /-- R444. Write-1-to-clear of management event bits. -/
  | mirqClear (value : Word)
  /-- R444. The 1 ms power sample refreshes PWR and may set MIRQ[0]. -/
  | pwrSample (watts : Nat)
  /-- R448. After a logged error, the MGC starts the test chosen by its source, queuing behind a test in progress. -/
  | selfTestStart (src unit ch row addr : Nat)
  /-- R448. A test ends, logging an entry and retiring or returning the unit. -/
  | selfTestComplete (src unit ch row result : Nat)
  /-- R414. A write to a window register that has no behaviour of its own, with its range checks. -/
  | registerWrite (off : Nat) (value : Word)
  /-- R79. An instruction word with major 31, an unassigned minor or an unlisted field combination raises cause 0x01. -/
  | unassignedEncoding (w : Word)
  /-- R68. An instruction fetch that misses translation, lacks execute permission or meets uncorrectable data traps precisely at the instruction. -/
  | fetchFault (cause sub : Nat) (addr : Dword)
  /-- R346. A fixer word with op 0 or 24-63 raises cause 0x30, subcause 0x01, and ends the instance. -/
  | fixerUnassignedOp (w : Word)
  /-- R347. A fixer instruction fetch that faults raises cause 0x30, subcause 0x0B. -/
  | fixerFetchFault
  /-- R399. A Twineric link fails and traffic is routed around it along the torus when another path exists. -/
  | twinericLinkFailure (pkg : Nat) (rerouted : Bool)
  /-- R428. System software retrains an expansion port through CXL.io, after which the port accepts requests again. -/
  | cxlLinkRetrain (port : Nat)
  /-- R446. Power is lost, for example during firmware staging, which leaves the running slot intact and the persisted retirement entries kept. -/
  | powerLoss
  /-- R11. A peer package's access arrives through its window, is decoded by this part's own map, and is served or answered as not present. -/
  | peerRequest (pkg off len : Nat) (data : List Byte) (write : Bool)
  /-- R341. A host coherent access through CXL.cache or CXL.mem reaches a line's home, making a reducing-cache line full and handing it to the L2. -/
  | hostAccess (pa len : Nat) (data : List Byte) (write : Bool)
  deriving DecidableEq, Repr

end Sys2Proof
end

