-- ==== Sys2Proof/Machine/State.lean ====
section
/-! DEFINITION. The state of the GZ9 as plain data: every register, table and piece of work in progress that
the spec names, the outcomes that stop it, and the state after reset. -/

namespace Sys2Proof.Machine

open Sys2Proof

/-- Why the machine stops with a fault. -/
inductive Fault where
  /-- Raised by no instruction: every fault the spec describes is taken as a trap, a record or a status.
  It stands for a state that no rule reaches, and is safe. -/
  | stuck
  deriving DecidableEq, Repr

/-- Why an instruction has no meaning. -/
inductive Refusal where
  /-- Raised by an arm of exec that has no meaning yet; safe. -/
  | notModelled (mnemonic : String)
  deriving DecidableEq, Repr

/-! ### Threads -/

/-- A lane of an issued instruction: a thread by its logical index, or a helper lane by the index it reads (01 R10). -/
structure LaneRef where
  helper : Bool
  idx : Nat
  deriving DecidableEq, Repr

/-- What holds an instruction at issue (09 R234, kind 11): the count of outstanding stores (06 R137), an engine's in-flight
limit, a full engine queue or a full held-command list (a sort with its start tick), a phase of a convergence register of a
block whose register reads are not finished (13 R314), or a posted record that is not accepted (09 R227). -/
inductive Hold where
  | stores | copies | ring | gathers | post
  | sorts (tick : Nat)
  | colls
  | phase (core blk k : Nat)
  deriving DecidableEq, Repr

/-- The waits of 09 R234, each with what its release condition names: tags, the place of a ring header, a region. -/
inductive Wait where
  | bar | regroup
  | cv (k : Nat)
  /-- a thread of the odd block waits for the even block's register (13 R316) -/
  | pair (k : Nat)
  | oswait (n : Nat)
  /-- the `osc` hold of `exit` -/
  | exitOsc
  /-- the `osc` hold of a thread that a trap with no handler ends (07 R189) -/
  | trapOsc
  | wall (mask : Nat)
  | wany (mask : Nat)
  | gswt (tag : Nat)
  | awaitf (place : Nat)
  | aacq (handle : Nat)
  | aalloc
  | held (h : Hold)
  /-- held at issue by a range lock; its command is in `waiting` (01 R23) -/
  | lock
  deriving DecidableEq, Repr

/-- Thread states, 07 R164; a halt is kept apart, since a halted thread may also wait. -/
inductive TMode where
  | running
  | waiting (w : Wait)
  | exited
  deriving DecidableEq, Repr

/-- A replay in progress (04 R84): the reading instruction, whether the thread stands at the replay PC before
its anchor has been delivered, and the next echo entry (08 R197). -/
structure Replay where
  reader : Dword
  atAnchor : Bool
  echoAt : Nat
  deriving DecidableEq, Repr

/-- A poison mark: the load's address and PC (06 R130). -/
structure Poison where
  addr : Dword
  pc : Dword
  deriving DecidableEq, Repr

/-- A latched seed (10 R247): slot, high half, generation. -/
structure SeedLatch where
  slot : Nat
  hi : Word
  gen : Nat
  deriving DecidableEq, Repr

/-- The splat pixel state of a lane (16 R388). -/
structure Pixel where
  col : List Word := [0, 0, 0]
  trans : Word := 0
  pix : Word := 0
  ctl : Word := 0
  ncon : Word := 0
  deriving DecidableEq, Repr

/-- A thread or helper lane: its start values are those of 09 R216. -/
structure Thread where
  /-- logical thread index, or what a helper reads (01 R10) -/
  idx : Nat
  helper : Bool := false
  pc : Dword
  /-- the allocation n (04 R76) -/
  nregs : Nat
  regs : SMap Word := []
  poison : SMap Poison := []
  /-- bit 0 is p0, true (05 R113) -/
  preds : BitVec 64 := 1#64
  wb : BitVec 10 := 0
  xs : List (BitVec 10) := [0, 0, 0, 0]
  /-- the valid latches, b0 first: latch k is valid when k is below the length (04 R80) -/
  latches : List Dword := []
  replayPc : Option Dword := none
  anchor : Dword := 0
  /-- the instruction at the replay PC wrote a pair: the width of a `cvt`'s target, fixed at its execution (04 R86, 10 R254) -/
  anchorPair : Bool := false
  replay : Option Replay := none
  /-- the exchange echo: entries, count, overflow (08 R197) -/
  echo : SMap Dword := []
  echoCount : Nat := 0
  echoOvf : Bool := false
  lc : List Word := [0, 0, 0]
  ls : List Word := [0, 0, 0]
  le : List Word := [0, 0, 0]
  /-- on-chip return-stack entries, newest first (07 R175) -/
  ret : List Dword := []
  rsd : Word := 0
  sp : Word := 0
  trcause : Word := 0
  trpc : Word := 0
  trpch : Word := 0
  tradl : Word := 0
  tradh : Word := 0
  trdet : Word := 0
  handler : Bool := false
  haltHeld : Bool := false
  /-- the subcause of a held halt (19 R441, R442) -/
  heldSub : Nat := 1
  /-- halted, with the cause and subcause (07 R164) -/
  halted : Option (Nat × Nat) := none
  /-- outstanding stores, 16 bits (06 R137) -/
  osc : Nat := 0
  fpctl : Word := 0
  tbLatch : Option Word := none
  seedLatch : Option SeedLatch := none
  ctrLatch : List Word := []
  mode : TMode := .running
  starve : Nat := 0
  group : Nat
  rank : Nat
  /-- convergence signs: signed, valid and value of sph, bit k for cvk (07 R182) -/
  signed : BitVec 16 := 0
  sphValid : BitVec 16 := 0
  sph : BitVec 16 := 0
  pixel : Pixel := {}
  /-- argument count of a spawned thread (09 R228) -/
  spawnArgs : Nat := 0
  /-- the next load is sampled (19 R436) -/
  tsmp : Bool := false
  /-- breakpoints are not tested at the next instruction (19 R441) -/
  skipBp : Bool := false
  /-- halts again after one instruction (19 R442) -/
  stepping : Bool := false
  deriving DecidableEq, Repr

/-! ### Blocks -/

/-- The record of a matrix phase (13 R313, 09 R233): the words that every sign must repeat, and D+2 to D+4 of the
first signer, which the signers of its block must repeat. -/
structure MatPhase where
  fmt : Word
  shape : Word
  tagA : Word
  tagB : Word
  vcnt : Word
  f : Bool
  z : Bool
  p : Bool
  /-- the first signer is of the odd block of a pair -/
  oddFirst : Bool
  own : List Word
  deriving DecidableEq, Repr

/-- A signer of a matrix phase: its block of the pair (false: the even or only one), its thread, and its words from
D+2 on but for the tags and VCNT. -/
structure MatSign where
  odd : Bool
  thr : Nat
  words : List Word
  deriving DecidableEq, Repr

/-- A convergence register (07 R182). -/
structure CvReg where
  e : Nat := 0
  c : Nat := 0
  ph : Bool := false
  broken : Bool := false
  /-- the record of a matrix phase, none in a plain phase (13 R313) -/
  mat : Option MatPhase := none
  /-- the signers of the matrix phase so far -/
  signers : List MatSign := []
  /-- a matrix phase that has all its signs and whose register reads are not finished (13 R314) -/
  draining : Bool := false
  deriving DecidableEq, Repr

/-- A copy tag (01 R20): its balance has 25 bits, signed. -/
structure Tag where
  balance : Int := 0
  armed : Bool := false
  err : Bool := false
  deriving DecidableEq, Repr

/-- Who holds an accumulator region's token (13 R325): the engine or the block. -/
inductive Token where
  | engine
  | block
  deriving DecidableEq, Repr

/-- An accumulator region (13 R324): handle, units, token, the serial number of its allocation and the
accumulators written since (an unwritten one is Config.accInit). -/
structure Region where
  handle : Nat
  units : Nat
  token : Token
  serial : Nat
  acc : SMap (BitVec 40) := []
  deriving DecidableEq, Repr

/-- An entry of the range-lock table (01 R22): address-space id, the bytes it covers, whether it is exclusive (else
write-only), whether it is a destination, and its holder's command id. The bytes are first and one after the last of
each part; a part in stage memory is that of its places, above 2^64. -/
structure Lock where
  asid : Nat
  spans : List (Nat × Nat)
  excl : Bool
  dest : Bool
  holder : Nat
  deriving DecidableEq, Repr

/-- An engine command after its issue: what names it, its descriptor registers, what was captured at issue, and how
far it is. Each engine reads its own descriptor. -/
structure Cmd where
  id : Nat
  major : Nat
  sub : Nat
  mode : Nat
  tag : Nat
  /-- the issuer's core, block, group and thread -/
  core : Nat
  blk : Nat
  grp : Nat
  thr : Nat
  /-- false for a command of a task-graph node -/
  fromBlock : Bool := true
  launch : Nat
  queue : Nat
  asid : Nat
  root : Nat
  /-- the engine command id of fault records (01 R28) -/
  cmdId : Dword
  pc : Dword := 0
  desc : List Word
  cnt : Word := 0
  tick : Dword := 0
  /-- the issuer's rounding mode, for DYN (02 R43) -/
  rm : Nat := 0
  /-- the lanes that take part, by thread index with their rank -/
  lanes : List (Nat × Nat) := []
  /-- bytes captured at issue, per the engine's chapter -/
  data : List Byte := []
  /-- the per-lane words captured at issue (indices, data registers), by rank -/
  words : SMap (List Word) := []
  /-- receivers or other cores and blocks the command reaches -/
  peers : List (Nat × Nat) := []
  /-- it reads or writes registers of the block's threads (08 R208) -/
  regs : Bool := false
  /-- held for its start tick (01 R25) -/
  held : Bool := false
  /-- begun: its ranges are registered and its inputs are fixed -/
  begun : Bool := false
  /-- a ring copy's slot, once it has claimed one (11 R280) -/
  slot : Option Nat := none
  /-- the node of a task-graph command -/
  node : Option Nat := none
  /-- the range-lock entries it needs -/
  locks : List Lock := []
  /-- numbers of the engine's own (sequence number, package map, undo state) -/
  aux : List Nat := []
  deriving DecidableEq, Repr

/-- A resident block. -/
structure Block where
  launch : Nat
  /-- block linear index (01 R9) -/
  lin : Dword
  cluster : Nat
  crank : Nat
  nthreads : Nat
  qoff : Nat
  stackSlot : Nat
  spawn : Bool := false
  /-- residence order on the core (07 R166) -/
  order : Nat
  threads : SMap Thread
  helpers : SMap Thread := []
  cvs : SMap CvReg := []
  ntags : Nat := 0
  tags : SMap Tag := []
  /-- the physical tags that hold tags 0, 1, ... (01 R19) -/
  physTags : List Nat := []
  cpflg : Word := 0
  cplbl : Word := 0
  cplbh : Word := 0
  mxflg : Word := 0
  /-- camera registers by number 0-15, those not at reset value 0; scthr is listed (16 R384) -/
  cam : SMap Word := []
  regions : List Region := []
  /-- allocation numbers of the block and cluster stage (01 R15) -/
  stage : Nat := 0
  cstage : Nat := 0
  held : List Cmd := []
  /-- slots issued since the last bar, by group (07 R166) -/
  issued : SMap Nat := []
  /-- the cycle since which a group has been ready without issuing (07 R166) -/
  readyAt : SMap Nat := []
  /-- marked aged by GROUP_AGED -/
  aged : List Nat := []
  /-- the repacking waits for engine operations on registers (08 R208) -/
  regroupDue : Bool := false
  /-- groups that a repacking has left with no thread (08 R207) -/
  ended : List Nat := []
  deriving DecidableEq, Repr

/-! ### Cores -/

/-- A byte of an L1 line. -/
structure L1Byte where
  val : Byte
  dirty : Bool
  /-- filled from uncorrectable data (06 R130) -/
  bad : Bool := false
  deriving DecidableEq, Repr

/-- A TLB entry: address-space id, first virtual byte, length, first physical byte, and the leaf's permissions. -/
structure TlbEntry where
  asid : Nat
  va : Nat
  len : Nat
  pa : Nat
  r : Bool
  w : Bool
  x : Bool
  cw : Bool
  nl : Bool
  dirty : Bool
  deriving DecidableEq, Repr

/-- A spawn bin (09 R228). -/
structure Bin where
  launch : Nat
  entry : Dword
  /-- argument counts and argument words, thread by thread -/
  threads : List (List Word)
  closed : Bool := false
  /-- the tick at which its timer closes it -/
  timer : Option Nat := none
  /-- order of closing -/
  closedAt : Nat := 0
  deriving DecidableEq, Repr

/-- A quadrant's issue stage (07 R165): current group, slots since it became current, owner of the latches (04 R82). -/
structure Quad where
  cur : Option (Nat × Nat) := none
  slots : Nat := 0
  quotaDue : Bool := false
  yielded : Bool := false
  owner : Option (Nat × Nat) := none
  /-- issue-slot counters 1 to 6; counter 0 is the cycle count, and counter 7 what is left of it (19 R438) -/
  ctrs : List (BitVec 64) := [0, 0, 0, 0, 0, 0]
  deriving DecidableEq, Repr

/-- An accumulator request that waits (13 R326): its block, its lanes, its units, and its D and P fields. -/
structure AccReq where
  blk : Nat
  lanes : List LaneRef
  units : Nat
  d : BitVec 7
  p : Nat
  deriving DecidableEq, Repr

/-- A core in use. -/
structure Core where
  blocks : SMap Block := []
  /-- L1 lines by line number (physical address / 128), 128 places each (06 R131) -/
  l1 : SMap (List (Option L1Byte)) := []
  tlb : List TlbEntry := []
  bins : SMap Bin := []
  quads : SMap Quad := []
  accReqs : List AccReq := []
  /-- serial numbers of copy, matrix, gather-scatter, sort and collective commands, and of spawn blocks -/
  copySerial : Nat := 0
  mxSerial : Nat := 0
  gseSerial : Nat := 0
  kseSerial : Nat := 0
  collSerial : Nat := 0
  spawnSerial : Nat := 0
  /-- the per-core load count of hardware sampling (19 R440) -/
  ldCount : Nat := 0
  deriving DecidableEq, Repr

/-! ### Launches and queues -/

/-- A seed slot (01 R17). -/
structure Seed where
  val : Dword := 0
  gen : Nat := 0
  deriving DecidableEq, Repr

/-- A launch record (09 R213), field by field. -/
structure Rec where
  entry : Dword := 0
  trap : Dword := BitVec.allOnes 64
  gx : Nat := 1
  gy : Nat := 1
  gz : Nat := 1
  bthr : Nat := 32
  cblk : Nat := 1
  lfl : Nat := 0
  regs : Nat := 16
  tags : Nat := 0
  cls : Nat := 0
  bstg : Nat := 0
  cstg : Nat := 0
  rdl : Nat := 0
  sb : Nat := 0
  arg : Dword := 0
  pgt : Nat := 0
  seed : Nat := 0
  fault : Nat := 0
  csb : Nat := 0
  csz : Nat := 0
  slots : Nat := 0
  tick : Nat := 0
  done : Nat := 0
  node : Nat := 0xFFFFFFFF
  spt : Nat := 0
  seq : Nat := 0
  deriving DecidableEq, Repr

/-- Launch states of 09 R222; a checking record and a completing launch are transient, and a rejected or complete one is
dropped. -/
inductive LState where
  | waiting | dispatching | running | preempted
  deriving DecidableEq, Repr

/-- What a completion gives: a node of the queue's graph, and a copy tag of a block, named by launch, block linear
index and tag. -/
structure Signal where
  node : Option Nat := none
  tag : Option (Nat × Dword × Nat) := none
  deriving DecidableEq, Repr

/-- A thread by core, block and logical index. -/
structure Who where
  core : Nat
  blk : Nat
  thr : Nat
  deriving DecidableEq, Repr

/-- A record that a thread has posted and its queue has not accepted (09 R227): the thread and its Cnt field, which wait for
the launch id, what its completion gives, and its bytes. -/
structure Posted where
  who : Who
  cnt : BitVec 7
  signal : Signal
  raw : List Byte
  deriving DecidableEq, Repr

/-- Pending spawn groups (09 R232). -/
structure SpawnGroup where
  entry : Dword
  threads : List (List Word)
  deriving DecidableEq, Repr

/-- A launch on this package. -/
structure Launch where
  /-- launch id (09 R215) -/
  id : Nat
  queue : Nat
  asid : Nat
  root : Nat
  rcd : Rec
  raw : List Byte := []
  /-- acceptance order among the records of its queue, and the launch accepted before it (09 R222) -/
  order : Nat := 0
  prev : Option Nat := none
  state : LState := .waiting
  /-- rank, rank count and the package ids of the process-group table (09 R217) -/
  rank : Nat := 0
  ranks : Nat := 1
  group : List Nat := []
  axes : Nat × Nat × Nat := (1, 1, 1)
  /-- first cluster and count of the share, next cluster to place (09 R218) -/
  first : Nat := 0
  count : Nat := 1
  next : Nat := 0
  dispatchTick : Nat := 0
  seeds : List Seed := []
  slots : List Nat := []
  /-- status bits [1], [3] and [4] of 09 R215 -/
  faulted : Bool := false
  peerLost : Bool := false
  recordLost : Bool := false
  /-- ranks reported lost (17 R409) -/
  lostRanks : List Nat := []
  collSeq : Nat := 0
  signal : Signal := {}
  /-- die and bytes reserved for a cluster while lent stage drains, and whether the drain is done (09 R221) -/
  draining : Option (Nat × Nat) := none
  drained : Bool := false
  pending : List SpawnGroup := []
  /-- blocks saved by pre-emption: offset of each image in the save area, with the block as saved (log entry 9) -/
  saved : List (Nat × Block) := []
  deriving DecidableEq, Repr

/-- A record accepted and not complete that is no launch: an invalidation or a marker (09 R212). -/
structure Marker where
  queue : Nat
  order : Nat
  done : Nat
  node : Nat
  signal : Signal := {}
  deriving DecidableEq, Repr

/-- A TLB invalidation in progress. -/
structure TlbInv where
  id : Nat
  queue : Nat
  asid : Nat
  va : Nat
  len : Nat
  order : Nat
  done : Nat
  signal : Signal := {}
  deriving DecidableEq, Repr

/-- A queue as read at its enabling (09 R210), and what its service keeps. -/
structure Queue where
  ring : Nat
  lgsz : Nat
  prio : Nat
  launchOk : Bool
  preempt : Bool
  asid : Nat
  root : Nat
  slice : Nat
  ntb : Nat
  ncnt : Nat
  save : Nat
  saven : Nat
  enabled : Bool := true
  bad : Bool := false
  seq : Nat := 1
  sliceStart : Option Nat := none
  sliceOver : Bool := false
  preempted : Bool := false
  /-- the records and the header of the save area of its pre-emption are written (09 R232) -/
  areaDone : Bool := false
  /-- sequence numbers of collective nodes while the queue has no launch (log entry 14) -/
  collSeq : Nat := 0
  /-- the launch accepted last (09 R222) -/
  lastLaunch : Option Nat := none
  /-- device-posted records that are not accepted, oldest first (09 R227) -/
  posted : List Posted := []
  deriving DecidableEq, Repr

/-! ### Traffic in flight -/

/-- A sampled load (19 R440): its lane's address, its serving level and the cycle of its issue. -/
structure Sample where
  va : Nat
  level : Nat
  at_ : Nat
  deriving DecidableEq, Repr

/-- An outstanding load (06 R129): where its data goes, and the data, chosen at issue; the mark that its registers take
if the data is uncorrectable, whether it is, and the line it comes from. -/
structure Load where
  id : Nat
  who : Who
  /-- absolute registers and the values for them -/
  dst : List (Nat × Word)
  mark : Poison
  bad : Bool
  line : Nat
  sample : Option Sample := none
  deriving DecidableEq, Repr

/-- What a pending memory operation of the LSU does when it is performed. -/
inductive Pend where
  /-- bytes at the home -/
  | write (pa : Nat) (bytes : List Byte)
  /-- the write-back of a line's dirty bytes, for a store held in the L1, cwb and cinv -/
  | line (no : Nat)
  /-- a reduction that is counted until it merges; the request is in `reds` -/
  | red (req : Nat)
  /-- rcflush of lines by physical line number -/
  | flush (lines : List Nat)
  deriving DecidableEq, Repr

/-- A store, write-back, reduction or rcflush that is not yet performed, counted in `osc` (06 R137). -/
structure Store where
  id : Nat
  who : Who
  op : Pend
  scope : Nat
  deriving DecidableEq, Repr

/-- An aggregated atomic request of one address (06 R155). -/
structure Atomic where
  id : Nat
  core : Nat
  blk : Nat
  op : Nat
  ty : Nat
  pa : Nat
  /-- performed in the core's L1 (06 R158) -/
  inL1 : Bool
  /-- lanes in ascending logical index: thread, first register (none for a constant), first and second operand -/
  lanes : List (Nat × Option Nat × Nat × Nat)
  va : Nat
  pc : Dword
  /-- the line that its home fetched for it is uncorrectable (18 R422) -/
  bad : Bool := false
  deriving DecidableEq, Repr

/-- A reduction request on its way (06 R160); also a fixer's fredf line (14 R348). -/
structure Red where
  id : Nat
  core : Nat
  /-- lanes counted for it -/
  whos : List Who
  op : Nat
  ty : Nat
  pa : Nat
  val : Nat
  va : Nat
  pc : Dword
  launch : Nat
  queue : Nat
  lin : Dword
  /-- the fixer kernel whose request this is (14 R348) -/
  kernel : Option Nat := none
  deriving DecidableEq, Repr

/-- A unit of a partial reducing-cache line (14 R339): bytes, operation, type, value. -/
structure RdcUnit where
  off : Nat
  op : Nat
  ty : Nat
  val : Nat
  deriving DecidableEq, Repr

/-- A reducing-cache line (14 R339): partial, or full (its bytes are those of memory). -/
structure RdcLine where
  full : Bool
  units : List RdcUnit
  /-- launch, and queue, of the last request that merged (14 R343), or the kernel whose request it was -/
  launch : Nat
  queue : Nat
  kernel : Option Nat := none
  /-- the PC of that request (06 R163) -/
  pc : Dword := 0
  deriving DecidableEq, Repr

/-- Engine bytes on their way to a copy tag (01 R20) of a block, named by launch and block linear index. -/
structure Arrival where
  id : Nat
  launch : Nat
  lin : Dword
  tag : Nat
  bytes : Nat
  /-- the engine command that sends them (01 R28) -/
  cmd : Dword := 0
  deriving DecidableEq, Repr

/-- The instruction being executed: its path (07 R168). -/
structure Issue where
  core : Nat
  blk : Nat
  grp : Nat
  pc : Dword
  lanes : List LaneRef
  deriving DecidableEq, Repr

/-- What the next step executes: a path of a group, or an instance of a fixer kernel. -/
inductive Sel where
  | path (i : Issue)
  | fixer (kernel inst : Nat)
  deriving DecidableEq, Repr

/-! ### Fixers, 14 -/

/-- A running fixer instance (14 R344, R359): its state, the lines logged in the open step, the log entries held, the
steps committed, and whether nothing has run since the last commit. -/
structure FxInst where
  index : Nat
  pc : Dword
  s : List Dword
  f : List (List Word)
  ff : Word := 0
  lines : List Nat := []
  entries : Nat := 0
  steps : Nat := 0
  fresh : Bool := false
  deriving DecidableEq, Repr

/-- The first fault of a kernel (14 R357): its instance, if one raised it, cause, subcause, PC and detail. -/
structure FxFault where
  inst : Option Nat
  cause : Nat
  sub : Nat
  pc : Dword
  det : Nat
  deriving DecidableEq, Repr

/-- A fixer kernel (14 R354-R361). -/
structure Kernel where
  id : Nat
  queue : Nat
  asid : Nat
  root : Nat
  /-- the payload: its address and fields -/
  pay : Nat
  code : Dword
  ninst : Nat
  part : Nat
  fl : Nat
  stat : Nat
  undo : Nat
  ubytes : Nat
  args : List Dword
  /-- the captured seed table (R356) -/
  seeds : List Seed
  /-- the lock range as an entry, where there is one -/
  locks : List Lock
  /-- the block that ran `fxrun`, and the base of its launch's stage window (R345) -/
  owner : Option (Nat × Dword) := none
  sb : Option Nat := none
  signal : Signal := {}
  admitted : Bool := false
  /-- no further instance starts (R361) -/
  stopping : Bool := false
  /-- rolled back for pre-emption: it goes on at resume -/
  preempted : Bool := false
  /-- STATE bits [5:1] (R357) -/
  state : Nat := 0
  next : Nat := 0
  nend : Nat := 0
  flags : Word := 0
  nstep : Nat := 0
  fault : Option FxFault := none
  /-- running instances, by slice -/
  insts : SMap FxInst := []
  /-- slices to restart from their checkpoints -/
  restarts : List Nat := []
  deriving DecidableEq, Repr

/-! ### Memory partitions and expansion ports, 18 -/

/-- Who makes a memory request (18 R418): requester id, service class, deadline stamp, and the launch it is made for. -/
structure Requester where
  id : Nat := 0xF7
  cls : Nat := 1
  stamp : Nat := 2 ^ 64 - 1
  launch : Nat := 0
  deriving DecidableEq, Repr

/-- A request that waits at a channel (18 R417); that of a write has the bytes its write replaced, as far as no later write has
replaced them again, and the words among them that held uncorrectable data (R422). -/
structure MemReq where
  id : Nat
  ch : Nat
  pa : Nat
  by_ : Requester
  at_ : Nat
  aged : Bool := false
  old : Option (Nat × List (Option Byte)) := none
  oldBad : List Nat := []
  deriving DecidableEq, Repr

/-- A burst whose CRC has failed (18 R421, R422): its request, its failed replays, its lane, and whether its replays are
exhausted. -/
structure Burst where
  req : MemReq
  tries : Nat
  lane : Nat
  failed : Bool := false
  deriving DecidableEq, Repr

/-- A retirement entry (18 R426). -/
structure Retired where
  ch : Nat
  bank : Nat
  row : Nat
  spare : Nat
  deriving DecidableEq, Repr

/-- What a memory partition (0-7) or expansion port (8-11) keeps beside its window. -/
structure MemUnit where
  reqs : List MemReq := []
  /-- the burst being replayed, by channel -/
  bursts : SMap Burst := []
  /-- by channel, the requests of each class served in the round of CLSW: sync, bulk, background -/
  turns : SMap (List Nat) := []
  /-- CRC errors of the last millisecond: channel, lane, tick -/
  errs : List (Nat × Nat × Nat) := []
  /-- lane repairs requested, oldest first: channel and lane -/
  wants : List (Nat × Nat) := []
  /-- lanes carried by spares: channel, lane, spare -/
  spares : List (Nat × Nat × Nat) := []
  /-- retrains that wait for a repair, and channels in retraining -/
  retrainWaits : List Nat := []
  retraining : List Nat := []
  /-- row activations of the last 32 ms: channel, bank, row, tick -/
  acts : List (Nat × Nat × Nat × Nat) := []
  /-- rows swapped: channel, bank, row, row -/
  swaps : List (Nat × Nat × Nat × Nat) := []
  retired : List Retired := []
  /-- accesses counted for page heat, and the pass in progress: 1 halve, 2 clear (18 R429) -/
  heatCount : Nat := 0
  heatPass : Nat := 0
  /-- an expansion port whose link is down (18 R428) -/
  down : Bool := false
  deriving DecidableEq, Repr

/-- A thread's strong access that another thread's may meet (06 R148): first byte, size, whether it writes; whether its thread has
made a release since, and the threads that have made an acquire after that. -/
structure Recent where
  who : Who
  lo : Nat
  n : Nat
  write : Bool
  released : Bool := false
  seen : List Who := []
  deriving DecidableEq, Repr

/-- A page migration (18 R430). -/
structure Migration where
  id : Nat
  src : Nat
  dst : Nat
  pte : Nat
  old : Nat
  new : Nat
  asid : Nat
  size : Nat
  rounds : Nat
  status : Nat
  va : Nat
  /-- Lines of the source written since they were last copied (R431). -/
  log : List Nat := []
  /-- rounds made, lines recopied, and whether a destination write has failed -/
  used : Nat := 0
  lines : Nat := 0
  failed : Bool := false
  deriving DecidableEq, Repr

/-! ### The management controller, 20 -/

/-- A firmware image (20 R446): whether its signature verifies, whether its public key has the digest of the fuses, and whether it is
staged and not activated. -/
structure Image where
  version : Nat
  counter : Nat
  bytes : List Byte
  signed : Bool
  keyed : Bool
  fresh : Bool
  deriving DecidableEq, Repr

/-- The firmware slots (20 R446): A and B, whether B runs, and the fused counter. -/
structure Firmware where
  slotA : Option Image := some ⟨0, 0, [], true, true, false⟩
  slotB : Option Image := none
  runsB : Bool := false
  fused : Nat := 0
  deriving DecidableEq, Repr

/-- A test of a unit (20 R448): source, partition or die, channel or port, row or lane, and address. -/
structure SelfTest where
  src : Nat
  unit : Nat
  ch : Nat
  row : Nat
  addr : Nat
  deriving DecidableEq, Repr

/-- An answer of the Bexkai port: completion code and data, or an SPDM error. -/
structure Reply where
  code : Nat := 0
  data : List Byte := []
  error : Bool := false
  deriving DecidableEq, Repr

/-! ### The package -/

/-- The part (00 R1). -/
inductive Part where
  | s8 | s4
  deriving DecidableEq, Repr

/-- A fault record to be written (01 R28): to the fault area of a launch, or to the status area of a kernel. -/
structure FaultRec where
  launch : Nat
  lin : Dword
  thr : Nat
  cause : Nat
  sub : Nat
  pc : Dword
  adr : Dword
  kernel : Option Nat := none
  /-- a fault area of its own: address space, root, address (11 R282) -/
  area : Option (Nat × Nat × Nat) := none
  deriving DecidableEq, Repr

/-- What is fixed for a package: the part, the inactive positions, the populated bytes of each expansion port, and
what peers are (01 R4-R12; log entry 1). -/
structure Hw where
  part : Part := .s8
  inactive : List Nat := [56, 57, 58, 59]
  cxl : List Nat := [0, 0, 0, 0]
  s4Peers : List Nat := []
  deriving DecidableEq, Repr

/-- The state of one GZ9 package. -/
structure State where
  hw : Hw := {}
  /-- core cycles; the timebase is a third of them (00 R2, 01 R24) -/
  cycle : Nat := 0
  mem : List Host.Cell := []
  /-- written stage bytes, by allocation and offset (01 R15) -/
  stage : SMap Byte := []
  /-- 8-byte words, by physical address / 8, that hold uncorrectable data (01 R30) -/
  badWords : List Nat := []
  /-- lines, by line number, that an L2 home slice holds, the newest first (01 R13, 14 R338) -/
  l2 : List Nat := []
  rdc : SMap RdcLine := []
  /-- block owner (core) by line number (06 R134) -/
  owners : SMap Nat := []
  /-- size of the last strong access, by 16-byte sector (06 R149) -/
  sectors : SMap Nat := []
  /-- accesses of threads, by 16-byte sector (06 R148) -/
  recent : SMap (List Recent) := []
  /-- lines whose fetch for a requester other than a core has failed, and that its next read of them meets as uncorrectable:
  requester and line (18 R422, R428; log entry 25) -/
  spoilt : List (Nat × Nat) := []
  locks : List Lock := []
  /-- commands held at issue by range locks, in issue order (01 R23) -/
  waiting : List Cmd := []
  loads : List Load := []
  stores : List Store := []
  atomics : List Atomic := []
  reds : List Red := []
  cmds : SMap Cmd := []
  arrivals : List Arrival := []
  tlbInvs : List TlbInv := []
  markers : List Marker := []
  cores : SMap Core := []
  launches : SMap Launch := []
  queues : SMap Queue := []
  kernels : SMap Kernel := []
  /-- serial numbers of the sort engines' node commands, by die (15 R379) -/
  kseSerials : SMap Nat := []
  /-- registers of the BAR 0 windows that do not hold their reset values, by offset (18 R414, 19 R433, 20 R444) -/
  win : SMap Word := []
  /-- partitions 0-7 and expansion ports 8-11 -/
  units : SMap MemUnit := []
  /-- who makes the accesses of the step being executed: the model's own -/
  by_ : Requester := {}
  migrations : List Migration := []
  /-- alerts and interrupts raised to the host and the Bexkai port: window base and bit, newest first (18 R416) -/
  alerts : List (Nat × Nat) := []
  /-- main power is on (20 R443) -/
  mainPower : Bool := false
  firmware : Firmware := {}
  /-- tests in order of request: the first of each unit runs (20 R448) -/
  tests : List SelfTest := []
  /-- SRAM rows whose lines a spare row serves, and Twineric lanes that are routed around (20 R448) -/
  aside : List SelfTest := []
  /-- retirement entries in non-volatile memory: partition and entry (18 R427), those loaded at stage 3 of the last power-up, and
  whether a power-up has still to load them (20 R447) -/
  nvRetired : List (Nat × Retired) := []
  bootRetired : List (Nat × Retired) := []
  bootDue : Bool := true
  /-- the latest answer of the Bexkai port -/
  reply : Option Reply := none
  /-- the latest answer to a peer's or the host's access: cause (0 where it was served), and the bytes read -/
  answer : Option (Nat × List Byte) := none
  /-- the cycle of the last reset of the package, from which the issue-slot counters count (19 R438) -/
  bootCycle : Nat := 0
  /-- threads whose halt the last halt command has left to a handler: launch, block linear index, thread (19 R442) -/
  halting : List (Nat × Dword × Nat) := []
  /-- packages with no path, and since which tick (17 R399) -/
  linksDown : SMap Nat := []
  /-- reports of `cfail` sent by the management controller, newest first: the package told, and the reason word (17 R410) -/
  cfails : List (Nat × Word) := []
  /-- fault records raised and not yet written -/
  due : List FaultRec := []
  /-- package id (01 R12, 20 R444) -/
  pkid : Nat := 0
  /-- last served queue of each priority (09 R223) -/
  served : SMap Nat := []
  nextLaunch : Nat := 1
  /-- identities of items in flight: the model's own -/
  nextId : Nat := 1
  /-- free values drawn: the model's own -/
  freeCtr : Nat := 0
  /-- inputs of the outside world and chosen events, oldest first: the model's own (log entry 4) -/
  agenda : List Instr := []
  /-- the path being executed, with its lanes -/
  issue : Issue := ⟨0, 0, 0, 0, []⟩
  /-- the fixer instance being executed: kernel and instance -/
  fx : Nat × Nat := (0, 0)
  /-- what the next step executes -/
  sel : Option Sel := none
  /-- the second path of the slot (07 R168), which executes after the first -/
  slotMate : Option Issue := none
  /-- choices of the scheduler so far: the model's own (log entry 4) -/
  turn : Nat := 0
  deriving DecidableEq, Repr

/-- The machine right after reset: nothing is running, nothing is queued, and memory lists nothing. -/
def State.reset : State := {}

end Sys2Proof.Machine
end

