-- ==== Sys2Proof/Machine/Operands.lean ====
section
/-! DEFINITION. Operand fields, predicates, latches, replay and loop ends of one thread (04 R71-R95, 05 R96,
R113). An instruction states the roles of its fields; `check` gives the stop of the first check that fails, in the
order of R70, and reading a checked operand is total. -/

namespace Sys2Proof.Machine

open Sys2Proof

/-- What stops an instruction in a lane before any effect: a precise trap with cause, subcause, trap address and
detail (01 R27), or the start of a replay (04 R84). -/
inductive Stop where
  | trap (cause sub : Nat) (adr : Dword) (det : Word)
  | replay
  deriving DecidableEq, Repr

/-- The first value there is. -/
def firstSome {β : Type} : List (Option β) → Option β
  | [] => none
  | some x :: _ => some x
  | none :: l => firstSome l

/-! ### Registers and fields, R75-R77 -/

/-- Index register xk. -/
def Thread.xreg (t : Thread) (k : Nat) : BitVec 10 := nth t.xs k 0

/-- The absolute register of a field below 116 (R75). -/
def Thread.absReg (t : Thread) (f : Nat) : Nat :=
  if f < 112 then t.wb.toNat + f else (t.xreg (f - 112)).toNat

/-- Reads an absolute register. -/
def Thread.reg (t : Thread) (r : Nat) : Word := rget t.regs r

/-- Writes an absolute register, which clears its poison mark (06 R130). -/
def Thread.setReg (t : Thread) (r : Nat) (v : Word) : Thread :=
  { t with regs := rset t.regs r v, poison := sdel t.poison r }

/-- Writes consecutive absolute registers. -/
def Thread.setRegs (t : Thread) (r : Nat) : List Word → Thread
  | [] => t
  | v :: vs => (t.setReg r v).setRegs (r + 1) vs

/-- A run of consecutive registers. -/
def Thread.regRun (t : Thread) (r n : Nat) : List Word := (List.range n).map fun i => t.reg (r + i)

/-- Joins two words, low and high. -/
def join64 (lo hi : Word) : Dword := hi ++ lo

def lo32 (d : Dword) : Word := d.truncate 32
def hi32 (d : Dword) : Word := (d >>> (32 : Nat)).truncate 32

/-- A latch, or zero where it is not valid. -/
def Thread.latch (t : Thread) (k : Nat) : Dword := nth t.latches k 0

/-- A 32-bit operand (R75): a checked field reads without failure. -/
def Thread.val (t : Thread) (f : BitVec 7) : Word :=
  let n := f.toNat
  if n < 116 then t.reg (t.absReg n)
  else if n < 124 then lo32 (t.latch (n - 116))
  else if n = 125 then BitVec.ofNat 32 t.idx
  else if n = 126 then BitVec.allOnes 32
  else 0

/-- A 64-bit operand (R77). -/
def Thread.val64 (t : Thread) (f : BitVec 7) : Dword :=
  let n := f.toNat
  if n < 116 then join64 (t.reg (t.absReg n)) (t.reg (t.absReg n + 1))
  else if n < 124 then t.latch (n - 116)
  else if n = 125 then BitVec.ofNat 64 t.idx
  else if n = 126 then BitVec.allOnes 64
  else 0

/-- Writes a 32-bit destination. -/
def Thread.setVal (t : Thread) (f : BitVec 7) (v : Word) : Thread := t.setReg (t.absReg f.toNat) v

/-- Writes a 64-bit destination pair. -/
def Thread.setVal64 (t : Thread) (f : BitVec 7) (v : Dword) : Thread :=
  (t.setReg (t.absReg f.toNat) (lo32 v)).setReg (t.absReg f.toNat + 1) (hi32 v)

/-- Predicate k; p0 reads true. -/
def Thread.pred (t : Thread) (k : Nat) : Bool := k == 0 || t.preds.getLsbD k

/-- Writes predicate k. -/
def Thread.setPred (t : Thread) (k : Nat) (v : Bool) : Thread :=
  { t with preds := if v then t.preds ||| (1#64 <<< k) else t.preds &&& ~~~(1#64 <<< k) }

/-- A 16-bit form's S field as a 7-bit field (R71). -/
def field16S (s : BitVec 5) : BitVec 7 :=
  if s.toNat < 24 then s.zeroExtend 7 else BitVec.ofNat 7 (s.toNat + 92)

/-- A 16-bit form's D field as a 7-bit field. -/
def field16D (d : BitVec 5) : BitVec 7 := d.zeroExtend 7

/-! ### Roles and checks, R70, R75-R78 -/

/-- The role of an operand field. -/
inductive Role where
  /-- 32-bit source -/
  | src (f : BitVec 7)
  /-- 64-bit source -/
  | src64 (f : BitVec 7)
  /-- quad source, always registers (06 R128) -/
  | quad (f : BitVec 7)
  /-- destination of one, two or four registers -/
  | dst (f : BitVec 7)
  | dst64 (f : BitVec 7)
  | dstq (f : BitVec 7)
  /-- registers after a destination, counted from its first, that must lie in the allocation -/
  | also (f : BitVec 7) (n : Nat)
  /-- a destination that is also read, of n registers -/
  | rw (f : BitVec 7) (n : Nat)
  /-- destination predicate -/
  | pdst (p : BitVec 6)
  deriving DecidableEq, Repr

/-- An illegal field in its role (R78 subcauses 0x01 and 0x02, R128 0x10). -/
def Role.illegal : Role → Option (Nat × Nat)
  | .src f => if f.toNat = 127 then some (3, 1) else none
  | .src64 f => if f.toNat = 127 then some (3, 1) else none
  | .quad f => if f.toNat = 127 then some (3, 1) else if 116 ≤ f.toNat then some (3, 0x10) else none
  | .dst f => if 116 ≤ f.toNat then some (3, 2) else none
  | .dst64 f => if 116 ≤ f.toNat then some (3, 2) else none
  | .dstq f => if 116 ≤ f.toNat then some (3, 2) else none
  | .also _ _ => none
  | .rw _ _ => none
  | .pdst p => if p.toNat = 0 then some (3, 2) else none

/-- A pair at an odd register or a quad at an unaligned one (R77, R128). -/
def Role.odd (t : Thread) : Role → Option (Nat × Nat)
  | .src64 f => if f.toNat < 116 ∧ t.absReg f.toNat % 2 = 1 then some (3, 3) else none
  | .dst64 f => if f.toNat < 116 ∧ t.absReg f.toNat % 2 = 1 then some (3, 3) else none
  | .quad f => if f.toNat < 116 ∧ t.absReg f.toNat % 4 ≠ 0 then some (3, 0x10) else none
  | .dstq f => if f.toNat < 116 ∧ t.absReg f.toNat % 4 ≠ 0 then some (3, 0x10) else none
  | _ => none

/-- The latch a role reads. -/
def Role.latch : Role → Option Nat
  | .src f => if 116 ≤ f.toNat ∧ f.toNat < 124 then some (f.toNat - 116) else none
  | .src64 f => if 116 ≤ f.toNat ∧ f.toNat < 124 then some (f.toNat - 116) else none
  | _ => none

/-- A latch read that no replay can supply (R84). -/
def Role.noLatch (t : Thread) (r : Role) : Option (Nat × Nat) :=
  match r.latch with
  | some k => if t.latches.length ≤ k ∧ (t.replay.isSome ∨ t.replayPc.isNone) then some (3, 6) else none
  | none => none

/-- The registers a role touches: first and count. -/
def Role.span (t : Thread) : Role → Nat × Nat
  | .src f => if f.toNat < 116 then (t.absReg f.toNat, 1) else (0, 0)
  | .src64 f => if f.toNat < 116 then (t.absReg f.toNat, 2) else (0, 0)
  | .quad f => (t.absReg f.toNat, 4)
  | .dst f => (t.absReg f.toNat, 1)
  | .dst64 f => (t.absReg f.toNat, 2)
  | .dstq f => (t.absReg f.toNat, 4)
  | .also f n => (t.absReg f.toNat, n)
  | .rw f n => (t.absReg f.toNat, n)
  | .pdst _ => (0, 0)

/-- Whether a role reads the registers it touches. -/
def Role.reads : Role → Bool
  | .src _ => true
  | .src64 _ => true
  | .quad _ => true
  | .rw _ _ => true
  | _ => false

/-- A register at or above the allocation (R76). -/
def Role.beyond (t : Thread) (r : Role) : Option (Nat × Nat) :=
  let (a, n) := r.span t
  if n ≠ 0 ∧ t.nregs < a + n then some (6, 0) else none

/-- The first poison mark among registers (06 R130). -/
def Thread.poisonIn (t : Thread) (a n : Nat) : Option Poison :=
  firstSome ((List.range n).map fun i => sget t.poison (a + i))

/-- The trap of a poisoned register. -/
def poisonStop (p : Poison) : Stop := .trap 0x0D 1 p.addr (lo32 p.pc)

/-- A register read that is poisoned. -/
def Role.poisoned (t : Thread) (r : Role) : Option Stop :=
  if r.reads then
    match t.poisonIn (r.span t).1 (r.span t).2 with
    | some p => some (poisonStop p)
    | none => none
  else none

/-- Whether a role reads a latch that is not valid. -/
def Role.lost (t : Thread) (r : Role) : Option Stop :=
  match r.latch with
  | some k => if t.latches.length ≤ k then some .replay else none
  | none => none

/-- A trap with no address and no detail. -/
def plainStop (c : Nat × Nat) : Stop := .trap c.1 c.2 0 0

/-- The checks that the instruction word and the thread's windows decide: illegal field, odd pair, missing latch,
then allocation (R70 steps 3 and 4). -/
def checkFields (t : Thread) (rs : List Role) : Option Stop :=
  (firstSome (rs.map Role.illegal ++ rs.map (Role.odd t) ++ rs.map (Role.noLatch t) ++ rs.map (Role.beyond t))).map
    plainStop

/-- Every operand check: the fields, then poisoned registers, then a latch that a replay supplies. -/
def check (t : Thread) (rs : List Role) : Option Stop :=
  firstSome (checkFields t rs :: rs.map (Role.poisoned t) ++ rs.map (Role.lost t))

/-- The priority number of a cause (01 R26). -/
def causeRank (c : Nat) : Nat :=
  match c with
  | 0x01 => 1 | 0x02 => 2 | 0x03 => 3 | 0x06 => 4 | 0x04 => 5 | 0x10 => 6 | 0x11 => 7 | 0x17 => 8 | 0x15 => 9 | 0x16 => 10
  | 0x12 => 11 | 0x14 => 12 | 0x08 => 13 | 0x09 => 14 | 0x0A => 15 | 0x0B => 16 | 0x0C => 17 | 0x0E => 18 | 0x0D => 19
  | 0x19 => 20 | 0x1A => 21 | 0x1B => 22 | 0x20 => 23 | 0x21 => 24 | 0x23 => 25 | 0x22 => 26
  | _ => 27

/-- The rank of a stop among those that one instruction meets: a replay comes after every trap. -/
def Stop.rank : Stop → Nat
  | .trap c _ _ _ => causeRank c
  | .replay => 28

/-- The stop that a lane takes of those that it meets (01 R26): the lowest number, and of equals the first. -/
def firstRanked (xs : List (Option Stop)) : Option Stop :=
  xs.foldl (fun m x => match m, x with
    | none, y => y
    | some a, none => some a
    | some a, some b => if b.rank < a.rank then some b else some a) none

/-- The checks before those of an address: the fields, then a latch that a replay supplies. -/
def checkEntry (t : Thread) (rs : List Role) : Option Stop := firstSome (checkFields t rs :: rs.map (Role.lost t))

/-- The poisoned register that an instruction reads, which ranks after the checks of its address (01 R26). -/
def poisonOf (t : Thread) (rs : List Role) : Option Stop := firstSome (rs.map (Role.poisoned t))

/-- Whether an instruction reads a latch. -/
def readsLatch (rs : List Role) : Bool := rs.any fun r => r.latch.isSome

/-! ### Latches and replay, R80-R84 -/

/-- Shifts a value into the latches. -/
def Thread.shiftIn (t : Thread) (v : Dword) : Thread := { t with latches := (v :: t.latches).take 8 }

/-- The latch shift of a latching instruction, and the replay state it sets when it reads no latch (R83, 08 R197). -/
def Thread.latchResult (t : Thread) (reads : Bool) (v : Dword) : Thread :=
  let t' := t.shiftIn v
  if reads then t' else { t' with replayPc := some t.pc, anchor := v, echoCount := 0, echoOvf := false }

/-- Loses the latches, which ends a replay (R82, R84). -/
def Thread.dropLatches (t : Thread) : Thread := { t with latches := [], replay := none }

/-- Pre-emption or a halt that reaches a thread in a replay lands at the replay PC, where the replay begins again when the
thread goes on (R87). -/
def Thread.landReplay (t : Thread) : Thread :=
  match t.replay with
  | some r => { t with latches := [], replay := some ⟨r.reader, true, 0⟩, pc := t.replayPc.getD t.pc }
  | none => t.dropLatches

/-- Goes back to the replay PC (R84). -/
def Thread.startReplay (t : Thread) : Thread :=
  { t with replay := some ⟨t.pc, true, 0⟩, pc := t.replayPc.getD t.pc }

/-! ### The end of an instruction, R89 -/

/-- Loop registers as words by level. -/
def Thread.lcOf (t : Thread) (k : Nat) : Word := nth t.lc k 0
def Thread.lsOf (t : Thread) (k : Nat) : Word := nth t.ls k 0
def Thread.loopEnd (t : Thread) (k : Nat) : Word := nth t.le k 0

/-- A 32-bit loop address with the PC's upper half (R88). -/
def Thread.loopAddr (t : Thread) (w : Word) : Dword := join64 w (hi32 t.pc)

/-- The end check from level k down: the next PC and the counters. -/
def endCheckFrom (t : Thread) (np : Dword) : List Nat → Thread × Dword
  | [] => (t, np)
  | k :: ks =>
    if t.lcOf k ≠ 0 ∧ lo32 np = t.loopEnd k then
      let c := t.lcOf k - 1
      let t' := { t with lc := t.lc.set k c }
      if c ≠ 0 then (t', t.loopAddr (t.lsOf k)) else endCheckFrom t' np ks
    else endCheckFrom t np ks

/-- The PC after an instruction whose sequential successor is `np`: the end check, outside a handler. -/
def Thread.goSeq (t : Thread) (np : Dword) : Thread :=
  if t.handler then { t with pc := np }
  else
    let (t', p) := endCheckFrom t np [2, 1, 0]
    { t' with pc := p }

/-- Whether the reading instruction of a replay stands at the PC: its completion clears the replay flag. -/
def Thread.endReplay (t : Thread) : Thread :=
  match t.replay with
  | some r => if r.atAnchor = false ∧ r.reader = t.pc then { t with replay := none } else t
  | none => t

/-- Completes an instruction of `len` bytes that does not redirect the PC. -/
def Thread.advance (t : Thread) (len : Nat) : Thread :=
  t.endReplay.goSeq (t.pc + BitVec.ofNat 64 len)

/-- Completes an instruction that goes to an address (R89: no end check). -/
def Thread.goTo (t : Thread) (a : Dword) : Thread := { t.endReplay with pc := a }

/-! ### A latching instruction in one lane, 05 R96 -/

/-- What a latching instruction writes. -/
inductive Dst where
  | r32 (f : BitVec 7)
  | r64 (f : BitVec 7)
  | p (q : BitVec 6)
  deriving DecidableEq, Repr

def Dst.role : Dst → Role
  | .r32 f => .dst f
  | .r64 f => .dst64 f
  | .p q => .pdst q

def Dst.write (d : Dst) (t : Thread) (v : Dword) : Thread :=
  match d with
  | .r32 f => t.setVal f (lo32 v)
  | .r64 f => t.setVal64 f v
  | .p q => t.setPred q.toNat (decide (v ≠ 0))

/-- The sticky flags, which a helper lane discards (02 R46). -/
def Thread.raise (t : Thread) (fl : Word) : Thread :=
  if t.helper then t else { t with fpctl := t.fpctl ||| fl }

/-- The delivery of the anchor at the replay PC (04 R84): the result is written and latched, not computed. -/
def Thread.deliverAnchor (t : Thread) (len : Nat) (dst : Dst) (n : Bool) : Thread :=
  let t1 := if n then t else dst.write t t.anchor
  (({ t1 with replay := t1.replay.map fun (r : Replay) => { r with atAnchor := false } }).shiftIn t.anchor).advance len

/-- Whether the thread stands at its replay PC, with the anchor to be delivered. -/
def Thread.atAnchor (t : Thread) : Bool :=
  match t.replay with
  | some r => r.atAnchor
  | none => false

/-- The anchor delivered, once its destination has passed its checks: the window may have moved since (R76, R77). -/
def Thread.anchorLane (t : Thread) (len : Nat) (dst : Dst) (n : Bool) : Except Stop Thread :=
  match checkFields t [dst.role] with
  | some e => .error e
  | none => .ok (t.deliverAnchor len dst n)

/-- The result of a latching instruction written, latched, flagged and the PC advanced. -/
def Thread.finish (t : Thread) (len : Nat) (dst : Dst) (n : Bool) (reads : Bool) (v : Dword) (fl : Word) : Thread :=
  (((if n then t else dst.write t v).latchResult reads v).raise fl).advance len

/-- One lane of a latching instruction: checks, then the result from values read before any write. Among several
subcauses of 0x03 the destination's comes first (log entry 10). -/
def latchLane (len : Nat) (dst : Dst) (n : Bool) (srcs : List Role) (op : Thread → Dword × Word) (t : Thread) :
    Except Stop Thread :=
  if t.atAnchor then t.anchorLane len dst n
  else
    match check t (dst.role :: srcs) with
    | some e => .error e
    | none => .ok (t.finish len dst n (readsLatch srcs) (op t).1 (op t).2)

/-- One lane of an instruction that latches nothing: checks, then a change of the thread, which sets the PC itself. -/
def plainLane (roles : List Role) (f : Thread → Except Stop Thread) (t : Thread) : Except Stop Thread :=
  match check t roles with
  | some e => .error e
  | none => f t

/-- A 32-bit result as a latched value. -/
def word64 (w : Word) : Dword := w.zeroExtend 64

/-- The result of an operation on encodings, as a 32-bit value with flags. -/
def res32 (r : Nat × Word) : Dword × Word := (BitVec.ofNat 64 (r.1 % 2 ^ 32), r.2)

/-- The same of 64 bits. -/
def res64 (r : Nat × Word) : Dword × Word := (BitVec.ofNat 64 r.1, r.2)

/-- A 1-bit field as a truth value. -/
def bit1 (n : BitVec 1) : Bool := n == 1#1

end Sys2Proof.Machine
end

