-- ==== Sys2Proof/Machine/Windows.lean ====
section
/-! DEFINITION. The BAR 0 register windows (18 R414, R415; 19 R433; 20 R444): their bases, the registers that hold a
value, and their reset values. -/

namespace Sys2Proof.Machine

open Sys2Proof

/-- The window of a partition (0-7) or of an expansion port (8-11) (18 R414). -/
def unitBase (u : Nat) : Nat := 0x01000000 + 0x10000 * u

/-- The windows of the migration engine, the trace unit and the management controller. -/
def mgBase : Nat := 0x010C0000
def traceBase : Nat := 0x010D0000
def mgmtBase : Nat := 0x010E0000

/-- Reset values of a partition's or port's registers (18 R415). -/
def unitReset (off : Nat) : Nat :=
  match off with
  | 0x010 => 0x00010408
  | 0x014 => 100000
  | 0x038 => 64
  | 0x03C => 1024
  | 0x050 => 0x00011420
  | 0x060 => 4096
  | 0x080 => 0x0000000C
  | _ => 0

/-- The power alert threshold at reset (20 R444). -/
def powerThreshold : Part → Nat
  | .s8 => 3600
  | .s4 => 1800

/-- The reset value of a window register, by its BAR 0 offset. -/
def winReset (p : Part) (a : Nat) : Word :=
  if 0x01000000 ≤ a ∧ a < mgBase then BitVec.ofNat 32 (unitReset (a % 0x10000))
  else if a = mgmtBase + 0x024 then BitVec.ofNat 32 (powerThreshold p)
  else 0

/-- A window register's value. -/
def State.winAt (s : State) (a : Nat) : Word := (sget s.win a).getD (winReset s.hw.part a)

/-- A window register written, with nothing of its access rules. -/
def State.setWin (s : State) (a : Nat) (v : Word) : State := { s with win := sput s.win a v }

/-- A 64-bit register: two words, low first (18 R414). -/
def State.winPair (s : State) (a : Nat) : Nat := (s.winAt a).toNat + 2 ^ 32 * (s.winAt (a + 4)).toNat

def State.setWinPair (s : State) (a v : Nat) : State :=
  (s.setWin a (BitVec.ofNat 32 v)).setWin (a + 4) (BitVec.ofNat 32 (v / 2 ^ 32))

/-- A bit of a window register. -/
def State.winBit (s : State) (a i : Nat) : Bool := (s.winAt a).getLsbD i

def State.unitAt (s : State) (u : Nat) : MemUnit := sgetD s.units u {}
def State.setUnit (s : State) (u : Nat) (x : MemUnit) : State := { s with units := sput s.units u x }
def State.modUnit (s : State) (u : Nat) (f : MemUnit → MemUnit) : State := s.setUnit u (f (s.unitAt u))

/-- The bring-up stage (20 R445). -/
def State.bstate (s : State) : Nat := (s.winAt (mgmtBase + 0x008)).toNat % 16

/-- Whether bring-up has failed at the stage shown (20 R445). -/
def State.bringUpFailed (s : State) : Bool := s.winBit (mgmtBase + 0x008) 8

/-- Whether bring-up has passed a stage. -/
def State.passed (s : State) (k : Nat) : Bool := decide (k ≤ s.bstate) && !(s.bringUpFailed && s.bstate == k)

/-- Whether the windows other than the management window are accessible (20 R445). -/
def State.windowsOpen (s : State) : Bool := s.mainPower && s.bstate == 8

end Sys2Proof.Machine
end

