-- ==== Sys2Proof/Machine/Memory.lean ====
section
/-! DEFINITION. Physical memory, the home of a line with its reducing cache, the L1, translation, range locks
and the accesses of threads (01 R11-R16, R22, R23; 06 R117-R163; 14 R338-R343). A stage byte has a place above
2^52: its allocation number times 2^32, plus its offset. -/

namespace Sys2Proof.Machine

open Sys2Proof

/-! ### Places -/

/-- The first place of stage memory. -/
def stageBase : Nat := 2 ^ 52

/-- The place of a stage byte. -/
def stagePlace (alloc off : Nat) : Nat := stageBase + alloc * 2 ^ 32 + off

/-- What a physical address is (01 R11). -/
inductive PKind where
  | hbm (stack : Nat)
  | cxl (port : Nat)
  | host
  | peer (pkg off : Nat)
  | stage
  | hole
  deriving DecidableEq, Repr

/-- Whether an offset of a package's HBM4E window exists on a part. -/
def hbmPresent (p : Part) (off : Nat) : Bool :=
  let st := off / 2 ^ 36
  decide (off < 2 ^ 39) && decide (off % 2 ^ 36 < 3 * 2 ^ 34) && (p == .s8 || decide (st < 4))

/-- The map of 01 R11; the own package's peer window is local (R12); an S4 has two expansion ports (00 R2). -/
def physKind (hw : Hw) (pkid pa : Nat) : PKind :=
  if stageBase ≤ pa then .stage
  else if pa < 2 ^ 39 then (if hbmPresent hw.part pa then .hbm (pa / 2 ^ 36) else .hole)
  else if 0x100000000000 ≤ pa ∧ pa < 0x140000000000 then
    let port := pa / 2 ^ 40 - 16
    if decide (pa % 2 ^ 40 < nth hw.cxl port 0) && (hw.part == .s8 || decide (port < 2)) then .cxl port else .hole
  else if 2 ^ 50 ≤ pa ∧ pa < 2 ^ 51 then .host
  else if 2 ^ 51 ≤ pa then
    let pkg := pa / 2 ^ 40 % 2048
    let off := pa % 2 ^ 40
    if 2 ^ 39 ≤ off then .hole
    else if pkg = pkid then (if hbmPresent hw.part off then .hbm (off / 2 ^ 36) else .hole)
    else if hbmPresent (if pkg ∈ hw.s4Peers then .s4 else .s8) off then .peer pkg off else .hole
  else .hole

/-- The place that holds an address: the own peer window names local bytes (01 R12). -/
def normPlace (pkid pa : Nat) : Nat :=
  if 2 ^ 51 ≤ pa ∧ pa < stageBase ∧ pa / 2 ^ 40 % 2048 = pkid then pa % 2 ^ 40 else pa

def State.kind (s : State) (pa : Nat) : PKind := physKind s.hw s.pkid pa

def PKind.isHbm : PKind → Bool
  | .hbm _ => true
  | _ => false

def PKind.isPeer : PKind → Bool
  | .peer _ _ => true
  | _ => false

/-- The line number of a place. -/
def lineOf (pa : Nat) : Nat := pa / 128

/-! ### Bytes -/

/-- A byte that stands at a place: stage bytes that nothing has written are undefined (01 R15). -/
def State.byteAt (s : State) (pa : Nat) : Byte :=
  if stageBase ≤ pa then (sget s.stage pa).getD (Config.stageByte pa) else bget s.mem pa

def State.bytesAt (s : State) (pa n : Nat) : List Byte := (List.range n).map fun i => s.byteAt (pa + i)

/-- Stage bytes written. -/
def stageSet (m : SMap Byte) (pa : Nat) : List Byte → SMap Byte
  | [] => m
  | b :: bs => stageSet (sput m pa b) (pa + 1) bs

/-- Whether an 8-byte word lies in `n` bytes from a place on. -/
def wordIn (pa n w : Nat) : Bool := decide (pa ≤ 8 * w) && decide (8 * w + 8 ≤ pa + n)

/-- What a request keeps of the bytes that its write replaced, once a later write has replaced some of them. -/
def MemReq.overwritten (r : MemReq) (pa n : Nat) : MemReq :=
  match r.old with
  | none => r
  | some o =>
    { r with
      old := some (o.1, o.2.zipIdx.map fun x => if pa ≤ o.1 + x.2 ∧ o.1 + x.2 < pa + n then none else x.1)
      oldBad := r.oldBad.filter fun w => !wordIn pa n w }

/-- The requests of a partition or port after a later write. -/
def MemUnit.overwritten (x : MemUnit) (pa n : Nat) : MemUnit :=
  { x with
    reqs := x.reqs.map fun r => r.overwritten pa n
    bursts := x.bursts.map fun b => (b.1, { b.2 with req := b.2.req.overwritten pa n }) }

/-- Requests in flight keep of the bytes they replaced what this write leaves (18 R422). -/
def overwrite (us : SMap MemUnit) (pa n : Nat) : SMap MemUnit := us.map fun p => (p.1, p.2.overwritten pa n)

/-- Bytes written at a place; a whole 8-byte word written holds good data again (01 R30). -/
def State.putBytes (s : State) (pa : Nat) (bs : List Byte) : State :=
  if stageBase ≤ pa then { s with stage := stageSet s.stage pa bs }
  else
    { s with
      mem := bsetMany s.mem pa bs
      badWords := s.badWords.filter fun w => !wordIn pa bs.length w
      units := overwrite s.units pa bs.length }

/-- Whether bytes touch a word that holds uncorrectable data. -/
def State.badAt (s : State) (pa n : Nat) : Bool :=
  s.badWords.any fun w => decide (8 * w < pa + n) && decide (pa < 8 * w + 8)

def leOf (n v : Nat) : List Byte := (List.range n).map fun i => BitVec.ofNat 8 (v / 256 ^ i)

def natOf : List Byte → Nat
  | [] => 0
  | b :: bs => b.toNat + 256 * natOf bs

def wordOf (bs : List Byte) : Word := BitVec.ofNat 32 (natOf bs)

/-- A word's bytes. -/
def wordBytes (w : Word) : List Byte := leOf 4 w.toNat

/-- A fresh value of the open ones: the counter it takes. -/
def State.drawn (s : State) (n : Nat) : State := { s with freeCtr := s.freeCtr + n }

/-- `n` undefined bytes (log entry 3). -/
def State.freeBytes (s : State) (n : Nat) : State × List Byte :=
  (s.drawn n, (List.range n).map fun i => Config.freeByte (s.freeCtr + i))

/-- The timebase (01 R24): one tick is three core cycles. -/
def State.now (s : State) : Nat := s.cycle / 3 % 2 ^ 64

/-! ### The log of page migrations, 18 R431 -/

/-- Bytes of a page. -/
def Migration.bytes (m : Migration) : Nat := match m.size with | 0 => 2 ^ 12 | 1 => 2 ^ 16 | _ => 2 ^ 21

/-- Whether a place lies in a page. -/
def inPage (base n pa : Nat) : Bool := decide (base ≤ pa) && decide (pa < base + n)

/-- Logs the line of a write that reaches the source of a migration. -/
def Migration.note (m : Migration) (pkid pa : Nat) : Migration :=
  if inPage (normPlace pkid m.src) m.bytes pa ∧ !(lineOf pa ∈ m.log) then { m with log := m.log ++ [lineOf pa] } else m

/-- A write reaches its home: each migration of its page logs its line. -/
def State.noteWrite (s : State) (pa : Nat) : State := { s with migrations := s.migrations.map fun m => m.note s.pkid pa }

/-! ### Requests and page heat, 18 R417, R418, R429 -/

/-- The partition or expansion port that serves a place. -/
def State.unitOf (s : State) (pa : Nat) : Option Nat :=
  match s.kind pa with
  | .hbm st => some st
  | .cxl p => some (8 + p)
  | _ => none

/-- Whether a place lies behind an expansion port whose link is down (R428). -/
def State.downAt (s : State) (pa : Nat) : Bool :=
  match s.kind pa with
  | .cxl p => (s.unitAt (8 + p)).down
  | _ => false

/-- Whether the home of a place cannot reach it: its port's link is down, and its L2 slice does not hold the line (R428). -/
def State.unreached (s : State) (pa : Nat) : Bool := s.downAt pa && !s.l2.contains (lineOf pa)

/-- Whether an access to the home of a place finds uncorrectable data. -/
def State.homeBad (s : State) (pa n : Nat) : Bool := s.unreached pa || s.badAt pa n

/-- A write that its port cannot perform leaves memory as it stood: a record of cause 0x0D is due to the launch it is
made for (R422, R428). -/
def State.failWrite (s : State) (launch pa : Nat) : State :=
  if launch = 0 then s
  else
    { s with
      due := s.due ++ [{ launch := launch, lin := BitVec.allOnes 64, thr := 0xFFFF, cause := 0x0D, sub := 0, pc := 0,
                         adr := BitVec.ofNat 64 pa }] }

/-- The requests of a class with no launch and no stamp, made by a unit of the memory side (18 R418). -/
def State.asUnit (s : State) (id cls : Nat) (f : State → State) : State :=
  { f { s with by_ := ⟨id, cls, 2 ^ 64 - 1, 0⟩ } with by_ := s.by_ }

/-- A request that goes to a channel (R417). -/
def State.request (s : State) (pa : Nat) : State :=
  match s.unitOf pa with
  | none => s
  | some u =>
    let ch := if 8 ≤ u then 0 else Config.channelOf pa % 32
    { (s.modUnit u fun x => { x with reqs := x.reqs ++ [⟨s.nextId, ch, pa, s.by_, s.now, false, none, []⟩] }) with nextId := s.nextId + 1 }

/-! ### The reducing cache, 14 R338-R343 -/

/-- Adds the valid units of a partial line to its memory value (R340 make_full). -/
def mergeUnits (m : SMap Byte) (base : Nat) : List RdcUnit → SMap Byte
  | [] => m
  | u :: us =>
    let w := (redWidth u.op u.ty).getD 4
    let v := natOf (bgetMany m (base + u.off) w)
    mergeUnits (bsetMany m (base + u.off) (leOf w (redCombine u.op u.ty w v u.val))) base us

/-- The record of uncorrectable data met by make_full or an eviction (R343): the PC is that of the reduction that arrived
last (06 R163). It names no block and no thread (log entry 38). -/
def rdcRecord (ln : Nat) (l : RdcLine) : FaultRec :=
  { launch := l.launch, lin := BitVec.allOnes 64, thr := 0xFFFF, cause := 0x0D, sub := 1, pc := l.pc,
    adr := BitVec.ofNat 64 (ln * 128), kernel := l.kernel }

/-- Requests in flight after the units of a line have been written. -/
def overwriteUnits (us : SMap MemUnit) (base : Nat) (l : List RdcUnit) : SMap MemUnit :=
  l.foldl (fun us u => overwrite us (base + u.off) ((redWidth u.op u.ty).getD 4)) us

/-- The line's value made current in memory and its units gone; bad data discards the units (R343). It says whether
the line was lost. -/
def State.makeFull (s : State) (ln : Nat) : State × Bool :=
  match sget s.rdc ln with
  | none => (s, false)
  | some l =>
    if l.full ∨ l.units = [] then (s, false)
    else if s.badAt (ln * 128) 128 then
      ({ s with rdc := sdel s.rdc ln, due := s.due ++ [rdcRecord ln l] }, true)
    else
      ({ s with
          mem := mergeUnits s.mem (ln * 128) l.units
          units := overwriteUnits s.units (ln * 128) l.units
          rdc := sput s.rdc ln { l with full := true, units := [] } }, false)

/-- Keeps with a request the bytes that its write has replaced, and the words among them that were uncorrectable. -/
def State.keepOld (s : State) (req pa : Nat) (old : List Byte) (bad : List Nat) : State :=
  match s.unitOf pa with
  | none => s
  | some u =>
    s.modUnit u fun x => { x with reqs := x.reqs.map fun r =>
      if r.id = req then { r with old := some (pa, old.map some), oldBad := bad } else r }

/-- The uncorrectable words of a span. -/
def State.badWordsAt (s : State) (pa n : Nat) : List Nat := s.badWords.filter fun w => decide (8 * w < pa + n) && decide (pa < 8 * w + 8)

/-- A write of bytes of a line by a function of the state: where a request was made for it, from identity `id` on, the request
keeps what the write replaces (18 R422). -/
def State.writeWith (s : State) (id pa n : Nat) (f : State → State) : State :=
  if s.nextId = id then f s else (f s).keepOld (s.nextId - 1) pa (s.bytesAt pa n) (s.badWordsAt pa n)

/-- A line evicted: merged with its HBM value, written, and absent (R342), by a request of its own: of class sync where a
release forces it, of class background otherwise (18 R418). -/
def State.evict (s : State) (forced : Bool) (ln : Nat) : State :=
  match sget s.rdc ln with
  | none => s
  | some l =>
    let by_ := s.by_
    let s1 := ({ s with by_ := ⟨0xF3, if forced then 1 else 3, 2 ^ 64 - 1, l.launch⟩ } : State).request (ln * 128)
    let s2 := ({ s1 with by_ := by_ } : State).writeWith s.nextId (ln * 128) 128 fun s => (s.makeFull ln).1
    { s2 with rdc := sdel s2.rdc ln }

/-! ### The L2, 01 R13, R14, R16 -/

/-- The die whose L2 holds the home slice of a place (01 R13); a peer's lines have none. -/
def State.homeDie (s : State) (pa : Nat) : Option Nat :=
  match s.kind pa with
  | .hbm st => some (st / 2)
  | .cxl _ => some (spread s.hw.part)
  | .host => some (spread s.hw.part)
  | _ => none
where
  spread : Part → Nat
    | .s8 => Nat.xor (pa / 2 ^ 12 % 4) (pa / 2 ^ 14 % 4)
    | .s4 => Nat.xor (pa / 2 ^ 12 % 2) (pa / 2 ^ 14 % 2)

/-- Stage bytes of a die that resident blocks have claimed: each block its own, each cluster its shared part once. -/
def State.stageClaimed (s : State) (die : Nat) : Nat :=
  let bs := (s.cores.filter fun p => p.1 / 64 == die).flatMap fun p => (p.2.blocks.map (·.2)).filter fun b => !b.spawn
  let size (b : Block) : Rec := ((sget s.launches b.launch).map (·.rcd)).getD {}
  let own := bs.foldl (fun n b => n + (size b).bstg) 0
  let firsts := bs.filter fun b => !(bs.any fun x => x.launch == b.launch && x.cluster == b.cluster && decide (x.crank < b.crank))
  firsts.foldl (fun n b => n + (size b).cstg) own

/-- Stage bytes of a die that are claimed, or reserved while lent stage drains, but for those one launch has reserved. -/
def State.stageTaken (s : State) (die launch : Nat) : Nat :=
  s.launches.foldl (fun n p => match p.2.draining with
    | some (d, k) => if d = die ∧ p.1 ≠ launch then n + k else n
    | none => n) (s.stageClaimed die)

/-- Lines that a die's L2 may hold: its SRAM less the stage claimed and the lent stage that drains (01 R14, R16). -/
def State.l2Room (s : State) (die : Nat) : Nat := (3 * 2 ^ 28 - s.stageTaken die 0) / 128

/-- The first `n` lines of a die and the lines of every other die, of a list. -/
def keepLines (home : Nat → Option Nat) (die : Nat) : Nat → List Nat → List Nat
  | _, [] => []
  | n, ln :: ls =>
    if home ln = some die then (if n = 0 then keepLines home die 0 ls else ln :: keepLines home die (n - 1) ls)
    else ln :: keepLines home die n ls

/-- Drops the oldest lines of a die's L2 that it has no room for (01 R16). -/
def State.trimL2 (s : State) (die : Nat) : State :=
  { s with l2 := keepLines (fun ln => s.homeDie (ln * 128)) die (s.l2Room die) s.l2 }

/-- A line enters its home slice, in place of the oldest of its die where the L2 is full (log entry 41). -/
def State.enterL2 (s : State) (ln : Nat) : State :=
  match s.homeDie (ln * 128) with
  | some d =>
    if (s.l2.filter fun x => s.homeDie (x * 128) == some d).length < s.l2Room d then { s with l2 := ln :: s.l2 }
    else ({ s with l2 := ln :: s.l2 } : State).trimL2 d
  | none => s

/-- A non-reduction access is served at the home of a line (R341): the line is left in the L2 home slice, which fetches it
through its channel; one that was lost is absent (R343), and so is one whose port is down (18 R428). -/
def State.homeLine (s : State) (ln : Nat) : State × Bool :=
  let (s', lost) := s.makeFull ln
  let s1 := if (sget s'.rdc ln).isSome then { s' with rdc := sdel s'.rdc ln } else s'
  if ln ∈ s1.l2 then (s1, lost)
  else if s1.downAt (ln * 128) then (s1, true)
  else ((if lost then s1 else s1.enterL2 ln).request (ln * 128), lost)

/-- Counts an access that reaches a unit's home, and the heat of its page when it is sampled (18 R429): the counter changes
at its own home, by a request of the background class. -/
def State.heat (s : State) (pa : Nat) : State :=
  match s.unitOf pa with
  | none => s
  | some u =>
    let b := unitBase u
    if !s.winBit (b + 0x80) 0 then s
    else
      let k := (s.unitAt u).heatCount + 1
      let s1 := s.modUnit u fun x => { x with heatCount := k }
      let lo := s.winPair (b + 0x90)
      if k % 2 ^ ((s.winAt (b + 0x80)).toNat / 2 % 32) = 0 ∧ lo ≤ pa ∧ pa < lo + s.winPair (b + 0x98) then
        let at_ := normPlace s.pkid (s.winPair (b + 0x88) + 2 * ((pa - lo) / 65536))
        s1.asUnit 0xF7 3 fun s =>
          let s2 := (s.homeLine (lineOf at_)).1
          (s2.noteWrite at_).putBytes at_ (leOf 2 (min (natOf (s2.bytesAt at_ 2) + 1) 0xFFFF))
      else s1

/-- A non-reduction access reaches the home of a line. -/
def State.touchHome (s : State) (ln : Nat) : State × Bool := (s.heat (ln * 128)).homeLine ln

/-- One reduction unit merged at a line (R340). -/
def mergeOne (units : List RdcUnit) (u : RdcUnit) : List RdcUnit :=
  match units.find? fun x => x.off == u.off with
  | some x =>
    let w := (redWidth u.op u.ty).getD 4
    units.map fun y => if y.off = u.off then { y with val := redCombine u.op u.ty w x.val u.val } else y
  | none => units ++ [u]

/-- Whether a unit overlaps a valid one of another operation or type. -/
def unitClash (units : List RdcUnit) (u : RdcUnit) : Bool :=
  let w := (redWidth u.op u.ty).getD 4
  units.any fun x =>
    let wx := (redWidth x.op x.ty).getD 4
    decide (x.off < u.off + w) && decide (u.off < x.off + wx) && !(x.op == u.op && x.ty == u.ty)

/-- The width of a reduction request. -/
def Red.width (r : Red) : Nat := (redWidth r.op r.ty).getD 4

/-- A reduction performed on memory. -/
def State.redDirect (s : State) (r : Red) : State × Bool :=
  if s.homeBad r.pa r.width then (s, true)
  else (s.putBytes r.pa (leOf r.width (redCombine r.op r.ty r.width (natOf (s.bytesAt r.pa r.width)) r.val)), false)

/-- A request's line in the reducing cache with nothing in it. -/
def Red.line (r : Red) (full : Bool) (units : List RdcUnit) : RdcLine := ⟨full, units, r.launch, r.queue, r.kernel, r.pc⟩

/-- Lines that a partition's reducing cache holds (R338). -/
def rdcLines : Nat := 131072

/-- Makes room for a line in its partition's reducing cache: where no way is free, a line that the cache chooses is evicted
(R342); the choice is free (log entry 3). -/
def State.rdcRoom (s : State) (ln : Nat) : State :=
  let mine := (s.rdc.map (·.1)).filter fun x => x / 2 ^ 29 == ln / 2 ^ 29
  if (sget s.rdc ln).isSome ∨ mine.length < rdcLines then s
  else (s.drawn 1).evict false (nth mine ((Config.freeWord s.freeCtr).toNat % mine.length) ln)

/-- The reducing cache has the request's line: a line of the L2 home slice is a full one, an absent line is partial. -/
def State.redLine (s0 : State) (r : Red) : State :=
  let ln := lineOf r.pa
  let s := s0.rdcRoom ln
  if ln ∈ s.l2 then { s with l2 := s.l2.erase ln, rdc := sput s.rdc ln (r.line true []) }
  else
    let l := (sget s.rdc ln).getD (r.line false [])
    { s with rdc := sput s.rdc ln { l with launch := r.launch, queue := r.queue, kernel := r.kernel, pc := r.pc } }

/-- A request's value merged with its line, once a clash has made the line full (R340). -/
def State.redMerge (s : State) (r : Red) (lost : Bool) : State × Bool :=
  let ln := lineOf r.pa
  let u : RdcUnit := ⟨r.pa % 128, r.op, r.ty, redEnter r.op r.ty r.val⟩
  let l := (sget s.rdc ln).getD (r.line false [])
  if lost then ({ s with rdc := sput s.rdc ln (r.line false [u]) }, false)
  else if l.full then s.redDirect r
  else ({ s with rdc := sput s.rdc ln { l with units := mergeOne l.units u } }, false)

/-- Whether a request clashes with a unit of its partial line. -/
def State.redClash (s : State) (r : Red) : Bool :=
  let l := (sget s.rdc (lineOf r.pa)).getD (r.line false [])
  !l.full && unitClash l.units ⟨r.pa % 128, r.op, r.ty, redEnter r.op r.ty r.val⟩

/-- A reduction at a home with no reducing cache: its line is in the L2 slice, or fetched (06 R160). -/
def State.redHome (s : State) (r : Red) : State × Bool :=
  let m := s.homeLine (lineOf r.pa)
  let bad := m.2 || m.1.homeBad r.pa r.width
  if bad then (m.1, true) else (m.1.writeWith s.nextId r.pa r.width fun s => (s.redDirect r).1, false)

/-- A reduction request merges where its memory keeps it (06 R160, R161; 14 R340). It says whether it met
uncorrectable data. -/
def State.mergeRed (s0 : State) (r : Red) : State × Bool :=
  let s := (s0.noteWrite r.pa).heat r.pa
  if (s.kind r.pa).isHbm then
    let s1 := s.redLine r
    if s1.redClash r then
      let m := s1.makeFull (lineOf r.pa)
      m.1.redMerge r m.2
    else s1.redMerge r false
  else s.redHome r

/-! ### Home accesses -/

/-- Reads bytes of one line at its home: whether they are uncorrectable. A line whose fetch for this requester has failed is so
once (18 R422, R428). -/
def State.homeRead (s : State) (pa n : Nat) : State × List Byte × Bool :=
  let (s', lost) := s.touchHome (lineOf pa)
  let x := (s'.by_.id, lineOf pa)
  ({ s' with spoilt := s'.spoilt.filter fun y => y != x }, s'.bytesAt pa n, lost || s'.homeBad pa n || s'.spoilt.contains x)

/-- Bytes of a line that is at its home are written: where its port cannot be reached, they leave a record instead. -/
def State.writeAt (s : State) (id pa : Nat) (bs : List Byte) : State :=
  if s.unreached pa then s.failWrite s.by_.launch pa else s.writeWith id pa bs.length fun s => s.putBytes pa bs

/-- Writes bytes of one line at its home. -/
def State.homeWrite (s : State) (pa : Nat) (bs : List Byte) : State :=
  ((s.noteWrite pa).touchHome (lineOf pa)).1.writeAt s.nextId pa bs

/-! ### Trace records, 19 R434, R435 -/

/-- A record dropped. -/
def State.dropTrace (s : State) : State :=
  s.setWin (traceBase + 0x20) (BitVec.ofNat 32 (min ((s.winAt (traceBase + 0x20)).toNat + 1) 0xFFFFFFFF))

/-- Writes a trace record while records are on (R435). -/
def State.trace (s : State) (rcd : List Byte) : State :=
  if !s.winBit traceBase 0 then s
  else
    let twr := s.winPair (traceBase + 0x18)
    let size := (s.winAt (traceBase + 0x10)).toNat
    let pa := s.winPair (traceBase + 0x08) + twr % size
    if size = 0 ∨ (!s.winBit traceBase 9 ∧ size ≤ twr) ∨ s.kind pa = .hole ∨ s.downAt pa then s.dropTrace
    else (s.homeWrite (normPlace s.pkid pa) rcd).setWinPair (traceBase + 0x18) ((twr + 32) % 2 ^ 64)

/-- Bytes 0 to 13 of a trace record: the thread it names. -/
def traceHead (launch : Nat) (lin : Dword) (thr : Nat) : List Byte := leOf 4 launch ++ leOf 8 lin.toNat ++ leOf 2 thr

/-! ### Cores -/

def State.coreAt (s : State) (c : Nat) : Core := sgetD s.cores c {}
def State.setCore (s : State) (c : Nat) (x : Core) : State := { s with cores := sput s.cores c x }
def State.block? (s : State) (c b : Nat) : Option Block := sget (s.coreAt c).blocks b
def State.setBlock (s : State) (c b : Nat) (x : Block) : State :=
  let k := s.coreAt c
  s.setCore c { k with blocks := sput k.blocks b x }
def State.modBlock (s : State) (c b : Nat) (f : Block → Block) : State :=
  match s.block? c b with
  | some x => s.setBlock c b (f x)
  | none => s

/-- A lane's thread in a block. -/
def Block.thread? (b : Block) (l : LaneRef) : Option Thread := if l.helper then sget b.helpers l.idx else sget b.threads l.idx
def Block.setThread (b : Block) (l : LaneRef) (t : Thread) : Block :=
  if l.helper then { b with helpers := sput b.helpers l.idx t } else { b with threads := sput b.threads l.idx t }

def State.thr? (s : State) (w : Who) : Option Thread := (s.block? w.core w.blk).bind fun b => sget b.threads w.thr
def State.setThr (s : State) (w : Who) (t : Thread) : State :=
  s.modBlock w.core w.blk fun b => { b with threads := sput b.threads w.thr t }
def State.modThr (s : State) (w : Who) (f : Thread → Thread) : State :=
  match s.thr? w with
  | some t => s.setThr w (f t)
  | none => s

def State.launch? (s : State) (id : Nat) : Option Launch := sget s.launches id
def State.modLaunch (s : State) (id : Nat) (f : Launch → Launch) : State := { s with launches := smod s.launches id f }

/-- Accesses made for a launch by one of its cores, and by a unit with a fixed class (18 R418). -/
def Launch.requester (l : Launch) (id : Nat) : Requester :=
  ⟨id, l.rcd.cls % 4, if l.rcd.rdl = 0 then 2 ^ 64 - 1 else (l.dispatchTick + l.rcd.rdl) % 2 ^ 64, l.id⟩

def State.servedFor (s : State) (id launch : Nat) : State :=
  { s with by_ := match s.launch? launch with
      | some l => l.requester id
      | none => ⟨id, 2, 2 ^ 64 - 1, 0⟩ }

def State.servedAs (s : State) (id cls : Nat) : State := { s with by_ := ⟨id, cls, 2 ^ 64 - 1, 0⟩ }

/-- The requester id of a core (18 R418). -/
def coreRequester (core : Nat) : Nat := core / 64 * 60 + core % 64

/-- The launch of a thread's block. -/
def State.launchOf (s : State) (w : Who) : Nat := ((s.block? w.core w.blk).map (·.launch)).getD 0

/-- What a thread has sent is performed under its own core's id, class and stamp (18 R418). -/
def State.sentBy (s : State) (w : Who) (f : State → State) : State :=
  { f (s.servedFor (coreRequester w.core) (s.launchOf w)) with by_ := s.by_ }

/-! ### The L1, 06 R131-R133 -/

/-- An L1 line with nothing valid. -/
def emptyLine : List (Option L1Byte) := List.replicate 128 none

def Core.l1Line (c : Core) (ln : Nat) : List (Option L1Byte) := sgetD c.l1 ln emptyLine
def Core.setL1 (c : Core) (ln : Nat) (x : List (Option L1Byte)) : Core := { c with l1 := sput c.l1 ln x }

/-- Writes the dirty bytes of a line to the home, one by one, from byte `i` on. -/
def writeDirty (s : State) (pa : Nat) : List (Option L1Byte) → State
  | [] => s
  | some ⟨v, true, _⟩ :: bs => writeDirty (s.putBytes pa [v]) (pa + 1) bs
  | _ :: bs => writeDirty s (pa + 1) bs

def cleanByte : Option L1Byte → Option L1Byte
  | some b => some { b with dirty := false }
  | none => none

def hasDirty (l : List (Option L1Byte)) : Bool := l.any fun b => match b with | some x => x.dirty | none => false

/-- Whether dirty bytes that start at a place cover an 8-byte word. -/
def wordDirty (pa : Nat) (l : List (Option L1Byte)) (w : Nat) : Bool :=
  decide (pa ≤ 8 * w) && decide (8 * w + 8 ≤ pa + l.length) &&
    ((l.drop (8 * w - pa)).take 8).all fun b => match b with | some x => x.dirty | none => false

/-- The dirty bytes written at the home: a word that they cover holds good data again (01 R30). -/
def State.putDirty (s : State) (pa : Nat) (l : List (Option L1Byte)) : State :=
  let s1 := writeDirty s pa l
  { s1 with badWords := s1.badWords.filter fun w => !wordDirty pa l w }

/-- Counts a performed store of a thread (06 R137). -/
def State.oscDown (s : State) (w : Who) : State := s.modThr w fun t => { t with osc := t.osc - 1 }
def State.oscUp (s : State) (w : Who) : State := s.modThr w fun t => { t with osc := t.osc + 1 }

/-- Releases the stores that a line's write-back performs. -/
def State.lineDone (s : State) (core ln : Nat) : State :=
  let mine := s.stores.filter fun x => x.who.core == core && x.op == Pend.line ln
  mine.foldl (fun s x => s.oscDown x.who) { s with stores := s.stores.filter fun x => !(x.who.core == core && x.op == Pend.line ln) }

/-- The dirty bytes of a line written at its home. -/
def State.cleanLine (s : State) (core ln : Nat) : State :=
  let l := (s.coreAt core).l1Line ln
  if hasDirty l then
    let s0 := ((s.noteWrite (ln * 128)).touchHome ln).1
    let s1 := if s0.unreached (ln * 128) then s0.failWrite s0.by_.launch (ln * 128)
              else s0.writeWith s.nextId (ln * 128) 128 fun s => s.putDirty (ln * 128) l
    s1.setCore core ((s1.coreAt core).setL1 ln (l.map cleanByte))
  else s

/-- The launch for which a core writes back lines while it is not the one that acts: that of its first resident block
(18 R418; log entry 25). -/
def State.coreLaunch (s : State) (core : Nat) : Nat := (((s.coreAt core).blocks.head?).map (·.2.launch)).getD 0

/-- Writes back the dirty bytes of a line, by requests of its core, which performs the stores that made them (R131, R137). -/
def State.writeBack (s : State) (core ln : Nat) : State :=
  let s0 := if s.by_.id = coreRequester core then s else s.servedFor (coreRequester core) (s.coreLaunch core)
  let s1 : State := { s0.cleanLine core ln with by_ := s.by_ }
  s1.lineDone core ln

/-- Every line of a core written back. -/
def State.writeBackAll (s : State) (core : Nat) : State :=
  ((s.coreAt core).l1.map (·.1)).foldl (fun s ln => s.writeBack core ln) s

/-- Invalidates every clean byte of a core's L1 (R132). -/
def State.dropClean (s : State) (core : Nat) : State :=
  let k := s.coreAt core
  let keep : Option L1Byte → Option L1Byte := fun b => match b with
    | some x => if x.dirty then some x else none
    | none => none
  s.setCore core { k with l1 := (k.l1.map fun p => (p.1, p.2.map keep)).filter fun p => hasDirty p.2 }

/-- Drops a line after writing it back. -/
def State.dropLine (s : State) (core ln : Nat) : State :=
  let s1 := s.writeBack core ln
  let k := s1.coreAt core
  s1.setCore core { k with l1 := sdel k.l1 ln }

/-- Lines that a core's L1 holds: 256 KiB (01 R6). -/
def l1Lines : Nat := 2048

/-- Makes room for a line in a core's L1: where all its lines are in use, one that the L1 chooses is written back and dropped; the
choice is free (log entry 3). -/
def State.l1Room (s : State) (core ln : Nat) : State :=
  let held := (s.coreAt core).l1.map (·.1)
  if ln ∈ held ∨ held.length < l1Lines then s
  else (s.drawn 1).dropLine core (nth held ((Config.freeWord s.freeCtr).toNat % held.length) 0)

/-- Brings the bytes of a line that the L1 does not hold from the home; `refresh` also renews its clean bytes. A byte that
comes from uncorrectable data is held as such (R130). -/
def State.fill (s : State) (core ln : Nat) (refresh : Bool) : State :=
  let (s1, lost) := (s.l1Room core ln).touchHome ln
  let l := (s1.coreAt core).l1Line ln
  let home := s1.bytesAt (ln * 128) 128
  let got (i : Nat) : L1Byte := ⟨nth home i 0, false, lost || s1.homeBad (ln * 128 + i) 1⟩
  let l' := (List.range 128).map fun i =>
    match nth l i none with
    | some b => if b.dirty || !refresh then some b else some (got i)
    | none => some (got i)
  s1.setCore core ((s1.coreAt core).setL1 ln l')

/-- Bytes of an L1 line. -/
def Core.l1Bytes (c : Core) (pa n : Nat) : List Byte :=
  let l := c.l1Line (lineOf pa)
  (List.range n).map fun i => match nth l (pa % 128 + i) none with | some b => b.val | none => 0

/-- Whether a core's L1 holds one of these bytes from uncorrectable data. -/
def Core.l1Bad (c : Core) (pa n : Nat) : Bool :=
  let l := c.l1Line (lineOf pa)
  (List.range n).any fun i => match nth l (pa % 128 + i) none with | some b => b.bad | none => false

/-- Bytes with those that a core's L1 holds dirty in their places (R131). -/
def Core.withDirty (c : Core) (pa : Nat) (bs : List Byte) : List Byte :=
  let l := c.l1Line (lineOf pa)
  bs.zipIdx.map fun x => match nth l (pa % 128 + x.2) none with | some b => if b.dirty then b.val else x.1 | none => x.1

/-- Whether a core's L1 holds all these bytes dirty. -/
def Core.allDirty (c : Core) (pa n : Nat) : Bool :=
  let l := c.l1Line (lineOf pa)
  (List.range n).all fun i => match nth l (pa % 128 + i) none with | some b => b.dirty | none => false

/-- Bytes put into an L1 line. -/
def Core.l1Put (c : Core) (pa : Nat) (bs : List Byte) (dirty : Bool) (onlyHeld : Bool) : Core :=
  let l := c.l1Line (lineOf pa)
  let o := pa % 128
  let l' := (List.range 128).map fun i =>
    if o ≤ i ∧ i < o + bs.length then
      match nth l i none with
      | some _ => some ⟨nth bs (i - o) 0, dirty, false⟩
      | none => if onlyHeld then none else some ⟨nth bs (i - o) 0, dirty, false⟩
    else nth l i none
  if onlyHeld ∧ sget c.l1 (lineOf pa) = none then c else c.setL1 (lineOf pa) l'

/-- Whether a core's L1 holds all these bytes. -/
def Core.l1Has (c : Core) (pa n : Nat) : Bool :=
  let l := c.l1Line (lineOf pa)
  (List.range n).all fun i => (nth l (pa % 128 + i) none).isSome

/-! ### Performing what is in flight -/

/-- Evicts lines of the reducing cache (14 R342). -/
def State.evictAll (s : State) (forced : Bool) (lines : List Nat) : State := lines.foldl (fun s ln => s.evict forced ln) s

/-- Whether the reducing cache holds partial values of a line. -/
def State.hasPartials (s : State) (ln : Nat) : Bool :=
  match sget s.rdc ln with
  | some l => !l.full && !l.units.isEmpty
  | none => false

/-- The lines of an rcflush: those with partials are evicted, others are unchanged (06 R138). -/
def State.flushPartials (s : State) (lines : List Nat) : State :=
  lines.foldl (fun s ln => if s.hasPartials ln then s.evict false ln else s) s

/-- The record of a reduction that met uncorrectable data (06 R163): of a request of several lanes, it names the first one
(log entry 38). -/
def redRecord (r : Red) : FaultRec :=
  { launch := r.launch, lin := r.lin, thr := (r.whos.head?.map (·.thr)).getD 0xFFFF, cause := 0x0D, sub := 1, pc := r.pc,
    adr := BitVec.ofNat 64 r.va, kernel := r.kernel }

/-- A request merges for the launch and core that made it; uncorrectable data leaves a record (06 R163). -/
def State.mergeFor (s : State) (r : Red) : State :=
  let m := (s.servedFor (if r.kernel.isSome then 0xF2 else coreRequester r.core) r.launch).mergeRed r
  { m.1 with by_ := s.by_, due := if m.2 then m.1.due ++ [redRecord r] else m.1.due }

/-- Takes a reduction request off the way. -/
def State.dropRed (s : State) (id : Nat) : State :=
  { s with reds := s.reds.filter fun x => x.id != id, stores := s.stores.filter fun x => x.op != Pend.red id }

/-- One reduction request arrives and merges; the counts of its lanes fall (06 R160, R161, R163). The L1 of its core gives
up what it has brought in of the line since the request left (R132, R162). -/
def State.arriveRed (s : State) (r : Red) : State :=
  let s1 := if r.kernel.isNone ∧ (sget (s.coreAt r.core).l1 (lineOf r.pa)).isSome then s.dropLine r.core (lineOf r.pa) else s
  r.whos.foldl (fun s w => s.oscDown w) ((s1.dropRed r.id).mergeFor r)

/-- Requests of one core to one line arrive in issue order: those up to this one (06 R161). -/
def State.performRed (s : State) (r : Red) : State :=
  (s.reds.filter fun x => x.core == r.core && x.kernel == r.kernel && lineOf x.pa == lineOf r.pa && decide (x.id ≤ r.id)).foldl
    (fun s x => s.arriveRed x) s

/-- Takes an item off the stores. -/
def State.dropStore (s : State) (id : Nat) : State := { s with stores := s.stores.filter fun x => x.id != id }

/-- What a core's L1 holds of a line follows a write of its own at the home, clean; of a write that failed it keeps nothing. -/
def State.renewL1 (s : State) (core pa : Nat) (bs : List Byte) : State :=
  if s.unreached pa then s.dropLine core (lineOf pa) else s.setCore core ((s.coreAt core).l1Put pa bs false true)

/-- Performs one store, write-back, reduction or rcflush. -/
def State.performStore (s : State) (x : Store) : State :=
  match x.op with
  | .write pa bs => (((s.dropStore x.id).sentBy x.who fun s => s.homeWrite pa bs).renewL1 x.who.core pa bs).oscDown x.who
  | .line ln => s.sentBy x.who fun s => s.writeBack x.who.core ln
  | .red req =>
    match s.reds.find? fun r => r.id == req with
    | some r => s.performRed r
    | none => (s.dropStore x.id).oscDown x.who
  | .flush lines => ((s.dropStore x.id).flushPartials lines).oscDown x.who

/-- The earlier value of each lane and what is left in memory (06 R155): lanes are thread, register, operands. -/
def atomFold (op ty w l : Nat) (m : Nat) : List (Nat × Option Nat × Nat × Nat) → List Nat × Nat
  | [] => ([], m)
  | (_, _, v, v2) :: rest =>
    let (olds, fin) := atomFold op ty w l (atomStep op ty w m v v2 l) rest
    (m :: olds, fin)

/-- The words that an atomic of w bytes writes to its registers. -/
def atomWords (op w old l : Nat) : List Word :=
  let ws (v : Nat) : List Word := (List.range (w / 4)).map fun i => BitVec.ofNat 32 (v / 2 ^ (32 * i))
  if op = 17 ∨ op = 18 then ws old ++ ws l else ws old

/-- Writes registers of a thread, with poison marks in place of values where the data is uncorrectable (06 R130). -/
def State.deliver (s : State) (w : Who) (dst : List (Nat × Word)) (p : Option Poison) : State :=
  s.modThr w fun t => dst.foldl (fun t d =>
    let t' := t.setReg d.1 d.2
    match p with
    | some q => { t' with poison := sput t'.poison d.1 q }
    | none => t') t

/-- Registers numbered from one on. -/
def numberFrom (r : Nat) : List Word → List (Nat × Word)
  | [] => []
  | v :: vs => (r, v) :: numberFrom (r + 1) vs

/-- The line a pending store reaches. -/
def Store.line? (x : Store) : Option Nat :=
  match x.op with
  | .write pa _ => some (lineOf pa)
  | _ => none

/-- Performs the stores that a core's threads have sent to the home of a line, in issue order, before another access of the core
finds the line in its L1 or changes it there: the L1 then follows the home (R131, R144). -/
def State.settleSent (s : State) (core ln : Nat) : State :=
  (s.stores.filter fun x => x.who.core == core && x.line? == some ln).foldl (fun s x => s.performStore x) s

/-- An atomic reads at its place (06 R158): in the L1, once it has its bytes, or at the home. -/
def State.atomPlace (s : State) (a : Atomic) (n : Nat) : State × List Byte × Bool :=
  if a.inL1 then
    let s0 := s.settleSent a.core (lineOf a.pa)
    let s1 := if (s0.coreAt a.core).l1Has a.pa n then s0 else s0.fill a.core (lineOf a.pa) false
    (s1, (s1.coreAt a.core).l1Bytes a.pa n, (s1.coreAt a.core).l1Bad a.pa n)
  else (s.dropLine a.core (lineOf a.pa)).homeRead a.pa n

/-- It writes there, in the same access: `id` is the first identity that it may have given a request. -/
def State.atomStore (s : State) (id : Nat) (a : Atomic) (bs : List Byte) : State :=
  if a.inL1 then s.setCore a.core ((s.coreAt a.core).l1Put a.pa bs true false) else (s.noteWrite a.pa).writeAt id a.pa bs

/-- Performs the aggregated request of one address (06 R155). -/
def State.performAtomic (s : State) (a : Atomic) : State :=
  let who : Who := ⟨a.core, a.blk, (a.lanes.head?.map (·.1)).getD 0⟩
  s.sentBy who fun s =>
  let s0 := { s with atomics := s.atomics.filter fun x => x.id != a.id }
  let w := (atomWidth a.op a.ty).getD 4
  let n := if a.op = 17 ∨ a.op = 18 then 2 * w else w
  let (s1, bs, found) := s0.atomPlace a n
  let bad := found || a.bad
  let m := natOf (bs.take w)
  let l := natOf (bs.drop w)
  let (olds, fin) := atomFold a.op a.ty w l m a.lanes
  let s2 := if bad ∨ a.op = 19 then s1 else s1.atomStore s0.nextId a (leOf w fin)
  let p : Option Poison := if bad then some ⟨BitVec.ofNat 64 a.va, a.pc⟩ else none
  (a.lanes.zip olds).foldl (fun s lo =>
    match lo.1.2.1 with
    | some r => s.deliver ⟨a.core, a.blk, lo.1.1⟩ (numberFrom r (atomWords a.op w lo.2 l)) p
    | none => s) s2

/-- Registers that an atomic writes (06 R153). -/
def atomRegs (op ty : Nat) : Nat :=
  let k := (atomWidth op ty).getD 4 / 4
  if op = 17 ∨ op = 18 then 2 * k else k

/-- Performs a thread's earlier accesses to a line, so that its own later access finds them (06 R129, R162). -/
def State.settleLine (s : State) (w : Who) (ln : Nat) : State :=
  let s1 := (s.stores.filter fun x => x.who == w && x.line? == some ln).foldl (fun s x => s.performStore x) s
  let s2 := (s1.reds.filter fun r => decide (w ∈ r.whos) && lineOf r.pa == ln).foldl (fun s r => s.performRed r) s1
  (s2.atomics.filter fun a => a.core == w.core && a.blk == w.blk && lineOf a.pa == ln && a.lanes.any fun l => l.1 == w.thr).foldl
    (fun s a => s.performAtomic a) s2

/-- The record of a sampled load (19 R434, R440): its three cycle counts make up its latency in parts that the spec
leaves open. -/
def State.traceLoad (s : State) (l : Load) (x : Sample) : State :=
  match s.block? l.who.core l.who.blk with
  | none => s
  | some b =>
    let lat := s.cycle - x.at_
    let out := (Config.freeWord s.freeCtr).toNat % (lat + 1)
    let serve := (Config.freeWord (s.freeCtr + 1)).toNat % (lat - out + 1)
    (s.drawn 2).trace (traceHead b.launch b.lin l.who.thr ++ leOf 1 3 ++ leOf 1 0 ++ leOf 8 x.va ++ leOf 2 x.level
      ++ leOf 2 (min out 0xFFFF) ++ leOf 2 (min serve 0xFFFF) ++ leOf 2 (min (lat - out - serve) 0xFFFF))

/-- Delivers one load's data, with the record of a sampled one. -/
def State.returnOne (s : State) (l : Load) : State :=
  let s1 := ({ s with loads := s.loads.filter fun x => x.id != l.id } : State).deliver l.who l.dst (if l.bad then some l.mark else none)
  match l.sample with
  | some x => s1.traceLoad l x
  | none => s1

/-- The sampled loads of a thread return, oldest first: its records stand in its program order (19 R435). -/
def State.returnSampled (s : State) (w : Who) (before : Nat) : State :=
  (s.loads.filter fun x => x.who == w && x.sample.isSome && decide (x.id < before)).foldl (fun s x => s.returnOne x) s

/-- Delivers a load's data (06 R129); a sampled load returns after the earlier ones of its thread. -/
def State.returnLoad (s : State) (l : Load) : State := (if l.sample.isSome then s.returnSampled l.who l.id else s).returnOne l

/-- Writes a record of a thread, after those of its sampled loads. -/
def State.traceOf (s : State) (w : Who) (rcd : List Byte) : State := if s.winBit traceBase 0 then (s.returnSampled w s.nextId).trace rcd else s

/-- Delivers what a thread's registers wait for: loads and atomics whose registers meet [a, a + n) (06 R129). -/
def State.settleRegs (s : State) (w : Who) (a n : Nat) : State :=
  let hit (r : Nat) : Bool := decide (a ≤ r) && decide (r < a + n)
  let s1 := (s.loads.filter fun l => l.who == w && l.dst.any fun d => hit d.1).foldl (fun s l => s.returnLoad l) s
  (s1.atomics.filter fun x => x.core == w.core && x.blk == w.blk && x.lanes.any fun l => l.1 == w.thr
      && (match l.2.1 with | some r => decide (r < a + n) && decide (a < r + atomRegs x.op x.ty) | none => false)).foldl
    (fun s x => s.performAtomic x) s1

/-- Every reduction of a thread performed. -/
def State.settleReds (s : State) (w : Who) : State :=
  (s.reds.filter fun r => decide (w ∈ r.whos)).foldl (fun s r => s.performRed r) s

/-- Every atomic of a thread performed. -/
def State.settleAtomics (s : State) (w : Who) : State :=
  (s.atomics.filter fun a => a.core == w.core && a.blk == w.blk && a.lanes.any fun l => l.1 == w.thr).foldl
    (fun s a => s.performAtomic a) s

/-- Every store, atomic, reduction and rcflush of a thread performed. -/
def State.settleAll (s : State) (w : Who) : State :=
  (((s.stores.filter fun x => x.who == w).foldl (fun s x => s.performStore x) s).settleReds w).settleAtomics w

/-- A change of the accesses that are kept for races (R148). -/
def State.modRecent (s : State) (f : List Recent → List Recent) : State :=
  { s with recent := (s.recent.map fun p => (p.1, f p.2)).filter fun p => !p.2.isEmpty }

/-- A release of a thread: a later acquire of another may order what came before it (06 R142; log entry 7). -/
def State.noteRelease (s : State) (w : Who) : State := s.modRecent fun l => l.map fun a => if a.who = w then { a with released := true } else a

/-- An acquire of threads: what others did before their releases may be ordered before what they do from now on. -/
def State.noteAcquire (s : State) (ws : List Who) : State :=
  s.modRecent fun l => l.map fun a => if a.released then { a with seen := a.seen ++ ws.filter fun w => !a.seen.contains w } else a

/-- A rendezvous, a sign, an exit or a save of threads: what they did may be ordered before all that comes. -/
def State.publish (s : State) (f : Who → Bool) : State := s.modRecent fun l => l.filter fun a => !f a.who

/-- A release at a scope: 0 grp, 1 blk, 2 cls, 3 dev, 4 sys (06 R132; 14 R342 at sys). Below `.cls` the dirty bytes may
stay in the L1; what the thread has sent is performed. -/
def State.releaseAt (s0 : State) (w : Who) (scope : Nat) : State :=
  let s := s0.noteRelease w
  if scope ≤ 1 then s.settleAll w
  else
    let s1 := (s.settleAll w).writeBackAll w.core
    if scope = 4 then
      s1.evictAll true (s1.rdc.map (·.1))
    else s1

/-- An acquire at a scope (06 R132). -/
def State.acquireAt (s : State) (w : Who) (scope : Nat) : State :=
  if scope ≤ 1 then s.noteAcquire [w] else (s.noteAcquire [w]).dropClean w.core

/-- Promotes the block owner of a line, if another core is (06 R134). -/
def State.promote (s : State) (core ln : Nat) : State :=
  match sget s.owners ln with
  | some o =>
    if o = core then s
    else
      let s1 := s.writeBackAll o
      let s2 := (s1.stores.filter fun x => x.who.core == o).foldl (fun s x => s.performStore x) s1
      let s3 := (s2.atomics.filter fun a => a.core == o && a.inL1).foldl (fun s a => s.performAtomic a) s2
      let s4 := s3.writeBackAll o
      { s4 with owners := sdel s4.owners ln }
  | none => s

/-- Takes block ownership, after promoting another owner (06 R134). -/
def State.own (s : State) (core ln : Nat) : State :=
  let s1 := s.promote core ln
  { s1 with owners := sput s1.owners ln core }

/-! ### Translation, 06 R117-R123 -/

/-- What an access needs (R122). -/
inductive Need where
  | r | w | rw | x
  deriving DecidableEq, Repr

def Need.writes : Need → Bool
  | .w => true
  | .rw => true
  | _ => false

/-- The address space an access is made in, with the stage it sees: base, and per part its size and allocation. -/
structure VCtx where
  core : Option Nat
  asid : Nat
  root : Nat
  sb : Nat := 0
  bstg : Nat := 0
  bid : Nat := 0
  cstg : Nat := 0
  cid : Nat := 0
  hasStage : Bool := false
  deriving DecidableEq, Repr

/-- Where an access lands: the place, and whether its lines are never held in an L1. -/
structure Place where
  pa : Nat
  nl : Bool
  deriving DecidableEq, Repr

/-- Bits [63:57] all equal bit 56 (01 R11). -/
def canonical (va : Nat) : Bool :=
  let top := va / 2 ^ 56 % 256
  va / 2 ^ 64 == 0 && (top == 0 || top == 255)

def bitOf (n i : Nat) : Bool := n / 2 ^ i % 2 == 1

/-- The permission failure of a leaf, R122, R123. -/
def permFault (need : Need) (r w x cw : Bool) : Option (Nat × Nat) :=
  match need with
  | .r => if r then none else some (0x0A, 1)
  | .x => if x then none else some (0x0A, 3)
  | .w => if w then none else if cw then some (0x0A, 4) else some (0x0A, 2)
  | .rw => if !r then some (0x0A, 1) else if w then none else if cw then some (0x0A, 4) else some (0x0A, 2)

/-- Bytes that a leaf at a level maps. -/
def leafSize (level : Nat) : Nat :=
  match level with
  | 2 => 2 ^ 30
  | 1 => 2 ^ 21
  | _ => 2 ^ 12

/-- A malformed leaf (R119, R120). -/
def leafMalformed (level pte va : Nat) : Bool :=
  let pa := pte / 2 ^ 12 % 2 ^ 40 * 2 ^ 12
  decide (2 < level) || pte / 2 ^ 53 != 0 || decide (pa % leafSize level ≠ 0) || (bitOf pte 8 && bitOf pte 3)
    || (bitOf pte 3 && !bitOf pte 2) || (bitOf pte 5 && level != 0)
    || (bitOf pte 5 && pa / 2 ^ 12 % 16 != va / 2 ^ 12 % 16)

/-- The TLB entry a leaf gives. -/
def leafEntry (asid level pte va : Nat) : TlbEntry :=
  let sz := if bitOf pte 5 then 2 ^ 16 else leafSize level
  let pa := pte / 2 ^ 12 % 2 ^ 40 * 2 ^ 12
  { asid := asid, va := va / sz * sz, len := sz, pa := pa / sz * sz, r := bitOf pte 2, w := bitOf pte 3, x := bitOf pte 4,
    cw := bitOf pte 8, nl := bitOf pte 52, dirty := bitOf pte 7 }

/-- The walk from a level down to 0; the table's address is its number. -/
def State.walkFrom (s : State) (asid va : Nat) (need : Need) (table : Nat) : List Nat → State × Except (Nat × Nat) TlbEntry
  | [] => (s, .error (9, 5))
  | level :: levels =>
    if s.kind table = .hole then (s, .error (9, 5))
    else
      let at8 := normPlace s.pkid table + 8 * (va / 2 ^ (12 + 9 * level) % 512)
      let (s1, bs, bad) := s.homeRead at8 8
      let pte := natOf bs
      if bad then (s1, .error (0x0D, 2))
      else if !bitOf pte 0 then (s1, .error (9, 4))
      else if bitOf pte 1 then
        if leafMalformed level pte va then (s1, .error (9, 5))
        else
          let e := leafEntry asid level pte va
          if s.kind (e.pa + (va - e.va)) = .hole then (s1, .error (9, 2))
          else
          match permFault need (bitOf pte 2) (bitOf pte 3) (bitOf pte 4) (bitOf pte 8) with
          | some f => (s1, .error f)
          | none =>
            let bits := 64 + (if need.writes then 128 else 0)
            let pte' := Nat.lor pte bits
            let s2 := if pte' = pte then s1 else s1.homeWrite at8 (leOf 8 pte')
            (s2, .ok (leafEntry asid level pte' va))
      else if level = 0 ∨ pte / 2 ^ 52 ≠ 0 ∨ pte / 4 % 2 ^ 10 ≠ 0 then (s1, .error (9, 5))
      else s1.walkFrom asid va need (pte / 2 ^ 12 % 2 ^ 40 * 2 ^ 12) levels

/-- A TLB entry that serves an access without a walk. -/
def tlbHit (es : List TlbEntry) (asid va : Nat) (need : Need) : Option TlbEntry :=
  es.find? fun e => e.asid == asid && decide (e.va ≤ va) && decide (va < e.va + e.len)
    && (permFault need e.r e.w e.x e.cw).isNone && (!need.writes || e.dirty)

/-- The place in the stage window (01 R15), or its fault. -/
def stageOf (c : VCtx) (va : Nat) : Except (Nat × Nat) Place :=
  let o := va - c.sb
  if o < c.bstg then .ok ⟨stagePlace c.bid o, true⟩
  else if 2 ^ 28 ≤ o ∧ o < 2 ^ 28 + c.cstg then .ok ⟨stagePlace c.cid (o - 2 ^ 28), true⟩
  else .error (9, 3)

/-- Translates an address (01 R11, R15; 06 R117-R122). -/
def State.translate (s : State) (c : VCtx) (va : Nat) (need : Need) : State × Except (Nat × Nat) Place :=
  if !canonical va then (s, .error (9, 1))
  else if c.hasStage ∧ c.sb ≤ va ∧ va < c.sb + 2 ^ 29 then
    match stageOf c va with
    | .error f => (s, .error f)
    | .ok p => if need = .x then (s, .error (0x0A, 3)) else (s, .ok p)
  else
    let fin (s : State) (e : TlbEntry) : State × Except (Nat × Nat) Place :=
      let pa := e.pa + (va - e.va)
      if s.kind pa = .hole then (s, .error (9, 2)) else (s, .ok ⟨normPlace s.pkid pa, e.nl⟩)
    match c.core.bind fun k => tlbHit (s.coreAt k).tlb c.asid va need with
    | some e => fin s e
    | none =>
      let r := ({ s with by_ := { s.by_ with id := 0xF0 } } : State).walkFrom c.asid va need c.root [4, 3, 2, 1, 0]
      let s1 : State := { r.1 with by_ := s.by_ }
      match r.2 with
      | .error f => (s1, .error f)
      | .ok e =>
        let s2 := match c.core with
          | some k => let x := s1.coreAt k; s1.setCore k { x with tlb := e :: x.tlb.filter fun y => !(y.asid == e.asid && y.va == e.va && y.len == e.len) }
          | none => s1
        fin s2 e

/-! ### Range locks, 01 R22, R23 -/

/-- The number by which the lock table names a byte: stage bytes by their place, others by virtual address. -/
def lockKey (c : VCtx) (va : Nat) : Nat :=
  if c.hasStage ∧ c.sb ≤ va ∧ va < c.sb + 2 ^ 29 then
    match stageOf c va with
    | .ok p => 2 ^ 64 + p.pa
    | .error _ => va
  else va

/-- The parts of a span of addresses: what lies below and above the stage window, in each declared part of it by its
places, and in the rest of it. No byte above the address space is named. -/
def lockParts (c : VCtx) (lo hi : Nat) : List (Nat × Nat) :=
  let cut (a b key : Nat) : List (Nat × Nat) := if max lo a < min hi b then [(key + (max lo a - a), key + (min hi b - a))] else []
  if c.hasStage then
    cut 0 c.sb 0 ++ cut c.sb (c.sb + c.bstg) (2 ^ 64 + stagePlace c.bid 0) ++ cut (c.sb + c.bstg) (c.sb + 2 ^ 28) (c.sb + c.bstg)
      ++ cut (c.sb + 2 ^ 28) (c.sb + 2 ^ 28 + c.cstg) (2 ^ 64 + stagePlace c.cid 0)
      ++ cut (c.sb + 2 ^ 28 + c.cstg) (2 ^ 64) (c.sb + 2 ^ 28 + c.cstg)
  else [(lo, min hi (2 ^ 64))]

/-- An entry over `n` bytes from an address, rounded outward to lines. -/
def lockSpan (c : VCtx) (va n : Nat) (excl dest : Bool) (holder : Nat) : Lock :=
  { asid := c.asid, spans := lockParts c (va / 128 * 128) ((va + n + 127) / 128 * 128), excl := excl, dest := dest, holder := holder }

/-- Whether an entry covers some of `n` bytes from a key on. -/
def Lock.covers (a : Lock) (k n : Nat) : Bool := a.spans.any fun x => decide (x.1 < k + n) && decide (k < x.2)

/-- Whether two entries conflict (R23). -/
def Lock.clash (a b : Lock) : Bool :=
  a.asid == b.asid && a.holder != b.holder && (a.spans.any fun x => b.covers x.1 (x.2 - x.1))
    && (a.excl || a.dest || b.excl || b.dest)

/-- Whether a command's entries meet none that is held. -/
def State.cleared (s : State) (ls : List Lock) : Bool := ls.all fun a => s.locks.all fun b => !a.clash b

/-- Free entries of the table. -/
def State.freeLocks (s : State) : Nat := 512 - s.locks.length

/-- Releases a command's entries. -/
def State.unlock (s : State) (holder : Nat) : State := { s with locks := s.locks.filter fun l => l.holder != holder }

/-- Whether a thread access meets a locked range: a load meets exclusive ranges, a write meets both kinds. -/
def State.lockHit (s : State) (c : VCtx) (va n : Nat) (write : Bool) : Bool :=
  let k := lockKey c va
  s.locks.any fun l => l.asid == c.asid && l.covers k n && (l.excl || write)

/-! ### Thread accesses, 06 R127-R134, R149 -/

/-- The address space of a block's threads. -/
def State.ctxOf (s : State) (core blk : Nat) : VCtx :=
  match s.block? core blk with
  | none => { core := some core, asid := 0, root := 0 }
  | some b =>
    match s.launch? b.launch with
    | none => { core := some core, asid := 0, root := 0 }
    | some l =>
      { core := some core, asid := l.asid, root := l.root, sb := l.rcd.sb, bstg := if b.spawn then 0 else l.rcd.bstg, bid := b.stage,
        cstg := if b.spawn then 0 else l.rcd.cstg, cid := b.cstage, hasStage := true }

/-- `trdet` of a memory trap (R123). -/
def memDet (n : Nat) (write atomic fetch : Bool) : Word :=
  BitVec.ofNat 32 (n % 256 + (if write then 256 else 0) + (if atomic then 512 else 0) + (if fetch then 1024 else 0))

/-- The trap of a memory check. -/
def memStop (va n : Nat) (write atomic : Bool) (f : Nat × Nat) : Stop :=
  .trap f.1 f.2 (BitVec.ofNat 64 va) (memDet n write atomic false)

/-- Whether the debug mode is on for a block (R149). -/
def State.sizeDebug (s : State) (core blk : Nat) : Bool :=
  match (s.block? core blk).bind fun b => s.launch? b.launch with
  | some l => l.rcd.lfl % 2 == 1
  | none => false

/-- A sector that holds another access size (R149). -/
def State.sizeClash (s : State) (pa n : Nat) : Bool :=
  match sget s.sectors (pa / 16) with
  | some m => m != n
  | none => false

/-- Whether a place is held in the core's L1 at a scope (R131). -/
def State.inL1 (s : State) (p : Place) (scope : Nat) : Bool :=
  !p.nl && !((s.kind p.pa).isPeer && decide (2 ≤ scope)) && !decide (stageBase ≤ p.pa)

/-- Whether a load or store of a scope is a sized access at the home (R149). -/
def sizedAt (scope : Nat) (_ : State) (p : Place) : Bool := decide (2 ≤ scope) || decide (stageBase ≤ p.pa)

/-- Accesses that the debug mode does not check. -/
def unsized (_ : State) (_ : Place) : Bool := false

/-- The checks of an access of `n` bytes in the order of R127 and R26, in which a range lock ranks before an uncorrectable
entry of the walk, and its place: for a sized access at the home under the
debug mode, that of the size its sector holds. Every atomic meets a write-only range (01 R23). -/
def State.access (s : State) (w : Who) (va n : Nat) (need : Need) (atomic : Bool) (sized : State → Place → Bool) :
    State × Except Stop Place :=
  let stop (f : Nat × Nat) : Except Stop Place := .error (memStop va n need.writes atomic f)
  let c := s.ctxOf w.core w.blk
  match s.translate c va need with
  | (s1, .error f) => (s1, stop (if f.1 = 0x0D ∧ s1.lockHit c va n (need.writes || atomic) then (0x0B, 0) else f))
  | (s1, .ok p) =>
    if s1.lockHit c va n (need.writes || atomic) then (s1, stop (0x0B, 0))
    else if s1.sizeDebug w.core w.blk && sized s1 p && s1.sizeClash p.pa n then (s1, stop (0x0C, 1))
    else (s1, .ok p)

/-- The size of a sized access that is performed, recorded under the debug mode (R149). -/
def State.noteSize (s : State) (w : Who) (p : Place) (n : Nat) (sized : State → Place → Bool) : State :=
  if s.sizeDebug w.core w.blk && sized s p then { s with sectors := sput s.sectors (p.pa / 16) n } else s

/-- Watchpoints that an access of a thread matches (19 R441). -/
def State.watchHits (s : State) (launch va n : Nat) (write : Bool) : List Nat :=
  (List.range 4).filter fun i =>
    let b := traceBase + 0x200 + 32 * i
    let c := s.winAt (b + 8)
    let lo := s.winPair b
    c.getLsbD 0 && c.getLsbD (if write then 2 else 1) && (!c.getLsbD 5 || (s.winAt (b + 12)).toNat == launch)
      && decide (va < lo + 2 ^ (c.toNat / 2 ^ 8 % 16)) && decide (lo < va + n)

/-- The record of a breakpoint or watchpoint (19 R434). -/
def State.traceDebug (s : State) (b : Block) (w : Who) (cause : Nat) (pc : Dword) (num : Nat) : State :=
  s.traceOf w (traceHead b.launch b.lin w.thr ++ leOf 1 2 ++ leOf 1 cause ++ leOf 8 pc.toNat ++ leOf 2 num ++ leOf 6 0)

/-- Holds a halt that reaches a thread in its handler (01 R31); one that is held already stays. -/
def Thread.holdHalt (t : Thread) (sub : Nat) : Thread := if t.haltHeld then t else { t with haltHeld := true, heldSub := sub }

/-- The watchpoints of an access that has passed its other checks: records, then the trap or the halt of the first that
stops the thread; a halt in a handler is held (R31). -/
def State.watch (s : State) (w : Who) (va n : Nat) (write atomic : Bool) : State × Option Stop :=
  match s.block? w.core w.blk, s.thr? w with
  | some b, some t =>
    let hits := (s.watchHits b.launch va n (write || atomic)).map fun i => (i, (s.winAt (traceBase + 0x208 + 32 * i)).toNat / 8 % 4)
    let s1 := hits.foldl (fun s h => if h.2 = 2 then s.traceDebug b w 0x23 t.pc h.1 else s) s
    match hits.find? fun h => h.2 != 2 with
    | none => (s1, none)
    | some h =>
      if h.2 = 0 then (s1, some (memStop va n write atomic (0x23, 0)))
      else if t.handler then (s1.setThr w (t.holdHalt 3), none)
      else (s1, some (.trap 0x22 3 0 0))
  | _, _ => (s, none)

/-- A checked access that watchpoints see, after the checks that R26 ranks before them: `late` is the stop of those that
follow the debug mode's. -/
def State.lateAccess (s : State) (w : Who) (va n : Nat) (need : Need) (atomic : Bool) (sized : State → Place → Bool)
    (late : Place → Option Stop) : State × Except Stop Place :=
  match s.access w va n need atomic sized with
  | (s1, .error e) => (s1, .error e)
  | (s1, .ok p) =>
    match late p with
    | some e => (s1, .error e)
    | none =>
      match s1.watch w va n need.writes atomic with
      | (s2, some e) => (s2, .error e)
      | (s2, none) => (s2.noteSize w p n sized, .ok p)

/-- A checked access that watchpoints see. -/
def State.watchedAccess (s : State) (w : Who) (va n : Nat) (need : Need) (atomic : Bool) (sized : State → Place → Bool) :
    State × Except Stop Place := s.lateAccess w va n need atomic sized fun _ => none

/-- The serving level of a load (19 R440). -/
def State.levelOf (s : State) (w : Who) (p : Place) (n scope : Nat) : Nat :=
  if stageBase ≤ p.pa then 8
  else if s.inL1 p scope && decide (scope ≤ 1) && (s.coreAt w.core).l1Has p.pa n then 1
  else
    if (sget s.rdc (lineOf p.pa)).isSome then 4
    else if lineOf p.pa ∈ s.l2 then (if s.homeDie p.pa = some (w.core / 64) then 2 else 3)
    else
      match s.kind p.pa with
      | .hbm _ => 5
      | .cxl _ => 6
      | .host => 9
      | _ => 7

/-- Reads bytes of one line for a thread at a scope, after its own earlier accesses to the line, and in the L1 after those that
its core has sent (R129, R131, R162). -/
def State.readAs (s : State) (w : Who) (p : Place) (n scope : Nat) : State × List Byte × Bool :=
  let s' := s.settleLine w (lineOf p.pa)
  let s0 := if s'.inL1 p scope then s'.settleSent w.core (lineOf p.pa) else s'
  if s0.inL1 p scope then
    let k := s0.coreAt w.core
    let s1 := if scope ≤ 1 then (if k.l1Has p.pa n then s0 else s0.fill w.core (lineOf p.pa) false)
              else s0.fill w.core (lineOf p.pa) true
    (s1, (s1.coreAt w.core).l1Bytes p.pa n, (s1.coreAt w.core).l1Bad p.pa n)
  else
    let (s1, bs, bad) := s0.homeRead p.pa n
    let k := s1.coreAt w.core
    (s1, k.withDirty p.pa bs, bad && !k.allDirty p.pa n)

/-! ### Accesses of different sizes that nothing orders, 06 R148 -/

/-- The 16-byte sectors of an access. -/
def sectorsOf (pa n : Nat) : List Nat := (List.range ((pa + n - 1) / 16 + 1 - pa / 16)).map fun i => pa / 16 + i

/-- The bytes that an access shares with one of another thread and another size, where either writes. -/
def Recent.shared (a b : Recent) : List Nat :=
  if a.who ≠ b.who ∧ a.n ≠ b.n ∧ (a.write || b.write) ∧ !(b.released && b.seen.contains a.who) then
    ((List.range a.n).map fun i => a.lo + i).filter fun x => decide (b.lo ≤ x) && decide (x < b.lo + b.n)
  else []

/-- The bytes that an access leaves undefined: those that it shares with an access of another size that nothing orders with it. -/
def State.racing (s : State) (a : Recent) : List Nat :=
  ((sectorsOf a.lo a.n).flatMap fun k => (sgetD s.recent k []).flatMap fun b => a.shared b).eraseDups

/-- A byte put in place of another, wherever it stands in an L1 line. -/
def Core.replace (c : Core) (pa : Nat) (v : Byte) : Core :=
  match sget c.l1 (lineOf pa) with
  | none => c
  | some l => c.setL1 (lineOf pa) (l.zipIdx.map fun x => if x.2 = pa % 128 then x.1.map fun b => { b with val := v } else x.1)

/-- A byte put in place of another in a store that is on its way. -/
def Store.replace (x : Store) (pa : Nat) (v : Byte) : Store :=
  match x.op with
  | .write lo bs => if lo ≤ pa ∧ pa < lo + bs.length then { x with op := .write lo (bs.set (pa - lo) v) } else x
  | _ => x

/-- A byte becomes a free value: at its home, in every L1 that holds it, and in every store to it. -/
def State.freeAt (s : State) (pa : Nat) : State :=
  let v := Config.freeByte s.freeCtr
  let s1 := ((s.drawn 1).makeFull (lineOf pa)).1.putBytes pa [v]
  { s1 with cores := s1.cores.map fun p => (p.1, p.2.replace pa v), stores := s1.stores.map fun x => x.replace pa v }

/-- A strong relaxed access meets those that nothing orders with it: the bytes that it shares with one of another size are
undefined from now on. -/
def State.meet (s : State) (w : Who) (pa n : Nat) (write : Bool) : State :=
  let a : Recent := { who := w, lo := pa, n := n, write := write }
  let s1 := (s.racing a).foldl (fun s x => s.freeAt x) s
  { s1 with recent := (sectorsOf pa n).foldl (fun m k =>
      sput m k (a :: (sgetD m k []).filter fun b => !(b.who == w && b.lo == pa && b.n == n && b.write == write))) s1.recent }

/-- The same for an access of any size: one of more than 16 bytes is single-copy atomic in each aligned 16-byte part. -/
def State.meetParts (s : State) (w : Who) (pa n : Nat) (write : Bool) : State :=
  if n ≤ 16 then s.meet w pa n write else (List.range (n / 16)).foldl (fun s i => s.meet w (pa + 16 * i) 16 write) s

/-- A load of a checked place with order and scope: 0 relaxed, 1 acquire, 2 sc; scope 5 is `.dev.rmt` (R131-R134). -/
def State.loadAs (s : State) (w : Who) (p : Place) (n order scope : Nat) : State × List Byte × Bool :=
  let sc := if scope = 5 then 3 else scope
  let s0 := if scope = 5 ∧ !decide (stageBase ≤ p.pa) ∧ !(s.kind p.pa).isPeer then s.promote w.core (lineOf p.pa) else s
  let s1 := if order = 2 then s0.settleAll w else if order = 0 then s0.meetParts w p.pa n false else s0
  let (s2, bs, bad) := s1.readAs w p n sc
  (if order = 0 then s2 else s2.acquireAt w sc, bs, bad)

/-- A fresh identity. -/
def State.fresh (s : State) : State := { s with nextId := s.nextId + 1 }

/-- Adds a pending store and counts it. -/
def State.addStore (s : State) (w : Who) (op : Pend) (scope : Nat) : State :=
  ({ s with stores := s.stores ++ [Store.mk s.nextId w op scope] } : State).fresh.oscUp w

/-- A store to a checked place with order and scope: 0 relaxed, 1 release, 2 sc (R131, R132, R134). One that goes to the home
changes the core's L1 copy when it is performed, or before another access of the core to the line. An sc store is performed at
its issue. -/
def State.storeAs (s : State) (w : Who) (p : Place) (bs : List Byte) (order scope : Nat) : State :=
  let s0 := if order = 0 then s else s.releaseAt w scope
  let s1 := s0.settleLine w (lineOf p.pa)
  let ln := lineOf p.pa
  let s2 := if scope = 1 ∧ !(s1.kind p.pa).isPeer ∧ !decide (stageBase ≤ p.pa) then s1.own w.core ln else s1
  let s5 :=
    if s2.inL1 p scope ∧ scope ≤ 1 then
      let s3 := (s2.settleSent w.core ln).l1Room w.core ln
      (s3.setCore w.core ((s3.coreAt w.core).l1Put p.pa bs true false)).addStore w (.line ln) scope
    else
      let s4 := s2.addStore w (.write p.pa bs) scope
      if order = 2 then s4.settleAll w else s4
  if order = 0 then s5.meetParts w p.pa bs.length true else s5

/-! ### Accesses of engines, at the home -/

/-- Engine reads of bytes that lie in one line: the place is checked by the caller. -/
def State.engineRead (s : State) (c : VCtx) (va n : Nat) : State × Except (Nat × Nat) (List Byte) :=
  match s.translate c va .r with
  | (s1, .error f) => (s1, .error f)
  | (s1, .ok p) =>
    let (s2, bs, bad) := s1.homeRead p.pa n
    if bad then (s2, .error (0x0D, 1)) else (s2, .ok bs)

/-- Where an engine writes: a port whose link is down takes no write (18 R428). -/
def State.engineTarget (s : State) (c : VCtx) (va : Nat) : State × Except (Nat × Nat) Place :=
  match s.translate c va .w with
  | (s1, .error f) => (s1, .error f)
  | (s1, .ok p) => (s1, if s1.unreached p.pa then .error (0x0D, 1) else .ok p)

/-- Engine writes of bytes that lie in one line; the issuing core's L1 keeps no copy of it. -/
def State.engineWrite (s : State) (c : VCtx) (va : Nat) (bs : List Byte) : State × Except (Nat × Nat) Unit :=
  match s.engineTarget c va with
  | (s1, .error f) => (s1, .error f)
  | (s1, .ok p) =>
    let s2 := match c.core with
      | some k => if (sget (s1.coreAt k).l1 (lineOf p.pa)).isSome then s1.dropLine k (lineOf p.pa) else s1
      | none => s1
    (s2.homeWrite p.pa bs, .ok ())

/-- The pieces of a span cut at line boundaries: offset and length, at most `k` of them. -/
def lineCuts : Nat → Nat → Nat → List (Nat × Nat)
  | 0, _, _ => []
  | k + 1, va, n =>
    if n = 0 then []
    else
      let m := min n (128 - va % 128)
      (va, m) :: lineCuts k (va + m) (n - m)

/-- Engine reads of any span. -/
def State.engineReadSpan (s : State) (c : VCtx) (va n : Nat) : State × Except (Nat × Nat × Nat) (List Byte) :=
  (lineCuts (n / 128 + 2) va n).foldl (fun acc cut =>
    match acc with
    | (s, .error e) => (s, .error e)
    | (s, .ok bs) =>
      match s.engineRead c cut.1 cut.2 with
      | (s1, .error f) => (s1, .error (f.1, f.2, cut.1))
      | (s1, .ok more) => (s1, .ok (bs ++ more))) (s, .ok [])

/-- Engine writes of any span. -/
def State.engineWriteSpan (s : State) (c : VCtx) (va : Nat) (bs : List Byte) : State × Except (Nat × Nat × Nat) Unit :=
  (lineCuts (bs.length / 128 + 2) va bs.length).foldl (fun acc cut =>
    match acc with
    | (s, .error e) => (s, .error e)
    | (s, .ok _) =>
      match s.engineWrite c cut.1 ((bs.drop (cut.1 - va)).take cut.2) with
      | (s1, .error f) => (s1, .error (f.1, f.2, cut.1))
      | (s1, .ok _) => (s1, .ok ())) (s, .ok ())

/-- The address space of a queue's launch with no core and no stage. -/
def plainCtx (asid root : Nat) : VCtx := { core := none, asid := asid, root := root }

end Sys2Proof.Machine
end

