-- ==== Sys2Proof/Machine/Ops.lean ====
section
/-! DEFINITION. The shared operations of execution: fault records (01 R28, R29), taking a trap and returning from one
(07 R186-R189), halts (01 R31), the end of a thread and of a block (07 R185, R190), barriers (07 R181), convergence
registers (07 R182-R185), copy tags (01 R20), and the fold of an instruction over its lanes. -/

namespace Sys2Proof.Machine

open Sys2Proof

/-! ### Lanes of the instruction being executed -/

/-- The thread of a lane; a helper has no PC of its own and stands where the path stands (07 R171). -/
def State.lane? (s : State) (l : LaneRef) : Option Thread :=
  match (s.block? s.issue.core s.issue.blk).bind fun b => b.thread? l with
  | some t => some (if l.helper then { t with pc := s.issue.pc } else t)
  | none => none

def State.setLane (s : State) (l : LaneRef) (t : Thread) : State :=
  s.modBlock s.issue.core s.issue.blk fun b => b.setThread l t

/-- A lane as a thread of its block. -/
def State.who (s : State) (l : LaneRef) : Who := ⟨s.issue.core, s.issue.blk, l.idx⟩

def State.modLane (s : State) (l : LaneRef) (f : Thread → Thread) : State :=
  match s.lane? l with
  | some t => s.setLane l (f t)
  | none => s

/-- Delivers the data that an instruction's registers wait for (06 R129); a helper lane waits for nothing. -/
def State.settleRoles (s : State) (l : LaneRef) (t : Thread) (rs : List Role) : State :=
  if (s.loads = [] ∧ s.atomics = []) ∨ l.helper then s
  else rs.foldl (fun s r => let sp := r.span t; if sp.2 = 0 then s else s.settleRegs (s.who l) sp.1 sp.2) s

/-! ### Fault records, 01 R28, R29 -/

/-- The 32 bytes of a record (R28). -/
def FaultRec.bytes (r : FaultRec) : List Byte :=
  leOf 4 r.launch ++ leOf 8 r.lin.toNat ++ leOf 2 r.thr ++ leOf 1 r.cause ++ leOf 1 r.sub ++ leOf 8 r.pc.toNat ++ leOf 8 r.adr.toNat

/-- Writes a record at an area: the state, and whether it was written (some true), dropped for want of room
(some false), or could not be (none). -/
def State.putRecord (s : State) (c : VCtx) (area : Nat) (bs : List Byte) : State × Option Bool :=
  match s.engineReadSpan c area 8 with
  | (s1, .error _) => (s1, none)
  | (s1, .ok hd) =>
    let cnt := natOf (hd.take 4)
    let cap := natOf (hd.drop 4)
    let room := decide (cnt < cap)
    let (s2, r2) := if room then s1.engineWriteSpan c (area + 32 + 32 * cnt) bs else (s1, .ok ())
    match r2 with
    | .error _ => (s2, none)
    | .ok _ =>
      match s2.engineWriteSpan c area (leOf 4 (min (cnt + 1) 0xFFFFFFFF)) with
      | (s3, .error _) => (s3, none)
      | (s3, .ok _) => (s3, some room)

/-- Writes one fault record to its launch's area; a kernel's record goes to the kernel (14 R343, R357). -/
def State.writeRecord (s : State) (r : FaultRec) : State :=
  match r.kernel with
  | some k =>
    { s with kernels := smod s.kernels k fun x => match x.fault with
        | some _ => x
        | none => { x with fault := some ⟨none, r.cause, r.sub, r.pc, r.adr.toNat⟩ } }
  | none =>
    match r.area with
    | some a => (s.putRecord (plainCtx a.1 a.2.1) a.2.2 r.bytes).1
    | none =>
    match s.launch? r.launch with
    | none => s
    | some l =>
      match s.putRecord (plainCtx l.asid l.root) l.rcd.fault r.bytes with
      | (s1, some true) => s1.modLaunch r.launch fun l => { l with faulted := true }
      | (s1, some false) => s1
      | (s1, none) => s1.modLaunch r.launch fun l => { l with recordLost := true }

/-- Writes the records that are due, oldest first. -/
def State.flushDue (s : State) : State := s.due.foldl (fun s r => s.writeRecord r) { s with due := [] }

/-! ### Copy tags, 01 R20 -/

/-- The largest balance. -/
def tagMax : Int := 2 ^ 24 - 1

def Tag.ready (t : Tag) : Bool := t.armed && decide (t.balance = 0) && !t.err

def Block.tagAt (b : Block) (k : Nat) : Tag := sgetD b.tags k {}

/-- The bitmap of ready tags (R20). -/
def Block.readyMap (b : Block) : Nat :=
  (List.range 64).foldl (fun m k => if (b.tagAt k).ready then m + 2 ^ k else m) 0

/-- The resident block of a launch with a block linear index: core and number. -/
def State.findLin (s : State) (launch : Nat) (lin : Dword) : Option (Nat × Nat) :=
  (s.cores.flatMap fun p => (p.2.blocks.filter fun q => q.2.launch == launch && q.2.lin == lin).map fun q => (p.1, q.1)).head?

/-- Engine bytes land on a tag of a resident block (R20): below the smallest balance the error bit is set and a record is
due, of the command that sent them. The spec names no address or detail for it: the record holds the number of the tag, the
model's choice (log entry 42). -/
def State.creditTag (s : State) (core blk : Nat) (a : Arrival) : State :=
  match s.block? core blk with
  | none => s
  | some b =>
    let t := b.tagAt a.tag
    if t.balance - a.bytes < -tagMax then
      { (s.setBlock core blk { b with tags := sput b.tags a.tag { t with err := true } }) with
        due := s.due ++ [{ launch := a.launch, lin := b.lin, thr := 0xFFFF, cause := 0x19, sub := 0, pc := a.cmd,
                           adr := BitVec.ofNat 64 a.tag }] }
    else s.setBlock core blk { b with tags := sput b.tags a.tag { t with balance := t.balance - a.bytes } }

/-- Puts engine bytes on their way to a tag of a block. -/
def State.sendTo (s : State) (launch : Nat) (lin : Dword) (tag bytes : Nat) (cmd : Dword) : State :=
  ({ s with arrivals := s.arrivals ++ [⟨s.nextId, launch, lin, tag, bytes, cmd⟩] } : State).fresh

/-- The same for a resident block. -/
def State.sendBytes (s : State) (core blk tag bytes : Nat) (cmd : Dword) : State :=
  match s.block? core blk with
  | some b => s.sendTo b.launch b.lin tag bytes cmd
  | none => s

/-- What a completion gives to a copy tag (09 R227, 14 R358); no engine command sends it, and its command id is 0 (log
entry 42). -/
def State.giveTag (s : State) (x : Signal) (bytes : Nat) : State :=
  match x.tag with
  | some t => s.sendTo t.1 t.2.1 t.2.2 bytes 0
  | none => s

/-! ### Barriers and convergence registers, 07 R181-R185 -/

/-- Live: not exited, no helper (R164). -/
def Thread.live (t : Thread) : Bool := t.mode != .exited

/-- Runnable: live, not waiting, not halted. -/
def Thread.runnable (t : Thread) : Bool := t.mode == .running && t.halted.isNone

def Thread.atBar (t : Thread) : Bool := t.mode == .waiting .bar || t.mode == .waiting .regroup

/-- Releases a thread from a wait at its 4-byte instruction, which completes. -/
def Thread.release (t : Thread) : Thread := ({ t with mode := .running }).advance 4

def Block.liveCount (b : Block) : Nat := (b.threads.filter fun p => p.2.live).length
def Block.arrived (b : Block) : Nat := (b.threads.filter fun p => p.2.atBar).length

/-- Completes the rendezvous when all live threads have arrived: a bar at once; a repacking becomes due (08 R207). -/
def Block.checkBar (b : Block) : Block :=
  if b.arrived ≠ 0 ∧ b.arrived = b.liveCount then
    if b.threads.any fun p => p.2.mode == .waiting .regroup then { b with regroupDue := true }
    else
      { b with threads := b.threads.map fun p => (p.1, if p.2.atBar then p.2.release else p.2),
               issued := [] }
  else b

def Block.cv (b : Block) (k : Nat) : CvReg := sgetD b.cvs k {}
def Block.setCv (b : Block) (k : Nat) (c : CvReg) : Block := { b with cvs := sput b.cvs k c }

/-- A thread's sph(k), where it has one. -/
def Thread.sphOf (t : Thread) (k : Nat) : Option Bool := if t.sphValid.getLsbD k then some (t.sph.getLsbD k) else none

def setBit16 (v : BitVec 16) (k : Nat) (b : Bool) : BitVec 16 :=
  if b then v ||| (1#16 <<< k) else v &&& ~~~(1#16 <<< k)

/-- Clears every signed(t) of a register. -/
def Block.clearSigned (b : Block) (k : Nat) : Block :=
  { b with threads := b.threads.map fun p => (p.1, { p.2 with signed := setBit16 p.2.signed k false }) }

/-- Releases the waiters of a register whose phase has moved past their sign (R184). -/
def Block.cvWake (b : Block) (k : Nat) : Block :=
  let ph := (b.cv k).ph
  { b with threads := b.threads.map fun p =>
      (p.1, if p.2.mode == .waiting (.cv k) && p.2.sphOf k != some ph then p.2.release else p.2) }

/-- Ends a phase: PH turns, C and the signs clear, the waiters go (R184). -/
def Block.endPhase (b : Block) (k : Nat) : Block :=
  let c := b.cv k
  ((b.setCv k { c with ph := !c.ph, c := 0, mat := none, signers := [], draining := false }).clearSigned k).cvWake k

/-- Live threads that have not signed a register in its phase. -/
def Block.unsigned (b : Block) (k : Nat) : Nat :=
  (b.threads.filter fun p => p.2.live && !p.2.signed.getLsbD k).length

/-- The block of a launch, cluster and rank in its cluster: core and number. -/
def State.findBlock (s : State) (launch cluster crank : Nat) : Option (Nat × Nat) :=
  (s.cores.flatMap fun p => (p.2.blocks.filter fun q =>
    q.2.launch == launch && q.2.cluster == cluster && q.2.crank == crank && !q.2.spawn).map fun q => (p.1, q.1)).head?

/-- The odd block of a pair, for its even block (13 R316). -/
def State.oddOf (s : State) (b : Block) : Option (Nat × Nat) :=
  if b.crank % 2 = 0 then s.findBlock b.launch b.cluster (b.crank + 1) else none

/-- The even block of a pair, for its odd block. -/
def State.evenOf (s : State) (b : Block) : Option (Nat × Nat) :=
  if b.crank % 2 = 1 then s.findBlock b.launch b.cluster (b.crank - 1) else none

/-- Live threads of the odd block that have not signed a paired phase of the even block's register (13 R316). -/
def State.pairUnsigned (s : State) (b : Block) (k : Nat) : Nat :=
  let c := b.cv k
  if (c.mat.map (·.p)).getD false then
    match (s.oddOf b).bind fun w => s.block? w.1 w.2 with
    | some o => (o.threads.filter fun p => p.2.live && !(c.signers.any fun g => g.odd && g.thr == p.1)).length
    | none => 0
  else 0

/-- Breaks the registers of a block that too few threads are left to sign (R185); a matrix phase that has all its signs
waits for no thread. -/
def State.breakRegs (s : State) (core blk : Nat) : State :=
  match s.block? core blk with
  | none => s
  | some b =>
    s.setBlock core blk ((List.range 16).foldl (fun b' k =>
      let c := b.cv k
      if c.e != 0 && !c.broken && !c.draining && decide (b.unsigned k + s.pairUnsigned b k < c.e - c.c) then
        b'.setCv k { c with broken := true }
      else b') b)

/-! ### Pre-emption, 09 R230 -/

/-- Whether the threads of a block may go on: its launch is not pre-empted. -/
def State.mayIssue (s : State) (b : Block) : Bool := ((s.launch? b.launch).map fun l => l.state != .preempted).getD false

/-- Whether a pre-emption has stopped a resident block: its waiting threads stay waiting, and none of its commands starts. -/
def State.stoppedAt (s : State) (core blk : Nat) : Bool := ((s.block? core blk).map fun b => !s.mayIssue b).getD false

/-! ### Halts, 01 R31, 04 R87 -/

/-- Halts a thread: its latches go, and a replay in progress lands at the replay PC. The spec does not say whether a halt
loads the trap registers: in the model it does not, and cause and subcause stand with the halted thread (log entry 42). -/
def Thread.halt (t : Thread) (cause sub : Nat) : Thread :=
  { t.landReplay with halted := some (cause, sub), stepping := false }

/-- Halts the live threads of a group at once (R31). -/
def State.haltGroup (s : State) (core blk grp cause sub : Nat) : State :=
  s.modBlock core blk fun b =>
    { b with threads := b.threads.map fun p => (p.1, if p.2.live && p.2.group == grp then p.2.halt cause sub else p.2) }

/-! ### The end of a block, 07 R190, 09 R220, R228 -/

/-- Whether an engine command of a block is in flight (09 R230 counts loads among them): a command, a load, an atomic, a
kernel it dispatched, a launch that is to credit a tag of it, or bytes on their way to one. -/
def State.blockBusy (s : State) (core blk : Nat) : Bool :=
  match s.block? core blk with
  | none => false
  | some b =>
    (s.cmds.any fun p => p.2.fromBlock && p.2.core == core && p.2.blk == blk)
      || (s.launches.any fun p => match p.2.signal.tag with | some t => t.1 == b.launch && t.2.1 == b.lin | none => false)
      || (s.kernels.any fun p => p.2.owner == some (b.launch, b.lin))
      || (s.arrivals.any fun a => a.launch == b.launch && a.lin == b.lin)
      || (s.loads.any fun l => l.who.core == core && l.who.blk == blk)
      || s.atomics.any fun a => a.core == core && a.blk == blk

/-- Closes the filling bins of a launch that has no other block left (09 R228). -/
def closeBins (bins : SMap Bin) (launch order : Nat) : SMap Bin :=
  bins.map fun p => (p.1, if p.2.launch = launch ∧ !p.2.closed then { p.2 with closed := true, closedAt := order } else p.2)

/-- Retires a block whose threads have all exited and whose commands have completed. -/
def State.checkRetire (s : State) (core blk : Nat) : State :=
  match s.block? core blk with
  | none => s
  | some b =>
    if (b.threads.any fun p => p.2.live) || s.blockBusy core blk || !b.held.isEmpty then s
    else
      let k := s.coreAt core
      let s1 := s.setCore core { k with blocks := sdel k.blocks blk }
      let width := match s.launch? b.launch with
        | some l => if b.spawn ∧ l.rcd.bthr ≠ 0 then (31 + l.rcd.bthr) / l.rcd.bthr else 1
        | none => 1
      let s2 := s1.modLaunch b.launch fun l =>
        { l with slots := l.slots.filter fun x => !(decide (b.stackSlot ≤ x) && decide (x < b.stackSlot + width)) }
      let more := ((s2.launch? b.launch).map fun l => decide (l.next < l.first + l.count) || !l.saved.isEmpty || !l.pending.isEmpty).getD false
      if more || s2.cores.any fun p => p.2.blocks.any fun q => q.2.launch == b.launch then s2
      else { s2 with cores := s2.cores.map fun p => (p.1, { p.2 with bins := closeBins p.2.bins b.launch s2.nextId }) }

/-- Retires every block that only its last loads and atomics kept (07 R190). -/
def State.retireDue (s : State) : State :=
  (s.cores.flatMap fun p => (p.2.blocks.filter fun q => !(q.2.threads.any fun t => t.2.live)).map fun q => (p.1, q.1)).foldl
    (fun s w => s.checkRetire w.1 w.2) s

/-! ### Traps, 07 R186-R189 -/

/-- Whether a cause's record names an address: those of memory accesses, and a watchpoint's (19 R441). -/
def addressCause (cause : Nat) : Bool := (decide (8 ≤ cause) && decide (cause ≤ 0x0E)) || cause == 0x23

/-- The record of a precise trap: the address or the detail (R189). -/
def trapRecord (b : Block) (t : Thread) (cause sub : Nat) (pc adr : Dword) (det : Word) : FaultRec :=
  { launch := b.launch, lin := b.lin, thr := t.idx, cause := cause, sub := sub, pc := pc,
    adr := if addressCause cause ∨ det = 0 then adr else det.zeroExtend 64 }

/-- The trap registers of a trap (R186), with the latches gone. -/
def Thread.loadTrap (t : Thread) (cause sub : Nat) (adr : Dword) (det : Word) (resume : Dword) : Thread :=
  { t.dropLatches with
    tsmp := false
    trcause := BitVec.ofNat 32 (cause + 256 * sub), trpc := lo32 resume, trpch := hi32 resume,
    tradl := lo32 adr, tradh := hi32 adr, trdet := det }

/-- Trap entry in a thread that has a handler and is not in it. -/
def Thread.enterHandler (t : Thread) (cause sub : Nat) (adr : Dword) (det : Word) (resume handler : Dword) : Thread :=
  { t.loadTrap cause sub adr det resume with handler := true, pc := handler }

/-- Marks a thread exited, which loses its pixel state (16 R394), and completes the barrier it leaves (R181). -/
def Block.exitThread (b : Block) (idx : Nat) : Block :=
  ({ b with threads := smod b.threads idx fun t => { t with mode := .exited, latches := [], replay := none, pixel := {} } } : Block).checkBar

/-- The waiters of a block's broken registers, with those of the odd block of its pair. -/
def State.brokenWaiters (s : State) (core blk : Nat) : List Who :=
  match s.block? core blk with
  | none => []
  | some b =>
    let here := (b.threads.filter fun p => match p.2.mode with
      | .waiting (.cv k) => (b.cv k).broken
      | _ => false).map fun p => (⟨core, blk, p.1⟩ : Who)
    match s.oddOf b with
    | none => here
    | some w =>
      match s.block? w.1 w.2 with
      | none => here
      | some o => here ++ (o.threads.filter fun p => match p.2.mode with
          | .waiting (.pair k) => (b.cv k).broken
          | _ => false).map fun p => (⟨w.1, w.2, p.1⟩ : Who)

/-- A thread exits (R190): its barrier, and the registers that it breaks in its block, and in the even block of its
pair. The waiters that are to trap follow. -/
def State.exitThread (s : State) (w : Who) : State × List Who :=
  let s1 := (s.publish fun x => x == w).modBlock w.core w.blk fun b => b.exitThread w.thr
  let s2 := s1.breakRegs w.core w.blk
  match (s2.block? w.core w.blk).bind fun b => s2.evenOf b with
  | none => (s2, s2.brokenWaiters w.core w.blk)
  | some e =>
    let s3 := s2.breakRegs e.1 e.2
    (s3, s3.brokenWaiters w.core w.blk ++ s3.brokenWaiters e.1 e.2)

/-- Whether a thread waits for a convergence register. -/
def Thread.atCv (t : Thread) : Bool :=
  match t.mode with
  | .waiting (.cv _) => true
  | .waiting (.pair _) => true
  | _ => false

/-- Takes a precise trap in a thread (R186, R189): `resume` is where `trpc` points and `at_` the instruction that
raised it. A fault inside a handler halts the group with subcause 0x04 (19 R442). `fuel` bounds the exits that break
registers whose waiters trap in turn, each of them once. -/
def State.trapWith (s : State) (fuel : Nat) (w : Who) (cause sub : Nat) (adr : Dword) (det : Word) (resume at_ : Dword) : State :=
  match fuel with
  | 0 => s
  | fuel + 1 =>
    match s.block? w.core w.blk with
    | none => s
    | some b =>
      match sget b.threads w.thr with
      | none => s
      | some t =>
        let rcd := trapRecord b t cause sub at_ adr det
        let handler := ((s.launch? b.launch).map (·.rcd.trap)).getD (BitVec.allOnes 64)
        if t.handler then
          let s1 := (s.setThr w (t.enterHandler cause sub adr det resume handler)).haltGroup w.core w.blk t.group 0x22 4
          { s1 with due := s1.due ++ [rcd] }
        else if handler = BitVec.allOnes 64 then
          let s1 := { (s.modLaunch b.launch fun l => { l with faulted := true }) with due := s.due ++ [rcd] }
          if t.osc ≠ 0 then s1.setThr w { t.dropLatches with mode := .waiting .trapOsc }
          else
            let (s2, ws) := s1.exitThread w
            let s3 := ws.foldl (fun s x =>
              match s.thr? x with
              | some u => if u.atCv then (s.setThr x { u with mode := .running }).trapWith fuel x 0x17 6 0 0 u.pc u.pc else s
              | none => s) s2
            s3.checkRetire w.core w.blk
        else s.setThr w (t.enterHandler cause sub adr det resume handler)

/-- More exits than the threads of two blocks can nest. -/
def trapFuel : Nat := 4096

/-- Taking an exception: a precise trap at the instruction that raised it (R186). -/
def State.takeTrap (s : State) (w : Who) (cause sub : Nat) (adr : Dword) (det : Word) : State :=
  let pc := ((s.thr? w).map (·.pc)).getD 0
  s.trapWith trapFuel w cause sub adr det pc pc

/-- The trap of the threads released by a broken register; one that a trap before has ended waits no more. -/
def State.trapWaiters (s : State) (ws : List Who) : State :=
  ws.foldl (fun s x =>
    match s.thr? x with
    | some u => if u.atCv then (s.setThr x { u with mode := .running }).takeTrap x 0x17 6 0 0 else s
    | none => s) s

/-- Ends a thread whose `osc` is 0 (R190). -/
def State.finishExit (s : State) (w : Who) : State :=
  let (s1, ws) := s.exitThread w
  (s1.trapWaiters ws).checkRetire w.core w.blk

/-- `exit` in a thread (R190): the hold until `osc` is 0, then the end. -/
def State.beginExit (s : State) (w : Who) : State :=
  match s.thr? w with
  | none => s
  | some t => if t.osc = 0 then s.finishExit w else s.setThr w { t with mode := .waiting .exitOsc }

/-- The return from a trap handler, `trapret` (R187): a held halt is taken with the resume address. -/
def Thread.returnFromTrap (t : Thread) : Thread :=
  let t1 := { t.dropLatches with handler := false, pc := join64 t.trpc t.trpch, skipBp := true }
  if t.haltHeld then { t1 with haltHeld := false, halted := some (0x22, t.heldSub) } else t1

/-! ### Folding an instruction over its lanes -/

/-- A lane that stops: a helper has no effect, a thread traps, halts or begins its replay. -/
def State.stopLane (s : State) (l : LaneRef) (e : Stop) : State :=
  match e with
  | .replay => s.modLane l Thread.startReplay
  | .trap c sub adr det =>
    if l.helper then s
    else if c = 0x22 then s.modLane l fun t => t.halt c sub
    else s.takeTrap (s.who l) c sub adr det

/-- What one lane makes of the state, or why it stops. -/
abbrev LaneOut := State × Option Stop

/-- What follows a lane's own part: nothing, or its stop. -/
def endLane (l : LaneRef) : LaneOut → State
  | (s, none) => s
  | (s, some e) => s.stopLane l e

/-- One lane acts, or stops. -/
def State.laneStep (f : State → LaneRef → Thread → LaneOut) (s : State) (l : LaneRef) : State :=
  match s.lane? l with
  | none => s
  | some t => endLane l (f s l t)

/-- Executes each lane in turn: every lane acts, or stops, on its own. -/
def State.lanesOf (s : State) (ls : List LaneRef) (f : State → LaneRef → Thread → LaneOut) : State := ls.foldl (State.laneStep f) s

def State.lanes (s : State) (f : State → LaneRef → Thread → LaneOut) : State := s.lanesOf s.issue.lanes f

/-- A lane function of the thread alone, with its operand registers settled. -/
def threadLane (roles : List Role) (f : Thread → Except Stop Thread) (s : State) (l : LaneRef) (t : Thread) : LaneOut :=
  let s1 := s.settleRoles l t roles
  match f ((s1.lane? l).getD t) with
  | .ok t' => (s1.setLane l t', none)
  | .error e => (s1, some e)

/-- A latching instruction (05 R96): roles, operation and destination. -/
def latchOp (len : Nat) (dst : Dst) (n : Bool) (srcs : List Role) (op : Thread → Dword × Word) (s : State) :
    Host.Outcome State Fault Refusal :=
  .next (s.lanes (threadLane (dst.role :: srcs) (latchLane len dst n srcs op)))

/-- An instruction that acts on the thread alone and latches nothing. -/
def plainOp (roles : List Role) (f : Thread → Except Stop Thread) (s : State) : Host.Outcome State Fault Refusal :=
  .next (s.lanes (threadLane roles (plainLane roles f)))

/-- An instruction whose lanes reach beyond the thread: the checks of its fields, then its effect. -/
def stateOp (roles : List Role) (f : State → LaneRef → Thread → LaneOut) (s : State) : Host.Outcome State Fault Refusal :=
  .next (s.lanes fun s l t =>
    let s1 := s.settleRoles l t roles
    let t1 := (s1.lane? l).getD t
    match check t1 roles with
    | some e => (s1, some e)
    | none => f s1 l t1)

/-- An instruction that accesses memory: the checks of its fields, then its effect, which finds its address's faults before
a poisoned register (01 R26). -/
def memoryOp (roles : List Role) (f : State → LaneRef → Thread → LaneOut) (s : State) : Host.Outcome State Fault Refusal :=
  .next (s.lanes fun s l t =>
    let s1 := s.settleRoles l t roles
    let t1 := (s1.lane? l).getD t
    match checkEntry t1 roles with
    | some e => (s1, some e)
    | none => f s1 l t1)

/-- The stop of a lane that reads a poisoned register: a fault of the address that it names ranks before it (01 R26). -/
def rankPoison (e : Stop) (f : Option Stop) : Stop :=
  match f with
  | some (.trap c sub adr det) => if 8 ≤ c ∧ c ≤ 0xE ∧ c ≠ 0xD then .trap c sub adr det else e
  | _ => e

/-- Completes a lane's instruction of 4 bytes. -/
def State.advanceLane (s : State) (l : LaneRef) : State := s.modLane l fun t => t.advance 4

/-- The non-helper lanes of the path, in ascending logical index. -/
def State.liveLanes (s : State) : List LaneRef := s.issue.lanes.filter fun l => !l.helper

/-- Sends every lane of the path to one trap. -/
def State.trapLanes (s : State) (ls : List LaneRef) (cause sub : Nat) (adr : Dword) (det : Word) : State :=
  ls.foldl (fun s l => s.stopLane l (.trap cause sub adr det)) s

/-- Whether a fetched or decoded word raises a trap in every lane of the path (R70, R79). -/
def State.trapPath (s : State) (cause sub : Nat) (adr : Dword) (det : Word) : State :=
  s.trapLanes s.issue.lanes cause sub adr det

end Sys2Proof.Machine
end

