-- ==== Sys2Proof/Machine/RealFn.lean ====
section
/-! DEFINITION. The transcendental functions of 05 R115 and R116, by fixed-point series of 1,024 fraction bits.
The series value is cut to 896 bits and rounded with a sticky bit, since the exact value is never
representable there (log entry 8). -/

namespace Sys2Proof.Machine

/-- Fraction bits of the fixed-point series. -/
def fixP : Nat := 1024

/-- ⌊π * 2^1300⌋. -/
def piFix : Nat :=
  0x3243F6A8885A308D313198A2E03707344A4093822299F31D0082EFA98EC4E6C89452821E638D01377BE5466CF34E90C6CC0AC29B7C97C50DD3F84D5B5B54709179216D5D98979FB1BD1310BA698DFB5AC2FFD72DBD01ADFB7B8E1AFED6A267E96BA7C9045F12C7F9924A19947B3916CF70801F2E2858EFC16636920D871574E69A458FEA3F4933D7E0D95748F728EB658718BCD5882154AEE7B54A41DC25A59B59C30D

/-- ⌊ln 2 * 2^1024⌋. -/
def ln2Fix : Nat :=
  0xB17217F7D1CF79ABC9E3B39803F2F6AF40F343267298B62D8A0D175B8BAAFA2BE7B876206DEBAC98559552FB4AFA1B10ED2EAE35C138214427573B291169B8253E96CA16224AE8C51ACBDA11317C387EB9EA9BC3B136603B256FA0EC7657F74B72CE87B19D6548CAF5DFA6BD38303248655FA1872F20E3A2DA2D97C50F3FD5C6

/-- The sum of r^n / n! from term `t` on, with a scale of 2^fixP; `n` is the index of the next factor. -/
def expSeries : Nat → Nat → Nat → Nat → Nat → Nat
  | 0, _, _, _, acc => acc
  | k + 1, r, n, t, acc =>
    let t' := t * r / 2 ^ fixP / n
    expSeries k r (n + 1) t' (acc + t')

/-- e^r for 0 ≤ r < 1, r and the result scaled by 2^fixP. -/
def expFix (r : Nat) : Nat := expSeries 200 r 1 (2 ^ fixP) (2 ^ fixP)

/-- 2^r for 0 ≤ r < 1, scaled. -/
def exp2Fix (r : Nat) : Nat := expFix (r * ln2Fix / 2 ^ fixP)

/-- The alternating series of sine or cosine: `t` the magnitude of the current term, `n` its index, the
positive and the negative sums apart. -/
def trigSeries : Nat → Nat → Nat → Nat → Bool → Nat → Nat → Nat × Nat
  | 0, _, _, _, _, pos, ng => (pos, ng)
  | k + 1, r2, n, t, sg, pos, ng =>
    let t' := t * r2 / 2 ^ fixP / ((n + 1) * (n + 2))
    if sg then trigSeries k r2 (n + 2) t' false pos (ng + t') else trigSeries k r2 (n + 2) t' true (pos + t') ng

/-- sin r for 0 ≤ r < 2, scaled. -/
def sinFix (r : Nat) : Nat :=
  let (p, n) := trigSeries 120 (r * r / 2 ^ fixP) 1 r true r 0
  p - n

/-- cos r for 0 ≤ r < 2, scaled, as a signed value. -/
def cosFix (r : Nat) : Int :=
  let (p, n) := trigSeries 120 (r * r / 2 ^ fixP) 0 (2 ^ fixP) true (2 ^ fixP) 0
  (p : Int) - n

/-- The sum of z^(2i+1) / (2i+1), scaled. -/
def atanhSeries : Nat → Nat → Nat → Nat → Nat → Nat
  | 0, _, _, _, acc => acc
  | k + 1, z2, n, t, acc =>
    let t' := t * z2 / 2 ^ fixP
    atanhSeries k z2 (n + 2) t' (acc + t' / (n + 2))

/-- ln (1 + f) for 0 ≤ f < 1, scaled. -/
def ln1pFix (f : Nat) : Nat :=
  let z := f * 2 ^ fixP / (2 * 2 ^ fixP + f)
  2 * atanhSeries 340 (z * z / 2 ^ fixP) 1 z z

/-- Rounds a scaled positive value v / 2^fixP * 2^e that is not representable. -/
def Fmt.roundFix (f : Fmt) (md : Rnd) (neg : Bool) (v : Nat) (e : Int) : Nat × Word :=
  f.roundSticky md neg (v / 2 ^ 128) (e - (fixP : Int) + 128) false

/-- A finite magnitude m * 2^e, scaled by 2^p; e is at least -p for the formats that use it. -/
def toFix (p : Nat) (m : Nat) (e : Int) : Nat :=
  if 0 ≤ e + p then m * 2 ^ (e + p).toNat else m / 2 ^ (-(e + p)).toNat

/-- 2^(the signed scaled value), rounded, for an exponent that is no integer. -/
def Fmt.exp2Of (f : Fmt) (md : Rnd) (neg : Bool) (x : Nat) : Nat × Word :=
  let k := x / 2 ^ fixP
  let r := x % 2 ^ fixP
  if neg then
    if r = 0 then f.roundQ md false false 1 1 (-(k : Int))
    else f.roundFix md false (exp2Fix (2 ^ fixP - r)) (-(k : Int) - 1)
  else if r = 0 then f.roundQ md false false 1 1 k
  else f.roundFix md false (exp2Fix r) k

/-- 2^A, R115, R116. A magnitude of 2,000 or more stands for itself: its power overflows, or is below every
rounding boundary. -/
def Fmt.fexp2 (f : Fmt) (md : Rnd) (a : Nat) : Nat × Word :=
  match f.value a with
  | .nan s => (f.nanEnc, flagIf s flagNV)
  | .inf n => if n then (0, 0) else (f.infEnc, 0)
  | .fin n m e =>
    if m = 0 then f.roundQ md false false 1 1 0
    else
      let big := decide (11 ≤ (Nat.log2 m : Int) + e)
      f.exp2Of md n (if big then 2000 * 2 ^ fixP else toFix fixP m e)

/-- log2 A. -/
def Fmt.flog2 (f : Fmt) (md : Rnd) (a : Nat) : Nat × Word :=
  match f.value a with
  | .nan s => (f.nanEnc, flagIf s flagNV)
  | .inf n => if n then (f.nanEnc, flagNV) else (f.infEnc, 0)
  | .fin n m e =>
    if m = 0 then (f.withSign true f.infEnc, 0)
    else if n then (f.nanEnc, flagNV)
    else
      let l := Nat.log2 m
      let k : Int := (l : Int) + e
      let fr := m - 2 ^ l
      if fr = 0 then f.roundQ md false (decide (k < 0)) k.natAbs 1 0
      else
        let y := ln1pFix (fr * 2 ^ (fixP - l)) * 2 ^ fixP / ln2Fix
        if 0 ≤ k then f.roundFix md false (k.toNat * 2 ^ fixP + y) 0
        else f.roundFix md true ((-k).toNat * 2 ^ fixP - y) 0

/-- The quarter turns below a magnitude and what remains, scaled by 2^fixP: exact reduction, R115. -/
def reduceTrig (m : Nat) (e : Int) : Nat × Nat :=
  let x := toFix 1300 m e
  let half := piFix / 2
  (x / half % 4, x % half / 2 ^ 276)

/-- sin A. -/
def Fmt.fsin (f : Fmt) (md : Rnd) (a : Nat) : Nat × Word :=
  match f.value a with
  | .nan s => (f.nanEnc, flagIf s flagNV)
  | .inf _ => (f.nanEnc, flagNV)
  | .fin n m e =>
    if m = 0 then (a, 0)
    else
      let (q, r) := reduceTrig m e
      let v := if q % 2 = 0 then sinFix r else (cosFix r).toNat
      f.roundFix md (n != decide (2 ≤ q)) v 0

/-- cos A. -/
def Fmt.fcos (f : Fmt) (md : Rnd) (a : Nat) : Nat × Word :=
  match f.value a with
  | .nan s => (f.nanEnc, flagIf s flagNV)
  | .inf _ => (f.nanEnc, flagNV)
  | .fin _ m e =>
    if m = 0 then f.roundQ md false false 1 1 0
    else
      let (q, r) := reduceTrig m e
      let v := if q % 2 = 0 then (cosFix r).toNat else sinFix r
      f.roundFix md (q == 1 || q == 2) v 0

/-- e^(-x) for a scaled x ≥ 0: scaled. -/
def expNegFix (x : Nat) : Nat :=
  let k := x / ln2Fix
  let r := x % ln2Fix
  if r = 0 then 2 ^ fixP / 2 ^ k else expFix (ln2Fix - r) / 2 ^ (k + 1)

/-- tanh A. From a magnitude of 64 on the value is within 2^-180 of 1, nearer than any rounding boundary. -/
def Fmt.ftanh (f : Fmt) (md : Rnd) (a : Nat) : Nat × Word :=
  match f.value a with
  | .nan s => (f.nanEnc, flagIf s flagNV)
  | .inf n => f.roundQ md false n 1 1 0
  | .fin n m e =>
    if m = 0 then (a, 0)
    else if 6 ≤ (Nat.log2 m : Int) + e then f.roundFix md n (2 ^ fixP - 2 ^ (fixP - 180)) 0
    else
      let E := expNegFix (2 * toFix fixP m e)
      f.roundFix md n ((2 ^ fixP - E) * 2 ^ fixP / (2 ^ fixP + E)) 0

end Sys2Proof.Machine
end

