-- ==== Sys2Proof/Machine/Lau.lean ====
section
/-! DEFINITION. The lane arithmetic unit (05 R96-R116): majors 0 to 2 and 4 to 11, and the 16-bit form (04 R72), whose
operations are those of their 32-bit equivalents with A = D and B = S. -/

namespace Sys2Proof.Machine

open Sys2Proof

abbrev Out := Host.Outcome State Fault Refusal

/-- The thread's rounding mode (02 R45). -/
def Thread.rnd (t : Thread) : Rnd := Rnd.ofCode (t.fpctl.toNat % 4)

/-! ### Integer functions, R101-R104 -/

/-- Left shift by the whole of the count. -/
def shlW {w : Nat} (a : BitVec w) (c : Word) : BitVec w := if c.toNat < w then a <<< c.toNat else 0
/-- Logical right shift by the whole of the count. -/
def shrW {w : Nat} (a : BitVec w) (c : Word) : BitVec w := if c.toNat < w then a >>> c.toNat else 0
/-- Arithmetic right shift by the whole of the count. -/
def sarW (a c : Word) : Word := if c.toNat < 32 then a.sshiftRight c.toNat else if a.msb then BitVec.allOnes 32 else 0
def minS (a b : Word) : Word := if b.slt a then b else a
def maxS (a b : Word) : Word := if a.slt b then b else a
def minN (a b : Word) : Word := if b.ult a then b else a
def maxN (a b : Word) : Word := if a.ult b then b else a

/-- The position and effective width of a bit-field word (R104). -/
def fieldPos (b : Word) : Nat := b.toNat % 32
def fieldWidth (b : Word) : Nat := min (b.toNat / 256 % 64) (32 - fieldPos b)
def fieldMask (b : Word) : Word := BitVec.ofNat 32 (2 ^ fieldWidth b - 1)
def bfxN (a b : Word) : Word := (a >>> fieldPos b) &&& fieldMask b
def bfxS (a b : Word) : Word :=
  let f := bfxN a b
  if fieldWidth b = 0 then 0 else if f.getLsbD (fieldWidth b - 1) then f ||| ~~~(fieldMask b) else f
def bfi (d a b : Word) : Word := (d &&& ~~~(fieldMask b <<< fieldPos b)) ||| ((a &&& fieldMask b) <<< fieldPos b)
/-- The number of 1 bits. -/
def popc (a : Word) : Word := (List.range 32).foldl (fun c i => if a.getLsbD i then c + 1 else c) 0

/-! ### Shared forms -/

/-- A 32-bit integer operation of two operands: no flags (R101). -/
def intOp (len : Nat) (n : BitVec 1) (d a b : BitVec 7) (f : Word → Word → Word) : State → Out :=
  latchOp len (.r32 d) (bit1 n) [.src a, .src b] fun t => (word64 (f (t.val a) (t.val b)), 0)

/-- The same with an immediate for B (R102). -/
def immOp (i : BitVec 9) (d a : BitVec 7) (f : Word → Word → Word) : State → Out :=
  latchOp 4 (.r32 d) false [.src a] fun t => (word64 (f (t.val a) (i.signExtend 32)), 0)

/-- An FP32 operation of two operands (R105). -/
def fpOp (len : Nat) (n : BitVec 1) (d a b : BitVec 7) (f : Rnd → Nat → Nat → Nat × Word) : State → Out :=
  latchOp len (.r32 d) (bit1 n) [.src a, .src b] fun t => res32 (f t.rnd (t.val a).toNat (t.val b).toNat)

/-- An FP32 operation of one operand (R105, R115). -/
def fpOp1 (n : BitVec 1) (d a : BitVec 7) (f : Rnd → Nat → Nat × Word) : State → Out :=
  latchOp 4 (.r32 d) (bit1 n) [.src a] fun t => res32 (f t.rnd (t.val a).toNat)

/-- An FP64 operation of two operands (R107). -/
def dpOp (n : BitVec 1) (d a b : BitVec 7) (f : Rnd → Nat → Nat → Nat × Word) : State → Out :=
  latchOp 4 (.r64 d) (bit1 n) [.src64 a, .src64 b] fun t => res64 (f t.rnd (t.val64 a).toNat (t.val64 b).toNat)

/-- A packed operation: each 16-bit element on its own, the flags joined (R98). -/
def packed2 (f : Nat → Nat → Nat × Word) (a b : Nat) : Nat × Word :=
  let lo := f (a % 65536) (b % 65536)
  let hi := f (a / 65536 % 65536) (b / 65536 % 65536)
  (lo.1 % 65536 + 65536 * hi.1, lo.2 ||| hi.2)

/-- A packed operation of three operands. -/
def packed3 (f : Nat → Nat → Nat → Nat × Word) (a b c : Nat) : Nat × Word :=
  let lo := f (a % 65536) (b % 65536) (c % 65536)
  let hi := f (a / 65536 % 65536) (b / 65536 % 65536) (c / 65536 % 65536)
  (lo.1 % 65536 + 65536 * hi.1, lo.2 ||| hi.2)

/-- The source roles of a fused multiply-add: its addend is D, or b0 (R110). -/
def fmaRoles (c : BitVec 1) (d a b : BitVec 7) : List Role :=
  if bit1 c then [.src a, .src b, .rw d 1] else [.src a, .src b, .src 116]

/-- A fused multiply-add of 32-bit registers. -/
def fmaOp (len : Nat) (n c : BitVec 1) (d a b : BitVec 7) (f : Rnd → Nat → Nat → Nat → Nat × Word) : State → Out :=
  latchOp len (.r32 d) (bit1 n) (fmaRoles c d a b) fun t =>
    res32 (f t.rnd (t.val a).toNat (t.val b).toNat (if bit1 c then t.val d else t.val 116).toNat)

/-- The operand roles of a compare: pairs for f64 (R112). -/
def cmpRoles (t : Nat) (a b : BitVec 7) : List Role := if t = 3 then [.src64 a, .src64 b] else [.src a, .src b]

/-- The truth and flags of a compare of type T under a condition. -/
def cmpVal (cond t : Nat) (a b : BitVec 7) (x : Thread) : Bool × Word :=
  match t with
  | 0 => (intCond cond (x.val a).toInt (x.val b).toInt, 0)
  | 1 => (intCond cond (x.val a).toNat (x.val b).toNat, 0)
  | 2 => floatCond cond (fp32.value (x.val a).toNat) (fp32.value (x.val b).toNat)
  | _ => floatCond cond (fp64.value (x.val64 a).toNat) (fp64.value (x.val64 b).toNat)

/-- A compare (R112). -/
def cmpOp (cond t : Nat) (p : BitVec 6) (a b : BitVec 7) : State → Out :=
  latchOp 4 (.p p) false (cmpRoles t a b) fun x =>
    let r := cmpVal cond t a b x
    (if r.1 then 1 else 0, r.2)

/-- fn(a, b) of a truth table (R113). -/
def tableBit (f : BitVec 4) (a b : Bool) : Bool := f.getLsbD ((if a then 2 else 0) + (if b then 1 else 0))

/-- Predicate logic (R113): `g` joins the old Pd and the table's value. -/
def predOp (f : BitVec 4) (b a p : BitVec 6) (g : Bool → Bool → Bool) : State → Out :=
  latchOp 4 (.p p) false [] fun t =>
    (if g (t.pred p.toNat) (tableBit f (t.pred a.toNat) (t.pred b.toNat)) then 1 else 0, 0)

/-! ### Major 0, IA -/

/-- R101: D := B; A is neither read nor checked. -/
def execMov (n : BitVec 1) (b _a d : BitVec 7) : State → Out :=
  latchOp 4 (.r32 d) (bit1 n) [.src b] fun t => (word64 (t.val b), 0)

/-- R101: A + B. -/
def execIadd (n : BitVec 1) (b a d : BitVec 7) : State → Out := intOp 4 n d a b (fun x y => x + y)

/-- R101: A - B. -/
def execIsub (n : BitVec 1) (b a d : BitVec 7) : State → Out := intOp 4 n d a b (fun x y => x - y)

/-- R101: the low 32 bits of A * B. -/
def execImul (n : BitVec 1) (b a d : BitVec 7) : State → Out := intOp 4 n d a b (fun x y => x * y)

/-- R101. -/
def execAnd (n : BitVec 1) (b a d : BitVec 7) : State → Out := intOp 4 n d a b (fun x y => x &&& y)

/-- R101. -/
def execOr (n : BitVec 1) (b a d : BitVec 7) : State → Out := intOp 4 n d a b (fun x y => x ||| y)

/-- R101. -/
def execXor (n : BitVec 1) (b a d : BitVec 7) : State → Out := intOp 4 n d a b (fun x y => x ^^^ y)

/-- R101. -/
def execShl (n : BitVec 1) (b a d : BitVec 7) : State → Out := intOp 4 n d a b (shlW)

/-- R101. -/
def execShr (n : BitVec 1) (b a d : BitVec 7) : State → Out := intOp 4 n d a b (shrW)

/-- R101. -/
def execSar (n : BitVec 1) (b a d : BitVec 7) : State → Out := intOp 4 n d a b (sarW)

/-- R101. -/
def execIminS32 (n : BitVec 1) (b a d : BitVec 7) : State → Out := intOp 4 n d a b (minS)

/-- R101. -/
def execImaxS32 (n : BitVec 1) (b a d : BitVec 7) : State → Out := intOp 4 n d a b (maxS)

/-- R101. -/
def execIminN32 (n : BitVec 1) (b a d : BitVec 7) : State → Out := intOp 4 n d a b (minN)

/-- R101. -/
def execImaxN32 (n : BitVec 1) (b a d : BitVec 7) : State → Out := intOp 4 n d a b (maxN)

/-! ### The 16-bit form, 04 R72 -/

/-- R72: D := S. -/
def execMov16 (n : BitVec 1) (s d : BitVec 5) : State → Out :=
  latchOp 2 (.r32 (field16D d)) (bit1 n) [.src (field16S s)] fun t => (word64 (t.val (field16S s)), 0)

/-- R72, iadd. -/
def execIadd16 (n : BitVec 1) (s d : BitVec 5) : State → Out := intOp 2 n (field16D d) (field16D d) (field16S s) (fun x y => x + y)

/-- R72, isub. -/
def execIsub16 (n : BitVec 1) (s d : BitVec 5) : State → Out := intOp 2 n (field16D d) (field16D d) (field16S s) (fun x y => x - y)

/-- R72, imul. -/
def execImul16 (n : BitVec 1) (s d : BitVec 5) : State → Out := intOp 2 n (field16D d) (field16D d) (field16S s) (fun x y => x * y)

/-- R72, and. -/
def execAnd16 (n : BitVec 1) (s d : BitVec 5) : State → Out := intOp 2 n (field16D d) (field16D d) (field16S s) (fun x y => x &&& y)

/-- R72, or. -/
def execOr16 (n : BitVec 1) (s d : BitVec 5) : State → Out := intOp 2 n (field16D d) (field16D d) (field16S s) (fun x y => x ||| y)

/-- R72, xor. -/
def execXor16 (n : BitVec 1) (s d : BitVec 5) : State → Out := intOp 2 n (field16D d) (field16D d) (field16S s) (fun x y => x ^^^ y)

/-- R72, shl. -/
def execShl16 (n : BitVec 1) (s d : BitVec 5) : State → Out := intOp 2 n (field16D d) (field16D d) (field16S s) (shlW)

/-- R72, shr. -/
def execShr16 (n : BitVec 1) (s d : BitVec 5) : State → Out := intOp 2 n (field16D d) (field16D d) (field16S s) (shrW)

/-- R72, sar. -/
def execSar16 (n : BitVec 1) (s d : BitVec 5) : State → Out := intOp 2 n (field16D d) (field16D d) (field16S s) (sarW)

/-- R72, fadd. -/
def execFadd16 (n : BitVec 1) (s d : BitVec 5) : State → Out := fpOp 2 n (field16D d) (field16D d) (field16S s) fp32.fadd

/-- R72, fsub. -/
def execFsub16 (n : BitVec 1) (s d : BitVec 5) : State → Out := fpOp 2 n (field16D d) (field16D d) (field16S s) fp32.fsub

/-- R72, fmul. -/
def execFmul16 (n : BitVec 1) (s d : BitVec 5) : State → Out := fpOp 2 n (field16D d) (field16D d) (field16S s) fp32.fmul

/-- R72, fmin. -/
def execFmin16 (n : BitVec 1) (s d : BitVec 5) : State → Out :=
  fpOp 2 n (field16D d) (field16D d) (field16S s) fun _ => fp32.fminmax false

/-- R72, fmax. -/
def execFmax16 (n : BitVec 1) (s d : BitVec 5) : State → Out :=
  fpOp 2 n (field16D d) (field16D d) (field16S s) fun _ => fp32.fminmax true

/-- R72: D := D + S * b0, one rounding; the 32-bit equivalent has A = S, B = b0, C = 1. -/
def execFmac16 (n : BitVec 1) (s d : BitVec 5) : State → Out :=
  fmaOp 2 n 1 (field16D d) (field16S s) 116 fun md => fp32.ffma md false

/-! ### Major 2, II -/

/-- R102. -/
def execIaddImm (i : BitVec 9) (a d : BitVec 7) : State → Out := immOp i d a (fun x y => x + y)

/-- R102. -/
def execImulImm (i : BitVec 9) (a d : BitVec 7) : State → Out := immOp i d a (fun x y => x * y)

/-- R102. -/
def execAndImm (i : BitVec 9) (a d : BitVec 7) : State → Out := immOp i d a (fun x y => x &&& y)

/-- R102. -/
def execOrImm (i : BitVec 9) (a d : BitVec 7) : State → Out := immOp i d a (fun x y => x ||| y)

/-- R102. -/
def execXorImm (i : BitVec 9) (a d : BitVec 7) : State → Out := immOp i d a (fun x y => x ^^^ y)

/-- R102. -/
def execShlImm (i : BitVec 9) (a d : BitVec 7) : State → Out := immOp i d a (shlW)

/-- R102. -/
def execShrImm (i : BitVec 9) (a d : BitVec 7) : State → Out := immOp i d a (shrW)

/-- R102. -/
def execSarImm (i : BitVec 9) (a d : BitVec 7) : State → Out := immOp i d a (sarW)

/-! ### Major 1, IB -/

/-- R103. -/
def execIaddB64 (n : BitVec 1) (b a d : BitVec 7) : State → Out :=
  latchOp 4 (.r64 d) (bit1 n) [.src64 a, .src64 b] fun t => (t.val64 a + t.val64 b, 0)

/-- R103. -/
def execIsubB64 (n : BitVec 1) (b a d : BitVec 7) : State → Out :=
  latchOp 4 (.r64 d) (bit1 n) [.src64 a, .src64 b] fun t => (t.val64 a - t.val64 b, 0)

/-- R103: the exact product. -/
def execImulwS32 (n : BitVec 1) (b a d : BitVec 7) : State → Out :=
  latchOp 4 (.r64 d) (bit1 n) [.src a, .src b] fun t => ((t.val a).signExtend 64 * (t.val b).signExtend 64, 0)

/-- R103: the exact product. -/
def execImulwN32 (n : BitVec 1) (b a d : BitVec 7) : State → Out :=
  latchOp 4 (.r64 d) (bit1 n) [.src a, .src b] fun t => ((t.val a).zeroExtend 64 * (t.val b).zeroExtend 64, 0)

/-- R103. -/
def execShlB64 (n : BitVec 1) (b a d : BitVec 7) : State → Out :=
  latchOp 4 (.r64 d) (bit1 n) [.src64 a, .src b] fun t => (shlW (t.val64 a) (t.val b), 0)

/-- R103. -/
def execShrB64 (n : BitVec 1) (b a d : BitVec 7) : State → Out :=
  latchOp 4 (.r64 d) (bit1 n) [.src64 a, .src b] fun t => (shrW (t.val64 a) (t.val b), 0)

/-- R104. -/
def execBfxS32 (n : BitVec 1) (b a d : BitVec 7) : State → Out := intOp 4 n d a b bfxS

/-- R104. -/
def execBfxN32 (n : BitVec 1) (b a d : BitVec 7) : State → Out := intOp 4 n d a b bfxN

/-- R104: D is a third source. -/
def execBfiB32 (n : BitVec 1) (b a d : BitVec 7) : State → Out :=
  latchOp 4 (.r32 d) (bit1 n) [.src a, .src b, .rw d 1] fun t => (word64 (bfi (t.val d) (t.val a) (t.val b)), 0)

/-- R103. -/
def execPopcB32 (n : BitVec 1) (a d : BitVec 7) : State → Out :=
  latchOp 4 (.r32 d) (bit1 n) [.src a] fun t => (word64 (popc (t.val a)), 0)

/-! ### Majors 4 to 7: FS, FD, FK, FM -/

/-- R105. -/
def execFadd (n : BitVec 1) (b a d : BitVec 7) : State → Out := fpOp 4 n d a b fp32.fadd

/-- R105. -/
def execFsub (n : BitVec 1) (b a d : BitVec 7) : State → Out := fpOp 4 n d a b fp32.fsub

/-- R105. -/
def execFmul (n : BitVec 1) (b a d : BitVec 7) : State → Out := fpOp 4 n d a b fp32.fmul

/-- R105. -/
def execFdiv (n : BitVec 1) (b a d : BitVec 7) : State → Out := fpOp 4 n d a b fp32.fdiv

/-- R106. -/
def execFmin (n : BitVec 1) (b a d : BitVec 7) : State → Out := fpOp 4 n d a b fun _ => fp32.fminmax false

/-- R106. -/
def execFmax (n : BitVec 1) (b a d : BitVec 7) : State → Out := fpOp 4 n d a b fun _ => fp32.fminmax true

/-- R105. -/
def execFrint (n : BitVec 1) (a d : BitVec 7) : State → Out := fpOp1 n d a fp32.frint

/-- A with B's sign, or the canonical NaN when A is a NaN (R105): no flag. -/
def fsgnj (a b : Nat) : Nat := if (fp32.value a).isNan then fp32.nanEnc else a % 2 ^ 31 + b / 2 ^ 31 % 2 * 2 ^ 31

/-- R105. -/
def execFsgnj (n : BitVec 1) (b a d : BitVec 7) : State → Out := fpOp 4 n d a b fun _ x y => (fsgnj x y, 0)

/-- R107. -/
def execFaddF64 (n : BitVec 1) (b a d : BitVec 7) : State → Out := dpOp n d a b fp64.fadd

/-- R107. -/
def execFmulF64 (n : BitVec 1) (b a d : BitVec 7) : State → Out := dpOp n d a b fp64.fmul

/-- R107. -/
def execFdivF64 (n : BitVec 1) (b a d : BitVec 7) : State → Out := dpOp n d a b fp64.fdiv

/-- R106, R107. -/
def execFminF64 (n : BitVec 1) (b a d : BitVec 7) : State → Out := dpOp n d a b fun _ => fp64.fminmax false

/-- R106, R107. -/
def execFmaxF64 (n : BitVec 1) (b a d : BitVec 7) : State → Out := dpOp n d a b fun _ => fp64.fminmax true

/-- R108. -/
def execFsqrtF64 (n : BitVec 1) (a d : BitVec 7) : State → Out :=
  latchOp 4 (.r64 d) (bit1 n) [.src64 a] fun t => res64 (fp64.fsqrt t.rnd (t.val64 a).toNat)

/-- R109. -/
def execFaddF16 (n : BitVec 1) (b a d : BitVec 7) : State → Out := fpOp 4 n d a b fun md => packed2 (fp16.fadd md)

/-- R109. -/
def execFmulF16 (n : BitVec 1) (b a d : BitVec 7) : State → Out := fpOp 4 n d a b fun md => packed2 (fp16.fmul md)

/-- R106, R109. -/
def execFmaxF16 (n : BitVec 1) (b a d : BitVec 7) : State → Out := fpOp 4 n d a b fun _ => packed2 (fp16.fminmax true)

/-- R109. -/
def execFaddBf16 (n : BitVec 1) (b a d : BitVec 7) : State → Out := fpOp 4 n d a b fun md => packed2 (bf16.fadd md)

/-- R109. -/
def execFmulBf16 (n : BitVec 1) (b a d : BitVec 7) : State → Out := fpOp 4 n d a b fun md => packed2 (bf16.fmul md)

/-- R106, R109. -/
def execFmaxBf16 (n : BitVec 1) (b a d : BitVec 7) : State → Out := fpOp 4 n d a b fun _ => packed2 (bf16.fminmax true)

/-- R110. -/
def execFmaF32 (n g c : BitVec 1) (b a d : BitVec 7) : State → Out :=
  fmaOp 4 n c d a b fun md => fp32.ffma md (bit1 g)

/-- R110: on pairs; b0 supplies all 64 bits. -/
def execFmaF64 (n g c : BitVec 1) (b a d : BitVec 7) : State → Out :=
  latchOp 4 (.r64 d) (bit1 n) (if bit1 c then [.src64 a, .src64 b, .rw d 2] else [.src64 a, .src64 b, .src64 116]) fun t =>
    res64 (fp64.ffma t.rnd (bit1 g) (t.val64 a).toNat (t.val64 b).toNat (if bit1 c then t.val64 d else t.val64 116).toNat)

/-- R110. -/
def execFmaF16x2 (n g c : BitVec 1) (b a d : BitVec 7) : State → Out :=
  fmaOp 4 n c d a b fun md => packed3 (fp16.ffma md (bit1 g))

/-- R110. -/
def execFmaBf16x2 (n g c : BitVec 1) (b a d : BitVec 7) : State → Out :=
  fmaOp 4 n c d a b fun md => packed3 (bf16.ffma md (bit1 g))

/-! ### Major 8, CP -/

/-- R112, condition 0. -/
def execCeq (t : BitVec 2) (b a : BitVec 7) (p : BitVec 6) : State → Out := cmpOp 0 t.toNat p a b

/-- R112, condition 1. -/
def execCne (t : BitVec 2) (b a : BitVec 7) (p : BitVec 6) : State → Out := cmpOp 1 t.toNat p a b

/-- R112, condition 2. -/
def execClt (t : BitVec 2) (b a : BitVec 7) (p : BitVec 6) : State → Out := cmpOp 2 t.toNat p a b

/-- R112, condition 3. -/
def execCle (t : BitVec 2) (b a : BitVec 7) (p : BitVec 6) : State → Out := cmpOp 3 t.toNat p a b

/-- R112, condition 4. -/
def execCgt (t : BitVec 2) (b a : BitVec 7) (p : BitVec 6) : State → Out := cmpOp 4 t.toNat p a b

/-- R112, condition 5. -/
def execCge (t : BitVec 2) (b a : BitVec 7) (p : BitVec 6) : State → Out := cmpOp 5 t.toNat p a b

/-- R112, condition 14. -/
def execCtrue (t : BitVec 2) (b a : BitVec 7) (p : BitVec 6) : State → Out := cmpOp 14 t.toNat p a b

/-- R112, condition 15. -/
def execCfalse (t : BitVec 2) (b a : BitVec 7) (p : BitVec 6) : State → Out := cmpOp 15 t.toNat p a b

/-- R112, condition 6: T[1] is 1. -/
def execCord (t : BitVec 1) (b a : BitVec 7) (p : BitVec 6) : State → Out := cmpOp 6 (2 + t.toNat) p a b

/-- R112, condition 7: T[1] is 1. -/
def execCuno (t : BitVec 1) (b a : BitVec 7) (p : BitVec 6) : State → Out := cmpOp 7 (2 + t.toNat) p a b

/-- R112, condition 8: T[1] is 1. -/
def execCueq (t : BitVec 1) (b a : BitVec 7) (p : BitVec 6) : State → Out := cmpOp 8 (2 + t.toNat) p a b

/-- R112, condition 9: T[1] is 1. -/
def execCune (t : BitVec 1) (b a : BitVec 7) (p : BitVec 6) : State → Out := cmpOp 9 (2 + t.toNat) p a b

/-- R112, condition 10: T[1] is 1. -/
def execCult (t : BitVec 1) (b a : BitVec 7) (p : BitVec 6) : State → Out := cmpOp 10 (2 + t.toNat) p a b

/-- R112, condition 11: T[1] is 1. -/
def execCule (t : BitVec 1) (b a : BitVec 7) (p : BitVec 6) : State → Out := cmpOp 11 (2 + t.toNat) p a b

/-- R112, condition 12: T[1] is 1. -/
def execCugt (t : BitVec 1) (b a : BitVec 7) (p : BitVec 6) : State → Out := cmpOp 12 (2 + t.toNat) p a b

/-- R112, condition 13: T[1] is 1. -/
def execCuge (t : BitVec 1) (b a : BitVec 7) (p : BitVec 6) : State → Out := cmpOp 13 (2 + t.toNat) p a b

/-! ### Majors 9 to 11: PL, SL, SF -/

/-- R113. -/
def execPlop (f : BitVec 4) (b a p : BitVec 6) : State → Out := predOp f b a p (fun _ v => v)

/-- R113. -/
def execPland (f : BitVec 4) (b a p : BitVec 6) : State → Out := predOp f b a p (fun o v => o && v)

/-- R113. -/
def execPlor (f : BitVec 4) (b a p : BitVec 6) : State → Out := predOp f b a p (fun o v => o || v)

/-- R113. -/
def execPlxor (f : BitVec 4) (b a p : BitVec 6) : State → Out := predOp f b a p (fun o v => o != v)

/-- R114. -/
def execSel (n : BitVec 1) (s : BitVec 4) (b a d : BitVec 7) : State → Out :=
  latchOp 4 (.r32 d) (bit1 n) [.src a, .src b] fun t => (word64 (if t.pred s.toNat then t.val a else t.val b), 0)

/-- R115, R116. -/
def execExp2 (n : BitVec 1) (a d : BitVec 7) : State → Out := fpOp1 n d a fp32.fexp2

/-- R115, R116. -/
def execLog2 (n : BitVec 1) (a d : BitVec 7) : State → Out := fpOp1 n d a fp32.flog2

/-- R115, R116. -/
def execRcp (n : BitVec 1) (a d : BitVec 7) : State → Out := fpOp1 n d a fp32.frcp

/-- R115, R116. -/
def execRsq (n : BitVec 1) (a d : BitVec 7) : State → Out := fpOp1 n d a fp32.frsq

/-- R115, R116. -/
def execSqrt (n : BitVec 1) (a d : BitVec 7) : State → Out := fpOp1 n d a fp32.fsqrt

/-- R115, R116. -/
def execSin (n : BitVec 1) (a d : BitVec 7) : State → Out := fpOp1 n d a fp32.fsin

/-- R115, R116. -/
def execCos (n : BitVec 1) (a d : BitVec 7) : State → Out := fpOp1 n d a fp32.fcos

/-- R115, R116. -/
def execTanh (n : BitVec 1) (a d : BitVec 7) : State → Out := fpOp1 n d a fp32.ftanh

end Sys2Proof.Machine
end

