-- ==== Sys2Proof/Machine/FrontEnd.lean ====
section
/-! DEFINITION. The instruction front end: constants (04 R92), special registers (04 R93-R95 and the registers of the
engine chapters), window and index registers, and zero-overhead loops (04 R88-R91). -/

namespace Sys2Proof.Machine

open Sys2Proof

/-! ### Constants, R92 -/

/-- R92: D := the sign-extended immediate. -/
def execMvk (k : BitVec 18) (d : BitVec 7) : State → Out :=
  plainOp [.dst d] fun t => .ok ((t.setVal d (k.signExtend 32)).advance 4)

/-- R92: bits [31:14] of D replaced. -/
def execMvkh (k : BitVec 18) (d : BitVec 7) : State → Out :=
  plainOp [.dst d, .rw d 1] fun t =>
    .ok ((t.setVal d ((t.val d &&& 0x3FFF#32) ||| (k.zeroExtend 32 <<< (14 : Nat)))).advance 4)

/-! ### Special registers -/

/-- A thread's own quadrant (01 R7): it follows the group at block start. -/
def quadOf (b : Block) (gidx : Nat) : Nat := (gidx + b.qoff) % 4

/-- A core's number is the value of `pcore` (01 R5). -/
def dieOf (core : Nat) : Nat := core / 64

/-- The live ranks of a group (08 R193 `xlive`). -/
def Block.liveMask (b : Block) (g : Nat) : Nat :=
  b.threads.foldl (fun m p => if p.2.live ∧ p.2.group = g then Nat.lor m (2 ^ p.2.rank) else m) 0

/-- A block's commands of a major in flight. -/
def State.cmdsOf (s : State) (core blk : Nat) (f : Cmd → Bool) : Nat :=
  (s.cmds.filter fun p => p.2.fromBlock && p.2.core == core && p.2.blk == blk && f p.2).length

def Block.accUnits (b : Block) : Nat := b.regions.foldl (fun n r => n + r.units) 0
def Core.accUnits (c : Core) : Nat := c.blocks.foldl (fun n p => n + p.2.accUnits) 0

/-- The six neighbour ranks (09 R218): axis 0 to 2, minus or plus. -/
def neighbour (l : Launch) (axis : Nat) (plus : Bool) : Nat :=
  let (x, y, _) := l.axes
  let size := match axis with | 0 => l.axes.1 | 1 => l.axes.2.1 | _ => l.axes.2.2
  let unit := match axis with | 0 => 1 | 1 => x | _ => x * y
  if size ≤ 1 then 0xFFFFFFFF
  else
    let c := l.rank / unit % size
    let c' := (if plus then c + 1 else c + size - 1) % size
    l.rank - c * unit + c' * unit

/-- The lowest rank reported lost (17 R413). -/
def clostOf (l : Launch) : Nat :=
  match l.lostRanks with
  | [] => 0
  | r :: rs => 2 ^ 31 + rs.foldl min r % 2048

/-- Camera register i of a block (16 R384). -/
def Block.camAt (b : Block) (i : Nat) : Word := (sget b.cam i).getD (if i = 15 then 0x39000000 else 0)

/-- Assigned special registers (R93 and the engine chapters). -/
def specialAssigned (n : Nat) : Bool :=
  decide (n ≤ 8) || n == 0x10 || n == 0x11 || (decide (0x20 ≤ n) && decide (n ≤ 0x24))
    || (decide (0x30 ≤ n) && decide (n ≤ 0x38)) || n == 0x40 || n == 0x41 || n == 0x50 || n == 0x51 || n == 0x60 || n == 0x61
    || (decide (0x70 ≤ n) && decide (n ≤ 0x74)) || n == 0x90 || n == 0xA0
    || (decide (0x100 ≤ n) && decide (n ≤ 0x103)) || (decide (0x200 ≤ n) && decide (n ≤ 0x217))
    || (decide (0x300 ≤ n) && decide (n ≤ 0x303)) || n == 0x380 || (decide (0x400 ≤ n) && decide (n ≤ 0x402))
    || (decide (0x480 ≤ n) && decide (n ≤ 0x48F)) || n == 0x500 || n == 0x580 || n == 0x581
    || (decide (0x600 ≤ n) && decide (n ≤ 0x60A)) || n == 0x610 || (decide (0x620 ≤ n) && decide (n ≤ 0x625))
    || n == 0x628 || n == 0x629 || (decide (0x700 ≤ n) && decide (n ≤ 0x70F))

/-- Special registers that `sets` may write. -/
def specialWritable (n : Nat) : Bool :=
  (decide (0x20 ≤ n) && decide (n ≤ 0x24)) || (decide (0x30 ≤ n) && decide (n ≤ 0x38)) || n == 0x40
    || (decide (0x70 ≤ n) && decide (n ≤ 0x74)) || n == 0xA0 || n == 0x300 || n == 0x302 || n == 0x303 || n == 0x402
    || (decide (0x480 ≤ n) && decide (n ≤ 0x48F))

/-- Registers that belong to the block: a helper's `sets` to one has no effect (R95). -/
def specialBlock (n : Nat) : Bool :=
  n == 0x300 || n == 0x302 || n == 0x303 || n == 0x402 || (decide (0x480 ≤ n) && decide (n ≤ 0x48F))

/-- The slot of a seed, unset when there is none. -/
def Launch.seedAt (l : Launch) (k : Nat) : Seed := nth l.seeds k {}

/-- An empty launch, for a thread whose launch is gone. -/
def noLaunch : Launch := { id := 0, queue := 0, asid := 0, root := 0, rcd := {} }

/-- The value of a special register that its read does not change (R93; 08 R193; 11 R281; 12 R303; 13 R337; 15 R380; 16 R384;
17 R413; 09 R219). -/
def State.specialValue (s : State) (core blk : Nat) (b : Block) (l : Launch) (t : Thread) (n : Nat) : Nat :=
  match n with
  | 0x000 => t.idx
  | 0x001 => t.idx / 32
  | 0x002 => b.lin.toNat % 2 ^ 32
  | 0x003 => b.lin.toNat / 2 ^ 32
  | 0x004 => b.cluster
  | 0x005 => b.crank
  | 0x006 => b.launch
  | 0x007 => l.rank
  | 0x008 => l.ranks
  | 0x010 => core
  | 0x011 => quadOf b (t.idx / 32)
  | 0x020 => t.wb.toNat
  | 0x021 => (t.xreg 0).toNat
  | 0x022 => (t.xreg 1).toNat
  | 0x023 => (t.xreg 2).toNat
  | 0x024 => (t.xreg 3).toNat
  | 0x030 => (t.lcOf 0).toNat
  | 0x031 => (t.lcOf 1).toNat
  | 0x032 => (t.lcOf 2).toNat
  | 0x033 => (t.lsOf 0).toNat
  | 0x034 => (t.lsOf 1).toNat
  | 0x035 => (t.lsOf 2).toNat
  | 0x036 => (t.loopEnd 0).toNat
  | 0x037 => (t.loopEnd 1).toNat
  | 0x038 => (t.loopEnd 2).toNat
  | 0x040 => t.sp.toNat
  | 0x041 => t.rsd.toNat
  | 0x050 => b.readyMap % 2 ^ 32
  | 0x051 => b.readyMap / 2 ^ 32
  | 0x070 => t.trcause.toNat
  | 0x071 => t.trpc.toNat
  | 0x072 => t.tradl.toNat
  | 0x073 => t.tradh.toNat
  | 0x074 => t.trdet.toNat
  | 0x090 => t.osc
  | 0x0A0 => t.fpctl.toNat
  | 0x100 => t.rank
  | 0x101 => t.group
  | 0x102 => b.liveMask t.group
  | 0x103 => t.echoCount + (if t.echoOvf then 32 else 0)
  | 0x300 => b.cpflg.toNat
  | 0x301 => s.cmdsOf core blk fun c => c.major == 25
  | 0x302 => b.cplbl.toNat
  | 0x303 => b.cplbh.toNat
  | 0x380 => s.cmdsOf core blk fun c => c.major == 26
  | 0x400 => b.accUnits + 65536 * ((s.cmdsOf core blk fun c => c.major == 27) % 256)
  | 0x401 => 64 - (s.coreAt core).accUnits
  | 0x402 => b.mxflg.toNat
  | 0x500 => s.cmdsOf core blk fun c => c.major == 30 && decide (1 ≤ c.sub) && decide (c.sub ≤ 3)
  | 0x580 => s.cmdsOf core blk fun c => c.major == 30 && decide (4 ≤ c.sub) && decide (c.sub ≤ 6)
  | 0x581 => clostOf l
  | 0x600 => l.rcd.arg.toNat % 2 ^ 32
  | 0x601 => l.rcd.arg.toNat / 2 ^ 32
  | 0x602 => l.rcd.gx
  | 0x603 => l.rcd.gy
  | 0x604 => l.rcd.gz
  | 0x605 => if b.spawn then b.nthreads else l.rcd.bthr
  | 0x606 => if b.spawn then 1 else l.rcd.cblk
  | 0x607 => l.rcd.sb % 2 ^ 32
  | 0x608 => l.rcd.sb / 2 ^ 32
  | 0x609 => if b.spawn then 0 else l.rcd.bstg
  | 0x60A => if b.spawn then 0 else l.rcd.cstg
  | 0x610 => if b.spawn then 2 ^ 31 + t.spawnArgs else 0
  | 0x620 => neighbour l 0 false
  | 0x621 => neighbour l 0 true
  | 0x622 => neighbour l 1 false
  | 0x623 => neighbour l 1 true
  | 0x624 => neighbour l 2 false
  | 0x625 => neighbour l 2 true
  | 0x628 => l.count
  | 0x629 => l.first
  | _ => if 0x480 ≤ n ∧ n ≤ 0x48F then (b.camAt (n - 0x480)).toNat else 0

/-- A read of `tbl`: the low half, with the high half latched (01 R24). -/
def State.readTbl (s : State) (t : Thread) : Word × Thread :=
  (BitVec.ofNat 32 s.now, { t with tbLatch := some (BitVec.ofNat 32 (s.now / 2 ^ 32)) })

/-- A read of `tbh`: the latched half, which it consumes, or the live one. -/
def State.readTbh (s : State) (t : Thread) : Word × Thread :=
  match t.tbLatch with
  | some w => (w, { t with tbLatch := none })
  | none => (BitVec.ofNat 32 (s.now / 2 ^ 32), t)

/-- A read of `rsl`k latches `rsh`k and `rsg`k (10 R247). -/
def readRsl (l : Launch) (t : Thread) (k : Nat) : Word × Thread :=
  let sd := l.seedAt k
  (lo32 sd.val, { t with seedLatch := some ⟨k, hi32 sd.val, sd.gen⟩ })

/-- A read of `rsh`k: the latched value for the latched slot. -/
def readRsh (l : Launch) (t : Thread) (k : Nat) : Word :=
  match t.seedLatch with
  | some x => if x.slot = k then x.hi else hi32 (l.seedAt k).val
  | none => hi32 (l.seedAt k).val

/-- A read of `rsg`k. -/
def readRsg (l : Launch) (t : Thread) (k : Nat) : Word :=
  match t.seedLatch with
  | some x => if x.slot = k then BitVec.ofNat 32 x.gen else BitVec.ofNat 32 (l.seedAt k).gen
  | none => BitVec.ofNat 32 (l.seedAt k).gen

/-- The counters of a quadrant (19 R438). -/
def State.quadAt (s : State) (core q : Nat) : Quad := sgetD (s.coreAt core).quads q {}

/-- The eight counters of a quadrant: every cycle counts in 0 and in one of the others. -/
def State.counters (s : State) (core q : Nat) : List (BitVec 64) :=
  let total : BitVec 64 := BitVec.ofNat 64 (s.cycle - s.bootCycle)
  let cs := (s.quadAt core q).ctrs
  total :: cs ++ [total - cs.foldl (fun a c => a + c) 0]

/-- The sixteen counter words, low and high of each. -/
def State.ctrWords (s : State) (core q : Nat) : List Word := (s.counters core q).flatMap fun c => [lo32 c, hi32 c]

/-- A read of 0x700 latches all sixteen words (19 R439). -/
def State.readCtr (s : State) (core : Nat) (b : Block) (t : Thread) : Word × Thread :=
  let ws := s.ctrWords core (quadOf b t.group)
  (nth ws 0 0, { t with ctrLatch := ws })

/-- Reads any assigned special register: the value, and what the read does to the thread. -/
def State.readSpecial (s : State) (core blk : Nat) (t : Thread) (n : Nat) : Word × Thread :=
  match s.block? core blk with
  | none => (0, t)
  | some b =>
    let l := (s.launch? b.launch).getD noLaunch
    if n = 0x060 then s.readTbl t
    else if n = 0x061 then s.readTbh t
    else if 0x200 ≤ n ∧ n < 0x210 then
      if n % 2 = 0 then readRsl l t ((n - 0x200) / 2) else (readRsh l t ((n - 0x200) / 2), t)
    else if 0x210 ≤ n ∧ n < 0x218 then (readRsg l t (n - 0x210), t)
    else if n = 0x700 then s.readCtr core b t
    else if 0x700 < n ∧ n < 0x710 then (nth t.ctrLatch (n - 0x700) 0, t)
    else (BitVec.ofNat 32 (s.specialValue core blk b l t n), t)

/-- The scope at which a read of a special register acquires: the tag bitmaps do (01 R21). -/
def State.readOrder (s : State) (w : Who) (n : Nat) : State := if n = 0x050 ∨ n = 0x051 then s.acquireAt w 4 else s

/-- R95: D := special register. -/
def execMovs (sr : BitVec 12) (d : BitVec 7) (s : State) : Out :=
  .next (s.lanes fun s l t =>
    let s1 := s.settleRoles l t [.dst d]
    let t1 := (s1.lane? l).getD t
    let bad : Option (Nat × Nat) := if specialAssigned sr.toNat then none else some (3, 4)
    match firstSome [(Role.dst d).illegal, bad, (Role.dst d).beyond t1] with
    | some c => (s1, some (plainStop c))
    | none =>
      let s2 := if l.helper then s1 else s1.readOrder (s.who l) sr.toNat
      let (v, t2) := s2.readSpecial s2.issue.core s2.issue.blk t1 sr.toNat
      (s2.setLane l ((t2.setVal d v).advance 4), none))

/-- The check of a `sets` value (R94; 11 R281; 13 R337; 16 R384). -/
def setsCheck (t : Thread) (n : Nat) (v : Word) : Option (Nat × Nat) :=
  let x := v.toNat
  if n = 0x20 then (if x % 16 ≠ 0 ∨ 1024 ≤ x then some (2, 0) else if t.nregs ≤ x then some (6, 0) else none)
  else if 0x21 ≤ n ∧ n ≤ 0x24 then (if 1024 ≤ x then some (2, 0) else none)
  else if 0x33 ≤ n ∧ n ≤ 0x38 then (if x % 2 = 1 then some (2, 0) else none)
  else if n = 0xA0 then (if v &&& 0xFFFF80FC#32 ≠ 0 then some (2, 0) else none)
  else if n = 0x300 then (if v &&& ~~~0x00017D00#32 ≠ 0 then some (2, 0) else none)
  else if n = 0x402 then (if v &&& ~~~0x00011D00#32 ≠ 0 then some (2, 0) else none)
  else if n = 0x48F then (if 0x3F800000 < x then some (2, 0) else none)
  else none

/-- A checked write of a register of the thread. -/
def Thread.writeSpecial (t : Thread) (n : Nat) (v : Word) : Thread :=
  match n with
  | 0x020 => { t with wb := v.truncate 10 }
  | 0x021 => { t with xs := t.xs.set 0 (v.truncate 10) }
  | 0x022 => { t with xs := t.xs.set 1 (v.truncate 10) }
  | 0x023 => { t with xs := t.xs.set 2 (v.truncate 10) }
  | 0x024 => { t with xs := t.xs.set 3 (v.truncate 10) }
  | 0x030 => { t with lc := t.lc.set 0 v }
  | 0x031 => { t with lc := t.lc.set 1 v }
  | 0x032 => { t with lc := t.lc.set 2 v }
  | 0x033 => { t with ls := t.ls.set 0 v }
  | 0x034 => { t with ls := t.ls.set 1 v }
  | 0x035 => { t with ls := t.ls.set 2 v }
  | 0x036 => { t with le := t.le.set 0 v }
  | 0x037 => { t with le := t.le.set 1 v }
  | 0x038 => { t with le := t.le.set 2 v }
  | 0x040 => { t with sp := v }
  | 0x070 => { t with trcause := v }
  | 0x071 => { t with trpc := v }
  | 0x072 => { t with tradl := v }
  | 0x073 => { t with tradh := v }
  | 0x074 => { t with trdet := v }
  | 0x0A0 => { t with fpctl := v }
  | _ => t

/-- A checked write of a register of the block. -/
def Block.writeSpecial (b : Block) (n : Nat) (v : Word) : Block :=
  match n with
  | 0x300 => { b with cpflg := v }
  | 0x302 => { b with cplbl := v }
  | 0x303 => { b with cplbh := v }
  | 0x402 => { b with mxflg := v }
  | _ => if 0x480 ≤ n ∧ n ≤ 0x48F then { b with cam := sput b.cam (n - 0x480) v } else b

/-- R95: special register := operand, checked by R94. -/
def execSets (sr : BitVec 12) (a : BitVec 7) (s : State) : Out :=
  .next (s.lanes fun s l t =>
    let s1 := s.settleRoles l t [.src a]
    let t1 := (s1.lane? l).getD t
    let n := sr.toNat
    let bad : Option (Nat × Nat) := if specialWritable n then none else some (3, 4)
    match firstSome [(Role.src a).illegal, bad, (Role.src a).noLatch t1, (Role.src a).beyond t1] with
    | some c => (s1, some (plainStop c))
    | none =>
      match check t1 [.src a] with
      | some e => (s1, some e)
      | none =>
        let v := t1.val a
        match setsCheck t1 n v with
        | some c => (s1, some (plainStop c))
        | none =>
          if specialBlock n then
            let s2 := if l.helper then s1 else s1.modBlock s1.issue.core s1.issue.blk fun b => b.writeSpecial n v
            (s2.modLane l fun t => t.advance 4, none)
          else (s1.setLane l ((t1.writeSpecial n v).advance 4), none))

/-- R95: WB := w, checked as by R94. -/
def execSetwb (w : BitVec 12) : State → Out :=
  plainOp [] fun t =>
    match setsCheck t 0x20 (w.zeroExtend 32) with
    | some c => .error (plainStop c)
    | none => .ok ((t.writeSpecial 0x20 (w.zeroExtend 32)).advance 4)

/-- R95: xk := u. -/
def execXset (k : BitVec 2) (u : BitVec 10) : State → Out :=
  plainOp [] fun t => .ok ({ t with xs := t.xs.set k.toNat u }.advance 4)

/-- R95: xk := (xk + v) mod 1,024. -/
def execXadd (k : BitVec 2) (v : BitVec 10) : State → Out :=
  plainOp [] fun t => .ok ({ t with xs := t.xs.set k.toNat (t.xreg k.toNat + v) }.advance 4)

/-- R95: no effect. -/
def execNop : State → Out := plainOp [] fun t => .ok (t.advance 4)

/-! ### Loops, R88-R91 -/

/-- The reserved fields of the loop instructions (R91). -/
def loopReserved (l : BitVec 2) (badOff : Bool) : Except Stop Unit :=
  if l.toNat = 3 ∨ badOff then .error (.trap 2 0 0 0) else .ok ()

/-- Starts level k with a count (R91). -/
def Thread.startLoop (t : Thread) (k : Nat) (off n : Word) : Thread :=
  let ls := lo32 t.pc + 4
  let le := ls + 2 * off
  let t1 := { t with ls := t.ls.set k ls, le := t.le.set k le, lc := t.lc.set k n }
  if n = 0 then t1.goTo (join64 le (hi32 t.pc)) else t1.advance 4

/-- R91: a loop whose count is a register. -/
def execLoop (o : BitVec 13) (a : BitVec 7) (l : BitVec 2) (s : State) : Out :=
  match loopReserved l (o == 0) with
  | .error e => .next (s.lanes fun s _ _ => (s, some e))
  | .ok _ => plainOp [.src a] (fun t => .ok (t.startLoop l.toNat (o.zeroExtend 32) (t.val a))) s

/-- R91: a loop with an immediate count. -/
def execLoopi (o : BitVec 13) (i : BitVec 7) (l : BitVec 2) (s : State) : Out :=
  match loopReserved l (o == 0) with
  | .error e => .next (s.lanes fun s _ _ => (s, some e))
  | .ok _ => plainOp [] (fun t => .ok (t.startLoop l.toNat (o.zeroExtend 32) (i.zeroExtend 32))) s

/-- Clears the counters of the levels from j on. -/
def Thread.clearLoops (t : Thread) (j : Nat) : Thread :=
  { t with lc := (List.range 3).map fun i => if j ≤ i then 0 else t.lcOf i }

/-- `lbrk` and `lcont`: the counters from level j on are cleared, and the end check runs at le(k). -/
def leaveLoop (l : BitVec 2) (inner : Bool) : State → Out :=
  plainOp [] fun t =>
    let k := l.toNat
    if k = 3 then .error (.trap 2 0 0 0)
    else if t.lcOf k = 0 then .error (.trap 3 5 0 0)
    else
      let np := t.loopAddr (t.loopEnd k)
      .ok ((t.clearLoops (if inner then k + 1 else k)).endReplay.goSeq np)

/-- R91: leaves level k. -/
def execLbrk (l : BitVec 2) : State → Out := leaveLoop l false

/-- R91: ends the current iteration of level k. -/
def execLcont (l : BitVec 2) : State → Out := leaveLoop l true

end Sys2Proof.Machine
end

