-- ==== Sys2Proof/Machine/Sequencer.lean ====
section
/-! DEFINITION. The thread sequencer: branches (07 R173, R174), calls and returns (R175-R179), traps, exit and yield
(R187-R191), barriers and convergence registers (R180-R185). -/

namespace Sys2Proof.Machine

open Sys2Proof

/-! ### Uniformity, R174, R178 -/

/-- The mask of the lanes for which something holds, placed by rank (R174). -/
def State.rankMask (s : State) (ls : List LaneRef) (f : LaneRef → Bool) : Word :=
  ls.foldl (fun m l => if f l then m ||| (1#32 <<< (((s.lane? l).map (·.rank)).getD 0)) else m) 0

/-- Whether all the non-helper lanes of a list give one value. -/
def uniform {β : Type} [DecidableEq β] (vs : List (LaneRef × β)) : Bool :=
  let live := vs.filter fun v => !v.1.helper
  match live with
  | [] => true
  | v :: rest => rest.all fun x => decide (x.2 = v.2)

/-- The value of the live lane with the lowest logical index. -/
def leader {β : Type} (vs : List (LaneRef × β)) : Option β :=
  ((vs.filter fun v => !v.1.helper).foldl (fun (m : Option (LaneRef × β)) v => match m with
    | none => some v
    | some x => if v.1.idx < x.1.idx then some v else some x) none).map (·.2)

/-- Settles and checks operand roles in every lane: the lanes that pass, with a value, and the state in which the others
have stopped. -/
def State.collect {β : Type} (s : State) (roles : List Role) (val : Thread → β) : State × List (LaneRef × β) :=
  s.issue.lanes.foldl (fun (acc : State × List (LaneRef × β)) l =>
    let s := acc.1
    match s.lane? l with
    | none => acc
    | some t0 =>
      let s1 := s.settleRoles l t0 roles
      let t := (s1.lane? l).getD t0
      match check t roles with
      | some e => (s1.stopLane l e, acc.2)
      | none => (s1, acc.2 ++ [(l, val t)])) (s, [])

/-! ### Branches, R173, R174 -/

/-- R173: taken when pred(P) xor Q; the target counts halfwords from the branch. -/
def execBr (o : BitVec 18) (q : BitVec 1) (p : BitVec 6) (u : BitVec 1) (s : State) : Out :=
  let taken (l : LaneRef) : Bool := match s.lane? l with
    | some t => t.pred p.toNat != bit1 q
    | none => false
  let live := s.liveLanes
  if bit1 u ∧ !uniform (live.map fun l => (l, taken l)) then .next (s.trapLanes live 4 1 0 (s.rankMask live taken))
  else
    .next (s.lanes fun s l t =>
      let target := t.pc + 2 * o.signExtend 64
      (s.setLane l (if t.pred p.toNat != bit1 q then t.goTo target else t.advance 4), none))

/-! ### The return stack, R175, R179 -/

/-- The call-stack address of a thread: CSH and a low half. -/
def State.stackAddr (s : State) (w : Who) (low : Word) : Dword :=
  let csb := (((s.block? w.core w.blk).bind fun b => s.launch? b.launch).map (·.rcd.csb)).getD 0
  join64 low (BitVec.ofNat 32 (csb / 2 ^ 32))

/-- A thread whose count of outstanding stores is at its limit is held at its next store (06 R137). -/
def Thread.full (t : Thread) : Bool := decide (65535 ≤ t.osc)

/-- Holds a thread at its instruction. -/
def Thread.hold (t : Thread) (w : Wait) : Thread := { t with mode := .waiting w }

/-- Push (R179): the fifth entry spills the oldest to memory as a plain `st.b64`; a helper lane stores nothing (01 R10). -/
def State.push (s : State) (l : LaneRef) (t : Thread) (ra target : Dword) : LaneOut :=
  let w := s.who l
  let done (s : State) (t : Thread) : State := s.setLane l ({ t with ret := (ra :: t.ret).take 4, rsd := t.rsd + 1 }.goTo target)
  if t.rsd = 0xFFFFFFFF then (s, some (.trap 3 0x11 0 0))
  else if t.rsd.toNat < 4 then (done s t, none)
  else if l.helper then (done s { t with sp := t.sp - 8 }, none)
  else if t.full then (s.setLane l (t.hold (.held .stores)), none)
  else
    let sp := t.sp - 8
    let a := (s.stackAddr w sp).toNat
    if a % 8 ≠ 0 then (s, some (memStop a 8 true false (8, 1)))
    else
      match s.watchedAccess w a 8 .w false (sizedAt 0) with
      | (s1, .error e) => (s1, some e)
      | (s1, .ok p) =>
        let s2 := s1.storeAs w p (leOf 8 (nth t.ret 3 0).toNat) 0 0
        (done s2 { (s2.lane? l).getD t with sp := sp }, none)

/-- Pop (R179): with more than four entries the refill is a plain `ld.b64`; uncorrectable data traps here, before a
watchpoint does (01 R26). A helper lane refills with 0 (01 R10). -/
def State.pop (s : State) (l : LaneRef) (t : Thread) : LaneOut :=
  let w := s.who l
  let target := nth t.ret 0 0
  let refilled (t : Thread) (e : Dword) : Thread := { t with ret := t.ret.drop 1 ++ [e], sp := t.sp + 8, rsd := t.rsd - 1 }.goTo target
  if t.rsd.toNat ≤ 4 then (s.setLane l ({ t with ret := t.ret.drop 1, rsd := t.rsd - 1 }.goTo target), none)
  else if l.helper then (s.setLane l (refilled t 0), none)
  else
    let a := (s.stackAddr w t.sp).toNat
    if a % 8 ≠ 0 then (s, some (memStop a 8 false false (8, 1)))
    else
      match s.access w a 8 .r false (sizedAt 0) with
      | (s1, .error e) => (s1, some e)
      | (s1, .ok p) =>
        let (s2, bs, bad) := s1.loadAs w p 8 0 0
        if bad then (s2, some (memStop a 8 false false (0x0D, 1)))
        else
          match s2.watch w a 8 false false with
          | (s3, some e) => (s3, some e)
          | (s3, none) =>
            let s4 := s3.noteSize w p 8 (sizedAt 0)
            (s4.setLane l (refilled ((s4.lane? l).getD t) (BitVec.ofNat 64 (natOf bs))), none)

/-- R176: a direct call; U can never be violated. -/
def execCall (o : BitVec 25) (_u : BitVec 1) : State → Out :=
  stateOp [] fun s l t => s.push l t (t.pc + 4) (t.pc + 2 * o.signExtend 64)

/-- A transfer to a target read in each lane (R178): uniformity, alignment, then the transfer. A lane whose operand fails a
check reads no target, and the comparison leaves it out (log entry 43). -/
def State.indirect (s : State) (u : BitVec 1) (a : BitVec 7) (go : State → LaneRef → Thread → Dword → LaneOut) : State :=
  let (s1, vs) := s.collect [.src64 a] fun t => t.val64 a
  let live := vs.filter fun v => !v.1.helper
  if bit1 u ∧ !uniform vs then
    let first := leader vs
    s1.trapLanes (live.map (·.1)) 4 2 0
      (s1.rankMask (live.map (·.1)) fun l => match live.find? fun v => v.1 == l with | some v => some v.2 != first | none => false)
  else
    vs.foldl (fun s v =>
      match s.lane? v.1 with
      | none => s
      | some t =>
        if v.2.getLsbD 0 then s.stopLane v.1 (.trap 8 2 v.2 0)
        else
          match go s v.1 t v.2 with
          | (s', none) => s'
          | (s', some e) => s'.stopLane v.1 e) s1

/-- R178: an indirect call. -/
def execCalli (u : BitVec 1) (a : BitVec 7) (s : State) : Out :=
  .next (s.indirect u a fun s l t target => s.push l t (t.pc + 4) target)

/-- R178: an indirect jump. -/
def execJmpi (u : BitVec 1) (a : BitVec 7) (s : State) : Out :=
  .next (s.indirect u a fun s l t target => (s.setLane l (t.goTo target), none))

/-- R178: pops and jumps; with U = 1 all lanes must pop one address, or none pops. A lane with nothing to pop traps, and the
comparison leaves it out (log entry 43). -/
def execRet (u : BitVec 1) (s : State) : Out :=
  let vs := s.issue.lanes.filterMap fun l => match s.lane? l with
    | some t => if t.rsd = 0 then none else some (l, nth t.ret 0 0)
    | none => none
  let live := vs.filter fun v => !v.1.helper
  let s1 := s.issue.lanes.foldl (fun s l => match s.lane? l with
    | some t => if t.rsd = 0 then s.stopLane l (.trap 3 0x11 0 0) else s
    | none => s) s
  if bit1 u ∧ !uniform vs then
    let first := leader vs
    .next (s1.trapLanes (live.map (·.1)) 4 3 0
      (s1.rankMask (live.map (·.1)) fun l => match live.find? fun v => v.1 == l with | some v => some v.2 != first | none => false))
  else
    .next (s1.lanesOf (vs.map (·.1)) fun s l t => s.pop l t)

/-! ### Traps and ends, R187-R191 -/

/-- R188: cause 0x20 with subcause n; `trpc` is the next instruction. -/
def execTrap (n : BitVec 8) (s : State) : Out :=
  .next (s.lanes fun s l t =>
    if l.helper then (s, none) else (s.trapWith trapFuel (s.who l) 0x20 n.toNat 0 0 (t.pc + 4) t.pc, none))

/-- R187: returns from the handler; outside one, cause 0x03 subcause 0x12. -/
def execTrapret (s : State) : Out :=
  .next (s.lanes fun s l t =>
    if t.handler then (s.setLane l t.returnFromTrap, none) else (s, some (.trap 3 0x12 0 0)))

/-- R190: holds until `osc` = 0, then ends the thread. -/
def execExit (s : State) : Out :=
  .next (s.lanes fun s l _ => if l.helper then (s, none) else (s.beginExit (s.who l), none))

/-- The quadrant of the group being executed. -/
def State.issueQuad (s : State) : Nat :=
  match s.block? s.issue.core s.issue.blk with
  | some b => quadOf b s.issue.grp
  | none => 0

def State.modQuad (s : State) (core q : Nat) (f : Quad → Quad) : State :=
  let k := s.coreAt core
  s.setCore core { k with quads := sput k.quads q (f (sgetD k.quads q {})) }

/-- R191: no architectural effect; the issue stage may switch after the slot. -/
def execYield (s : State) : Out :=
  let s1 := s.lanes fun s l t => (s.setLane l (t.advance 4), none)
  .next (s1.modQuad s1.issue.core s1.issueQuad fun q => { q with yielded := true })

/-! ### Barriers, R181 -/

/-- The arrivals of the live lanes at a rendezvous, each a release at `.blk`, then its completion; a helper lane executes
the instruction and does not arrive (R171). -/
def State.arrive (s : State) (wait : Wait) : State :=
  (s.lanes fun s l t => if l.helper then (s.setLane l (t.advance 4), none) else
      let s1 := (s.releaseAt (s.who l) 1).publish fun x => x == s.who l
      (s1.modLane l fun t' => ({ t' with pc := t.pc } : Thread).hold wait, none)).modBlock s.issue.core s.issue.blk Block.checkBar

/-- R181. -/
def execBar (s : State) : Out := .next (s.arrive .bar)

/-! ### Convergence registers, R182-R185 -/

/-- Changes the block being executed. -/
def State.modIssueBlock (s : State) (f : Block → Block) : State := s.modBlock s.issue.core s.issue.blk f

def State.issueCv (s : State) (k : Nat) : CvReg := ((s.block? s.issue.core s.issue.blk).map fun b => b.cv k).getD {}

/-- One lane of `cvarm` (R183). -/
def State.cvArm (s : State) (k : Nat) (l : LaneRef) (t : Thread) (a : Nat) : LaneOut :=
  let c := s.issueCv k
  let next (s : State) : LaneOut := (s.modLane l fun t => t.advance 4, none)
  if l.helper then (s.setLane l (t.advance 4), none)
  else if 1024 < a then (s, some (.trap 0x17 1 0 0))
  else if a = 0 then
    if c.c = 0 then next (s.modIssueBlock fun b => b.setCv k { c with e := 0, broken := false }) else (s, some (.trap 0x17 2 0 0))
  else if c.e = 0 ∨ c.broken then
    next (s.modIssueBlock fun b => (b.setCv k { c with e := a, c := 0, broken := false, mat := none, signers := [], draining := false }).clearSigned k)
  else if c.e = a then next s
  else (s, some (.trap 0x17 2 0 0))

/-- R183: arms or disarms a convergence register. -/
def execCvarm (k : BitVec 4) (a : BitVec 7) : State → Out :=
  stateOp [.src a] fun s l t => s.cvArm k.toNat l t (t.val a).toNat

/-- Why a sign fails (R184). -/
def signFault (c : CvReg) (t : Thread) (k : Nat) : Option Nat :=
  if c.e = 0 then some 3 else if c.broken then some 6 else if t.signed.getLsbD k then some 4 else none

/-- Marks a thread's sign. -/
def Thread.sign (t : Thread) (k : Nat) (ph : Bool) : Thread :=
  { t with signed := setBit16 t.signed k true, sphValid := setBit16 t.sphValid k true, sph := setBit16 t.sph k ph }

/-- `cvwait` of one lane (R184): it returns, waits or traps. -/
def State.cvWait (s : State) (k : Nat) (l : LaneRef) (t : Thread) : LaneOut :=
  let c := s.issueCv k
  match t.sphOf k with
  | none => (s, some (.trap 0x17 5 0 0))
  | some ph =>
    if c.broken then (s, some (.trap 0x17 6 0 0))
    else if c.ph != ph then (s.setLane l (t.advance 4), none)
    else (s.setLane l (t.hold (.cv k)), none)

/-- One lane of `cvsign` or `cvsync` (R184): the sign is a release at `.blk`; a matrix phase takes none (13 R313). -/
def State.cvSign (s : State) (k : Nat) (wait : Bool) (l : LaneRef) (t : Thread) : LaneOut :=
  if l.helper then (s.setLane l (t.advance 4), none)
  else
    let c := s.issueCv k
    match signFault c t k with
    | some sub => (s, some (.trap 0x17 sub 0 0))
    | none =>
      if c.mat.isSome then (s, some (.trap 0x17 0x12 0 0))
      else
      let s1 := (s.releaseAt (s.who l) 1).publish fun x => x == s.who l
      let s2 := s1.modLane l fun t => t.sign k c.ph
      let s3 := s2.modIssueBlock fun b => b.setCv k { c with c := c.c + 1 }
      let s4 := if c.c + 1 = c.e then s3.modIssueBlock fun b => b.endPhase k else s3
      match s4.lane? l with
      | none => (s4, none)
      | some t1 => if wait then s4.cvWait k l t1 else (s4.setLane l (t1.advance 4), none)

/-- R184: signs without waiting. -/
def execCvsign (k : BitVec 4) : State → Out := stateOp [] fun s l t => s.cvSign k.toNat false l t

/-- R184: signs, then waits. -/
def execCvsync (k : BitVec 4) : State → Out := stateOp [] fun s l t => s.cvSign k.toNat true l t

/-- R184: waits until the phase moves past the thread's last sign. -/
def execCvwait (k : BitVec 4) : State → Out :=
  stateOp [] fun s l t => if l.helper then (s.setLane l (t.advance 4), none) else s.cvWait k.toNat l t

end Sys2Proof.Machine
end

