-- ==== Sys2Proof/Machine/Exchange.lean ====
section
/-! DEFINITION. The exchange network (08 R192-R209): majors 18 and 19, and the repacking of `regroup`. -/

namespace Sys2Proof.Machine

open Sys2Proof

/-! ### Participants, R194, and the echo, R197 -/

/-- A participant with the operands it supplies: A, and B. -/
structure XLane where
  lane : LaneRef
  rank : Nat
  a : Dword
  b : Word
  deriving DecidableEq, Repr

/-- The live lanes among participants: H of R194. -/
def liveX (ps : List XLane) : List XLane := ps.filter fun p => !p.lane.helper

/-- The participant at a rank. -/
def atRank (ps : List XLane) (r : Nat) : Option XLane := ps.find? fun p => p.rank == r

/-- Appends to the echo (R197). -/
def Thread.echoPush (t : Thread) (v : Dword) : Thread :=
  if t.echoCount < 16 then { t with echo := sput t.echo t.echoCount v, echoCount := t.echoCount + 1 }
  else { t with echoOvf := true }

/-- Whether the thread re-executes an instruction of a replayed run, the reader excluded (R197). -/
def Thread.inRun (t : Thread) : Bool :=
  match t.replay with
  | some r => !r.atAnchor && r.reader != t.pc
  | none => false

/-- Completes an exchange instruction with its result, which is recorded when the instruction reads a latch. -/
def Thread.finishX (t : Thread) (dst : Dst) (n reads : Bool) (v : Dword) (fl : Word) : Thread :=
  let t1 := (if n then t else dst.write t v).latchResult reads v
  ((if reads then t1.echoPush v else t1).raise fl).advance 4

/-- The next echo entry delivered in place of a result. -/
def Thread.finishEcho (t : Thread) (dst : Dst) (n : Bool) : Except Stop Thread :=
  let i := (t.replay.map (·.echoAt)).getD 0
  if 16 ≤ i then .error (.trap 3 6 0 0)
  else
    let v := sgetD t.echo i 0
    let t1 := if n then t else dst.write t v
    .ok ((({ t1 with replay := t1.replay.map fun (r : Replay) => { r with echoAt := i + 1 } }).shiftIn v).advance 4)

/-- One lane at an exchange instruction: it stops, takes its anchor or its echo, or takes part. -/
def State.enterX (s : State) (dst : Dst) (n : Bool) (srcs : List Role) (a : Thread → Dword) (b : Thread → Word)
    (l : LaneRef) : State × List XLane :=
  match s.lane? l with
  | none => (s, [])
  | some t0 =>
    let s1 := s.settleRoles l t0 (dst.role :: srcs)
    let t := (s1.lane? l).getD t0
    if t.atAnchor then
      match t.anchorLane 4 dst n with
      | .ok t' => (s1.setLane l t', [])
      | .error e => (s1.stopLane l e, [])
    else
      match check t (dst.role :: srcs) with
      | some e => (s1.stopLane l e, [])
      | none =>
        if t.inRun && readsLatch srcs then
          match t.finishEcho dst n with
          | .ok t' => (s1.setLane l t', [])
          | .error e => (s1.stopLane l e, [])
        else (s1, [⟨l, t.rank, a t, b t⟩])

/-- Every lane of the path enters: the state and the participants. -/
def State.enterAll (s : State) (dst : Dst) (n : Bool) (srcs : List Role) (a : Thread → Dword) (b : Thread → Word) :
    State × List XLane :=
  s.issue.lanes.foldl (fun acc l => let r := acc.1.enterX dst n srcs a b l; (r.1, acc.2 ++ r.2)) (s, [])

/-- An exchange instruction (R194): every operand is read before any result is written. -/
def exchange (dst : Dst) (n : BitVec 1) (srcs : List Role) (a : Thread → Dword) (b : Thread → Word)
    (res : Rnd → List XLane → XLane → Dword × Word) (s : State) : Out :=
  let (s1, ps) := s.enterAll dst (bit1 n) srcs a b
  .next (ps.foldl (fun s p => s.modLane p.lane fun t =>
    let r := res t.rnd ps p
    t.finishX dst (bit1 n) (readsLatch srcs) r.1 r.2) s1)

/-! ### Shuffles and the quad exchange, R199, R200 -/

/-- A of a source rank, or the lane's own A. -/
def takeFrom (ps : List XLane) (p : XLane) (src : Option Nat) : Dword :=
  ((src.bind fun r => atRank ps r).map (·.a)).getD p.a

/-- A shuffle with its source rank from the lane's rank and B. -/
def shuffle (n : BitVec 1) (d a b : BitVec 7) (src : Nat → Nat → Option Nat) : State → Out :=
  exchange (.r32 d) n [.src a, .src b] (fun t => word64 (t.val a)) (fun t => t.val b)
    fun _ ps p => (takeFrom ps p (src p.rank p.b.toNat), 0)

/-- R199: A of rank B[4:0]. -/
def execShflIdx (n : BitVec 1) (b a d : BitVec 7) : State → Out := shuffle n d a b fun _ x => some (x % 32)

/-- R199: A of rank r - B, when B is at most r. -/
def execShflUp (n : BitVec 1) (b a d : BitVec 7) : State → Out :=
  shuffle n d a b fun r x => if x ≤ r then some (r - x) else none

/-- R199: A of rank r + B, when that is at most 31. -/
def execShflDn (n : BitVec 1) (b a d : BitVec 7) : State → Out :=
  shuffle n d a b fun r x => if r + x ≤ 31 then some (r + x) else none

/-- R199: A of rank r xor B[4:0]. -/
def execShflXor (n : BitVec 1) (b a d : BitVec 7) : State → Out := shuffle n d a b fun r x => some (Nat.xor r (x % 32))

/-- A quad exchange with its source position from the lane's own. -/
def quadExchange (n : BitVec 1) (d a : BitVec 7) (src : Nat → Nat) : State → Out :=
  exchange (.r32 d) n [.src a] (fun t => word64 (t.val a)) (fun _ => 0)
    fun _ ps p => (takeFrom ps p (some (p.rank / 4 * 4 + src (p.rank % 4))), 0)

/-- R199: the position xor m. -/
def execQxchXor (n : BitVec 1) (m : BitVec 2) (a d : BitVec 7) : State → Out := quadExchange n d a fun q => Nat.xor q m.toNat

/-- R199: position m. -/
def execQxchBc (n : BitVec 1) (m : BitVec 2) (a d : BitVec 7) : State → Out := quadExchange n d a fun _ => m.toNat

/-! ### Queries, matches and the butterfly, R201-R203 -/

/-- The mask of the ranks of H for which something holds. -/
def maskOf (ps : List XLane) (f : XLane → Bool) : Word :=
  (liveX ps).foldl (fun m p => if f p then m ||| (1#32 <<< p.rank) else m) 0

/-- A query of the group: every participant receives its result. -/
def groupQuery (n : BitVec 1) (d a : BitVec 7) (q : List XLane → Word) : State → Out :=
  exchange (.r32 d) n [.src a] (fun t => word64 (t.val a)) (fun _ => 0) fun _ ps _ => (word64 (q ps), 0)

/-- R201: the mask of the ranks whose A is not 0. -/
def execGqMask (n : BitVec 1) (a d : BitVec 7) : State → Out := groupQuery n d a fun ps => maskOf ps fun p => p.a != 0

/-- R201: 1 if every lane of H has A not 0. -/
def execGqEvery (n : BitVec 1) (a d : BitVec 7) : State → Out :=
  groupQuery n d a fun ps => if (liveX ps).all fun p => p.a != 0 then 1 else 0

/-- R201: 1 if some lane of H has A not 0. -/
def execGqSome (n : BitVec 1) (a d : BitVec 7) : State → Out :=
  groupQuery n d a fun ps => if (liveX ps).any fun p => p.a != 0 then 1 else 0

/-- R201: 1 if every lane of H holds the same A. -/
def execGqSame (n : BitVec 1) (a d : BitVec 7) : State → Out :=
  groupQuery n d a fun ps => if (liveX ps).all fun p => (liveX ps).all fun q => p.a == q.a then 1 else 0

/-- R202: the mask of the ranks of H with an equal 32-bit key. -/
def execPeersB32 (n : BitVec 1) (a d : BitVec 7) : State → Out :=
  exchange (.r32 d) n [.src a] (fun t => word64 (t.val a)) (fun _ => 0)
    fun _ ps p => (word64 (maskOf ps fun q => q.a == p.a), 0)

/-- R202: the same with a 64-bit key. -/
def execPeersB64 (n : BitVec 1) (a d : BitVec 7) : State → Out :=
  exchange (.r32 d) n [.src64 a] (fun t => t.val64 a) (fun _ => 0)
    fun _ ps p => (word64 (maskOf ps fun q => q.a == p.a), 0)

/-- R203: one butterfly stage across ranks; a mode above 4 raises cause 0x02. -/
def execBflyS64 (n : BitVec 1) (k : BitVec 3) (a d : BitVec 7) (s : State) : Out :=
  if 4 < k.toNat then .next (s.trapPath 2 0 0 0)
  else
    exchange (.r64 d) n [.src64 a] (fun t => t.val64 a) (fun _ => 0) (fun _ ps p =>
      let dist := 2 ^ k.toNat
      match atRank ps (Nat.xor p.rank dist) with
      | none => (p.a, 0)
      | some q => (if p.rank / dist % 2 = 0 then p.a + q.a else q.a - p.a, 0)) s

/-! ### Scans and reductions, R205 -/

/-- The operation of a scan: identity, and combining function with its flags. -/
structure ScanOp where
  ident : Word
  join : Rnd → Word → Word → Word × Word

/-- Sum mod 2^32. -/
def scanSum : ScanOp := { ident := 0, join := fun _ x y => (x + y, 0) }
/-- FP32 sum, rounded at each step. -/
def scanFsum : ScanOp :=
  { ident := 0
    join := fun m x y => let r := fp32.fadd m x.toNat y.toNat; (BitVec.ofNat 32 r.1, r.2) }
/-- Signed maximum. -/
def scanMaxS : ScanOp := { ident := 0x80000000, join := fun _ x y => (maxS x y, 0) }
/-- Signed minimum. -/
def scanMinS : ScanOp := { ident := 0x7FFFFFFF, join := fun _ x y => (minS x y, 0) }

/-- Insertion of a participant by rank. -/
def insertX (p : XLane) : List XLane → List XLane
  | [] => [p]
  | q :: qs => if p.rank < q.rank then p :: q :: qs else q :: insertX p qs

/-- The lanes of H in ascending rank. -/
def byRank (ps : List XLane) : List XLane := (liveX ps).foldl (fun qs p => insertX p qs) []

/-- The prefix over values in order: its flags are those of its own steps. That of one value is the value itself, a NaN as
it is (R205). -/
def prefixOf (op : ScanOp) (m : Rnd) : List Word → Word × Word
  | [] => (op.ident, 0)
  | v :: vs => vs.foldl (fun acc x => let r := op.join m acc.1 x; (r.1, acc.2 ||| r.2)) (v, 0)

/-- A scan or a reduction: `keep` says which ranks of H count for a lane's rank. -/
def scanOver (n : BitVec 1) (d a : BitVec 7) (op : ScanOp) (keep : Nat → Nat → Bool) : State → Out :=
  exchange (.r32 d) n [.src a] (fun t => word64 (t.val a)) (fun _ => 0) fun m ps p =>
    let r := prefixOf op m (((byRank ps).filter fun q => keep q.rank p.rank).map fun q => lo32 q.a)
    (word64 r.1, r.2)

def upTo (q r : Nat) : Bool := decide (q ≤ r)
def below (q r : Nat) : Bool := decide (q < r)
def everyRank (_ _ : Nat) : Bool := true

/-- R205: inclusive sum. -/
def execScanAdd (n : BitVec 1) (a d : BitVec 7) : State → Out := scanOver n d a scanSum upTo
/-- R205: inclusive FP32 sum. -/
def execScanFadd (n : BitVec 1) (a d : BitVec 7) : State → Out := scanOver n d a scanFsum upTo
/-- R205: inclusive signed maximum. -/
def execScanMax (n : BitVec 1) (a d : BitVec 7) : State → Out := scanOver n d a scanMaxS upTo
/-- R205: inclusive signed minimum. -/
def execScanMin (n : BitVec 1) (a d : BitVec 7) : State → Out := scanOver n d a scanMinS upTo
/-- R205: exclusive sum. -/
def execScanxAdd (n : BitVec 1) (a d : BitVec 7) : State → Out := scanOver n d a scanSum below
/-- R205: exclusive FP32 sum. -/
def execScanxFadd (n : BitVec 1) (a d : BitVec 7) : State → Out := scanOver n d a scanFsum below
/-- R205: exclusive signed maximum. -/
def execScanxMax (n : BitVec 1) (a d : BitVec 7) : State → Out := scanOver n d a scanMaxS below
/-- R205: exclusive signed minimum. -/
def execScanxMin (n : BitVec 1) (a d : BitVec 7) : State → Out := scanOver n d a scanMinS below
/-- R205: the sum of H. -/
def execGredAdd (n : BitVec 1) (a d : BitVec 7) : State → Out := scanOver n d a scanSum everyRank
/-- R205: the FP32 sum of H. -/
def execGredFadd (n : BitVec 1) (a d : BitVec 7) : State → Out := scanOver n d a scanFsum everyRank
/-- R205: the signed maximum of H. -/
def execGredMax (n : BitVec 1) (a d : BitVec 7) : State → Out := scanOver n d a scanMaxS everyRank
/-- R205: the signed minimum of H. -/
def execGredMin (n : BitVec 1) (a d : BitVec 7) : State → Out := scanOver n d a scanMinS everyRank

/-! ### Compaction and expansion, R206 -/

/-- The kept lanes of H in ascending rank. -/
def keptOf (ps : List XLane) : List XLane := (byRank ps).filter fun q => q.b != 0

/-- R206: rank r receives A of the r-th kept lane, or 0. -/
def execCmpct (n : BitVec 1) (b a d : BitVec 7) : State → Out :=
  exchange (.r32 d) n [.src a, .src b] (fun t => word64 (t.val a)) (fun t => t.val b)
    fun _ ps p => ((((keptOf ps)[p.rank]?).map (·.a)).getD 0, 0)

/-- R206: a lane with B not 0 receives A of the rank that counts the kept lanes below it, or 0. A helper lane that stands at
that rank contributes nothing (R194), and the lane receives 0 (log entry 44). -/
def execExpand (n : BitVec 1) (b a d : BitVec 7) : State → Out :=
  exchange (.r32 d) n [.src a, .src b] (fun t => word64 (t.val a)) (fun t => t.val b) fun _ ps p =>
    if p.b = 0 then (0, 0)
    else (((atRank (liveX ps) ((keptOf ps).filter fun q => decide (q.rank < p.rank)).length).map (·.a)).getD 0, 0)

/-! ### The repacking, R207-R209 -/

/-- R207: arrives at the rendezvous that repacks the block. -/
def execRegroup (s : State) : Out := .next (s.arrive .regroup)

/-- The location of a logical thread (R209). -/
def Block.location (b : Block) (i : Nat) : Word :=
  if b.nthreads ≤ i then BitVec.allOnes 32
  else
    match sget b.threads i with
    | none => BitVec.allOnes 32
    | some t => BitVec.ofNat 32 (t.rank + 32 * t.group + (if t.live then 0 else 2 ^ 31))

/-- R209: the location of logical thread A. -/
def execRemap (n : BitVec 1) (a d : BitVec 7) (s : State) : Out :=
  let b := s.block? s.issue.core s.issue.blk
  exchange (.r32 d) n [.src a] (fun t => word64 (t.val a)) (fun _ => 0)
    (fun _ _ p => (word64 ((b.map fun b => b.location (lo32 p.a).toNat).getD (BitVec.allOnes 32)), 0)) s

/-- A thread or helper lane at its start (09 R216). -/
def freshThread (idx group rank nregs : Nat) (helper : Bool) (pc : Dword) (sp : Word) : Thread :=
  { idx := idx, helper := helper, pc := pc, nregs := nregs, group := group, rank := rank, sp := sp }

/-- The helper lanes that fill the last quad of a group of n threads (01 R10). The spec gives no `sp` to those that a
regroup makes: it is 0 (log entry 35). -/
def helpersOf (group n nregs : Nat) : SMap Thread :=
  ((List.range 4).filter fun i => decide (n % 4 ≠ 0) && decide (n % 4 ≤ i)).map fun i =>
    let r := n / 4 * 4 + i
    (32 * group + r, freshThread (32 * group + r) group r nregs true 0 0)

/-- Group indices of a block. -/
def Block.groups (b : Block) : List Nat := List.range ((b.nthreads + 31) / 32)

/-- Places the threads of a list, in order, in the groups of one quadrant. -/
def placeThreads (gs : List Nat) (i : Nat) : List Nat → List (Nat × Nat × Nat)
  | [] => []
  | t :: ts => (t, nth gs (i / 32) 0, i % 32) :: placeThreads gs (i + 1) ts

/-- The new place of each live thread: thread, group, rank. -/
def Block.repackPlan (b : Block) : List (Nat × Nat × Nat) :=
  (List.range 4).flatMap fun q =>
    placeThreads (b.groups.filter fun g => quadOf b g == q) 0
      ((b.threads.filter fun p => p.2.live && quadOf b p.2.group == q).map (·.1))

/-- The repacking of a block at the completion of its rendezvous (R207): a group left with no thread ends, and the counter
latches, which are not moved, read 0 (19 R439). -/
def Block.repack (b : Block) (nregs : Nat) : Block :=
  let plan := b.repackPlan
  let ths := b.threads.map fun p =>
    match plan.find? fun x => x.1 == p.1 with
    | some (_, g, r) =>
      let t : Thread := { p.2.dropLatches with group := g, rank := r, starve := 0, ctrLatch := [] }
      (p.1, if t.atBar then t.release else t)
    | none => p
  let hs := b.groups.flatMap fun g => helpersOf g ((plan.filter fun x => x.2.1 == g).length) nregs
  { b with
    threads := ths
    helpers := hs
    issued := []
    regroupDue := false
    ended := b.groups.filter fun g => !(plan.any fun x => x.2.1 == g) }

/-- R207: after the engine operations on the block's registers, the rendezvous repacks and releases its threads. -/
def execRegroupComplete (core blk : Nat) (s : State) : Out :=
  match s.block? core blk with
  | none => .next s
  | some b =>
    if !b.regroupDue || s.cmds.any fun p => p.2.regs && p.2.core == core && p.2.blk == blk then .next s
    else
      let nregs := ((s.launch? b.launch).map (·.rcd.regs)).getD 0
      let s1 := s.setBlock core blk (b.repack nregs)
      .next ((b.threads.filter fun p => p.2.atBar).foldl (fun s p => s.acquireAt ⟨core, blk, p.1⟩ 1) s1)

end Sys2Proof.Machine
end

