-- ==== Sys2Proof/Machine/Converter.lean ====
section
/-! DEFINITION. The operand converter and the rotation stage (10 R236-R263), and the frame of group-wide
instructions (01 R451). -/

namespace Sys2Proof.Machine

open Sys2Proof

/-! ### The rotation, R238-R241 -/

/-- The mixing function of R238. -/
def rotMix (z : Dword) : Dword := (z ^^^ (z >>> (31 : Nat))) * 0xBF58476D1CE4E5B9#64

/-- g(s, t) of R238. -/
def rotGen (s t : Dword) : Dword := rotMix (rotMix (s + t * 0x9E3779B97F4A7C15#64))

/-- The sign of element j of block n under a seed: true negates. -/
def rotSign (seed : Dword) (n j : Nat) : Bool := (rotGen seed (BitVec.ofNat 64 (4 * (n % 2 ^ 24) + j / 64))).getLsbD (j % 64)

/-- The butterfly stages of R239: the Sylvester Hadamard transform of 2^k integers. -/
def hadamard : Nat → List Int → List Int
  | 0, xs => xs
  | k + 1, xs =>
    let a := hadamard k (xs.take (2 ^ k))
    let b := hadamard k (xs.drop (2 ^ k))
    List.zipWith (· + ·) a b ++ List.zipWith (· - ·) a b

/-- log2 of the block size of a block code, and the normalisation exponent m (R236). -/
def blockLog (blk : Nat) : Nat := match blk with | 0 => 0 | 1 => 4 | 2 => 6 | _ => 8

/-- The largest floor_log2 over the nonzero values. -/
def topExp (xs : List Num) : Int := (numMaxAbs xs).floorLog2

/-- The integers of the alignment step, and whether one was inexact (R239). -/
def alignBlock (E : Int) (xs : List Num) : List (Int × Bool) :=
  xs.map fun x => match x with
    | .fin n m e => roundInt .rn n m 1 (e + (29 - E))
    | _ => (0, false)

/-- Negates the elements that the signs name, from element j on. -/
def applySigns (seed : Dword) (n j : Nat) : List Int → List Int
  | [] => []
  | q :: qs => (if rotSign seed n j then -q else q) :: applySigns seed n (j + 1) qs

/-- A block rotated forward or back (R239, R240): its exact values, none for a special block, and the flags. -/
def rotBlock (inverse : Bool) (blk : Nat) (seed : Dword) (n : Nat) (xs : List Num) : Option (List Num) × Word :=
  if blk = 0 then (some xs, 0)
  else if numsBad xs then (none, flagRB)
  else if xs.all fun x => x.isZero then (some (xs.map fun _ => .ofInt 0), 0)
  else
    let E := topExp xs
    let k := blockLog blk
    let q0 := alignBlock E xs
    let q1 := q0.map (·.1)
    let q2 := if inverse then hadamard k q1 else hadamard k (applySigns seed n 0 q1)
    let q3 := if inverse then applySigns seed n 0 q2 else q2
    (some (q3.map fun q => (Num.ofInt q).scale (E - 29 - (k / 2 : Nat))), flagIf (q0.any (·.2)) flagNX)

/-- A list cut in pieces of n. -/
def chunks {β : Type} (n : Nat) : Nat → List β → List (List β)
  | 0, _ => []
  | k + 1, xs => if xs.isEmpty then [] else xs.take n :: chunks n k (xs.drop n)

/-- Rotates consecutive blocks numbered from n0: each block's values or special, and the flags. -/
def rotRun (inverse : Bool) (blk : Nat) (seed : Dword) (n0 : Nat) : List (List Num) → List (Option (List Num)) × Word
  | [] => ([], 0)
  | b :: bs =>
    let (x, f) := rotBlock inverse blk seed n0 b
    let (xs, g) := rotRun inverse blk seed (n0 + 1) bs
    (x :: xs, f ||| g)

/-- The blocks of a run of values: with no rotation, one block of them all. -/
def blocksOf (blk : Nat) (xs : List Num) : List (List Num) :=
  if blk = 0 then [xs] else chunks (2 ^ blockLog blk) xs.length xs

/-- A run rotated, a special block as NaNs (R241), and which blocks were special. -/
def rotValues (inverse : Bool) (blk : Nat) (seed : Dword) (n0 : Nat) (xs : List Num) : List (Num × Bool) × Word :=
  let bs := blocksOf blk xs
  let (ys, f) := rotRun inverse blk seed n0 bs
  ((List.zipWith (fun b y => match y with
    | some v => v.map fun x => (x, false)
    | none => b.map fun _ => (Num.nan false, true)) bs ys).flatten, f)

/-! ### Rotation tags, R243-R246 -/

/-- A reserved half (R243). -/
def halfReserved (h : Nat) : Bool := (h % 4 == 0 && h != 0) || h / 32 % 8 != 0

/-- A half that fails its check (R244): subcause and detail (R246). -/
def halfFault (l : Launch) (h : Nat) (outer : Bool) : Option (Nat × Word) :=
  if h % 4 = 0 then none
  else
    let g := (l.seedAt (h / 4 % 8)).gen
    let det := BitVec.ofNat 32 (h % 65536 + g % 256 * 65536 + (if outer then 2 ^ 24 else 0))
    if g = 0 then some (1, det) else if h / 256 ≠ g then some (2, det) else none

/-- The trap of a tag. -/
def tagStop (f : Nat × Word) : Stop := .trap 0x12 f.1 0 f.2

/-- The launch of the block being executed. -/
def State.issueLaunch (s : State) : Launch :=
  ((s.block? s.issue.core s.issue.blk).bind fun b => s.launch? b.launch).getD noLaunch

/-! ### Group-wide instructions, 01 R451 -/

/-- The lanes at a group-wide instruction with their words: a lane that replays takes its anchor, a lane whose word
registers fail stops. A poisoned word is none of the checks before the agreement (R451): the instruction makes it later. -/
def State.enterGroup {β : Type} (s : State) (anchor : Option (Dst × Bool)) (roles : List Role) (key : Thread → β) :
    State × List (LaneRef × β) :=
  s.issue.lanes.foldl (fun (acc : State × List (LaneRef × β)) l =>
    let s := acc.1
    match s.lane? l with
    | none => acc
    | some t0 =>
      let s1 := s.settleRoles l t0 roles
      let t := (s1.lane? l).getD t0
      if t.atAnchor then
        match anchor with
        | some (d, n) =>
          match t.anchorLane 4 d n with
          | .ok t' => (s1.setLane l t', acc.2)
          | .error e => (s1.stopLane l e, acc.2)
        | none => (s1, acc.2)
      else
        match checkEntry t roles with
        | some e => (s1.stopLane l e, acc.2)
        | none => (s1, acc.2 ++ [(l, key t)])) (s, [])

/-- A group-wide instruction up to the agreement of its shared words: steps 1 to 3. The lanes that take part and the
common words, or nothing where every lane has stopped. -/
def State.agree {β : Type} [DecidableEq β] (s : State) (word : Option (Nat × Nat)) (anchor : Option (Dst × Bool))
    (roles : List Role) (key : Thread → β) (cause sub : Nat) : State × Option (β × List LaneRef) :=
  match word with
  | some c => (s.trapPath c.1 c.2 0 0, none)
  | none =>
    let (s1, vs) := s.enterGroup anchor roles key
    match leader vs with
    | none => (s1, none)
    | some w =>
      if uniform vs then (s1, some (w, vs.map (·.1)))
      else (s1.trapLanes ((vs.map (·.1)).filter fun l => !l.helper) cause sub 0 0, none)

/-- The lanes that pass a further check of their own, with their threads; the others stop. -/
def State.screen (s : State) (ls : List LaneRef) (f : Thread → Option Stop) : State × List (LaneRef × Thread) :=
  ls.foldl (fun (acc : State × List (LaneRef × Thread)) l =>
    match acc.1.lane? l with
    | none => acc
    | some t =>
      match f t with
      | some e => (acc.1.stopLane l e, acc.2)
      | none => (acc.1, acc.2 ++ [(l, t)])) (s, [])

/-- Stops every lane of a list. -/
def State.stopAll (s : State) (ls : List LaneRef) (e : Stop) : State := ls.foldl (fun s l => s.stopLane l e) s

/-- Registers of a run that lie beyond the allocation (R248). -/
def runBeyond (t : Thread) (f : BitVec 7) (n : Nat) : Option Stop :=
  if t.nregs < t.absReg f.toNat + n then some (.trap 6 0 0 0) else none

/-- The first poisoned register of a run that is read. -/
def runPoison (t : Thread) (f : BitVec 7) (n : Nat) : Option Stop := (t.poisonIn (t.absReg f.toNat) n).map poisonStop

/-- Settles the loads into a run of registers in every lane. -/
def State.settleRun (s : State) (ls : List LaneRef) (f : BitVec 7) (n : Nat) : State :=
  ls.foldl (fun s l => match s.lane? l with
    | some t => s.settleRoles l t [.rw f n]
    | none => s) s

/-! ### Conversion control words, R249, R250 -/

/-- A conversion control word, decoded. -/
structure Ccw where
  tag : Nat
  gs : Nat
  sch : Nat
  rs : Nat
  nt : Nat
  wt : Nat
  nb : Nat
  len : Nat
  hiRes : Nat
  deriving DecidableEq, Repr

def ccwOf (lo hi : Word) : Ccw :=
  let x := lo.toNat
  let y := hi.toNat
  { tag := x / 2 ^ 16, gs := x / 2 ^ 14 % 4, sch := x / 2 ^ 12 % 4, rs := x / 256 % 16, nt := x / 16 % 16, wt := x % 16,
    nb := y / 256, len := y % 8 + 1, hiRes := y / 8 % 32 }

/-- A reserved rounding-and-saturation code (R43). -/
def rsReserved (rs : Nat) : Bool := rs / 4 % 2 == 1 && rs % 4 != 0

/-- The rounding mode that a code names for a thread's FPCTL mode. -/
def rsMode (rs rm : Nat) : Rnd := Rnd.ofCode (if rs / 4 % 2 = 1 then rm else rs % 4)

def rsSat (rs : Nat) : Bool := rs / 8 % 2 == 1

/-- The reserved fields of a control word (R249). -/
def Ccw.reserved (c : Ccw) : Bool :=
  typeReserved c.wt || typeReserved c.nt || c.sch == 3 || c.gs == 3 || (c.gs != 0 && c.sch != 2) || c.hiRes != 0
    || halfReserved c.tag || rsReserved c.rs

/-- The group size of the asymmetric scheme. -/
def Ccw.group (c : Ccw) : Nat := 32 * 2 ^ c.gs

/-- Output registers of a packed run of `len` registers (R242). -/
def packedRegs (nt len : Nat) : Nat := (len * typeWidth nt + 31) / 32

/-- A quantised format: types, then scheme, then sizes (R250). -/
def Ccw.badQuant (c : Ccw) : Option Nat :=
  if c.wt ≠ 1 ∨ c.nt < 4 ∨ 10 < c.nt then some 0x20
  else if (c.sch = 1 ∧ 6 < c.nt) ∨ (c.sch = 2 ∧ c.nt < 7) then some 0x21
  else if 32 * c.len % 2 ^ blockLog (c.tag % 4) ≠ 0 ∨ (c.sch = 2 ∧ 32 * c.len % c.group ≠ 0) then some 0x22
  else none

/-- The combinations of `qscl`. -/
def Ccw.badScale (c : Ccw) : Option Nat :=
  if c.wt ≠ 1 ∨ c.nt < 4 ∨ 6 < c.nt then some 0x20
  else if c.sch ≠ 1 then some 0x21
  else if 32 * c.len % 2 ^ blockLog (c.tag % 4) ≠ 0 then some 0x22
  else none

/-- The combinations of `rot` and `irot`. -/
def Ccw.badRot (c : Ccw) : Option Nat :=
  if c.wt ≠ 1 ∨ c.nt ≠ 1 then some 0x20
  else if c.sch ≠ 0 then some 0x21
  else if 32 * c.len % 2 ^ blockLog (c.tag % 4) ≠ 0 then some 0x22
  else none

/-! ### Operand fields of the converter, R253 -/

/-- A source that may be no latch. -/
def cvtSource (f : BitVec 7) : Option (Nat × Nat) :=
  if f.toNat = 127 then some (3, 1) else if 116 ≤ f.toNat ∧ f.toNat < 124 then some (3, 0x30) else none

/-- A run: always registers. -/
def cvtRun (f : BitVec 7) : Option (Nat × Nat) :=
  if f.toNat = 127 then some (3, 1) else if 116 ≤ f.toNat then some (3, 0x30) else none

/-! ### Quantising, R255 -/

/-- A value converted to a narrow type with no scheme; a special block by R241. -/
def convertPlain (nt : Nat) (md : Rnd) (sat : Bool) (x : Num × Bool) : Nat × Word :=
  if x.2 then
    (match nt with | 4 => 0x7F | 5 => 0x7E | 6 => 7 | 7 => 0x7F | 8 => 0xFF | 9 => 7 | _ => 0xF, 0)
  else if typeIsInt nt then
    let (lo, hi) := typeRange nt
    let (v, f) := floatToInt md lo hi x.1
    (ofInt (typeWidth nt) v, f)
  else
    let (r, f) := (typeFmt nt).round md sat x.1
    (r, f ||| flagIf x.1.isSig flagNV)

/-- R52 over one scale block with a further magnitude. -/
def e8m0With (nt : Nat) (md : Rnd) (ys : List Num) (other : Num) : List Nat × Nat × Word :=
  if numsBad ys || numsBad [other] then (ys.map fun _ => 0, 255, flagNV)
  else
    let amax := numMaxAbs (other :: ys)
    if amax.isZero then (ys.map fun _ => 0, 127, 0)
    else
      let c := e8m0Scale nt amax
      let es := ys.map (e8m0Elem nt md c)
      (es.map (·.1), c, es.foldl (fun f e => f ||| e.2) 0)

/-- The groups of an asymmetric run: elements, records, flags. -/
def asymRun (nt : Nat) (md : Rnd) : List (List Num) → List Nat × List Nat × Word
  | [] => ([], [], 0)
  | g :: gs =>
    let (d, z, qs, f) := asymGroup nt md g
    let (es, rs, f') := asymRun nt md gs
    (qs.map (fun q => ofInt (typeWidth nt) q) ++ es, asymRecord nt d z :: rs, f ||| f')

/-- Quantises the values of a run: elements, scale words by rank (one word for all ranks under E8M0), flags. -/
def quantise (sch nt gsize : Nat) (md : Rnd) (sat : Bool) (ys : List (Num × Bool)) (other : Num) : List Nat × List Nat × Word :=
  match sch with
  | 0 =>
    let es := ys.map (convertPlain nt md sat)
    (es.map (·.1), [], es.foldl (fun f e => f ||| e.2) 0)
  | 1 =>
    let (es, c, f) := e8m0With nt md (ys.map (·.1)) other
    (es, [c], f)
  | _ => asymRun nt md (chunks gsize ys.length (ys.map (·.1)))

/-- Elements packed in words of 32 bits, lowest first. -/
def packWord (w : Nat) (es : List Nat) : Nat :=
  match es with
  | [] => 0
  | e :: rest => e % 2 ^ w + 2 ^ w * packWord w rest

/-- The word at register i and rank r of a packed run (R242). -/
def packedWord (w : Nat) (es : List Nat) (i r : Nat) : Word :=
  BitVec.ofNat 32 (packWord w ((es.drop ((32 * i + r) * (32 / w))).take (32 / w)))

/-- The element j of a packed run. -/
def unpackElem (w : Nat) (word : Nat → Nat → Word) (j : Nat) : Nat :=
  (word (j * w / 1024) (j * w / 32 % 32)).toNat / 2 ^ (j % (32 / w) * w) % 2 ^ w

/-- Register i of a run at a rank: a rank with no participant reads 0 (R251). -/
def runWord (ps : List (LaneRef × Thread)) (f : BitVec 7) (i r : Nat) : Word :=
  match ps.find? fun p => p.2.rank == r with
  | some p => p.2.reg (p.2.absReg f.toNat + i)
  | none => 0

/-- The FP32 values of a run of registers (R242). -/
def runValues (ps : List (LaneRef × Thread)) (f : BitVec 7) (len : Nat) : List Num :=
  (List.range (32 * len)).map fun j => fp32.value (runWord ps f (j / 32) (j % 32)).toNat

/-! ### The group-wide minors, R251-R258 -/

/-- What a group-wide minor checks of its word and of its runs: registers of the A run and the D run, and of the words
read in the D run. -/
structure CvPlan where
  aRegs : Nat
  dRegs : Nat
  dRead : Option Nat := none
  bad : Option Nat
  deriving DecidableEq, Repr

/-- Writes registers in a lane, latches the first and completes. -/
def Thread.finishRun (t : Thread) (n : Bool) (d : BitVec 7) (vs : List Word) (fl : Word) : Thread :=
  let t1 := if n then t else t.setRegs (t.absReg d.toNat) vs
  ((t1.latchResult false (word64 (vs.headD 0))).raise fl).advance 4

/-- The registers of a lane that a minor reads, checked last: poison. -/
def cvPoison (t : Thread) (a d : BitVec 7) (p : CvPlan) : Option Stop :=
  firstSome [runPoison t a p.aRegs, p.dRead.bind fun i =>
    (sget t.poison (t.absReg d.toNat + i)).map poisonStop]

/-- A group-wide minor: `res` gives each participant its registers from D on and its flags. -/
def groupConvert (n : BitVec 1) (d a b : BitVec 7) (plan : Ccw → CvPlan)
    (res : Ccw → Rnd → Launch → List (LaneRef × Thread) → Thread → List Word × Word) (s : State) : Out :=
  let word := firstSome [cvtSource b, cvtRun a, (Role.dst d).illegal]
  let (s1, r) := s.agree word (some (.r32 d, bit1 n)) [.src64 b]
    (fun t =>
      let v := t.val64 b
      (v, if (lo32 v).toNat / 1024 % 2 = 1 then t.fpctl.toNat % 4 else 0)) 0x10 0x20
  match r with
  | none => .next s1
  | some ((v, rm), ls) =>
    let c := ccwOf (lo32 v) (hi32 v)
    if c.reserved then .next (s1.stopAll ls (.trap 2 0 0 0))
    else
      let p := plan c
      let s2 := (s1.settleRun ls a p.aRegs).settleRun ls d p.dRegs
      let (s3, ps) := s2.screen ls fun t => firstSome [runBeyond t a p.aRegs, runBeyond t d p.dRegs]
      let ls3 := ps.map (·.1)
      let l := s3.issueLaunch
      match p.bad with
      | some sub => .next (s3.stopAll ls3 (.trap 0x11 sub 0 0))
      | none =>
        match halfFault l c.tag false with
        | some f => .next (s3.stopAll ls3 (tagStop f))
        | none =>
          let (s4, qs) := s3.screen ls3 fun t => firstSome [poisonOf t [.src64 b], cvPoison t a d p]
          .next (qs.foldl (fun s q => s.modLane q.1 fun t =>
            let x := res c (rsMode c.rs rm) l qs t
            t.finishRun (bit1 n) d x.1 x.2) s4)

/-- The seed that a control word's tag names. -/
def ccwSeed (l : Launch) (c : Ccw) : Dword := (l.seedAt (c.tag / 4 % 8)).val

/-- What the results of a group-wide minor depend on: the control word, the rounding, the launch, the participants and the lane. -/
abbrev RunResult := Ccw → Rnd → Launch → List (LaneRef × Thread) → Thread → List Word × Word

def qntPlan (c : Ccw) : CvPlan :=
  let o := packedRegs c.nt c.len
  { aRegs := c.len, dRegs := if c.sch = 0 then o else o + 1, dRead := if c.sch = 1 then some o else none, bad := c.badQuant }

/-- The packed elements and the scale word of a lane (R255). -/
def qntResult (a d : BitVec 7) : RunResult := fun c md l ps t =>
  let o := packedRegs c.nt c.len
  let xs := runValues ps a c.len
  let (ys, f) := rotValues false (c.tag % 4) (ccwSeed l c) c.nb xs
  let sins := ps.map fun p => fp32.value (p.2.reg (p.2.absReg d.toNat + o)).toNat
  let other : Num := if c.sch = 1 then (if numsBad sins then .nan false else numMaxAbs sins) else .ofInt 0
  let (es, scales, f') := quantise c.sch c.nt c.group md (rsSat c.rs) ys other
  let run := (List.range o).map fun i => packedWord (typeWidth c.nt) es i t.rank
  (match c.sch with
   | 0 => run
   | 1 => run ++ [BitVec.ofNat 32 (nth scales 0 0)]
   | _ => run ++ [BitVec.ofNat 32 (nth scales t.rank 0)], f ||| f')

/-- R255: quantises a run. -/
def execQnt (n : BitVec 1) (b a d : BitVec 7) : State → Out := groupConvert n d a b qntPlan (qntResult a d)

/-- The exact value of a stored element under a scheme, with its flags (R256). -/
def dequant (sch nt : Nat) (scale : Nat) (e : Nat) : Num × Word :=
  match sch with
  | 0 => let x := elemNum nt e; (x, flagIf x.isSig flagNV)
  | 1 =>
    match e8m0Exp scale with
    | none => (.nan false, 0)
    | some k => let x := elemNum nt e; (x.scale k, flagIf x.isSig flagNV)
  | _ =>
    let (d, z) := asymOfRecord nt scale
    (fp16.value d).mul (.ofInt (elemInt nt e - z))

/-- The scale word that governs element j of a packed run. -/
def scaleWord (c : Ccw) (ps : List (LaneRef × Thread)) (a : BitVec 7) (j : Nat) : Nat :=
  let o := packedRegs c.nt c.len
  if c.sch = 1 then
    match ps.foldl (fun (m : Option Thread) p => match m with
      | none => some p.2
      | some t => if p.2.rank < t.rank then some p.2 else some t) none with
    | some t => (t.reg (t.absReg a.toNat + o)).toNat % 256
    | none => 0
  else (runWord ps a o (j / c.group)).toNat

/-- FP32 results of a run, with flags. -/
def roundRun (md : Rnd) (sat : Bool) (xs : List Num) : List Word × Word :=
  let rs := xs.map fun x => fp32.round md sat x
  (rs.map fun r => BitVec.ofNat 32 r.1, rs.foldl (fun f r => f ||| r.2) 0)

/-- A lane's registers of a run of words by element. -/
def laneRun (ws : List Word) (len rank : Nat) : List Word := (List.range len).map fun i => nth ws (32 * i + rank) 0

def dqntPlan (c : Ccw) : CvPlan :=
  let o := packedRegs c.nt c.len
  { aRegs := if c.sch = 0 then o else o + 1, dRegs := c.len, bad := c.badQuant }

/-- The values of a lane's stored elements (R256). -/
def dqntResult (a : BitVec 7) : RunResult := fun c md l ps t =>
  let w := typeWidth c.nt
  let es := (List.range (32 * c.len)).map fun j =>
    dequant c.sch c.nt (scaleWord c ps a j) (unpackElem w (runWord ps a) j)
  let (xs, f) := rotValues true (c.tag % 4) (ccwSeed l c) c.nb (es.map (·.1))
  let f0 := if c.tag % 4 = 0 then es.foldl (fun f e => f ||| e.2) 0 else 0
  let (ws, f1) := roundRun md (rsSat c.rs) (xs.map (·.1))
  (laneRun ws c.len t.rank, f ||| f0 ||| f1)

/-- R256: dequantises a run. -/
def execDqnt (n : BitVec 1) (b a d : BitVec 7) : State → Out := groupConvert n d a b dqntPlan (dqntResult a)

def qsclPlan (c : Ccw) : CvPlan := { aRegs := c.len, dRegs := 1, dRead := some 0, bad := c.badScale }

/-- The greatest rotated magnitude, or what D holds (R257). -/
def qsclResult (a d : BitVec 7) : RunResult := fun c _ l ps t =>
  let (ys, f) := rotValues false (c.tag % 4) (ccwSeed l c) c.nb (runValues ps a c.len)
  let old := fp32.value (t.val d).toNat
  if numsBad (ys.map (·.1)) then ([0x7FC00000], f &&& flagRB)
  else if numsBad [old] then ([0x7FC00000], 0)
  else
    let (m, f') := fp32.round .rz false (numMaxAbs (ys.map (·.1)))
    let o := (t.val d).toNat % 2 ^ 31
    ([BitVec.ofNat 32 (max m o)], f ||| f')

/-- R257: the running maximum of the rotated magnitudes. -/
def execQscl (n : BitVec 1) (b a d : BitVec 7) : State → Out := groupConvert n d a b qsclPlan (qsclResult a d)

def rotPlan (c : Ccw) : CvPlan := { aRegs := c.len, dRegs := c.len, bad := c.badRot }

/-- The rotated values of a lane; with no tag, its words as they are (R258). -/
def rotResult (inverse : Bool) (a : BitVec 7) : RunResult := fun c md l ps t =>
  if c.tag % 4 = 0 then ((List.range c.len).map fun i => t.reg (t.absReg a.toNat + i), 0)
  else
    let (ys, f) := rotValues inverse (c.tag % 4) (ccwSeed l c) c.nb (runValues ps a c.len)
    let (ws, f') := roundRun md (rsSat c.rs) (ys.map (·.1))
    (laneRun ws c.len t.rank, f ||| f')

/-- R258: the forward rotation of a run. -/
def execRot (n : BitVec 1) (b a d : BitVec 7) : State → Out := groupConvert n d a b rotPlan (rotResult false a)

/-- R258: the inverse rotation of a run. -/
def execIrot (n : BitVec 1) (b a d : BitVec 7) : State → Out := groupConvert n d a b rotPlan (rotResult true a)

/-! ### cvt, R254 -/

/-- Whether a type takes a pair. -/
def typePair (c : Nat) : Bool := c == 0 || c == 12

/-- The source bits of an element in a lane. -/
def cvtBits (t : Thread) (wt : Nat) (a : BitVec 7) : Nat :=
  (if typePair wt then (t.val64 a).toNat else (t.val a).toNat) % 2 ^ typeWidth wt

def cvtDst (nt : Nat) (d : BitVec 7) : Dst := if typePair nt then .r64 d else .r32 d

def cvtSrc (wt : Nat) (a : BitVec 7) : Role := if typePair wt then .src64 a else .src a

/-- The checks of `cvt`: its control word once it can be read, then its fields in the order of R26. It may read latches
(R253). -/
def cvtCheck (t : Thread) (d a b : BitVec 7) : Option Stop :=
  let c := ccwOf (t.val b) 0
  let readable := (check t [.src b]).isNone
  if readable && (c.reserved || c.tag != 0) then some (.trap 2 0 0 0)
  else
    let roles := [Role.src b, cvtSrc (if readable then c.wt else 1) a, (cvtDst (if readable then c.nt else 1) d).role]
    match checkFields t roles with
    | some e => some e
    | none => if readable && c.sch ≠ 0 then some (.trap 0x11 0x21 0 0) else check t roles

/-- The result of `cvt` in a lane that has passed its checks; where it reads no latch it becomes the replay PC, with the
width of its target (04 R83). -/
def cvtLane (t : Thread) (n : BitVec 1) (d a b : BitVec 7) : Thread :=
  let c := ccwOf (t.val b) 0
  let r := convertElem c.wt c.nt (rsMode c.rs (t.fpctl.toNat % 4)) (rsSat c.rs) (cvtBits t c.wt a)
  let reads := readsLatch [.src b, cvtSrc c.wt a]
  let t1 := t.finish 4 (cvtDst c.nt d) (bit1 n) reads (BitVec.ofNat 64 r.1) r.2
  if reads then t1 else { t1 with anchorPair := typePair c.nt }

/-- Where the anchor of a `cvt` goes. -/
def Thread.anchorDst (t : Thread) (d : BitVec 7) : Dst := if t.anchorPair then .r64 d else .r32 d

/-- R254: converts one element per lane. -/
def execCvt (n : BitVec 1) (b a d : BitVec 7) (s : State) : Out :=
  .next (s.lanes fun s l t0 =>
    let s1 := s.settleRoles l t0 [.src b, .src64 a, .dst64 d]
    let t := (s1.lane? l).getD t0
    if t.atAnchor then
      match t.anchorLane 4 (t.anchorDst d) (bit1 n) with
      | .ok t' => (s1.setLane l t', none)
      | .error e => (s1, some e)
    else
      match cvtCheck t d a b with
      | some e => (s1, some e)
      | none => (s1.setLane l (cvtLane t n d a b), none))

/-! ### Seeds and tags, R259-R261 -/

/-- Field checks of the table minors, then those of the roles; a fault of the slot ranks before a poisoned register (01 R26). -/
def tableLane (dst : Dst) (n : BitVec 1) (a : BitVec 7) (roles : List Role) (f : State → LaneRef → Thread → State × Except Stop Dword)
    (s : State) : Out :=
  .next (s.lanes fun s l t0 =>
    let s1 := s.settleRoles l t0 (dst.role :: roles)
    let t := (s1.lane? l).getD t0
    if t.atAnchor then
      match t.anchorLane 4 dst (bit1 n) with
      | .ok t' => (s1.setLane l t', none)
      | .error e => (s1, some e)
    else
      match firstSome [cvtSource a, dst.role.illegal] with
      | some c => (s1, some (plainStop c))
      | none =>
        match check t (dst.role :: roles) with
        | some e =>
          (s1, match checkFields t (dst.role :: roles), (f s1 l t).2 with
            | none, .error x => firstRanked [some x, some e]
            | _, _ => some e)
        | none =>
          match f s1 l t with
          | (s2, .error e) => (s2, some e)
          | (s2, .ok v) => (s2.modLane l fun t => t.finish 4 dst (bit1 n) false v 0, none))

/-- Writes a slot of the package's seed table for the block's launch. -/
def State.writeSeed (s : State) (k : Nat) (x : Seed) : State :=
  match s.block? s.issue.core s.issue.blk with
  | none => s
  | some b => s.modLaunch b.launch fun l =>
      { l with seeds := (List.range 8).map fun i => if i = k then x else l.seedAt i }

/-- The generation after one write (01 R17). -/
def nextGen (g : Nat) : Nat := if 255 ≤ g then 1 else g + 1

/-- R259: writes a slot and raises its generation. -/
def execSeed (n : BitVec 1) (k : BitVec 3) (a d : BitVec 7) : State → Out :=
  tableLane (.r32 d) n a [.src64 a] fun s l t =>
    if l.helper then (s, .ok 0)
    else
      let g := nextGen (s.issueLaunch.seedAt k.toNat).gen
      (s.writeSeed k.toNat ⟨t.val64 a, g⟩, .ok (BitVec.ofNat 64 g))

/-- R259: writes a slot with the generation in D. -/
def execSeedr (n : BitVec 1) (k : BitVec 3) (a d : BitVec 7) : State → Out :=
  tableLane (.r32 d) n a [.src64 a, .rw d 1] fun s l t =>
    if l.helper then (s, .ok 0)
    else
      let g := (t.val d).toNat % 256
      (s.writeSeed k.toNat ⟨t.val64 a, g⟩, .ok (BitVec.ofNat 64 g))

/-- A half with its slot's current generation (R260). -/
def tagHalf (l : Launch) (h : Nat) : Nat :=
  if h % 4 = 0 then 0 else h % 32 + 256 * ((l.seedAt (h / 4 % 8)).gen % 256)

/-- R260: a tag with the current generations. -/
def execTagmk (n : BitVec 1) (a d : BitVec 7) : State → Out :=
  tableLane (.r32 d) n a [.src a] fun s _ t =>
    let x := (t.val a).toNat
    let l := s.issueLaunch
    (s, .ok (BitVec.ofNat 64 (tagHalf l (x % 65536) + 65536 * tagHalf l (x / 65536))))

/-- R261: g(seed(k), A). -/
def execSgen (n : BitVec 1) (k : BitVec 3) (a d : BitVec 7) : State → Out :=
  tableLane (.r64 d) n a [.src64 a] fun s _ t =>
    let sd := s.issueLaunch.seedAt k.toNat
    if sd.gen = 0 then (s, .error (.trap 0x12 1 0 (BitVec.ofNat 32 (4 * k.toNat)))) else (s, .ok (rotGen sd.val (t.val64 a)))

end Sys2Proof.Machine
end

