-- ==== Sys2Proof/Machine/LoadStore.lean ====
section
/-! DEFINITION. The load-store unit, the atomic aggregator and the fences (06 R124-R138, R151-R163). -/

namespace Sys2Proof.Machine

open Sys2Proof

/-! ### Addresses -/

/-- The address of an access: the pair A and a scaled displacement, mod 2^64 (R127). -/
def lsuAddr (t : Thread) (a : BitVec 7) (q : BitVec 4) (scale : Nat) : Nat :=
  (t.val64 a + q.signExtend 64 * BitVec.ofNat 64 scale).toNat

/-- An instruction whose word is reserved or unlisted stops in every lane; else it goes on. -/
def wordCheck (c : Option (Nat × Nat)) (go : State → Out) (s : State) : Out :=
  match c with
  | some x => .next (s.trapPath x.1 x.2 0 0)
  | none => go s

/-- Holds a lane whose count of outstanding stores is at its limit (R137); else it goes on. -/
def counted (f : State → LaneRef → Thread → LaneOut) (s : State) (l : LaneRef) (t : Thread) : LaneOut :=
  if t.full && !l.helper then (s.setLane l (t.hold (.held .stores)), none) else f s l t

/-! ### Loads, R124-R131 -/

/-- The reserved orders and scopes of LD (R124). -/
def ldWord (o : BitVec 2) (sc : BitVec 3) : Option (Nat × Nat) :=
  if o.toNat = 3 ∨ 5 < sc.toNat ∨ (sc.toNat = 5 ∧ o.toNat = 0) then some (2, 0) else none

/-- The destination role of a load of n bytes. -/
def loadRole (v : BitVec 7) (n : Nat) : Role := if n = 16 then .dstq v else if n = 8 then .dst64 v else .dst v

/-- The words that loaded bytes give the destination registers (R125). -/
def widen (signed : Bool) (bs : List Byte) : List Word :=
  let n := bs.length
  if n ≤ 4 then [BitVec.ofInt 32 (if signed then toSigned (8 * n) (natOf bs) else (natOf bs : Int))]
  else (List.range (n / 4)).map fun i => wordOf ((bs.drop (4 * i)).take 4)

/-- The lanes in which an LD issues: not those in which it begins a replay. -/
def State.ldLanes (s : State) (roles : List Role) : List LaneRef :=
  s.liveLanes.filter fun l => ((s.lane? l).map fun t => checkEntry t roles != some .replay).getD false

/-- Whether this LD is sampled (19 R440), with its count and the marks of its threads: its lowest lane that is no helper. One
that only begins replays has not issued. -/
def State.sampling (s : State) (roles : List Role) : State × Option LaneRef :=
  let live := s.ldLanes roles
  if live = [] then (s, none)
  else
  let k := s.coreAt s.issue.core
  let ss := (s.winAt traceBase).toNat / 2 % 32
  let s1 := s.setCore s.issue.core { k with ldCount := k.ldCount + 1 }
  let marked := live.any fun l => ((s1.lane? l).map (·.tsmp)).getD false
  let s2 := if marked then live.foldl (fun s l => s.modLane l fun t => { t with tsmp := false }) s1 else s1
  (s2, if marked ∨ (ss ≠ 0 ∧ (k.ldCount + 1) % 2 ^ ss = 0) then live.head? else none)

/-- One lane of a load: a helper's registers become 0; a thread's data is on its way. -/
def State.loadLane (s : State) (smp : Option LaneRef) (n : Nat) (signed : Bool) (q : BitVec 4) (sc o : Nat) (a v : BitVec 7) (l : LaneRef)
    (t : Thread) : LaneOut :=
  let late := poisonOf t [.src64 a]
  let r := t.absReg v.toNat
  if l.helper then (s.setLane l ((t.setRegs r (widen signed (List.replicate n 0))).advance 4), none)
  else
    let w := s.who l
    let va := lsuAddr t a q n
    if va % n ≠ 0 then (s, some (memStop va n false false (8, 1)))
    else
      match s.lateAccess w va n .r false (sizedAt sc) fun _ => late with
      | (s1, .error e) => (s1, some e)
      | (s1, .ok p) =>
        let x : Option Sample := if smp = some l then some ⟨va, s1.levelOf w p n sc, s1.cycle⟩ else none
        let (s2, bs, bad) := s1.loadAs w p n o sc
        let ld : Load := ⟨s2.nextId, w, numberFrom r (widen signed bs), ⟨BitVec.ofNat 64 va, t.pc⟩, bad, lineOf p.pa, x⟩
        let s3 := ({ s2 with loads := s2.loads ++ [ld] } : State).fresh
        (s3.advanceLane l, none)

/-- A load. -/
def loadOp (n : Nat) (signed : Bool) (q : BitVec 4) (sc : BitVec 3) (o : BitVec 2) (a v : BitVec 7) : State → Out :=
  wordCheck (ldWord o sc) fun s =>
    let roles := [loadRole v n, .src64 a]
    let (s0, smp) := s.sampling roles
    memoryOp roles (fun s l t => s.loadLane smp n signed q sc.toNat o.toNat a v l t) s0

/-- R125: byte, zero-extended. -/
def execLdN8 (q : BitVec 4) (sc : BitVec 3) (o : BitVec 2) (a v : BitVec 7) : State → Out := loadOp 1 false q sc o a v
/-- R125: byte, sign-extended. -/
def execLdS8 (q : BitVec 4) (sc : BitVec 3) (o : BitVec 2) (a v : BitVec 7) : State → Out := loadOp 1 true q sc o a v
/-- R125: halfword, zero-extended. -/
def execLdN16 (q : BitVec 4) (sc : BitVec 3) (o : BitVec 2) (a v : BitVec 7) : State → Out := loadOp 2 false q sc o a v
/-- R125: halfword, sign-extended. -/
def execLdS16 (q : BitVec 4) (sc : BitVec 3) (o : BitVec 2) (a v : BitVec 7) : State → Out := loadOp 2 true q sc o a v
/-- R125: word. -/
def execLdB32 (q : BitVec 4) (sc : BitVec 3) (o : BitVec 2) (a v : BitVec 7) : State → Out := loadOp 4 false q sc o a v
/-- R125: doubleword into a pair. -/
def execLdB64 (q : BitVec 4) (sc : BitVec 3) (o : BitVec 2) (a v : BitVec 7) : State → Out := loadOp 8 false q sc o a v
/-- R125: 16 bytes into a quad. -/
def execLdB128 (q : BitVec 4) (sc : BitVec 3) (o : BitVec 2) (a v : BitVec 7) : State → Out := loadOp 16 false q sc o a v

/-- A line brought into the caches that may hold it; stage memory has none. -/
def State.prefetch (s : State) (core : Nat) (p : Place) : State :=
  if s.inL1 p 0 then s.fill core (lineOf p.pa) false
  else if stageBase ≤ p.pa then s
  else (s.touchHome (lineOf p.pa)).1

/-- The first byte of the line that holds an address. -/
def lineStart (va : Nat) : Nat := va / 128 * 128

/-- R125, R127: brings a line into the L1 and the L2, or into the L2 alone where no L1 holds its page; a lane whose check
fails does nothing. -/
def execPrf (q : BitVec 4) (a : BitVec 7) : State → Out :=
  stateOp [.src64 a] fun s l t =>
    if l.helper then (s.advanceLane l, none)
    else
      let w := s.who l
      match s.access w (lineStart (lsuAddr t a q 128)) 128 .r false unsized with
      | (s1, .error _) => (s1.advanceLane l, none)
      | (s1, .ok p) =>
        let s2 := s1.settleLine w (lineOf p.pa)
        ((s2.prefetch w.core p).advanceLane l, none)

/-! ### Stores, R126, R131-R133 -/

/-- The reserved orders and scopes of ST. -/
def stWord (o : Nat) (sc : BitVec 3) : Option (Nat × Nat) := if o = 3 ∨ 4 < sc.toNat then some (2, 0) else none

/-- The role and the bytes of a store's data. -/
def storeRole (v : BitVec 7) (n : Nat) : Role := if n = 16 then .quad v else if n = 8 then .src64 v else .src v

def storeData (t : Thread) (v : BitVec 7) (n : Nat) : List Byte :=
  if n = 16 then (t.regRun (t.absReg v.toNat) 4).flatMap wordBytes
  else if n = 8 then leOf 8 (t.val64 v).toNat
  else leOf n (t.val v).toNat

/-- One lane of a store of bytes at an address; `late` is the stop of a poisoned operand. -/
def State.storeLane (s : State) (va : Nat) (bs : List Byte) (o sc : Nat) (late : Option Stop) (l : LaneRef) : LaneOut :=
  let n := bs.length
  let w := s.who l
  if l.helper then (s.advanceLane l, none)
  else if va % n ≠ 0 then (s, some (memStop va n true false (8, 1)))
  else
    match s.lateAccess w va n .w false (if n = 128 then unsized else sizedAt sc) fun _ => late with
    | (s1, .error e) => (s1, some e)
    | (s1, .ok p) => ((s1.storeAs w p bs o sc).advanceLane l, none)

/-- A store. -/
def storeOp (n : Nat) (q : BitVec 4) (sc : BitVec 3) (o : BitVec 2) (a v : BitVec 7) : State → Out :=
  wordCheck (stWord o.toNat sc) (memoryOp [storeRole v n, .src64 a] (counted fun s l t =>
    s.storeLane (lsuAddr t a q n) (storeData t v n) o.toNat sc.toNat (poisonOf t [storeRole v n, .src64 a]) l))

/-- R126: V[7:0]. -/
def execStB8 (q : BitVec 4) (sc : BitVec 3) (o : BitVec 2) (a v : BitVec 7) : State → Out := storeOp 1 q sc o a v
/-- R126: V[15:0]. -/
def execStB16 (q : BitVec 4) (sc : BitVec 3) (o : BitVec 2) (a v : BitVec 7) : State → Out := storeOp 2 q sc o a v
/-- R126: V. -/
def execStB32 (q : BitVec 4) (sc : BitVec 3) (o : BitVec 2) (a v : BitVec 7) : State → Out := storeOp 4 q sc o a v
/-- R126: the pair. -/
def execStB64 (q : BitVec 4) (sc : BitVec 3) (o : BitVec 2) (a v : BitVec 7) : State → Out := storeOp 8 q sc o a v
/-- R126: the quad. -/
def execStB128 (q : BitVec 4) (sc : BitVec 3) (o : BitVec 2) (a v : BitVec 7) : State → Out := storeOp 16 q sc o a v

/-- The size records of a line cleared (R149). -/
def State.clearSectors (s : State) (ln : Nat) : State := { s with sectors := s.sectors.filter fun p => p.1 / 8 != ln }

/-- R126: 128 zero bytes to a line; it clears the size records. -/
def execZline (q : BitVec 4) (sc : BitVec 3) (o : BitVec 1) (a : BitVec 7) : State → Out :=
  wordCheck (stWord o.toNat sc) (memoryOp [.src64 a] (counted fun s l t =>
    let va := lsuAddr t a q 128
    match s.storeLane va (List.replicate 128 0) o.toNat sc.toNat (poisonOf t [.src64 a]) l with
    | (s1, none) =>
      if l.helper then (s1, none)
      else
        match s1.translate (s1.ctxOf s1.issue.core s1.issue.blk) va .w with
        | (s2, .ok p) => (s2.clearSectors (lineOf p.pa), none)
        | (s2, .error _) => (s2, none)
    | r => r))

/-- `cwb` and `cinv`: the line is written back, and dropped by `cinv`. -/
def cleanLine (drop : Bool) (q : BitVec 4) (a : BitVec 7) : State → Out :=
  memoryOp [.src64 a] (counted fun s l t =>
    if l.helper then (s.advanceLane l, none)
    else
      let w := s.who l
      let va := lsuAddr t a q 128
      match s.access w (lineStart va) 128 .r false unsized, poisonOf t [.src64 a] with
      | (s1, .error (.trap c sub _ det)), _ => (s1, some (.trap c sub (BitVec.ofNat 64 va) det))
      | (s1, .error e), _ => (s1, some e)
      | (s1, .ok _), some e => (s1, some e)
      | (s1, .ok p), none =>
        let s2 := s1.settleLine w (lineOf p.pa)
        let s3 := if drop then s2.dropLine w.core (lineOf p.pa) else s2
        ((s3.addStore w (.line (lineOf p.pa)) 0).advanceLane l, none))

/-- R133: writes back a line and keeps it. -/
def execCwb (q : BitVec 4) (a : BitVec 7) : State → Out := cleanLine false q a

/-- R133: writes back a line and drops it. -/
def execCinv (q : BitVec 4) (a : BitVec 7) : State → Out := cleanLine true q a

/-! ### Fences and counts, R135-R138 -/

/-- R136: a release, an acquire, which completes the thread's earlier reads, or both; `.sc` performs all that the thread has
issued. A scope above 4 is reserved. -/
def execFence (r : BitVec 2) (sc : BitVec 3) : State → Out :=
  wordCheck (if 4 < sc.toNat then some (2, 0) else none) (stateOp [] fun s l _ =>
    if l.helper then (s.advanceLane l, none)
    else
      let w := s.who l
      let s1 := if r.toNat = 1 then s.settleAtomics w else s.releaseAt w sc.toNat
      let s2 := if r.toNat = 0 then s1.settleAll w else s1
      let s3 := if r.toNat = 2 then s2 else s2.acquireAt w sc.toNat
      (s3.advanceLane l, none))

/-- R137: waits until `osc` is at most n. -/
def execOswait (n : BitVec 12) : State → Out :=
  stateOp [] fun s l t =>
    if l.helper ∨ t.osc ≤ n.toNat then (s.setLane l (t.advance 4), none) else (s.setLane l (t.hold (.oswait n.toNat)), none)

/-- The lines of an rcflush that have a translation with R, by physical line (R138), or the address of the first whose
walk meets uncorrectable data (R119). -/
def State.flushLines (s : State) (c : VCtx) (va : Nat) : Nat → State × Except Nat (List Nat)
  | 0 => (s, .ok [])
  | k + 1 =>
    match s.translate c (va % 2 ^ 64) .r with
    | (s1, .error f) => if f.1 = 0x0D then (s1, .error (va % 2 ^ 64)) else s1.flushLines c (va + 128) k
    | (s1, .ok p) =>
      match s1.flushLines c (va + 128) k with
      | (s2, .ok ls) => (s2, .ok (lineOf p.pa :: ls))
      | r => r

/-- R138: evicts the lines from the reducing cache. -/
def execRcflush (k : BitVec 12) (a : BitVec 7) : State → Out :=
  stateOp [.src64 a] (counted fun s l t =>
    if l.helper then (s.advanceLane l, none)
    else
      let w := s.who l
      match s.flushLines (s.ctxOf w.core w.blk) (lineStart (t.val64 a).toNat) (k.toNat + 1) with
      | (s1, .error va) => (s1, some (memStop va 128 false false (0x0D, 2)))
      | (s1, .ok ls) => ((s1.addStore w (.flush ls) 0).advanceLane l, none))

/-! ### Atomics, R151-R158 -/

/-- The fate of an atomic's word: unlisted, then reserved (R151). -/
def atWord (op ty o sc : Nat) : Option (Nat × Nat) :=
  if (atomWidth op ty).isNone then some (1, 0)
  else if 5 < sc ∨ (sc = 5 ∧ o % 2 = 0) ∨ (op = 19 ∧ o = 2) then some (2, 0)
  else none

/-- Operand registers that an atomic reads. -/
def atomReads (op k : Nat) : Nat := if op = 15 ∨ op = 16 ∨ op = 19 then 0 else if op = 9 then 2 * k else k

/-- The roles of an atomic's operand (R153): where it is written, read, and how far it reaches. -/
def atomRoles (op ty : Nat) (a v : BitVec 7) : List Role :=
  let w := (atomWidth op ty).getD 4
  [loadRole v w, .src64 a, .also v (max (atomRegs op ty) (atomReads op (w / 4)))] ++
    (if atomReads op (w / 4) = 0 then [] else [.rw v (atomReads op (w / 4))])

/-- Whether an atomic is performed in the core's L1 (R158). -/
def atomInL1 (scope : Nat) (s : State) (p : Place) : Bool :=
  decide (scope ≤ 1) && !p.nl && (match s.kind p.pa with | .hbm _ => true | .cxl _ => true | _ => false)

/-- An operation that the memory does not support (R158, R163). -/
def unsupported (s : State) (p : Place) (fp wide : Bool) : Bool := s.kind p.pa == .host && (fp || wide)

/-- A lane of an atomic or a reduction: address, place, operands. -/
structure AtLane where
  lane : LaneRef
  va : Nat
  place : Place
  v : Nat
  v2 : Nat
  deriving DecidableEq, Repr

/-- The checks of one lane of an atomic or a reduction of n bytes with operands of w bytes. -/
def State.enterAtom (s : State) (n w : Nat) (need : Need) (sized : State → Place → Bool) (fp : Bool) (a v : BitVec 7)
    (late : Option Stop) (l : LaneRef) (t : Thread) : State × Except Stop AtLane :=
  let va := (t.val64 a).toNat
  let stop (f : Nat × Nat) : Stop := memStop va n need.writes true f
  if va % n ≠ 0 then (s, .error (stop (8, 1)))
  else
    match s.lateAccess (s.who l) va n need true sized fun p =>
        if unsupported s p fp (w == 16) then some (stop (0x0E, 1)) else late with
    | (s1, .error e) => (s1, .error e)
    | (s1, .ok p) =>
      let vs : List Word :=
        if w = 4 then [t.val v, t.reg (t.absReg v.toNat + 1)]
        else if w = 8 then [lo32 (t.val64 v), hi32 (t.val64 v)] ++ t.regRun (t.absReg v.toNat + 2) 2
        else t.regRun (t.absReg v.toNat) 8
      let value (ws : List Word) : Nat := natOf (ws.flatMap wordBytes)
      (s1, .ok ⟨l, va, p, value (vs.take (w / 4)), value (vs.drop (w / 4))⟩)

/-- Every lane of the path checked: helpers pass on with no effect, faulting lanes stop, held lanes wait. -/
def State.enterAtoms (s : State) (roles : List Role) (n w : Nat) (need : Need) (sized : State → Place → Bool) (fp hold : Bool)
    (a v : BitVec 7) : State × List AtLane :=
  s.issue.lanes.foldl (fun (acc : State × List AtLane) l =>
    match acc.1.lane? l with
    | none => acc
    | some t0 =>
      let s1 := acc.1.settleRoles l t0 roles
      let t := (s1.lane? l).getD t0
      match checkEntry t roles with
      | some e => (s1.stopLane l e, acc.2)
      | none =>
        if l.helper then (s1.advanceLane l, acc.2)
        else if hold && t.full then (s1.setLane l (t.hold (.held .stores)), acc.2)
        else
          match s1.enterAtom n w need sized fp a v (poisonOf t roles) l t with
          | (s2, .error e) => (s2.stopLane l e, acc.2)
          | (s2, .ok x) => (s2, acc.2 ++ [x])) (s, [])

/-- The distinct addresses of lanes, in order of their first lane. -/
def addresses (ls : List AtLane) : List Nat := (ls.map (·.va)).eraseDups

/-- Sends the request of one address (R155), for which its home fetches the line (18 R422). With acquire semantics it is performed
before any later access; one that races with an access of another size is performed at once, and leaves the bytes that they share
undefined (R148). -/
def State.sendAtomic (s : State) (op ty o sc : Nat) (v : BitVec 7) (pc : Dword) (ls : List AtLane) : State :=
  match ls with
  | [] => s
  | x :: _ =>
    let s1 := ls.foldl (fun s y =>
      let w := s.who y.lane
      let s1 := if 2 ≤ o then s.releaseAt w (if sc = 5 then 3 else sc) else s
      let s2 := if o = 3 then s1.settleAll w else s1
      s2.settleLine w (lineOf y.place.pa)) s
    let inL1 := atomInL1 sc s1 x.place
    let s2 := if inL1 then s1.own s1.issue.core (lineOf x.place.pa)
              else if sc = 5 ∧ !decide (stageBase ≤ x.place.pa) ∧ !(s1.kind x.place.pa).isPeer then
                s1.promote s1.issue.core (lineOf x.place.pa)
              else s1
    let lanes := ls.map fun y => (y.lane.idx, ((s2.lane? y.lane).map fun t => t.absReg v.toNat), y.v, y.v2)
    let w := (atomWidth op ty).getD 4
    let n := if op = 17 ∨ op = 18 then 2 * w else w
    let races := if o = 0 then ls.flatMap fun y => s2.racing { who := s2.who y.lane, lo := x.place.pa, n := n, write := op != 19 } else []
    let s2' := if o = 0 then ls.foldl (fun s y => s.meet (s.who y.lane) x.place.pa n (op != 19)) s2 else s2
    let home := if inL1 then (s2', false) else s2'.homeLine (lineOf x.place.pa)
    let req : Atomic := { id := home.1.nextId, core := s2.issue.core, blk := s2.issue.blk, op := op, ty := ty, pa := x.place.pa,
                          inL1 := inL1, lanes := lanes, va := x.va, pc := pc, bad := home.2 }
    let s3 := ({ home.1 with atomics := home.1.atomics ++ [req] } : State).fresh
    if o % 2 = 1 then ls.foldl (fun s y => s.acquireAt (s.who y.lane) (if sc = 5 then 3 else sc)) (s3.performAtomic req)
    else if races = [] then s3
    else races.eraseDups.foldl (fun s x => s.freeAt x) (s3.performAtomic req)

/-- An atomic (R151-R158): checks, one request per address, then the lanes go on. -/
def atomOp (op : Nat) (ty : BitVec 2) (sc : BitVec 3) (o : BitVec 2) (a v : BitVec 7) : State → Out :=
  wordCheck (atWord op ty.toNat o.toNat sc.toNat) fun s =>
    let w := (atomWidth op ty.toNat).getD 4
    let n := if op = 17 ∨ op = 18 then 2 * w else w
    let fp := decide (10 ≤ op) && decide (op ≤ 12)
    let (s1, ls) := s.enterAtoms (atomRoles op ty.toNat a v) n w (if op = 19 then .r else .rw)
      (fun s p => !atomInL1 sc.toNat s p) fp false a v
    let s2 := (addresses ls).foldl (fun s va =>
      s.sendAtomic op ty.toNat o.toNat sc.toNat v s.issue.pc (ls.filter fun x => x.va == va)) s1
    .next (ls.foldl (fun s x => s.advanceLane x.lane) s2)

/-- R152: sum. -/
def execAtomAdd (ty : BitVec 2) (sc : BitVec 3) (o : BitVec 2) (a v : BitVec 7) : State → Out := atomOp 0 ty sc o a v
/-- R152: signed minimum. -/
def execAtomMinS (ty : BitVec 2) (sc : BitVec 3) (o : BitVec 2) (a v : BitVec 7) : State → Out := atomOp 1 ty sc o a v
/-- R152: signed maximum. -/
def execAtomMaxS (ty : BitVec 2) (sc : BitVec 3) (o : BitVec 2) (a v : BitVec 7) : State → Out := atomOp 2 ty sc o a v
/-- R152: unsigned minimum. -/
def execAtomMinN (ty : BitVec 2) (sc : BitVec 3) (o : BitVec 2) (a v : BitVec 7) : State → Out := atomOp 3 ty sc o a v
/-- R152: unsigned maximum. -/
def execAtomMaxN (ty : BitVec 2) (sc : BitVec 3) (o : BitVec 2) (a v : BitVec 7) : State → Out := atomOp 4 ty sc o a v
/-- R152: and. -/
def execAtomAnd (ty : BitVec 2) (sc : BitVec 3) (o : BitVec 2) (a v : BitVec 7) : State → Out := atomOp 5 ty sc o a v
/-- R152: or. -/
def execAtomOr (ty : BitVec 2) (sc : BitVec 3) (o : BitVec 2) (a v : BitVec 7) : State → Out := atomOp 6 ty sc o a v
/-- R152: xor. -/
def execAtomXor (ty : BitVec 2) (sc : BitVec 3) (o : BitVec 2) (a v : BitVec 7) : State → Out := atomOp 7 ty sc o a v
/-- R152: exchange. -/
def execAtomXchg (ty : BitVec 2) (sc : BitVec 3) (o : BitVec 2) (a v : BitVec 7) : State → Out := atomOp 8 ty sc o a v
/-- R152: compare and swap. -/
def execAtomCas (ty : BitVec 2) (sc : BitVec 3) (o : BitVec 2) (a v : BitVec 7) : State → Out := atomOp 9 ty sc o a v
/-- R152, R156: floating-point sum. -/
def execAtomFadd (ty : BitVec 2) (sc : BitVec 3) (o : BitVec 2) (a v : BitVec 7) : State → Out := atomOp 10 ty sc o a v
/-- R152: floating-point minimum. -/
def execAtomFmin (ty : BitVec 2) (sc : BitVec 3) (o : BitVec 2) (a v : BitVec 7) : State → Out := atomOp 11 ty sc o a v
/-- R152: floating-point maximum. -/
def execAtomFmax (ty : BitVec 2) (sc : BitVec 3) (o : BitVec 2) (a v : BitVec 7) : State → Out := atomOp 12 ty sc o a v
/-- R152: bounded increment. -/
def execAtomBinc (ty : BitVec 2) (sc : BitVec 3) (o : BitVec 2) (a v : BitVec 7) : State → Out := atomOp 13 ty sc o a v
/-- R152: wrapping increment. -/
def execAtomWinc (ty : BitVec 2) (sc : BitVec 3) (o : BitVec 2) (a v : BitVec 7) : State → Out := atomOp 14 ty sc o a v
/-- R152: unsigned decrement that stops at 0. -/
def execAtomDdecN (ty : BitVec 2) (sc : BitVec 3) (o : BitVec 2) (a v : BitVec 7) : State → Out := atomOp 15 ty sc o a v
/-- R152: signed decrement that stops at 0. -/
def execAtomDdecS (ty : BitVec 2) (sc : BitVec 3) (o : BitVec 2) (a v : BitVec 7) : State → Out := atomOp 16 ty sc o a v
/-- R152: unsigned limited add. -/
def execAtomLaddN (ty : BitVec 2) (sc : BitVec 3) (o : BitVec 2) (a v : BitVec 7) : State → Out := atomOp 17 ty sc o a v
/-- R152: signed limited add. -/
def execAtomLaddS (ty : BitVec 2) (sc : BitVec 3) (o : BitVec 2) (a v : BitVec 7) : State → Out := atomOp 18 ty sc o a v
/-- R152: atomic load. -/
def execAtomLd (ty : BitVec 2) (sc : BitVec 3) (o : BitVec 2) (a v : BitVec 7) : State → Out := atomOp 19 ty sc o a v

/-! ### Reductions, R159-R163 -/

/-- The fate of a reduction's word. -/
def rdWord (op ty sc : Nat) : Option (Nat × Nat) :=
  if (redWidth op ty).isNone then some (1, 0) else if 4 < sc then some (2, 0) else none

/-- Combines the operands of one address in lane order (R160). -/
def redJoin (op ty w : Nat) : List AtLane → Nat
  | [] => 0
  | x :: xs => xs.foldl (fun c y => redCombine op ty w c y.v) (redEnter op ty x.v)

/-- Sends the reduction request of one address: each lane's earlier accesses to the line come first (R144), the line leaves
the L1 (R162), the lanes count it. -/
def State.sendRed (s : State) (op ty o sc : Nat) (ls : List AtLane) : State :=
  match ls with
  | [] => s
  | x :: _ =>
    let ln := lineOf x.place.pa
    let s1 := ls.foldl (fun s y =>
      let w := s.who y.lane
      (if o = 1 then s.releaseAt w sc else s).settleLine w ln) s
    let s1' := if o = 0 then ls.foldl (fun s y => s.meet (s.who y.lane) x.place.pa ((redWidth op ty).getD 4) true) s1 else s1
    let s2 := s1'.dropLine s1'.issue.core ln
    let whos := ls.map fun y => s2.who y.lane
    let b := s2.block? s2.issue.core s2.issue.blk
    let l := b.bind fun b => s2.launch? b.launch
    let req : Red := { id := s2.nextId, core := s2.issue.core, whos := whos, op := op, ty := ty, pa := x.place.pa,
                       val := redJoin op ty ((redWidth op ty).getD 4) ls, va := x.va, pc := s2.issue.pc,
                       launch := (b.map (·.launch)).getD 0, queue := (l.map (·.queue)).getD 0, lin := (b.map (·.lin)).getD 0 }
    let s3 := ({ s2 with reds := s2.reds ++ [req] } : State).fresh
    ls.foldl (fun s y => s.addStore (s.who y.lane) (.red req.id) sc) s3

/-- A reduction (R159-R163). -/
def redOp (op : Nat) (ty : BitVec 2) (sc : BitVec 3) (o : BitVec 1) (a v : BitVec 7) : State → Out :=
  wordCheck (rdWord op ty.toNat sc.toNat) fun s =>
    let w := (redWidth op ty.toNat).getD 4
    let (s1, ls) := s.enterAtoms [storeRole v w, .src64 a] w w .w unsized (decide (8 ≤ op)) true a v
    let s2 := (addresses ls).foldl (fun s va => s.sendRed op ty.toNat o.toNat sc.toNat (ls.filter fun x => x.va == va)) s1
    .next (ls.foldl (fun s x => s.advanceLane x.lane) s2)

/-- R159: sum. -/
def execRedAdd (ty : BitVec 2) (sc : BitVec 3) (o : BitVec 1) (a v : BitVec 7) : State → Out := redOp 0 ty sc o a v
/-- R159: signed minimum. -/
def execRedMinS (ty : BitVec 2) (sc : BitVec 3) (o : BitVec 1) (a v : BitVec 7) : State → Out := redOp 1 ty sc o a v
/-- R159: signed maximum. -/
def execRedMaxS (ty : BitVec 2) (sc : BitVec 3) (o : BitVec 1) (a v : BitVec 7) : State → Out := redOp 2 ty sc o a v
/-- R159: unsigned minimum. -/
def execRedMinN (ty : BitVec 2) (sc : BitVec 3) (o : BitVec 1) (a v : BitVec 7) : State → Out := redOp 3 ty sc o a v
/-- R159: unsigned maximum. -/
def execRedMaxN (ty : BitVec 2) (sc : BitVec 3) (o : BitVec 1) (a v : BitVec 7) : State → Out := redOp 4 ty sc o a v
/-- R159: and. -/
def execRedAnd (ty : BitVec 2) (sc : BitVec 3) (o : BitVec 1) (a v : BitVec 7) : State → Out := redOp 5 ty sc o a v
/-- R159: or. -/
def execRedOr (ty : BitVec 2) (sc : BitVec 3) (o : BitVec 1) (a v : BitVec 7) : State → Out := redOp 6 ty sc o a v
/-- R159: xor. -/
def execRedXor (ty : BitVec 2) (sc : BitVec 3) (o : BitVec 1) (a v : BitVec 7) : State → Out := redOp 7 ty sc o a v
/-- R159: floating-point sum. -/
def execRedFadd (ty : BitVec 2) (sc : BitVec 3) (o : BitVec 1) (a v : BitVec 7) : State → Out := redOp 8 ty sc o a v
/-- R159: floating-point minimum. -/
def execRedFmin (ty : BitVec 2) (sc : BitVec 3) (o : BitVec 1) (a v : BitVec 7) : State → Out := redOp 9 ty sc o a v
/-- R159: floating-point maximum. -/
def execRedFmax (ty : BitVec 2) (sc : BitVec 3) (o : BitVec 1) (a v : BitVec 7) : State → Out := redOp 10 ty sc o a v
/-- R159: sum of magnitudes. -/
def execRedFadda (ty : BitVec 2) (sc : BitVec 3) (o : BitVec 1) (a v : BitVec 7) : State → Out := redOp 11 ty sc o a v

/-! ### Events of the memory side -/

/-- R137: a pending store, write-back, reduction or rcflush is performed, and the count falls. -/
def execStorePerformed (id : Nat) (s : State) : Out :=
  match s.stores.find? fun x => x.id == id with
  | some x => .next (s.performStore x)
  | none => .next s

/-- R129: a load's data arrives. -/
def execLoadDataReturn (id : Nat) (s : State) : Out :=
  match s.loads.find? fun x => x.id == id with
  | some x => .next (s.returnLoad x)
  | none => .next s

/-- R155: an aggregated request is performed. -/
def execAtomicPerform (id : Nat) (s : State) : Out :=
  match s.atomics.find? fun x => x.id == id with
  | some x => .next (s.performAtomic x)
  | none => .next s

/-- R131: the L1 writes a line's dirty bytes to the home. -/
def execL1Writeback (core line : Nat) (s : State) : Out :=
  .next ((s.servedFor (coreRequester core) (s.coreLaunch core)).writeBack core line)

/-- R340: a reduction request arrives and merges, after the earlier requests of its core to its line. -/
def execRdcRequestArrive (id : Nat) (s : State) : Out :=
  match s.reds.find? fun x => x.id == id with
  | some x => .next (s.performRed x)
  | none => .next s

end Sys2Proof.Machine
end

