-- ==== Sys2Proof/Machine/Engine.lean ====
section
/-! DEFINITION. What every engine shares: commands and their admission by range locks (01 R22, R23), the checks of
descriptor runs (11 R265), crediting of copy tags (01 R20), and fault records of engines (01 R28). -/

namespace Sys2Proof.Machine

open Sys2Proof

/-! ### Descriptor runs -/

/-- The words of a run of registers from a descriptor field on. -/
def descRun (t : Thread) (d : BitVec 7) (n : Nat) : List Word := t.regRun (t.absReg d.toNat) n

/-- A descriptor field is always a register (11 R265). -/
def descField (d : BitVec 7) : Option (Nat × Nat) := if 116 ≤ d.toNat then some (3, 0x20) else none

/-- A destination in the Cnt field. -/
def cntDest (c : BitVec 7) : Option (Nat × Nat) := if 116 ≤ c.toNat then some (3, 0x21) else none

/-- The checks of n registers of a run that are read: allocation, then poison. -/
def runCheck (t : Thread) (d : BitVec 7) (n : Nat) : Option Stop := firstSome [runBeyond t d n, runPoison t d n]

/-- Settles the loads into a run in one lane. -/
def State.settleLaneRun (s : State) (l : LaneRef) (d : BitVec 7) (n : Nat) : State :=
  match s.lane? l with
  | some t => s.settleRoles l t [.rw d n]
  | none => s

/-- A tag at or above the block's count (01 R19). -/
def State.badTag (s : State) (tag : Nat) : Option (Nat × Nat) :=
  match s.block? s.issue.core s.issue.blk with
  | some b => if b.ntags ≤ tag then some (3, 0) else none
  | none => some (3, 0)

/-- A check that fails, as a stop. -/
def stopIf (c : Bool) (cause sub : Nat) : Option Stop := if c then some (.trap cause sub 0 0) else none

/-- Bytes of a field, as a number. -/
def fieldOf (bs : List Byte) (at_ n : Nat) : Nat := natOf ((bs.drop at_).take n)

/-- Partitions of a part. -/
def Part.stacks : Part → Nat
  | .s8 => 8
  | .s4 => 4

/-- Compute dies of a part. -/
def Part.dies (p : Part) : Nat := p.stacks / 2

/-! ### Commands -/

/-- The address space of a command. -/
def Cmd.ctx (c : Cmd) (s : State) : VCtx := if c.fromBlock then s.ctxOf c.core c.blk else plainCtx c.asid c.root

/-- A command of the lane being executed, with no engine's parts yet. -/
def State.laneCmd (s : State) (l : LaneRef) (t : Thread) (major sub mode tag : Nat) (desc : List Word) : Cmd :=
  let b := s.block? s.issue.core s.issue.blk
  let la := s.issueLaunch
  { id := s.nextId, major := major, sub := sub, mode := mode, tag := tag, core := s.issue.core, blk := s.issue.blk,
    grp := s.issue.grp, thr := l.idx, launch := (b.map (·.launch)).getD 0, queue := la.queue, asid := la.asid, root := la.root,
    cmdId := 0, pc := t.pc, desc := desc, rm := t.fpctl.toNat % 4, lanes := [(l.idx, t.rank)] }

/-- Commands of a core's engine in flight. -/
def State.flying (s : State) (major core : Nat) : Nat := (s.cmds.filter fun p => p.2.major == major && p.2.core == core).length

/-- Copy commands of a core in flight (11 R266). -/
def State.copiesOf (s : State) (core : Nat) : Nat := s.flying 25 core

/-- Gather-scatter commands of a core in flight (12 R285). -/
def State.gathersOf (s : State) (core : Nat) : Nat := s.flying 26 core

/-- Whether a command's engine has room for it: 64 copies, or 32 gather-scatter commands, of a core. -/
def State.roomFor (s : State) (c : Cmd) : Bool :=
  if c.major = 25 then decide (s.copiesOf c.core < 64) else if c.major = 26 then decide (s.gathersOf c.core < 32) else true

/-! ### Rings, 11 R279, R280 -/

/-- A ring as its header stands. -/
structure Ring where
  place : Nat
  ws : Nat
  rs : Nat
  nslot : Nat
  slsz : Nat
  tb : Nat
  deriving DecidableEq, Repr

/-- The place of a ring header, where it lies in stage memory. -/
def ringPlace (c : VCtx) (va : Nat) : Option Nat :=
  if c.hasStage ∧ c.sb ≤ va ∧ va < c.sb + 2 ^ 29 then (stageOf c va).toOption.map (·.pa) else none

/-- Reads and checks a ring header (R279): the ring, or the subcause of its trap. -/
def State.ringAt (s : State) (c : VCtx) (va ntags : Nat) : Except Nat Ring :=
  match ringPlace c va with
  | none => .error 2
  | some pa =>
    let bs := s.bytesAt pa 64
    let f (i : Nat) : Nat := fieldOf bs i 4
    let tb := fieldOf bs 16 1
    if va % 128 ≠ 0 ∨ f 8 = 0 ∨ 4096 < f 8 ∨ f 12 = 0 ∨ f 12 % 128 ≠ 0 ∨ 2 ^ 24 - 128 < f 12 ∨ 128 ≤ tb ∨ ntags ≤ tb % 64
        ∨ (bs.drop 17).any (fun x => x != 0) ∨ f 8 < (f 0 + 2 ^ 32 - f 4) % 2 ^ 32 then .error 1
    else .ok { place := pa, ws := f 0, rs := f 4, nslot := f 8, slsz := f 12, tb := tb }

/-- Filled slots of a ring. -/
def Ring.filled (r : Ring) : Nat := (r.ws + 2 ^ 32 - r.rs) % 2 ^ 32

/-- A ring copy keeps in its `aux` the header's place, 1, the header's address, and the number of its claim. -/
def Cmd.isRing (c : Cmd) : Bool := c.major == 25 && c.sub == 1 && nth c.aux 1 0 == 1

/-- A ring copy that waits for a slot. -/
def Cmd.awaitsSlot (c : Cmd) : Bool := c.isRing && c.slot.isNone

/-- Commands that have claimed a slot of a ring and not landed; one may still wait for its ranges. -/
def State.claimants (s : State) (place : Nat) : List Cmd :=
  (s.cmds.map (·.2) ++ s.waiting).filter fun c => c.isRing && c.slot.isSome && nth c.aux 0 0 == place

/-- Commands of a core that wait for a slot of a ring, with a lower number. -/
def State.ringWaitsBefore (s : State) (core place id : Nat) : Bool :=
  s.cmds.any fun p => p.2.awaitsSlot && p.2.core == core && nth p.2.aux 0 0 == place && decide (p.1 < id)

/-- The slot that the next claim of a ring takes, if there is one. -/
def State.nextSlot (s : State) (r : Ring) : Option Nat :=
  let k := (s.claimants r.place).length
  if r.filled + k < r.nslot then some ((r.ws + k) % 2 ^ 32 % r.nslot) else none

/-- Whether a command is one of the collective's. -/
def Cmd.isColl (c : Cmd) : Bool := c.major == 30 && decide (4 ≤ c.sub) && decide (c.sub ≤ 6)

/-- Whether a command is one of the sort engine's. -/
def Cmd.isKse (c : Cmd) : Bool := c.major == 30 && decide (1 ≤ c.sub) && decide (c.sub ≤ 3)

/-- Whether a command is of a block that pre-emption has stopped (09 R230). -/
def State.stopped (s : State) (c : Cmd) : Bool := c.fromBlock && s.stoppedAt c.core c.blk

/-- The ring and the slot that a ring copy which waits may claim; one whose block is stopped claims none. -/
def State.claimOf (s : State) (c : Cmd) : Option (Ring × Nat) :=
  if !c.awaitsSlot || s.stopped c then none
  else
    match s.ringAt (c.ctx s) (nth c.aux 2 0) (((s.block? c.core c.blk).map (·.ntags)).getD 0) with
    | .error _ => none
    | .ok r => if s.ringWaitsBefore c.core r.place c.id then none else (s.nextSlot r).map fun k => (r, k)

/-- The entries of a ring copy in a slot: that of its tensor, and the slot (R280). -/
def Cmd.slotLocks (c : Cmd) (ctx : VCtx) (slsz slot : Nat) : List Lock :=
  c.locks ++ [lockSpan ctx (nth c.aux 2 0 + 128 + slot * slsz) slsz true true c.id]

/-- Held commands of a block (09 R233): those held for their ticks, the ring copies that wait for a slot, and the collectives that
are not complete, which a pre-emption saves as held commands (17 R411; log entry 9). -/
def State.heldCount (s : State) (core blk : Nat) : Nat :=
  (s.cmds.filter fun p => p.2.fromBlock && p.2.core == core && p.2.blk == blk && (p.2.held || p.2.awaitsSlot || p.2.isColl)).length

/-- Whether a block has sixteen held commands. -/
def State.heldMax (s : State) (core blk : Nat) : Bool := decide (16 ≤ s.heldCount core blk)

/-- Whether a command with a start tick would be a 17th held command of its block. -/
def State.heldFullAt (s : State) (core blk tick : Nat) : Bool := decide (s.now < tick) && s.heldMax core blk

def State.heldFull (s : State) (tick : Nat) : Bool := s.heldFullAt s.issue.core s.issue.blk tick

/-! ### Admission, 01 R23 -/

/-- Whether a command that waits for its ranges may be admitted: not while its block is stopped, unless it is a sort that its
engine has accepted (09 R230). -/
def State.admissible (s : State) (c : Cmd) : Bool := c.isKse || !s.stopped c

/-- Commands that wait for range locks, with their entries: those that wait at issue, and the ring copies that may claim a
slot. -/
def State.lockQueue (s : State) : List (Nat × List Lock) :=
  (s.waiting.filter s.admissible).map (fun c => (c.id, c.locks))
    ++ s.cmds.filterMap fun p => (s.claimOf p.2).map fun x => (p.1, p.2.slotLocks (p.2.ctx s) x.1.slsz x.2)

/-- Whether a command issued earlier waits whose ranges have cleared. -/
def State.heldBack (s : State) (id : Nat) : Bool := s.lockQueue.any fun w => decide (w.1 < id) && s.cleared w.2

/-- Whether entries cannot be registered yet: they conflict, find too little room, or are held back. -/
def State.blocked (s : State) (id : Nat) (ls : List Lock) : Bool :=
  !s.cleared ls || decide (s.freeLocks < ls.length) || s.heldBack id

/-- Whether a command must wait at issue for its entries; one with none, or that waits for a slot, does not. -/
def State.mustWait (s : State) (c : Cmd) : Bool := !c.awaitsSlot && !c.locks.isEmpty && s.blocked c.id c.locks

/-- A command issued: its entries registered, all at once; those of a ring copy that waits for its slot when it claims it. -/
def State.startCmd (s : State) (c : Cmd) : State :=
  { s with locks := if c.awaitsSlot then s.locks else s.locks ++ c.locks, cmds := sput s.cmds c.id c }

/-- Issues a command, or holds its lanes at the instruction until its ranges clear. -/
def State.issueCmd (s : State) (c : Cmd) (ls : List LaneRef) : State :=
  let s0 := s.fresh
  if s0.mustWait c then
    ls.foldl (fun s l => s.modLane l fun t => t.hold .lock) { s0 with waiting := s0.waiting ++ [c] }
  else ls.foldl (fun s l => s.advanceLane l) (s0.startCmd c)

/-- A command of a core by its serial number (11 R271, 12 R298): bits [7:0] of `pcore`, and the serial below. -/
def engineId (core serial : Nat) : Dword := BitVec.ofNat 64 (core % 256 * 2 ^ 56 + serial % 2 ^ 56)

/-- The fault record of an engine command (01 R28). -/
def State.engineRecord (s : State) (c : Cmd) (cause sub addr : Nat) : FaultRec :=
  let lin := if c.fromBlock then ((s.block? c.core c.blk).map (·.lin)).getD (BitVec.allOnes 64) else BitVec.allOnes 64
  { launch := c.launch, lin := lin, thr := 0xFFFF, cause := cause, sub := sub, pc := c.cmdId, adr := BitVec.ofNat 64 addr }

/-- Ends a command: its entries released, its item gone, its last credit on the way. -/
def State.endCmd (s : State) (c : Cmd) (bytes : Nat) : State :=
  let s1 := { (s.unlock c.id) with cmds := sdel s.cmds c.id }
  let s2 := if c.fromBlock && bytes != 0 then s1.sendBytes c.core c.blk c.tag bytes c.cmdId else s1
  s2

/-- R20: engine bytes reach their tag; a block that is not resident gets them when it is. -/
def execEngineBytesArrive (id : Nat) (s : State) : Out :=
  match s.arrivals.find? fun x => x.id == id with
  | none => .next s
  | some a =>
    match s.findLin a.launch a.lin with
    | none => .next s
    | some w =>
      let s1 := ({ s with arrivals := s.arrivals.filter fun x => x.id != id } : State).creditTag w.1 w.2 a
      .next (s1.checkRetire w.1 w.2)

/-- The first fault of a command's elements: index, cause, subcause, address. -/
abbrev ElemFault := Option (Nat × Nat × Nat × Nat)

/-- The fault of the lower element. -/
def firstFault (a b : ElemFault) : ElemFault :=
  match a, b with
  | none, y => y
  | x, none => x
  | some x, some y => if y.1 < x.1 then some y else some x

/-- Engine reads of one element, whole or not at all: its bytes, or its fault. -/
def State.readElem (s : State) (c : VCtx) (va n : Nat) : State × Except (Nat × Nat) (List Byte) :=
  match s.engineReadSpan c va n with
  | (s1, .ok bs) => (s1, .ok bs)
  | (s1, .error e) => (s1, .error (e.1, e.2.1))

/-- Whether an engine can write all of a span: its first fault, with its address. -/
def State.canWrite (s : State) (c : VCtx) (va n : Nat) : State × Except (Nat × Nat × Nat) Unit :=
  (lineCuts (n / 128 + 2) va n).foldl (fun acc cut =>
    match acc with
    | (s, .error e) => (s, .error e)
    | (s, .ok _) =>
      match s.engineTarget c cut.1 with
      | (s1, .error f) => (s1, .error (f.1, f.2, cut.1))
      | (s1, .ok _) => (s1, .ok ())) (s, .ok ())

/-- Engine writes of one element, whole or not at all. -/
def State.writeElem (s : State) (c : VCtx) (va : Nat) (bs : List Byte) : State × Except (Nat × Nat) Unit :=
  if va % 128 + bs.length ≤ 128 then s.engineWrite c va bs
  else
    match s.canWrite c va bs.length with
    | (s1, .error e) => (s1, .error (e.1, e.2.1))
    | (s1, .ok _) => ((s1.engineWriteSpan c va bs).1, .ok ())

/-- A tensor address formed exactly (11 R270): outside 64 bits, or not canonical. -/
def exactAddr (a : Int) : Except (Nat × Nat) Nat :=
  if a < 0 ∨ 2 ^ 64 ≤ a then .error (0x18, 1)
  else if !canonical a.toNat then .error (0x18, 2)
  else .ok a.toNat

/-- The low 64 bits of an exact address, for a record. -/
def addrLow (a : Int) : Nat := (BitVec.ofInt 64 a).toNat

end Sys2Proof.Machine
end

