-- ==== Sys2Proof/Machine/Fixer.lean ====
section
/-! DEFINITION. The fixers: instances, their memory and undo log (14 R344, R345, R359-R361), and the fixer
instructions (R346-R353). -/

namespace Sys2Proof.Machine

open Sys2Proof

/-! ### Words and registers, R344, R346 -/

/-- A fixer word of layout R. -/
def fxR (op d a b c m : Nat) : Nat := op * 2 ^ 26 + d * 2 ^ 21 + a * 2 ^ 16 + b * 2 ^ 11 + c * 64 + m
/-- A fixer word of layout I. -/
def fxI (op d a : Nat) (i : BitVec 16) : Nat := op * 2 ^ 26 + d * 2 ^ 21 + a * 2 ^ 16 + i.toNat
/-- A fixer word of layout L. -/
def fxL (op d a n : Nat) (i : BitVec 11) : Nat := op * 2 ^ 26 + d * 2 ^ 21 + a * 2 ^ 16 + n * 2 ^ 11 + i.toNat

/-- Why an instance faults: cause, subcause, and the address or detail. -/
abbrev FxErr := Nat × Nat × Nat

def FxInst.sreg (i : FxInst) (r : BitVec 5) : Dword := nth i.s r.toNat 0
def FxInst.setS (i : FxInst) (r : BitVec 5) (v : Dword) : FxInst := { i with s := i.s.set r.toNat v }
def FxInst.freg (i : FxInst) (r : Nat) : List Word := nth i.f r []
def FxInst.lane (i : FxInst) (r l : Nat) : Word := nth (i.freg r) l 0
def FxInst.setF (i : FxInst) (r : Nat) (ws : List Word) : FxInst := { i with f := i.f.set r ws }
def FxInst.setRun (i : FxInst) (r : Nat) : List (List Word) → FxInst
  | [] => i
  | w :: ws => (i.setF r w).setRun (r + 1) ws

/-- Goes on to the next word. -/
def FxInst.step (i : FxInst) : FxInst := { i with pc := i.pc + 4 }

/-- A taken branch. -/
def FxInst.jump (i : FxInst) (off : BitVec 16) : FxInst := { i with pc := i.pc + 4 * off.signExtend 64 }

/-- Flags ORed into FF, whose bits are those of R45. -/
def FxInst.raise (i : FxInst) (fl : Word) : FxInst := { i with ff := i.ff ||| (fl &&& 0x7F00) }

/-- An `s` operand of 16 to 31. -/
def badS (word : Nat) (rs : List (BitVec 5)) : Option FxErr := if rs.any fun r => decide (16 ≤ r.toNat) then some (0x30, 2, word) else none

/-- A run of registers that passes f31. -/
def badRun (word : Nat) (rs : List (Nat × Nat)) : Option FxErr :=
  if rs.any fun r => decide (32 < r.1 + r.2) then some (0x30, 0xA, word) else none

/-- The start state of an instance (R344). -/
def freshInst (k : Kernel) (idx : Nat) : FxInst :=
  { index := idx, pc := k.code, s := [BitVec.ofNat 64 idx, 0, 0, 0, 0, 0, 0, 0] ++ (List.range 8).map (fun j => nth k.args j 0)
    f := List.replicate 32 (List.replicate 16 0) }

/-! ### Slices, R360 -/

def Kernel.slice (k : Kernel) (n : Nat) : Nat := k.undo + 128 + n * k.ubytes

/-- Log entries that a slice holds. -/
def Kernel.room (k : Kernel) : Nat := (k.ubytes - 2304) / 128

/-- The registers of a checkpoint: bytes 128 to 2,303 of a slice. -/
def FxInst.regBytes (i : FxInst) : List Byte :=
  i.s.flatMap (fun x => leOf 8 x.toNat) ++ i.f.flatMap fun r => r.flatMap fun w => leOf 4 w.toNat

/-- The address space of a kernel: the queue's, with no stage. -/
def Kernel.ctx (k : Kernel) : VCtx := plainCtx k.asid k.root

/-- The subcause of R365 for a memory fault. -/
def fxSub (cause : Nat) : Nat := match cause with | 9 => 4 | 0xA => 5 | 0xD => 6 | _ => 4

/-- Reads of the engine's own: slices, headers, payloads. -/
def State.fxRead (s : State) (k : Kernel) (va n : Nat) : State × Except FxErr (List Byte) :=
  match s.engineReadSpan k.ctx va n with
  | (s1, .ok bs) => (s1, .ok bs)
  | (s1, .error e) => (s1, .error (0x30, fxSub e.1, e.2.2))

/-- Writes of the engine's own. -/
def State.fxWrite (s : State) (k : Kernel) (va : Nat) (bs : List Byte) : State × Except FxErr Unit :=
  match s.engineWriteSpan k.ctx va bs with
  | (s1, .ok _) => (s1, .ok ())
  | (s1, .error e) => (s1, .error (0x30, fxSub e.1, e.2.2))

/-- Writes of several places in turn: the first failure ends them. -/
def State.fxWrites (s : State) (k : Kernel) : List (Nat × List Byte) → State × Except FxErr Unit
  | [] => (s, .ok ())
  | w :: ws =>
    match s.fxWrite k w.1 w.2 with
    | (s1, .error e) => (s1, .error e)
    | (s1, .ok _) => s1.fxWrites k ws

/-! ### Rollback and abort, R361, R362 -/

def State.modKernel (s : State) (id : Nat) (f : Kernel → Kernel) : State := { s with kernels := smod s.kernels id f }

/-- Keeps the first fault of a kernel. -/
def Kernel.note (k : Kernel) (x : FxFault) : Kernel := match k.fault with
  | some _ => k
  | none => { k with fault := some x }

/-- Undoes log entry e: its line stored again. A failure names the line, or the entry where that cannot be read. -/
def State.undoEntry (s : State) (k : Kernel) (base e : Nat) : State × Except Nat Unit :=
  let at_ := base + 2304 + 128 * e
  match s.fxRead k at_ 128 with
  | (s1, .error _) => (s1, .error at_)
  | (s1, .ok bs) =>
    let va := natOf (bs.take 8)
    match s1.fxWrite k va (bs.drop 64) with
    | (s2, .error _) => (s2, .error va)
    | (s2, .ok _) => (s2, .ok ())

/-- Undoes the entries below n, the last first; a failing entry is skipped, and sets STATE[5] (R361). -/
def State.undoAll (s : State) (kid : Nat) (idx : Nat) (pc : Dword) (base : Nat) : Nat → State
  | 0 => s
  | e + 1 =>
    match sget s.kernels kid with
    | none => s
    | some k =>
      let s2 := match s.undoEntry k base e with
        | (s1, .ok _) => s1
        | (s1, .error va) => s1.modKernel kid fun x =>
            ({ x with state := Nat.lor x.state 32 } : Kernel).note ⟨some idx, 0x30, 0xC, pc, va⟩
      s2.undoAll kid idx pc base e

/-- Rolls back the open step of a slice: its lines restored, and no entry left. -/
def State.rollback (s : State) (kid slice idx : Nat) (pc : Dword) (entries steps : Nat) : State :=
  match sget s.kernels kid with
  | none => s
  | some k =>
    let base := k.slice slice
    let s1 := s.undoAll kid idx pc base entries
    (s1.fxWrite k (base + 8) (leOf 4 steps ++ leOf 4 0)).1

/-- Every running instance of a kernel rolls back and stops; their FF go to FLAGS. -/
def State.stopKernel (s : State) (kid : Nat) : State :=
  match sget s.kernels kid with
  | none => s
  | some k =>
    let s1 := k.insts.foldl (fun s p => s.rollback kid p.1 p.2.index p.2.pc p.2.entries p.2.steps) s
    s1.modKernel kid fun x => { x with insts := [], flags := k.insts.foldl (fun f p => f ||| p.2.ff) x.flags }

/-- Aborts a kernel with a STATE bit, once (R361, R362): the instances rolled back. -/
def State.abortKernel (s : State) (kid bit : Nat) : State × Nat :=
  match sget s.kernels kid with
  | none => (s, 0)
  | some k =>
    if k.stopping then (s, 0)
    else
      ((s.modKernel kid fun x => { x with stopping := true, state := Nat.lor x.state bit, restarts := [] }).stopKernel kid, k.insts.length)

/-- A fault in an instance: recorded if it is the kernel's first, then the abort. -/
def State.fxFault (s : State) (kid : Nat) (i : FxInst) (e : FxErr) : State :=
  ((s.modKernel kid fun k => k.note ⟨some i.index, e.1, e.2.1, i.pc, e.2.2⟩).abortKernel kid 2).1

/-! ### The instance being executed -/

def State.fxKernel (s : State) : Option Kernel := sget s.kernels s.fx.1

def State.putInst (s : State) (i : FxInst) : State :=
  s.modKernel s.fx.1 fun k => { k with insts := sput k.insts s.fx.2 i }

/-- The requests of a kernel's instances (18 R418): of the launch that ran `fxrun`, or of none. -/
def State.servedKernel (s : State) (k : Kernel) : State :=
  match k.owner with
  | some o => s.servedFor 0xF2 o.1
  | none => s.servedAs 0xF2 2

/-- An instruction of the executing instance: its new instance, and why it faults. -/
def fxRun (f : State → Kernel → FxInst → State × FxInst × Option FxErr) (s : State) : Out :=
  match s.fxKernel with
  | none => .next s
  | some k =>
    match sget k.insts s.fx.2 with
    | none => .next s
    | some i =>
      match f (s.servedKernel k) k i with
      | (s1, i1, none) => .next (s1.putInst { i1 with fresh := false })
      | (s1, i1, some e) => .next ((s1.putInst i1).fxFault s.fx.1 { i1 with pc := i.pc } e)

/-- An instruction that touches registers alone. -/
def fxPure (f : Kernel → FxInst → Except FxErr FxInst) : State → Out :=
  fxRun fun s k i => match f k i with
    | .ok i1 => (s, i1, none)
    | .error e => (s, i, some e)

/-- One whose registers are checked first. -/
def fxChecked (checks : List (Option FxErr)) (f : Kernel → FxInst → FxInst) : State → Out :=
  fxPure fun k i => match firstSome checks with
    | some e => .error e
    | none => .ok (f k i)

/-! ### Scalar and control instructions, R346, R347 -/

/-- sD := the sign-extended immediate. -/
def execSli (d : BitVec 5) (i : BitVec 16) : State → Out :=
  fxChecked [badS (fxI 1 d.toNat 0 i) [d]] fun _ x => (x.setS d (i.signExtend 64)).step

/-- sD := sA + immediate. -/
def execSaddi (d a : BitVec 5) (i : BitVec 16) : State → Out :=
  fxChecked [badS (fxI 2 d.toNat a.toNat i) [d, a]] fun _ x => (x.setS d (x.sreg a + i.signExtend 64)).step

/-- A scalar function. -/
def scalarOp (m : Nat) (op : Dword → Dword → Dword) (d a b : BitVec 5) : State → Out :=
  fxChecked [badS (fxR 3 d.toNat a.toNat b.toNat 0 m) [d, a, b]] fun _ x => (x.setS d (op (x.sreg a) (x.sreg b))).step

/-- R347. -/
def execSaluAdd (d a b : BitVec 5) : State → Out := scalarOp 0 (· + ·) d a b
/-- R347. -/
def execSaluSub (d a b : BitVec 5) : State → Out := scalarOp 1 (· - ·) d a b
/-- R347. -/
def execSaluMul (d a b : BitVec 5) : State → Out := scalarOp 2 (· * ·) d a b
/-- R347. -/
def execSaluAnd (d a b : BitVec 5) : State → Out := scalarOp 3 (· &&& ·) d a b
/-- R347. -/
def execSaluOr (d a b : BitVec 5) : State → Out := scalarOp 4 (· ||| ·) d a b
/-- R347. -/
def execSaluXor (d a b : BitVec 5) : State → Out := scalarOp 5 (· ^^^ ·) d a b
/-- R347: by sB[5:0]. -/
def execSaluShl (d a b : BitVec 5) : State → Out := scalarOp 6 (fun x y => x <<< (y.toNat % 64)) d a b
/-- R347: by sB[5:0], zero fill. -/
def execSaluShr (d a b : BitVec 5) : State → Out := scalarOp 7 (fun x y => x >>> (y.toNat % 64)) d a b

/-- A branch. -/
def fxBranch (cond : Nat) (test : Dword → Bool) (a : BitVec 5) (i : BitVec 16) : State → Out :=
  fxChecked [badS (fxI 6 cond a.toNat i) [a]] fun _ x => if test (x.sreg a) then x.jump i else x.step

/-- R347: always. -/
def execB (i : BitVec 16) : State → Out := fxBranch 0 (fun _ => true) 0 i
/-- R347: when sA = 0. -/
def execBEqz (a : BitVec 5) (i : BitVec 16) : State → Out := fxBranch 1 (fun v => v == 0) a i
/-- R347: when sA is nonzero. -/
def execBNez (a : BitVec 5) (i : BitVec 16) : State → Out := fxBranch 2 (fun v => v != 0) a i
/-- R347: when sA is negative. -/
def execBLtz (a : BitVec 5) (i : BitVec 16) : State → Out := fxBranch 3 (fun v => v.msb) a i
/-- R347: when sA is not negative. -/
def execBGez (a : BitVec 5) (i : BitVec 16) : State → Out := fxBranch 4 (fun v => !v.msb) a i

/-- R347: decrements, and branches while the result is nonzero. -/
def execFloop (a : BitVec 5) (i : BitVec 16) : State → Out :=
  fxChecked [badS (fxI 7 0 a.toNat i) [a]] fun _ x =>
    let v := x.sreg a - 1
    if v ≠ 0 then (x.setS a v).jump i else (x.setS a v).step

/-! ### Memory, R345, R347, R348, R359 -/

/-- Whether an address lies in the stage window of the launch whose block ran the kernel. -/
def Kernel.inStage (k : Kernel) (va : Nat) : Bool :=
  match k.sb with
  | some sb => decide (sb ≤ va) && decide (va < sb + 2 ^ 29)
  | none => false

/-- Where a fixer access lands: local HBM4E or the CXL tier. -/
def State.fxPlace (s : State) (k : Kernel) (va : Nat) (need : Need) : State × Except FxErr Place :=
  if k.inStage va then (s, .error (0x30, 7, va))
  else
  match s.translate k.ctx va need with
  | (s1, .error f) => (s1, .error (0x30, fxSub f.1, va))
  | (s1, .ok p) =>
    match s1.kind p.pa with
    | .hbm _ => (s1, .ok p)
    | .cxl _ => (s1, .ok p)
    | _ => (s1, .error (0x30, 7, va))

/-- Reads bytes of one fixer line. -/
def State.fxLoad (s : State) (k : Kernel) (va n : Nat) : State × Except FxErr (List Byte) :=
  match s.fxPlace k va .r with
  | (s1, .error e) => (s1, .error e)
  | (s1, .ok p) =>
    let (s2, bs, bad) := s1.homeRead p.pa n
    if bad then (s2, .error (0x30, 6, va)) else (s2, .ok bs)

/-- Logs a fixer line of the open step, if it is not logged yet (R359). -/
def State.fxLog (s : State) (k : Kernel) (slice : Nat) (i : FxInst) (va : Nat) : State × FxInst × Option FxErr :=
  let line := va / 64 * 64
  if line ∈ i.lines then (s, i, none)
  else if k.room ≤ i.entries then (s, i, some (0x30, 8, va))
  else
    match s.fxLoad k line 64 with
    | (s1, .error e) => (s1, i, some e)
    | (s1, .ok old) =>
      let base := k.slice slice
      match s1.fxWrites k [(base + 2304 + 128 * i.entries, leOf 8 line ++ leOf 4 (i.steps + 1) ++ leOf 52 0 ++ old),
                           (base + 12, leOf 4 (i.entries + 1))] with
      | (s2, .error e) => (s2, i, some e)
      | (s2, .ok _) => (s2, { i with lines := line :: i.lines, entries := i.entries + 1 }, none)

/-- Stores bytes of one fixer line, after its log entry. -/
def State.fxStore (s : State) (k : Kernel) (slice : Nat) (i : FxInst) (va : Nat) (bs : List Byte) : State × FxInst × Option FxErr :=
  match s.fxPlace k va .w with
  | (s1, .error e) => (s1, i, some e)
  | (s1, .ok p) =>
    match s1.fxLog k slice i va with
    | (s2, i2, some e) => (s2, i2, some e)
    | (s2, i2, none) =>
      if s2.unreached p.pa then (s2.modKernel k.id fun y => y.note ⟨none, 0xD, 0, i.pc, va⟩, i2, none) else (s2.homeWrite p.pa bs, i2, none)

/-- The address of `sld` and `sst`. -/
def fxAddr8 (x : FxInst) (a : BitVec 5) (i : BitVec 16) : Nat := (x.sreg a + 8 * i.signExtend 64).toNat

/-- R347: an 8-byte load. -/
def execSld (d a : BitVec 5) (i : BitVec 16) : State → Out :=
  fxRun fun s k x =>
    match badS (fxI 4 d.toNat a.toNat i) [d, a] with
    | some e => (s, x, some e)
    | none =>
      let va := fxAddr8 x a i
      if va % 8 ≠ 0 then (s, x, some (0x30, 3, va))
      else
        match s.fxLoad k va 8 with
        | (s1, .error e) => (s1, x, some e)
        | (s1, .ok bs) => (s1, (x.setS d (BitVec.ofNat 64 (natOf bs))).step, none)

/-- R347: an 8-byte store, logged. -/
def execSst (d a : BitVec 5) (i : BitVec 16) : State → Out :=
  fxRun fun s k x =>
    match badS (fxI 5 d.toNat a.toNat i) [a, d] with
    | some e => (s, x, some e)
    | none =>
      let va := fxAddr8 x a i
      if va % 8 ≠ 0 then (s, x, some (0x30, 3, va))
      else
        match s.fxStore k s.fx.2 x va (leOf 8 (x.sreg d).toNat) with
        | (s1, x1, some e) => (s1, x1, some e)
        | (s1, x1, none) => (s1, x1.step, none)

/-- The lines of a line instruction: register and address, or why it faults (R348). -/
def fxLines (op : Nat) (x : FxInst) (d a n : BitVec 5) (i : BitVec 11) : Except FxErr (List (Nat × Nat)) :=
  let word := fxL op d.toNat a.toNat n.toNat i
  let a0 := (x.sreg a + 64 * i.signExtend 64).toNat
  match firstSome [badS word [a], if 7 < n.toNat then some (0x30, 2, word) else none, badRun word [(d.toNat, n.toNat + 1)]] with
  | some e => .error e
  | none =>
    if a0 % 64 ≠ 0 then .error (0x30, 3, a0)
    else .ok ((List.range (n.toNat + 1)).map fun j => (d.toNat + j, (a0 + 64 * j) % 2 ^ 64))

/-- Handles lines in ascending order until one faults. -/
def fxEach (f : State → FxInst → Nat → Nat → State × FxInst × Option FxErr) (s : State) (x : FxInst) :
    List (Nat × Nat) → State × FxInst × Option FxErr
  | [] => (s, x.step, none)
  | l :: ls =>
    match f s x l.1 l.2 with
    | (s1, x1, some e) => (s1, x1, some e)
    | (s1, x1, none) => fxEach f s1 x1 ls

/-- A line instruction. -/
def fxLineOp (op : Nat) (d a n : BitVec 5) (i : BitVec 11)
    (f : Kernel → State → FxInst → Nat → Nat → State × FxInst × Option FxErr) : State → Out :=
  fxRun fun s k x =>
    match fxLines op x d a n i with
    | .error e => (s, x, some e)
    | .ok ls => fxEach (f k) s x ls

/-- The words of 64 bytes. -/
def lineWords (bs : List Byte) : List Word := (List.range 16).map fun l => wordOf ((bs.drop (4 * l)).take 4)

def lineBytes (ws : List Word) : List Byte := ws.flatMap wordBytes

/-- R348: loads lines. -/
def execFld (d a n : BitVec 5) (i : BitVec 11) : State → Out :=
  fxLineOp 10 d a n i fun k s x r va =>
    match s.fxLoad k va 64 with
    | (s1, .error e) => (s1, x, some e)
    | (s1, .ok bs) => (s1, x.setF r (lineWords bs), none)

/-- R348: stores lines, logged first. -/
def execFst (d a n : BitVec 5) (i : BitVec 11) : State → Out :=
  fxLineOp 11 d a n i fun k s x r va => s.fxStore k s.fx.2 x va (lineBytes (x.freg r))

/-- One unit of a `fredf` line merged at the home; uncorrectable data that it meets is the kernel's record. -/
def State.fxReduce (s : State) (k : Kernel) (x : FxInst) (pa va : Nat) (w : Word) : State :=
  let r : Red := { id := 0, core := 0, whos := [], op := 8, ty := 0, pa := pa, val := w.toNat, va := va, pc := x.pc,
                   launch := 0, queue := k.queue, lin := BitVec.allOnes 64, kernel := some k.id }
  match s.mergeRed r with
  | (s1, false) => s1
  | (s1, true) => s1.modKernel k.id fun y => y.note ⟨none, 0xD, 0, x.pc, va⟩

/-- R348: sends lines as 16 FP32 additions each; they merge at once. -/
def execFredf (d a n : BitVec 5) (i : BitVec 11) : State → Out :=
  fxLineOp 12 d a n i fun k s x r va =>
    match s.fxPlace k va .w with
    | (s1, .error e) => (s1, x, some e)
    | (s1, .ok p) =>
      ((List.range 16).foldl (fun s l => s.fxReduce k x (p.pa + 4 * l) (va + 4 * l) (x.lane r l)) s1, x, none)

/-! ### Lanes, R346, R349 -/

/-- R346: every lane := a half of sA. -/
def execFbc (d a : BitVec 5) (h : BitVec 1) : State → Out :=
  fxChecked [badS (fxR 13 d.toNat a.toNat 0 h.toNat 0) [a]] fun _ x =>
    (x.setF d.toNat (List.replicate 16 (if bit1 h then hi32 (x.sreg a) else lo32 (x.sreg a)))).step

/-- R346: sD := a lane, zero-extended. -/
def execFext (d a : BitVec 5) (l : BitVec 4) : State → Out :=
  fxChecked [badS (fxR 14 d.toNat a.toNat 0 l.toNat 0) [d]] fun _ x => (x.setS d (word64 (x.lane a.toNat l.toNat))).step

/-- R346: one lane := sA[31:0]. -/
def execFins (d a : BitVec 5) (l : BitVec 4) : State → Out :=
  fxChecked [badS (fxR 15 d.toNat a.toNat 0 l.toNat 0) [a]] fun _ x =>
    (x.setF d.toNat ((x.freg d.toNat).set l.toNat (lo32 (x.sreg a)))).step

/-- The register of an operand in step i: from f24 on it stays (R349). -/
def fxOperand (r i : Nat) : Nat := if r ≤ 23 then r + i else r

/-- Operands of a run that leave f0-f23 (R349). -/
def badOperands (word n : Nat) (d : Nat) (xs : List Nat) : Option FxErr :=
  if (24 ≤ d ∧ 1 < n) ∨ (xs.any fun x => decide (x ≤ 23) && decide (23 < x + n - 1)) then some (0x30, 0xA, word) else none

/-- Steps of a lane operation, each reading its operands before it writes. -/
def laneSteps (op : Word → Word → Word → Word × Word) (d a b c : Nat) : Nat → Nat → FxInst → FxInst
  | 0, _, x => x
  | n + 1, i, x =>
    let rs := (List.range 16).map fun l => op (x.lane (fxOperand a i) l) (x.lane (fxOperand b i) l) (x.lane (fxOperand c i) l)
    laneSteps op d a b c n (i + 1) ((x.setF (fxOperand d i) (rs.map (·.1))).raise (rs.foldl (fun f r => f ||| r.2) 0))

/-- A lane operation over a run (R349). -/
def fxLaneOp (op fn : Nat) (d a b c : BitVec 5) (used : List (BitVec 5)) (n : BitVec 2) (f : Word → Word → Word → Word × Word) :
    State → Out :=
  let word := fxR op d.toNat a.toNat b.toNat c.toNat (n.toNat * 16 + fn)
  fxChecked [badOperands word (n.toNat + 1) d.toNat ((d :: a :: used).map (·.toNat))] fun _ x =>
    (laneSteps f d.toNat a.toNat b.toNat c.toNat (n.toNat + 1) 0 x).step

/-- An FP32 result. -/
def fxF (r : Nat × Word) : Word × Word := (BitVec.ofNat 32 r.1, r.2)

/-- R349. -/
def execFopAdd (d a b : BitVec 5) (n : BitVec 2) : State → Out :=
  fxLaneOp 16 0 d a b 0 [b] n fun x y _ => fxF (fp32.fadd .rn x.toNat y.toNat)
/-- R349. -/
def execFopSub (d a b : BitVec 5) (n : BitVec 2) : State → Out :=
  fxLaneOp 16 1 d a b 0 [b] n fun x y _ => fxF (fp32.fsub .rn x.toNat y.toNat)
/-- R349. -/
def execFopMul (d a b : BitVec 5) (n : BitVec 2) : State → Out :=
  fxLaneOp 16 2 d a b 0 [b] n fun x y _ => fxF (fp32.fmul .rn x.toNat y.toNat)
/-- R349, R108. -/
def execFopDiv (d a b : BitVec 5) (n : BitVec 2) : State → Out :=
  fxLaneOp 16 3 d a b 0 [b] n fun x y _ => fxF (fp32.fdiv .rn x.toNat y.toNat)
/-- R349, R106. -/
def execFopMin (d a b : BitVec 5) (n : BitVec 2) : State → Out :=
  fxLaneOp 16 4 d a b 0 [b] n fun x y _ => fxF (fp32.fminmax false x.toNat y.toNat)
/-- R349, R106. -/
def execFopMax (d a b : BitVec 5) (n : BitVec 2) : State → Out :=
  fxLaneOp 16 5 d a b 0 [b] n fun x y _ => fxF (fp32.fminmax true x.toNat y.toNat)
/-- R349, R111. -/
def execFopFma (d a b c : BitVec 5) (n : BitVec 2) : State → Out :=
  fxLaneOp 16 6 d a b c [b, c] n fun x y z => fxF (fp32.ffma .rn false x.toNat y.toNat z.toNat)
/-- R349, R111: the product negated. -/
def execFopFnma (d a b c : BitVec 5) (n : BitVec 2) : State → Out :=
  fxLaneOp 16 7 d a b c [b, c] n fun x y z => fxF (fp32.ffma .rn true x.toNat y.toNat z.toNat)
/-- R349, R116. -/
def execFopSqrt (d a : BitVec 5) (n : BitVec 2) : State → Out :=
  fxLaneOp 16 8 d a 0 0 [] n fun x _ _ => fxF (fp32.fsqrt .rn x.toNat)
/-- R349. -/
def execFopMov (d a : BitVec 5) (n : BitVec 2) : State → Out := fxLaneOp 16 9 d a 0 0 [] n fun x _ _ => (x, 0)

/-- R349. -/
def execIopAdd (d a b : BitVec 5) (n : BitVec 2) : State → Out := fxLaneOp 17 0 d a b 0 [b] n fun x y _ => (x + y, 0)
/-- R349. -/
def execIopSub (d a b : BitVec 5) (n : BitVec 2) : State → Out := fxLaneOp 17 1 d a b 0 [b] n fun x y _ => (x - y, 0)
/-- R349. -/
def execIopAnd (d a b : BitVec 5) (n : BitVec 2) : State → Out := fxLaneOp 17 2 d a b 0 [b] n fun x y _ => (x &&& y, 0)
/-- R349. -/
def execIopOr (d a b : BitVec 5) (n : BitVec 2) : State → Out := fxLaneOp 17 3 d a b 0 [b] n fun x y _ => (x ||| y, 0)
/-- R349. -/
def execIopXor (d a b : BitVec 5) (n : BitVec 2) : State → Out := fxLaneOp 17 4 d a b 0 [b] n fun x y _ => (x ^^^ y, 0)
/-- R349: 0 from a shift of 32 on. -/
def execIopShl (d a b : BitVec 5) (n : BitVec 2) : State → Out :=
  fxLaneOp 17 5 d a b 0 [b] n fun x y _ => (if 32 ≤ y.toNat then 0 else x <<< y.toNat, 0)
/-- R349: 0 from a shift of 32 on. -/
def execIopShr (d a b : BitVec 5) (n : BitVec 2) : State → Out :=
  fxLaneOp 17 6 d a b 0 [b] n fun x y _ => (if 32 ≤ y.toNat then 0 else x >>> y.toNat, 0)
/-- R349. -/
def execIopSel (d a b c : BitVec 5) (n : BitVec 2) : State → Out :=
  fxLaneOp 17 7 d a b c [b, c] n fun x y z => (if z ≠ 0 then x else y, 0)
/-- R349: a NaN gives 0 and NV. -/
def execIopFclt (d a b : BitVec 5) (n : BitVec 2) : State → Out :=
  fxLaneOp 17 8 d a b 0 [b] n fun x y _ =>
    let r := floatCond 2 (fp32.value x.toNat) (fp32.value y.toNat)
    (if r.1 then 1 else 0, r.2)
/-- R349. -/
def execIopIeq (d a b : BitVec 5) (n : BitVec 2) : State → Out :=
  fxLaneOp 17 9 d a b 0 [b] n fun x y _ => (if x = y then 1 else 0, 0)

/-! ### Formats, R350-R353 -/

/-- A control word in an `s` register. -/
def fxCcw (x : FxInst) (c : BitVec 5) : Ccw := ccwOf (lo32 (x.sreg c)) (hi32 (x.sreg c))

/-- Element j of a run of width 32 or 16 at a register (R350). -/
def fxElem (x : FxInst) (base : Nat) (half : Bool) (j : Nat) : Nat :=
  if half then (x.lane (base + j / 32) (j / 2 % 16)).toNat / 2 ^ (16 * (j % 2)) % 65536 else (x.lane (base + j / 16) (j % 16)).toNat

/-- The registers of a run of elements of width w, from their encodings; bits with no element are 0. -/
def fxPackRun (w regs : Nat) (e : Nat → Nat) (n : Nat) : List (List Word) :=
  (List.range regs).map fun r => (List.range 16).map fun l =>
    BitVec.ofNat 32 (packWord w ((List.range (32 / w)).map fun i =>
      let j := (16 * r + l) * (32 / w) + i
      if j < n then e j else 0))

/-- Element j of width w of a packed run (R351). -/
def fxUnpack (x : FxInst) (base w j : Nat) : Nat :=
  (x.lane (base + j * w / 512) (j * w / 32 % 16)).toNat / 2 ^ (j * w % 32) % 2 ^ w

/-- Results with their flags, computed once. -/
def runFlags (rs : List (Nat × Word)) : Word := rs.foldl (fun f r => f ||| r.2) 0

def fxHalf (t : Nat) : Bool := t == 2 || t == 3

/-- The types of `fcvt`. -/
def fxWide (t : Nat) : Bool := t == 1 || t == 2 || t == 3 || t == 11

/-- An instruction of the registers alone that checks more than its fields: its checks, then its effect. -/
def fxGuarded (check : Kernel → FxInst → Option FxErr) (f : Kernel → FxInst → FxInst) : State → Out :=
  fxPure fun k x => match check k x with
    | some e => .error e
    | none => .ok (f k x)

/-- Registers of a run of 32 elements a unit of length, of a type. -/
def fxRunRegs (t len : Nat) : Nat := if fxHalf t then len else 2 * len

def fcvtCheck (d a c : BitVec 5) (x : FxInst) : Option FxErr :=
  let word := fxR 18 d.toNat a.toNat 0 c.toNat 0
  let w := fxCcw x c
  firstSome [badS word [c],
    if w.reserved || !fxWide w.wt || !fxWide w.nt || w.sch != 0 || w.gs != 0 || w.tag != 0 || w.nb != 0 then some (0x30, 9, word) else none,
    badRun word [(a.toNat, fxRunRegs w.wt w.len), (d.toNat, fxRunRegs w.nt w.len)]]

def fcvtRun (d a c : BitVec 5) (x : FxInst) : FxInst :=
  let w := fxCcw x c
  let rs := (List.range (32 * w.len)).map fun j =>
    convertElem w.wt w.nt (rsMode w.rs 0) (rsSat w.rs) (fxElem x a.toNat (fxHalf w.wt) j)
  ((x.setRun d.toNat (fxPackRun (typeWidth w.nt) (fxRunRegs w.nt w.len) (fun j => (nth rs j (0, 0)).1) (32 * w.len))).raise (runFlags rs)).step

/-- R350: converts a run. -/
def execFcvt (d a c : BitVec 5) : State → Out := fxGuarded (fun _ => fcvtCheck d a c) fun _ => fcvtRun d a c

/-- The checks of `fdq` and `frq` (R351). -/
def fxQuantBad (w : Ccw) : Bool :=
  w.reserved || w.wt != 1 || !((w.sch == 0 && decide (4 ≤ w.nt) && decide (w.nt ≤ 10)) || (w.sch == 2 && decide (7 ≤ w.nt) && decide (w.nt ≤ 10)))
    || 32 * w.len % 2 ^ blockLog (w.tag % 4) != 0 || (w.sch == 2 && 32 * w.len % w.group != 0)

/-- The tag of a control word against the kernel's seed table (R356): cause 0x12 with the half. -/
def fxTag (k : Kernel) (tag : Nat) : Option FxErr :=
  (halfFault { noLaunch with seeds := k.seeds } tag false).map fun f => (0x12, f.1, tag)

def fxSeed (k : Kernel) (tag : Nat) : Dword := (nth k.seeds (tag / 4 % 8) {}).val

/-- Registers of a packed run of a fixer. -/
def fxPackedRegs (nt len : Nat) : Nat := (32 * len * typeWidth nt + 511) / 512

/-- Records of a run. -/
def fxRecords (w : Ccw) : Nat := if w.sch = 2 then 32 * w.len / w.group else 0

/-- What `fdq` and `frq` check before they act: the packed run at `p`, the FP32 run at `f`. -/
def fxQuantChecks (word : Nat) (k : Kernel) (w : Ccw) (p f : Nat) (o : Nat) : Option FxErr :=
  firstSome [
    if fxQuantBad w then some (0x30, 9, word) else none,
    badRun word [(p, fxPackedRegs w.nt w.len), (f, 2 * w.len)],
    if fxRecords w ≠ 0 ∧ 16 < o + fxRecords w then some (0x30, 0xA, word) else none,
    fxTag k w.tag]

/-- FP32 values of a run. -/
def fxValues (x : FxInst) (base n : Nat) : List Num := (List.range n).map fun j => fp32.value (fxElem x base false j)

/-- Writes FP32 results of exact values at a run, with their flags. -/
def fxRound (x : FxInst) (w : Ccw) (d : Nat) (ys : List Num) (fl : Word) : FxInst :=
  let rs := ys.map fun y => fp32.round (rsMode w.rs 0) (rsSat w.rs) y
  ((x.setRun d (fxPackRun 32 (2 * w.len) (fun j => (nth rs j (0, 0)).1) (32 * w.len))).raise (fl ||| runFlags rs)).step

def fdqCheck (d a b c : BitVec 5) (o : BitVec 4) (k : Kernel) (x : FxInst) : Option FxErr :=
  let word := fxR 19 d.toNat a.toNat b.toNat c.toNat o.toNat
  firstSome [badS word [c], fxQuantChecks word k (fxCcw x c) a.toNat d.toNat o.toNat]

def fdqRun (d a b c : BitVec 5) (o : BitVec 4) (k : Kernel) (x : FxInst) : FxInst :=
  let w := fxCcw x c
  let es := (List.range (32 * w.len)).map fun j =>
    dequant w.sch w.nt (x.lane b.toNat (o.toNat + j / w.group)).toNat (fxUnpack x a.toNat (typeWidth w.nt) j)
  let (ys, f) := rotValues true (w.tag % 4) (fxSeed k w.tag) w.nb (es.map (·.1))
  let f0 := if w.tag % 4 = 0 then es.foldl (fun f e => f ||| e.2) 0 else 0
  fxRound x w d.toNat (ys.map (·.1)) (f ||| f0)

/-- R351: dequantises a run with the inverse rotation. -/
def execFdq (d a b c : BitVec 5) (o : BitVec 4) : State → Out := fxGuarded (fdqCheck d a b c o) (fdqRun d a b c o)

def frqCheck (d a b c : BitVec 5) (o : BitVec 4) (k : Kernel) (x : FxInst) : Option FxErr :=
  let word := fxR 20 d.toNat a.toNat b.toNat c.toNat o.toNat
  firstSome [badS word [c], fxQuantChecks word k (fxCcw x c) d.toNat a.toNat o.toNat]

def frqRun (d a b c : BitVec 5) (o : BitVec 4) (k : Kernel) (x : FxInst) : FxInst :=
  let w := fxCcw x c
  let (ys, f) := rotValues false (w.tag % 4) (fxSeed k w.tag) w.nb (fxValues x a.toNat (32 * w.len))
  let (es, recs, f') := quantise w.sch w.nt w.group (rsMode w.rs 0) (rsSat w.rs) ys (.ofInt 0)
  let x1 := x.setRun d.toNat (fxPackRun (typeWidth w.nt) (fxPackedRegs w.nt w.len) (fun j => nth es j 0) (32 * w.len))
  let rb := x1.freg b.toNat
  let recReg := (List.range 16).map fun l =>
    if o.toNat ≤ l ∧ l < o.toNat + fxRecords w then BitVec.ofNat 32 (nth recs (l - o.toNat) 0) else nth rb l 0
  ((if w.sch = 2 then x1.setF b.toNat recReg else x1).raise (f ||| f')).step

/-- R351: rotates and requantises a run, then writes its records: where they lie in a register of the packed run, its other lanes
hold the run. -/
def execFrq (d a b c : BitVec 5) (o : BitVec 4) : State → Out := fxGuarded (frqCheck d a b c o) (frqRun d a b c o)

def frotCheck (d a c : BitVec 5) (v : BitVec 1) (k : Kernel) (x : FxInst) : Option FxErr :=
  let word := fxR 21 d.toNat a.toNat 0 c.toNat v.toNat
  let w := fxCcw x c
  let bad := w.reserved || w.wt != 1 || w.nt != 1 || w.sch != 0 || 32 * w.len % 2 ^ blockLog (w.tag % 4) != 0
  firstSome [badS word [c], if bad then some (0x30, 9, word) else none,
    badRun word [(a.toNat, 2 * w.len), (d.toNat, 2 * w.len)], fxTag k w.tag]

def frotRun (d a c : BitVec 5) (v : BitVec 1) (k : Kernel) (x : FxInst) : FxInst :=
  let w := fxCcw x c
  if w.tag % 4 = 0 then (x.setRun d.toNat ((List.range (2 * w.len)).map fun i => x.freg (a.toNat + i))).step
  else
    let (ys, f) := rotValues (bit1 v) (w.tag % 4) (fxSeed k w.tag) w.nb (fxValues x a.toNat (32 * w.len))
    fxRound x w d.toNat (ys.map (·.1)) f

/-- R352: rotates a run, forward or back; with no block it copies. -/
def execFrot (d a c : BitVec 5) (v : BitVec 1) : State → Out := fxGuarded (frotCheck d a c v) (frotRun d a c v)

/-- The master that `wbld` rebuilds from a BF16 value (R353). -/
def rebuildMaster (h : Nat) : Nat :=
  let e := h / 128 % 256
  let fr := h % 128
  if e = 255 ∧ fr ≠ 0 then 0x7FC00000
  else if fr = 0 ∧ (e = 0 ∨ e = 255) then h * 65536
  else h * 65536 + 0x8000

/-- R353: rebuilds FP32 masters. -/
def execWbld (d a : BitVec 5) (n : BitVec 2) : State → Out :=
  let word := fxR 22 d.toNat a.toNat 0 0 n.toNat
  let m := n.toNat + 1
  fxChecked [badRun word [(a.toNat, m), (d.toNat, 2 * m)]] fun _ x =>
    (x.setRun d.toNat (fxPackRun 32 (2 * m) (fun j => rebuildMaster (fxElem x a.toNat true j)) (32 * m))).step

/-- R346: reads FF, and clears it if asked. -/
def execFflg (d : BitVec 5) (c : BitVec 1) : State → Out :=
  fxChecked [badS (fxR 23 d.toNat 0 0 c.toNat 0) [d]] fun _ x =>
    let x1 := x.setS d (word64 x.ff)
    (if bit1 c then { x1 with ff := 0 } else x1).step

/-! ### Steps, R360 -/

/-- Commits the open step of the executing instance: registers and PC first, then the count. -/
def State.commitStep (s : State) (k : Kernel) (slice : Nat) (x : FxInst) : State × FxInst × Option FxErr :=
  let base := k.slice slice
  let x1 := { x with steps := x.steps + 1, lines := [], entries := 0, fresh := true }
  match s.fxWrites k [(base + 16, leOf 8 (x.pc + 4).toNat ++ leOf 104 0 ++ x.regBytes), (base + 8, leOf 4 (x.steps + 1) ++ leOf 4 0)] with
  | (s1, .error e) => (s1, x, some e)
  | (s1, .ok _) => (s1.modKernel k.id fun y => { y with nstep := y.nstep + 1 }, x1, none)

/-- R360: commits the open step. -/
def execStepend (s : State) : Out :=
  match s.fxKernel with
  | none => .next s
  | some k =>
    match sget k.insts s.fx.2 with
    | none => .next s
    | some x =>
      match s.commitStep k s.fx.2 x with
      | (s1, x1, some e) => .next (s1.fxFault k.id x1 e)
      | (s1, x1, none) => .next (s1.putInst x1.step)

/-- R360: commits what has run since the last commit, and ends the instance, whose slice is free. -/
def execFend (s : State) : Out :=
  match s.fxKernel with
  | none => .next s
  | some k =>
    match sget k.insts s.fx.2 with
    | none => .next s
    | some x =>
      match (if x.fresh then (s, x, none) else s.commitStep k s.fx.2 x) with
      | (s1, x1, some e) => .next (s1.fxFault k.id x1 e)
      | (s1, x1, none) =>
        match s1.fxWrites k [(k.slice s.fx.2, leOf 8 (2 ^ 64 - 1)), (k.undo + 4, leOf 4 (k.nend + 1))] with
        | (s2, .error e) => .next (s2.fxFault k.id x1 e)
        | (s2, .ok _) =>
          .next (s2.modKernel k.id fun y =>
            { y with insts := sdel y.insts s.fx.2, nend := y.nend + 1, flags := y.flags ||| x1.ff })

/-! ### Words that are no instruction, R346, R347 -/

/-- Raises a fault of the executing instance. -/
def State.fxRaise (s : State) (e : Nat → FxErr) : State :=
  match s.fxKernel with
  | none => s
  | some k =>
    match sget k.insts s.fx.2 with
    | none => s
    | some x => s.fxFault k.id x (e x.pc.toNat)

/-- R346: op 0 or 24 to 63, or an unassigned function or condition. -/
def execFixerUnassignedOp (w : Word) (s : State) : Out := .next (s.fxRaise fun _ => (0x30, 1, w.toNat))

/-- R347: a fetch that faults, with the PC. -/
def execFixerFetchFault (s : State) : Out := .next (s.fxRaise fun pc => (0x30, 0xB, pc))

/-- A field marked zero that is not (R346). -/
def State.fxReserved (s : State) (w : Word) : State := s.fxRaise fun _ => (0x30, 2, w.toNat)

end Sys2Proof.Machine
end

