-- ==== Sys2Proof/Machine/FixerKernel.lean ====
section
/-! DEFINITION. Fixer kernels: payloads, dispatch, instances, completion, pre-emption and resume (14 R354-R358, R360-
R362), with `fxrun` and `fxabort`. -/

namespace Sys2Proof.Machine

open Sys2Proof

/-! ### Payloads, R354, R355 -/

/-- A payload whose fields break R354. -/
def payBad (p : Part) (bs : List Byte) : Bool :=
  fieldOf bs 14 2 != 0 || fieldOf bs 44 4 != 0 || fieldOf bs 60 4 != 0 || decide (4 ≤ fieldOf bs 13 1) || fieldOf bs 0 8 % 4 != 0
    || fieldOf bs 8 4 == 0 || decide (2 ^ 24 < fieldOf bs 8 4) || decide (p.stacks ≤ fieldOf bs 12 1) || fieldOf bs 24 8 % 64 != 0
    || fieldOf bs 32 8 % 128 != 0 || decide (fieldOf bs 40 4 < 2432) || fieldOf bs 40 4 % 128 != 0 || fieldOf bs 16 8 % 16 != 0

/-- The eight slots of a seed block (09 R213). Bytes 9 to 15 of a slot, which are zero there, are not looked at: the model does not
count them among the zero fields whose breach rejects a launch record (09 R214; log entry 30). -/
def seedsOf (bs : List Byte) : List Seed :=
  (List.range 8).map fun i => ⟨BitVec.ofNat 64 (fieldOf bs (16 * i) 8), fieldOf bs (16 * i + 8) 1⟩

/-- A kernel of a payload. -/
def kernelOf (id queue asid root pay : Nat) (bs : List Byte) (seeds : List Seed) (owner : Option (Nat × Dword)) (sig : Signal) : Kernel :=
  let lk := fieldOf bs 56 4
  { id := id, queue := queue, asid := asid, root := root, pay := pay, code := BitVec.ofNat 64 (fieldOf bs 0 8),
    ninst := fieldOf bs 8 4, part := fieldOf bs 12 1, fl := fieldOf bs 13 1, stat := fieldOf bs 24 8, undo := fieldOf bs 32 8,
    ubytes := fieldOf bs 40 4, args := (List.range 8).map fun i => BitVec.ofNat 64 (fieldOf bs (64 + 8 * i) 8), seeds := seeds,
    locks := if lk = 0 then [] else [lockSpan (plainCtx asid root) (fieldOf bs 48 8) lk false true id], owner := owner, signal := sig }

/-- The slices of a resume can be read: their indices, and each occupied one whole. -/
def State.slicesReadable (s : State) (k : Kernel) : Bool :=
  (List.range 64).all fun n => match s.fxRead k (k.slice n) 8 with
    | (s1, .ok bs) => natOf bs == 2 ^ 64 - 1 || (match s1.fxRead k (k.slice n) k.ubytes with | (_, .ok _) => true | _ => false)
    | _ => false

/-- The undo area can be used at dispatch (R355): its header can be written, and a resume can read it with the occupied slices. -/
def State.undoReady (s : State) (k : Kernel) : Bool :=
  (match s.canWrite k.ctx k.undo 128 with | (_, .ok _) => true | _ => false)
    && (!bitOf k.fl 0 || ((match s.fxRead k k.undo 128 with | (_, .ok _) => true | _ => false) && s.slicesReadable k))

/-! ### Admission, R356, R361 -/

/-- A kernel as an engine command, for the order of range locks. -/
def Kernel.cmd (k : Kernel) : Cmd :=
  { id := k.id, major := 30, sub := 12, mode := 0, tag := 0, core := 0, blk := 0, grp := 0, thr := 0, fromBlock := false, launch := 0,
    queue := k.queue, asid := k.asid, root := k.root, cmdId := 0, desc := [], locks := k.locks }

/-- The marks of free slices. -/
def freeMarks (k : Kernel) : List (Nat × List Byte) := (List.range 64).map fun n => (k.slice n, leOf 8 (2 ^ 64 - 1))

/-- Occupied slices of an undo area, each rolled back: slice and instance index. -/
def State.resumeSlices (s : State) (k : Kernel) : List Nat → State × Except FxErr (List (Nat × Nat))
  | [] => (s, .ok [])
  | n :: ns =>
    match s.fxRead k (k.slice n) 16 with
    | (s1, .error e) => (s1, .error e)
    | (s1, .ok bs) =>
      let idx := natOf (bs.take 8)
      let s2 := if idx = 2 ^ 64 - 1 then s1 else s1.rollback k.id n idx 0 (fieldOf bs 12 4) (fieldOf bs 8 4)
      match s2.resumeSlices k ns with
      | (s3, .error e) => (s3, .error e)
      | (s3, .ok l) => (s3, .ok (if idx = 2 ^ 64 - 1 then l else (n, idx) :: l))

/-- A fault of the engine itself while it admits a kernel ends it as a fault does. -/
def State.failKernel (s : State) (kid : Nat) (e : FxErr) : State :=
  ((s.modKernel kid fun k => k.note ⟨none, e.1, e.2.1, 0, e.2.2⟩).abortKernel kid 2).1

/-- A kernel whose range is locked begins: the undo header, and its slices free, or read for a resume. -/
def State.admitKernel (s : State) (k : Kernel) : State :=
  let s0 := s.modKernel k.id fun x => { x with admitted := true }
  if bitOf k.fl 0 then
    match s0.fxRead k k.undo 128 with
    | (s1, .error e) => s1.failKernel k.id e
    | (s1, .ok hd) =>
      match s1.resumeSlices k (List.range 64) with
      | (s2, .error e) => s2.failKernel k.id e
      | (s2, .ok l) =>
        let s3 := s2.modKernel k.id fun x => { x with next := fieldOf hd 0 4, restarts := l.map (·.1) }
        match s3.fxWrite k (k.undo + 8) (leOf 4 1) with
        | (s4, .error e) => s4.failKernel k.id e
        | (s4, .ok _) => s4
  else
    match s0.fxWrites k ((k.undo, leOf 8 0 ++ leOf 4 1 ++ leOf 116 0) :: freeMarks k) with
    | (s1, .error e) => s1.failKernel k.id e
    | (s1, .ok _) => s1

/-- Whether a kernel must wait at dispatch: for its range, in the order of 01 R23, or for a kernel dispatched before it. -/
def State.kernelWaits (s : State) (k : Kernel) : Bool :=
  s.mustWait k.cmd || s.waiting.any fun c => c.major == 30 && c.sub == 12 && decide (c.id < k.id)

/-- R356: admits a kernel that waits, in dispatch order. -/
def execFixerKernelAdmit (kernel : Nat) (s : State) : Out :=
  match sget s.kernels kernel, s.waiting.find? fun c => c.id == kernel with
  | some k, some _ =>
    if s.kernelWaits k then .next s
    else .next (({ s with waiting := s.waiting.filter fun x => x.id != kernel, locks := s.locks ++ k.locks } : State).admitKernel k)
  | _, _ => .next s

/-! ### Dispatch, R355-R358 -/

/-- What became of a payload. -/
inductive KResult where
  | refused | rejected | accepted
  deriving DecidableEq, Repr

/-- The first fault that a status area keeps from before a resume (R357). -/
def keptFault (bs : List Byte) : Option FxFault :=
  if (bs.drop 32).all fun b => b == 0 then none
  else
    let fi := fieldOf bs 24 4
    some ⟨if fi = 2 ^ 32 - 1 then none else some fi, fieldOf bs 46 1, fieldOf bs 47 1, BitVec.ofNat 64 (fieldOf bs 48 8), fieldOf bs 56 8⟩

/-- The status area at dispatch: zeroed, or for a resume its STATE cleared and its counts kept (R357). -/
def State.openStatus (s : State) (k : Kernel) : State × Kernel :=
  if bitOf k.fl 0 then
    match s.fxRead k k.stat 64 with
    | (s1, .error _) => ((s1.fxWrite k k.stat (leOf 4 0)).1, k)
    | (s1, .ok bs) =>
      ((s1.fxWrite k k.stat (leOf 4 0)).1,
        { k with nend := fieldOf bs 4 4, flags := BitVec.ofNat 32 (fieldOf bs 8 4), nstep := fieldOf bs 12 4, fault := keptFault bs })
  else ((s.fxWrite k k.stat (leOf 64 0)).1, k)

/-- Accepts a kernel: its status opened, its range locked now or waited for. -/
def State.startKernel (s : State) (k0 : Kernel) : State :=
  let (s1, k) := s.openStatus k0
  let s2 := { s1 with kernels := sput s1.kernels k.id k }
  if s2.kernelWaits k then { s2 with waiting := s2.waiting ++ [k.cmd] }
  else ({ s2 with locks := s2.locks ++ k.locks } : State).admitKernel k

/-- Kernels of a partition that are accepted and not complete. -/
def State.kernelsOn (s : State) (part : Nat) : Nat := (s.kernels.filter fun p => p.2.part == part).length

/-- Dispatches a payload (R354-R358); `limit` says that a full partition refuses it. -/
def State.dispatchKernel (s : State) (queue asid root pay : Nat) (bs : List Byte) (owner : Option (Nat × Dword)) (sig : Signal)
    (limit : Bool) : State × KResult :=
  let part := fieldOf bs 12 1
  if limit && decide (part < s.hw.part.stacks) && decide (64 ≤ s.kernelsOn part) then (s, .refused)
  else if payBad s.hw.part bs then (s, .rejected)
  else
    match s.engineReadSpan (plainCtx asid root) (fieldOf bs 16 8) 128 with
    | (s1, .error _) => (s1, .rejected)
    | (s1, .ok sd) =>
      let k := { kernelOf s1.nextId queue asid root pay bs (seedsOf sd) owner sig with
        sb := (owner.bind fun o => s1.launch? o.1).map (·.rcd.sb) }
      if s1.undoReady k then (s1.fresh.startKernel k, .accepted) else (s1, .rejected)

/-- The status of a rejected payload of `fxrun`, when it can be written (R355). -/
def State.rejectStatus (s : State) (asid root : Nat) (bs : List Byte) : State :=
  (s.engineWriteSpan (plainCtx asid root) (fieldOf bs 24 8) (leOf 4 16)).1

/-- The 128 bytes of a record that a thread posts, read at the scope of the package. -/
def State.readPosted (s : State) (w : Who) (va : Nat) : State × Except Stop (List Byte) :=
  if va % 128 ≠ 0 then (s, .error (memStop va 128 false false (8, 1)))
  else
    match s.access w va 128 .r false unsized with
    | (s1, .error e) => (s1, .error e)
    | (s1, .ok p) =>
      let (s2, bs, bad) := s1.loadAs w p 128 0 3
      (s2, if bad then .error (memStop va 128 false false (0xD, 1)) else .ok bs)

/-- A payload that a block dispatches: the outcome, with what a rejection leaves. -/
def State.dispatchFrom (s : State) (sig : Option Nat) (va : Nat) (bs : List Byte) : State × KResult :=
  let la := s.issueLaunch
  let lin := ((s.block? s.issue.core s.issue.blk).map (·.lin)).getD 0
  let x : Signal := { tag := sig.map fun k => (la.id, lin, k) }
  let (s1, r) := s.dispatchKernel la.queue la.asid la.root va bs (some (la.id, lin)) x true
  (if r = .rejected then (s1.rejectStatus la.asid la.root bs).giveTag x 64 else s1, r)

/-- One lane of `fxrun`. -/
def State.runKernel (s : State) (sig : Option Nat) (c d : BitVec 7) (l : LaneRef) (t : Thread) : LaneOut :=
  let w := s.who l
  match (s.releaseAt w 3).readPosted w (t.val64 d).toNat with
  | (s1, .error e) => (s1, some e)
  | (s1, .ok bs) =>
    let (s2, r) := s1.dispatchFrom sig (t.val64 d).toNat bs
    (s2.modLane l fun t => (t.setVal c (if r = .refused then 0 else 1)).advance 4, none)

/-- The field checks of a device-side command (R226, R358) and its lanes; a helper writes Cnt := 0. -/
def deviceOp (tag : Option (BitVec 6)) (c d : BitVec 7) (roles : List Role) (f : State → LaneRef → Thread → LaneOut) (s : State) : Out :=
  .next (s.lanes fun s l t0 =>
    let s1 := s.settleRoles l t0 (Role.dst c :: roles)
    let t := (s1.lane? l).getD t0
    match firstSome [(descField d).map plainStop, (cntDest c).map plainStop,
        (tag.bind fun k => s1.badTag k.toNat).map plainStop, checkEntry t (Role.dst c :: roles)] with
    | some e => (s1, some e)
    | none =>
      if l.helper then (s1.setLane l ((t.setVal c 0).advance 4), none)
      else match poisonOf t roles with
        | some e => (s1, some (rankPoison e (f s1 l t).2))
        | none => f s1 l t)

/-- R358: dispatches a payload. -/
def execFxrun (c d : BitVec 7) : State → Out := deviceOp none c d [.src64 d] fun s l t => s.runKernel none c d l t

/-- R358: dispatches a payload, with 64 bytes on a tag at its completion. -/
def execFxrunSig (k : BitVec 6) (c d : BitVec 7) : State → Out :=
  deviceOp (some k) c d [.src64 d] fun s l t => s.runKernel (some k.toNat) c d l t

/-- Aborts the admitted kernels of a payload address in the issuer's address space, with their count. -/
def State.abortPayload (s : State) (va : Nat) : State × Nat :=
  let la := s.issueLaunch
  let ids := (s.kernels.filter fun p => p.2.pay == va && p.2.asid == la.asid && p.2.admitted).map (·.1)
  ids.foldl (fun acc k => let r := acc.1.abortKernel k 8; (r.1, acc.2 + r.2)) (s, 0)

/-- R362: aborts the running kernels of a payload address in the issuer's address space. -/
def execFxabort (c d : BitVec 7) : State → Out :=
  deviceOp none c d [.src64 d] fun s l t =>
    let (s1, n) := (s.releaseAt (s.who l) 3).abortPayload (t.val64 d).toNat
    (s1.modLane l fun t => (t.setVal c (BitVec.ofNat 32 n)).advance 4, none)

/-! ### Instances, R356, R360, R361 -/

/-- Running instances of a partition: each takes one of its 64 fixers. -/
def State.fixersBusy (s : State) (part : Nat) : Nat :=
  s.kernels.foldl (fun n p => if p.2.part = part then n + p.2.insts.length else n) 0

/-- The instance of a checkpoint. -/
def instOf (bs : List Byte) : FxInst :=
  { index := fieldOf bs 0 8, steps := fieldOf bs 8 4, pc := BitVec.ofNat 64 (fieldOf bs 16 8), fresh := decide (fieldOf bs 8 4 ≠ 0)
    s := (List.range 16).map fun i => BitVec.ofNat 64 (fieldOf bs (128 + 8 * i) 8)
    f := (List.range 32).map fun r => lineWords ((bs.drop (256 + 64 * r)).take 64) }

/-- The first free slice. -/
def Kernel.freeSlice (k : Kernel) : Option Nat :=
  (List.range 64).find? fun n => (sget k.insts n).isNone && !(n ∈ k.restarts)

/-- Starts an instance in a slice, after its checkpoint. -/
def State.startInst (s : State) (k : Kernel) (n : Nat) : State :=
  let x := freshInst k k.next
  let s1 := s.modKernel k.id fun y => { y with next := y.next + 1, insts := sput y.insts n x }
  let base := k.slice n
  match s1.fxWrites k [(base, leOf 8 k.next ++ leOf 8 0 ++ leOf 8 k.code.toNat ++ leOf 104 0 ++ x.regBytes),
                       (k.undo, leOf 4 (k.next + 1))] with
  | (s2, .error e) => s2.fxFault k.id x e
  | (s2, .ok _) => s2

/-- R356: a free fixer of the partition restarts a slice, or starts the next instance. -/
def execFixerInstanceStart (kernel : Nat) (s : State) : Out :=
  match sget s.kernels kernel with
  | none => .next s
  | some k =>
    if !k.admitted || k.stopping || k.preempted || decide (64 ≤ s.fixersBusy k.part) then .next s
    else
      match k.restarts with
      | n :: rest =>
        let s1 := s.modKernel kernel fun y => { y with restarts := rest }
        match s1.fxRead k (k.slice n) 2304 with
        | (s2, .error e) => .next (s2.failKernel kernel e)
        | (s2, .ok bs) => .next (s2.modKernel kernel fun y => { y with insts := sput y.insts n (instOf bs) })
      | [] =>
        if k.ninst ≤ k.next then .next s
        else
          match k.freeSlice with
          | none => .next s
          | some n => .next (s.startInst k n)

/-! ### Completion, R357 -/

/-- Whether every instance has ended and none will start. -/
def Kernel.ended (k : Kernel) : Bool :=
  k.admitted && k.insts.isEmpty && !k.preempted && (k.stopping || (k.restarts.isEmpty && decide (k.ninst ≤ k.next)))

/-- FREC of a status area. -/
def Kernel.frec (k : Kernel) : List Byte :=
  match k.fault with
  | none => leOf 32 0
  | some f => ({ launch := 0, lin := BitVec.allOnes 64, thr := 0xFFFF, cause := f.cause, sub := f.sub, pc := f.pc,
                 adr := BitVec.ofNat 64 f.det } : FaultRec).bytes

/-- Bytes 4 to 63 of the status area. -/
def Kernel.statusBytes (k : Kernel) (tick : Nat) : List Byte :=
  leOf 4 k.nend ++ leOf 4 k.flags.toNat ++ leOf 4 k.nstep ++ leOf 8 tick
    ++ leOf 4 (((k.fault.bind (·.inst))).getD (2 ^ 32 - 1)) ++ leOf 4 0 ++ k.frec

/-- Completes a kernel: its reductions out of the cache, its header, its status with STATE[0] last, its range released,
and its credit. Whether its node is to succeed (R357). -/
def State.finishKernel (s : State) (k0 : Kernel) : State × Bool :=
  let s1 := (s.evictAll true (s.rdc.map (·.1))).flushDue
  let k := (sget s1.kernels k0.id).getD k0
  let s2 := (s1.fxWrite k (k.undo + 8) (leOf 4 4)).1
  let (s3, r1) := s2.fxWrite k (k.stat + 4) (k.statusBytes s2.now)
  let (s4, r2) := s3.fxWrite k k.stat (leOf 4 (k.state + 1))
  let wrote := match r1, r2 with | .ok _, .ok _ => true | _, _ => false
  let s5 := { (s4.unlock k.id) with kernels := sdel s4.kernels k.id }
  (s5.giveTag k.signal 64, wrote && k.state / 2 % 8 == 0)

/-! ### Pre-emption of a queue, R361 -/

/-- Rolls back and stops the kernels of a queue, to go on when it is resumed. -/
def State.preemptKernels (s : State) (queue : Nat) : State :=
  (s.kernels.filter fun p => p.2.queue == queue && p.2.admitted && !p.2.stopping && !p.2.preempted).foldl (fun s p =>
    let slices := p.2.insts.map (·.1)
    let s1 := (s.stopKernel p.1).modKernel p.1 fun y => { y with preempted := true, restarts := slices ++ y.restarts }
    (s1.fxWrite p.2 (p.2.undo + 8) (leOf 4 2)).1) s

/-- Lets the kernels of a queue go on. -/
def State.resumeKernels (s : State) (queue : Nat) : State :=
  (s.kernels.filter fun p => p.2.queue == queue && p.2.preempted).foldl (fun s p =>
    ((s.modKernel p.1 fun y => { y with preempted := false }).fxWrite p.2 (p.2.undo + 8) (leOf 4 1)).1) s

end Sys2Proof.Machine
end

