-- ==== Sys2Proof/Machine/CopyEngine.lean ====
section
/-! DEFINITION. The copy engine (11 R264-R283): lane copies, tile copies, register landings, converting copies,
multicasts, tags, rings, and copy nodes of task graphs. -/

namespace Sys2Proof.Machine

open Sys2Proof

/-! ### Tile descriptors, R269, R270 -/

/-- One dimension: box origin, tensor extent, byte stride, box extent. -/
structure TileDim where
  c : Int
  n : Nat
  stride : Int
  e : Nat
  deriving DecidableEq, Repr

/-- A tile descriptor. -/
structure Tile where
  tbase : Nat
  bbase : Nat
  ctl : Nat
  fill : Word
  dims : List TileDim
  deriving DecidableEq, Repr

def wordAt (d : List Word) (i : Nat) : Word := nth d i 0

/-- A 64-bit value of two words. -/
def pairAt (d : List Word) (i : Nat) : Nat := (wordAt d i).toNat + 2 ^ 32 * (wordAt d (i + 1)).toNat

/-- Dimensions that a control word names; above 5 is reserved. -/
def tileDims (d : List Word) : Nat := (wordAt d 4).toNat / 16 % 8 + 1

def tileOf (d : List Word) : Tile :=
  { tbase := pairAt d 0, bbase := pairAt d 2, ctl := (wordAt d 4).toNat, fill := wordAt d 5,
    dims := (List.range (tileDims d)).map fun i =>
      let x := wordAt d (9 + 4 * i)
      { c := (wordAt d (6 + 4 * i)).toInt, n := (wordAt d (7 + 4 * i)).toNat,
        stride := toSigned 40 ((wordAt d (8 + 4 * i)).toNat + 2 ^ 32 * (x.toNat % 256)), e := x.toNat / 256 % 65536 + 1 } }

def Tile.ty (t : Tile) : Nat := t.ctl % 16
def Tile.scp (t : Tile) : Nat := t.ctl / 128 % 8
def Tile.dir (t : Tile) : Bool := bitOf t.ctl 10
def Tile.ring (t : Tile) : Bool := bitOf t.ctl 11

/-- Element size in bytes; an FP32E element is an 8-byte image. -/
def Tile.esize (t : Tile) : Nat := if t.ty = 12 then 8 else typeWidth t.ty / 8

/-- Elements of the box. -/
def Tile.count (t : Tile) : Nat := t.dims.foldl (fun n d => n * d.e) 1

/-- Bytes of the box. -/
def Tile.bytes (t : Tile) : Nat := t.count * t.esize

/-- Reserved fields of the control word and the dimensions, with the number of dimensions legal (R269). -/
def tileReserved (d : List Word) : Bool :=
  let ctl := (wordAt d 4).toNat
  ctl / 4096 != 0 || decide (4 < ctl / 128 % 8) || typeReserved (ctl % 16)
    || (List.range (tileDims d)).any fun i => (wordAt d (9 + 4 * i)).toNat / 2 ^ 24 != 0

/-- A descriptor whose number of dimensions is reserved. -/
def tileNdimBad (d : List Word) : Bool := decide (5 < tileDims d)

/-- Whether the tensor base or a stride is off the element size. -/
def Tile.tensorOdd (t : Tile) : Bool :=
  t.tbase % t.esize != 0 || t.dims.any fun d => d.stride % (t.esize : Int) != 0

/-- The coordinates of box element k. -/
def boxCoords : List TileDim → Nat → List Nat
  | [], _ => []
  | d :: ds, k => k % d.e :: boxCoords ds (k / d.e)

/-- The exact tensor address of a box element, where it is inside. -/
def Tile.tensorAddr (t : Tile) (k : Nat) : Option Int :=
  let xs := List.zipWith (fun d j => (d, d.c + (j : Int))) t.dims (boxCoords t.dims k)
  if xs.all fun x => decide (0 ≤ x.2) && decide (x.2 < (x.1.n : Int)) then
    some (xs.foldl (fun a x => a + x.2 * x.1.stride) (t.tbase : Int))
  else none

/-- The address of a box element in a box at a base. -/
def Tile.boxAddr (t : Tile) (base k : Nat) : Nat := (base + t.esize * k) % 2 ^ 64

/-- The bounding span of the inside elements: first byte and length (R276). -/
def Tile.tensorSpan (t : Tile) : Option (Nat × Nat) :=
  let rs := t.dims.map fun d =>
    let lo := max 0 d.c
    let hi := min (d.n : Int) (d.c + d.e) - 1
    (lo, hi, d.stride)
  if rs.any fun r => decide (r.2.1 < r.1) then none
  else
    let lo := rs.foldl (fun a r => a + min (r.1 * r.2.2) (r.2.1 * r.2.2)) (t.tbase : Int)
    let hi := rs.foldl (fun a r => a + max (r.1 * r.2.2) (r.2.1 * r.2.2)) (t.tbase : Int)
    some (lo.toNat, (hi + t.esize).toNat - lo.toNat)

/-- The fill bytes of an element. -/
def Tile.fillBytes (t : Tile) : List Byte := leOf t.esize t.fill.toNat

/-! ### Moving boxes, R271 -/

/-- The bytes of a box element read from the tensor: FILL outside and where it faults. -/
def State.tensorElem (s : State) (c : VCtx) (t : Tile) (k : Nat) : State × List Byte × ElemFault :=
  match t.tensorAddr k with
  | none => (s, t.fillBytes, none)
  | some a =>
    match exactAddr a with
    | .error f => (s, t.fillBytes, some (k, f.1, f.2, addrLow a))
    | .ok va =>
      match s.readElem c va t.esize with
      | (s1, .ok bs) => (s1, bs, none)
      | (s1, .error f) => (s1, t.fillBytes, some (k, f.1, f.2, va))

/-- One element from the tensor to a box. -/
def State.fillElem (s : State) (c : VCtx) (t : Tile) (base k : Nat) : State × ElemFault :=
  let (s1, bs, f) := s.tensorElem c t k
  match s1.writeElem c (t.boxAddr base k) bs with
  | (s2, .ok _) => (s2, f)
  | (s2, .error g) => (s2, firstFault f (some (k, g.1, g.2, t.boxAddr base k)))

/-- One element from a box to the tensor. -/
def State.drainElem (s : State) (c : VCtx) (t : Tile) (base k : Nat) : State × ElemFault :=
  match t.tensorAddr k with
  | none => (s, none)
  | some a =>
    match exactAddr a with
    | .error f => (s, some (k, f.1, f.2, addrLow a))
    | .ok va =>
      match s.readElem c (t.boxAddr base k) t.esize with
      | (s1, .error f) => (s1, some (k, f.1, f.2, t.boxAddr base k))
      | (s1, .ok bs) =>
        match s1.writeElem c va bs with
        | (s2, .ok _) => (s2, none)
        | (s2, .error f) => (s2, some (k, f.1, f.2, va))

/-- Every element in ascending order, with the first fault. -/
def State.eachElem (s : State) (n : Nat) (f : State → Nat → State × ElemFault) : State × ElemFault :=
  (List.range n).foldl (fun acc k => let r := f acc.1 k; (r.1, firstFault acc.2 r.2)) (s, none)

/-- A tile copy (R271). -/
def State.moveTile (s : State) (c : VCtx) (t : Tile) (base : Nat) : State × ElemFault :=
  s.eachElem t.count fun s k => if t.dir then s.drainElem c t base k else s.fillElem c t base k

/-- The bytes of a whole box read from the tensor. -/
def State.readBox (s : State) (c : VCtx) (t : Tile) : State × List Byte × ElemFault :=
  (List.range t.count).foldl (fun acc k =>
    let (s1, bs, f) := acc.1.tensorElem c t k
    (s1, acc.2.1 ++ bs, firstFault acc.2.2 f)) (s, [], none)

/-! ### Register landings, R272 -/

/-- Lands a box's bytes in the registers of one thread. -/
def landWords (lay rank : Nat) (bs : List Byte) : List Word :=
  let u := 4 * 2 ^ lay
  let regs := (bs.length + 32 * u - 1) / (32 * u)
  (List.range regs).flatMap fun j =>
    let unit := (bs.drop ((32 * j + rank) * u)).take u
    (List.range (2 ^ lay)).map fun i => wordOf ((unit.drop (4 * i)).take 4)

/-- Registers that a landing covers. -/
def landRegs (lay bytes : Nat) : Nat := (bytes + 128 * 2 ^ lay - 1) / (128 * 2 ^ lay) * 2 ^ lay

/-- The groups of a block as a mask, but for those that a repacking has ended (08 R207). -/
def Block.groupMask (b : Block) : Nat := b.groups.foldl (fun m g => if g ∈ b.ended then m else m + 2 ^ g) 0

/-- Lands a box in every thread of the named groups. -/
def Block.land (b : Block) (groups : Word) (lay reg : Nat) (bs : List Byte) : Block :=
  { b with threads := b.threads.map fun p =>
      (p.1, if p.2.live && groups.getLsbD p.2.group then p.2.setRegs reg (landWords lay p.2.rank bs) else p.2) }

/-! ### Converting copies, R273 -/

/-- The parts of a converting copy: its control word, scale base, pitch, and the row length. -/
structure Conv where
  ccw : Ccw
  sbase : Nat
  pitch : Nat
  deriving DecidableEq, Repr

def convOf (d : List Word) : Conv :=
  let k := 6 + 4 * tileDims d
  { ccw := ccwOf (wordAt d k) (wordAt d (k + 1)), sbase := pairAt d (k + 2), pitch := (wordAt d (k + 4)).toNat }

def Tile.rowLen (t : Tile) : Nat := (t.dims.head?.map (·.e)).getD 1
def Tile.rows (t : Tile) : Nat := t.count / t.rowLen

/-- Scale bytes that a converting copy writes. -/
def scaleBytes (t : Tile) (v : Conv) : Nat :=
  match v.ccw.sch with
  | 0 => 0
  | 1 => (t.rowLen + 31) / 32 * ((t.rows + 31) / 32)
  | _ => 4 * t.rows * (t.rowLen / v.ccw.group)

/-- Packed bytes of the narrow box. -/
def packedBytes (t : Tile) (v : Conv) : Nat := (t.count * typeWidth v.ccw.nt + 7) / 8

/-- The span of the scale array that the box covers. -/
def scaleSpan (t : Tile) (v : Conv) : Nat :=
  match v.ccw.sch with
  | 0 => 0
  | 1 => ((t.rows + 31) / 32 - 1) * v.pitch + (t.rowLen + 31) / 32
  | _ => (t.rows - 1) * v.pitch + 4 * (t.rowLen / v.ccw.group)

/-- A coordinate or extent that is no multiple. -/
def offMultiple (x : Int) (n : Nat) : Bool := x % (n : Int) != 0

/-- The combinations that R273 refuses. -/
def convBad (t : Tile) (v : Conv) : Option Nat :=
  let d0 := (t.dims[0]?).getD ⟨0, 0, 0, 1⟩
  let b := 2 ^ blockLog (v.ccw.tag % 4)
  let b := if v.ccw.tag % 4 = 0 then 1 else b
  if v.ccw.wt = 0 ∨ 3 < v.ccw.wt ∨ v.ccw.nt < 4 ∨ 10 < v.ccw.nt then some 0x20
  else if (v.ccw.sch = 1 ∧ 6 < v.ccw.nt) ∨ (v.ccw.sch = 2 ∧ v.ccw.nt < 7) then some 0x21
  else if offMultiple d0.c b || d0.e % b != 0 || (v.ccw.sch == 2 && (offMultiple d0.c v.ccw.group || d0.e % v.ccw.group != 0))
      || (v.ccw.sch == 1 && (decide (2 < t.dims.length) || t.dims.any fun d => offMultiple d.c 32 || d.e % 32 != 0))
      || (typeWidth v.ccw.nt == 4 && d0.e % 2 != 0) then some 0x22
  else none

/-- The number of the first block of a row. -/
def Conv.n0 (v : Conv) (t : Tile) : Nat :=
  let c0 := ((t.dims.head?).map (·.c)).getD 0
  (c0 / ((2 ^ blockLog (v.ccw.tag % 4) : Nat) : Int) % (2 ^ 24 : Int)).toNat

/-- The values of a row of wide elements: outside and faulting ones are +0. -/
def State.wideRow (s : State) (c : VCtx) (t : Tile) (r : Nat) : State × List Num × ElemFault :=
  (List.range t.rowLen).foldl (fun (acc : State × List Num × ElemFault) j =>
    let k := r * t.rowLen + j
    match t.tensorAddr k with
    | none => (acc.1, acc.2.1 ++ [Num.ofInt 0], acc.2.2)
    | some _ =>
      let (s1, bs, f) := acc.1.tensorElem c t k
      (s1, acc.2.1 ++ [if f.isSome then Num.ofInt 0 else elemNum t.ty (natOf bs)], firstFault acc.2.2 f)) (s, [], none)

/-- Where the rows of a quantised box go: elements by row, scale bytes with their offsets, flags. -/
structure Packed where
  elems : List (List Nat)
  scales : List (Nat × List Byte)
  flags : Word

/-- Quantises the 32 x 32 square whose rows are given, column by column of squares. -/
def quantSquares (v : Conv) (md : Rnd) (i : Nat) (rows : List (List (Num × Bool))) (cols : Nat) : Packed :=
  let sq := (List.range cols).map fun j =>
    let part := rows.map fun r => ((r.drop (32 * j)).take 32).map (·.1)
    let (es, c, f) := e8m0With v.ccw.nt md part.flatten (.ofInt 0)
    (chunks 32 es.length es, c, f)
  { elems := (List.range rows.length).map fun r => sq.flatMap fun q => nth q.1 r []
    scales := [(i * v.pitch, sq.map fun q => BitVec.ofNat 8 q.2.1)]
    flags := sq.foldl (fun f q => f ||| q.2.2) 0 }

/-- Quantises rotated rows under any scheme. -/
def quantRows (v : Conv) (md : Rnd) (rows : List (List (Num × Bool))) (rowLen : Nat) : Packed :=
  let parts : List Packed :=
    match v.ccw.sch with
    | 1 =>
      let bands := chunks 32 rows.length rows
      (List.range bands.length).map fun i => quantSquares v md i (nth bands i []) ((rowLen + 31) / 32)
    | sch =>
      (List.range rows.length).map fun r =>
        let (es, recs, f) := quantise sch v.ccw.nt v.ccw.group md (rsSat v.ccw.rs) (nth rows r []) (.ofInt 0)
        { elems := [es], scales := if sch = 0 then [] else [(r * v.pitch, recs.flatMap fun x => leOf 4 x)], flags := f }
  { elems := parts.flatMap (·.elems), scales := parts.flatMap (·.scales), flags := parts.foldl (fun f p => f ||| p.flags) 0 }

/-- Narrow elements as packed bytes, lowest first (02 R39). -/
def packBytes (w : Nat) (es : List Nat) : List Byte :=
  if w = 4 then (chunks 2 es.length es).map fun p => BitVec.ofNat 8 (nth p 0 0 % 16 + 16 * (nth p 1 0 % 16))
  else es.map fun e => BitVec.ofNat 8 e

/-- Writes a packed run piece by piece: a piece that faults is not written, the others are. The first fault is that of the
element of width `w` bits that stands at it, counted from `k`. -/
def State.writePieces (s : State) (c : VCtx) (va : Nat) (cuts : List (Nat × Nat)) (k w : Nat) (bs : List Byte) : State × ElemFault :=
  cuts.foldl (fun (acc : State × ElemFault) cut =>
    match acc.1.writeElem c cut.1 ((bs.drop (cut.1 - va)).take cut.2) with
    | (s1, .ok _) => (s1, acc.2)
    | (s1, .error f) => (s1, firstFault acc.2 (some (k + (cut.1 - va) * 8 / w, f.1, f.2, cut.1)))) (s, none)

/-- A run of records of `n` bytes from an address. -/
def recordCuts (va n len : Nat) : List (Nat × Nat) := (List.range (len / n)).map fun i => (va + n * i, n)

/-- A quantising copy: its state, first fault, flags. -/
def State.quantCopy (s : State) (c : VCtx) (t : Tile) (v : Conv) (seed : Dword) (rm : Nat) : State × ElemFault × Word :=
  let md := rsMode v.ccw.rs rm
  let (s1, rows, f, fl) := (List.range t.rows).foldl (fun (acc : State × List (List (Num × Bool)) × ElemFault × Word) r =>
    let (s1, xs, f) := acc.1.wideRow c t r
    let (ys, g) := rotValues false (v.ccw.tag % 4) seed (v.n0 t) xs
    (s1, acc.2.1 ++ [ys], firstFault acc.2.2.1 f, acc.2.2.2 ||| g)) (s, [], none, 0)
  let q := quantRows v md rows t.rowLen
  let w := typeWidth v.ccw.nt
  let bytes := packBytes w q.elems.flatten
  let (s2, f2) := s1.writePieces c t.bbase (lineCuts (bytes.length / 128 + 2) t.bbase bytes.length) 0 w bytes
  let (s3, f3) := q.scales.foldl (fun (acc : State × ElemFault) x =>
    let va := v.sbase + x.1
    let (s3, f) := acc.1.writePieces c va (recordCuts va (if v.ccw.sch = 1 then 1 else 4) x.2.length) t.count 8 x.2
    (s3, firstFault acc.2 f)) (s2, none)
  (s3, firstFault (firstFault f f2) f3, fl ||| q.flags)

/-- The scale word of a narrow element (R273): its address and size. -/
def scalePlace (t : Tile) (v : Conv) (k : Nat) : Nat × Nat :=
  let k0 := k % t.rowLen
  let row := k / t.rowLen
  if v.ccw.sch = 1 then (v.sbase + row / 32 * v.pitch + k0 / 32, 1) else (v.sbase + row * v.pitch + 4 * (k0 / v.ccw.group), 4)

/-- A narrow element decoded: its value, whether it faulted, flags. -/
def State.narrowElem (s : State) (c : VCtx) (t : Tile) (v : Conv) (k : Nat) : State × Num × Word × ElemFault :=
  let w := typeWidth v.ccw.nt
  let va := t.bbase + k * w / 8
  match s.readElem c va 1 with
  | (s1, .error f) => (s1, .ofInt 0, 0, some (k, f.1, f.2, va))
  | (s1, .ok bs) =>
    let e := natOf bs / 2 ^ (k * w % 8) % 2 ^ w
    if v.ccw.sch = 0 then
      let (x, fl) := dequant 0 v.ccw.nt 0 e
      (s1, x, fl, none)
    else
      let (sa, n) := scalePlace t v k
      match s1.readElem c sa n with
      | (s2, .error f) => (s2, .ofInt 0, 0, some (k, f.1, f.2, sa))
      | (s2, .ok sb) =>
        let (x, fl) := dequant v.ccw.sch v.ccw.nt (natOf sb) e
        (s2, x, fl, none)

/-- One row of a dequantising copy. -/
def State.dequantRow (s : State) (c : VCtx) (t : Tile) (v : Conv) (seed : Dword) (md : Rnd) (r : Nat) : State × ElemFault × Word :=
  let (s1, xs, fl, fs) := (List.range t.rowLen).foldl (fun (acc : State × List Num × Word × List ElemFault) j =>
    let (s1, x, f, e) := acc.1.narrowElem c t v (r * t.rowLen + j)
    (s1, acc.2.1 ++ [x], acc.2.2.1 ||| f, acc.2.2.2 ++ [e])) (s, [], 0, [])
  let (ys, g) := rotValues true (v.ccw.tag % 4) seed (v.n0 t) xs
  (List.range t.rowLen).foldl (fun (acc : State × ElemFault × Word) j =>
    let k := r * t.rowLen + j
    let (bits, h) := (typeFmt t.ty).round md (rsSat v.ccw.rs) (nth ys j (Num.ofInt 0, false)).1
    let flags := acc.2.2 ||| h
    match nth fs j none, t.tensorAddr k with
    | some e, _ => (acc.1, firstFault acc.2.1 (some e), flags)
    | none, none => (acc.1, acc.2.1, flags)
    | none, some a =>
      match exactAddr a with
      | .error f => (acc.1, firstFault acc.2.1 (some (k, f.1, f.2, addrLow a)), flags)
      | .ok va =>
        match acc.1.writeElem c va (leOf t.esize bits) with
        | (s2, .ok _) => (s2, acc.2.1, flags)
        | (s2, .error f) => (s2, firstFault acc.2.1 (some (k, f.1, f.2, va)), flags))
    (s1, none, if v.ccw.tag % 4 = 0 then fl ||| g else g)

/-- A converting copy. -/
def State.convCopy (s : State) (c : VCtx) (t : Tile) (v : Conv) (seed : Dword) (rm : Nat) : State × ElemFault × Word :=
  if t.dir then
    (List.range t.rows).foldl (fun (acc : State × ElemFault × Word) r =>
      let (s1, f, g) := acc.1.dequantRow c t v seed (rsMode v.ccw.rs rm) r
      (s1, firstFault acc.2.1 f, acc.2.2 ||| g)) (s, none, 0)
  else s.quantCopy c t v seed rm

/-! ### Checks at issue -/

/-- The sizes of a copy's credit (R267). -/
def creditBytes (sub : Nat) (t : Tile) (d : List Word) : Nat :=
  if sub = 3 then (if t.dir then t.count * (typeWidth (convOf d).ccw.wt / 8) else packedBytes t (convOf d) + scaleBytes t (convOf d))
  else t.bytes

/-- Reserved fields of a tile command's descriptor (R269, R272, R273). -/
def tileWordBad (sub : Nat) (d : List Word) : Bool :=
  let t := tileOf d
  tileReserved d || (t.ring && (sub != 1 || t.dir)) || (t.dir && (sub == 2 || sub == 4))
    || (sub == 2 && ((wordAt d 2).toNat / 4096 != 0 || (wordAt d 2).toNat / 1024 % 4 == 3))
    || (sub == 3 && ((convOf d).ccw.reserved || wordAt d (7 + 4 * tileDims d) != 0 || t.ty != (convOf d).ccw.wt))

/-- The landing of a `cptr`: layout and first register. -/
def landOf (d : List Word) : Nat × Nat := ((wordAt d 2).toNat / 1024 % 4, (wordAt d 2).toNat % 1024)

/-- Field legality of a register landing (R272), with the block's groups as a mask. -/
def landBad (d : List Word) (groups : Nat) : Option (Nat × Nat) :=
  let (lay, r) := landOf d
  if lay = 1 ∧ r % 2 ≠ 0 then some (3, 3)
  else if lay = 2 ∧ r % 4 ≠ 0 then some (3, 0x10)
  else if Nat.land (wordAt d 3).toNat groups ≠ (wordAt d 3).toNat then some (3, 0x42)
  else none

/-- The checks of a tile descriptor's words, and of the credit that it gives (R267). -/
def tileStop (sub : Nat) (d : List Word) : List (Option Stop) :=
  [stopIf (tileWordBad sub d) 2 0, stopIf (decide (2 ^ 24 ≤ creditBytes sub (tileOf d) d)) 3 0x40]

/-- The later checks: types, then alignment (R269, R273). -/
def tileLate (sub : Nat) (d : List Word) : List (Option Stop) :=
  let t := tileOf d
  [stopIf (sub != 3 && typeWidth t.ty == 4) 0x11 0x40,
   if sub = 3 then (convBad t (convOf d)).map fun x => .trap 0x11 x 0 0 else none]

/-- The alignment checks. -/
def tileAlign (sub : Nat) (d : List Word) : Option Stop :=
  let t := tileOf d
  stopIf (t.tensorOdd || (sub != 2 && !t.ring && t.bbase % t.esize != 0)) 8 1

/-- Registers of a tile descriptor. -/
def tileRegs (sub : Nat) (d : List Word) : Nat := 6 + 4 * tileDims d + (if sub = 3 then 5 else 0)

/-! ### Issue -/

/-- Takes the next serial number of a core's copy engine. -/
def State.nextCopy (s : State) (core : Nat) : State × Dword :=
  let k := s.coreAt core
  (s.setCore core { k with copySerial := k.copySerial + 1 }, engineId core k.copySerial)

/-- The entry of a tile's tensor (R276): none where no element is inside. -/
def Tile.tensorLock (t : Tile) (c : VCtx) (holder : Nat) : List Lock :=
  match t.tensorSpan with
  | none => []
  | some (lo, n) => [lockSpan c lo n t.dir t.dir holder]

/-- The entries of a tile command that names no ring: a quantising copy has a second destination, its scales (R276). -/
def tileLocks (c : VCtx) (sub : Nat) (d : List Word) (holder : Nat) : List Lock :=
  let t := tileOf d
  let boxLen := if sub = 3 then packedBytes t (convOf d) else t.bytes
  let scales := if sub = 3 ∧ !t.dir ∧ scaleSpan t (convOf d) ≠ 0 then
      [lockSpan c (convOf d).sbase (scaleSpan t (convOf d)) true true holder] else []
  if sub = 2 then t.tensorLock c holder
  else t.tensorLock c holder ++ [lockSpan c t.bbase boxLen (!t.dir) (!t.dir) holder] ++ scales

/-- Issues the command of one lane once its checks have passed: the in-flight limit, the block's held commands, the
release, the admission. -/
def State.sendCopy (s : State) (l : LaneRef) (c : Cmd) : State :=
  if 64 ≤ s.copiesOf s.issue.core then s.modLane l fun t => t.hold (.held .copies)
  else if c.awaitsSlot ∧ s.heldMax s.issue.core s.issue.blk then s.modLane l fun t => t.hold (.held .ring)
  else
    let s1 := s.releaseAt (s.who l) 3
    let (s2, cid) := s1.nextCopy s1.issue.core
    s2.issueCmd { c with cmdId := cid } [l]

/-- The checks of a tile command's descriptor in one lane, of which the first of R26 stops it: its words, or its stop. Where its
first six words cannot be read, only what the instruction's own word names is tested beside them. -/
def State.tileDesc (s : State) (sub tag extra : Nat) (t : Thread) (d : BitVec 7) : Except Stop (List Word) :=
  let word := [(s.badTag tag).map plainStop, stopIf (sub == 3 && t.absReg d.toNat % 2 == 1) 3 3]
  match runCheck t d 6 with
  | some e => .error ((firstSome word).getD e)
  | none =>
    let head := descRun t d 6
    if tileNdimBad head then .error (.trap 2 0 0 0)
    else
      let n := tileRegs sub head
      let desc := descRun t d n
      let whole := (runBeyond t d n).isNone
      let groups := ((s.block? s.issue.core s.issue.blk).map fun b => b.groupMask).getD 0
      let landing := if sub = 2 then landBad desc groups else none
      let beyondLand := if sub = 2 then
          stopIf (decide ((wordAt desc 3).toNat ≠ 0) && decide (t.nregs < (landOf desc).2 + landRegs (landOf desc).1 (tileOf desc).bytes)) 6 0
        else none
      let seedStop := if sub = 3 then (halfFault s.issueLaunch (convOf desc).ccw.tag false).map tagStop else none
      let checks := if whole then
          word ++ tileStop sub desc ++ [landing.map plainStop, beyondLand] ++ tileLate sub desc
            ++ [seedStop, tileAlign sub desc, runPoison t d n]
        else word ++ [stopIf (tileReserved head) 2 0, runBeyond t d n]
      match firstRanked checks with
      | some e => .error e
      | none => .ok (desc.take (n + extra))

/-- The command of a tile instruction, with its entries, or waiting for a slot of its ring. -/
def State.tileCommand (s : State) (sub tag : Nat) (l : LaneRef) (t : Thread) (desc : List Word) (ring : Option Ring) : Cmd :=
  let ctx := s.ctxOf s.issue.core s.issue.blk
  let tl := tileOf desc
  let base : Cmd := { s.laneCmd l t 25 sub 0 tag desc with
    regs := sub == 2
    data := if sub = 3 then leOf 8 (ccwSeed s.issueLaunch (convOf desc).ccw).toNat else [] }
  match ring with
  | none => { base with locks := tileLocks ctx sub desc base.id }
  | some r =>
    let c : Cmd := { base with aux := [r.place, 1, tl.bbase], locks := tl.tensorLock ctx base.id }
    match (if s.ringWaitsBefore s.issue.core r.place c.id then none else s.nextSlot r) with
    | some k => { c with aux := c.aux ++ [c.id], slot := some k, locks := c.slotLocks ctx r.slsz k }
    | none => c

/-- The ring of a tile command that names one; its slot must hold the box. -/
def State.tileRing (s : State) (desc : List Word) : Except Nat (Option Ring) :=
  let tl := tileOf desc
  if tl.ring then
    let ntags := ((s.block? s.issue.core s.issue.blk).map (·.ntags)).getD 0
    match s.ringAt (s.ctxOf s.issue.core s.issue.blk) tl.bbase ntags with
    | .error sub => .error sub
    | .ok r => if r.slsz < tl.bytes then .error 1 else .ok (some r)
  else .ok none

/-- `cpt`, `cptr`, `cptc` in one lane: after the checks and the release, which the header of a ring is read after, the command. -/
def State.tileLane (s : State) (sub tag : Nat) (d : BitVec 7) (l : LaneRef) (t : Thread) : LaneOut :=
  if l.helper then (s.advanceLane l, none)
  else
    match s.tileDesc sub tag 0 t d with
    | .error e => (s, some e)
    | .ok desc =>
      let s1 := s.releaseAt (s.who l) 3
      match s1.tileRing desc with
      | .error sub' => (s1, some (.trap 0x1A sub' 0 0))
      | .ok r => (s1.sendCopy l (s1.tileCommand sub tag l t desc r), none)

/-- A tile instruction: the fields of the word, then each lane. -/
def tileInstr (sub : Nat) (tag : BitVec 6) (d : BitVec 7) : State → Out :=
  wordCheck (descField d) fun s => .next (s.lanes fun s l t =>
    let s1 := s.settleLaneRun l d 31
    s1.tileLane sub tag.toNat d l ((s1.lane? l).getD t))

/-- R271: a tile copy, one command per lane. -/
def execCpt (tag : BitVec 6) (d : BitVec 7) : State → Out := tileInstr 1 tag d

/-- R272: a tile copy that lands in registers. -/
def execCptr (tag : BitVec 6) (d : BitVec 7) : State → Out := tileInstr 2 tag d

/-- R273: a converting tile copy. -/
def execCptc (tag : BitVec 6) (d : BitVec 7) : State → Out := tileInstr 3 tag d

/-! ### Lane copies, R268 -/

/-- A span of addresses from the lowest to the last byte. -/
def boundSpan (as : List Nat) (n : Nat) : Nat × Nat :=
  let lo := as.foldl min (as.headD 0)
  (lo, as.foldl max 0 + n - lo)

/-- The fault of one address of a lane copy: alignment, translation, permission, and the debug mode's size (R127, R149). -/
def State.cplAddr (s : State) (n va : Nat) (need : Need) : State × Option (Nat × Nat) :=
  if va % n ≠ 0 then (s, some (8, 1))
  else
    match s.translate (s.ctxOf s.issue.core s.issue.blk) va need with
    | (s1, .error f) => (s1, some f)
    | (s1, .ok p) =>
      (s1, if s1.sizeDebug s.issue.core s.issue.blk && sizedAt 3 s1 p && s1.sizeClash p.pa n then some (0x0C, 1) else none)

/-- The checks of one lane's copy: of both addresses, the fault of the lower priority number (01 R26). -/
def State.cplCheck (s : State) (n src dst : Nat) : State × Option Stop :=
  let (s1, a) := s.cplAddr n src .r
  let (s2, b) := s1.cplAddr n dst .w
  (s2, match a, b with
    | none, none => none
    | some f, none => some (memStop src n false false f)
    | none, some g => some (memStop dst n true false g)
    | some f, some g => some (if g.1 < f.1 then memStop dst n true false g else memStop src n false false f))

/-- One lane of `cpl` at its checks: its two addresses. -/
def State.cplLane (s : State) (n tag : Nat) (d : BitVec 7) (l : LaneRef) : State × List (LaneRef × Nat × Nat) :=
  let s0 := s.settleLaneRun l d 4
  match s0.lane? l with
  | none => (s0, [])
  | some t =>
    if l.helper then (s0.advanceLane l, [])
    else
      match firstSome [(s0.badTag tag).map plainStop, stopIf (t.absReg d.toNat % 2 == 1) 3 3, runBeyond t d 4] with
      | some e => (s0.stopLane l e, [])
      | none =>
        let w := descRun t d 4
        let (s1, f) := s0.cplCheck n (pairAt w 0) (pairAt w 2)
        match firstSome [f, runPoison t d 4] with
        | some e => (s1.stopLane l e, [])
        | none => (s1, [(l, pairAt w 0, pairAt w 2)])

/-- Issues the one command of lanes that copy, each from an address to an address; 64 commands in flight hold them. -/
def State.sendLanes (s1 : State) (m tag : Nat) (vs : List (LaneRef × Nat × Nat)) : State :=
  match vs with
  | [] => s1
  | v :: _ =>
    let n := 4 * 2 ^ m
    let ls := vs.map (·.1)
    if 64 ≤ s1.copiesOf s1.issue.core then ls.foldl (fun s l => s.modLane l fun t => t.hold (.held .copies)) s1
    else
      let s2 := ls.foldl (fun s l => s.releaseAt (s.who l) 3) s1
      let (s3, cid) := s2.nextCopy s2.issue.core
      match s3.lane? v.1 with
      | none => s3
      | some t =>
        let ctx := s3.ctxOf s3.issue.core s3.issue.blk
        let base := s3.laneCmd v.1 t 25 0 m tag []
        let (slo, sn) := boundSpan (vs.map (·.2.1)) n
        let (dlo, dn) := boundSpan (vs.map (·.2.2)) n
        s3.issueCmd { base with
          cmdId := cid
          lanes := ls.map fun l => (l.idx, 0)
          aux := n :: vs.flatMap fun v => [v.2.1, v.2.2]
          locks := [lockSpan ctx slo sn false false base.id, lockSpan ctx dlo dn true true base.id] } ls

/-- R268: one command for the group's lane copies. -/
def execCpl (m : BitVec 2) (tag : BitVec 6) (d : BitVec 7) : State → Out :=
  wordCheck (if m.toNat = 3 then some (2, 0) else descField d) fun s =>
    let n := 4 * 2 ^ m.toNat
    let (s1, vs) := s.issue.lanes.foldl (fun (acc : State × List (LaneRef × Nat × Nat)) l =>
      let r := acc.1.cplLane n tag.toNat d l
      (r.1, acc.2 ++ r.2)) (s, [])
    .next (s1.sendLanes m.toNat tag.toNat vs)

/-! ### Multicast, R274, R275 -/

/-- The block of a rank in a cluster: core and block. -/
def State.clusterBlock (s : State) (b : Block) (rank : Nat) : Option (Nat × Nat) :=
  firstSome (s.cores.map fun p =>
    (p.2.blocks.find? fun q => q.2.launch == b.launch && !q.2.spawn && q.2.cluster == b.cluster && q.2.crank == rank).map fun q => (p.1, q.1))

/-- A receiver of a multicast: its number among the set bits of the mask, its core and block, its landing base. -/
structure Receiver where
  num : Nat
  core : Nat
  blk : Nat
  base : Nat
  deriving DecidableEq, Repr

/-- The receivers of a mask that are resident (log entry 18): a block that has retired keeps its number. -/
def State.receivers (s : State) (b : Block) (mask : Nat) (off : Nat) : List Receiver :=
  (((List.range 16).filter fun i => bitOf mask i).zipIdx).filterMap fun x =>
    (s.clusterBlock b x.1).map fun cb =>
      let base := ((s.block? cb.1 cb.2).map fun r => r.cplbl.toNat + 2 ^ 32 * r.cplbh.toNat).getD 0
      ⟨x.2, cb.1, cb.2, (base + off) % 2 ^ 64⟩

/-- A receiver mask (R274): reserved bits, then too many or absent receivers. -/
def maskStop (mask cblk : Nat) : List (Option Stop) :=
  let n := ((List.range 16).filter fun i => bitOf mask i).length
  [stopIf (decide (65536 ≤ mask)) 2 0, stopIf (decide (2 ^ cblk ≤ mask) || decide (12 < n)) 3 0x41]

/-- The receivers of a multicast command, as its `aux` holds them. -/
def Cmd.landings (c : Cmd) : List Receiver :=
  (chunks 4 c.aux.length c.aux).map fun x => ⟨nth x 0 0, nth x 1 0, nth x 2 0, nth x 3 0⟩

/-- A multicast command of one lane, with the entries of its source span and of each receiver's landing. -/
def State.multicast (s : State) (l : LaneRef) (t : Thread) (sub tag : Nat) (desc : List Word) (mask off : Nat)
    (src : Option (Nat × Nat)) (len : Nat) : Cmd :=
  let rs := ((s.block? s.issue.core s.issue.blk).map fun b => s.receivers b mask off).getD []
  let base := s.laneCmd l t 25 sub 0 tag desc
  let ctx := s.ctxOf s.issue.core s.issue.blk
  { base with
    aux := rs.flatMap fun r => [r.num, r.core, r.blk, r.base]
    peers := rs.map fun r => (r.core, r.blk)
    locks := (match src with | some (lo, n) => [lockSpan ctx lo n false false base.id] | none => [])
      ++ rs.map fun r => lockSpan (s.ctxOf r.core r.blk) r.base len true true base.id }

/-- R274: the multicast of a tile. -/
def execCpml (tag : BitVec 6) (c d : BitVec 7) : State → Out :=
  wordCheck (descField d) fun s => .next (s.lanes fun s l t0 =>
    let s1 := (s.settleLaneRun l d 26).settleRoles l t0 [.src c]
    let t := (s1.lane? l).getD t0
    let s := s1
    if l.helper then (s.advanceLane l, none)
    else
      let mask := (t.val c).toNat
      let own := check t [.src c]
      let masks := if own.isSome then [own] else maskStop mask s.issueLaunch.rcd.cblk
      match s.tileDesc 4 tag.toNat 0 t d with
      | .error e => (s, firstRanked (some e :: masks))
      | .ok desc =>
        match firstRanked masks with
        | some e => (s, some e)
        | none =>
          let tl := tileOf desc
          (s.sendCopy l (s.multicast l t 4 tag.toNat desc mask tl.bbase tl.tensorSpan tl.bytes), none))

/-- The checks of a slice descriptor (R275). -/
def sliceStop (d : List Word) : List (Option Stop) :=
  [stopIf ((wordAt d 8).toNat / 8 != 0 || decide (4 < (wordAt d 8).toNat % 8)) 2 0,
   stopIf (decide (2 ^ 24 ≤ (wordAt d 4).toNat + (wordAt d 5).toNat)) 3 0x40]

/-- The alignment of a slice descriptor. -/
def sliceAlign (d : List Word) : Option Stop :=
  stopIf (pairAt d 0 % 4 != 0 || pairAt d 6 % 4 != 0 || pairAt d 2 % 4 != 0 || (wordAt d 4).toNat % 4 != 0
    || (wordAt d 5).toNat % 4 != 0) 8 1

/-- The bounding span of a slice command's source. -/
def sliceSpan (d : List Word) (k : Nat) : Nat × Nat :=
  let a : Int := pairAt d 0
  let lc : Int := (wordAt d 4).toNat
  let ls : Int := (wordAt d 5).toNat
  let ss := toSigned 64 (pairAt d 6)
  let starts := (List.range k).map fun i => a + lc + (i : Int) * ss
  let lo := starts.foldl min a
  let hi := starts.foldl (fun m x => max m (x + ls)) (a + lc)
  (lo.toNat, hi.toNat - lo.toNat)

/-- R275: the multicast of common and per-receiver slices. -/
def execCpms (tag : BitVec 6) (c d : BitVec 7) : State → Out :=
  wordCheck (descField d) fun s => .next (s.lanes fun s l t0 =>
    let s1 := (s.settleLaneRun l d 9).settleRoles l t0 [.src c]
    let t := (s1.lane? l).getD t0
    let s := s1
    if l.helper then (s.advanceLane l, none)
    else
      let mask := (t.val c).toNat
      let desc := descRun t d 9
      let own := check t [.src c]
      let masks := if own.isSome then [own] else maskStop mask s.issueLaunch.rcd.cblk
      let run := runCheck t d 9
      let words := if run.isSome then [run] else sliceStop desc ++ [sliceAlign desc]
      match firstRanked ((s.badTag tag.toNat).map plainStop :: masks ++ words) with
      | some e => (s, some e)
      | none =>
        let k := ((List.range 16).filter fun i => bitOf mask i).length
        (s.sendCopy l (s.multicast l t 5 tag.toNat desc mask (pairAt desc 2) (some (sliceSpan desc k))
          ((wordAt desc 4).toNat + (wordAt desc 5).toNat)), none))

/-! ### Completion, R267, R271, R274, R275, R280 -/

/-- Merges a command's flags into `cpflg`. -/
def State.mergeCpflg (s : State) (c : Cmd) (fl : Word) (faulted : Bool) : State :=
  s.modBlock c.core c.blk fun b => { b with cpflg := b.cpflg ||| fl ||| (if faulted then 0x10000 else 0) }

/-- Flags and the first fault of a command made known: its record due, its flags merged. -/
def State.reportCopy (s : State) (c : Cmd) (f : ElemFault) (fl : Word) : State :=
  let s1 := match f with
    | some (_, cause, sub, addr) => { s with due := s.due ++ [s.engineRecord c cause sub addr] }
    | none => s
  if c.fromBlock then s1.mergeCpflg c fl f.isSome else s1

/-- The lane copies of a `cpl`. -/
def State.runCpl (s : State) (c : Cmd) : State × ElemFault :=
  let n := nth c.aux 0 4
  let ctx := c.ctx s
  ((chunks 2 c.aux.length (c.aux.drop 1)).zipIdx).foldl (fun (acc : State × ElemFault) p =>
    let src := nth p.1 0 0
    let dst := nth p.1 1 0
    match acc.1.readElem ctx src n with
    | (s1, .error f) => (s1, firstFault acc.2 (some (p.2, f.1, f.2, src)))
    | (s1, .ok bs) =>
      match s1.writeElem ctx dst bs with
      | (s2, .ok _) => (s2, acc.2)
      | (s2, .error f) => (s2, firstFault acc.2 (some (p.2, f.1, f.2, dst)))) (s, none)

/-- The words of the common slice, in order: exact source addresses. -/
def commonWords (d : List Word) : List Int := (List.range ((wordAt d 4).toNat / 4)).map fun (j : Nat) => (pairAt d 0 : Int) + 4 * (j : Int)

/-- The words of a receiver's own slice. -/
def ownWords (d : List Word) (i : Nat) : List Int :=
  (List.range ((wordAt d 5).toNat / 4)).map fun (j : Nat) =>
    (pairAt d 0 : Int) + ((wordAt d 4).toNat : Int) + (i : Int) * toSigned 64 (pairAt d 6) + 4 * (j : Int)

/-- The bytes of source words, in order; a faulting word is zero. -/
def State.readWords (s : State) (ctx : VCtx) (ws : List Int) : State × List Byte × ElemFault :=
  (ws.zipIdx).foldl (fun (acc : State × List Byte × ElemFault) p =>
    match exactAddr p.1 with
    | .error f => (acc.1, acc.2.1 ++ leOf 4 0, firstFault acc.2.2 (some (p.2, f.1, f.2, addrLow p.1)))
    | .ok va =>
      match acc.1.readElem ctx va 4 with
      | (s1, .ok bs) => (s1, acc.2.1 ++ bs, acc.2.2)
      | (s1, .error f) => (s1, acc.2.1 ++ leOf 4 0, firstFault acc.2.2 (some (p.2, f.1, f.2, va)))) (s, [], none)

/-- The units of a landing with their addresses. -/
def landUnits (base unit : Nat) (bs : List Byte) : List (Nat × List Byte × Nat) :=
  ((chunks unit bs.length bs).zipIdx).map fun p => ((base + unit * p.2) % 2 ^ 64, p)

/-- Lands units of bytes at a base, each that can be written: the first fault. -/
def State.landAt (s : State) (ctx : VCtx) (base unit : Nat) (bs : List Byte) : State × ElemFault :=
  (landUnits base unit bs).foldl (fun (acc : State × ElemFault) u =>
    match acc.1.writeElem ctx u.1 u.2.1 with
    | (s1, .ok _) => (s1, acc.2)
    | (s1, .error f) => (s1, firstFault acc.2 (some (u.2.2, f.1, f.2, u.1)))) (s, none)

/-- Lands a whole box, or nothing of it where a unit faults (R274). -/
def State.landBox (s : State) (ctx : VCtx) (base unit : Nat) (bs : List Byte) : State × ElemFault :=
  let (s1, f) := (landUnits base unit bs).foldl (fun (acc : State × ElemFault) u =>
    match acc.1.canWrite ctx u.1 u.2.1.length with
    | (s1, .ok _) => (s1, acc.2)
    | (s1, .error e) => (s1, firstFault acc.2 (some (u.2.2, e.1, e.2.1, e.2.2)))) (s, none)
  if f.isSome then (s1, f) else s1.landAt ctx base unit bs

/-- The source of a multicast, read once (R266): the box that every receiver gets, or the common slice and then the own slice of
each receiver that is resident; with the bytes of each receiver, and the first fault. -/
def State.readMulticast (s : State) (c : Cmd) (rs : List Receiver) : State × List (Receiver × List Byte) × ElemFault :=
  let ctx := c.ctx s
  if c.sub = 4 then
    let (s1, box, f) := s.readBox ctx (tileOf c.desc)
    (s1, rs.map fun r => (r, box), f)
  else
    let (s1, common, f) := s.readWords ctx (commonWords c.desc)
    rs.foldl (fun acc r =>
      let (s2, own, g) := acc.1.readWords ctx (ownWords c.desc r.num)
      (s2, acc.2.1 ++ [(r, common ++ own)], firstFault acc.2.2 (g.map fun x => (x.1 + common.length / 4, x.2)))) (s1, [], f)

/-- A multicast: the source once, then each receiver that is still resident, with a record and a credit of its own (R274,
R275). -/
def State.runMulticast (s : State) (c : Cmd) : State × ElemFault :=
  let (s0, ls, f) := s.readMulticast c (c.landings.filter fun r => (s.block? r.core r.blk).isSome)
  (ls.foldl (fun s (r, bs) =>
    let rc := s.ctxOf r.core r.blk
    let (s2, f2) := if c.sub = 4 then s.landBox rc r.base (tileOf c.desc).esize bs else s.landAt rc r.base 4 bs
    let s3 := match f2 with
      | some (_, cause, sub, addr) =>
        (({ s2 with due := s2.due ++ [s2.engineRecord c cause sub addr] } : State).mergeCpflg c 0 true)
      | none => s2
    s3.sendBytes r.core r.blk c.tag bs.length c.cmdId) s0, f)

/-- Whether no earlier claim of the same ring has yet to land (R280). -/
def State.ringTurn (s : State) (c : Cmd) : Bool :=
  !(s.claimants (nth c.aux 0 0)).any fun x => decide (nth x.aux 3 0 < nth c.aux 3 0)

/-- A tile copy into its ring slot, and the advance of WS (R280). -/
def State.runRing (s : State) (c : Cmd) (slot : Nat) : State × ElemFault :=
  let ctx := c.ctx s
  let t := tileOf c.desc
  let hdr := nth c.aux 0 0
  let slsz := natOf (s.bytesAt (hdr + 12) 4)
  let tb := natOf (s.bytesAt (hdr + 16) 1)
  let (s1, f) := s.moveTile ctx t (t.bbase + 128 + slot * slsz)
  let ws := natOf (s1.bytesAt hdr 4)
  let s2 := s1.putBytes hdr (leOf 4 (ws + 1))
  (if bitOf tb 6 then s2.sendBytes c.core c.blk (tb % 64) t.bytes c.cmdId else s2, f)

/-- Runs a copy command to its last byte (R267): state, first fault, flags, bytes for its own tag. -/
def State.runCopy (s : State) (c : Cmd) : State × ElemFault × Word × Nat :=
  let ctx := c.ctx s
  let t := tileOf c.desc
  match c.sub with
  | 0 =>
    let (s1, f) := s.runCpl c
    (s1, f, 0, nth c.aux 0 4 * (c.aux.length / 2))
  | 1 =>
    match c.slot with
    | some k => let (s1, f) := s.runRing c k; (s1, f, 0, t.bytes)
    | none => let (s1, f) := s.moveTile ctx t t.bbase; (s1, f, 0, t.bytes)
  | 2 =>
    let (s1, bs, f) := s.readBox ctx t
    let (lay, r) := landOf c.desc
    (s1.modBlock c.core c.blk fun b => b.land (wordAt c.desc 3) lay r bs, f, 0, t.bytes)
  | 3 =>
    let (s1, f, fl) := s.convCopy ctx t (convOf c.desc) (BitVec.ofNat 64 (natOf c.data)) c.rm
    (s1, f, fl, creditBytes 3 t c.desc)
  | _ =>
    let (s1, f) := s.runMulticast c
    (s1, f, 0, 0)

/-- A ring copy that still waits for its slot, or for its turn. -/
def State.copyWaits (s : State) (c : Cmd) : Bool := c.isRing && (c.slot.isNone || !s.ringTurn c)

/-- R267: a copy command completes. -/
def State.completeCopy (s : State) (c : Cmd) : State :=
  let (s1, f, fl, n) := s.runCopy c
  let s2 := s1.reportCopy c f fl
  (s2.endCmd c n).checkRetire c.core c.blk

/-- R280: a waiting ring copy claims a slot and registers its entries. -/
def execRingSlotClaim (id : Nat) (s : State) : Out :=
  match sget s.cmds id with
  | none => .next s
  | some c =>
    match s.claimOf c with
    | none => .next s
    | some (r, k) =>
      let ls := c.slotLocks (c.ctx s) r.slsz k
      if s.blocked id ls then .next s
      else .next (s.fresh.startCmd { c with slot := some k, aux := c.aux ++ [s.nextId], locks := ls })

/-! ### Tag instructions, R277, R278 -/

/-- R277: adds the counts of the lanes to a tag. -/
def execExpect (tag : BitVec 6) (d : BitVec 7) : State → Out :=
  wordCheck (descField d) fun s =>
    match s.badTag tag.toNat with
    | some c => .next (s.trapPath c.1 c.2 0 0)
    | none =>
      let (s1, vs) := s.collect [.src d] fun t => (t.val d).toNat
      let live := vs.filter fun v => !v.1.helper
      let sum := live.foldl (fun n v => n + v.2) 0
      match s1.block? s1.issue.core s1.issue.blk with
      | none => .next s1
      | some b =>
        let t := b.tagAt tag.toNat
        if live = [] then .next s1
        else if tagMax < t.balance + ((sum : Nat) : Int) then .next (s1.trapLanes (live.map (·.1)) 0x19 0 0 0)
        else
          let s2 := s1.modIssueBlock fun b => { b with tags := sput b.tags tag.toNat { t with balance := t.balance + (sum : Int), armed := true } }
          .next (vs.foldl (fun s v => s.advanceLane v.1) s2)

/-- The acquire scope that a mode names. -/
def tagScope (m : BitVec 2) : Nat := if m.toNat = 0 then 1 else if m.toNat = 1 then 3 else 4

/-- An observing instruction: the lane's mask against the bitmap (R278). A mask that names no tag of the block ranks before a
register beyond the allocation (01 R26). -/
def observe (m : BitVec 2) (roles : List Role) (cnt : Option (BitVec 7)) (d : BitVec 7)
    (f : State → LaneRef → Thread → Nat → Nat → LaneOut) : State → Out :=
  wordCheck (if m.toNat = 3 then some (2, 0) else firstSome [descField d, cnt.bind cntDest])
    fun s => .next (s.lanes fun s l t0 =>
      let s1 := s.settleRoles l t0 (roles ++ [.src64 d])
      let t := (s1.lane? l).getD t0
      match s1.block? s1.issue.core s1.issue.blk with
      | none => (s1, none)
      | some b =>
        let mask := (t.val64 d).toNat
        let beyond := stopIf (!l.helper && (check t [.src64 d]).isNone && decide (2 ^ b.ntags ≤ mask)) 3 0
        match firstRanked [beyond, check t (roles ++ [.src64 d])] with
        | some e => (s1, some e)
        | none => if l.helper then f s1 l t 0 0 else f s1 l t b.readyMap mask)

/-- The acquire of an observation that found a set bit. -/
def State.observed (s : State) (m : BitVec 2) (l : LaneRef) (hit : Bool) : State :=
  if hit && !l.helper then s.acquireAt (s.who l) (tagScope m) else s

/-- R278: waits for some masked tag. -/
def execWany (m : BitVec 2) (c d : BitVec 7) : State → Out :=
  observe m [.dst64 c] (some c) d fun s l t map mask =>
    let x := Nat.land map mask
    if x = 0 ∧ mask ≠ 0 then (s.setLane l (t.hold (.wany mask)), none)
    else ((s.observed m l (x != 0)).modLane l fun t => (t.setVal64 c (BitVec.ofNat 64 x)).advance 4, none)

/-- R278: waits for every masked tag. -/
def execWall (m : BitVec 2) (d : BitVec 7) : State → Out :=
  observe m [] none d fun s l t map mask =>
    if Nat.land map mask ≠ mask then (s.setLane l (t.hold (.wall mask)), none)
    else ((s.observed m l (mask != 0)).modLane l fun t => t.advance 4, none)

/-- The lowest set bit, or all ones. -/
def lowestBit (x : Nat) : Word :=
  match (List.range 64).find? fun i => bitOf x i with
  | some i => BitVec.ofNat 32 i
  | none => BitVec.allOnes 32

/-- R278: the lowest ready masked tag, without waiting. -/
def execFfrdy (m : BitVec 2) (c d : BitVec 7) : State → Out :=
  observe m [.dst c] (some c) d fun s l _ map mask =>
    let x := Nat.land map mask
    let v := if l.helper then 0 else lowestBit x
    ((s.observed m l (x != 0)).modLane l fun t => (t.setVal c v).advance 4, none)

/-! ### Rings in threads, R280 -/

/-- A group-wide ring instruction: the agreed header, then the ring or its trap. -/
def ringInstr (word : Option (Nat × Nat)) (extra : List Role) (d : BitVec 7) (f : State → Ring → List LaneRef → State) (s : State) : Out :=
  let (s1, r) := s.agree (firstSome [descField d, word]) none [.src64 d] (fun t => t.val64 d) 4 0x10
  match r with
  | none => .next s1
  | some (a, ls) =>
    let (s2, ps) := s1.screen ls fun t => firstRanked [check t extra, poisonOf t [.src64 d]]
    let ls2 := ps.map (·.1)
    let ntags := ((s2.block? s2.issue.core s2.issue.blk).map (·.ntags)).getD 0
    let ctx := s2.ctxOf s2.issue.core s2.issue.blk
    let s3 := match ringPlace ctx a.toNat with
      | some pa => ls2.foldl (fun (s : State) (l : LaneRef) => if l.helper then s else s.settleLine (s.who l) (lineOf pa)) s2
      | none => s2
    match s3.ringAt ctx a.toNat ntags with
    | .error sub => .next (s3.stopAll ls2 (.trap 0x1A sub 0 0))
    | .ok r => .next (f s3 r ls2)

/-- R280: waits for a filled slot and gives its number. -/
def execAwaitf (c d : BitVec 7) : State → Out :=
  ringInstr (cntDest c) [.dst c] d fun s r ls =>
    if r.filled = 0 then ls.foldl (fun s l => if l.helper then s else s.modLane l fun t => t.hold (.awaitf r.place)) s
    else ls.foldl (fun s l =>
      let s1 := if l.helper then s else s.acquireAt (s.who l) 1
      s1.modLane l fun t => (t.setVal c (if l.helper then 0 else BitVec.ofNat 32 (r.rs % r.nslot))).advance 4) s

/-- R280: releases the oldest slot. -/
def execRelslot (d : BitVec 7) : State → Out :=
  ringInstr none [] d fun s r ls =>
    let s1 := ls.foldl (fun s l => if l.helper then s else s.releaseAt (s.who l) 1) s
    let s2 := if ls.any fun l => !l.helper then s1.putBytes (r.place + 4) (leOf 4 (r.rs + 1)) else s1
    ls.foldl (fun s l => s.advanceLane l) s2

/-! ### Copy nodes, R282 -/

/-- The status word of a copy node. -/
def nodeStatus (f : ElemFault) (fl : Word) : Nat := 1 + (fl.toNat / 256 % 128) * 256 + (if f.isSome then 65536 else 0)

/-- The descriptor of a copy node's payload and its places: sub, die, fault area, status, descriptor words. -/
structure CopyNode where
  sub : Nat
  die : Nat
  fault : Nat
  status : Nat
  desc : List Word
  deriving DecidableEq, Repr

def copyNodeOf (bs : List Byte) : CopyNode :=
  { sub := natOf (bs.take 1), die := natOf ((bs.drop 1).take 1), fault := natOf ((bs.drop 8).take 8),
    status := natOf ((bs.drop 16).take 8), desc := (List.range 32).map fun i => wordOf ((bs.drop (32 + 4 * i)).take 4) }

/-- The youngest launch of a queue, whose seed table and group a node's command takes (log entry 14). -/
def State.youngest (s : State) (queue : Nat) : Option Launch := ((s.launches.map (·.2)).filter fun l => l.queue == queue).getLast?

/-- Whether a payload is rejected (R282): reserved bytes, fields, or any check of its descriptor at issue but that of its TAG
half and that of its credit, which a node has none of. -/
def copyNodeBad (dies : Nat) (bs : List Byte) : Bool :=
  let n := copyNodeOf bs
  let zero (i k : Nat) : Bool := ((bs.drop i).take k).all fun b => b == 0
  !(zero 2 6 && zero 24 8 && zero 160 96) || (n.sub != 1 && n.sub != 3) || decide (dies ≤ n.die)
    || n.status % 8 != 0 || tileNdimBad n.desc || (tileOf n.desc).ring
    || !((tileOf n.desc).scp == 3 || (tileOf n.desc).scp == 4)
    || ((n.desc.drop (tileRegs n.sub n.desc)).any fun w => w != 0)
    || tileWordBad n.sub n.desc || (firstSome (tileLate n.sub n.desc ++ [tileAlign n.sub n.desc])).isSome

/-- The TAG half of a converting node where it is not valid: subcause and half (10 R244). -/
def copyNodeTag (l : Launch) (bs : List Byte) : Option (Nat × Word) :=
  let n := copyNodeOf bs
  if n.sub = 3 then halfFault l (convOf n.desc).ccw.tag false else none

/-- The command of a copy node in the queue's address space, on a core of its die. -/
def State.nodeCopy (s : State) (queue asid root node core seed : Nat) (bs : List Byte) : Cmd :=
  let n := copyNodeOf bs
  let desc := n.desc.take (tileRegs n.sub n.desc)
  let c : Cmd :=
    { id := s.nextId, major := 25, sub := n.sub, mode := 0, tag := 0, core := core, blk := 0, grp := 0, thr := 0,
      fromBlock := false, launch := 0, queue := queue, asid := asid, root := root,
      cmdId := engineId core (s.coreAt core).copySerial, desc := desc, rm := 0, node := some node, data := leOf 8 seed,
      aux := [0, 0, n.fault, n.status] }
  { c with locks := tileLocks (plainCtx asid root) n.sub desc s.nextId }

/-- A fault record of a copy node goes to the area that its payload names. -/
def State.nodeRecord (s : State) (c : Cmd) (cause sub addr : Nat) : State :=
  ({ s with due := s.due ++ [{ s.engineRecord c cause sub addr with area := some (c.asid, c.root, nth c.aux 2 0) }] } : State).flushDue

/-- Runs a copy node's command: its records, its status; whether it faulted. -/
def State.completeCopyNode (s : State) (c : Cmd) : State × Bool :=
  let (s1, f, fl, _) := s.runCopy c
  let s3 := match f with
    | some (_, cause, sub, addr) => s1.nodeRecord c cause sub addr
    | none => s1
  let st := nth c.aux 3 0
  let s4 := if st = 0 then s3 else (s3.engineWriteSpan (plainCtx c.asid c.root) st (leOf 8 (nodeStatus f fl))).1
  (s4.endCmd c 0, f.isSome)

end Sys2Proof.Machine
end

