-- ==== Sys2Proof/Machine/KeySort.lean ====
section
/-! DEFINITION. The key sort engine (15 R367-R381): `kemit`, the sort, selection and contact-sheet commands, their
begin, run and status, and the payload of a sort node. -/

namespace Sys2Proof.Machine

open Sys2Proof

/-! ### Key rings, R367 -/

/-- A key ring header as read. -/
structure KeyRing where
  rbase : Nat
  cap : Nat
  cnt : Nat
  bad : Bool
  deriving DecidableEq, Repr

/-- The header of 64 bytes, and whether it is malformed (R367). -/
def keyRingOf (bs : List Byte) : KeyRing :=
  let rb := natOf (bs.take 8)
  let cap := natOf ((bs.drop 8).take 8)
  { rbase := rb, cap := cap, cnt := natOf ((bs.drop 16).take 8)
    bad := (bs.drop 24).any (fun b => b != 0) || cap == 0 || decide (2 ^ 32 < cap) || rb % 16 != 0 }

/-! ### `kemit`, R370 -/

/-- A lane of `kemit`: its header address and record. -/
structure Emit where
  lane : LaneRef
  hdr : Nat
  rcd : List Byte
  deriving DecidableEq, Repr

/-- The place of a header, checked as an atomic's is (R370). -/
def State.emitPlace (s : State) (w : Who) (h : Nat) : State × Except Stop Place :=
  if h % 128 ≠ 0 then (s, .error (memStop h 64 true true (8, 1))) else s.access w h 64 .rw true unsized

/-- The checks of one lane: its header and record, where it takes part. A poisoned register ranks after the checks of its
header's place (01 R26); a full count of outstanding stores holds the lane (06 R137). -/
def State.emitLane (s : State) (c d : BitVec 7) (l : LaneRef) : State × List Emit :=
  match s.lane? l with
  | none => (s, [])
  | some t0 =>
    let roles := [Role.dst64 c, .src64 d, .rw d 5]
    let s1 := s.settleRoles l t0 roles
    let t := (s1.lane? l).getD t0
    let w := descRun t d 5
    match checkEntry t roles, poisonOf t roles with
    | some e, _ => (s1.stopLane l e, [])
    | none, some e =>
      match s1.emitPlace (s1.who l) (pairAt w 0) with
      | (s2, .error e') => (s2.stopLane l e', [])
      | (s2, .ok _) => (s2.stopLane l e, [])
    | none, none =>
      if l.helper then (s1.setLane l ((t.setVal64 c (BitVec.allOnes 64)).advance 4), [])
      else if t.full then (s1.setLane l (t.hold (.held .stores)), [])
      else (s1, [⟨l, pairAt w 0, wordBytes (wordAt w 2) ++ wordBytes (wordAt w 3) ++ wordBytes (wordAt w 4) ++ leOf 4 0⟩])

/-- The checks of one header and its bytes (R370), made for its first lane, after the earlier stores of all its lanes. -/
def State.emitHeader (s : State) (ws : List Who) (h : Nat) : State × Except Stop (Place × KeyRing) :=
  match ws with
  | [] => (s, .error .replay)
  | w :: _ =>
    match s.emitPlace w h with
    | (s1, .error e) => (s1, .error e)
    | (s1, .ok p) =>
      let s2 := ws.foldl (fun s w => s.settleLine w (lineOf p.pa)) s1
      let (s3, bs, bad) := (s2.dropLine w.core (lineOf p.pa)).homeRead p.pa 64
      if bad then (s3, .error (memStop h 64 true true (0xD, 1)))
      else
        let r := keyRingOf bs
        if r.bad then (s3, .error (.trap 0x1A 0x10 0 0)) else (s3, .ok (p, r))

/-- The record of a store that faults after its slot has been claimed. -/
def State.emitRecord (s : State) (w : Who) (va cause sub : Nat) : State :=
  match s.block? w.core w.blk, s.thr? w with
  | some b, some t =>
    { s with due := s.due ++ [{ launch := b.launch, lin := b.lin, thr := t.idx, cause := cause, sub := sub, pc := t.pc,
                                adr := BitVec.ofNat 64 va }] }
  | _, _ => s

/-- Stores one record in its slot, or records why it could not. -/
def State.emitStore (s : State) (w : Who) (va : Nat) (rcd : List Byte) : State :=
  match s.access w va 16 .w false unsized with
  | (s1, .error (.trap cause sub _ _)) => s1.emitRecord w va cause sub
  | (s1, .error .replay) => s1
  | (s1, .ok p) => s1.storeAs w p rcd 0 3

/-- The lanes of one header: CNT advances, each record goes to its slot, each lane learns its slot. -/
def State.emitGroup (s : State) (c : BitVec 7) (h : Nat) (es : List Emit) : State :=
  match s.emitHeader (es.map fun e => s.who e.lane) h with
  | (s1, .error x) => es.foldl (fun s e => s.stopLane e.lane x) s1
  | (s1, .ok (p, r)) =>
    let s2 := s1.homeWrite (p.pa + 16) (leOf 8 (r.cnt + es.length))
    es.zipIdx.foldl (fun s q =>
      let slot := (r.cnt + q.2) % 2 ^ 64
      let s3 := if slot < r.cap then s.emitStore (s.who q.1.lane) ((r.rbase + 16 * slot) % 2 ^ 64) q.1.rcd else s
      s3.modLane q.1.lane fun t => (t.setVal64 c (BitVec.ofNat 64 slot)).advance 4) s2

/-- The distinct header addresses, in the order of their first lanes. -/
def headersOf (es : List Emit) : List Nat := es.foldl (fun l e => if e.hdr ∈ l then l else l ++ [e.hdr]) []

/-- R370: claims slots of key rings and stores records. -/
def execKemit (c d : BitVec 7) : State → Out :=
  wordCheck (firstSome [descField d, cntDest c]) fun s =>
    let (s1, es) := s.issue.lanes.foldl (fun (acc : State × List Emit) l =>
      let r := acc.1.emitLane c d l
      (r.1, acc.2 ++ r.2)) (s, [])
    .next ((headersOf es).foldl (fun s h => s.emitGroup c h (es.filter fun e => e.hdr == h)) s1)

/-! ### Descriptors, R371, R372 -/

/-- A sort command as its descriptor says. -/
structure Kse where
  sub : Nat
  bat : Bool
  hdr : Nat
  dst : Nat
  scr : Nat
  ctl : Nat
  tspec : Nat
  sheet : Nat
  ntk : Nat
  tick : Nat
  status : Nat
  b : Nat
  l : Nat
  deriving DecidableEq, Repr

def kseOf (sub mode : Nat) (d : List Word) : Kse :=
  let bat := mode == 1
  { sub := sub, bat := bat, hdr := pairAt d 0, dst := pairAt d 2, scr := pairAt d 4, ctl := (wordAt d 6).toNat,
    tspec := (wordAt d 7).toNat, sheet := pairAt d 8, ntk := (wordAt d 10).toNat, tick := pairAt d 11, status := pairAt d 13,
    b := if bat then (wordAt d 15).toNat else 1, l := if bat then (wordAt d 16).toNat else 0 }

def Kse.depth (k : Kse) : Nat := k.ctl / 2 ^ 16 % 8
def Kse.cs (k : Kse) : Bool := bitOf k.ctl 11
def Kse.dir (k : Kse) : Bool := bitOf k.ctl 10
/-- Bits of the key range. -/
def Kse.width (k : Kse) : Nat := 8 * (k.ctl / 2 ^ 7 % 8 + 1)
def Kse.lo (k : Kse) : Nat := k.ctl % 64
/-- Bits of the tile field. -/
def Kse.tw (k : Kse) : Nat := k.tspec / 2 ^ 8 % 32 + 1
def Kse.tlo (k : Kse) : Nat := k.tspec % 64

/-- Registers of a descriptor. -/
def kseRegs (mode : Nat) : Nat := if mode = 1 then 17 else 15

/-- Reserved fields and values outside R371: cause 0x02 of R372. -/
def Kse.reserved (k : Kse) : Bool :=
  k.ctl / 2 ^ 19 != 0 || k.ctl / 2 ^ 12 % 16 != 0 || bitOf k.ctl 6 || k.tspec / 2 ^ 13 != 0 || k.tspec / 2 ^ 6 % 4 != 0
    || decide (64 < k.lo + k.width)
    || (if k.sub = 2 then k.depth == 0 || decide (4 < k.depth) || decide (k.width < 8 * k.depth) else k.depth != 0)
    || (k.sub == 3 && !k.cs) || (k.cs && (k.sub == 2 || k.bat)) || (!k.cs && k.tspec != 0) || decide (64 < k.tlo + k.tw)
    || (k.bat && (k.b == 0 || decide (2 ^ 24 < k.b) || k.l == 0 || decide (2 ^ 32 < k.b * k.l)))

/-- A sort whose tile field leaves the key range. -/
def Kse.tileOut (k : Kse) : Bool := k.sub == 1 && k.cs && !(decide (k.lo ≤ k.tlo) && decide (k.tlo + k.tw ≤ k.lo + k.width))

/-- A misaligned address that the command uses. -/
def Kse.misaligned (k : Kse) : Bool :=
  k.hdr % 128 != 0 || k.status % 32 != 0 || (k.sub != 3 && k.dst % 16 != 0) || (k.sub == 1 && k.scr % 16 != 0)
    || (k.cs && k.sheet % 8 != 0)

/-- The checks of a descriptor that name no block, in the order of R26: before the tag, and after it. -/
def Kse.early (k : Kse) : Option Stop := stopIf k.reserved 2 0
def Kse.late (k : Kse) : Option Stop := firstSome [stopIf k.tileOut 0x11 0x70, stopIf k.misaligned 8 1]

/-! ### Issue, R372 -/

/-- Commands of the engine of a die that are not complete. -/
def State.kseQueue (s : State) (die : Nat) : List Cmd := (s.cmds.map (·.2)).filter fun c => c.isKse && dieOf c.core == die

/-- A command put in its engine's queue: it takes no range lock before it begins. -/
def State.queueCmd (s : State) (c : Cmd) : State :=
  let s1 := s.fresh
  { s1 with cmds := sput s1.cmds c.id { c with held := decide (s.now < c.tick.toNat) } }

/-- Takes the next serial number of a core's sort commands. -/
def State.nextKse (s : State) (core : Nat) : State × Dword :=
  let k := s.coreAt core
  (s.setCore core { k with kseSerial := k.kseSerial + 1 }, engineId core k.kseSerial)

/-- A sort command of one lane. -/
def State.kseLane (s : State) (sub mode tag : Nat) (c d : BitVec 7) (l : LaneRef) (t : Thread) : LaneOut :=
  let n := kseRegs mode
  let k := kseOf sub mode (descRun t d n)
  let readable := (runCheck t d n).isNone
  match firstSome [(Role.src c).illegal.map plainStop, if readable then k.early else none,
      if l.helper then none else (s.badTag tag).map plainStop, ((Role.src c).noLatch t).map plainStop,
      ((Role.src c).beyond t).map plainStop, runCheck t d n, checkEntry t [.src c], k.late, poisonOf t [.src c]] with
  | some e => (s, some e)
  | none =>
    if l.helper then (s.advanceLane l, none)
    else if 64 ≤ (s.kseQueue (dieOf s.issue.core)).length ∨ s.heldFull k.tick then (s.modLane l fun t => t.hold (.held (.sorts k.tick)), none)
    else
      let (s1, cid) := (s.releaseAt (s.who l) 3).nextKse s.issue.core
      let cmd := { s1.laneCmd l t 30 sub mode tag (descRun t d n) with cnt := t.val c, tick := BitVec.ofNat 64 k.tick, cmdId := cid }
      ((s1.queueCmd cmd).advanceLane l, none)

/-- A sort instruction: the field of its descriptor, then each lane. -/
def kseInstr (sub mode : Nat) (tag : BitVec 6) (c d : BitVec 7) : State → Out :=
  wordCheck (descField d) fun s => .next (s.lanes fun s l t0 =>
    let s1 := (s.settleLaneRun l d (kseRegs mode)).settleRoles l t0 [.src c]
    s1.kseLane sub mode tag.toNat c d l ((s1.lane? l).getD t0))

/-- R374: a sort. -/
def execKsort (t : BitVec 6) (c d : BitVec 7) : State → Out := kseInstr 1 0 t c d

/-- R377: a batch of sorts. -/
def execKsortBat (t : BitVec 6) (c d : BitVec 7) : State → Out := kseInstr 1 1 t c d

/-- R376: a selection. -/
def execKsel (t : BitVec 6) (c d : BitVec 7) : State → Out := kseInstr 2 0 t c d

/-- R377: a batch of selections. -/
def execKselBat (t : BitVec 6) (c d : BitVec 7) : State → Out := kseInstr 2 1 t c d

/-- R375: a contact sheet. -/
def execKcs (t : BitVec 6) (c d : BitVec 7) : State → Out := kseInstr 3 0 t c d

/-! ### Begin, R373, R378 -/

/-- What a command takes from its ring when it begins: N, the record array, and its status bits so far. -/
structure KseRun where
  n : Nat
  rbase : Nat
  stat : Nat
  deriving DecidableEq, Repr

def Cmd.kse (c : Cmd) : Kse := kseOf c.sub c.mode c.desc

/-- The run of a begun command: kept in its `aux` after the fault area of a node. -/
def Cmd.kseRun (c : Cmd) : KseRun := ⟨nth c.aux 1 0, nth c.aux 2 0, nth c.aux 3 0⟩

/-- The record of a sort command (R378, R379). -/
def State.kseRecord (s : State) (c : Cmd) (cause sub addr : Nat) : State :=
  let r := s.engineRecord c cause sub addr
  { s with due := s.due ++ [if c.fromBlock then r else { r with area := some (c.asid, c.root, nth c.aux 0 0) }] }

/-- Notes a fault: one record for the command, and bit 1 of its status. -/
def kseNote {β : Type} (c : Cmd) (stat : Nat) (r : State × Except (Nat × Nat × Nat) β) : State × Nat :=
  match r with
  | (s, .ok _) => (s, stat)
  | (s, .error e) => (if bitOf stat 1 then s else s.kseRecord c e.1 e.2.1 e.2.2, Nat.lor stat 2)

/-- Records that the vectors of a command hold: all N, or those of the batch. -/
def Kse.used (k : Kse) (n : Nat) : Nat := if k.bat then min n (k.b * k.l) else n

/-- Bytes of DST that a command writes. -/
def Kse.dstBytes (k : Kse) (n : Nat) : Nat :=
  let m := k.used n
  if m = 0 then 0
  else if k.sub = 1 then 16 * m
  else if k.sub = 2 then
    let v := if k.bat then (m - 1) / k.l else 0
    16 * (v * k.ntk + min k.ntk (m - (if k.bat then v * k.l else 0)))
  else 0

/-- Whether a command builds a contact sheet. -/
def Kse.sheetBytes (k : Kse) : Nat := if k.cs then 16 * k.ntk else 0

/-- The entries of R378. -/
def Kse.locks (k : Kse) (ctx : VCtx) (r : KseRun) (holder : Nat) : List Lock :=
  let span (va n : Nat) (x : Bool) : List Lock := if n = 0 then [] else [lockSpan ctx va n x x holder]
  span k.hdr 64 false ++ span r.rbase (16 * r.n) false ++ span k.dst (k.dstBytes r.n) true
    ++ (if k.sub = 1 then span k.scr (16 * r.n) true else []) ++ span k.sheet k.sheetBytes true
    ++ span k.status (32 * k.b) true

/-- Reads the header of a command: its run (R373). -/
def State.kseStart (s : State) (c : Cmd) : State × KseRun :=
  match s.engineReadSpan (c.ctx s) c.kse.hdr 64 with
  | (s1, .error e) => (s1.kseRecord c e.1 e.2.1 e.2.2, ⟨0, 0, 2⟩)
  | (s1, .ok bs) =>
    let r := keyRingOf bs
    if r.bad then (s1, ⟨0, 0, 8⟩)
    else
      let lim := if c.cnt = BitVec.allOnes 32 then r.cap else c.cnt.toNat
      (s1, ⟨min (min r.cnt r.cap) lim, r.rbase, if r.cap < r.cnt then 4 else 0⟩)

/-- A command that may begin: the oldest of its die, not held, and not yet past its header. -/
def State.kseTurn (s : State) (c : Cmd) : Bool :=
  c.isKse && !c.held && !c.begun && !(s.waiting.any fun w => w.id == c.id)
    && !(s.kseQueue (dieOf c.core)).any fun x => decide (x.id < c.id)

/-- R373: a queued command begins: it reads its header and registers its entries, or waits for them. -/
def execKseCommandBegin (id : Nat) (s : State) : Out :=
  match sget s.cmds id with
  | none => .next s
  | some c =>
    if !s.kseTurn c then .next s
    else
      let (s1, r) := s.kseStart c
      let c1 : Cmd := { c with aux := [nth c.aux 0 0, r.n, r.rbase, r.stat], locks := c.kse.locks (c.ctx s1) r id }
      if s1.mustWait c1 then .next { s1 with waiting := s1.waiting ++ [c1], cmds := sput s1.cmds id c1 }
      else .next (s1.startCmd { c1 with begun := true })

/-! ### Sorting and selection, R374, R376 -/

/-- A record: its 16 bytes. -/
abbrev KeyRec := List Byte

def keyOf (r : KeyRec) : Nat := natOf (r.take 8)

/-- F of a record (R373). -/
def Kse.f (k : Kse) (r : KeyRec) : Nat := keyOf r / 2 ^ k.lo % 2 ^ k.width

/-- T of a record (R375). -/
def Kse.t (k : Kse) (r : KeyRec) : Nat := keyOf r / 2 ^ k.tlo % 2 ^ k.tw

/-- Puts an item before the first of a larger rank. -/
def insertRanked {β : Type} (x : Nat × Nat × β) : List (Nat × Nat × β) → List (Nat × Nat × β)
  | [] => [x]
  | y :: l => if x.1 < y.1 ∨ (x.1 = y.1 ∧ x.2.1 < y.2.1) then x :: y :: l else y :: insertRanked x l

/-- Items in ascending rank, ties in an order that the spec leaves open: the free ranks of a draw. -/
def sortRanked {β : Type} (draw : Nat) (f : β → Nat) (l : List β) : List β :=
  ((l.zipIdx).foldl (fun acc x => insertRanked (f x.1, Config.freeRank draw x.2, x.1) acc) []).map (·.2.2)

/-- The output of a sort (R374). -/
def Kse.sort (k : Kse) (draw : Nat) (rs : List KeyRec) : List KeyRec :=
  sortRanked draw (fun r => if k.dir then 2 ^ k.width - 1 - k.f r else k.f r) rs

/-- The prefix of a record (R376). -/
def Kse.prefixOf (k : Kse) (r : KeyRec) : Nat :=
  let p := k.f r / 2 ^ (k.width - 8 * k.depth)
  if k.dir then 2 ^ (8 * k.depth) - 1 - p else p

/-- What a vector gives: its output records and the figures of its status. -/
structure KseVec where
  out : List KeyRec
  stat : Nat := 0
  thr : Nat := 0
  sel : Nat := 0
  above : Nat := 0
  ssum : Nat := 0
  lsum : Nat := 0
  deriving DecidableEq, Repr

/-- An exact sum of payloads, rounded once (R376): value and flags. -/
def payloadSum (rs : List KeyRec) : Nat × Word :=
  let xs := rs.map fun r => fp32.value (natOf ((r.drop 8).take 4))
  let inf (neg : Bool) : Bool := xs.any fun x => x == Num.inf neg
  if (xs.any Num.isNan) || (inf false && inf true) then (fp32.nanEnc, flagNV)
  else
    let (v, f) := fp32.round .rn false (xs.foldl (fun a x => (a.add .rn x).1) (Num.ofInt 0))
    (v, f &&& (flagOF ||| flagNX))

/-- A selection (R376). -/
def Kse.select (k : Kse) (draw : Nat) (rs : List KeyRec) : KseVec :=
  let n := rs.length
  let shuffled := sortRanked draw (fun _ => 0) rs
  let thr := if n ≤ k.ntk then 0 else if k.ntk = 0 then 0xFFFFFFFF
    else k.prefixOf (nth (sortRanked draw (fun r => 2 ^ 64 - k.prefixOf r) rs) (k.ntk - 1) [])
  let more := shuffled.filter fun r => decide (thr < k.prefixOf r)
  let above := if n ≤ k.ntk then n else if k.ntk = 0 then 0 else more.length
  let at_ := shuffled.filter fun r => k.prefixOf r == thr
  let sel := if n ≤ k.ntk then shuffled else if k.ntk = 0 then [] else more ++ at_.take (k.ntk - more.length)
  let rest := if n ≤ k.ntk then [] else if k.ntk = 0 then shuffled
    else at_.drop (k.ntk - more.length) ++ shuffled.filter fun r => decide (k.prefixOf r < thr)
  let (ss, f1) := payloadSum sel
  let (ls, f2) := payloadSum rest
  { out := sortRanked (draw + 1) (fun _ => 0) sel, stat := (f1 ||| f2).toNat, thr := thr, sel := sel.length, above := above,
    ssum := ss, lsum := ls }

/-- One vector of a command. -/
def Kse.vector (k : Kse) (draw : Nat) (rs : List KeyRec) : KseVec :=
  if k.sub = 1 then { out := k.sort draw rs } else if k.sub = 2 then k.select draw rs else { out := [] }

/-- The contact sheet (R375). -/
def Kse.sheetOf (k : Kse) (rs : List KeyRec) : List Byte :=
  (List.range k.ntk).flatMap fun t =>
    leOf 8 (rs.filter fun r => decide (k.t r < t)).length ++ leOf 8 (rs.filter fun r => decide (k.t r ≤ t)).length

/-- Records of vector b of N (R377). -/
def Kse.count (k : Kse) (n b : Nat) : Nat := if k.bat then min k.l (n - b * k.l) else n

/-- The 32 bytes of the status of a vector of n records (R378). -/
def KseVec.status (v : KseVec) (stat n : Nat) : List Byte :=
  leOf 4 (1 + Nat.lor stat v.stat) ++ leOf 4 v.thr ++ leOf 8 n ++ leOf 4 v.sel ++ leOf 4 v.above ++ leOf 4 v.ssum ++ leOf 4 v.lsum

/-! ### Completion, R374-R378 -/

/-- Bytes that become undefined, as far as they can be written. -/
def State.scramble (s : State) (ctx : VCtx) (va n : Nat) : State :=
  (lineCuts (n / 128 + 2) va n).foldl (fun s cut =>
    let (s1, bs) := s.freeBytes cut.2
    (s1.engineWrite ctx cut.1 bs).1) s

/-- Whether two spans, of an address and a length each, meet. -/
def spansMeet (a n b m : Nat) : Bool := decide (a < b + m) && decide (b < a + n)

/-- Whether the areas of a command overlap, so that DST is undefined (R374): the output, the scratch of 16·N bytes, and the
record array, which is the N records the command takes, as R378's entry spans them (DEDUCED, assumption 22). -/
def Kse.overlap (k : Kse) (r : KseRun) : Bool :=
  let meet (a n b m : Nat) : Bool := n != 0 && m != 0 && spansMeet a n b m
  let d := k.dstBytes r.n
  let x := if k.sub = 1 then 16 * r.n else 0
  meet k.dst d k.scr x || meet k.dst d r.rbase (16 * r.n) || meet k.scr x r.rbase (16 * r.n)

/-- Writes bytes of a command, with its first fault noted. -/
def State.kseWrite (acc : State × Nat) (c : Cmd) (va : Nat) (bs : List Byte) : State × Nat :=
  if bs = [] then acc else kseNote c acc.2 (acc.1.engineWriteSpan (c.ctx acc.1) va bs)

/-- Makes the scratch area of a sort undefined (R374), with its first fault noted. -/
def State.kseScratch (acc : State × Nat) (c : Cmd) (n : Nat) : State × Nat :=
  let va := c.kse.scr
  let (s1, bs) := acc.1.freeBytes (16 * n)
  let (s2, f) := s1.writePieces (c.ctx s1) va (lineCuts (bs.length / 128 + 2) va bs.length) 0 8 bs
  kseNote (β := Unit) c acc.2 (s2, match f with | some x => .error x.2 | none => .ok ())

/-- Tests the status areas of the vectors, so that a fault of one is known in the status of the others, with the first fault
noted. -/
def State.kseStatusCheck (acc : State × Nat) (c : Cmd) (n : Nat) : State × Nat :=
  (List.range n).foldl (fun a i => kseNote c a.2 (a.1.canWrite (c.ctx a.1) (c.kse.status + 32 * i) 32)) acc

/-- The records of a run. -/
def State.kseRecords (s : State) (c : Cmd) (r : KseRun) : (State × Nat) × List KeyRec :=
  let m := 16 * c.kse.used r.n
  match s.engineReadSpan (c.ctx s) r.rbase m with
  | (s1, .ok bs) => ((s1, r.stat), chunks 16 bs.length bs)
  | (s1, .error e) => (kseNote (β := Unit) c r.stat (s1, .error e), [])

/-- The vectors of the records. -/
def Kse.vectors (k : Kse) (draw : Nat) (rs : List KeyRec) : List KseVec :=
  (List.range k.b).map fun b => k.vector (draw + 2 * b) (if k.bat then (rs.drop (b * k.l)).take k.l else rs)

/-- Where the output of a vector goes (R377). -/
def Kse.outAt (k : Kse) (b : Nat) : Nat := k.dst + 16 * b * (if k.sub = 1 then k.l else k.ntk)

/-- A sort command completes: its outputs, its status, its entries, its 32 bytes. Whether no vector has bits 1 to 3 of
STAT (R379). -/
def State.completeKse (s : State) (c : Cmd) : State × Bool :=
  let k := c.kse
  let r := c.kseRun
  let good := !(bitOf r.stat 1 || bitOf r.stat 3)
  let (a0, rs) := if good then s.kseRecords c r else ((s, r.stat), [])
  let s0 := a0.1.drawn (2 * k.b)
  let vs := k.vectors a0.1.freeCtr rs
  let a1 := if k.sub = 1 ∧ good then State.kseScratch (s0, a0.2) c r.n else (s0, a0.2)
  let a2 := vs.zipIdx.foldl (fun a v => State.kseWrite a c (k.outAt v.2) v.1.out.flatten) a1
  let a3 := if k.cs && good then State.kseWrite a2 c k.sheet (k.sheetOf rs) else a2
  let a4 := State.kseStatusCheck a3 c vs.length
  let s4 := if k.overlap r then a4.1.scramble (c.ctx a4.1) k.dst (k.dstBytes r.n) else a4.1
  let s5 := if bitOf a4.2 1 then
      (s4.scramble (c.ctx s4) k.dst (k.dstBytes r.n)).scramble (c.ctx s4) k.sheet k.sheetBytes else s4
  let a6 := vs.zipIdx.foldl (fun a v => State.kseWrite a c (k.status + 32 * v.2) (v.1.status a4.2 (k.count r.n v.2))) (s5, a4.2)
  (((a6.1.flushDue).endCmd c 32), a6.2 / 2 % 8 == 0)

/-! ### Sort nodes, R379 -/

/-- Whether a payload is rejected (R379). -/
def kseNodeBad (p : Part) (bs : List Byte) : Bool :=
  let sub := fieldOf bs 0 1
  let mode := fieldOf bs 1 1
  let k := kseOf sub mode ((List.range 17).map fun i => wordOf ((bs.drop (16 + 4 * i)).take 4))
  sub == 0 || decide (3 < sub) || decide ((if sub = 3 then 0 else 1) < mode) || fieldOf bs 2 1 != 0
    || decide (p.dies ≤ fieldOf bs 3 1) || ((bs.drop 84).any fun b => b != 0) || k.early.isSome || k.late.isSome

/-- The command of a sort node. -/
def State.kseNode (s : State) (queue asid root node : Nat) (bs : List Byte) : State :=
  let die := fieldOf bs 3 1
  let mode := fieldOf bs 1 1
  let desc := ((List.range 17).map fun i => wordOf ((bs.drop (16 + 4 * i)).take 4)).take (kseRegs mode)
  let n := sgetD s.kseSerials die 0
  let s1 := { s with kseSerials := sput s.kseSerials die (n + 1) }
  s1.queueCmd
    { id := s1.nextId, major := 30, sub := fieldOf bs 0 1, mode := mode, tag := 0, core := 64 * die, blk := 0, grp := 0, thr := 0,
      fromBlock := false, launch := 0, queue := queue, asid := asid, root := root,
      cmdId := BitVec.ofNat 64 (0xFF * 2 ^ 56 + die * 2 ^ 48 + n % 2 ^ 48), desc := desc, cnt := BitVec.ofNat 32 (fieldOf bs 4 4),
      tick := BitVec.ofNat 64 (kseOf (fieldOf bs 0 1) mode desc).tick, node := some node, aux := [fieldOf bs 8 8] }

end Sys2Proof.Machine
end

