-- ==== Sys2Proof/Machine/Collective.lean ====
section
/-! DEFINITION. The ordered compositing collective (17 R399-R413): its commands, their operators, their begin and
completion, and the loss of a peer. What the other ranks send is an input of the completion event. -/

namespace Sys2Proof.Machine

open Sys2Proof

/-! ### Descriptors, R402 -/

/-- A collective command as its descriptor says. -/
structure Coll where
  sub : Nat
  src : Nat
  dst : Nat
  status : Nat
  tick : Nat
  count : Nat
  ctl : Nat
  ord : Nat
  deriving DecidableEq, Repr

def collOf (sub : Nat) (d : List Word) : Coll :=
  { sub := sub, src := pairAt d 0, dst := pairAt d 2, status := pairAt d 4, tick := pairAt d 6, count := (wordAt d 8).toNat,
    ctl := (wordAt d 9).toNat, ord := pairAt d 10 }

def Coll.tpl (k : Coll) : Nat := k.ctl / 2 ^ 16 % 32
def Coll.ty (k : Coll) : Nat := k.ctl / 2 ^ 12 % 16
def Coll.scp (k : Coll) : Nat := k.ctl % 8

/-- Bytes of an input: a pixel record, or an element. -/
def Coll.width (k : Coll) : Nat := if k.sub = 4 then 16 else if k.ty = 0 then 8 else 4

/-- Bytes of SRC and of DST. -/
def Coll.bytes (k : Coll) : Nat := if k.sub = 6 then 0 else k.count * k.width

/-- Cause 0x02 of R402. -/
def Coll.reserved (k : Coll) : Bool :=
  k.ctl / 2 ^ 21 != 0 || k.ctl / 2 ^ 3 % 2 ^ 9 != 0 || (k.scp != 3 && k.scp != 4)
    || (k.sub != 6 && (typeReserved k.ty || k.count == 0 || decide (2 ^ 24 < k.count) || decide (16 < k.tpl) || (k.sub == 5 && (k.tpl != 0 || k.ord != 0))))

/-- Cause 0x11 of R402. -/
def Coll.badType (k : Coll) : Bool :=
  (k.sub == 4 && k.ty != 1) || (k.sub == 5 && k.ty != 0 && k.ty != 1 && k.ty != 11) || (k.sub == 4 && k.count % 2 ^ k.tpl != 0)

/-- Cause 0x08 of R402. -/
def Coll.misaligned (k : Coll) : Bool :=
  k.status % 32 != 0 || (k.sub != 6 && (k.src % 16 != 0 || k.dst % 16 != 0)) || (k.sub == 4 && k.ord % 2 != 0)

/-- The checks of a descriptor that name no block, in the order of R26. -/
def Coll.early (k : Coll) : Option Stop := stopIf k.reserved 2 0
def Coll.late (k : Coll) : Option Stop := firstSome [stopIf k.badType 0x11 0x80, stopIf k.misaligned 8 1]

/-! ### Issue, R400, R401 -/

def Cmd.coll (c : Cmd) : Coll := collOf c.sub c.desc

/-- The parts of a collective command in its `aux`: fault area of a node, sequence number, ranks, own rank, status bits
so far, then the order table that rank 0 has read. -/
def Cmd.collSeq (c : Cmd) : Nat := nth c.aux 1 0
def Cmd.collRanks (c : Cmd) : Nat := nth c.aux 2 1
def Cmd.collRank (c : Cmd) : Nat := nth c.aux 3 0
def Cmd.collStat (c : Cmd) : Nat := nth c.aux 4 0
def Cmd.collOrd (c : Cmd) : List Nat := c.aux.drop 5

/-- Takes the next serial number of a core's collective commands. -/
def State.nextColl (s : State) (core : Nat) : State × Dword :=
  let k := s.coreAt core
  (s.setCore core { k with collSerial := k.collSerial + 1 }, engineId core k.collSerial)

/-- An accepted command of one lane, with its sequence number in Cnt. -/
def State.acceptColl (s : State) (sub tag : Nat) (c d : BitVec 7) (l : LaneRef) (t : Thread) : State :=
  let la := s.issueLaunch
  let (s1, cid) := s.nextColl s.issue.core
  let desc := descRun t d 12
  let cmd := { s1.laneCmd l t 30 sub 0 tag desc with
    cmdId := cid, tick := BitVec.ofNat 64 (collOf sub desc).tick, aux := [0, la.collSeq, la.ranks, la.rank, 0] }
  ((s1.modLaunch la.id fun x => { x with collSeq := x.collSeq + 1 }).queueCmd cmd).modLane l fun t =>
    (t.setVal c (BitVec.ofNat 32 la.collSeq)).advance 4

/-- A collective command of one lane: its checks, then its acceptance, its refusal, or its hold: one that is not complete may have
to be saved as a held command (R411), so it waits for one of the block's sixteen places (log entry 9). -/
def State.collLane (s : State) (sub tag : Nat) (c d : BitVec 7) (l : LaneRef) (t : Thread) : LaneOut :=
  let k := collOf sub (descRun t d 12)
  let readable := (runCheck t d 12).isNone
  let own := if l.helper then [] else [if readable then k.early else none, stopIf (t.absReg d.toNat % 2 == 1) 3 3,
    (s.badTag tag).map plainStop, check t [.dst c, .rw d 12], k.late]
  match firstSome (own ++ [check t [.dst c]]) with
  | some e => (s, some e)
  | none =>
    if l.helper then (s.setLane l ((t.setVal c (BitVec.allOnes 32)).advance 4), none)
    else if s.issueLaunch.lostRanks ≠ [] then
      ((s.releaseAt (s.who l) 4).modLane l fun t => (t.setVal c (BitVec.allOnes 32)).advance 4, none)
    else if s.heldMax s.issue.core s.issue.blk then (s.modLane l fun t => t.hold (.held .colls), none)
    else ((s.releaseAt (s.who l) 4).acceptColl sub tag c d l t, none)

/-- A collective instruction: the fields of the word, then each lane. -/
def collInstr (sub : Nat) (tag : BitVec 6) (c d : BitVec 7) : State → Out :=
  wordCheck (firstSome [descField d, cntDest c]) fun s => .next (s.lanes fun s l t0 =>
    let s1 := (s.settleLaneRun l d 12).settleRoles l t0 [.dst c]
    s1.collLane sub tag.toNat c d l ((s1.lane? l).getD t0))

/-- R404: composites across ranks. -/
def execOcomp (t : BitVec 6) (c d : BitVec 7) : State → Out := collInstr 4 t c d

/-- R405: sums across ranks. -/
def execOred (t : BitVec 6) (c d : BitVec 7) : State → Out := collInstr 5 t c d

/-- R407: a barrier across ranks. -/
def execCbar (t : BitVec 6) (c d : BitVec 7) : State → Out := collInstr 6 t c d

/-- Reports this package as lost to every other package of the issuing launch's table, with a reason (R410). -/
def State.reportLoss (s : State) (reason : Word) : State :=
  { s with cfails := (s.issueLaunch.group.filter fun p => p != s.pkid).map (fun p => (p, reason)) ++ s.cfails }

/-- R410: reports this package as lost to its peers, which changes nothing of its own work; Cnt := 1. -/
def execCfail (c d : BitVec 7) : State → Out :=
  wordCheck (firstSome [descField d, cntDest c]) (stateOp [.dst c, .src d] fun s l t =>
    let s1 := if l.helper then s else (s.releaseAt (s.who l) 4).reportLoss (t.val d)
    (s1.modLane l fun t => (t.setVal c (if l.helper then BitVec.allOnes 32 else 1)).advance 4, none))

/-! ### Operators, R403-R406 -/

/-- One round of the balanced pairing. -/
def pairRound {β : Type} (f : β → β → β) : List β → List β
  | a :: b :: l => f a b :: pairRound f l
  | l => l

/-- The balanced left-to-right pairing (R403). -/
def balanced {β : Type} (f : β → β → β) : Nat → List β → List β
  | 0, l => l
  | n + 1, l => if l.length ≤ 1 then l else balanced f n (pairRound f l)

/-- An input or a partial result: its words, with the flags of the roundings so far. -/
structure CollVal where
  ws : List Nat
  flags : Word := 0
  deriving DecidableEq, Repr

/-- An exact sum rounded once; an exact zero is +0 (R406). -/
def collRound (f : Fmt) (x : Num × Word) : Nat × Word :=
  if x.1.isZero then (0, x.2) else f.finish .rn x

/-- The compositing operator (R404). -/
def compositeTwo (a b : CollVal) : CollVal :=
  let v (x : CollVal) (i : Nat) : Num := fp32.value (nth x.ws i 0)
  let cs := (List.range 3).map fun c => collRound fp32 (Num.fma .rn false (v a 3) (v b c) (v a c))
  let t := fp32.fmul .rn (nth a.ws 3 0) (nth b.ws 3 0)
  { ws := cs.map (·.1) ++ [t.1], flags := (cs.foldl (fun g c => g ||| c.2) (a.flags ||| b.flags)) ||| t.2 }

/-- The ordered sum (R405). -/
def sumTwo (ty : Nat) (a b : CollVal) : CollVal :=
  let x := nth a.ws 0 0
  let y := nth b.ws 0 0
  if ty = 11 then { ws := [(x + y) % 2 ^ 32], flags := a.flags ||| b.flags }
  else
    let f := if ty = 0 then fp64 else fp32
    let r := collRound f ((f.value x).add .rn (f.value y))
    { ws := [r.1], flags := a.flags ||| b.flags ||| r.2 }

/-- A NaN made canonical. -/
def canonNan (f : Fmt) (x : Nat) : Nat := if (f.value x).isNan then f.nanEnc else x

/-- The words of an input. -/
def Coll.input (k : Coll) (bs : List Byte) : CollVal :=
  if k.sub = 4 then { ws := (chunks 4 bs.length bs).map natOf } else { ws := [natOf bs] }

/-- The result of an element: its bytes and flags, from its inputs in order. -/
def Coll.element (k : Coll) (xs : List CollVal) : List Byte × Word :=
  let f := if k.sub = 4 then compositeTwo else sumTwo k.ty
  match balanced f 64 xs with
  | [] => ([], 0)
  | r :: _ =>
    if k.sub = 4 then (r.ws.flatMap fun w => leOf 4 (canonNan fp32 w), r.flags)
    else if k.ty = 11 then (leOf 4 (nth r.ws 0 0), r.flags)
    else
      let f := if k.ty = 0 then fp64 else fp32
      (leOf k.width (canonNan f (nth r.ws 0 0)), r.flags)

/-- Element e of an input, as sent. -/
def Coll.part (k : Coll) (src : List Byte) (e : Nat) : CollVal := k.input ((src.drop (e * k.width)).take k.width)

/-- The order of tile j (R404). -/
def tileOrder (ord : List Nat) (n j : Nat) : List Nat := (ord.drop (n * j)).take n

/-- Whether a tile's order names each rank once. -/
def isOrder (n : Nat) (l : List Nat) : Bool := l.length == n && (List.range n).all fun r => l.any fun x => x == r

/-- The result over all elements: inputs by rank, and rank 0's order table. -/
def Coll.result (k : Coll) (n : Nat) (srcs : List (List Byte)) (ord : List Nat) : List Byte × Word :=
  let es := (List.range k.count).map fun e =>
    let order := if k.sub = 4 ∧ n ≠ 1 then tileOrder ord n (e / 2 ^ k.tpl) else List.range n
    k.element (order.map fun r => k.part (nth srcs r []) e)
  (es.flatMap (·.1), es.foldl (fun g x => g ||| x.2) 0)

/-! ### Inputs, R407 -/

/-- The record of a collective command. -/
def State.collRecord (s : State) (c : Cmd) (cause sub addr : Nat) : State :=
  let r := s.engineRecord c cause sub addr
  { s with due := s.due ++ [if c.fromBlock then r else { r with area := some (c.asid, c.root, nth c.aux 0 0) }] }

/-- What stands for an input that faults. -/
def Coll.identity (k : Coll) : List Byte := if k.sub = 4 then leOf 12 0 ++ leOf 4 0x3F800000 else leOf k.width 0

/-- Reads items of a width from an address: a faulting one is replaced, and the first fault kept. -/
def State.readItems (s : State) (c : VCtx) (va w n : Nat) (subst : List Byte) : State × List Byte × ElemFault :=
  (List.range n).foldl (fun (acc : State × List Byte × ElemFault) i =>
    match acc.1.engineReadSpan c (va + w * i) w with
    | (s1, .ok bs) => (s1, acc.2.1 ++ bs, acc.2.2)
    | (s1, .error e) => (s1, acc.2.1 ++ subst, firstFault acc.2.2 (some (i, e.1, e.2.1, e.2.2)))) (s, [], none)

/-- Entries of an order table that a rank reads: rank 0's only. -/
def Cmd.ordEntries (c : Cmd) : Nat :=
  let k := c.coll
  if k.sub = 4 ∧ c.collRank = 0 then c.collRanks * (k.count / 2 ^ k.tpl) else 0

/-- The entries of R407. -/
def Cmd.collLocks (c : Cmd) (ctx : VCtx) : List Lock :=
  let k := c.coll
  let span (va n : Nat) (x : Bool) : List Lock := if n = 0 then [] else [lockSpan ctx va n x x c.id]
  span k.src k.bytes false ++ span k.ord (2 * c.ordEntries) false ++ span k.dst k.bytes true ++ span k.status 32 true

/-- A command whose entries are held reads its inputs. -/
def State.beginColl (s : State) (c : Cmd) : State :=
  let k := c.coll
  let n := if k.sub = 6 then 0 else k.count
  let (s1, src, f1) := s.readItems (c.ctx s) k.src k.width n k.identity
  let (s2, ob, f2) := s1.readItems (c.ctx s) k.ord 2 c.ordEntries (leOf 2 0xFFFF)
  let s3 := match f1, f2 with
    | some f, _ => s2.collRecord c f.2.1 f.2.2.1 f.2.2.2
    | none, some f => s2.collRecord c f.2.1 f.2.2.1 f.2.2.2
    | none, none => s2
  let stat := if f1.isSome || f2.isSome then 2 else 0
  let ord := (chunks 2 ob.length ob).map natOf
  s3.startCmd { c with begun := true, data := src, aux := [nth c.aux 0 0, c.collSeq, c.collRanks, c.collRank, stat] ++ ord }

/-! ### Begin and completion, R407, R408 -/

/-- Writes the status area of a command. -/
def State.collStatus (s : State) (c : Cmd) (stat lost : Nat) : State :=
  match s.engineWriteSpan (c.ctx s) c.coll.status
      (leOf 4 (1 + stat) ++ leOf 4 lost ++ leOf 8 s.now ++ leOf 4 c.collSeq ++ leOf 12 0) with
  | (s1, .ok _) => s1
  | (s1, .error e) => s1.collRecord c e.1 e.2.1 e.2.2

/-- The last steps of a command: its status, its entries, its 32 bytes. Whether its node is to succeed (R412). -/
def State.endColl (s : State) (c : Cmd) (stat lost : Nat) : State × Bool :=
  (((s.collStatus c stat lost).flushDue).endCmd c 32, stat / 2 % 8 == 0)

/-- A collective command ended by the loss of a peer: its DST undefined, and a fault of its own inputs still told. -/
def State.loseColl (s : State) (c : Cmd) (lost : Nat) : State × Bool :=
  let s0 := { s with waiting := s.waiting.filter fun w => w.id != c.id }
  let s1 := s0.scramble (c.ctx s0) c.coll.dst c.coll.bytes
  s1.endColl c (4 + 2 * (c.collStat / 2 % 2)) lost

/-- A command that may begin: its tick has passed, and of those with its tick none issued before it is still to begin
(01 R25). -/
def State.collTurn (s : State) (c : Cmd) : Bool :=
  let due (x : Cmd) : Bool := x.isColl && !x.begun && !s.stopped x && !(s.waiting.any fun w => w.id == x.id)
  due c && !c.held && !s.cmds.any fun p => due p.2 && p.2.tick == c.tick && decide (p.1 < c.id)

/-- Whether the launch of a command has lost a peer. -/
def State.lostFor (s : State) (c : Cmd) : Option Nat :=
  (s.launch? c.launch).bind fun l => if l.lostRanks = [] then none else some (l.lostRanks.foldl min 0xFFFFFFFF)

/-- R407: a command whose tick has passed registers its entries and reads its inputs, or waits for its entries. One that comes
back with its block to a launch that has lost a peer ends with it (R409). -/
def execCollectiveBegin (id : Nat) (s : State) : Out :=
  match sget s.cmds id with
  | none => .next s
  | some c =>
    if !s.collTurn c then .next s
    else if let some lost := s.lostFor c then .next (((s.loseColl c lost).1).checkRetire c.core c.blk)
    else
      let c1 : Cmd := { c with locks := c.collLocks (c.ctx s) }
      if s.mustWait c1 then .next { s with waiting := s.waiting ++ [c1], cmds := sput s.cmds id c1 }
      else .next (s.beginColl c1)

/-- What this rank itself contributes. -/
def Cmd.ownInput (c : Cmd) : PeerInput :=
  { rank := c.collRank, sub := c.sub, count := c.coll.count, ctl := wordAt c.desc 9, src := c.data, ord := c.collOrd,
    fault := bitOf c.collStat 1 }

/-- The inputs of all ranks by rank, where every one has arrived. -/
def Cmd.inputs (c : Cmd) (peers : List PeerInput) : Option (List PeerInput) :=
  let all := c.ownInput :: peers.filter fun p => p.rank != c.collRank
  let found := (List.range c.collRanks).map fun r => all.find? fun p => p.rank == r
  if found.all Option.isSome then some (found.filterMap fun x => x) else none

/-- Whether the commands of the ranks differ (R408): a barrier has its sub and scope only. -/
def inputsDiffer (k : Coll) (n : Nat) (ins : List PeerInput) : Bool :=
  match ins with
  | [] => false
  | z :: _ =>
    (ins.any fun p => p.sub != z.sub
      || (if z.sub = 6 then p.ctl.toNat % 8 != z.ctl.toNat % 8 else p.count != z.count || p.ctl != z.ctl))
    || (z.sub == 4 && (List.range (z.count / 2 ^ (z.ctl.toNat / 2 ^ 16 % 32))).any fun j => !isOrder n (tileOrder z.ord n j))
    || k.sub != z.sub

/-- R407: every rank's command has arrived: the result, the status, the entries, the credit. -/
def State.completeColl (s : State) (c : Cmd) (ins : List PeerInput) : State × Bool :=
  let k := c.coll
  let n := c.collRanks
  let flt := if ins.any (·.fault) then 2 else 0
  if inputsDiffer k n ins then s.endColl c (Nat.lor flt 8) 0xFFFFFFFF
  else if k.sub = 6 then s.endColl c flt 0xFFFFFFFF
  else
    let ord := (ins.head?.map (·.ord)).getD []
    let (bs, fl) := k.result n (ins.map (·.src)) ord
    let flags := (fl &&& (flagNV ||| flagOF ||| flagNX)).toNat
    match s.writePieces (c.ctx s) k.dst (lineCuts (bs.length / 128 + 2) k.dst bs.length) 0 8 bs with
    | (s1, none) => s1.endColl c (Nat.lor flt flags) 0xFFFFFFFF
    | (s1, some e) => (s1.collRecord c e.2.1 e.2.2.1 e.2.2.2).endColl c (Nat.lor (Nat.lor flt 2) flags) 0xFFFFFFFF

/-! ### Peer loss, R399, R409 -/

/-- The rank of a package in a launch, when it is not this package. -/
def Launch.rankOf (l : Launch) (pkid pkg : Nat) : Option Nat :=
  if pkg = pkid then none else (List.range l.group.length).find? fun r => nth l.group r pkid == pkg

/-- Launches whose table names a package. -/
def State.launchesWith (s : State) (pkg : Nat) : List (Launch × Nat) :=
  s.launches.filterMap fun p => (p.2.rankOf s.pkid pkg).map fun r => (p.2, r)

/-- The loss noted in a launch, with its collective commands and the kernels of its queue; nodes among the commands are
left to the task graph. -/
def State.losePeerOf (s : State) (l : Launch) (rank : Nat) : State :=
  let s1 := s.modLaunch l.id fun x =>
    { x with peerLost := true, lostRanks := if rank ∈ x.lostRanks then x.lostRanks else rank :: x.lostRanks }
  let s2 := ((s1.cmds.map (·.2)).filter fun c => c.isColl && c.launch == l.id && c.fromBlock).foldl (fun s c =>
    ((s.loseColl c ((s.lostFor c).getD rank)).1).checkRetire c.core c.blk) s1
  ((s2.kernels.filter fun p => p.2.queue == l.queue && bitOf p.2.fl 1)).foldl (fun s p => (s.abortKernel p.1 4).1) s2

/-! ### Collective nodes, R412 -/

/-- Whether a payload is rejected. -/
def collNodeBad (bs : List Byte) : Bool :=
  let sub := fieldOf bs 0 1
  let k := collOf sub ((List.range 12).map fun i => wordOf ((bs.drop (16 + 4 * i)).take 4))
  decide (sub < 4) || decide (6 < sub) || fieldOf bs 1 7 != 0 || ((bs.drop 64).any fun b => b != 0) || k.early.isSome || k.late.isSome

/-- The command of a collective node: it runs for the youngest launch of its queue, alone where there is none (log
entry 14). A launch that has lost a peer refuses it (R401). -/
def State.collNode (s : State) (queue asid root node : Nat) (bs : List Byte) : State × Bool :=
  let sub := fieldOf bs 0 1
  let desc := (List.range 12).map fun i => wordOf ((bs.drop (16 + 4 * i)).take 4)
  let la := s.youngest queue
  let (s1, cid) := s.nextColl 0
  let (q, n, r, lid) := match la with
    | some l => (l.collSeq, l.ranks, l.rank, l.id)
    | none => (match sget s.queues queue with | some x => x.collSeq | none => 0, 1, 0, 0)
  let s2 := match la with
    | some l => s1.modLaunch l.id fun x => { x with collSeq := x.collSeq + 1 }
    | none => { s1 with queues := smod s1.queues queue fun x => { x with collSeq := x.collSeq + 1 } }
  if (la.map (·.lostRanks)).getD [] ≠ [] then (s, true)
  else (s2.queueCmd
    { id := s2.nextId, major := 30, sub := sub, mode := 0, tag := 0, core := 0, blk := 0, grp := 0, thr := 0, fromBlock := false,
      launch := lid, queue := queue, asid := asid, root := root, cmdId := cid, desc := desc,
      tick := BitVec.ofNat 64 (collOf sub desc).tick, node := some node, aux := [fieldOf bs 8 8, q, n, r, 0] }, false)

end Sys2Proof.Machine
end

