-- ==== Sys2Proof/Machine/MatrixMath.lean ====
section
/-! DEFINITION. The matrix engine's arithmetic: the shape that a descriptor gives, the placement of operands (13 R304-
R307, R320), and the values of the accumulators (R318, R319). -/

namespace Sys2Proof.Machine

open Sys2Proof

/-! ### The shape, R304, R305, R308, R309 -/

/-- A matrix descriptor, decoded. -/
structure MatDesc where
  at_ : Nat
  bt : Nat
  act : Nat
  sp : Nat
  sch : Nat
  gs : Nat
  ta : Bool
  tb : Bool
  rs : Nat
  m : Nat
  n : Nat
  k : Nat
  hnd : Nat
  uof : Nat
  ar : Nat
  br : Nat
  mr : Nat
  asr : Nat
  bsr : Nat
  vcnt : Nat
  badr : Nat
  deriving DecidableEq, Repr

def matDesc (d : List Word) : MatDesc :=
  let w (i : Nat) : Nat := (nth d i 0).toNat
  { at_ := w 0 % 16, bt := w 0 / 16 % 16, act := w 0 / 256 % 16, sp := w 0 / 2 ^ 12 % 4, sch := w 0 / 2 ^ 14 % 4,
    gs := w 0 / 2 ^ 16 % 4, ta := bitOf (w 0) 18, tb := bitOf (w 0) 19, rs := w 0 / 2 ^ 20 % 16,
    m := 64 * (w 1 % 4 + 1), n := 16 * (w 1 / 4 % 32 + 1), k := w 1 / 256 % 2 ^ 16,
    hnd := w 2 % 64, uof := w 2 / 64 % 64,
    ar := w 3 % 1024, br := w 3 / 1024 % 1024, mr := w 3 / 2 ^ 20 % 1024,
    asr := w 4 % 1024, bsr := w 4 / 1024 % 1024, vcnt := w 7, badr := w 8 + 2 ^ 32 * w 9 }

/-- The chunk depth of a dense A, and the K of an array (R304). -/
def denseKc (t : Nat) : Nat :=
  match t with
  | 0 => 2 | 1 => 1 | 2 => 8 | 3 => 8 | 4 => 16 | 5 => 16 | 7 => 16 | 8 => 16 | 6 => 32 | 9 => 32 | 10 => 32 | _ => 1

namespace MatDesc

def w (d : MatDesc) : Nat := typeWidth d.at_
def sparse (d : MatDesc) : Bool := d.sp == 1
def kc (d : MatDesc) : Nat := if d.sparse then 2 * denseKc d.at_ else denseKc d.at_
/-- Rows of one quadrant. -/
def mq (d : MatDesc) : Nat := d.m / 4
/-- Stored elements of a row of A. -/
def ks (d : MatDesc) : Nat := if d.sparse then d.k / 2 else d.k
/-- The group of the asymmetric scheme. -/
def g (d : MatDesc) : Nat := 32 * 2 ^ d.gs

def aRegs (d : MatDesc) : Nat := (d.mq * d.ks * d.w + 1023) / 1024
def bRegs (d : MatDesc) : Nat := d.k * d.n * d.w / 4096
/-- Registers that a quarter of B stands in: for 64-bit elements whole pairs (R306). -/
def bSpan (d : MatDesc) : Nat := if d.w = 64 then 2 * ((d.k * d.n / 4 + 31) / 32) else d.bRegs
def metaRegs (d : MatDesc) : Nat := if d.sparse then (d.mq * d.k + 1023) / 1024 else 0

/-- Rows and columns of A and of B as stored (R320). -/
def aDims (d : MatDesc) : Nat × Nat := if d.ta then (d.ks, d.m) else (d.m, d.ks)
def bDims (d : MatDesc) : Nat × Nat := if d.tb then (d.k, d.n) else (d.n, d.k)

def blocks32 (x : Nat) : Nat := (x + 31) / 32

/-- Registers of a scale run with `e8` scales under E8M0, or `recs` records. -/
def scaleRegs (sch : Nat) (dims : Nat × Nat) (recs : Nat) : Nat :=
  match sch with
  | 0 => 0
  | 1 => (blocks32 dims.1 * blocks32 dims.2 * 8 + 1023) / 1024
  | _ => (recs * 32 + 1023) / 1024

def asRegs (d : MatDesc) : Nat := scaleRegs d.sch d.aDims (d.mq * (d.k / d.g))
def bsRegs (d : MatDesc) : Nat := scaleRegs d.sch d.bDims (d.n * (d.k / d.g))

/-- Accumulators that C takes. -/
def accs (d : MatDesc) : Nat := d.m * d.n * (if d.act = 0 then 2 else 1)

end MatDesc

/-- The types of one row of the table of R310. -/
def typeClass (t : Nat) : Nat :=
  match t with
  | 0 => 0 | 1 => 1 | 2 => 2 | 3 => 3 | 4 => 4 | 5 => 4 | 6 => 5 | 7 => 6 | 8 => 6 | 9 => 7 | 10 => 7 | _ => 8

/-- Combinations that R310 does not list, with their subcause. -/
def MatDesc.badCombo (d : MatDesc) : Option Nat :=
  let c := typeClass d.at_
  let acts := match c with | 0 => [0] | 1 => [12] | 2 => [12] | 3 => [12] | 4 => [12] | 5 => [12] | 6 => [11, 12] | 7 => [11, 12] | _ => []
  let sparseOk := c == 2 || c == 3 || c == 4 || c == 6
  let schOk := if c = 4 ∨ c = 5 then d.sch == 0 || d.sch == 1
    else if c = 6 ∨ c = 7 then (if d.act = 11 then d.sch == 0 else d.sch == 2) else d.sch == 0
  if typeClass d.bt ≠ c ∨ d.act ∉ acts then some 1
  else if d.sp = 1 ∧ !sparseOk then some 2
  else if !schOk ∨ (d.gs ≠ 0 ∧ d.sch ≠ 2) then some 3
  else if (d.rs ≠ 0 ∧ d.act ≠ 0) ∨ rsSat d.rs then some 4
  else none

/-- The reserved fields of a descriptor (R308, R309). -/
def fmtReserved (fmt : Nat) : Bool :=
  decide (fmt / 2 ^ 24 ≠ 0) || typeReserved (fmt % 16) || typeReserved (fmt / 16 % 16) || typeReserved (fmt / 256 % 16)
    || decide (2 ≤ fmt / 2 ^ 12 % 4) || fmt / 2 ^ 14 % 4 == 3 || fmt / 2 ^ 16 % 4 == 3 || rsReserved (fmt / 2 ^ 20 % 16)

def tagReserved (t : Nat) : Bool := halfReserved (t % 65536) || halfReserved (t / 65536)

def matReserved (d : List Word) (f : Bool) : Bool :=
  let w (i : Nat) : Nat := (nth d i 0).toNat
  fmtReserved (w 0) || decide (w 1 / 2 ^ 24 ≠ 0) || bitOf (w 1) 7 || decide (w 2 / 2 ^ 12 ≠ 0) || decide (w 3 / 2 ^ 30 ≠ 0)
    || decide (w 4 / 2 ^ 20 ≠ 0) || tagReserved (w 5) || tagReserved (w 6) || (f && decide (4 < w 10))

/-- A shape that R311 refuses. -/
def MatDesc.badShape (d : MatDesc) : Bool :=
  d.k == 0 || d.k % d.kc != 0 || (d.sch == 2 && d.k % d.g != 0) || d.k * d.n * d.w % 4096 != 0

/-- The runs of registers that one sign names: first and count. -/
def MatDesc.runs (d : MatDesc) (f : Bool) : List (Nat × Nat) :=
  [(d.ar, d.aRegs)] ++ (if f then [] else [(d.br, d.bRegs)]) ++ (if d.sparse then [(d.mr, d.metaRegs)] else [])
    ++ (if d.sch = 0 then [] else [(d.asr, d.asRegs), (d.bsr, d.bsRegs)])

/-- The runs that one sign's operands stand in. -/
def MatDesc.reads (d : MatDesc) (f : Bool) : List (Nat × Nat) := d.runs f ++ if f then [] else [(d.br, d.bSpan)]

/-- The runs that the engine reads of a signer: those of A and its metadata are checked in the odd block of a pair and not read
(R316). -/
def MatDesc.readsOf (d : MatDesc) (f odd : Bool) : List (Nat × Nat) :=
  if odd then (if f then [] else [(d.br, d.bSpan)]) ++ (if d.sch = 0 then [] else [(d.asr, d.asRegs), (d.bsr, d.bsRegs)])
  else d.reads f

/-! ### Metadata, R307 -/

/-- A nibble whose first index is below its second. -/
def nibbleLegal (x : Nat) : Bool := decide (x % 4 < x / 4 % 4)

/-- The lowest illegal nibble of a lane's metadata registers: its element and value. -/
def badNibble (d : MatDesc) (rank : Nat) (ws : List Word) : Option (Nat × Nat) :=
  firstSome ((List.range (ws.length * 8)).map fun x =>
    let i := x / 8
    let e := 256 * i + 8 * rank + x % 8
    let v := (nth ws i 0).toNat / 16 ^ (x % 8) % 16
    if e < d.mq * d.k / 4 ∧ !nibbleLegal v then some (e, v) else none)

/-! ### Operands in place, R306, R315 -/

/-- The words that the signer at a quadrant and rank supplies, none where no thread signed. -/
abbrev MatWords := Nat → Nat → Option (List Word)

/-- Element j of width w of a run that starts at word `o` of what each rank of a quadrant supplies. -/
def elemOf (ws : MatWords) (q o w j : Nat) : Option Nat :=
  if w = 64 then (ws q (j % 32)).map fun l => (nth l (o + 2 * (j / 32)) 0).toNat + 2 ^ 32 * (nth l (o + 2 * (j / 32) + 1) 0).toNat
  else (ws q (j * w / 32 % 32)).map fun l => (nth l (o + j * w / 1024) 0).toNat / 2 ^ (w * (j % (32 / w))) % 2 ^ w

/-- The operands of one core's half of an operation: what the quadrants supply for A and its metadata, and for B and both
scale runs; B's bytes when it comes from memory. -/
structure MatIn where
  desc : MatDesc
  a : MatWords
  b : MatWords
  mem : Option (List Byte)

namespace MatIn

/-- The kept positions of a group of four, as a metadata nibble. -/
def nibble (x : MatIn) (m g : Nat) : Nat :=
  (elemOf x.a (m / x.desc.mq) x.desc.aRegs 4 (m % x.desc.mq * (x.desc.k / 4) + g)).getD 4

/-- The stored element of A at row m and stored column c. -/
def aBits (x : MatIn) (m c : Nat) : Option Nat :=
  let d := x.desc
  let r := m % d.mq
  elemOf x.a (m / d.mq) 0 d.w (if d.ta then c * d.mq + r else r * d.ks + c)

/-- The element of B at row k and column n. -/
def bBits (x : MatIn) (k n : Nat) : Option Nat :=
  let d := x.desc
  let j := if d.tb then k * d.n + n else n * d.k + k
  match x.mem with
  | some bs => some (natOf ((bs.drop (j * d.w / 8)).take ((d.w + 7) / 8)) / 2 ^ (j * d.w % 8) % 2 ^ d.w)
  | none =>
    let quarter := d.k * d.n / 4
    elemOf x.b (j / quarter) 0 d.w (j % quarter)

/-- Where the scale runs start among the words of B's side. -/
def asAt (x : MatIn) : Nat := if x.mem.isSome then 0 else x.desc.bSpan
def bsAt (x : MatIn) : Nat := x.asAt + x.desc.asRegs

/-- The E8M0 byte at a stored element, in a quadrant's own copy (R320). -/
def e8 (x : MatIn) (q o : Nat) (dims : Nat × Nat) (r c : Nat) : Nat :=
  (elemOf x.b q o 8 (r / 32 * MatDesc.blocks32 dims.2 + c / 32)).getD 0

/-- The record of a row of A or a column of B, and a group. -/
def recA (x : MatIn) (m g : Nat) : Nat :=
  (elemOf x.b (m / x.desc.mq) x.asAt 32 (m % x.desc.mq * (x.desc.k / x.desc.g) + g)).getD 0
def recB (x : MatIn) (q n g : Nat) : Nat := (elemOf x.b q x.bsAt 32 (n * (x.desc.k / x.desc.g) + g)).getD 0

/-- A floating-point element with its scale. -/
def scaled (t : Nat) (sch scale : Nat) (v : Option Nat) : Num :=
  match v with
  | none => .ofInt 0
  | some bits =>
    if sch = 1 then
      match e8m0Exp scale with
      | some k => (elemNum t bits).scale k
      | none => .nan false
    else elemNum t bits

/-- The stored column of A that supplies logical K, or none where the metadata leaves it out. -/
def storedCol (x : MatIn) (m k : Nat) : Option Nat :=
  if x.desc.sparse then
    let v := x.nibble m (k / 4)
    if k % 4 = v % 4 then some (2 * (k / 4)) else if k % 4 = v / 4 % 4 then some (2 * (k / 4) + 1) else none
  else some k

/-- a(m, k) of R318. -/
def aNum (x : MatIn) (m k : Nat) : Num :=
  match x.storedCol m k with
  | none => .ofInt 0
  | some c =>
    let d := x.desc
    let at2 := if d.ta then (c, m) else (m, c)
    scaled d.at_ d.sch (x.e8 (m / d.mq) x.asAt d.aDims at2.1 at2.2) (x.aBits m c)

/-- b(k, n) as the array of quadrant q sees it. -/
def bNum (x : MatIn) (q k n : Nat) : Num :=
  let d := x.desc
  let at2 := if d.tb then (k, n) else (n, k)
  scaled d.bt d.sch (x.e8 q x.bsAt d.bDims at2.1 at2.2) (x.bBits k n)

/-- The integers of a row and a column; with records, less their zero points. -/
def aInt (x : MatIn) (m k : Nat) : Int :=
  match (x.storedCol m k).bind fun c => x.aBits m c with
  | none => 0
  | some v =>
    elemInt x.desc.at_ v - (if x.desc.sch = 2 then (asymOfRecord x.desc.at_ (x.recA m (k / x.desc.g))).2 else 0)

def bInt (x : MatIn) (q k n : Nat) : Int :=
  match x.bBits k n with
  | none => 0
  | some v =>
    elemInt x.desc.bt v - (if x.desc.sch = 2 then (asymOfRecord x.desc.bt (x.recB q n (k / x.desc.g))).2 else 0)

end MatIn

/-! ### Sums, R318, R319 -/

/-- The exact sum of a chunk: a NaN, or infinities of both signs, give NaN, with NV where one is signalling, as an accumulator
that software has written may be (02 R44); an exact zero is +0. -/
def exactSum (xs : List Num) : Num × Word :=
  if xs.any Num.isNan then (.nan false, flagIf (xs.any Num.isSig) flagNV)
  else
    let infs := xs.filter fun x => match x with | .inf _ => true | _ => false
    match infs with
    | i :: rest => if rest.all fun x => x == i then (i, 0) else (.nan false, flagNV)
    | [] =>
      let s := xs.foldl (fun acc x => (Num.add .rn acc x).1) (.fin false 0 0)
      (if s.isZero then .fin false 0 0 else s, 0)

/-- One chunk added to an accumulator's encoding and rounded once: the new encoding and the flags. -/
def chunkStep (f : Fmt) (md : Rnd) (acc : Nat) (terms : List (Num × Word)) : Nat × Word :=
  let (s, f1) := exactSum (f.value acc :: terms.map (·.1))
  let (r, f2) := f.round md false s
  (r, terms.foldl (fun f t => f ||| t.2) (f1 ||| f2))

/-- The chunks of one accumulator, ascending, from c on: `terms` gives the products of a chunk. -/
def chunkRun (f : Fmt) (md : Rnd) (terms : Nat → List (Num × Word)) : Nat → Nat → Nat → Nat × Word
  | 0, _, acc => (acc, 0)
  | k + 1, c, acc =>
    let (a, f1) := chunkStep f md acc (terms c)
    let (r, f2) := chunkRun f md terms k (c + 1) a
    (r, f1 ||| f2)

/-- The new value of the accumulator of row m and column n from its old one, and the flags (R318). For an FP64
accumulator the value is that of the pair. -/
def MatIn.accOf (x : MatIn) (md : Rnd) (z : Bool) (old : Nat) (m n : Nat) : Nat × Word :=
  let d := x.desc
  let q := m / d.mq
  let a0 := if z then 0 else old
  if d.act = 11 then
    let s := (List.range d.k).foldl (fun acc k => acc + x.aInt m k * x.bInt q k n) (0 : Int)
    (ofInt 32 ((a0 : Int) + s), 0)
  else if d.sch = 2 then
    chunkRun fp32e .rn (fun g =>
      let s := (List.range d.g).foldl (fun acc i => acc + x.aInt m (g * d.g + i) * x.bInt q (g * d.g + i) n) (0 : Int)
      let da := fp16.value (asymOfRecord d.at_ (x.recA m g)).1
      let db := fp16.value (asymOfRecord d.bt (x.recB q n g)).1
      let (p, f1) := da.mul db
      let (r, f2) := p.mul (.ofInt s)
      [(r, f1 ||| f2)]) (d.k / d.g) 0 a0
  else
    let f := if d.act = 0 then fp64 else fp32e
    let step := if d.act = 0 then 2 else d.kc
    chunkRun f (if d.act = 0 then md else .rn) (fun c =>
      (List.range step).map fun i => (x.aNum m (c * step + i)).mul (x.bNum q (c * step + i) n)) (d.k / step) 0 a0

end Sys2Proof.Machine
end

