-- ==== Sys2Proof/Machine/Matrix.lean ====
section
/-! DEFINITION. The matrix engine: signing, issue and completion of operations (13 R312-R323), accumulator regions and
their tokens (R324-R328), and the instructions that move accumulators (R329-R332). -/

namespace Sys2Proof.Machine

open Sys2Proof

/-! ### Regions, R324, R325 -/

def Block.region? (b : Block) (h : Nat) : Option Region := b.regions.find? fun r => r.handle == h

/-- An accumulator: one that nothing has written since the allocation is undefined. -/
def Region.get (r : Region) (i : Nat) : Nat := ((sget r.acc i).getD (Config.accInit r.serial i)).toNat

def Region.put (r : Region) (i v : Nat) : Region := { r with acc := sput r.acc i (BitVec.ofNat 40 v) }

def Region.putAll (r : Region) : List (Nat × Nat) → Region
  | [] => r
  | p :: ps => (r.put p.1 p.2).putAll ps

def Block.modRegion (b : Block) (h : Nat) (f : Region → Region) : Block :=
  { b with regions := b.regions.map fun r => if r.handle = h then f r else r }

/-- Accumulators of a region. -/
def Region.size (r : Region) : Nat := 1024 * r.units

/-! ### Where a phase is, R316 -/

/-- The block that holds the register of a sign: the issuing block, or the even block of its pair. -/
def State.signHome (s : State) (b : Block) (p : Bool) : Option (Nat × Nat) :=
  if p ∧ b.crank % 2 = 1 then s.evenOf b else some (s.issue.core, s.issue.blk)

/-- Whether a block is the odd one of a pair. -/
def pairOdd (b : Block) (p : Bool) : Bool := p && b.crank % 2 == 1

/-- Whether a thread has signed a register's phase: an odd block's threads are kept with the phase. -/
def signedIn (c : CvReg) (odd : Bool) (idx : Nat) (t : Thread) (k : Nat) : Bool :=
  if odd then c.signers.any fun g => g.odd && g.thr == idx else t.signed.getLsbD k

/-- Signers of one block of a phase, as threads with their words. -/
def State.signersOf (s : State) (c : CvReg) (odd : Bool) (at_ : Nat × Nat) : List (Block × Thread × List Word) :=
  match s.block? at_.1 at_.2 with
  | none => []
  | some b => (c.signers.filter fun g => g.odd == odd).filterMap fun g => (sget b.threads g.thr).map fun t => (b, t, g.words)

/-! ### The checks of a sign, R307-R313, R322 -/

/-- The tag checks (R322): every half, then the K halves. -/
def tagChecks (l : Launch) (tagA tagB : Nat) (ta tb : Bool) : Option (Nat × Word) :=
  let ka := if ta then tagA / 65536 else tagA % 65536
  let kb := if tb then tagB / 65536 else tagB % 65536
  let halves := firstSome [halfFault l (tagA % 65536) false, halfFault l (tagA / 65536) true,
    halfFault l (tagB % 65536) false, halfFault l (tagB / 65536) true]
  match halves with
  | some f => some f
  | none =>
    if ka = kb then none
    else some (3, BitVec.ofNat 32 (ka % 65536 + (if ka % 4 = 0 then 0 else (l.seedAt (ka / 4 % 8)).gen % 256) * 65536
      + (if ta then 2 ^ 24 else 0)))

/-- The register's checks of a sign (R184, R313, R316): cause 0x17. -/
def cvFaults (c : Option CvReg) (oddPair signed clash : Bool) : Option Nat :=
  if oddPair then some 0x11
  else
    match c with
    | none => some 3
    | some c =>
      if c.e = 0 then some 3 else if c.broken then some 6 else if signed then some 4
      else if c.c ≠ 0 ∧ c.mat.isNone then some 0x12 else if clash then some 0x10 else none

/-- The words that a matrix phase compares (R313). -/
def phaseWords (d : List Word) (f z p : Bool) : List Word × List Bool :=
  ([nth d 0 0, nth d 1 0, nth d 5 0, nth d 6 0, nth d 7 0], [f, z, p])

def MatPhase.words (m : MatPhase) : List Word × List Bool := ([m.fmt, m.shape, m.tagA, m.tagB, m.vcnt], [m.f, m.z, m.p])

/-- Divergence from the phase's record: cause 0x10. -/
def phaseFault (ph : Option MatPhase) (odd : Bool) (d : List Word) (f z p : Bool) : Option Nat :=
  match ph with
  | none => none
  | some m =>
    if m.words ≠ phaseWords d f z p then some 1
    else if m.oddFirst = odd ∧ m.own ≠ (d.drop 2).take 3 then some 2 else none

def stopOf (cause : Nat) (sub : Option Nat) : Option Stop := sub.map fun x => .trap cause x 0 0

/-- The region's checks: the token, then the range. -/
def regionFault (r : Option Region) (first n : Nat) : Option Stop :=
  match r with
  | none => some (.trap 0x16 1 0 0)
  | some r =>
    if r.token = .block then some (.trap 0x15 2 0 0) else if r.size < first + n then some (.trap 0x16 2 0 0) else none

/-- What one sign needs to know of its place. -/
structure SignAt where
  /-- the register, where it exists -/
  cv : Option CvReg
  odd : Bool
  /-- P with an odd CBLK -/
  badPair : Bool
  signed : Bool
  /-- another group of the block on the quadrant has signed -/
  clash : Bool
  quad : Nat
  launch : Launch
  block : Block

/-- The words of the sign's descriptor: 8, or 11 for `mmam`. -/
def matWords (f : Bool) : Nat := if f then 11 else 8

/-- Every check of a sign, in the order of R26; the combination comes before the registers whose runs it gives. With 64-bit
elements BSR is tested though no scheme reads it: R311 lists it, R308 calls it ignored (log entry 45). -/
def signChecks (x : SignAt) (t : Thread) (dsc : BitVec 7) (f z p : Bool) : Option Stop :=
  let cvStop := stopOf 0x17 (cvFaults x.cv x.badPair x.signed x.clash)
  match descField dsc with
  | some e => some (plainStop e)
  | none =>
    match runBeyond t dsc (matWords f) with
    | some e => some e
    | none =>
      match runPoison t dsc (matWords f) with
      | some e => firstSome [cvStop, some e]
      | none =>
        let ds := descRun t dsc (matWords f)
        let d := matDesc ds
        let w (i : Nat) : Nat := (nth ds i 0).toNat
        if matReserved ds f then some (.trap 2 0 0 0)
        else
          let ph := (x.cv.bind fun c => if c.c = 0 then none else c.mat)
          let div := stopOf 0x10 (phaseFault ph x.odd ds f z p)
          match d.badCombo with
          | some sub => firstSome [div, some (.trap 0x11 sub 0 0)]
          | none =>
            firstSome [
              stopIf (d.w == 64 && (d.ar % 2 == 1 || (!f && d.br % 2 == 1) || d.bsr % 2 == 1)) 3 3,
              stopIf ((d.runs f).any fun r => r.2 != 0 && decide (t.nregs < r.1 + r.2)) 6 0,
              div,
              stopIf d.badShape 0x11 5,
              cvStop,
              regionFault (x.block.region? d.hnd) (d.uof * 1024) d.accs,
              (tagChecks x.launch (w 5) (w 6) d.ta d.tb).map tagStop,
              (badNibble d t.rank (t.regRun d.mr d.metaRegs)).map fun e =>
                .trap 0x14 1 (BitVec.ofNat 64 (x.quad * d.mq + e.1 / (d.k / 4) + 2 ^ 32 * (4 * (e.1 % (d.k / 4)))))
                  (BitVec.ofNat 32 (e.1 % 65536 + 65536 * e.2)),
              stopIf (f && d.badr % 128 != 0) 8 1,
              firstSome ((d.readsOf f x.odd).map fun r => (t.poisonIn r.1 r.2).map poisonStop)]

/-! ### The issue of an operation, R314-R316 -/

/-- A descriptor from the phase's record and a signer's own words. -/
def MatPhase.descOf (m : MatPhase) (ws : List Word) : List Word :=
  [m.fmt, m.shape] ++ ws.take 3 ++ [m.tagA, m.tagB, m.vcnt] ++ ws.drop 3

/-- A signer's quadrant. -/
def signQuad (p : Block × Thread × List Word) : Nat := quadOf p.1 p.2.1.group

/-- What the signers of a block supply: by 32·quadrant + rank, the registers that `f` names from the words of the
quadrant's first signer. -/
def supply (m : MatPhase) (ts : List (Block × Thread × List Word)) (f : MatDesc → Thread → List Word) : SMap (List Word) :=
  ts.foldl (fun acc p =>
    let ws := ((ts.find? fun q => signQuad q == signQuad p).map fun q => q.2.2).getD p.2.2
    sput acc (32 * signQuad p + p.2.1.rank) (f (matDesc (m.descOf ws)) p.2.1)) []

/-- One core's half of an operation: a command of the block, with its operands as registers hold them now. A block none
of whose threads signed has no half. -/
def State.matCmd (s : State) (c : CvReg) (m : MatPhase) (odd : Bool) (home at_ : Nat × Nat) (k : Nat) (t : Thread) (id : Nat) :
    Option Cmd :=
  let mine := s.signersOf c odd at_
  match mine.head?, s.block? at_.1 at_.2 with
  | some first, some b =>
    let ds := m.descOf first.2.2
    let d := matDesc ds
    let la := (s.launch? b.launch).getD noLaunch
    let aSide := supply m (s.signersOf c false home) fun e u => u.regRun e.ar e.aRegs ++ u.regRun e.mr e.metaRegs
    let bSide := supply m mine fun e u =>
      (if m.f then [] else u.regRun e.br e.bSpan) ++ u.regRun e.asr e.asRegs ++ u.regRun e.bsr e.bsRegs
    let x := s.ctxOf at_.1 at_.2
    some {
      id := id, major := 27, sub := if m.f then 1 else 0, mode := if m.z then 1 else 0, tag := 0, core := at_.1, blk := at_.2,
      grp := t.group, thr := t.idx, launch := b.launch, queue := la.queue, asid := la.asid, root := la.root,
      cmdId := engineId at_.1 (s.coreAt at_.1).mxSerial, pc := t.pc, desc := ds, rm := t.fpctl.toNat % 4,
      words := bSide ++ aSide.map fun p => (128 + p.1, p.2),
      locks := if m.f then [lockSpan x d.badr (d.k * d.n * d.w / 8) false false id] else [],
      regs := true, aux := [k, home.1, home.2] }
  | _, _ => none

/-- The halves of an operation: the even core's and, in a pair, the odd core's. -/
def State.matHalves (s : State) (c : CvReg) (m : MatPhase) (home : Nat × Nat) (k : Nat) (t : Thread) : List Cmd :=
  let odd := match (s.block? home.1 home.2).bind fun b => if m.p then s.oddOf b else none with
    | some w => s.matCmd c m true home w k t (s.nextId + 1)
    | none => none
  ([s.matCmd c m false home home k t s.nextId, odd].filterMap id)

/-- Releases the threads of an odd block that wait for the even block's register. -/
def Block.pairWake (o : Block) (k : Nat) : Block :=
  { o with threads := o.threads.map fun x => (x.1, if x.2.mode == .waiting (.pair k) then x.2.release else x.2) }

/-- Ends a phase and lets go the waiters of both blocks (R314, R316). -/
def State.endMatPhase (s : State) (home : Nat × Nat) (k : Nat) : State :=
  let s1 := s.modBlock home.1 home.2 fun b => b.endPhase k
  let s2 := match (s1.block? home.1 home.2).bind fun b => s1.oddOf b with
    | none => s1
    | some w => s1.modBlock w.1 w.2 fun o => o.pairWake k
  s2

/-- Whether a half's region is gone, or held by its block (R314 step 2). -/
def State.matDropped (s : State) (c : Cmd) : Bool :=
  match (s.block? c.core c.blk).bind fun b => b.region? (matDesc c.desc).hnd with
  | none => true
  | some r => r.token == .block

def matFlag : Word := 0x10000

/-- Issues an operation whose phase has all its signs (R314). -/
def State.matIssue (s : State) (hs : List Cmd) (home : Nat × Nat) (k : Nat) : State :=
  let s0 := hs.foldl (fun s c => s.setCore c.core { s.coreAt c.core with mxSerial := (s.coreAt c.core).mxSerial + 1 })
    { s with nextId := s.nextId + 2 }
  match hs.find? fun c => s.matDropped c with
  | some c =>
    let s1 := s0.modBlock c.core c.blk fun b => { b with mxflg := b.mxflg ||| matFlag }
    { (s1.endMatPhase home k) with due := s1.due ++ [s1.engineRecord c 0x15 4 0] }
  | none =>
    let s1 := hs.foldl (fun s c => s.startCmd c) s0
    s1.modBlock home.1 home.2 fun b => b.setCv k { b.cv k with draining := true }

/-- What a sign knows of its place. -/
def State.signAt (s : State) (b : Block) (l : LaneRef) (t : Thread) (p : Bool) (k : Nat) : SignAt :=
  let la := s.issueLaunch
  let odd := pairOdd b p
  let cv := ((s.signHome b p).bind fun w => s.block? w.1 w.2).map fun e => e.cv k
  let q := quadOf b t.group
  { cv := cv, odd := odd, badPair := p && la.rcd.cblk % 2 == 1
    signed := (cv.map fun c => signedIn c odd l.idx t k).getD false
    clash := (cv.map fun c => (s.signersOf c odd (s.issue.core, s.issue.blk)).any fun u =>
      u.2.1.group != t.group && signQuad u == q).getD false
    quad := q, launch := la, block := b }

/-- The register after a sign. -/
def CvReg.afterSign (c : CvReg) (d : List Word) (f z p odd : Bool) (idx : Nat) : CvReg :=
  let m0 : MatPhase := match c.mat with
    | some m => m
    | none => { fmt := nth d 0 0, shape := nth d 1 0, tagA := nth d 5 0, tagB := nth d 6 0, vcnt := nth d 7 0, f := f, z := z,
                p := p, oddFirst := odd, own := (d.drop 2).take 3 }
  { c with c := c.c + 1, mat := some m0, signers := c.signers ++ [⟨odd, idx, (d.drop 2).take 3 ++ d.drop 8⟩] }

/-- Marks the sign in the thread: an odd block's own register takes no part. -/
def Thread.signMat (t : Thread) (odd : Bool) (k : Nat) (ph : Bool) : Thread := if odd then t else t.sign k ph

/-- The end of a sign: it waits as `cvwait` does, or goes on. -/
def State.afterMatSign (s : State) (l : LaneRef) (home : Nat × Nat) (k : Nat) (odd wait : Bool) (ph : Bool) : State :=
  let now := ((s.block? home.1 home.2).map fun b => (b.cv k).ph).getD ph
  s.modLane l fun t => if wait ∧ now = ph then t.hold (if odd then .pair k else .cv k) else t.advance 4

/-- A sign that every check has admitted (R313): when it is the last, the operation's entries, its issue and the end of the wait. -/
def State.takeSign (s : State) (f z p w : Bool) (k : Nat) (dsc : BitVec 7) (granted : Bool) (l : LaneRef) (t : Thread)
    (c : CvReg) (odd : Bool) (home : Nat × Nat) : State :=
  let ds := descRun t dsc (matWords f)
  let c' := (if c.c = 0 then { c with mat := none, signers := [] } else c).afterSign ds f z p odd l.idx
  let hs := match c'.mat with
    | some m => if c'.c = c'.e then s.matHalves c' m home k t else []
    | none => []
  let all : Cmd := { s.laneCmd l t 27 1 0 0 [] with locks := hs.flatMap (·.locks), aux := [k, dsc.toNat] }
  if !hs.isEmpty && !granted && s.mustWait all then
    ({ s.fresh with waiting := s.waiting ++ [{ all with
        words := [(0, [BitVec.ofNat 32 ((if z then 1 else 0) + (if p then 2 else 0) + (if w then 4 else 0))])] }] } : State).modLane l
      fun t => t.hold .lock
  else
    let s1 := (s.releaseAt (s.who l) (if f then 3 else 1)).publish fun x => x == s.who l
    let s2 := s1.modLane l fun t => t.signMat odd k c.ph
    let s3 := s2.modBlock home.1 home.2 fun b => b.setCv k c'
    let s4 := if hs.isEmpty then s3 else s3.matIssue hs home k
    s4.afterMatSign l home k odd w c.ph

/-- One lane's sign (R313). `granted` says that its ranges have been admitted. A sign that meets a phase whose signs are
complete waits for its end (log entry 13). -/
def State.matSign (s : State) (f z p w : Bool) (k : Nat) (dsc : BitVec 7) (granted : Bool) (l : LaneRef) (t : Thread) : LaneOut :=
  match s.block? s.issue.core s.issue.blk with
  | none => (s, none)
  | some b =>
    let x := s.signAt b l t p k
    let draining := (x.cv.map fun c => c.draining).getD false
    match signChecks { x with signed := x.signed && !draining, clash := x.clash && !draining,
                              cv := x.cv.map fun c => if draining then { c with c := 0 } else c } t dsc f z p with
    | some e => (s, some e)
    | none =>
      match x.cv, s.signHome b p with
      | some c, some home =>
        if draining then (s.setLane l (t.hold (.held (.phase home.1 home.2 k))), none)
        else (s.takeSign f z p w k dsc granted l t c x.odd home, none)
      | _, _ => (s, none)

/-- The roles that hold a sign's registers, for the data they wait for. -/
def State.settleSign (s : State) (l : LaneRef) (dsc : BitVec 7) (f : Bool) : State :=
  if 116 ≤ dsc.toNat then s
  else
    let s1 := s.settleLaneRun l dsc (matWords f)
    match s1.lane? l with
    | none => s1
    | some t => ((matDesc (descRun t dsc (matWords f))).reads f).foldl (fun s r => s.settleRegs (s.who l) r.1 r.2) s1

/-- A lane that is no helper signs. -/
def matLane (f z p w : Bool) (k : Nat) (dsc : BitVec 7) (s : State) (l : LaneRef) (t : Thread) : LaneOut :=
  if l.helper then (s.setLane l (t.advance 4), none)
  else
    let s1 := s.settleSign l dsc f
    s1.matSign f z p w k dsc false l ((s1.lane? l).getD t)

/-- R313: signs an operation with both operands in registers. -/
def execMma (z p w : BitVec 1) (k : BitVec 4) (d : BitVec 7) (s : State) : Out :=
  .next (s.lanes (matLane false (bit1 z) (bit1 p) (bit1 w) k.toNat d))

/-- R313, R323: signs an operation with B in memory. -/
def execMmam (z p w : BitVec 1) (k : BitVec 4) (d : BitVec 7) (s : State) : Out :=
  .next (s.lanes (matLane true (bit1 z) (bit1 p) (bit1 w) k.toNat d))

/-- A sign whose ranges have cleared runs again, in its own place (R23, R314). -/
def State.grantSign (s : State) (c : Cmd) : State :=
  let l : LaneRef := ⟨false, c.thr⟩
  let keep := s.issue
  let s1 := { s with issue := ⟨c.core, c.blk, c.grp, c.pc, [l]⟩ }
  match s1.lane? l with
  | none => s
  | some t =>
    if t.mode ≠ .waiting .lock then s
    else
      let o := (nth (sgetD c.words 0 []) 0 0).toNat
      let t1 := { t with mode := .running }
      let r := (s1.setLane l t1).matSign true (bitOf o 0) (bitOf o 1) (bitOf o 2) (nth c.aux 0 0)
        (BitVec.ofNat 7 (nth c.aux 1 0)) true l t1
      let s2 := match r with
        | (s2, none) => s2
        | (s2, some e) => s2.stopLane l e
      { s2 with issue := keep }

/-! ### B from memory and the end of the phase, R314, R323 -/

/-- The 8-byte words of B from an index on: a word whose read faults is zero, and the first fault is kept. -/
def State.readB (s : State) (c : VCtx) (va : Nat) : Nat → Nat → State × List Byte × Option (Nat × Nat × Nat)
  | 0, _ => (s, [], none)
  | n + 1, i =>
    match s.engineReadSpan c (va + 8 * i) 8 with
    | (s1, .ok bs) =>
      let (s2, more, f) := s1.readB c va n (i + 1)
      (s2, bs ++ more, f)
    | (s1, .error e) =>
      let (s2, more, _) := s1.readB c va n (i + 1)
      (s2, List.replicate 8 0 ++ more, some (e.1, e.2.1, va + 8 * i))

/-- Ends the reads of one half: B from memory, its range released, its fault recorded. -/
def State.endReads (s : State) (c : Cmd) : State :=
  let d := matDesc c.desc
  if c.sub = 0 then { s with cmds := sput s.cmds c.id { c with begun := true, regs := false } }
  else
    let (s1, bs, fault) := s.readB (c.ctx s) d.badr (d.k * d.n * d.w / 64) 0
    let s2 := { (s1.unlock c.id) with cmds := sput s1.cmds c.id { c with begun := true, regs := false, data := bs } }
    match fault with
    | none => s2
    | some e =>
      let s3 := s2.modBlock c.core c.blk fun b => { b with mxflg := b.mxflg ||| matFlag }
      { s3 with due := s3.due ++ [s3.engineRecord c e.1 e.2.1 e.2.2] }

/-- R314: the reads finish, and the phase ends. -/
def execMatrixPhaseEnd (id : Nat) (s : State) : Out :=
  match sget s.cmds id with
  | none => .next s
  | some c =>
    if c.major ≠ 27 ∨ c.begun then .next s
    else
      let k := nth c.aux 0 0
      let home := (nth c.aux 1 0, nth c.aux 2 0)
      let mates := (s.cmds.filter fun p => p.2.major == 27 && !p.2.begun && p.2.aux == c.aux).map (·.2)
      .next ((mates.foldl (fun s c => s.endReads c) s).endMatPhase home k)

/-! ### Completion, R318, R335 -/

/-- The operands that a half captured. -/
def matIn (c : Cmd) : MatIn :=
  { desc := matDesc c.desc, a := fun q r => sget c.words (128 + 32 * q + r), b := fun q r => sget c.words (32 * q + r),
    mem := if c.sub = 1 then some c.data else none }

/-- The old value of the accumulator, or pair, at place i of C. -/
def Region.old (r : Region) (d : MatDesc) (i : Nat) : Nat :=
  if d.act = 0 then r.get (d.uof * 1024 + 2 * i) % 2 ^ 32 + 2 ^ 32 * (r.get (d.uof * 1024 + 2 * i + 1) % 2 ^ 32)
  else if d.act = 11 then r.get (d.uof * 1024 + i) % 2 ^ 32
  else r.get (d.uof * 1024 + i)

/-- A new value put there. -/
def Region.new (r : Region) (d : MatDesc) (i v : Nat) : Region :=
  if d.act = 0 then (r.put (d.uof * 1024 + 2 * i) (v % 2 ^ 32)).put (d.uof * 1024 + 2 * i + 1) (v / 2 ^ 32)
  else r.put (d.uof * 1024 + i) v

/-- The operation's effect on its region, and its flags (R318, R321). -/
def matRun (c : Cmd) (r : Region) : Region × Word :=
  let x := matIn c
  let d := x.desc
  (List.range (min d.vcnt d.m * d.n)).foldl (fun acc i =>
    let v := x.accOf (rsMode d.rs c.rm) (c.mode == 1) (acc.1.old d i) (i / d.n) (i % d.n)
    (acc.1.new d i v.1, acc.2 ||| v.2)) (r, 0)

/-- R335: the arrays finish an operation, in issue order on its core. -/
def execMatrixOperationComplete (id : Nat) (s : State) : Out :=
  match sget s.cmds id with
  | none => .next s
  | some c =>
    if c.major ≠ 27 ∨ !c.begun ∨ (s.cmds.any fun p => p.2.major == 27 && p.2.core == c.core && decide (p.1 < id)) then .next s
    else
      let s1 := s.modBlock c.core c.blk fun b =>
        match b.region? (matDesc c.desc).hnd with
        | none => b
        | some r =>
          let (r', fl) := matRun c r
          { b.modRegion r.handle (fun _ => r') with mxflg := b.mxflg ||| (fl &&& 0x1D00) }
      .next ((s1.endCmd c 0).checkRetire c.core c.blk)

/-! ### The MX fields, R312, R327 -/

/-- A source field of MX. -/
def mxSource (f : BitVec 7) : Option (Nat × Nat) :=
  if f.toNat = 127 then some (3, 1) else if 116 ≤ f.toNat ∧ f.toNat < 124 then some (3, 0x60) else none

/-- A source run of MX: always registers. -/
def mxRun (f : BitVec 7) : Option (Nat × Nat) := if f.toNat = 127 then some (3, 1) else if 116 ≤ f.toNat then some (3, 0x60) else none

/-- Whether an operation that has issued on a region has not completed. -/
def State.regionBusy (s : State) (core blk h : Nat) : Bool :=
  s.cmds.any fun p => p.2.major == 27 && p.2.core == core && p.2.blk == blk && (matDesc p.2.desc).hnd == h

/-- A token instruction: agreement on the handle, the region, what the instruction asks of it, then its effect on the lanes. -/
def regionOp (a : BitVec 7) (bad : State → Region → Option Stop) (f : State → List LaneRef → Region → State) (s : State) : Out :=
  let (s1, r) := s.agree (mxSource a) none [.src a] (fun t => t.val a) 0x10 0x20
  match r with
  | none => .next s1
  | some (h, ls) =>
    match s1.block? s1.issue.core s1.issue.blk with
    | none => .next s1
    | some b =>
      match b.region? h.toNat with
      | none => .next (s1.stopAll ls (.trap 0x16 1 0 0))
      | some r =>
        match bad s1 r with
        | some e => .next (s1.stopAll ls e)
        | none =>
          let (s2, ps) := s1.screen ls fun t => poisonOf t [.src a]
          .next (if ps.all (fun p => p.1.helper) then s2 else f s2 (ps.map (·.1)) r)

/-- Completes the lanes. -/
def State.advanceAll (s : State) (ls : List LaneRef) : State := ls.foldl (fun s l => s.advanceLane l) s

/-- R328: frees a region that the block holds and no operation is using. -/
def execAfree (a : BitVec 7) : State → Out :=
  regionOp a (fun s r => stopIf (r.token != .block || s.regionBusy s.issue.core s.issue.blk r.handle) 0x15 3) fun s ls r =>
    (s.modIssueBlock fun b => { b with regions := b.regions.filter fun x => x.handle != r.handle }).advanceAll ls

/-- R328: waits for the operations issued on the region, then takes its token. -/
def execAacq (a : BitVec 7) : State → Out :=
  regionOp a (fun _ _ => none) fun s ls r =>
    if r.token = .block then s.advanceAll ls
    else if s.regionBusy s.issue.core s.issue.blk r.handle then ls.foldl (fun s l => s.modLane l fun t => if l.helper then t else t.hold (.aacq r.handle)) s
    else (s.modIssueBlock fun b => b.modRegion r.handle fun x => { x with token := .block }).advanceAll ls

/-- R328: a release, then the token passes to the engine. -/
def execArel (a : BitVec 7) : State → Out :=
  regionOp a (fun _ _ => none) fun s ls r =>
    let s1 := (ls.filter fun l => !l.helper).foldl (fun s l => s.releaseAt (s.who l) 1) s
    (s1.modIssueBlock fun b => b.modRegion r.handle fun x => { x with token := .engine }).advanceAll ls

/-- R328: every accumulator of the region becomes 0. -/
def execAzero (a : BitVec 7) : State → Out :=
  regionOp a (fun _ r => stopIf (r.token != .block) 0x15 1) fun s ls r =>
    (s.modIssueBlock fun b => b.modRegion r.handle fun x => { x with acc := (List.range x.size).map fun i => (i, 0#40) }).advanceAll ls

/-! ### Allocation, R326 -/

def freeHandle (b : Block) : Nat := ((List.range 64).find? fun h => (b.region? h).isNone).getD 0

/-- Free units of a core. -/
def State.freeUnits (s : State) (core : Nat) : Nat := 64 - (s.coreAt core).accUnits

/-- The handle and predicate that a request receives. -/
def State.answerAlloc (s : State) (core : Nat) (q : AccReq) (h : Word) (ok : Bool) : State :=
  s.modBlock core q.blk fun b =>
    q.lanes.foldl (fun b l => match b.thread? l with
      | some t =>
        let t1 := (t.setVal q.d h).setPred q.p ok
        b.setThread l (if t1.mode = .waiting .aalloc then t1.release else t1.advance 4)
      | none => b) b

/-- A request judged where its block holds space, or where enough is free: a region, or the failure. -/
def State.judgeAlloc (s : State) (core : Nat) (q : AccReq) : State :=
  match s.block? core q.blk with
  | none => s
  | some b =>
    if s.freeUnits core < q.units then s.answerAlloc core q 0xFFFFFFFF false
    else
      let h := freeHandle b
      let s1 := s.setBlock core q.blk { b with regions := b.regions ++ [⟨h, q.units, .engine, s.nextId, []⟩] }
      s1.fresh.answerAlloc core q (BitVec.ofNat 32 h) true

/-- The waiting requests of a block judged again, once it has gained a region. -/
def State.judgeRest (s : State) (core blk : Nat) : State :=
  let k := s.coreAt core
  let mine := k.accReqs.filter fun q => q.blk == blk
  mine.foldl (fun s q => s.judgeAlloc core q) (s.setCore core { k with accReqs := k.accReqs.filter fun q => q.blk != blk })

/-- The residence order of a request's block (07 R166). -/
def State.ageOf (s : State) (core : Nat) (q : AccReq) : Nat := ((s.block? core q.blk).map (·.order)).getD 0

/-- The request that comes first: the oldest block's, then the earliest; those of a block that pre-emption has stopped wait on. -/
def State.firstReq (s : State) (core : Nat) : Option AccReq :=
  ((s.coreAt core).accReqs.filter fun q => !s.stoppedAt core q.blk).foldl (fun (m : Option AccReq) q => match m with
    | none => some q
    | some x => if s.ageOf core q < s.ageOf core x then some q else some x) none

/-- R326: the first waiting request, if enough units are free. -/
def execAallocGrant (core : Nat) (s : State) : Out :=
  match s.firstReq core with
  | none => .next s
  | some q =>
    if s.freeUnits core < q.units then .next s
    else
      let k := s.coreAt core
      let s1 := s.setCore core { k with accReqs := k.accReqs.erase q }
      .next ((s1.judgeAlloc core q).judgeRest core q.blk)

/-- A request for accumulator units: judged at once where the block holds space or is the first, else queued. -/
def State.askAcc (s : State) (b : Block) (q : AccReq) : State :=
  let core := s.issue.core
  let ahead := (s.coreAt core).accReqs.any fun x => decide (s.ageOf core x ≤ b.order)
  if !b.regions.isEmpty then s.judgeAlloc core q
  else if !ahead ∧ q.units ≤ s.freeUnits core then (s.judgeAlloc core q).judgeRest core q.blk
  else
    let k := s.coreAt core
    q.lanes.foldl (fun s l => s.modLane l fun t => if l.helper then t else t.hold .aalloc)
      (s.setCore core { k with accReqs := k.accReqs ++ [q] })

/-- R326: asks for accumulator units; a block that holds none waits for its turn. -/
def execAalloc (p : BitVec 6) (a d : BitVec 7) (s : State) : Out :=
  let word := firstSome [mxSource a, (Role.dst d).illegal, (Role.pdst p).illegal]
  let (s1, r) := s.agree word none [.src a, .dst d] (fun t => t.val a) 0x10 0x20
  match r with
  | none => .next s1
  | some (n, ls) =>
    if n.toNat = 0 ∨ 64 < n.toNat then .next (s1.stopAll ls (.trap 0x16 3 0 0))
    else
      let (s2, ps) := s1.screen ls fun t => poisonOf t [.src a, .dst d]
      match s2.block? s2.issue.core s2.issue.blk with
      | none => .next s2
      | some b => .next (if ps.all (fun p => p.1.helper) then s2 else s2.askAcc b { blk := s2.issue.blk, lanes := ps.map (·.1), units := n.toNat, d := d, p := p.toNat })

/-! ### Moving accumulators, R329-R331 -/

/-- The region, token and range checks of an ACC word, in the order of R26. -/
def accFault (b : Block) (acc n : Nat) : Option Stop :=
  match b.region? (acc % 64) with
  | none => some (.trap 0x16 1 0 0)
  | some r =>
    let a := acc / 64 % 2 ^ 16
    if r.token ≠ .block then some (.trap 0x15 1 0 0)
    else if a % 32 ≠ 0 then some (.trap 0x16 4 0 0)
    else if r.size < a + n then some (.trap 0x16 2 0 0) else none

/-- What an accumulator move checks: registers of the D run, whether they are pairs, accumulators, and the combination. -/
structure MovePlan where
  reserved : Bool
  dRegs : Nat
  pair : Bool
  accs : Nat
  bad : Option Nat := none
  tag : Nat := 0
  /-- registers of the D run that are read, by their place in it -/
  reads : List Nat

/-- A group-wide accumulator move up to its effect (R451). -/
def moveAcc (word : Option (Nat × Nat)) (roles : List Role) (d : BitVec 7) (key : Thread → Word × Dword × Nat)
    (plan : Word → Dword → MovePlan)
    (eff : State → List (LaneRef × Thread) → Region → Word → Dword → Nat → State) (s : State) : Out :=
  let (s1, r) := s.agree word none roles key 0x10 0x20
  match r with
  | none => .next s1
  | some ((acc, ccw, rm), ls) =>
    let p := plan acc ccw
    if p.reserved then .next (s1.stopAll ls (.trap 2 0 0 0))
    else
      let s2 := s1.settleRun ls d p.dRegs
      let (s3, ps) := s2.screen ls fun t =>
        firstSome [stopIf (p.pair && t.absReg d.toNat % 2 == 1) 3 3, runBeyond t d p.dRegs]
      let ls3 := ps.map (·.1)
      match s3.block? s3.issue.core s3.issue.blk with
      | none => .next s3
      | some b =>
        match firstSome [stopOf 0x11 p.bad, accFault b acc.toNat p.accs, (halfFault s3.issueLaunch p.tag false).map tagStop] with
        | some e => .next (s3.stopAll ls3 e)
        | none =>
          let (s4, qs) := s3.screen ls3 fun t => firstSome (poisonOf t roles :: p.reads.map fun i =>
            (sget t.poison (t.absReg d.toNat + i)).map poisonStop)
          if qs.all fun q => q.1.helper then .next s4
          else
            match b.region? (acc.toNat % 64) with
            | none => .next s4
            | some r => .next (eff s4 qs r acc ccw rm)

/-- Registers of a run of `len` elements a rank of a type. -/
def moveRegs (t len : Nat) : Nat := if t = 0 then 2 * len else if t = 2 ∨ t = 3 then (len + 1) / 2 else len

/-- The accumulators of one element: one, or the pair of FP64. -/
def accWidth (wt : Nat) : Nat := if wt = 0 then 2 else 1

/-- The bits of element j from accumulator a on. -/
def Region.elem (r : Region) (wt a j : Nat) : Nat :=
  if wt = 0 then r.get (a + 2 * j) % 2 ^ 32 + 2 ^ 32 * (r.get (a + 2 * j + 1) % 2 ^ 32)
  else if wt = 11 then r.get (a + j) % 2 ^ 32 else r.get (a + j)

/-- The wide pairs of `ard` (R329). -/
def ardWide (wt nt : Nat) : Bool :=
  (wt == 12 && (nt == 1 || nt == 2 || nt == 3)) || (wt == 11 && (nt == 11 || nt == 1)) || (wt == 0 && (nt == 0 || nt == 1))

def ardNarrow (c : Ccw) : Bool := (c.wt == 12 || c.wt == 11) && decide (4 ≤ c.nt) && decide (c.nt ≤ 10)

/-- The combinations of `ard`: a wide pair with no scheme and no tag, or those of `qnt`. -/
def ardBad (c : Ccw) : Option Nat :=
  if ardNarrow c then { c with wt := 1 }.badQuant
  else if ardWide c.wt c.nt ∧ c.sch = 0 ∧ c.tag = 0 then none else some 0x20

/-- A 32-bit word at register i and rank of a wide run whose element j is `e j` of type `nt`. -/
def wideWord (nt : Nat) (e : Nat → Nat) (i rank : Nat) : Word :=
  if nt = 0 then BitVec.ofNat 32 (e (32 * (i / 2) + rank) / 2 ^ (32 * (i % 2)))
  else if nt = 2 ∨ nt = 3 then BitVec.ofNat 32 (e (64 * i + 2 * rank) % 65536 + 65536 * (e (64 * i + 2 * rank + 1) % 65536))
  else BitVec.ofNat 32 (e (32 * i + rank))

/-- The elements of the narrow write-back, its scale words and its flags (R329): the integers of INT32 accumulators that meet
no rotation and no scheme narrow as integers do (02 R49; log entry 45). -/
def ardNarrowRun (c : Ccw) (md : Rnd) (l : Launch) (bits : List Nat) (other : Num) : List Nat × List Nat × Word :=
  if c.wt = 11 ∧ c.sch = 0 ∧ c.tag % 4 = 0 then
    let es := bits.map fun b => convertElem 11 c.nt md (rsSat c.rs) b
    (es.map (·.1), [], es.foldl (fun f e => f ||| e.2) 0)
  else
    let (ys, f) := rotValues false (c.tag % 4) (ccwSeed l c) c.nb (bits.map fun b => elemNum c.wt b)
    let (es, scales, f') := quantise c.sch c.nt c.group md (rsSat c.rs) ys other
    (es, scales, f ||| f')

/-- The words that `ard` gives a rank, and its flags. -/
def ardResult (c : Ccw) (md : Rnd) (l : Launch) (qs : List (LaneRef × Thread)) (d : BitVec 7) (r : Region) (a rank : Nat) :
    List Word × Word :=
  let n := 32 * c.len
  if ardNarrow c then
    let o := packedRegs c.nt c.len
    let sins := qs.map fun p => fp32.value (p.2.reg (p.2.absReg d.toNat + o)).toNat
    let other : Num := if c.sch = 1 then (if numsBad sins then .nan false else numMaxAbs sins) else .ofInt 0
    let (es, scales, f) := ardNarrowRun c md l ((List.range n).map fun j => r.elem c.wt a j) other
    let run := (List.range o).map fun i => packedWord (typeWidth c.nt) es i rank
    (match c.sch with
     | 0 => run
     | 1 => run ++ [BitVec.ofNat 32 (nth scales 0 0)]
     | _ => run ++ [BitVec.ofNat 32 (nth scales rank 0)], f)
  else
    let conv (j : Nat) : Nat × Word :=
      if j < n then
        (if c.wt = c.nt then (r.elem c.wt a j, 0) else convertElem c.wt c.nt md (rsSat c.rs) (r.elem c.wt a j))
      else (0, 0)
    ((List.range (moveRegs c.nt c.len)).map fun i => wideWord c.nt (fun j => (conv j).1) i rank,
      (List.range n).foldl (fun f j => f ||| (conv j).2) 0)

def ardKey (a b : BitVec 7) (t : Thread) : Word × Dword × Nat :=
  let v := t.val64 b
  (t.val a, v, if (lo32 v).toNat / 1024 % 2 = 1 then t.fpctl.toNat % 4 else 0)

def ardPlan (acc : Word) (v : Dword) : MovePlan :=
  let c := ccwOf (lo32 v) (hi32 v)
  let o := packedRegs c.nt c.len
  { reserved := c.reserved || decide (acc.toNat / 2 ^ 22 ≠ 0)
    dRegs := if ardNarrow c then (if c.sch = 0 then o else o + 1) else moveRegs c.nt c.len
    pair := c.nt == 0
    accs := 32 * c.len * accWidth c.wt
    bad := ardBad c
    tag := c.tag
    reads := if ardNarrow c && c.sch == 1 then [o] else [] }

def ardMove (d : BitVec 7) (s : State) (qs : List (LaneRef × Thread)) (r : Region) (acc : Word) (v : Dword) (rm : Nat) : State :=
  let c := ccwOf (lo32 v) (hi32 v)
  let l := s.issueLaunch
  qs.foldl (fun s q => s.modLane q.1 fun t =>
    let x := ardResult c (rsMode c.rs rm) l qs d r (acc.toNat / 64 % 2 ^ 16) t.rank
    ((t.setRegs (t.absReg d.toNat) x.1).raise x.2).advance 4) s

/-- R329: reads accumulators into a run, converting them. -/
def execArd (b a d : BitVec 7) : State → Out :=
  moveAcc (firstSome [mxSource a, mxSource b, (Role.dst d).illegal]) [.src a, .src64 b] d (ardKey a b) ardPlan (ardMove d)

/-- The combinations of `awr` (R330). -/
def awrBad (c : Ccw) : Option Nat :=
  if (((c.wt = 1 ∨ c.wt = 2 ∨ c.wt = 3) ∧ c.nt = 12) ∨ (c.wt = 11 ∧ c.nt = 11) ∨ (c.wt = 0 ∧ c.nt = 0)) ∧ c.sch = 0 ∧ c.tag = 0
  then none else some 0x20

/-- The bits of element j of a wide run of registers. -/
def wideElem (wt : Nat) (word : Nat → Nat → Word) (j : Nat) : Nat :=
  if wt = 0 then (word (2 * (j / 32)) (j % 32)).toNat + 2 ^ 32 * (word (2 * (j / 32) + 1) (j % 32)).toNat
  else if wt = 2 ∨ wt = 3 then (word (j / 64) (j / 2 % 32)).toNat / 2 ^ (16 * (j % 2)) % 65536
  else (word (j / 32) (j % 32)).toNat

/-- Writes accumulators and completes the lanes. -/
def State.putAccs (s : State) (qs : List (LaneRef × Thread)) (r : Region) (vs : List (Nat × Nat)) : State :=
  (s.modIssueBlock fun b => b.modRegion r.handle fun x => x.putAll vs).advanceAll (qs.map (·.1))

def awrPlan (acc : Word) (v : Dword) : MovePlan :=
  let c := ccwOf (lo32 v) (hi32 v)
  let n := moveRegs c.wt c.len
  { reserved := c.reserved || decide (acc.toNat / 2 ^ 22 ≠ 0), dRegs := n, pair := c.wt == 0
    accs := 32 * c.len * accWidth c.wt, bad := awrBad c, reads := List.range n }

def awrMove (d : BitVec 7) (s : State) (qs : List (LaneRef × Thread)) (r : Region) (acc : Word) (v : Dword) (_ : Nat) : State :=
  let c := ccwOf (lo32 v) (hi32 v)
  let at_ := acc.toNat / 64 % 2 ^ 16
  let bits (j : Nat) : Nat := wideElem c.wt (runWord qs d) j
  let wide (j : Nat) : Nat × Word := if c.wt = 0 ∨ c.wt = 11 then (bits j, 0) else convertElem c.wt 12 .rn false (bits j)
  let fl := (List.range (32 * c.len)).foldl (fun f j => f ||| (wide j).2) 0
  (qs.foldl (fun s q => s.modLane q.1 fun t => t.raise fl) s).putAccs qs r ((List.range (32 * c.len)).flatMap fun j =>
    let x := (wide j).1
    if c.wt = 0 then [(at_ + 2 * j, x % 2 ^ 32), (at_ + 2 * j + 1, x / 2 ^ 32)] else [(at_ + j, x)])

/-- R330: writes accumulators from a run. A signalling NaN that is widened raises NV (02 R48), in the FPCTL of the issuing lanes as
R252 has it for `ard` (log entry 45). -/
def execAwr (b a d : BitVec 7) : State → Out :=
  moveAcc (firstSome [mxSource a, mxSource b, mxRun d]) [.src a, .src64 b] d (fun t => (t.val a, t.val64 b, 0)) awrPlan (awrMove d)

/-- The plan of a save or a restore of 32·l images. -/
def imagePlan (l : Nat) (acc : Word) (reads : Bool) : MovePlan :=
  { reserved := decide (acc.toNat / 2 ^ 22 ≠ 0), dRegs := 2 * l, pair := true, accs := 32 * l
    reads := if reads then List.range (2 * l) else [] }

def asvMove (l : Nat) (d : BitVec 7) (s : State) (qs : List (LaneRef × Thread)) (r : Region) (acc : Word) (_ : Dword) (_ : Nat) : State :=
  let at_ := acc.toNat / 64 % 2 ^ 16
  qs.foldl (fun s q => s.modLane q.1 fun t =>
    (t.setRegs (t.absReg d.toNat) ((List.range (2 * (l + 1))).map fun i => wideWord 0 (fun j => r.get (at_ + j)) i t.rank)).advance 4) s

def arstMove (l : Nat) (d : BitVec 7) (s : State) (qs : List (LaneRef × Thread)) (r : Region) (acc : Word) (_ : Dword) (_ : Nat) : State :=
  let at_ := acc.toNat / 64 % 2 ^ 16
  s.putAccs qs r ((List.range (32 * (l + 1))).map fun j => (at_ + j, wideElem 0 (runWord qs d) j % 2 ^ 40))

/-- R331: saves 8-byte images. -/
def execAsv (l : BitVec 3) (a d : BitVec 7) : State → Out :=
  moveAcc (firstSome [mxSource a, (Role.dst d).illegal]) [.src a] d (fun t => (t.val a, 0, 0))
    (fun acc _ => imagePlan (l.toNat + 1) acc false) (asvMove l.toNat d)

/-- R331: restores accumulators from images. -/
def execArst (l : BitVec 3) (a d : BitVec 7) : State → Out :=
  moveAcc (firstSome [mxSource a, mxRun d]) [.src a] d (fun t => (t.val a, 0, 0))
    (fun acc _ => imagePlan (l.toNat + 1) acc true) (arstMove l.toNat d)

/-! ### Tags, R332 -/

/-- R332: the tag of C. -/
def execMtag (b a d : BitVec 7) (s : State) : Out :=
  .next (s.lanes fun s l t0 =>
    let roles := [Role.dst d, .src64 a, .src b]
    let s1 := s.settleRoles l t0 roles
    let t := (s1.lane? l).getD t0
    match firstSome [mxSource a, mxSource b, (Role.dst d).illegal] with
    | some c => (s1, some (plainStop c))
    | none =>
      let la := s1.issueLaunch
      let tagA := (lo32 (t.val64 a)).toNat
      let tagB := (hi32 (t.val64 a)).toNat
      let fmt := (t.val b).toNat
      let ta := bitOf fmt 18
      let tb := bitOf fmt 19
      let readable := (checkFields t roles).isNone && (check t roles).isNone
      if readable ∧ (tagReserved tagA ∨ tagReserved tagB ∨ fmtReserved fmt) then (s1, some (.trap 2 0 0 0))
      else
        match check t roles with
        | some e => (s1, some e)
        | none =>
          match tagChecks la tagA tagB ta tb with
          | some f => (s1, some (tagStop f))
          | none =>
            let mHalf := if ta then tagA % 65536 else tagA / 65536
            let nHalf := if tb then tagB % 65536 else tagB / 65536
            (s1.setLane l ((t.setVal d (BitVec.ofNat 32 (65536 * mHalf + nHalf))).advance 4), none))

end Sys2Proof.Machine
end

