-- ==== Sys2Proof/Machine/TaskGraph.lean ====
section
/-! DEFINITION. Launch queues, records and the task graph (09 R210-R218, R224, R225): the queue table and its
watch, acceptance and checks of records, markers and invalidations, nodes and their completion. -/

namespace Sys2Proof.Machine

open Sys2Proof

/-! ### Device accesses to physical memory -/

/-- Bytes of one line read at a physical address; none in a hole, or where they are uncorrectable. -/
def State.deviceRead (s : State) (pa n : Nat) : State × Option (List Byte) :=
  if s.kind pa = .hole then (s, none)
  else
    let (s1, bs, bad) := s.homeRead (normPlace s.pkid pa) n
    (s1, if bad then none else some bs)

/-- Bytes of one line written at a physical address; nothing in a hole. -/
def State.deviceWrite (s : State) (pa : Nat) (bs : List Byte) : State :=
  if s.kind pa = .hole then s else s.homeWrite (normPlace s.pkid pa) bs

/-! ### The queue table, R210 -/

/-- Queues of the package. -/
def queueCount : Nat := 131072

/-- The physical address of a queue's entry. -/
def State.entryAt (s : State) (queue : Nat) : Nat := s.winPair (mgmtBase + 0x010) + 64 * queue

/-- Whether the work distributor watches the queue table (20 R444, R445). -/
def State.watching (s : State) : Bool := s.mainPower && s.bstate == 8 && s.winBit (mgmtBase + 0x018) 0

/-- Whether an entry is malformed. -/
def entryBad (bs : List Byte) : Bool :=
  decide (8 ≤ fieldOf bs 9 1) || decide (8 ≤ fieldOf bs 10 1) || decide (4 ≤ fieldOf bs 11 1) || fieldOf bs 14 2 != 0
    || fieldOf bs 30 2 != 0 || fieldOf bs 44 4 != 0 || fieldOf bs 0 8 % 128 != 0 || fieldOf bs 48 8 % 128 != 0
    || decide (15 < fieldOf bs 8 1)

/-- A queue as its entry gives it. -/
def queueOf (bs : List Byte) : Queue :=
  { ring := fieldOf bs 0 8, lgsz := fieldOf bs 8 1, prio := fieldOf bs 9 1 % 8, launchOk := bitOf (fieldOf bs 10 1) 1,
    preempt := bitOf (fieldOf bs 10 1) 2, asid := fieldOf bs 12 2, root := fieldOf bs 16 8, slice := fieldOf bs 24 4,
    ntb := fieldOf bs 32 8, ncnt := fieldOf bs 40 4, save := fieldOf bs 48 8, saven := fieldOf bs 56 8 }

/-- What a queue keeps of its service when it is enabled again. -/
def Queue.renew (q : Queue) (old : Option Queue) : Queue :=
  match old with
  | some o => { q with sliceStart := o.sliceStart, sliceOver := o.sliceOver, preempted := o.preempted, collSeq := o.collSeq,
                       lastLaunch := o.lastLaunch, posted := o.posted, areaDone := o.areaDone }
  | none => q

/-- Reads an entry and acts on a change of its enabled bit (R210). -/
def State.readEntry (s : State) (queue : Nat) : State :=
  match s.deviceRead (s.entryAt queue) 64 with
  | (s1, none) => s1
  | (s1, some bs) =>
    let old := sget s1.queues queue
    let was := (old.map (·.enabled)).getD false
    if bitOf (fieldOf bs 10 1) 0 then
      if was then s1
      else if entryBad bs then
        let s2 := s1.deviceWrite (s1.entryAt queue + 11) (leOf 1 (Nat.lor (fieldOf bs 11 1) 1))
        { s2 with queues := sput s2.queues queue { (queueOf bs).renew old with bad := true } }
      else { s1 with queues := sput s1.queues queue ((queueOf bs).renew old) }
    else if was then { s1 with queues := smod s1.queues queue fun q => { q with enabled := false } }
    else s1

/-- Queues whose entries hold a byte that is not 0, or that are known: every other entry reads as disabled. -/
def State.entriesToRead (s : State) : List Nat :=
  let base := s.winPair (mgmtBase + 0x010)
  let span := 64 * queueCount
  let lines := s.rdc.flatMap fun p => [128 * p.1, 128 * p.1 + 64]
  let listed := ((s.mem.map (·.1)) ++ lines).filterMap fun a =>
    if normPlace s.pkid base ≤ a ∧ a < normPlace s.pkid base + span then some ((a - normPlace s.pkid base) / 64) else none
  (listed ++ s.queues.map (·.1)).eraseDups

/-- Reads every entry (R210). -/
def State.readTable (s : State) : State := s.entriesToRead.foldl (fun s i => s.readEntry i) s

/-- R210: a write to a watched line of the table makes the device read its two entries again. -/
def execQueueTableWake (line : Nat) (s : State) : Out :=
  if !s.watching || decide (queueCount ≤ 2 * line) then .next s
  else .next ((s.readEntry (2 * line)).readEntry (2 * line + 1))

/-! ### Launch records, R213, R214 -/

def recOf (bs : List Byte) : Rec :=
  { entry := BitVec.ofNat 64 (fieldOf bs 0 8), trap := BitVec.ofNat 64 (fieldOf bs 8 8), gx := fieldOf bs 16 4, gy := fieldOf bs 20 4,
    gz := fieldOf bs 24 4, bthr := fieldOf bs 28 2, cblk := fieldOf bs 30 1, lfl := fieldOf bs 31 1, regs := fieldOf bs 32 2,
    tags := fieldOf bs 34 1, cls := fieldOf bs 35 1 % 4, bstg := fieldOf bs 36 4, cstg := fieldOf bs 40 4, rdl := fieldOf bs 44 4,
    sb := fieldOf bs 48 8, arg := BitVec.ofNat 64 (fieldOf bs 56 8), pgt := fieldOf bs 64 8, seed := fieldOf bs 72 8,
    fault := fieldOf bs 80 8, csb := fieldOf bs 88 8, csz := fieldOf bs 96 4, slots := fieldOf bs 100 4, tick := fieldOf bs 104 8,
    done := fieldOf bs 112 8, node := fieldOf bs 120 4, spt := fieldOf bs 124 2, seq := fieldOf bs 126 2 }

/-- The kind of a record (R212). -/
def recKind (bs : List Byte) : Nat := fieldOf bs 35 1 / 4 % 4

/-- Blocks of a launch's grid. -/
def Rec.grid (r : Rec) : Nat := r.gx * r.gy * r.gz

/-- Groups of a block of n threads. -/
def groupsOf (n : Nat) : Nat := (n + 31) / 32

/-- Groups g of a block that stand on quadrant q, with quadrant offset off (01 R7). -/
def groupsOn (n off q : Nat) : Nat := ((List.range (groupsOf n)).filter fun g => (g + off) % 4 == q).length

/-- Register-file bytes of a quadrant (01 R6), and threads of a core (01 R8). -/
def fileBytes : Nat := 524288
def coreThreads : Nat := 2048

/-- The first check of R214 that fails, of those before the process-group table and the seed block. -/
def recReason (q : Queue) (bs : List Byte) (r : Rec) : Option Nat :=
  firstSome
    [ if recKind bs = 3 ∨ 4 ≤ r.lfl ∨ 16 ≤ fieldOf bs 35 1 then some 8 else none,
      if r.entry.toNat % 2 = 1 ∨ (r.trap.toNat % 2 = 1 ∧ r.trap ≠ BitVec.allOnes 64) then some 9 else none,
      if r.bthr = 0 ∨ 1024 < r.bthr then some 1 else none,
      if r.gx = 0 ∨ r.gy = 0 ∨ r.gz = 0 ∨ 2 ^ 64 ≤ r.grid then some 6 else none,
      if r.cblk = 0 ∨ 16 < r.cblk ∨ r.grid % r.cblk ≠ 0 then some 2 else none,
      if r.regs < 16 ∨ 1024 < r.regs ∨ r.regs % 16 ≠ 0 ∨ fileBytes < groupsOn r.bthr 0 0 * 32 * r.regs * 4 then some 3 else none,
      if 64 < r.tags then some 4 else none,
      if r.bstg % 4096 ≠ 0 ∨ r.cstg % 4096 ≠ 0 ∨ 2 ^ 24 < r.bstg ∨ 2 ^ 28 < r.cblk * r.bstg + r.cstg ∨ r.sb % 2 ^ 21 ≠ 0 then some 5
      else none,
      if r.csz % 8 ≠ 0 ∨ (r.csz ≠ 0 ∧ r.slots = 0) then some 10 else none,
      if r.node ≠ 0xFFFFFFFF ∧ q.ncnt ≤ r.node then some 11 else none ]

/-- A process-group table: rank, axis sizes, the package of each rank (R217). -/
structure Group where
  rank : Nat := 0
  axes : Nat × Nat × Nat := (1, 1, 1)
  pkgs : List Nat := []
  deriving DecidableEq, Repr

/-- Whether a table's header is malformed. -/
def headerBad (h : List Byte) : Bool :=
  let n := fieldOf h 2 2
  let a := fieldOf h 4 1
  let x := fieldOf h 8 4
  let y := fieldOf h 12 4
  let z := fieldOf h 16 4
  fieldOf h 0 2 != 1 || n == 0 || decide (2048 < n) || decide (3 < a) || fieldOf h 5 3 != 0 || fieldOf h 20 44 != 0
    || (decide (a < 1) && x != 1) || (decide (a < 2) && y != 1) || (decide (a < 3) && z != 1) || x * y * z != n

/-- Reads a process-group table: the group, or the reason of R214. -/
def State.readGroup (s : State) (c : VCtx) (pgt : Nat) : State × Except Nat Group :=
  match s.engineReadSpan c pgt 64 with
  | (s1, .error _) => (s1, .error 12)
  | (s1, .ok h) =>
    if headerBad h then (s1, .error 7)
    else
      match s1.engineReadSpan c (pgt + 64) (4 * fieldOf h 2 2) with
      | (s2, .error _) => (s2, .error 12)
      | (s2, .ok es) =>
        let ids := (List.range (fieldOf h 2 2)).map fun k => fieldOf es (4 * k) 4
        if (ids.any fun i => decide (2048 ≤ i)) || ids.eraseDups.length != ids.length then (s2, .error 7)
        else
          match (List.range ids.length).find? fun k => nth ids k 0 == s2.pkid with
          | none => (s2, .error 7)
          | some k => (s2, .ok { rank := k, axes := (fieldOf h 8 4, fieldOf h 12 4, fieldOf h 16 4), pkgs := ids })

/-- The group of a record: a single package without a table. -/
def State.groupOf (s : State) (c : VCtx) (pgt : Nat) : State × Except Nat Group := if pgt = 0 then (s, .ok {}) else s.readGroup c pgt

/-- The checks of the process-group table, then of the seed block. -/
def State.readInputs (s : State) (c : VCtx) (r : Rec) : State × Except Nat (Group × List Seed) :=
  match s.groupOf c r.pgt with
  | (s1, .error 7) => (s1, .error 7)
  | (s1, g) =>
    if r.seed % 16 ≠ 0 then (s1, .error 12)
    else
      match s1.engineReadSpan c r.seed 128, g with
      | (s2, .ok sd), .ok g => (s2, .ok (g, seedsOf sd))
      | (s2, .ok _), .error e => (s2, .error e)
      | (s2, .error _), _ => (s2, .error 12)

/-- The share of a rank: first cluster and count (R218). -/
def shareOf (r : Rec) (rank ranks : Nat) : Nat × Nat :=
  let c := r.grid / r.cblk
  let a := rank * c / ranks
  (a, (rank + 1) * c / ranks - a)

/-! ### Completion status, R215 -/

/-- Writes a completion status where the record asks for one. -/
def State.writeStatus (s : State) (asid root done rank id bits reason : Nat) : State :=
  if done = 0 then s
  else (s.engineWriteSpan (plainCtx asid root) ((done + 16 * rank) % 2 ^ 64) (leOf 4 id ++ leOf 4 (bits + 256 * reason) ++ leOf 8 s.now)).1

/-- The rank that a status of a rejected record is written for: its table's, where that can be read. -/
def State.rejectRank (s : State) (c : VCtx) (pgt : Nat) : State × Nat :=
  match s.groupOf c pgt with
  | (s1, .ok g) => (s1, g.rank)
  | (s1, .error _) => (s1, 0)

/-! ### Nodes, R224 -/

/-- What is still to be done for the graph of a queue: a node completes, a node ends with bits of NST and decrements
none, or the queue's markers look again. -/
inductive Todo where
  | done (queue node : Nat)
  | ended (queue node bits : Nat)
  | settle (queue : Nat)
  deriving DecidableEq, Repr

def Queue.ctx (q : Queue) : VCtx := plainCtx q.asid q.root

/-- The address of a node's entry. -/
def Queue.nodeAt (q : Queue) (node : Nat) : Nat := (q.ntb + 32 * node) % 2 ^ 64

/-- A node's entry. -/
def State.readNode (s : State) (q : Queue) (node : Nat) : State × Option (List Byte) :=
  if q.ncnt ≤ node then (s, none)
  else
    match s.engineReadSpan q.ctx (q.nodeAt node) 32 with
    | (s1, .ok bs) => (s1, some bs)
    | (s1, .error _) => (s1, none)

/-- Sets bits of a node's NST. -/
def State.setNst (s : State) (q : Queue) (node bits : Nat) : State :=
  match s.readNode q node with
  | (s1, none) => s1
  | (s1, some bs) => (s1.engineWriteSpan q.ctx (q.nodeAt node + 5) (leOf 1 (Nat.lor (fieldOf bs 5 1) bits))).1

/-- What a decrement did: nothing, PEND lowered, or PEND brought to 0. -/
inductive DecResult where
  | none | underflow | lowered | zero
  deriving DecidableEq, Repr

/-- A decrement of a node (R224). -/
def State.decNode (s : State) (q : Queue) (node : Nat) : State × DecResult :=
  match s.readNode q node with
  | (s1, none) => (s1, .none)
  | (s1, some bs) =>
    let p := fieldOf bs 0 4
    match s1.translate q.ctx (q.nodeAt node) .w with
    | (s2, .error _) => (s2, .none)
    | (s2, .ok _) =>
      if p = 0 then (s2.setNst q node 4, .underflow)
      else
        ((s2.engineWriteSpan q.ctx (q.nodeAt node) (leOf 4 (p - 1))).1, if p = 1 then .zero else .lowered)

/-- A core is active (01 R4, R5). -/
def State.activeCore (s : State) (core : Nat) : Bool :=
  decide (core / 64 < s.hw.part.dies) && decide (core % 64 < 60) && !(core % 64 ∈ s.hw.inactive)

/-- The active cores of a die, in ascending order. -/
def State.coresOf (s : State) (die : Nat) : List Nat := ((List.range 60).map fun p => 64 * die + p).filter fun c => s.activeCore c

/-- The core of a die that runs a node's copy: the first whose engine has room, or the first (11 R266, R282). -/
def State.copyCore (s : State) (die : Nat) : Nat :=
  let cs := s.coresOf die
  ((cs.find? fun k => decide (s.copiesOf k < 64)).or cs.head?).getD 0

/-- A copy node's command: admitted, or held by its ranges or by its engine's limit (11 R282). An invalid TAG half leaves a fault
record instead (10 R244): whether it was rejected. -/
def State.copyNode (s : State) (qn : Nat) (q : Queue) (node : Nat) (bs : List Byte) : State × Bool :=
  let core := s.copyCore (copyNodeOf bs).die
  let la := (s.youngest qn).getD noLaunch
  let seed := (ccwSeed la (convOf (copyNodeOf bs).desc).ccw).toNat
  let c := s.nodeCopy qn q.asid q.root node core seed bs
  match copyNodeTag la bs with
  | some f => (s.nodeRecord c 0x12 f.1 f.2.toNat, true)
  | none =>
    let s1 := ((s.nextCopy core).1).fresh
    (if s1.mustWait c || !s1.roomFor c then { s1 with waiting := s1.waiting ++ [c] } else s1.startCmd c, false)

/-- Posts the payload of a node of kind 2 to 5: whether it was rejected. -/
def State.postPayload (s : State) (qn : Nat) (q : Queue) (node kind pay : Nat) (bs : List Byte) : State × Bool :=
  match kind with
  | 2 =>
    match s.dispatchKernel qn q.asid q.root pay bs none { node := some node } false with
    | (s1, .rejected) => (s1, true)
    | (s1, _) => (s1, false)
  | 3 => if copyNodeBad s.hw.part.dies bs then (s, true) else s.copyNode qn q node bs
  | 4 => if kseNodeBad s.hw.part bs then (s, true) else (s.kseNode qn q.asid q.root node bs, false)
  | 5 => if collNodeBad bs then (s, true) else s.collNode qn q.asid q.root node bs
  | _ => (s, true)

/-! ### Acceptance, R211, R212, R214 -/

/-- The launch id after one (R215). -/
def nextId32 (n : Nat) : Nat := if (n + 1) % 2 ^ 32 = 0 then 1 else (n + 1) % 2 ^ 32

/-- The nodes that a rejected record ends. -/
def failedNodes (qn node : Nat) (sig : Signal) : List Todo :=
  (if node = 0xFFFFFFFF then [] else [.ended qn node 8]) ++ (match sig.node with | some n => [.ended qn n 8] | none => [])

/-- The nodes that a completed record completes. -/
def doneNodes (qn node : Nat) (sig : Signal) : List Todo :=
  (if node = 0xFFFFFFFF then [] else [.done qn node]) ++ (match sig.node with | some n => [.done qn n] | none => [])

/-- Rejects a record. -/
def State.rejectRecord (s : State) (qn : Nat) (q : Queue) (r : Rec) (sig : Signal) (reason : Nat) : State × Nat × List Todo :=
  let (s1, rank) := s.rejectRank q.ctx r.pgt
  (((s1.writeStatus q.asid q.root r.done rank 0 5 reason).giveTag sig 16), 0, failedNodes qn r.node sig)

/-- Accepts a launch whose early checks have passed. -/
def State.acceptLaunch (s : State) (qn : Nat) (q : Queue) (bs : List Byte) (r : Rec) (sig : Signal) : State × Nat × List Todo :=
  match s.readInputs q.ctx r with
  | (s1, .error reason) => s1.rejectRecord qn q r sig reason
  | (s1, .ok (g, seeds)) =>
    let n := if g.pkgs = [] then 1 else g.pkgs.length
    let (first, count) := shareOf r g.rank n
    let l : Launch :=
      { id := s1.nextLaunch, queue := qn, asid := q.asid, root := q.root, rcd := r, raw := bs, order := s1.nextId,
        prev := (sget s1.queues qn).bind (·.lastLaunch), rank := g.rank, ranks := n, group := g.pkgs, axes := g.axes, first := first, count := count, next := first, seeds := seeds, signal := sig }
    ({ s1.fresh with
        launches := sput s1.launches l.id l
        queues := smod s1.queues qn fun q => { q with lastLaunch := some l.id }
        nextLaunch := nextId32 l.id }, l.id, [])

/-- Accepts a record of any kind (R212): the launch id, or 0. -/
def State.acceptRecord (s : State) (qn : Nat) (q : Queue) (bs : List Byte) (sig : Signal) : State × Nat × List Todo :=
  let r := recOf bs
  let zero (i n : Nat) : Bool := ((bs.drop i).take n).all fun b => b == 0
  match recKind bs with
  | 1 =>
    if !(zero 16 19 && fieldOf bs 35 1 == 4 && zero 36 76) then s.rejectRecord qn q { r with pgt := 0 } sig 8
    else
      ({ s.fresh with tlbInvs := s.tlbInvs ++ [⟨s.nextId, qn, q.asid, fieldOf bs 0 8, fieldOf bs 8 8, s.nextId, r.done, sig⟩] }, 0, [])
  | 2 =>
    if !(zero 0 35 && fieldOf bs 35 1 == 8 && zero 36 76) then s.rejectRecord qn q { r with pgt := 0 } sig 8
    else ({ s.fresh with markers := s.markers ++ [⟨qn, s.nextId, r.done, r.node, sig⟩] }, 0, [.settle qn])
  | _ =>
    match recReason q bs r with
    | some reason => s.rejectRecord qn q r sig reason
    | none => s.acceptLaunch qn q bs r sig

/-- Whether every record of a queue before one has completed. -/
def State.earlierDone (s : State) (qn order : Nat) : Bool :=
  !(s.launches.any fun p => p.2.queue == qn && decide (p.2.order < order))
    && !(s.tlbInvs.any fun x => x.queue == qn && decide (x.order < order))
    && !(s.markers.any fun m => m.queue == qn && decide (m.order < order))

/-- Completes the first marker of a queue whose earlier records have completed. -/
def State.settleMarker (s : State) (qn : Nat) (q : Queue) : State × List Todo :=
  match s.markers.find? fun m => m.queue == qn && s.earlierDone qn m.order with
  | none => (s, [])
  | some m =>
    let s1 := { s with markers := s.markers.filter fun x => x.order != m.order }
    (((s1.writeStatus q.asid q.root m.done 0 0 1 0).giveTag m.signal 16), doneNodes qn m.node m.signal ++ [.settle qn])

/-! ### The graph at work, R224, R225 -/

/-- Dispatches a node whose PEND has come to 0. -/
def State.dispatchNode (s : State) (qn : Nat) (q : Queue) (node : Nat) : State × List Todo :=
  let s1 := s.setNst q node 1
  match s1.readNode q node with
  | (s2, none) => (s2, [])
  | (s2, some e) =>
    let kind := fieldOf e 4 1
    let pay := fieldOf e 8 8
    if kind = 0 then (s2, [.done qn node])
    else if 5 < kind ∨ pay % 128 ≠ 0 then (s2, [.ended qn node 8])
    else
      match s2.engineReadSpan q.ctx pay (if kind = 3 then 256 else 128) with
      | (s3, .error _) => (s3, [.ended qn node 8])
      | (s3, .ok bs) =>
        if kind = 1 then
          let (s4, _, ts) := s3.acceptRecord qn q bs { node := some node }
          (s4, ts)
        else
          match s3.postPayload qn q node kind pay bs with
          | (s4, true) => (s4, [.ended qn node 8])
          | (s4, false) => (s4, [])

/-- Decrements a node, and dispatches it when its PEND comes to 0. -/
def State.decAndGo (s : State) (qn : Nat) (q : Queue) (node : Nat) : State × DecResult × List Todo :=
  match s.decNode q node with
  | (s1, .zero) =>
    let (s2, ts) := s1.dispatchNode qn q node
    (s2, .zero, ts)
  | (s1, r) => (s1, r, [])

/-- Decrements the successors of a node in list order; an entry that cannot be read names no node. -/
def State.decSuccessors (s : State) (qn : Nat) (q : Queue) (e : List Byte) : State × List Todo :=
  (List.range (fieldOf e 16 4)).foldl (fun acc i =>
    match acc.1.engineReadSpan q.ctx ((fieldOf e 24 8 + 4 * i) % 2 ^ 64) 4 with
    | (s1, .error _) => (s1, acc.2)
    | (s1, .ok bs) =>
      let (s2, _, ts) := s1.decAndGo qn q (natOf bs)
      (s2, acc.2 ++ ts)) (s, [])

/-- One thing to do, and what follows from it. -/
def State.doTodo (s : State) (t : Todo) : State × List Todo :=
  match t with
  | .ended qn node bits =>
    match sget s.queues qn with
    | some q => (s.setNst q node bits, [])
    | none => (s, [])
  | .settle qn =>
    match sget s.queues qn with
    | some q => s.settleMarker qn q
    | none => (s, [])
  | .done qn node =>
    match sget s.queues qn with
    | none => (s, [])
    | some q =>
      let s1 := s.setNst q node 2
      match s1.readNode q node with
      | (s2, none) => (s2, [])
      | (s2, some e) => s2.decSuccessors qn q e

/-- Does what is to be done, and all that follows from it, for so many items. -/
def State.work (fuel : Nat) (ts : List Todo) (s : State) : State :=
  match fuel, ts with
  | 0, _ => s
  | _, [] => s
  | n + 1, t :: rest =>
    let (s1, more) := s.doTodo t
    s1.work n (rest ++ more)

/-- Enough for every node of the graph to be dispatched, completed and rejected once, and every marker to settle. -/
def State.graphFuel (s : State) : Nat :=
  s.queues.foldl (fun n p => n + 4 * p.2.ncnt) (4 * s.markers.length + 16)

def State.graph (s : State) (ts : List Todo) : State := s.work s.graphFuel ts

/-! ### Rings, R211 -/

/-- The record of a queue's watched line, when its sequence matches. -/
def State.ringRecord (s : State) (q : Queue) : State × Option (List Byte) :=
  match s.deviceRead (q.ring + 128 * (q.seq % 2 ^ q.lgsz)) 128 with
  | (s1, some bs) => (s1, if fieldOf bs 126 2 = q.seq then some bs else none)
  | (s1, none) => (s1, none)

/-- Reads the watched line of a queue and accepts its record, if it is of one of these kinds. -/
def State.acceptRing (s : State) (qn : Nat) (kinds : List Nat) : State :=
  match sget s.queues qn with
  | none => s
  | some q =>
    if !s.watching || !q.enabled || q.bad then s
    else
      match s.ringRecord q with
      | (s1, none) => s1
      | (s1, some bs) =>
        if !(recKind bs ∈ kinds) then s1
        else
          let (s2, _, ts) := s1.acceptRecord qn q bs {}
          let s3 := s2.deviceWrite (s2.entryAt qn + 28) (leOf 4 q.seq)
          let s4 := { s3 with queues := smod s3.queues qn fun q => { q with seq := if q.seq = 65535 then 1 else q.seq + 1 } }
          s4.graph (ts ++ [.settle qn])

/-- Accepts a record that a thread has posted to a queue; only then has the thread its launch id (R227). -/
def State.acceptPosted (s : State) (qn : Nat) (q : Queue) (x : Posted) : State :=
  let s0 := { s with queues := smod s.queues qn fun y => { y with posted := y.posted.erase x } }
  let (s1, id, ts) := s0.acceptRecord qn q x.raw x.signal
  (s1.graph (ts ++ [.settle qn])).modThr x.who fun t => (t.setVal x.cnt (BitVec.ofNat 32 id)).release

/-- Accepts a record of a queue that is enabled (R210): the oldest posted one whose thread pre-emption has not stopped, or that of its
watched line. -/
def State.acceptNext (s : State) (qn : Nat) (kinds : List Nat) : State :=
  match sget s.queues qn with
  | none => s
  | some q =>
    match q.posted.find? fun x => !s.stoppedAt x.who.core x.who.blk with
    | some x => if q.enabled then s.acceptPosted qn q x else s
    | none => s.acceptRing qn kinds

/-- R211: a write to the watched ring line wakes its queue, which reads it again. -/
def execRingLineWake (queue : Nat) (s : State) : Out := .next (s.acceptNext queue [0, 1, 2, 3])

/-- R213, R227: a launch record whose sequence matches, or that has been posted, is accepted and checked. -/
def execLaunchRecord (queue : Nat) (s : State) : Out := .next (s.acceptNext queue [0, 3])

/-- R212: a TLB invalidation record starts an invalidation. -/
def execTlbInvalidationRecord (queue : Nat) (s : State) : Out := .next (s.acceptRing queue [1])

/-- R212: a marker record is accepted, and waits for the earlier records. -/
def execMarkerRecord (queue : Nat) (s : State) : Out := .next (s.acceptRing queue [2])

/-- Drops the TLB entries of an address space that meet a range; a length of 0 is the whole space. -/
def State.dropTlb (s : State) (asid va len : Nat) : State :=
  let hit (e : TlbEntry) : Bool := e.asid == asid && (len == 0 || (decide (e.va < va + len) && decide (va < e.va + e.len)))
  { s with cores := s.cores.map fun p => (p.1, { p.2 with tlb := p.2.tlb.filter fun e => !hit e }) }

/-- R212: an invalidation has reached every TLB, and writes its status. -/
def execTlbInvalidationComplete (id : Nat) (s : State) : Out :=
  match s.tlbInvs.find? fun x => x.id == id with
  | none => .next s
  | some x =>
    match sget s.queues x.queue with
    | none => .next s
    | some q =>
      let s1 := ({ s with tlbInvs := s.tlbInvs.filter fun y => y.id != id } : State).dropTlb x.asid x.va x.len
      let s2 := (s1.writeStatus q.asid q.root x.done 0 0 1 0).giveTag x.signal 16
      .next (s2.graph (doneNodes x.queue 0xFFFFFFFF x.signal ++ [.settle x.queue]))

/-- R224: a host atomic decrement of PEND. -/
def execHostPendDecrement (queue node : Nat) (s : State) : Out :=
  match sget s.queues queue with
  | none => .next s
  | some q =>
    let (s1, _, ts) := s.decAndGo queue q node
    .next (s1.graph ts)

/-! ### Device-side posting, R226, R227, R229 -/

/-- Whether a queue takes a posted record: known, enabled, allowed, of the issuer's address space, with fewer than 64 that are
not accepted (R227). -/
def State.postable (s : State) (qn asid : Nat) : Bool :=
  match sget s.queues qn with
  | some q => decide (qn < queueCount) && q.enabled && !q.bad && q.launchOk && q.asid == asid && decide (q.posted.length < 64)
  | none => false

/-- A record that a lane posts to a queue; its completion signals a tag of the block. -/
def State.postRecord (s : State) (sig : Option Nat) (qn : Nat) (c : BitVec 7) (w : Who) (bs : List Byte) : State :=
  let lin := ((s.block? s.issue.core s.issue.blk).map (·.lin)).getD 0
  let x : Posted := { who := w, cnt := c, signal := { tag := sig.map fun k => (s.issueLaunch.id, lin, k) }, raw := bs }
  { s with queues := smod s.queues qn fun q => { q with posted := q.posted ++ [x] } }

/-- One lane of `launch`: refused at once, or held until its record is accepted (log entry 30). -/
def State.postLaunch (s : State) (sig : Option Nat) (c d : BitVec 7) (l : LaneRef) (t : Thread) : LaneOut :=
  let qn := (t.reg (t.absReg d.toNat + 2)).toNat
  let w := s.who l
  match (s.releaseAt w 3).readPosted w (t.val64 d).toNat with
  | (s1, .error e) => (s1, some e)
  | (s1, .ok bs) =>
    if s1.postable qn s1.issueLaunch.asid then ((s1.postRecord sig qn c w bs).modLane l fun t => t.hold (.held .post), none)
    else (s1.modLane l fun t => (t.setVal c 0).advance 4, none)

/-- R227: posts a launch record from memory. -/
def execLaunch (c d : BitVec 7) : State → Out :=
  deviceOp none c d [.src64 d, .rw d 3] fun s l t => s.postLaunch none c d l t

/-- R227: posts a launch record, with 16 bytes on a tag when it completes or is rejected. -/
def execLaunchSig (k : BitVec 6) (c d : BitVec 7) : State → Out :=
  deviceOp (some k) c d [.src64 d, .rw d 3] fun s l t => s.postLaunch (some k.toNat) c d l t

/-- R229: decrements a node of the issuing queue. -/
def execTgsig (c d : BitVec 7) : State → Out :=
  deviceOp none c d [.src d] fun s l _ =>
    let s0 := s.releaseAt (s.who l) 3
    let la := s0.issueLaunch
    match sget s0.queues la.queue with
    | none => (s0.modLane l fun t => (t.setVal c 0).advance 4, none)
    | some q =>
      let (s1, r, ts) := s0.decAndGo la.queue q (match s0.lane? l with | some t => (t.val d).toNat | none => 0)
      let ok := r = .lowered ∨ r = .zero
      ((s1.graph ts).modLane l fun t => (t.setVal c (if ok then 1 else 0)).advance 4, none)

end Sys2Proof.Machine
end

