-- ==== Sys2Proof/Machine/Image.lean ====
section
/-! DEFINITION. Context images (09 R233-R235; 13 R336; 16 R388): the bytes of a saved block, and a block as its image says. -/

namespace Sys2Proof.Machine

open Sys2Proof

/-! ### Thread records, R234 -/

def bitAt (b : Bool) (i : Nat) : Nat := if b then 2 ^ i else 0

/-- The kind of a wait. -/
def Wait.code : Wait → Nat
  | .bar => 1
  | .regroup => 1
  | .cv _ => 2
  | .pair _ => 2
  | .oswait _ => 3
  | .exitOsc => 4
  | .trapOsc => 4
  | .wall _ => 5
  | .wany _ => 6
  | .gswt _ => 7
  | .awaitf _ => 8
  | .aacq _ => 9
  | .aalloc => 10
  | .held _ => 11
  | .lock => 11

/-- The convergence register that a wait names. -/
def Wait.cvOf : Wait → Nat
  | .cv k => k
  | .pair k => k
  | _ => 0

/-- The state of a thread: 0 running, 1 waiting, 2 halted, 3 exited, 4 no thread. -/
def Thread.code (t : Thread) : Nat :=
  if t.helper then 4
  else if t.halted.isSome then 2
  else match t.mode with
    | .running => 0
    | .waiting _ => 1
    | .exited => 3

/-- Bytes 32 to 35. -/
def Thread.stateWord (t : Thread) : Nat :=
  let (w, r, n) := match t.mode with
    | .waiting x => (x.code, x == .regroup, x.cvOf)
    | _ => (0, false, 0)
  t.code + bitAt t.handler 3 + bitAt t.replay.isSome 4 + bitAt t.haltHeld 5 + bitAt t.helper 6 + 128 * w + 4096 * n + bitAt r 16

/-- Bytes of a thread's pixel state (16 R388). -/
def Pixel.bytes (x : Pixel) : List Byte :=
  ((List.range 3).flatMap fun i => wordBytes (nth x.col i 0)) ++ wordBytes x.trans ++ wordBytes x.pix ++ wordBytes x.ctl ++ wordBytes x.ncon
    ++ leOf 4 0

/-- Bytes 0 to 163 of a thread record. -/
def Thread.recordHead (t : Thread) : List Byte :=
  let pc := match t.replay with | some r => r.reader | none => t.pc
  let osw := match t.mode with | .waiting (.oswait n) => n | _ => 0
  leOf 8 pc.toNat ++ leOf 8 (t.replayPc.getD (BitVec.allOnes 64)).toNat ++ leOf 8 t.anchor.toNat ++ leOf 8 (t.preds ||| 1#64).toNat
    ++ leOf 4 t.stateWord ++ leOf 2 osw ++ leOf 2 t.wb.toNat ++ ((List.range 4).flatMap fun i => leOf 2 (t.xreg i).toNat)
    ++ ((List.range 3).flatMap fun i => wordBytes (t.lcOf i)) ++ ((List.range 3).flatMap fun i => wordBytes (t.lsOf i))
    ++ ((List.range 3).flatMap fun i => wordBytes (t.loopEnd i)) ++ wordBytes t.fpctl
    ++ ((List.range 4).flatMap fun i => leOf 8 (nth t.ret i 0).toNat) ++ wordBytes t.rsd ++ wordBytes t.sp
    ++ wordBytes t.trcause ++ wordBytes t.trpc ++ wordBytes t.trpch ++ wordBytes t.tradl ++ wordBytes t.tradh ++ wordBytes t.trdet
    ++ leOf 4 (t.rank + 32 * t.group + bitAt (t.mode == .exited) 10)
    ++ leOf 2 t.signed.toNat ++ leOf 2 t.sphValid.toNat ++ leOf 2 t.sph.toNat ++ leOf 2 0

/-- The poison marks of 1,024 registers, one bit each. -/
def Thread.poisonBytes (t : Thread) : List Byte := leOf 128 (t.poison.foldl (fun n p => Nat.lor n (2 ^ p.1)) 0)

/-- Bytes 164 to 511. -/
def Thread.recordTail (t : Thread) : List Byte :=
  leOf 4 (t.echoCount + bitAt t.echoOvf 5) ++ ((List.range 16).flatMap fun i => leOf 8 (sgetD t.echo i 0).toNat) ++ t.poisonBytes
    ++ t.pixel.bytes ++ wordBytes (t.tbLatch.getD 0)
    ++ (match t.seedLatch with
        | some x => wordBytes x.hi ++ leOf 1 x.gen ++ leOf 1 (bitAt t.tbLatch.isSome 0 + 2 + 4 * x.slot)
        | none => leOf 4 0 ++ leOf 1 0 ++ leOf 1 (bitAt t.tbLatch.isSome 0))
    ++ leOf 46 0

def Thread.record (t : Thread) : List Byte := t.recordHead ++ t.recordTail

/-- The thread or helper lane of a slot, by logical index. -/
def Block.slot? (b : Block) (i : Nat) : Option Thread := match sget b.threads i with | some t => some t | none => sget b.helpers i

/-- The record of a slot; one with no thread says so, and has no replay PC. -/
def Block.slotRecord (b : Block) (i : Nat) : List Byte :=
  match b.slot? i with
  | some t => t.record
  | none => leOf 8 0 ++ leOf 8 (2 ^ 64 - 1) ++ leOf 8 0 ++ leOf 8 1 ++ leOf 4 4 ++ leOf 476 0

/-! ### Block images, R233 -/

/-- Bytes rounded up to a section of the save area. -/
def section128 (n : Nat) : Nat := (n + 127) / 128 * 128


def CvReg.bytes (c : CvReg) : List Byte :=
  leOf 2 c.e ++ leOf 2 c.c ++ leOf 1 (bitAt c.ph 0 + bitAt c.broken 1 + bitAt (c.mat.isSome && c.c != 0) 2) ++ leOf 3 0

/-- A matrix phase record; zero while the register holds no sign of one. -/
def CvReg.phaseBytes (c : CvReg) : List Byte :=
  match c.mat with
  | none => leOf 64 0
  | some m =>
    if c.c = 0 then leOf 64 0
    else
      wordBytes m.fmt ++ wordBytes m.shape ++ wordBytes m.tagA ++ wordBytes m.tagB ++ wordBytes m.vcnt
        ++ leOf 1 (bitAt m.f 0 + bitAt m.z 2 + bitAt m.p 3 + bitAt m.oddFirst 4) ++ leOf 3 0
        ++ ((List.range 3).flatMap fun i => wordBytes (nth m.own i 0)) ++ leOf 28 0

def Tag.word (t : Tag) : Nat := (t.balance % 2 ^ 25).toNat + bitAt t.armed 25 + bitAt t.err 26

/-- A held command; a ring copy that waits for a slot has start tick 0 (R230). -/
def Cmd.heldBytes (c : Cmd) : List Byte :=
  leOf 1 c.major ++ leOf 1 c.sub ++ leOf 1 c.mode ++ leOf 1 c.tag ++ leOf 4 (if c.isColl then c.collSeq else c.cnt.toNat)
    ++ leOf 8 (if c.major = 25 then 0 else c.tick.toNat) ++ ((List.range 28).flatMap fun i => wordBytes (nth c.desc i 0))

/-- Where the sections of an image begin: registers, accumulators, block stage, cluster stage, and the end. -/
structure Sections where
  regs : Nat
  acc : Nat
  stage : Nat
  cstage : Nat
  fin : Nat
  deriving DecidableEq, Repr

/-- Whether an image holds the cluster stage. -/
def Block.hasCstage (b : Block) (l : Launch) : Bool := !b.spawn && b.crank == 0 && l.rcd.cstg != 0

def Block.stageBytes (b : Block) (l : Launch) : Nat := if b.spawn then 0 else l.rcd.bstg

def sectionsOf (l : Launch) (b : Block) : Sections :=
  let slots := 32 * groupsOf b.nthreads
  let regs := 4096 + 512 * slots
  let acc := regs + section128 (slots * l.rcd.regs * 4)
  let stage := acc + section128 (16 + b.regions.foldl (fun n r => n + 16 + r.units * 8192) 0)
  let cst := stage + section128 (b.stageBytes l)
  ⟨regs, acc, stage, cst, cst + (if b.hasCstage l then section128 l.rcd.cstg else 0)⟩

/-- The 4,096 bytes of an image's header. -/
def imageHeader (l : Launch) (b : Block) : List Byte :=
  let x := sectionsOf l b
  leOf 4 l.id ++ leOf 4 1 ++ leOf 8 b.lin.toNat ++ leOf 2 b.nthreads ++ leOf 2 l.rcd.regs ++ leOf 2 (32 * groupsOf b.nthreads)
    ++ leOf 1 b.ntags ++ leOf 1 (bitAt b.spawn 0 + bitAt (b.hasCstage l) 1 + 4 * b.qoff) ++ leOf 4 b.stackSlot ++ leOf 4 b.arrived
    ++ ((List.range 16).flatMap fun k => (b.cv k).bytes) ++ ((List.range 64).flatMap fun k => leOf 4 (b.tagAt k).word)
    ++ leOf 8 x.acc ++ leOf 8 x.stage ++ leOf 8 (if b.hasCstage l then x.cstage else 0) ++ leOf 8 x.fin
    ++ ((List.range 16).flatMap fun i => wordBytes (b.camAt i)) ++ leOf 8 x.regs ++ wordBytes b.cpflg ++ wordBytes b.mxflg
    ++ wordBytes b.cplbl ++ wordBytes b.cplbh ++ leOf 488 0 ++ ((List.range 16).flatMap fun k => (b.cv k).phaseBytes)
    ++ ((List.range 16).flatMap fun i => match b.held[i]? with | some c => c.heldBytes | none => leOf 128 0)

/-- Bytes filled up to a section's end. -/
def padded (bs : List Byte) : List Byte := bs ++ leOf (section128 bs.length - bs.length) 0

/-- The accumulators of a region as images (02 R41, 13 R336). -/
def Region.section (r : Region) : List Byte :=
  leOf 4 0 ++ leOf 4 (1024 * r.units) ++ leOf 4 (bitAt (r.token == .block) 0 + 256 * r.handle) ++ leOf 4 0
    ++ ((List.range (1024 * r.units)).flatMap fun i => leOf 8 ((sget r.acc i).getD (Config.accInit r.serial i)).toNat)

/-- A block image. -/
def State.image (s : State) (l : Launch) (b : Block) : List Byte :=
  let slots := 32 * groupsOf b.nthreads
  imageHeader l b ++ ((List.range slots).flatMap b.slotRecord)
    ++ padded ((List.range slots).flatMap fun i => (List.range l.rcd.regs).flatMap fun r =>
        wordBytes ((b.slot? i).map (fun t => t.reg r) |>.getD 0))
    ++ padded (leOf 8 b.regions.length ++ leOf 8 0 ++ b.regions.flatMap Region.section)
    ++ padded (s.bytesAt (stagePlace b.stage 0) (b.stageBytes l))
    ++ (if b.hasCstage l then padded (s.bytesAt (stagePlace b.cstage 0) l.rcd.cstg) else [])

/-! ### Reading an image, R235 -/

/-- Words and double words of a record. -/
def fieldWord (bs : List Byte) (at_ : Nat) : Word := BitVec.ofNat 32 (fieldOf bs at_ 4)
def fieldPair (bs : List Byte) (at_ : Nat) : Dword := BitVec.ofNat 64 (fieldOf bs at_ 8)

/-- Words of a record from a place on. -/
def fieldWords (bs : List Byte) (at_ n : Nat) : List Word := (List.range n).map fun i => fieldWord bs (at_ + 4 * i)

/-- What a thread does that goes on with a wait kind: the first three waits go on, and every other instruction that waited is
executed again (07 R164). A wait for the register of another block is told from the thread as it was saved. -/
def resumeMode (w n osw : Nat) (old : TMode) : TMode :=
  match w / 128 % 32 with
  | 1 => .waiting (if bitOf w 16 then .regroup else .bar)
  | 2 => match old with
    | .waiting (.pair _) => .waiting (.pair n)
    | _ => .waiting (.cv n)
  | 3 => .waiting (.oswait osw)
  | _ => .running

/-- The mode of a resumed thread. -/
def recordMode (bs : List Byte) (old : TMode) : TMode :=
  let w := fieldOf bs 32 4
  if w % 8 = 3 then .exited else resumeMode w (w / 4096 % 16) (fieldOf bs 36 2) old

/-- The pixel state of a record. -/
def pixelRead (bs : List Byte) : Pixel :=
  { col := fieldWords bs 0 3, trans := fieldWord bs 12, pix := fieldWord bs 16, ctl := fieldWord bs 20, ncon := fieldWord bs 24 }

/-- The poison marks of a record: a mark keeps the load that it names, which the record does not hold. -/
def poisonsOf (bs : List Byte) (old : SMap Poison) : SMap Poison :=
  (List.range 1024).filterMap fun r => if bitOf (fieldOf bs (r / 8) 1) (r % 8) then some (r, (sget old r).getD ⟨0, 0⟩) else none

/-- A thread as bytes 0 to 163 of its record say. -/
def Thread.readHead (t : Thread) (bs : List Byte) : Thread :=
  let w := fieldOf bs 32 4
  let back := if fieldOf bs 8 8 = 2 ^ 64 - 1 then none else some (fieldPair bs 8)
  let pc := fieldPair bs 0
  { t with
    pc := if bitOf w 4 then back.getD pc else pc
    replayPc := back
    anchor := fieldPair bs 16
    preds := fieldPair bs 24
    replay := if bitOf w 4 then some ⟨pc, true, 0⟩ else none
    handler := bitOf w 3
    haltHeld := bitOf w 5
    halted := if w % 8 = 2 then some (t.halted.getD (0x22, 1)) else none
    mode := recordMode bs t.mode
    wb := BitVec.ofNat 10 (fieldOf bs 38 2)
    xs := (List.range 4).map fun i => BitVec.ofNat 10 (fieldOf bs (40 + 2 * i) 2)
    lc := fieldWords bs 48 3
    ls := fieldWords bs 60 3
    le := fieldWords bs 72 3
    fpctl := fieldWord bs 84
    ret := (List.range 4).map fun i => fieldPair bs (88 + 8 * i)
    rsd := fieldWord bs 120
    sp := fieldWord bs 124
    trcause := fieldWord bs 128
    trpc := fieldWord bs 132
    trpch := fieldWord bs 136
    tradl := fieldWord bs 140
    tradh := fieldWord bs 144
    trdet := fieldWord bs 148
    rank := fieldOf bs 152 4 % 32
    group := fieldOf bs 152 4 / 32 % 32
    signed := BitVec.ofNat 16 (fieldOf bs 156 2)
    sphValid := BitVec.ofNat 16 (fieldOf bs 158 2)
    sph := BitVec.ofNat 16 (fieldOf bs 160 2) }

/-- A thread as bytes 164 to 511 of its record say. -/
def Thread.readTail (t : Thread) (bs : List Byte) : Thread :=
  let l := fieldOf bs 301 1
  { t with
    echoCount := fieldOf bs 0 4 % 32
    echoOvf := bitOf (fieldOf bs 0 4) 5
    echo := (List.range 16).map fun i => (i, fieldPair bs (4 + 8 * i))
    poison := poisonsOf (bs.drop 132) t.poison
    pixel := pixelRead (bs.drop 260)
    tbLatch := if bitOf l 0 then some (fieldWord bs 292) else none
    seedLatch := if bitOf l 1 then some ⟨l / 4 % 8, fieldWord bs 296, fieldOf bs 300 1⟩ else none }

/-- A thread that goes on: no latch is valid, and its starve count is 0 (R234). -/
def Thread.renewed (t : Thread) : Thread := { t with latches := [], starve := 0, ctrLatch := [], tsmp := false }

/-- A thread as the image says: registers, then its record. -/
def Thread.readRecord (t : Thread) (rcd regs : List Byte) : Thread :=
  let t1 := t.setRegs 0 (fieldWords regs 0 t.nregs)
  (({ t1 with poison := t.poison } : Thread).readHead rcd).readTail (rcd.drop 164) |>.renewed

/-- A thread as it was saved, where its image cannot be read (log entry 9). -/
def Thread.resumed (t : Thread) : Thread :=
  let mode := match t.mode with
    | .waiting .bar => t.mode
    | .waiting .regroup => t.mode
    | .waiting (.cv _) => t.mode
    | .waiting (.pair _) => t.mode
    | .waiting (.oswait _) => t.mode
    | .waiting _ => .running
    | _ => t.mode
  ({ t.landReplay with mode := mode } : Thread).renewed

/-- A convergence register as the image says; the signers of a matrix phase are as they were saved. -/
def CvReg.read (c : CvReg) (bs phase : List Byte) : CvReg :=
  let fl := fieldOf bs 4 1
  let n := fieldOf bs 2 2
  let k := fieldOf phase 20 1
  let m : MatPhase :=
    { fmt := fieldWord phase 0, shape := fieldWord phase 4, tagA := fieldWord phase 8, tagB := fieldWord phase 12, vcnt := fieldWord phase 16,
      f := bitOf k 0, z := bitOf k 2, p := bitOf k 3, oddFirst := bitOf k 4, own := fieldWords phase 24 3 }
  { c with e := fieldOf bs 0 2, c := n, ph := bitOf fl 0, broken := bitOf fl 1, mat := if n ≠ 0 ∧ bitOf fl 2 then some m else none }

/-- A copy tag as its word says. -/
def tagOf (w : Nat) : Tag := { balance := (BitVec.ofNat 25 w).toInt, armed := bitOf w 25, err := bitOf w 26 }

/-- The regions of an accumulator section; the serial number of an allocation is as it was saved. -/
def regionsOf (old : List Region) : Nat → List Byte → List Region
  | 0, _ => []
  | n + 1, bs =>
    let k := fieldOf bs 4 4
    let w := fieldOf bs 8 4
    let h := w / 256 % 64
    let r : Region :=
      { handle := h, units := k / 1024, token := if bitOf w 0 then .block else .engine
        serial := ((old.find? fun x => x.handle == h).map (·.serial)).getD 0
        acc := (List.range k).map fun i => (i, BitVec.ofNat 40 (fieldOf bs (16 + 8 * i) 8)) }
    r :: regionsOf old n (bs.drop (16 + 8 * k))

/-- A held command as the image says: its Cnt or sequence number, its start tick, its descriptor. -/
def Cmd.readHeld (c : Cmd) (bs : List Byte) : Cmd :=
  let n := fieldOf bs 4 4
  { c with
    mode := fieldOf bs 2 1
    tag := fieldOf bs 3 1
    cnt := if c.isColl then c.cnt else BitVec.ofNat 32 n
    aux := if c.isColl then c.aux.set 1 n else c.aux
    tick := if c.major = 25 then c.tick else fieldPair bs 8
    desc := fieldWords bs 16 c.desc.length }

/-- A block as its image says, its stage apart. -/
def Block.readImage (b : Block) (l : Launch) (bs : List Byte) : Block :=
  let x := sectionsOf l b
  let rcd (i : Nat) : List Byte := (bs.drop (4096 + 512 * i)).take 512
  let regs (i : Nat) : List Byte := (bs.drop (x.regs + 4 * i * l.rcd.regs)).take (4 * l.rcd.regs)
  let acc := bs.drop x.acc
  { b with
    threads := b.threads.map fun p => (p.1, p.2.readRecord (rcd p.1) (regs p.1))
    helpers := b.helpers.map fun p => (p.1, if (sget b.threads p.1).isSome then p.2.resumed else p.2.readRecord (rcd p.1) (regs p.1))
    cvs := (List.range 16).map fun k => (k, (b.cv k).read (bs.drop (32 + 8 * k)) (bs.drop (1024 + 64 * k)))
    tags := (List.range 64).map fun k => (k, tagOf (fieldOf bs (160 + 4 * k) 4))
    cam := (List.range 16).map fun i => (i, fieldWord bs (448 + 4 * i))
    cpflg := fieldWord bs 520
    mxflg := fieldWord bs 524
    cplbl := fieldWord bs 528
    cplbh := fieldWord bs 532
    regions := regionsOf b.regions (fieldOf acc 0 8) (acc.drop 16)
    held := b.held.zipIdx.map fun h => h.1.readHeld (bs.drop (2048 + 128 * h.2)) }

/-- A block as it was saved, where its image cannot be read. -/
def Block.asSaved (b : Block) : Block :=
  { b with threads := b.threads.map fun p => (p.1, p.2.resumed), helpers := b.helpers.map fun p => (p.1, p.2.resumed) }

/-- The stage of a block as its image says. -/
def State.readStage (s : State) (l : Launch) (b : Block) (bs : List Byte) : State :=
  let x := sectionsOf l b
  let s1 := s.putBytes (stagePlace b.stage 0) ((bs.drop x.stage).take (b.stageBytes l))
  if b.hasCstage l then s1.putBytes (stagePlace b.cstage 0) ((bs.drop x.cstage).take l.rcd.cstg) else s1

/-- Takes a saved block from its image at an offset of its queue's save area; 0 is one that has not been written. -/
def State.loadImage (s : State) (l : Launch) (off : Nat) (b : Block) : State × Block :=
  match off, sget s.queues l.queue with
  | _ + 1, some q =>
    match s.engineReadSpan q.ctx (q.save + off) (sectionsOf l b).fin with
    | (s1, .ok bs) => (s1.readStage l b bs, b.readImage l bs)
    | (s1, .error _) => (s1, b.asSaved)
  | _, _ => (s, b.asSaved)

end Sys2Proof.Machine
end

