-- ==== Sys2Proof/Machine/Placement.lean ====
section
/-! DEFINITION. Placement and scheduling of launches (09 R216, R220-R223, R226, R228-R230): dispatch, clusters, lent
stage, time slices, the choice of a queue to pre-empt, spawn bins, and the end of a launch. -/

namespace Sys2Proof.Machine

open Sys2Proof

/-! ### What a core has free, 01 R8, R14, R19, R20 -/

def State.regsOf (s : State) (launch : Nat) : Nat := ((s.launch? launch).map (·.rcd.regs)).getD 0

/-- Register-file bytes in use on a quadrant. -/
def State.quadBytes (s : State) (core q : Nat) : Nat :=
  (s.coreAt core).blocks.foldl (fun n p => n + groupsOn p.2.nthreads p.2.qoff q * 32 * s.regsOf p.2.launch * 4) 0

/-- Threads resident on a core, by full groups. -/
def State.threadsOn (s : State) (core : Nat) : Nat := (s.coreAt core).blocks.foldl (fun n p => n + 32 * groupsOf p.2.nthreads) 0

/-- Free copy tags of a core, lowest first. -/
def State.freeTags (s : State) (core : Nat) : List Nat :=
  (List.range 64).filter fun k => !((s.coreAt core).blocks.any fun p => k ∈ p.2.physTags)

/-- What a block needs of a core: threads, registers per thread, tags, accumulator units. -/
structure Want where
  nthreads : Nat
  regs : Nat
  tags : Nat
  units : Nat := 0
  deriving DecidableEq, Repr

/-- Whether a core holds a block at a quadrant offset. -/
def State.coreFits (s : State) (core off : Nat) (w : Want) : Bool :=
  ((List.range 4).all fun q => decide (s.quadBytes core q + groupsOn w.nthreads off q * 32 * w.regs * 4 ≤ fileBytes))
    && decide (s.threadsOn core + 32 * groupsOf w.nthreads ≤ coreThreads) && decide (w.tags ≤ (s.freeTags core).length)
    && decide (w.units ≤ s.freeUnits core)

/-- Distinct cores for blocks, in order: each block, with the offsets it may take, on the first core of those left that
holds it (log entry 4). -/
def State.chooseCores (s : State) : List Nat → List (Want × List Nat) → Option (List (Nat × Nat))
  | _, [] => some []
  | cores, (w, offs) :: rest =>
    match firstSome (cores.map fun c => (offs.find? fun o => s.coreFits c o w).map fun o => (c, o)) with
    | none => none
    | some co => (s.chooseCores (cores.filter fun c => c != co.1) rest).map fun l => co :: l

/-- Stage bytes of a die, and those that a launch may still claim: what others have reserved is not free (R221). -/
def dieStage : Nat := 2 ^ 29

def State.stageFree (s : State) (die launch : Nat) : Nat := dieStage - s.stageTaken die launch

/-! ### Stack slots, R220 -/

/-- The first of n consecutive free slots of a launch; without a stack they are not limited. -/
def Launch.freeSlot (l : Launch) (n : Nat) : Option Nat :=
  let limit := if l.rcd.csz = 0 then l.slots.length * n + n else l.rcd.slots
  (List.range (limit + 1 - n)).find? fun k => !(l.slots.any fun x => decide (k ≤ x) && decide (x < k + n))

/-- Slots that a spawn block takes. -/
def Launch.spawnWidth (l : Launch) : Nat := (31 + l.rcd.bthr) / l.rcd.bthr

/-- Slots for n ordinary blocks, one each, or none. -/
def Launch.takeSlots (l : Launch) : Nat → Option (List Nat)
  | 0 => some []
  | n + 1 =>
    match l.freeSlot 1 with
    | none => none
    | some k => ({ l with slots := l.slots ++ [k] } : Launch).takeSlots n |>.map fun ks => k :: ks

/-! ### Blocks at their start, R216 -/

/-- The first stack pointer of a thread (07 R175). -/
def Launch.startSp (l : Launch) (slot idx : Nat) : Word := BitVec.ofNat 32 (l.rcd.csb + (slot * l.rcd.bthr + idx + 1) * l.rcd.csz)

/-- The threads of a new block. -/
def Launch.startThreads (l : Launch) (n slot : Nat) (entry : Dword) : SMap Thread :=
  (List.range n).map fun i => (i, freshThread i (i / 32) (i % 32) l.rcd.regs false entry (l.startSp slot i))

/-- The helper lanes of a new block. -/
def startHelpers (n nregs : Nat) : SMap Thread := (List.range (groupsOf n)).flatMap fun g => helpersOf g (min 32 (n - 32 * g)) nregs

/-- Makes a block resident, and lets its threads acquire at `.sys`. -/
def State.reside (s : State) (core : Nat) (b : Block) : State :=
  let blk := s.nextId
  let s1 := (s.fresh).setBlock core blk { b with order := s.nextId }
  (s1.noteAcquire (b.threads.map fun p => ⟨core, blk, p.1⟩)).dropClean core

/-- A queue's slice starts with its first resident block (R223). -/
def State.startSlice (s : State) (qn : Nat) : State :=
  { s with queues := smod s.queues qn fun q => match q.sliceStart with
      | none => { q with sliceStart := some s.now }
      | some _ => q }

/-! ### The order of launches, R222, R223 -/

/-- Whether a waiting launch may enter dispatching: its tick has passed, and the launch accepted before it in its queue has left
dispatching, or has completed where it is to run alone. -/
def State.mayDispatch (s : State) (l : Launch) : Bool :=
  let serial := l.rcd.lfl / 2 % 2 == 1
  let halted := ((sget s.queues l.queue).map (·.preempted)).getD true
  let clear := match l.prev.bind fun i => s.launch? i with
    | none => true
    | some x => !serial && x.state != .waiting && x.state != .dispatching
  l.state == .waiting && decide (l.rcd.tick ≤ s.now) && !halted && clear

/-- R222: a waiting launch enters dispatching; of launches with one start tick the one accepted first (01 R25). -/
def execLaunchDispatch (launch : Nat) (s : State) : Out :=
  match s.launch? launch with
  | none => .next s
  | some l =>
    let late := l.rcd.tick ≠ 0 ∧ s.launches.any fun p => p.2.rcd.tick == l.rcd.tick && decide (p.2.order < l.order) && s.mayDispatch p.2
    if !s.mayDispatch l ∨ late then .next s
    else .next (s.modLaunch launch fun x => { x with state := if x.count = 0 then .running else .dispatching, dispatchTick := s.now })

/-- What a launch places next: saved blocks of a cluster or a spawn block with the offsets of their images, a pending spawn
group, or a new cluster. -/
inductive Work where
  | resume (blocks : List (Nat × Block))
  | group (g : SpawnGroup)
  | cluster (c : Nat)
  deriving DecidableEq, Repr

def Launch.nextWork (l : Launch) : Option Work :=
  match l.saved, l.pending with
  | (_, b) :: _, _ =>
    some (.resume (l.saved.filter fun x => if b.spawn then x.2.lin == b.lin else !x.2.spawn && x.2.cluster == b.cluster))
  | [], g :: _ => some (.group g)
  | [], [] => if l.next < l.first + l.count then some (.cluster l.next) else none

/-- What the blocks of a piece of work need, with the quadrant offsets that each may take. -/
def Launch.wants (l : Launch) : Work → List (Want × List Nat)
  | .resume bs => bs.map fun x =>
      ({ nthreads := x.2.nthreads, regs := l.rcd.regs, tags := x.2.ntags, units := x.2.regions.foldl (fun n r => n + r.units) 0 }, [x.2.qoff])
  | .group g => [({ nthreads := g.threads.length, regs := l.rcd.regs, tags := 0 }, [0, 1, 2, 3])]
  | .cluster _ => List.replicate l.rcd.cblk ({ nthreads := l.rcd.bthr, regs := l.rcd.regs, tags := l.rcd.tags }, [0, 1, 2, 3])

/-- Stage bytes that a piece of work claims. -/
def Launch.stageOf (l : Launch) : Work → Nat
  | .resume bs =>
    let n := (bs.filter fun x => !x.2.spawn).length
    if n = 0 then 0 else n * l.rcd.bstg + l.rcd.cstg
  | .group _ => 0
  | .cluster _ => l.rcd.cblk * l.rcd.bstg + l.rcd.cstg

/-- Whether the stack slots of a piece of work are there; a saved block keeps its own. -/
def Launch.slotsFit (l : Launch) : Work → Bool
  | .resume _ => true
  | .group _ => (l.freeSlot l.spawnWidth).isSome
  | .cluster _ => (l.takeSlots l.rcd.cblk).isSome

/-- Whether a piece of work can be placed on a die, were its stage not on loan. -/
def State.fits (s : State) (l : Launch) (w : Work) (die : Nat) : Bool :=
  l.slotsFit w && decide (l.stageOf w ≤ s.stageFree die l.id) && (s.chooseCores (s.coresOf die) (l.wants w)).isSome

/-- Another cluster's drain holds up a claim of stage on a die (R221). -/
def State.otherDrain (s : State) (l : Launch) (die : Nat) : Bool :=
  s.launches.any fun p => p.1 != l.id && (match p.2.draining with | some (d, _) => d == die | none => false)

/-- Whether a piece of work is held up by a drain, its own or another's. -/
def State.drainHeld (s : State) (l : Launch) (w : Work) (die : Nat) : Bool :=
  l.stageOf w != 0 && (match l.draining with
    | some (d, _) => d != die || !l.drained
    | none => s.otherDrain l die)

/-- The place of a launch in the order of R223: priority, then round robin after the queue served last. -/
def State.dispatchKey (s : State) (l : Launch) : Nat :=
  let p := ((sget s.queues l.queue).map (·.prio)).getD 0
  let turn := match sget s.served p with
    | some q => (l.queue + queueCount - q - 1) % queueCount
    | none => l.queue
  (7 - p) * queueCount + turn

/-- Dispatching launches with work, in the order in which resources are offered to them. -/
def State.offered (s : State) : List (Launch × Work) :=
  let ls := (s.launches.map (·.2)).filterMap fun l =>
    if l.state = .dispatching then l.nextWork.map fun w => (s.dispatchKey l, l.order, l, w) else none
  (ls.foldl (fun acc x => insertRanked x acc) []).map (·.2.2)

/-- The launches before one in that order. -/
def offeredBefore (id : Nat) : List (Launch × Work) → List (Launch × Work)
  | [] => []
  | x :: l => if x.1.id = id then [] else x :: offeredBefore id l

/-! ### Placing, R220, R221, R235 -/

/-- Notes a placement: the queue served, its slice, and the end of dispatching. -/
def State.placed (s : State) (l : Launch) : State :=
  let p := ((sget s.queues l.queue).map (·.prio)).getD 0
  let s1 := ({ s with served := sput s.served p l.queue } : State).startSlice l.queue
  s1.modLaunch l.id fun x => { x with state := if x.nextWork.isNone then .running else x.state, draining := none, drained := false }

/-- A new cluster on its cores, block by block: core and offset, stack slot and rank. -/
def State.placeCluster (s : State) (l : Launch) (c : Nat) (spots : List (Nat × Nat)) (slots : List Nat) : State :=
  let cs := s.nextId
  (spots.zip slots).zipIdx.foldl (fun s x =>
    let ((core, off), slot) := x.1
    let b : Block :=
      { launch := l.id, lin := BitVec.ofNat 64 (c * l.rcd.cblk + x.2), cluster := c, crank := x.2, nthreads := l.rcd.bthr, qoff := off,
        stackSlot := slot, order := 0, threads := l.startThreads l.rcd.bthr slot l.rcd.entry,
        helpers := startHelpers l.rcd.bthr l.rcd.regs, ntags := l.rcd.tags, physTags := (s.freeTags core).take l.rcd.tags,
        stage := s.nextId, cstage := cs }
    (s.fresh).reside core b) s.fresh

/-- The spawn block of a group of threads, with its slots taken (R228). -/
def State.placeSpawn (s : State) (l : Launch) (g : SpawnGroup) (core off slot : Nat) : State :=
  let k := s.coreAt core
  let n := g.threads.length
  let ths := ((l.startThreads n slot g.entry).zip g.threads).map fun x =>
    (x.1.1, { x.1.2.setRegs 0 x.2 with spawnArgs := x.2.length })
  let b : Block :=
    { launch := l.id, lin := BitVec.ofNat 64 (2 ^ 63 + core % 256 * 2 ^ 55 + k.spawnSerial % 2 ^ 55), cluster := 0xFFFFFFFF, crank := 0,
      nthreads := n, qoff := off, stackSlot := slot, spawn := true, order := 0, threads := ths, helpers := startHelpers n l.rcd.regs }
  let s1 := (s.setCore core { k with spawnSerial := k.spawnSerial + 1 }).modLaunch l.id fun x =>
    { x with slots := x.slots ++ (List.range l.spawnWidth).map fun i => slot + i }
  s1.reside core b

/-- A held command issued again, by its block's new place: a ring copy waits for its slot again, another command for its start
tick (R235). -/
def State.reissue (s : State) (core blk : Nat) (c : Cmd) : State :=
  let c1 : Cmd := { c with id := s.nextId, core := core, blk := blk, begun := false, held := false, slot := none, locks := [] }
  if c.isRing then
    { s.fresh with cmds := sput s.cmds c1.id { c1 with aux := c.aux.take 3, locks := (tileOf c.desc).tensorLock (s.ctxOf core blk) c1.id } }
  else s.queueCmd c1

/-- A saved block resident again, as its image says (R235). -/
def State.restoreBlock (s : State) (l : Launch) (core off : Nat) (b : Block) : State :=
  let (s1, b1) := s.loadImage l off b
  let blk := s1.nextId
  b1.held.foldl (fun s c => s.reissue core blk c)
    (s1.reside core { b1 with physTags := (s1.freeTags core).take b.ntags, held := [], readyAt := [], aged := [] })

/-- Places a piece of work on a die, on these cores. -/
def State.place (s : State) (l : Launch) (w : Work) (spots : List (Nat × Nat)) : State :=
  match w with
  | .resume bs =>
    let s1 := s.modLaunch l.id fun x => { x with saved := x.saved.filter fun y => !(bs.any fun b => b.2.lin == y.2.lin) }
    ((spots.zip bs).foldl (fun s x => s.restoreBlock l x.1.1 x.2.1 x.2.2) s1).placed l
  | .group g =>
    match spots, l.freeSlot l.spawnWidth with
    | (core, off) :: _, some slot =>
      ((s.modLaunch l.id fun x => { x with pending := x.pending.drop 1 }).placeSpawn l g core off slot).placed l
    | _, _ => s
  | .cluster c =>
    match l.takeSlots l.rcd.cblk with
    | none => s
    | some slots =>
      (((s.modLaunch l.id fun x => { x with next := x.next + 1, slots := x.slots ++ slots }).placeCluster l c spots slots)).placed l

/-! ### Pre-emption, R223, R230 -/

/-- Whether a queue has resident blocks. -/
def State.queueResident (s : State) (qn : Nat) : Bool :=
  s.cores.any fun p => p.2.blocks.any fun b => ((s.launch? b.2.launch).map fun l => l.queue == qn).getD false

/-- Spawn groups of a launch: those pending, and its bins. -/
def State.groupsPending (s : State) (l : Launch) : List SpawnGroup :=
  l.pending ++ s.cores.flatMap fun p => (p.2.bins.filter fun b => b.2.launch == l.id).map fun b => ⟨b.2.entry, b.2.threads⟩

/-- Blocks of a launch that are resident. -/
def State.blocksOf (s : State) (launch : Nat) : List Block :=
  s.cores.flatMap fun p => (p.2.blocks.map (·.2)).filter fun b => b.launch == launch

/-- Bytes of a queue's save area were every resident block saved, beside the blocks that have not come back from it. -/
def State.saveNeed (s : State) (qn : Nat) : Nat :=
  ((s.launches.map (·.2)).filter fun l => l.queue == qn && l.state != .waiting).foldl (fun n l =>
    let bs := s.blocksOf l.id ++ l.saved.map (·.2)
    let gs := s.groupsPending l
    if bs = [] ∧ gs = [] ∧ l.nextWork = none then n
    else bs.foldl (fun n b => n + (sectionsOf l b).fin) (n + 384 + 640 * gs.length)) 128

/-- A launch whose queue is pre-empted: its bins are pending groups, and the blocks that have not come back from their images are
taken from them, to be written anew. -/
def State.stopLaunch (s : State) (l : Launch) : State :=
  let s1 := l.saved.foldl (fun (acc : State × List (Nat × Block)) x =>
    match acc.1.loadImage l x.1 x.2 with
    | (s1, b) => (s1, acc.2 ++ [(0, b)])) (s, [])
  s1.1.modLaunch l.id fun x =>
    { x with state := .preempted, pending := s.groupsPending l, draining := none, drained := false, saved := s1.2 }

/-- Begins to pre-empt a queue: its launches stop, its bins become pending groups, its kernels roll back. An area that is
too small sets QST[1] instead; whether the queue is pre-empted. -/
def State.beginPreempt (s : State) (qn : Nat) (q : Queue) : State × Bool :=
  if q.saven < s.saveNeed qn then
    match s.deviceRead (s.entryAt qn + 11) 1 with
    | (s1, none) => (s1, false)
    | (s1, some bs) => (s1.deviceWrite (s1.entryAt qn + 11) (leOf 1 (Nat.lor (natOf bs) 2)), false)
  else
    let mine (l : Launch) : Bool := l.queue == qn && l.state != .waiting
    let s1 := ((s.launches.map (·.2)).filter mine).foldl (fun s l => s.stopLaunch l)
      { s with queues := sput s.queues qn { q with preempted := true, areaDone := false, sliceStart := none, sliceOver := false } }
    let gone (b : Bin) : Bool := ((s.launch? b.launch).map mine).getD false
    let s2 : State := { s1 with cores := s1.cores.map fun (p : Nat × Core) => (p.1, { p.2 with bins := p.2.bins.filter fun b => !gone b.2 }) }
    (s2.preemptKernels qn, true)

/-- Queues that may be pre-empted for a launch of queue qn: lowest priority first, then longest resident (R223). -/
def State.victims (s : State) (qn prio : Nat) : List (Nat × Queue) :=
  let ok (p : Nat × Queue) : Bool := p.1 != qn && p.2.preempt && !p.2.preempted && s.queueResident p.1
    && (decide (p.2.prio < prio) || (p.2.prio == prio && p.2.slice != 0 && p.2.sliceOver))
  let ranked : List (Nat × Nat × Nat × Queue) := (s.queues.filter ok).map fun p => (p.2.prio, p.2.sliceStart.getD 0, p)
  (ranked.foldl (fun acc x => insertRanked x acc) []).map (·.2.2)

/-- Pre-empts the first of some queues whose save area suffices. -/
def State.preemptFirst (s : State) : List (Nat × Queue) → State
  | [] => s
  | (qn, q) :: rest =>
    match s.beginPreempt qn q with
    | (s1, true) => s1
    | (s1, false) => s1.preemptFirst rest

/-- R223: a time slice has passed. -/
def execSliceExpire (queue : Nat) (s : State) : Out :=
  match sget s.queues queue with
  | none => .next s
  | some q =>
    match q.sliceStart with
    | none => .next s
    | some t =>
      if q.slice ≠ 0 ∧ t + q.slice ≤ s.now then .next { s with queues := sput s.queues queue { q with sliceOver := true } } else .next s

/-- The offsets of the blocks of a new cluster: base-4 digits of `qoff`, lowest first (R220). -/
def offsetDigits (qoff : Nat) (ws : List (Want × List Nat)) : List (Want × List Nat) :=
  ws.zipIdx.map fun x => (x.1.1, [qoff / 4 ^ x.2 % 4])

/-- The quadrant offsets at which a launch's next work fits a die, as digits: the lowest of each block (log entry 31). -/
def State.offsetsFor (s : State) (launch die : Nat) : Nat :=
  match (s.offered.find? fun x => x.1.id == launch).bind fun x => s.chooseCores (s.coresOf die) (x.1.wants x.2) with
  | some spots => spots.zipIdx.foldl (fun n x => n + x.1.2 * 4 ^ x.2) 0
  | none => 0

/-- R220: offers free resources of a die to a launch: its next cluster is placed whole, or its stage begins to drain;
where no die can hold it, a queue is pre-empted in its favour. -/
def execClusterPlace (launch die qoff : Nat) (s : State) : Out :=
  match s.offered.find? fun x => x.1.id == launch with
  | none => .next s
  | some (l, w) =>
    let blocked := (offeredBefore launch s.offered).any fun x => s.fits x.1 x.2 die && !s.drainHeld x.1 x.2 die
    if decide (s.hw.part.dies ≤ die) || blocked then .next s
    else if s.fits l w die then
      if s.drainHeld l w die then .next s
      else if l.stageOf w ≠ 0 ∧ l.draining = none then .next (s.modLaunch launch fun x => { x with draining := some (die, l.stageOf w), drained := false })
      else
        let ws := match w with
          | .resume _ => l.wants w
          | _ => offsetDigits qoff (l.wants w)
        match s.chooseCores (s.coresOf die) ws with
        | none => .next s
        | some spots => .next (s.place l w spots)
    else if (List.range s.hw.part.dies).any fun d => s.fits l w d then .next s
    else .next (s.preemptFirst (s.victims l.queue (((sget s.queues l.queue).map (·.prio)).getD 0)))

/-- R221, 01 R16: the lent stage that a cluster reserved has drained: the L2 of its die keeps no line in it. -/
def execStageDrainComplete (launch : Nat) (s : State) : Out :=
  match (s.launch? launch).bind (·.draining) with
  | some d => .next ((s.trimL2 d.1).modLaunch launch fun x => { x with drained := true })
  | none => .next s

/-! ### Start ticks, 01 R25 -/

/-- R25: a command held for its start tick may begin; one of a block that pre-emption has stopped does not start (09 R230). -/
def execStartTickReached (id : Nat) (s : State) : Out :=
  match sget s.cmds id with
  | none => .next s
  | some c =>
    if !c.held || decide (s.now < c.tick.toNat) || s.stopped c then .next s
    else .next ({ s with cmds := sput s.cmds id { c with held := false } } : State)

/-! ### Spawn bins, R228, R229 -/

/-- A bin of a launch and entry: its number. -/
def Core.binOf (k : Core) (launch : Nat) (entry : Dword) (closed : Bool) : Option (Nat × Bin) :=
  k.bins.find? fun b => b.2.launch == launch && b.2.entry == entry && b.2.closed == closed

/-- The lowest empty bin of the sixteen. -/
def Core.emptyBin (k : Core) : Option Nat := (List.range 16).find? fun n => (sget k.bins n).isNone

/-- One lane of `spawn`: the thread in a bin, or the refusal. -/
def State.spawnThread (s : State) (now : Bool) (entry : Dword) (args : List Word) : State × Bool :=
  let core := s.issue.core
  let k := s.coreAt core
  let la := s.issueLaunch
  let bin : Option (Nat × Bin) :=
    match k.binOf la.id entry false with
    | some b => some b
    | none =>
      if (k.binOf la.id entry true).isSome then none
      else k.emptyBin.map fun n =>
        (n, { launch := la.id, entry := entry, threads := [], timer := if la.rcd.spt = 0 then none else some (s.now + 16 * la.rcd.spt) })
  match bin with
  | none => (s, false)
  | some (n, b) =>
    let ths := b.threads ++ [args]
    let full := now || decide (32 ≤ ths.length)
    ((s.setCore core { k with bins := sput k.bins n { b with threads := ths, closed := full, closedAt := s.nextId } }).fresh, true)

/-- `spawn` and `spawn.now`. -/
def spawnOp (now : Bool) (n : BitVec 3) (c d : BitVec 7) : State → Out :=
  wordCheck (if 4 < n.toNat then some (2, 0) else none) (deviceOp none c d [.src64 d, .rw d (2 + n.toNat)] fun s l t =>
    let entry := t.val64 d
    let s0 := s.releaseAt (s.who l) 3
    if entry.toNat % 2 = 1 then (s0, some (.trap 8 2 entry 0))
    else
      let (s1, ok) := s0.spawnThread now entry (t.regRun (t.absReg d.toNat + 2) n.toNat)
      (s1.modLane l fun t => (t.setVal c (if ok then 1 else 0)).advance 4, none))

/-- R228: places a new thread in a spawn bin. -/
def execSpawn (k : BitVec 3) (c d : BitVec 7) : State → Out := spawnOp false k c d

/-- R228: the same, and the bin closes. -/
def execSpawnNow (k : BitVec 3) (c d : BitVec 7) : State → Out := spawnOp true k c d

/-- R229: closes the core's filling bin of an entry. -/
def execBinflush (c d : BitVec 7) : State → Out :=
  deviceOp none c d [.src64 d] fun s l t =>
    let s0 := s.releaseAt (s.who l) 3
    let core := s0.issue.core
    let k := s0.coreAt core
    match k.binOf s0.issueLaunch.id (t.val64 d) false with
    | none => (s0.modLane l fun t => (t.setVal c 0).advance 4, none)
    | some (n, b) =>
      let s1 := (s0.setCore core { k with bins := sput k.bins n { b with closed := true, closedAt := s0.nextId } }).fresh
      (s1.modLane l fun t => (t.setVal c (BitVec.ofNat 32 b.threads.length)).advance 4, none)

/-- R228: the timer of a filling bin closes it. -/
def execSpawnBinTimerExpire (core bin : Nat) (s : State) : Out :=
  let k := s.coreAt core
  match sget k.bins bin with
  | none => .next s
  | some b =>
    match b.timer with
    | none => .next s
    | some t =>
      if b.closed ∨ s.now < t then .next s
      else .next (s.setCore core { k with bins := sput k.bins bin { b with closed := true, closedAt := s.nextId } }).fresh

/-- R228: the bin that closed first becomes a spawn block of its core. -/
def execSpawnBlockDispatch (core bin : Nat) (s : State) : Out :=
  let k := s.coreAt core
  match sget k.bins bin with
  | none => .next s
  | some b =>
    match s.launch? b.launch with
    | none => .next s
    | some l =>
      let first := k.bins.all fun p => !p.2.closed || decide (b.closedAt ≤ p.2.closedAt)
      let w : Want := { nthreads := b.threads.length, regs := l.rcd.regs, tags := 0 }
      match (List.range 4).find? fun o => s.coreFits core o w, l.freeSlot l.spawnWidth with
      | some off, some slot =>
        if !b.closed || !first || l.state == .preempted then .next s
        else .next ((s.setCore core { k with bins := sdel k.bins bin }).placeSpawn l ⟨b.entry, b.threads⟩ core off slot)
      | _, _ => .next s

/-! ### The end of a launch, R215, R222 -/

/-- Whether nothing of a launch is left to place or to run. -/
def State.launchOver (s : State) (l : Launch) : Bool :=
  l.state != .waiting && l.nextWork.isNone && (s.blocksOf l.id).isEmpty
    && !(s.cores.any fun p => p.2.bins.any fun b => b.2.launch == l.id)

/-- Bits of a completed launch's status. -/
def Launch.statusBits (l : Launch) : Nat :=
  1 + (if l.faulted then 2 else 0) + (if l.peerLost then 8 else 0) + (if l.recordLost then 16 else 0)

/-- R222: a launch whose work is over releases every write at `.sys`, writes its status, and completes its node. -/
def execLaunchComplete (launch : Nat) (s : State) : Out :=
  match s.launch? launch with
  | none => .next s
  | some l0 =>
    if !s.launchOver l0 then .next s
    else
      let s1 := (s.cores.map (·.1)).foldl (fun s c => s.writeBackAll c) s
      let s2 := (s1.evictAll true (s1.rdc.map (·.1))).flushDue
      let l := (s2.launch? launch).getD l0
      let s3 := s2.writeStatus l.asid l.root l.rcd.done l.rank l.id l.statusBits 0
      let s4 := { s3.giveTag l.signal 16 with launches := sdel s3.launches launch }
      .next (s4.graph (doneNodes l.queue l.rcd.node l.signal ++ [.settle l.queue]))

end Sys2Proof.Machine
end

