-- ==== Sys2Proof/Machine/ContextImage.lean ====
section
/-! DEFINITION. Pre-emption (09 R230-R232, R235): the saving of blocks, the bytes of a queue's save area, and the resumption
of a queue. -/

namespace Sys2Proof.Machine

open Sys2Proof

/-! ### The save area, R232 -/

/-- A pending spawn group: 640 bytes. -/
def SpawnGroup.bytes (g : SpawnGroup) : List Byte :=
  leOf 8 g.entry.toNat ++ leOf 1 g.threads.length ++ leOf 119 0
    ++ ((List.range 32).flatMap fun i => (List.range 4).flatMap fun k => wordBytes (nth (nth g.threads i []) k 0))

/-- A launch save record: 384 bytes. -/
def Launch.saveRecord (l : Launch) : List Byte :=
  l.raw ++ leOf (128 - l.raw.length) 0 ++ leOf 4 l.id ++ leOf 4 l.saved.length ++ leOf 8 l.next ++ leOf 4 l.pending.length ++ leOf 12 0
    ++ ((List.range 8).flatMap fun k => leOf 8 (nth l.seeds k {}).val.toNat ++ leOf 1 (nth l.seeds k {}).gen ++ leOf 7 0) ++ leOf 96 0

/-- Launches of a queue that still have blocks, spawn groups or clusters to place. -/
def State.unfinished (s : State) (qn : Nat) : List Launch :=
  (s.launches.map (·.2)).filter fun l => l.queue == qn && l.state == .preempted && l.nextWork.isSome

/-- Bytes of a launch's record and spawn groups, before its images. -/
def Launch.headBytes (l : Launch) : Nat := 384 + 640 * l.pending.length

/-- Bytes of a launch's part of the area. -/
def Launch.partBytes (l : Launch) : Nat := l.saved.foldl (fun n x => n + (sectionsOf l x.2).fin) l.headBytes

/-- Where a launch's part begins: after the header and the parts of the launches before it. -/
def State.partAt (s : State) (qn id : Nat) : Nat :=
  ((s.unfinished qn).takeWhile fun l => l.id != id).foldl (fun n l => n + l.partBytes) 128

/-- Writes those images of a launch that are not in the area, in the order in which its blocks were saved (R230). -/
def State.writeImages (s : State) (q : Queue) (id : Nat) : State :=
  match s.launch? id with
  | none => s
  | some l =>
    let out := l.saved.foldl (fun (acc : State × Nat × List (Nat × Block)) x =>
      let s1 := if x.1 = 0 then (acc.1.engineWriteSpan q.ctx (q.save + acc.2.1) (s.image l x.2)).1 else acc.1
      (s1, acc.2.1 + (sectionsOf l x.2).fin, acc.2.2 ++ [(acc.2.1, x.2)])) (s, s.partAt l.queue id + l.headBytes, [])
    out.1.modLaunch id fun x => { x with saved := out.2.2 }

/-- Ends the save of a queue whose blocks have all gone: the images that a resume had left, the records and spawn groups of its
launches, and the header; a launch with nothing left to place runs on (R231). -/
def State.writeSaveArea (s : State) (qn : Nat) (q : Queue) : State :=
  let ids := (s.unfinished qn).map (·.id)
  let s1 := ids.foldl (fun s id => s.writeImages q id) s
  let s2 := (s1.unfinished qn).foldl (fun s l =>
    (s.engineWriteSpan q.ctx (q.save + s.partAt qn l.id) (l.saveRecord ++ l.pending.flatMap SpawnGroup.bytes)).1) s1
  let size := (s2.unfinished qn).foldl (fun n l => n + l.partBytes) 128
  let s3 := (s2.engineWriteSpan q.ctx q.save (leOf 4 ids.length ++ leOf 4 0 ++ leOf 8 size ++ leOf 112 0)).1
  { s3 with
    queues := smod s3.queues qn fun q => { q with areaDone := true }
    launches := s3.launches.map fun p =>
      (p.1, if p.2.queue = qn ∧ p.2.state = .preempted ∧ p.2.nextWork.isNone then { p.2 with state := .running } else p.2) }

/-! ### Saving a block, R230, R231 -/

/-- A command that is saved with its block: held for its tick, a ring copy without a slot, a collective command. -/
def Cmd.savable (c : Cmd) : Bool := c.held || c.awaitsSlot || c.isColl

/-- Whether a block has nothing in flight but what is saved with it: no command that has started or has a slot, no access, no bytes on
their way to a tag. -/
def State.quiet (s : State) (core blk : Nat) (b : Block) : Bool :=
  let here (w : Who) : Bool := w.core == core && w.blk == blk
  let mine (c : Cmd) : Bool := c.fromBlock && c.core == core && c.blk == blk
  (s.cmds.all fun p => !(mine p.2 || p.2.peers.any fun x => x.1 == core && x.2 == blk) || (p.2.savable && mine p.2))
    && !(s.waiting.any fun c => mine c && c.slot.isSome)
    && (b.threads.all fun p => p.2.osc == 0) && !(s.loads.any fun l => here l.who) && !(s.stores.any fun x => here x.who)
    && !(s.atomics.any fun a => a.core == core && a.blk == blk)
    && !(s.arrivals.any fun a => a.launch == b.launch && a.lin == b.lin)

/-- The commands of a block. -/
def State.cmdsIn (s : State) (core blk : Nat) : List Cmd :=
  (s.cmds.map (·.2)).filter fun c => c.fromBlock && c.core == core && c.blk == blk

/-- Takes a saved block off its core, with its held commands (R230 step 5); a record that a thread of it has posted and that is not
accepted goes, as the thread executes its instruction again (R164). Its stack slots stay taken: they are the block's for all its
life (07 R175), and its image names the first; step 5 counts slots among what it frees (log entry 9). -/
def State.unplace (s : State) (core blk : Nat) : State :=
  let here (w : Who) : Bool := w.core == core && w.blk == blk
  let mine (c : Cmd) : Bool := c.fromBlock && c.core == core && c.blk == blk
  let held := s.cmdsIn core blk
  let k := s.coreAt core
  let s1 := s.setCore core { k with blocks := sdel k.blocks blk, accReqs := k.accReqs.filter fun q => q.blk != blk }
  { s1.publish here with
    queues := s1.queues.map fun p => (p.1, { p.2 with posted := p.2.posted.filter fun x => !here x.who })
    cmds := s1.cmds.filter fun p => !mine p.2
    waiting := s1.waiting.filter fun c => !mine c
    locks := s1.locks.filter fun x => !(held.any fun c => c.id == x.holder) }

/-- Whether a launch of the queue that comes before one has resident blocks: the save area is written launch by launch. -/
def State.savesLater (s : State) (qn launch : Nat) : Bool :=
  ((s.launches.takeWhile fun p => p.1 != launch).filter fun p => p.2.queue == qn).any fun p => !(s.blocksOf p.1).isEmpty

/-- R230, R233: the block's commands have drained: its image is written, then it leaves its core; with the queue's last block, the
records of the save area are written. -/
def execBlockSave (core blk : Nat) (s : State) : Out :=
  match s.block? core blk with
  | none => .next s
  | some b =>
    match (s.launch? b.launch).map (·.queue) with
    | none => .next s
    | some qn =>
      match sget s.queues qn with
      | none => .next s
      | some q =>
        if !q.preempted || !s.quiet core blk b || s.savesLater qn b.launch then .next s
        else
          let s1 := s.modLaunch b.launch fun l => { l with saved := l.saved ++ [(0, { b with held := s.cmdsIn core blk })] }
          let s2 := (s1.writeImages q b.launch).unplace core blk
          .next (if s2.queueResident qn then s2 else s2.writeSaveArea qn q)

/-- The spawn groups of a launch's part of the area. -/
def groupsOfArea : Nat → List Byte → List SpawnGroup
  | 0, _ => []
  | n + 1, bs =>
    let ts := (List.range (min 32 (fieldOf bs 8 1))).map fun i => fieldWords bs (128 + 16 * i) 4
    ⟨fieldPair bs 0, ts⟩ :: groupsOfArea n (bs.drop 640)

/-- Takes what a launch save record and its spawn groups say: the next cluster, the seeds, the groups (R232). The argument words
beyond a launch's count are none. -/
def Launch.readArea (l : Launch) (bs : List Byte) : Launch :=
  let gs := groupsOfArea l.pending.length (bs.drop 384)
  { l with
    next := fieldOf bs 136 8
    seeds := seedsOf (bs.drop 160)
    pending := (gs.zip l.pending).map fun x =>
      { x.1 with threads := (x.1.threads.zip x.2.threads).map fun y => y.1.take y.2.length } }

/-- A launch that goes on from the save area; where its record cannot be read, as it was saved (log entry 9). -/
def State.readLaunch (s : State) (q : Queue) (l : Launch) : State :=
  match s.engineReadSpan q.ctx (q.save + s.partAt l.queue l.id) l.headBytes with
  | (s1, .ok bs) => s1.modLaunch l.id fun x => x.readArea bs
  | (s1, .error _) => s1

/-- R235: a pre-empted queue goes on: its launches dispatch again, saved blocks first. Where its last block retired and was not
saved, the records of the save area come first (R231). When a queue goes on the spec leaves open: in the model, once no block of it
is resident (log entry 9); and the deadline of a launch stays that of its first dispatch (log entry 31). -/
def execQueueResume (queue : Nat) (s : State) : Out :=
  match sget s.queues queue with
  | none => .next s
  | some q =>
    if !q.preempted || s.queueResident queue then .next s
    else if !q.areaDone then .next (s.writeSaveArea queue q)
    else
      let s2 := (s.unfinished queue).foldl (fun s l => s.readLaunch q l) s
      let s3 : State :=
        { s2 with
          queues := smod s2.queues queue fun q => { q with preempted := false }
          launches := s2.launches.map fun p =>
            (p.1, if p.2.queue = queue ∧ p.2.state = .preempted then { p.2 with state := .dispatching } else p.2) }
      .next (s3.resumeKernels queue)

end Sys2Proof.Machine
end

