-- ==== Sys2Proof/Machine/Completion.lean ====
section
/-! DEFINITION. Admission of waiting commands (01 R23), and the completions that may end a node of the task graph: of copy,
kernel, sort and collective commands, with the loss of a peer (11 R267, R282; 14 R357; 15 R378, R379; 17 R399, R407-R412). -/

namespace Sys2Proof.Machine

open Sys2Proof

/-- The eight counters of a quadrant as 64 bytes. -/
def State.ctrBytes (s : State) (core q : Nat) : List Byte := (s.counters core q).flatMap fun c => leOf 8 c.toNat

/-- A snapshot command (19 R437) runs: the counters of one cycle, the write, the credit of 64 bytes. -/
def State.runSnap (s : State) (c : Cmd) : State :=
  let va := nth c.aux 0 0
  let s1 := match s.engineWriteSpan (s.ctxOf c.core c.blk) va (s.ctrBytes c.core (nth c.aux 1 0)) with
    | (s1, .ok _) => s1
    | (s1, .error e) => { s1 with due := s1.due ++ [s1.engineRecord c e.1 e.2.1 va] }
  s1.sendBytes c.core c.blk c.tag 64 c.cmdId

/-- R23: admits a waiting command whose ranges have cleared, if none issued before it waits so, and the table and its engine
have room; its lanes go on. A fixer kernel is admitted by its own event, and a block that pre-emption has stopped waits on. -/
def execRangeLockGrant (id : Nat) (s : State) : Out :=
  match s.waiting.find? fun c => c.id == id with
  | none => .next s
  | some c =>
    if (c.major = 30 ∧ c.sub = 12) ∨ s.blocked id c.locks ∨ !s.roomFor c ∨ !s.admissible c then .next s
    else
      let s0 := { s with waiting := s.waiting.filter fun x => x.id != id }
      if c.major = 27 then .next (s0.grantSign c)
      else if c.isColl then .next (s0.beginColl c)
      else if c.isKse then .next (s0.startCmd { c with begun := true })
      else
        .next (c.lanes.foldl (fun s l => s.modThr ⟨c.core, c.blk, l.1⟩ fun t =>
          if t.mode = .waiting .lock then t.release else t) (if c.major = 30 ∧ c.sub = 14 then s0.runSnap c else s0.startCmd c))

/-- What a node command's end does to its node: success, or an end with these bits of NST. -/
def nodeEnd (c : Cmd) (ok : Bool) (bits : Nat) : List Todo :=
  match c.node with
  | none => []
  | some n => if ok then [.done c.queue n] else [.ended c.queue n bits]

/-- R267, R282: a copy command that has its slot, if it needs one, completes. -/
def execCopyCommandComplete (id : Nat) (s : State) : Out :=
  match sget s.cmds id with
  | none => .next s
  | some c =>
    if c.major ≠ 25 || s.copyWaits c then .next s
    else if c.fromBlock then .next ((s.servedFor (coreRequester c.core) c.launch).completeCopy c)
    else
      let (s1, faulted) := (s.servedFor (coreRequester c.core) c.launch).completeCopyNode c
      .next (s1.graph (nodeEnd c (!faulted) 10))

/-- R357: a kernel whose instances have ended completes. -/
def execFixerKernelComplete (kernel : Nat) (s : State) : Out :=
  match sget s.kernels kernel with
  | none => .next s
  | some k =>
    if !k.ended then .next s
    else
      let (s1, ok) := (s.servedKernel k).finishKernel k
      let s2 := s1.graph (match k.signal.node with
        | some n => [if ok then .done k.queue n else .ended k.queue n 10]
        | none => [])
      match k.owner.bind fun o => s2.findLin o.1 o.2 with
      | some w => .next (s2.checkRetire w.1 w.2)
      | none => .next s2

/-- R378, R379: a sort command that has begun completes. -/
def execKseCommandComplete (id : Nat) (s : State) : Out :=
  match sget s.cmds id with
  | none => .next s
  | some c =>
    if !c.isKse || !c.begun then .next s
    else
      let (s1, ok) := (s.servedFor 0xF4 c.launch).completeKse c
      let s2 := s1.graph (nodeEnd c ok 10)
      .next (if c.fromBlock then s2.checkRetire c.core c.blk else s2)

/-- R407, R412: every rank's command has arrived. -/
def execCollectiveComplete (id : Nat) (peers : List PeerInput) (s : State) : Out :=
  match sget s.cmds id with
  | none => .next s
  | some c =>
    if !c.isColl || !c.begun then .next s
    else
      match c.inputs peers with
      | none => .next s
      | some ins =>
        let (s1, ok) := (s.servedAs 0xF5 1).completeColl c ins
        let s2 := s1.graph (nodeEnd c ok 2)
        .next (if c.fromBlock then s2.checkRetire c.core c.blk else s2)

/-! ### The loss of a peer, R399, R409 -/

/-- The collective nodes of a launch end with their peer (R409, R412). -/
def State.loseNodes (s : State) (launch rank : Nat) : State :=
  ((s.cmds.map (·.2)).filter fun c => c.isColl && c.launch == launch && !c.fromBlock).foldl (fun s c =>
    ((s.loseColl c ((s.lostFor c).getD rank)).1).graph (nodeEnd c false 2)) s

/-- A package is lost to every launch whose table names it. -/
def State.losePeer (s : State) (pkg : Nat) : State :=
  ((s.launchesWith pkg).foldl (fun s x => (s.losePeerOf x.1 x.2).loseNodes x.1.id x.2) (s.servedAs 0xF5 1))

/-- R409: a report of a peer's loss, after a reset or `cfail` there. -/
def execPeerLossReport (pkg : Nat) (s : State) : Out := .next (s.losePeer pkg)

/-- Whether a place lies in a package's window. -/
def State.peerPlace (s : State) (pkg pa : Nat) : Bool :=
  match s.kind pa with
  | .peer k _ => k == pkg
  | _ => false

/-- Whether a byte of an address space lies in a package's window. -/
def State.peerByte (s : State) (c : VCtx) (pkg va : Nat) : Bool :=
  match (s.translate c va .r).2 with
  | .ok p => s.peerPlace pkg p.pa
  | .error _ => false

/-- Whether a range lies in part in a package's window: no page is smaller than 4 KiB. -/
def State.peerSpan (s : State) (c : VCtx) (pkg lo hi : Nat) : Bool :=
  decide (lo < hi) && (List.range ((hi - 1) / 4096 - lo / 4096 + 1)).any fun i => s.peerByte c pkg (max lo ((lo / 4096 + i) * 4096))

/-- Whether an engine command that is not held has a range in a package's window. -/
def State.peerCmd (s : State) (pkg : Nat) (c : Cmd) : Bool :=
  !c.held && c.locks.any fun k => k.spans.any fun p => s.peerSpan (c.ctx s) pkg p.1 p.2

/-- Whether a collective that has begun, or an access in flight, needs a path to a package (R399). -/
def State.pathNeeded (s : State) (pkg : Nat) : Bool :=
  ((s.launchesWith pkg).any fun x => s.cmds.any fun p => p.2.isColl && p.2.begun && p.2.launch == x.1.id)
    || (s.loads.any fun l => s.peerPlace pkg (128 * l.line)) || (s.atomics.any fun a => s.peerPlace pkg a.pa)
    || (s.reds.any fun r => s.peerPlace pkg r.pa) || (s.cmds.any fun p => s.peerCmd pkg p.2)
    || s.stores.any fun x => match x.op with
      | .write pa _ => s.peerPlace pkg pa
      | .line no => s.peerPlace pkg (128 * no)
      | _ => false

/-- R399: no flit has reached a package for 10,000,000 ticks while one was needed. -/
def execPeerFlitTimeout (pkg : Nat) (s : State) : Out :=
  match sget s.linksDown pkg with
  | some t => if t + 10000000 ≤ s.now ∧ s.pathNeeded pkg then .next (s.losePeer pkg) else .next s
  | none => .next s

/-- R399: a Twineric link fails: traffic goes around it, or the package has no path from now on. -/
def execTwinericLinkFailure (pkg : Nat) (rerouted : Bool) (s : State) : Out :=
  if rerouted || (sget s.linksDown pkg).isSome then .next s else .next { s with linksDown := sput s.linksDown pkg s.now }

end Sys2Proof.Machine
end

