-- ==== Sys2Proof/Machine/GatherScatter.lean ====
section
/-! DEFINITION. The gather-scatter engine (12 R284-R303). A command's elements are classified, moved and combined when
it completes; its registers are read at issue. -/

namespace Sys2Proof.Machine

open Sys2Proof

/-! ### Descriptors, R286-R288 -/

/-- A gather-scatter descriptor. -/
structure Gs where
  sub : Nat
  cnt : Nat
  base : Nat
  lbase : Nat
  ctl : Nat
  bound : Nat
  fill : Word
  taddr : Nat
  cap : Nat
  ibase : Nat
  deriving DecidableEq, Repr

def gsOf (sub cnt : Nat) (d : List Word) : Gs :=
  { sub := sub, cnt := cnt, base := pairAt d 0, lbase := pairAt d 2, ctl := (wordAt d 4).toNat, bound := pairAt d 5,
    fill := wordAt d 7, taddr := pairAt d 8, cap := (wordAt d 10).toNat, ibase := pairAt d 11 }

def Gs.ty (g : Gs) : Nat := g.ctl / 2 ^ 18 % 16
def Gs.rop (g : Gs) : Nat := g.ctl / 2 ^ 14 % 16
def Gs.scp (g : Gs) : Nat := g.ctl / 2 ^ 11 % 8
def Gs.isz (g : Gs) : Bool := bitOf g.ctl 10
def Gs.trapf (g : Gs) : Bool := bitOf g.ctl 9
def Gs.pack (g : Gs) : Bool := bitOf g.ctl 8
def Gs.oob (g : Gs) : Nat := g.ctl / 64 % 4
def Gs.sent (g : Gs) : Bool := bitOf g.ctl 5
def Gs.lreg (g : Gs) : Bool := bitOf g.ctl 4
def Gs.esz (g : Gs) : Nat := g.ctl % 16
/-- Element size in bytes. -/
def Gs.z (g : Gs) : Nat := 2 ^ g.esz
def Gs.scatter (g : Gs) : Bool := decide (2 ≤ g.sub)
/-- Whether the indices come from memory. -/
def Gs.fromMem (g : Gs) : Bool := g.sub % 2 == 1
/-- Index width in bytes. -/
def Gs.iw (g : Gs) : Nat := if g.isz then 8 else 4
/-- Landing positions (R288). -/
def Gs.m (g : Gs) : Nat := if g.pack && !g.scatter then g.cap else g.cnt
/-- Registers of an element (R294). -/
def Gs.unit (g : Gs) : Nat := if g.esz = 3 then 2 else if g.esz = 4 then 4 else 1
def Gs.ir (g : Gs) : Nat := g.ibase % 1024
def Gs.lr (g : Gs) : Nat := g.lbase % 1024
/-- The T code of RD that TY names (R159, R287). -/
def Gs.rdType (g : Gs) : Nat := if 9 ≤ g.rop then (if g.ty = 0 then 1 else if g.ty = 1 then 0 else g.ty) else if g.esz = 3 then 1 else 0

/-- Reserved bits and values (R287, R288). -/
def Gs.reserved (g : Gs) : Bool :=
  g.ctl / 2 ^ 22 != 0 || decide (3 < g.ty) || (g.ty != 0 && !(decide (9 ≤ g.rop) && decide (g.rop ≤ 12))) || decide (13 ≤ g.rop)
    || decide (5 ≤ g.scp) || g.oob == 3 || decide (9 ≤ g.esz) || (g.isz && !g.fromMem)
    || decide (2 ^ (8 * g.iw) - 1 ≤ g.bound) || (g.lreg && g.lbase / 1024 != 0) || (!g.fromMem && g.ibase / 1024 != 0)

/-- Type combinations (R288). -/
def Gs.badType (g : Gs) : Bool :=
  (g.rop != 0 && !g.scatter) || (decide (1 ≤ g.rop) && decide (g.rop ≤ 8) && g.esz != 2 && g.esz != 3)
    || (decide (9 ≤ g.rop) && decide (g.rop ≤ 12) && !((g.ty == 0 && g.esz == 3) || (g.ty != 0 && g.esz == 2)))
    || (g.lreg && decide (4 < g.esz))

/-- Counts beyond their limits (R288). -/
def Gs.badCount (g : Gs) : Bool :=
  decide ((if !g.fromMem || g.lreg then 256 else 2 ^ 20) < g.cnt) || (g.pack && g.lreg && decide (256 < g.cap))

/-- The highest register after those of the runs. -/
def Gs.topReg (g : Gs) : Nat :=
  let a := if g.fromMem ∨ g.cnt = 0 then 0 else g.ir + (g.cnt + 31) / 32
  let b := if g.lreg && g.m != 0 then g.lr + g.unit * ((g.m + 31) / 32) else 0
  max a b

/-- The checks at issue in the order of R288, which puts types before counts and the tag last (log entry 46). -/
def Gs.check (g : Gs) (nregs : Nat) (badTag : Option (Nat × Nat)) : Option Stop :=
  let al := min g.z 128
  firstSome [stopIf g.reserved 2 0, stopIf g.badType 0x11 0x50, stopIf g.badCount 3 0x51,
    stopIf (g.lreg && g.esz == 3 && g.lr % 2 == 1) 3 3, stopIf (g.lreg && g.esz == 4 && g.lr % 4 != 0) 3 0x10,
    stopIf (decide (nregs < g.topReg)) 6 0,
    stopIf (g.base % al != 0 || (!g.lreg && g.lbase % al != 0) || (g.fromMem && g.ibase % g.iw != 0) || g.taddr % 8 != 0) 8 1,
    badTag.map plainStop]

/-- Bytes of the trailer (R292). -/
def Gs.trailerLen (g : Gs) : Nat := 64 + 8 * ((g.cnt + 63) / 64)

/-- The range-lock entries of a command (R300). -/
def Gs.locks (g : Gs) (c : VCtx) (holder : Nat) : List Lock :=
  let add (va n : Nat) (excl : Bool) : List Lock := if n = 0 then [] else [lockSpan c va n excl excl holder]
  add g.base ((if g.pack && g.scatter then g.cap else g.bound) * g.z) (g.scatter && g.rop == 0)
    ++ (if g.fromMem then add g.ibase (g.cnt * g.iw) false else [])
    ++ (if g.lreg then [] else add g.lbase ((if g.scatter then g.cnt else g.m) * g.z) (!g.scatter))
    ++ add g.taddr g.trailerLen true

/-! ### Issue, R285, R289 -/

/-- The registers that element j reads at issue: its index, then its data; none where it is skipped: an index at a helper's
rank, or one of either kind at a rank that holds no participant (R289). -/
def Gs.element (g : Gs) (ps : List (LaneRef × Thread)) (j : Nat) : Option (List Word) :=
  match ps.find? fun p => p.2.rank == j % 32 with
  | none => if g.fromMem && !(g.scatter && g.lreg) then some [] else none
  | some p =>
    if p.1.helper && !g.fromMem then none
    else
      let idx := if g.fromMem then [] else [p.2.reg (g.ir + j / 32)]
      let dat := if g.scatter && g.lreg then p.2.regRun (g.lr + g.unit * (j / 32)) g.unit else []
      some (idx ++ dat)

/-- A poisoned register among those a lane supplies. -/
def Gs.poisonOf (g : Gs) (t : Thread) : Option Stop :=
  let n := (g.cnt + 31) / 32
  let a := if g.fromMem then none else t.poisonIn g.ir n
  let b := if g.scatter && g.lreg then t.poisonIn g.lr (g.unit * n) else none
  (firstSome [a, b]).map poisonStop

/-- Settles the runs that a command reads, in every lane. -/
def State.settleGs (s : State) (g : Gs) (ls : List LaneRef) : State :=
  if (s.loads = [] ∧ s.atomics = []) then s
  else ls.foldl (fun s l =>
    if l.helper then s
    else
      let n := (g.cnt + 31) / 32
      let s1 := if g.fromMem then s else s.settleRegs (s.who l) g.ir n
      if g.lreg then s1.settleRegs (s.who l) g.lr (g.unit * ((g.m + 31) / 32)) else s1) s

/-- Issues the command of the lanes that take part, of which one at least is a thread; 32 commands in flight hold them. -/
def State.sendGs (s3 : State) (sub tag cnt : Nat) (desc : List Word) (g : Gs) (qs : List (LaneRef × Thread)) : State :=
  let live := (qs.map (·.1)).filter fun l => !l.helper
  if 32 ≤ s3.gathersOf s3.issue.core then live.foldl (fun s l => s.modLane l fun t => t.hold (.held .gathers)) s3
  else
    let s4 := live.foldl (fun s l => s.releaseAt (s.who l) 3) s3
    let k := s4.coreAt s4.issue.core
    let s5 := s4.setCore s4.issue.core { k with gseSerial := k.gseSerial + 1 }
    match qs with
    | [] => s5
    | q :: _ =>
      let base := s5.laneCmd q.1 q.2 26 sub 0 tag desc
      s5.issueCmd { base with
        cnt := BitVec.ofNat 32 cnt
        cmdId := engineId s5.issue.core k.gseSerial
        thr := (live.headD q.1).idx
        lanes := live.map fun l => (l.idx, 0)
        regs := g.lreg && !g.scatter
        words := ((List.range cnt).filterMap fun j => (g.element qs j).map fun w => (j, w)).filter fun p =>
          !(g.fromMem && !(g.scatter && g.lreg)) || p.2 != []
        locks := g.locks (s5.ctxOf s5.issue.core s5.issue.blk) base.id } live

/-- A gather or a scatter (R285). -/
def gsInstr (sub : Nat) (tag : BitVec 6) (c d : BitVec 7) (s : State) : Out :=
  let word := firstSome [descField d, (Role.src c).illegal]
  let s0 := s.settleRun s.issue.lanes d 13
  let (s1, vs) := match word with
    | some x => (s0.trapPath x.1 x.2 0 0, [])
    | none => s0.enterGroup none [.src c] fun t => (t.val c).toNat
  let (s2, ps) := s1.screen (vs.map (·.1)) fun t => runBeyond t d 13
  let keys := ps.map fun p => (p.1, (descRun p.2 d 13, (p.2.val c).toNat))
  match leader keys with
  | none => .next s2
  | some (desc, cnt) =>
    let ls := ps.map (·.1)
    if !uniform keys then .next (s2.trapLanes (ls.filter fun l => !l.helper) 0x10 0x50 0 0)
    else
      let g := gsOf sub cnt desc
      match g.check s2.issueLaunch.rcd.regs (s2.badTag tag.toNat) with
      | some e => .next (s2.stopAll ls e)
      | none =>
        let (s3, qs) := (s2.settleGs g ls).screen ls fun t => firstSome [poisonOf t [.src c], runPoison t d 13, g.poisonOf t]
        .next (if (qs.map (·.1)).all fun l => l.helper then s3 else s3.sendGs sub tag.toNat cnt desc g qs)

/-- R293: a gather with its indices in registers. -/
def execGsg (tag : BitVec 6) (c d : BitVec 7) : State → Out := gsInstr 0 tag c d
/-- R293: a gather with its indices in memory. -/
def execGsgm (tag : BitVec 6) (c d : BitVec 7) : State → Out := gsInstr 1 tag c d
/-- R295: a scatter with its indices in registers. -/
def execGss (tag : BitVec 6) (c d : BitVec 7) : State → Out := gsInstr 2 tag c d
/-- R295: a scatter with its indices in memory. -/
def execGssm (tag : BitVec 6) (c d : BitVec 7) : State → Out := gsInstr 3 tag c d

/-! ### Elements, R290, R291, R297 -/

/-- What becomes of an element: skipped, faulted with cause, subcause and detail, or an index to use. -/
inductive GsElem where
  | skip
  | fault (cause sub det : Nat)
  | use (i : Nat)
  deriving DecidableEq, Repr

def GsElem.skipped : GsElem → Bool
  | .skip => true
  | _ => false

def GsElem.faulted : GsElem → Bool
  | .fault .. => true
  | _ => false

/-- Judges an index under SENT, BOUND and OOB. -/
def Gs.judge (g : Gs) (i : Nat) : GsElem :=
  if g.sent && i == 2 ^ (8 * g.iw) - 1 then .skip
  else if i < g.bound then .use i
  else if g.oob = 2 then .skip
  else if g.oob = 0 ∨ g.bound = 0 then .fault 0x18 0x10 i
  else .use (g.bound - 1)

/-- The index of element j, judged. -/
def State.gsIndex (s : State) (ctx : VCtx) (g : Gs) (c : Cmd) (j : Nat) : State × GsElem :=
  let captured := sget c.words j
  if g.fromMem then
    if g.scatter && g.lreg && captured.isNone then
      let va := (g.ibase + j * g.iw) % 2 ^ 64
      match s.readElem ctx va g.iw with
      | (s1, .error f) => (s1, .fault f.1 f.2 va)
      | (s1, .ok _) => (s1, .skip)
    else
      let va := (g.ibase + j * g.iw) % 2 ^ 64
      match s.readElem ctx va g.iw with
      | (s1, .error f) => (s1, .fault f.1 f.2 va)
      | (s1, .ok bs) => (s1, g.judge (natOf bs))
  else
    match captured with
    | none => (s, .skip)
    | some ws => (s, g.judge (wordAt ws 0).toNat)

/-- Every element's outcome before any table access. -/
def State.gsIndices (s : State) (ctx : VCtx) (g : Gs) (c : Cmd) : State × List GsElem :=
  (List.range g.cnt).foldl (fun acc j => let r := acc.1.gsIndex ctx g c j; (r.1, acc.2 ++ [r.2])) (s, [])

/-- Survivor ranks (R297): each element with the number of unskipped elements before it. -/
def survivors (k : Nat) : List GsElem → List Nat
  | [] => []
  | e :: es => k :: survivors (if e.skipped then k else k + 1) es

/-- An element's address, formed exactly. -/
def Gs.addr (g : Gs) (pos : Nat) : Except (Nat × Nat) Nat := exactAddr ((g.base : Int) + pos * g.z)

/-- The data bytes of a scattered element. -/
def State.gsData (s : State) (ctx : VCtx) (g : Gs) (c : Cmd) (j : Nat) : State × Except (Nat × Nat) (List Byte) :=
  if g.lreg then
    let ws := (sget c.words j).getD []
    (s, .ok (((ws.drop (if g.fromMem then 0 else 1)).flatMap wordBytes).take g.z))
  else s.readElem ctx ((g.lbase + j * g.z) % 2 ^ 64) g.z

/-- A scattered element ready to leave: its address and place, its data. -/
structure GsPut where
  j : Nat
  va : Nat
  data : List Byte
  deriving DecidableEq, Repr

/-- The place of a scattered element: a store must be able to write all of it, a reduction needs its translation. -/
def State.gsTarget (s : State) (ctx : VCtx) (g : Gs) (va : Nat) : State × Option (Nat × Nat × Nat) :=
  if g.rop = 0 then
    match s.canWrite ctx va g.z with
    | (s1, .error e) => (s1, some e)
    | (s1, .ok _) => (s1, none)
  else
    match s.translate ctx va .w with
    | (s1, .error f) => (s1, some (f.1, f.2, va))
    | (s1, .ok _) => (s1, none)

/-- Checks one scattered element (R290): what leaves, or its fault. -/
def State.gsPut (s : State) (ctx : VCtx) (g : Gs) (c : Cmd) (j pos : Nat) : State × Except (Nat × Nat × Nat) GsPut :=
  match s.gsData ctx g c j with
  | (s1, .error f) => (s1, .error (f.1, f.2, (g.lbase + j * g.z) % 2 ^ 64))
  | (s1, .ok bs) =>
    match g.addr pos with
    | .error f => (s1, .error (f.1, f.2, (g.base + pos * g.z) % 2 ^ 64))
    | .ok va =>
      match s1.gsTarget ctx g va with
      | (s2, some f) => (s2, .error f)
      | (s2, none) => (s2, .ok ⟨j, va, bs⟩)

/-- What an element of a command leaves: its final outcome, what it read, what it sends. -/
structure GsDone where
  out : GsElem
  read : Option (List Byte) := none
  put : Option GsPut := none
  deriving DecidableEq, Repr

/-- Whether a survivor is discarded: beyond the pack capacity. -/
def Gs.discards (g : Gs) (k : Nat) : Bool := g.pack && decide (g.cap ≤ k)

/-- Carries one element to its table access. -/
def State.gsAccess (s : State) (ctx : VCtx) (g : Gs) (c : Cmd) (j k : Nat) (e : GsElem) : State × GsDone :=
  match e with
  | .skip => (s, ⟨.skip, none, none⟩)
  | .fault a b d => (s, ⟨.fault a b d, none, none⟩)
  | .use i =>
    if g.discards k then (s, ⟨.use i, none, none⟩)
    else if g.scatter then
      match s.gsPut ctx g c j (if g.pack then k else i) with
      | (s1, .ok p) => (s1, ⟨.use i, none, some p⟩)
      | (s1, .error f) => (s1, ⟨.fault f.1 f.2.1 f.2.2, none, none⟩)
    else
      match g.addr i with
      | .error f => (s, ⟨.fault f.1 f.2 ((g.base + i * g.z) % 2 ^ 64), none, none⟩)
      | .ok va =>
        match s.readElem ctx va g.z with
        | (s1, .ok bs) => (s1, ⟨.use i, some bs, none⟩)
        | (s1, .error f) => (s1, ⟨.fault f.1 f.2 va, none, none⟩)

/-- Every element, in ascending j. -/
def State.gsElements (s : State) (ctx : VCtx) (g : Gs) (c : Cmd) (es : List GsElem) (ks : List Nat) : State × List GsDone :=
  ((es.zip ks).zipIdx).foldl (fun acc p => let r := acc.1.gsAccess ctx g c p.2 p.1.2 p.1.1; (r.1, acc.2 ++ [r.2])) (s, [])

/-! ### Landings, R293, R294 -/

/-- The fill of an element (R291). -/
def Gs.fillBytes (g : Gs) : List Byte :=
  if g.z ≤ 4 then leOf g.z g.fill.toNat else (List.replicate (g.z / 4) (wordBytes g.fill)).flatten

/-- The landing position of an element, if it lands. -/
def Gs.landPos (g : Gs) (j k : Nat) (e : GsElem) : Option Nat :=
  if g.pack then (if e.skipped || g.discards k then none else some k) else some j

/-- The landings of a gather: position, element, bytes. -/
def Gs.landings (g : Gs) (ds : List GsDone) (ks : List Nat) : List (Nat × Nat × List Byte) :=
  ((ds.zip ks).zipIdx).filterMap fun p =>
    (g.landPos p.2 p.1.2 p.1.1.out).map fun q => (q, p.2, p.1.1.read.getD g.fillBytes)

/-- The words that a landing element gives its registers: zero-extended (R294). -/
def Gs.regWords (g : Gs) (bs : List Byte) : List Word := (List.range g.unit).map fun i => wordOf ((bs.drop (4 * i)).take 4)

/-- The registers of one rank. -/
def Gs.rankRun (g : Gs) (ls : List (Nat × Nat × List Byte)) (rank : Nat) : List Word :=
  (List.range ((g.m + 31) / 32)).flatMap fun i =>
    match ls.find? fun x => x.1 == 32 * i + rank with
    | some x => g.regWords x.2.2
    | none => List.replicate g.unit 0

/-- Lands in the registers of the issuing group. -/
def Block.landGs (b : Block) (g : Gs) (grp : Nat) (ls : List (Nat × Nat × List Byte)) : Block :=
  { b with threads := b.threads.map fun p =>
      (p.1, if p.2.live && p.2.group == grp then p.2.setRegs g.lr (g.rankRun ls p.2.rank) else p.2) }

/-- Lands in memory: the elements whose landing failed, with cause, subcause and address. -/
def State.landGsMem (s : State) (ctx : VCtx) (g : Gs) (ls : List (Nat × Nat × List Byte)) :
    State × List (Nat × Nat × Nat × Nat) :=
  ls.foldl (fun acc x =>
    let va := (g.lbase + x.1 * g.z) % 2 ^ 64
    match acc.1.writeElem ctx va x.2.2 with
    | (s1, .ok _) => (s1, acc.2)
    | (s1, .error f) => (s1, acc.2 ++ [(x.2.1, f.1, f.2, va)])) (s, [])

/-! ### Scatters and the tamp, R295, R296 -/

/-- The elements of a batch with one address, in ascending j. -/
def sameAddr (ps : List GsPut) (va : Nat) : List GsPut := ps.filter fun p => p.va == va

/-- A batch of stores: the highest j of each address. -/
def State.storeBatch (s : State) (ctx : VCtx) (ps : List GsPut) : State :=
  ((ps.map (·.va)).eraseDups).foldl (fun s va =>
    match (sameAddr ps va).getLast? with
    | some p => (s.writeElem ctx va p.data).1
    | none => s) s

/-- Combines values in order under a reduction. -/
def joinVals (op ty w : Nat) : List Nat → Nat
  | [] => 0
  | v :: vs => vs.foldl (fun m x => redCombine op ty w m x) (redEnter op ty v)

/-- Sends one reduction request and lets it merge (R296). -/
def State.sendGsRed (s : State) (ctx : VCtx) (g : Gs) (c : Cmd) (va : Nat) (vs : List Nat) : State :=
  match s.translate ctx va .w with
  | (s1, .error _) => s1
  | (s1, .ok p) =>
    let lin := ((s1.block? c.core c.blk).map (·.lin)).getD (BitVec.allOnes 64)
    let r : Red := { id := s1.nextId, core := c.core, whos := [], op := g.rop - 1, ty := g.rdType, pa := p.pa,
                     val := joinVals (g.rop - 1) g.rdType g.z vs, va := va, pc := c.cmdId, launch := c.launch, queue := c.queue, lin := lin }
    let s2 := if (sget (s1.coreAt c.core).l1 (lineOf p.pa)).isSome then s1.dropLine c.core (lineOf p.pa) else s1
    s2.fresh.arriveRed r

/-- A number put in its place among rising ones, once. -/
def insertOnce (x : Nat) : List Nat → List Nat
  | [] => [x]
  | y :: l => if x < y then x :: y :: l else if x = y then y :: l else y :: insertOnce x l

/-- A batch of reductions: the requests of a line arrive in ascending address order (14 R340). -/
def State.redBatch (s : State) (ctx : VCtx) (g : Gs) (c : Cmd) (ps : List GsPut) : State :=
  (ps.foldl (fun l p => insertOnce p.va l) []).foldl (fun s va => s.sendGsRed ctx g c va ((sameAddr ps va).map fun p => natOf p.data)) s

/-- All that a scatter sends, by batches of 256 consecutive elements. -/
def State.tamp (s : State) (ctx : VCtx) (g : Gs) (c : Cmd) (ds : List GsDone) : State :=
  (chunks 256 ds.length ds).foldl (fun s batch =>
    let ps := batch.filterMap (·.put)
    if g.rop = 0 then s.storeBatch ctx ps else s.redBatch ctx g c ps) s

/-! ### Completion, R292, R298 -/

/-- The record of an element's fault (R291). -/
def State.gsRecord (s : State) (c : Cmd) (cause sub det : Nat) : List Byte := (s.engineRecord c cause sub det).bytes

/-- The trailer's bytes (R292); `failed` says that a part of it cannot be written. -/
def Gs.trailer (g : Gs) (outs : List GsElem) (nsurv : Nat) (rec : List Byte) (failed : Bool) : List Byte :=
  let nflt := (outs.filter GsElem.faulted).length
  let nskip := (outs.filter GsElem.skipped).length
  let surv := outs.length - nskip
  let stat := 1 + (if nflt ≠ 0 ∨ failed then 2 else 0) + (if g.pack && decide (g.cap < surv) then 4 else 0) + (if nskip ≠ 0 then 8 else 0)
    + (if g.trapf then 16 else 0)
  let bits := (List.range ((g.cnt + 63) / 64 * 8)).map fun k =>
    BitVec.ofNat 8 ((List.range 8).foldl (fun n i => if (nth outs (8 * k + i) .skip).faulted then n + 2 ^ i else n) 0)
  leOf 4 stat ++ leOf 4 nsurv ++ leOf 4 nflt ++ leOf 4 nskip ++ rec ++ List.replicate 16 0 ++ bits

/-- The first faulting element's record, or zeros. -/
def State.firstRecord (s : State) (c : Cmd) (outs : List GsElem) : List Byte :=
  match outs.find? GsElem.faulted with
  | some (.fault a b d) => s.gsRecord c a b d
  | _ => List.replicate 32 0

/-- Element outcomes after failed landings (R292): each with the subcause of its own write (R123). -/
def failLandings (outs : List GsElem) (bad : List (Nat × Nat × Nat × Nat)) : List GsElem :=
  outs.zipIdx.map fun p =>
    match bad.find? fun b => b.1 == p.2 with
    | some b => if p.1.faulted then p.1 else .fault b.2.1 b.2.2.1 b.2.2.2
    | none => p.1

/-- The one record of a failed trailer or landing write. -/
def State.gsReport (s : State) (c : Cmd) (f : Option (Nat × Nat)) : State :=
  match f with
  | some (cause, va) => { s with due := s.due ++ [s.engineRecord c cause 0x20 va] }
  | none => s

/-- R298: a gather-scatter command completes: its elements, its trailer, its credit of 128 bytes. -/
def State.completeGs (s : State) (c : Cmd) : State :=
  let ctx := c.ctx s
  let g := gsOf c.sub c.cnt.toNat c.desc
  let (s1, es) := s.gsIndices ctx g c
  let ks := survivors 0 es
  let (s2, ds) := s1.gsElements ctx g c es ks
  let lands := if g.scatter then [] else g.landings ds ks
  let (s3, bad) := if g.scatter then (s2.tamp ctx g c ds, [])
    else if g.lreg then (s2.modBlock c.core c.blk fun b => b.landGs g c.grp lands, [])
    else s2.landGsMem ctx g lands
  let outs0 := ds.map (·.out)
  let outs := failLandings outs0 bad
  let nskip := (outs.filter GsElem.skipped).length
  let nflt := (outs.filter GsElem.faulted).length
  let nsurv := if g.pack then g.cnt - nskip else g.cnt - nskip - nflt
  let (s4, r) := s3.canWrite ctx g.taddr g.trailerLen
  let tr := g.trailer outs nsurv (s4.firstRecord c outs) r.toOption.isNone
  let s5 := (s4.writePieces ctx g.taddr (lineCuts (tr.length / 128 + 2) g.taddr tr.length) 0 8 tr).1.gsReport c (match bad with
    | b :: _ => some (b.2.1, b.2.2.2)
    | [] => match r with
      | .ok _ => none
      | .error e => some (e.1, e.2.2))
  (s5.endCmd c 128).checkRetire c.core c.blk

/-- R298. -/
def execGseCommandComplete (id : Nat) (s : State) : Out :=
  match sget s.cmds id with
  | none => .next s
  | some c => if c.major = 26 then .next ((s.servedFor 0xF1 c.launch).completeGs c) else .next s

/-! ### Waits, R299 -/

/-- The trailer as a lane reads it: STAT and NFLT at a scope. -/
def State.readTrailer (s : State) (m : BitVec 2) (l : LaneRef) (va : Nat) : State × Except Stop (Nat × Nat) :=
  let w := s.who l
  if va % 4 ≠ 0 then (s, .error (memStop va 4 false false (8, 1)))
  else
    match s.access w va 4 .r false (sizedAt (tagScope m)) with
    | (s1, .error e) => (s1, .error e)
    | (s1, .ok p) =>
      let (s2, bs, bad) := (s1.noteSize w p 4 (sizedAt (tagScope m))).loadAs w p 4 0 (tagScope m)
      if bad then (s2, .error (memStop va 4 false false (0x0D, 1)))
      else
        match s2.engineReadSpan (s2.ctxOf w.core w.blk) (va + 8) 4 with
        | (s3, .ok nb) => (s3, .ok (natOf bs, natOf nb))
        | (s3, .error _) => (s3, .ok (natOf bs, 0))

/-- A lane that sees its tag ready: it reads STAT, which traps in trap-on-fault mode or goes to Cnt. -/
def State.gsSeen (s : State) (m : BitVec 2) (c d : BitVec 7) (l : LaneRef) (t : Thread) : LaneOut :=
  let va := (t.val64 d).toNat
  match (s.acquireAt (s.who l) (tagScope m)).readTrailer m l va with
  | (s1, .error e) => (s1, some e)
  | (s1, .ok (st, nflt)) =>
    if bitOf st 1 && bitOf st 4 then (s1, some (.trap 0x1B 0 (BitVec.ofNat 64 va) (BitVec.ofNat 32 nflt)))
    else (s1.modLane l fun t => (t.setVal c (BitVec.ofNat 32 st)).advance 4, none)

/-- The checks shared by `gswt` and `gspoll`; a helper's Cnt becomes 0. -/
def gsWaiting (m : BitVec 2) (tag : BitVec 6) (c d : BitVec 7) (idle : State → LaneRef → Thread → LaneOut) : State → Out :=
  wordCheck (if m.toNat = 3 then some (2, 0) else firstSome [descField d, cntDest c])
    fun s => .next (s.lanes fun s0 l t0 =>
      let s := s0.settleRoles l t0 [.dst c, .src64 d]
      let t := (s.lane? l).getD t0
      match firstRanked [if l.helper then none else (s.badTag tag.toNat).map plainStop, checkEntry t [.dst c, .src64 d]] with
      | some e => (s, some e)
      | none =>
        if l.helper then (s.setLane l ((t.setVal c 0).advance 4), none)
        else
          match poisonOf t [.src64 d], s.block? s.issue.core s.issue.blk with
          | some e, _ => (s, some (rankPoison e (match (s.readTrailer m l (t.val64 d).toNat).2 with | .error x => some x | .ok _ => none)))
          | none, none => (s, none)
          | none, some b => if (b.tagAt tag.toNat).ready then s.gsSeen m c d l t else idle s l t)

/-- R299: waits on the tag, then reads the trailer. -/
def execGswt (m : BitVec 2) (tag : BitVec 6) (c d : BitVec 7) : State → Out :=
  gsWaiting m tag c d fun s l t => (s.setLane l (t.hold (.gswt tag.toNat)), none)

/-- R299: polls the tag. -/
def execGspoll (m : BitVec 2) (tag : BitVec 6) (c d : BitVec 7) : State → Out :=
  gsWaiting m tag c d fun s l t => (s.setLane l ((t.setVal c 0).advance 4), none)

end Sys2Proof.Machine
end

