-- ==== Sys2Proof/Decode.lean ====
section
/-! DEFINITION. Decoding and encoding (04 R67, R71, R73, R79; 14 R346): each test and each field place is
the row of the opcode table. A word of a Densil program is rejected as unassigned (cause 0x01) or as having a
reserved field (cause 0x02), R70. -/

namespace Sys2Proof

/-- Bits [lo + wd - 1 : lo] of a word, as a number. -/
def fld (w lo wd : Nat) : Nat := w / 2 ^ lo % 2 ^ wd

/-- Bits [lo + wd - 1 : lo] of a word, as a field. -/
def bf (w lo wd : Nat) : BitVec wd := BitVec.ofNat wd (w / 2 ^ lo)

/-- Why bytes are no instruction: they end early; an unassigned major or minor (cause 0x01, R79); a nonzero reserved field (cause
0x02, R70); or a tflush whose Dsc field is a latch or another constant than zero (cause 0x03, subcause 0x20, 19 R437). -/
inductive Reject where
  | tooShort
  | unassigned (w : Word)
  | reserved (w : Word)
  | descriptor (w : Word)
  deriving DecidableEq, Repr

/-- The 16-bit form, R71, R72: every value with bit 0 clear is an instruction. -/
def decode16 (w : Nat) : Option Instr :=
  if fld w 0 5 = 0 then some (.mov16 (bf w 15 1) (bf w 10 5) (bf w 5 5)) else
  if fld w 0 5 = 2 then some (.iadd16 (bf w 15 1) (bf w 10 5) (bf w 5 5)) else
  if fld w 0 5 = 4 then some (.isub16 (bf w 15 1) (bf w 10 5) (bf w 5 5)) else
  if fld w 0 5 = 6 then some (.imul16 (bf w 15 1) (bf w 10 5) (bf w 5 5)) else
  if fld w 0 5 = 8 then some (.and16 (bf w 15 1) (bf w 10 5) (bf w 5 5)) else
  if fld w 0 5 = 10 then some (.or16 (bf w 15 1) (bf w 10 5) (bf w 5 5)) else
  if fld w 0 5 = 12 then some (.xor16 (bf w 15 1) (bf w 10 5) (bf w 5 5)) else
  if fld w 0 5 = 14 then some (.shl16 (bf w 15 1) (bf w 10 5) (bf w 5 5)) else
  if fld w 0 5 = 16 then some (.shr16 (bf w 15 1) (bf w 10 5) (bf w 5 5)) else
  if fld w 0 5 = 18 then some (.sar16 (bf w 15 1) (bf w 10 5) (bf w 5 5)) else
  if fld w 0 5 = 20 then some (.fadd16 (bf w 15 1) (bf w 10 5) (bf w 5 5)) else
  if fld w 0 5 = 22 then some (.fsub16 (bf w 15 1) (bf w 10 5) (bf w 5 5)) else
  if fld w 0 5 = 24 then some (.fmul16 (bf w 15 1) (bf w 10 5) (bf w 5 5)) else
  if fld w 0 5 = 26 then some (.fmin16 (bf w 15 1) (bf w 10 5) (bf w 5 5)) else
  if fld w 0 5 = 28 then some (.fmax16 (bf w 15 1) (bf w 10 5) (bf w 5 5)) else
  if fld w 0 5 = 30 then some (.fmac16 (bf w 15 1) (bf w 10 5) (bf w 5 5)) else
  none

/-- Major 0, IA (R79). -/
def decodeIA (w : Nat) : Option Instr :=
  if fld w 27 4 = 0 then some (.mov (bf w 31 1) (bf w 20 7) (bf w 13 7) (bf w 6 7)) else
  if fld w 27 4 = 1 then some (.iadd (bf w 31 1) (bf w 20 7) (bf w 13 7) (bf w 6 7)) else
  if fld w 27 4 = 2 then some (.isub (bf w 31 1) (bf w 20 7) (bf w 13 7) (bf w 6 7)) else
  if fld w 27 4 = 3 then some (.imul (bf w 31 1) (bf w 20 7) (bf w 13 7) (bf w 6 7)) else
  if fld w 27 4 = 4 then some (.and (bf w 31 1) (bf w 20 7) (bf w 13 7) (bf w 6 7)) else
  if fld w 27 4 = 5 then some (.or (bf w 31 1) (bf w 20 7) (bf w 13 7) (bf w 6 7)) else
  if fld w 27 4 = 6 then some (.xor (bf w 31 1) (bf w 20 7) (bf w 13 7) (bf w 6 7)) else
  if fld w 27 4 = 7 then some (.shl (bf w 31 1) (bf w 20 7) (bf w 13 7) (bf w 6 7)) else
  if fld w 27 4 = 8 then some (.shr (bf w 31 1) (bf w 20 7) (bf w 13 7) (bf w 6 7)) else
  if fld w 27 4 = 9 then some (.sar (bf w 31 1) (bf w 20 7) (bf w 13 7) (bf w 6 7)) else
  if fld w 27 4 = 10 then some (.iminS32 (bf w 31 1) (bf w 20 7) (bf w 13 7) (bf w 6 7)) else
  if fld w 27 4 = 11 then some (.imaxS32 (bf w 31 1) (bf w 20 7) (bf w 13 7) (bf w 6 7)) else
  if fld w 27 4 = 12 then some (.iminN32 (bf w 31 1) (bf w 20 7) (bf w 13 7) (bf w 6 7)) else
  if fld w 27 4 = 13 then some (.imaxN32 (bf w 31 1) (bf w 20 7) (bf w 13 7) (bf w 6 7)) else
  none

/-- Major 1, IB (R79). -/
def decodeIB (w : Nat) : Option Instr :=
  if fld w 27 4 = 0 then some (.iaddB64 (bf w 31 1) (bf w 20 7) (bf w 13 7) (bf w 6 7)) else
  if fld w 27 4 = 1 then some (.isubB64 (bf w 31 1) (bf w 20 7) (bf w 13 7) (bf w 6 7)) else
  if fld w 27 4 = 2 then some (.imulwS32 (bf w 31 1) (bf w 20 7) (bf w 13 7) (bf w 6 7)) else
  if fld w 27 4 = 3 then some (.imulwN32 (bf w 31 1) (bf w 20 7) (bf w 13 7) (bf w 6 7)) else
  if fld w 27 4 = 4 then some (.shlB64 (bf w 31 1) (bf w 20 7) (bf w 13 7) (bf w 6 7)) else
  if fld w 27 4 = 5 then some (.shrB64 (bf w 31 1) (bf w 20 7) (bf w 13 7) (bf w 6 7)) else
  if fld w 27 4 = 6 then some (.bfxS32 (bf w 31 1) (bf w 20 7) (bf w 13 7) (bf w 6 7)) else
  if fld w 27 4 = 7 then some (.bfxN32 (bf w 31 1) (bf w 20 7) (bf w 13 7) (bf w 6 7)) else
  if fld w 27 4 = 8 then some (.bfiB32 (bf w 31 1) (bf w 20 7) (bf w 13 7) (bf w 6 7)) else
  if fld w 20 11 = 1276 then some (.popcB32 (bf w 31 1) (bf w 13 7) (bf w 6 7)) else
  none

/-- Major 2, II (R79). -/
def decodeII (w : Nat) : Option Instr :=
  if fld w 20 3 = 0 then some (.iaddImm (bf w 23 9) (bf w 13 7) (bf w 6 7)) else
  if fld w 20 3 = 1 then some (.imulImm (bf w 23 9) (bf w 13 7) (bf w 6 7)) else
  if fld w 20 3 = 2 then some (.andImm (bf w 23 9) (bf w 13 7) (bf w 6 7)) else
  if fld w 20 3 = 3 then some (.orImm (bf w 23 9) (bf w 13 7) (bf w 6 7)) else
  if fld w 20 3 = 4 then some (.xorImm (bf w 23 9) (bf w 13 7) (bf w 6 7)) else
  if fld w 20 3 = 5 then some (.shlImm (bf w 23 9) (bf w 13 7) (bf w 6 7)) else
  if fld w 20 3 = 6 then some (.shrImm (bf w 23 9) (bf w 13 7) (bf w 6 7)) else
  if fld w 20 3 = 7 then some (.sarImm (bf w 23 9) (bf w 13 7) (bf w 6 7)) else
  none

/-- Major 3, MC (R79). -/
def decodeMC (w : Nat) : Option Instr :=
  if fld w 13 1 = 0 then some (.mvk (bf w 14 18) (bf w 6 7)) else
  if fld w 13 1 = 1 then some (.mvkh (bf w 14 18) (bf w 6 7)) else
  none

/-- Major 4, FS (R79). -/
def decodeFS (w : Nat) : Option Instr :=
  if fld w 27 4 = 0 then some (.fadd (bf w 31 1) (bf w 20 7) (bf w 13 7) (bf w 6 7)) else
  if fld w 27 4 = 1 then some (.fsub (bf w 31 1) (bf w 20 7) (bf w 13 7) (bf w 6 7)) else
  if fld w 27 4 = 2 then some (.fmul (bf w 31 1) (bf w 20 7) (bf w 13 7) (bf w 6 7)) else
  if fld w 27 4 = 3 then some (.fmin (bf w 31 1) (bf w 20 7) (bf w 13 7) (bf w 6 7)) else
  if fld w 27 4 = 4 then some (.fmax (bf w 31 1) (bf w 20 7) (bf w 13 7) (bf w 6 7)) else
  if fld w 27 4 = 5 then some (.fdiv (bf w 31 1) (bf w 20 7) (bf w 13 7) (bf w 6 7)) else
  if fld w 20 11 = 892 then some (.frint (bf w 31 1) (bf w 13 7) (bf w 6 7)) else
  if fld w 27 4 = 7 then some (.fsgnj (bf w 31 1) (bf w 20 7) (bf w 13 7) (bf w 6 7)) else
  none

/-- Major 5, FD (R79). -/
def decodeFD (w : Nat) : Option Instr :=
  if fld w 27 4 = 0 then some (.faddF64 (bf w 31 1) (bf w 20 7) (bf w 13 7) (bf w 6 7)) else
  if fld w 27 4 = 1 then some (.fmulF64 (bf w 31 1) (bf w 20 7) (bf w 13 7) (bf w 6 7)) else
  if fld w 27 4 = 2 then some (.fdivF64 (bf w 31 1) (bf w 20 7) (bf w 13 7) (bf w 6 7)) else
  if fld w 20 11 = 508 then some (.fsqrtF64 (bf w 31 1) (bf w 13 7) (bf w 6 7)) else
  if fld w 27 4 = 4 then some (.fminF64 (bf w 31 1) (bf w 20 7) (bf w 13 7) (bf w 6 7)) else
  if fld w 27 4 = 5 then some (.fmaxF64 (bf w 31 1) (bf w 20 7) (bf w 13 7) (bf w 6 7)) else
  none

/-- Major 6, FK (R79). -/
def decodeFK (w : Nat) : Option Instr :=
  if fld w 27 4 = 0 then some (.faddF16 (bf w 31 1) (bf w 20 7) (bf w 13 7) (bf w 6 7)) else
  if fld w 27 4 = 1 then some (.fmulF16 (bf w 31 1) (bf w 20 7) (bf w 13 7) (bf w 6 7)) else
  if fld w 27 4 = 2 then some (.fmaxF16 (bf w 31 1) (bf w 20 7) (bf w 13 7) (bf w 6 7)) else
  if fld w 27 4 = 3 then some (.faddBf16 (bf w 31 1) (bf w 20 7) (bf w 13 7) (bf w 6 7)) else
  if fld w 27 4 = 4 then some (.fmulBf16 (bf w 31 1) (bf w 20 7) (bf w 13 7) (bf w 6 7)) else
  if fld w 27 4 = 5 then some (.fmaxBf16 (bf w 31 1) (bf w 20 7) (bf w 13 7) (bf w 6 7)) else
  none

/-- Major 7, FM (R79). -/
def decodeFM (w : Nat) : Option Instr :=
  if fld w 27 2 = 0 then some (.fmaF32 (bf w 31 1) (bf w 30 1) (bf w 29 1) (bf w 20 7) (bf w 13 7) (bf w 6 7)) else
  if fld w 27 2 = 1 then some (.fmaF64 (bf w 31 1) (bf w 30 1) (bf w 29 1) (bf w 20 7) (bf w 13 7) (bf w 6 7)) else
  if fld w 27 2 = 2 then some (.fmaF16x2 (bf w 31 1) (bf w 30 1) (bf w 29 1) (bf w 20 7) (bf w 13 7) (bf w 6 7)) else
  if fld w 27 2 = 3 then some (.fmaBf16x2 (bf w 31 1) (bf w 30 1) (bf w 29 1) (bf w 20 7) (bf w 13 7) (bf w 6 7)) else
  none

/-- Major 8, CP (R79). -/
def decodeCP (w : Nat) : Option Instr :=
  if fld w 26 4 = 0 then some (.ceq (bf w 30 2) (bf w 19 7) (bf w 12 7) (bf w 6 6)) else
  if fld w 26 4 = 1 then some (.cne (bf w 30 2) (bf w 19 7) (bf w 12 7) (bf w 6 6)) else
  if fld w 26 4 = 2 then some (.clt (bf w 30 2) (bf w 19 7) (bf w 12 7) (bf w 6 6)) else
  if fld w 26 4 = 3 then some (.cle (bf w 30 2) (bf w 19 7) (bf w 12 7) (bf w 6 6)) else
  if fld w 26 4 = 4 then some (.cgt (bf w 30 2) (bf w 19 7) (bf w 12 7) (bf w 6 6)) else
  if fld w 26 4 = 5 then some (.cge (bf w 30 2) (bf w 19 7) (bf w 12 7) (bf w 6 6)) else
  if fld w 26 4 = 6 ∧ fld w 31 1 = 1 then some (.cord (bf w 30 1) (bf w 19 7) (bf w 12 7) (bf w 6 6)) else
  if fld w 26 4 = 7 ∧ fld w 31 1 = 1 then some (.cuno (bf w 30 1) (bf w 19 7) (bf w 12 7) (bf w 6 6)) else
  if fld w 26 4 = 8 ∧ fld w 31 1 = 1 then some (.cueq (bf w 30 1) (bf w 19 7) (bf w 12 7) (bf w 6 6)) else
  if fld w 26 4 = 9 ∧ fld w 31 1 = 1 then some (.cune (bf w 30 1) (bf w 19 7) (bf w 12 7) (bf w 6 6)) else
  if fld w 26 4 = 10 ∧ fld w 31 1 = 1 then some (.cult (bf w 30 1) (bf w 19 7) (bf w 12 7) (bf w 6 6)) else
  if fld w 26 4 = 11 ∧ fld w 31 1 = 1 then some (.cule (bf w 30 1) (bf w 19 7) (bf w 12 7) (bf w 6 6)) else
  if fld w 26 4 = 12 ∧ fld w 31 1 = 1 then some (.cugt (bf w 30 1) (bf w 19 7) (bf w 12 7) (bf w 6 6)) else
  if fld w 26 4 = 13 ∧ fld w 31 1 = 1 then some (.cuge (bf w 30 1) (bf w 19 7) (bf w 12 7) (bf w 6 6)) else
  if fld w 26 4 = 14 then some (.ctrue (bf w 30 2) (bf w 19 7) (bf w 12 7) (bf w 6 6)) else
  if fld w 26 4 = 15 then some (.cfalse (bf w 30 2) (bf w 19 7) (bf w 12 7) (bf w 6 6)) else
  none

/-- Major 9, PL (R79). -/
def decodePL (w : Nat) : Option Instr :=
  if fld w 28 4 = 0 then some (.plop (bf w 24 4) (bf w 18 6) (bf w 12 6) (bf w 6 6)) else
  if fld w 28 4 = 1 then some (.pland (bf w 24 4) (bf w 18 6) (bf w 12 6) (bf w 6 6)) else
  if fld w 28 4 = 2 then some (.plor (bf w 24 4) (bf w 18 6) (bf w 12 6) (bf w 6 6)) else
  if fld w 28 4 = 3 then some (.plxor (bf w 24 4) (bf w 18 6) (bf w 12 6) (bf w 6 6)) else
  none

/-- Major 10, SL (R79). -/
def decodeSL (w : Nat) : Option Instr :=
  some (.sel (bf w 31 1) (bf w 27 4) (bf w 20 7) (bf w 13 7) (bf w 6 7))

/-- Major 11, SF (R79). -/
def decodeSF (w : Nat) : Option Instr :=
  if fld w 20 11 = 124 then some (.exp2 (bf w 31 1) (bf w 13 7) (bf w 6 7)) else
  if fld w 20 11 = 252 then some (.log2 (bf w 31 1) (bf w 13 7) (bf w 6 7)) else
  if fld w 20 11 = 380 then some (.rcp (bf w 31 1) (bf w 13 7) (bf w 6 7)) else
  if fld w 20 11 = 508 then some (.rsq (bf w 31 1) (bf w 13 7) (bf w 6 7)) else
  if fld w 20 11 = 636 then some (.sqrt (bf w 31 1) (bf w 13 7) (bf w 6 7)) else
  if fld w 20 11 = 764 then some (.sin (bf w 31 1) (bf w 13 7) (bf w 6 7)) else
  if fld w 20 11 = 892 then some (.cos (bf w 31 1) (bf w 13 7) (bf w 6 7)) else
  if fld w 20 11 = 1020 then some (.tanh (bf w 31 1) (bf w 13 7) (bf w 6 7)) else
  none

/-- Major 12, SY (R79). -/
def decodeSY (w : Nat) : Option Instr :=
  if fld w 25 7 = 0 then some (.movs (bf w 13 12) (bf w 6 7)) else
  if fld w 25 7 = 1 then some (.sets (bf w 13 12) (bf w 6 7)) else
  if fld w 6 7 = 0 ∧ fld w 25 7 = 2 then some (.setwb (bf w 13 12)) else
  if fld w 6 7 = 0 ∧ fld w 25 7 = 3 then some (.xset (bf w 23 2) (bf w 13 10)) else
  if fld w 6 7 = 0 ∧ fld w 25 7 = 4 then some (.xadd (bf w 23 2) (bf w 13 10)) else
  if fld w 6 26 = 2621440 then some (.nop) else
  if fld w 6 7 = 0 ∧ fld w 18 14 = 768 then some (.fence (bf w 16 2) (bf w 13 3)) else
  if fld w 6 7 = 0 ∧ fld w 25 7 = 7 then some (.oswait (bf w 13 12)) else
  if fld w 25 7 = 8 then some (.rcflush (bf w 13 12) (bf w 6 7)) else
  if fld w 25 7 = 9 then some (.tmark (bf w 13 12) (bf w 6 7)) else
  if fld w 6 26 = 5242880 then some (.tsmp) else
  none

/-- Major 13, BR (R79). -/
def decodeBR (w : Nat) : Option Instr :=
  some (.br (bf w 14 18) (bf w 13 1) (bf w 7 6) (bf w 6 1))

/-- Major 14, CL (R79). -/
def decodeCL (w : Nat) : Option Instr :=
  some (.call (bf w 7 25) (bf w 6 1))

/-- Major 15, CT (R79). -/
def decodeCT (w : Nat) : Option Instr :=
  if fld w 14 18 = 0 then some (.calli (bf w 13 1) (bf w 6 7)) else
  if fld w 14 18 = 2048 then some (.jmpi (bf w 13 1) (bf w 6 7)) else
  if fld w 6 7 = 0 ∧ fld w 14 18 = 4096 then some (.ret (bf w 13 1)) else
  if fld w 6 7 = 0 ∧ fld w 21 11 = 48 then some (.trap (bf w 13 8)) else
  if fld w 6 26 = 2097152 then some (.trapret) else
  if fld w 6 26 = 2621440 then some (.exit) else
  if fld w 6 26 = 3145728 then some (.yield) else
  none

/-- Major 16, LP (R79). -/
def decodeLP (w : Nat) : Option Instr :=
  if fld w 6 4 = 0 then some (.loop (bf w 19 13) (bf w 12 7) (bf w 10 2)) else
  if fld w 6 4 = 1 then some (.loopi (bf w 19 13) (bf w 12 7) (bf w 10 2)) else
  if fld w 6 4 = 2 ∧ fld w 12 20 = 0 then some (.lbrk (bf w 10 2)) else
  if fld w 6 4 = 3 ∧ fld w 12 20 = 0 then some (.lcont (bf w 10 2)) else
  none

/-- Major 17, SN (R79). -/
def decodeSN (w : Nat) : Option Instr :=
  if fld w 6 26 = 0 then some (.bar) else
  if fld w 17 15 = 256 then some (.cvarm (bf w 13 4) (bf w 6 7)) else
  if fld w 6 7 = 0 ∧ fld w 17 15 = 512 then some (.cvsign (bf w 13 4)) else
  if fld w 6 7 = 0 ∧ fld w 17 15 = 513 then some (.cvsync (bf w 13 4)) else
  if fld w 6 7 = 0 ∧ fld w 17 15 = 768 then some (.cvwait (bf w 13 4)) else
  none

/-- Major 18, XA (R79). -/
def decodeXA (w : Nat) : Option Instr :=
  if fld w 27 4 = 0 then some (.shflIdx (bf w 31 1) (bf w 20 7) (bf w 13 7) (bf w 6 7)) else
  if fld w 27 4 = 1 then some (.shflUp (bf w 31 1) (bf w 20 7) (bf w 13 7) (bf w 6 7)) else
  if fld w 27 4 = 2 then some (.shflDn (bf w 31 1) (bf w 20 7) (bf w 13 7) (bf w 6 7)) else
  if fld w 27 4 = 3 then some (.shflXor (bf w 31 1) (bf w 20 7) (bf w 13 7) (bf w 6 7)) else
  if fld w 22 9 = 128 then some (.qxchXor (bf w 31 1) (bf w 20 2) (bf w 13 7) (bf w 6 7)) else
  if fld w 22 9 = 129 then some (.qxchBc (bf w 31 1) (bf w 20 2) (bf w 13 7) (bf w 6 7)) else
  if fld w 20 11 = 640 then some (.gqMask (bf w 31 1) (bf w 13 7) (bf w 6 7)) else
  if fld w 20 11 = 641 then some (.gqEvery (bf w 31 1) (bf w 13 7) (bf w 6 7)) else
  if fld w 20 11 = 642 then some (.gqSome (bf w 31 1) (bf w 13 7) (bf w 6 7)) else
  if fld w 20 11 = 643 then some (.gqSame (bf w 31 1) (bf w 13 7) (bf w 6 7)) else
  if fld w 20 11 = 768 then some (.peersB32 (bf w 31 1) (bf w 13 7) (bf w 6 7)) else
  if fld w 20 11 = 769 then some (.peersB64 (bf w 31 1) (bf w 13 7) (bf w 6 7)) else
  if fld w 23 8 = 112 then some (.bflyS64 (bf w 31 1) (bf w 20 3) (bf w 13 7) (bf w 6 7)) else
  none

/-- Major 19, XB (R79). -/
def decodeXB (w : Nat) : Option Instr :=
  if fld w 20 11 = 0 then some (.scanAdd (bf w 31 1) (bf w 13 7) (bf w 6 7)) else
  if fld w 20 11 = 1 then some (.scanFadd (bf w 31 1) (bf w 13 7) (bf w 6 7)) else
  if fld w 20 11 = 2 then some (.scanMax (bf w 31 1) (bf w 13 7) (bf w 6 7)) else
  if fld w 20 11 = 3 then some (.scanMin (bf w 31 1) (bf w 13 7) (bf w 6 7)) else
  if fld w 20 11 = 4 then some (.scanxAdd (bf w 31 1) (bf w 13 7) (bf w 6 7)) else
  if fld w 20 11 = 5 then some (.scanxFadd (bf w 31 1) (bf w 13 7) (bf w 6 7)) else
  if fld w 20 11 = 6 then some (.scanxMax (bf w 31 1) (bf w 13 7) (bf w 6 7)) else
  if fld w 20 11 = 7 then some (.scanxMin (bf w 31 1) (bf w 13 7) (bf w 6 7)) else
  if fld w 20 11 = 128 then some (.gredAdd (bf w 31 1) (bf w 13 7) (bf w 6 7)) else
  if fld w 20 11 = 129 then some (.gredFadd (bf w 31 1) (bf w 13 7) (bf w 6 7)) else
  if fld w 20 11 = 130 then some (.gredMax (bf w 31 1) (bf w 13 7) (bf w 6 7)) else
  if fld w 20 11 = 131 then some (.gredMin (bf w 31 1) (bf w 13 7) (bf w 6 7)) else
  if fld w 27 4 = 2 then some (.cmpct (bf w 31 1) (bf w 20 7) (bf w 13 7) (bf w 6 7)) else
  if fld w 6 26 = 6291456 then some (.regroup) else
  if fld w 20 11 = 636 then some (.remap (bf w 31 1) (bf w 13 7) (bf w 6 7)) else
  if fld w 27 4 = 5 then some (.expand (bf w 31 1) (bf w 20 7) (bf w 13 7) (bf w 6 7)) else
  none

/-- Major 20, CV (R79). -/
def decodeCV (w : Nat) : Option Instr :=
  if fld w 27 4 = 0 then some (.cvt (bf w 31 1) (bf w 20 7) (bf w 13 7) (bf w 6 7)) else
  if fld w 27 4 = 1 then some (.qnt (bf w 31 1) (bf w 20 7) (bf w 13 7) (bf w 6 7)) else
  if fld w 27 4 = 2 then some (.dqnt (bf w 31 1) (bf w 20 7) (bf w 13 7) (bf w 6 7)) else
  if fld w 27 4 = 3 then some (.qscl (bf w 31 1) (bf w 20 7) (bf w 13 7) (bf w 6 7)) else
  if fld w 27 4 = 4 then some (.rot (bf w 31 1) (bf w 20 7) (bf w 13 7) (bf w 6 7)) else
  if fld w 27 4 = 5 then some (.irot (bf w 31 1) (bf w 20 7) (bf w 13 7) (bf w 6 7)) else
  if fld w 23 8 = 96 then some (.seed (bf w 31 1) (bf w 20 3) (bf w 13 7) (bf w 6 7)) else
  if fld w 23 8 = 112 then some (.seedr (bf w 31 1) (bf w 20 3) (bf w 13 7) (bf w 6 7)) else
  if fld w 20 11 = 1148 then some (.tagmk (bf w 31 1) (bf w 13 7) (bf w 6 7)) else
  if fld w 23 8 = 144 then some (.sgen (bf w 31 1) (bf w 20 3) (bf w 13 7) (bf w 6 7)) else
  none

/-- Major 21, LD (R79). -/
def decodeLD (w : Nat) : Option Instr :=
  if fld w 20 3 = 0 then some (.ldN8 (bf w 28 4) (bf w 25 3) (bf w 23 2) (bf w 13 7) (bf w 6 7)) else
  if fld w 20 3 = 1 then some (.ldS8 (bf w 28 4) (bf w 25 3) (bf w 23 2) (bf w 13 7) (bf w 6 7)) else
  if fld w 20 3 = 2 then some (.ldN16 (bf w 28 4) (bf w 25 3) (bf w 23 2) (bf w 13 7) (bf w 6 7)) else
  if fld w 20 3 = 3 then some (.ldS16 (bf w 28 4) (bf w 25 3) (bf w 23 2) (bf w 13 7) (bf w 6 7)) else
  if fld w 20 3 = 4 then some (.ldB32 (bf w 28 4) (bf w 25 3) (bf w 23 2) (bf w 13 7) (bf w 6 7)) else
  if fld w 20 3 = 5 then some (.ldB64 (bf w 28 4) (bf w 25 3) (bf w 23 2) (bf w 13 7) (bf w 6 7)) else
  if fld w 20 3 = 6 then some (.ldB128 (bf w 28 4) (bf w 25 3) (bf w 23 2) (bf w 13 7) (bf w 6 7)) else
  if fld w 6 7 = 124 ∧ fld w 20 8 = 7 then some (.prf (bf w 28 4) (bf w 13 7)) else
  none

/-- Major 22, ST (R79). -/
def decodeST (w : Nat) : Option Instr :=
  if fld w 20 3 = 0 then some (.stB8 (bf w 28 4) (bf w 25 3) (bf w 23 2) (bf w 13 7) (bf w 6 7)) else
  if fld w 20 3 = 1 then some (.stB16 (bf w 28 4) (bf w 25 3) (bf w 23 2) (bf w 13 7) (bf w 6 7)) else
  if fld w 20 3 = 2 then some (.stB32 (bf w 28 4) (bf w 25 3) (bf w 23 2) (bf w 13 7) (bf w 6 7)) else
  if fld w 20 3 = 3 then some (.stB64 (bf w 28 4) (bf w 25 3) (bf w 23 2) (bf w 13 7) (bf w 6 7)) else
  if fld w 20 3 = 4 then some (.stB128 (bf w 28 4) (bf w 25 3) (bf w 23 2) (bf w 13 7) (bf w 6 7)) else
  if fld w 6 7 = 124 ∧ fld w 20 3 = 5 ∧ fld w 24 1 = 0 then some (.zline (bf w 28 4) (bf w 25 3) (bf w 23 1) (bf w 13 7)) else
  if fld w 6 7 = 124 ∧ fld w 20 8 = 6 then some (.cwb (bf w 28 4) (bf w 13 7)) else
  if fld w 6 7 = 124 ∧ fld w 20 8 = 7 then some (.cinv (bf w 28 4) (bf w 13 7)) else
  none

/-- Major 23, AT (R79). -/
def decodeAT (w : Nat) : Option Instr :=
  if fld w 20 5 = 0 then some (.atomAdd (bf w 30 2) (bf w 27 3) (bf w 25 2) (bf w 13 7) (bf w 6 7)) else
  if fld w 20 5 = 1 then some (.atomMinS (bf w 30 2) (bf w 27 3) (bf w 25 2) (bf w 13 7) (bf w 6 7)) else
  if fld w 20 5 = 2 then some (.atomMaxS (bf w 30 2) (bf w 27 3) (bf w 25 2) (bf w 13 7) (bf w 6 7)) else
  if fld w 20 5 = 3 then some (.atomMinN (bf w 30 2) (bf w 27 3) (bf w 25 2) (bf w 13 7) (bf w 6 7)) else
  if fld w 20 5 = 4 then some (.atomMaxN (bf w 30 2) (bf w 27 3) (bf w 25 2) (bf w 13 7) (bf w 6 7)) else
  if fld w 20 5 = 5 then some (.atomAnd (bf w 30 2) (bf w 27 3) (bf w 25 2) (bf w 13 7) (bf w 6 7)) else
  if fld w 20 5 = 6 then some (.atomOr (bf w 30 2) (bf w 27 3) (bf w 25 2) (bf w 13 7) (bf w 6 7)) else
  if fld w 20 5 = 7 then some (.atomXor (bf w 30 2) (bf w 27 3) (bf w 25 2) (bf w 13 7) (bf w 6 7)) else
  if fld w 20 5 = 8 then some (.atomXchg (bf w 30 2) (bf w 27 3) (bf w 25 2) (bf w 13 7) (bf w 6 7)) else
  if fld w 20 5 = 9 then some (.atomCas (bf w 30 2) (bf w 27 3) (bf w 25 2) (bf w 13 7) (bf w 6 7)) else
  if fld w 20 5 = 10 then some (.atomFadd (bf w 30 2) (bf w 27 3) (bf w 25 2) (bf w 13 7) (bf w 6 7)) else
  if fld w 20 5 = 11 then some (.atomFmin (bf w 30 2) (bf w 27 3) (bf w 25 2) (bf w 13 7) (bf w 6 7)) else
  if fld w 20 5 = 12 then some (.atomFmax (bf w 30 2) (bf w 27 3) (bf w 25 2) (bf w 13 7) (bf w 6 7)) else
  if fld w 20 5 = 13 then some (.atomBinc (bf w 30 2) (bf w 27 3) (bf w 25 2) (bf w 13 7) (bf w 6 7)) else
  if fld w 20 5 = 14 then some (.atomWinc (bf w 30 2) (bf w 27 3) (bf w 25 2) (bf w 13 7) (bf w 6 7)) else
  if fld w 20 5 = 15 then some (.atomDdecN (bf w 30 2) (bf w 27 3) (bf w 25 2) (bf w 13 7) (bf w 6 7)) else
  if fld w 20 5 = 16 then some (.atomDdecS (bf w 30 2) (bf w 27 3) (bf w 25 2) (bf w 13 7) (bf w 6 7)) else
  if fld w 20 5 = 17 then some (.atomLaddN (bf w 30 2) (bf w 27 3) (bf w 25 2) (bf w 13 7) (bf w 6 7)) else
  if fld w 20 5 = 18 then some (.atomLaddS (bf w 30 2) (bf w 27 3) (bf w 25 2) (bf w 13 7) (bf w 6 7)) else
  if fld w 20 5 = 19 then some (.atomLd (bf w 30 2) (bf w 27 3) (bf w 25 2) (bf w 13 7) (bf w 6 7)) else
  none

/-- Major 24, RD (R79). -/
def decodeRD (w : Nat) : Option Instr :=
  if fld w 20 6 = 0 then some (.redAdd (bf w 30 2) (bf w 27 3) (bf w 26 1) (bf w 13 7) (bf w 6 7)) else
  if fld w 20 6 = 1 then some (.redMinS (bf w 30 2) (bf w 27 3) (bf w 26 1) (bf w 13 7) (bf w 6 7)) else
  if fld w 20 6 = 2 then some (.redMaxS (bf w 30 2) (bf w 27 3) (bf w 26 1) (bf w 13 7) (bf w 6 7)) else
  if fld w 20 6 = 3 then some (.redMinN (bf w 30 2) (bf w 27 3) (bf w 26 1) (bf w 13 7) (bf w 6 7)) else
  if fld w 20 6 = 4 then some (.redMaxN (bf w 30 2) (bf w 27 3) (bf w 26 1) (bf w 13 7) (bf w 6 7)) else
  if fld w 20 6 = 5 then some (.redAnd (bf w 30 2) (bf w 27 3) (bf w 26 1) (bf w 13 7) (bf w 6 7)) else
  if fld w 20 6 = 6 then some (.redOr (bf w 30 2) (bf w 27 3) (bf w 26 1) (bf w 13 7) (bf w 6 7)) else
  if fld w 20 6 = 7 then some (.redXor (bf w 30 2) (bf w 27 3) (bf w 26 1) (bf w 13 7) (bf w 6 7)) else
  if fld w 20 6 = 8 then some (.redFadd (bf w 30 2) (bf w 27 3) (bf w 26 1) (bf w 13 7) (bf w 6 7)) else
  if fld w 20 6 = 9 then some (.redFmin (bf w 30 2) (bf w 27 3) (bf w 26 1) (bf w 13 7) (bf w 6 7)) else
  if fld w 20 6 = 10 then some (.redFmax (bf w 30 2) (bf w 27 3) (bf w 26 1) (bf w 13 7) (bf w 6 7)) else
  if fld w 20 6 = 11 then some (.redFadda (bf w 30 2) (bf w 27 3) (bf w 26 1) (bf w 13 7) (bf w 6 7)) else
  none

/-- Major 25, CY (R79). -/
def decodeCY (w : Nat) : Option Instr :=
  if fld w 13 11 = 124 then some (.cpl (bf w 30 2) (bf w 24 6) (bf w 6 7)) else
  if fld w 13 11 = 252 ∧ fld w 30 2 = 0 then some (.cpt (bf w 24 6) (bf w 6 7)) else
  if fld w 13 11 = 380 ∧ fld w 30 2 = 0 then some (.cptr (bf w 24 6) (bf w 6 7)) else
  if fld w 13 11 = 508 ∧ fld w 30 2 = 0 then some (.cptc (bf w 24 6) (bf w 6 7)) else
  if fld w 20 4 = 4 ∧ fld w 30 2 = 0 then some (.cpml (bf w 24 6) (bf w 13 7) (bf w 6 7)) else
  if fld w 20 4 = 5 ∧ fld w 30 2 = 0 then some (.cpms (bf w 24 6) (bf w 13 7) (bf w 6 7)) else
  if fld w 13 11 = 892 ∧ fld w 30 2 = 0 then some (.expect (bf w 24 6) (bf w 6 7)) else
  if fld w 20 10 = 7 then some (.wany (bf w 30 2) (bf w 13 7) (bf w 6 7)) else
  if fld w 13 17 = 1148 then some (.wall (bf w 30 2) (bf w 6 7)) else
  if fld w 20 10 = 9 then some (.ffrdy (bf w 30 2) (bf w 13 7) (bf w 6 7)) else
  if fld w 20 12 = 10 then some (.awaitf (bf w 13 7) (bf w 6 7)) else
  if fld w 13 19 = 1532 then some (.relslot (bf w 6 7)) else
  none

/-- Major 26, GS (R79). -/
def decodeGS (w : Nat) : Option Instr :=
  if fld w 20 4 = 0 ∧ fld w 30 2 = 0 then some (.gsg (bf w 24 6) (bf w 13 7) (bf w 6 7)) else
  if fld w 20 4 = 1 ∧ fld w 30 2 = 0 then some (.gsgm (bf w 24 6) (bf w 13 7) (bf w 6 7)) else
  if fld w 20 4 = 2 ∧ fld w 30 2 = 0 then some (.gss (bf w 24 6) (bf w 13 7) (bf w 6 7)) else
  if fld w 20 4 = 3 ∧ fld w 30 2 = 0 then some (.gssm (bf w 24 6) (bf w 13 7) (bf w 6 7)) else
  if fld w 20 4 = 4 then some (.gswt (bf w 30 2) (bf w 24 6) (bf w 13 7) (bf w 6 7)) else
  if fld w 20 4 = 5 then some (.gspoll (bf w 30 2) (bf w 24 6) (bf w 13 7) (bf w 6 7)) else
  none

/-- Major 27, MA (R79). -/
def decodeMA (w : Nat) : Option Instr :=
  if fld w 20 12 = 0 then some (.mma (bf w 19 1) (bf w 18 1) (bf w 17 1) (bf w 13 4) (bf w 6 7)) else
  if fld w 20 12 = 1 then some (.mmam (bf w 19 1) (bf w 18 1) (bf w 17 1) (bf w 13 4) (bf w 6 7)) else
  none

/-- Major 28, MX (R79). -/
noncomputable def decodeMX (w : Nat) : Option Instr :=
  if fld w 26 6 = 0 then some (.aalloc (bf w 20 6) (bf w 13 7) (bf w 6 7)) else
  if fld w 6 7 = 124 ∧ fld w 20 12 = 252 then some (.afree (bf w 13 7)) else
  if fld w 6 7 = 124 ∧ fld w 20 12 = 380 then some (.aacq (bf w 13 7)) else
  if fld w 6 7 = 124 ∧ fld w 20 12 = 508 then some (.arel (bf w 13 7)) else
  if fld w 6 7 = 124 ∧ fld w 20 12 = 636 then some (.azero (bf w 13 7)) else
  if fld w 27 5 = 5 then some (.ard (bf w 20 7) (bf w 13 7) (bf w 6 7)) else
  if fld w 27 5 = 6 then some (.awr (bf w 20 7) (bf w 13 7) (bf w 6 7)) else
  if fld w 23 9 = 112 then some (.asv (bf w 20 3) (bf w 13 7) (bf w 6 7)) else
  if fld w 23 9 = 128 then some (.arst (bf w 20 3) (bf w 13 7) (bf w 6 7)) else
  if fld w 27 5 = 9 then some (.mtag (bf w 20 7) (bf w 13 7) (bf w 6 7)) else
  none

/-- Major 29, SB (R79). -/
noncomputable def decodeSB (w : Nat) : Option Instr :=
  if fld w 20 12 = 124 then some (.sproj (bf w 13 7) (bf w 6 7)) else
  if fld w 23 9 = 16 then some (.sload (bf w 20 3) (bf w 13 7) (bf w 6 7)) else
  if fld w 27 5 = 2 then some (.sblend (bf w 20 7) (bf w 13 7) (bf w 6 7)) else
  if fld w 27 5 = 3 then some (.sgrad (bf w 20 7) (bf w 13 7) (bf w 6 7)) else
  if fld w 6 7 = 0 ∧ fld w 20 12 = 512 then some (.sinit (bf w 13 7)) else
  if fld w 6 26 = 8420864 then some (.sinitr) else
  if fld w 13 19 = 97916 then some (.srd (bf w 6 7)) else
  if fld w 6 7 = 0 ∧ fld w 20 12 = 892 then some (.swr (bf w 13 7)) else
  if fld w 27 5 = 7 then some (.skey (bf w 20 7) (bf w 13 7) (bf w 6 7)) else
  none

/-- Major 30, EN (R79). -/
noncomputable def decodeEN (w : Nat) : Option Instr :=
  if fld w 20 12 = 0 then some (.kemit (bf w 13 7) (bf w 6 7)) else
  if fld w 20 4 = 1 ∧ fld w 30 2 = 0 then some (.ksort (bf w 24 6) (bf w 13 7) (bf w 6 7)) else
  if fld w 20 4 = 1 ∧ fld w 30 2 = 1 then some (.ksortBat (bf w 24 6) (bf w 13 7) (bf w 6 7)) else
  if fld w 20 4 = 2 ∧ fld w 30 2 = 0 then some (.ksel (bf w 24 6) (bf w 13 7) (bf w 6 7)) else
  if fld w 20 4 = 2 ∧ fld w 30 2 = 1 then some (.kselBat (bf w 24 6) (bf w 13 7) (bf w 6 7)) else
  if fld w 20 4 = 3 ∧ fld w 30 2 = 0 then some (.kcs (bf w 24 6) (bf w 13 7) (bf w 6 7)) else
  if fld w 20 4 = 4 ∧ fld w 30 2 = 0 then some (.ocomp (bf w 24 6) (bf w 13 7) (bf w 6 7)) else
  if fld w 20 4 = 5 ∧ fld w 30 2 = 0 then some (.ored (bf w 24 6) (bf w 13 7) (bf w 6 7)) else
  if fld w 20 4 = 6 ∧ fld w 30 2 = 0 then some (.cbar (bf w 24 6) (bf w 13 7) (bf w 6 7)) else
  if fld w 20 12 = 7 then some (.cfail (bf w 13 7) (bf w 6 7)) else
  if fld w 20 12 = 8 then some (.launch (bf w 13 7) (bf w 6 7)) else
  if fld w 20 4 = 8 ∧ fld w 30 2 = 1 then some (.launchSig (bf w 24 6) (bf w 13 7) (bf w 6 7)) else
  if fld w 20 4 = 9 ∧ fld w 27 5 = 0 then some (.spawn (bf w 24 3) (bf w 13 7) (bf w 6 7)) else
  if fld w 20 4 = 9 ∧ fld w 27 5 = 8 then some (.spawnNow (bf w 24 3) (bf w 13 7) (bf w 6 7)) else
  if fld w 20 12 = 10 then some (.tgsig (bf w 13 7) (bf w 6 7)) else
  if fld w 20 12 = 11 then some (.binflush (bf w 13 7) (bf w 6 7)) else
  if fld w 20 12 = 12 then some (.fxrun (bf w 13 7) (bf w 6 7)) else
  if fld w 20 4 = 12 ∧ fld w 30 2 = 1 then some (.fxrunSig (bf w 24 6) (bf w 13 7) (bf w 6 7)) else
  if fld w 20 12 = 13 then some (.fxabort (bf w 13 7) (bf w 6 7)) else
  if fld w 13 11 = 1916 ∧ fld w 30 2 = 0 then some (.tcsnap (bf w 24 6) (bf w 6 7)) else
  if fld w 6 18 = 261756 ∧ fld w 30 2 = 0 then some (.tflush (bf w 24 6)) else
  none

/-- The 32-bit form: major M in bits [5:1] (R73, R79). -/
noncomputable def decode32 (w : Nat) : Option Instr :=
  match fld w 1 5 with
  | 0 => decodeIA w
  | 1 => decodeIB w
  | 2 => decodeII w
  | 3 => decodeMC w
  | 4 => decodeFS w
  | 5 => decodeFD w
  | 6 => decodeFK w
  | 7 => decodeFM w
  | 8 => decodeCP w
  | 9 => decodePL w
  | 10 => decodeSL w
  | 11 => decodeSF w
  | 12 => decodeSY w
  | 13 => decodeBR w
  | 14 => decodeCL w
  | 15 => decodeCT w
  | 16 => decodeLP w
  | 17 => decodeSN w
  | 18 => decodeXA w
  | 19 => decodeXB w
  | 20 => decodeCV w
  | 21 => decodeLD w
  | 22 => decodeST w
  | 23 => decodeAT w
  | 24 => decodeRD w
  | 25 => decodeCY w
  | 26 => decodeGS w
  | 27 => decodeMA w
  | 28 => decodeMX w
  | 29 => decodeSB w
  | 30 => decodeEN w
  | _ => none

/-- A 32-bit word with an unassigned major, minor or type and condition pair (R79). The other words that
no row takes have a nonzero reserved field. -/
def unassigned32 (w : Nat) : Bool :=
  let F := fld w 27 4
  let Y := fld w 25 4
  let sub := fld w 20 4
  match fld w 1 5 with
  | 0 => 14 ≤ F | 1 => 10 ≤ F | 4 => 8 ≤ F | 5 => 6 ≤ F | 6 => 6 ≤ F
  | 8 => fld w 31 1 = 0 && 6 ≤ fld w 26 4 && fld w 26 4 ≤ 13
  | 9 => 4 ≤ fld w 28 4 | 11 => 8 ≤ F
  | 12 => 11 ≤ Y | 15 => 7 ≤ Y | 16 => 4 ≤ fld w 6 4 | 17 => 4 ≤ Y
  | 18 => 8 ≤ F | 19 => 6 ≤ F | 20 => 10 ≤ F
  | 23 => 20 ≤ fld w 20 5 | 24 => 12 ≤ fld w 20 5 || (fld w 20 5 ≤ 7 && 2 ≤ fld w 30 2)
  | 25 => 12 ≤ sub | 26 => 6 ≤ sub
  | 27 => fld w 20 2 = 2 || fld w 20 2 = 3
  | 28 => 10 ≤ F | 29 => 8 ≤ F
  | 31 => true
  | _ => false

/-- A tflush whose Dsc field is 116 to 123 or 125 to 127 (19 R437). -/
def flushesLatch (w : Nat) : Bool := fld w 0 6 == 61 && fld w 13 11 == 2044 && fld w 30 2 == 0 && decide (116 ≤ fld w 6 7)

/-- The instruction of a 32-bit word, or why there is none. -/
noncomputable def decodeWord (w : Nat) : Except Reject Instr :=
  match decode32 w with
  | some i => .ok i
  | none =>
    if unassigned32 w then .error (.unassigned (BitVec.ofNat 32 w))
    else if flushesLatch w then .error (.descriptor (BitVec.ofNat 32 w))
    else .error (.reserved (BitVec.ofNat 32 w))

/-- A fixer word, 14 R346: op in [31:26]. -/
noncomputable def decodeFixer (w : Nat) : Option Instr :=
  if fld w 16 5 = 0 ∧ fld w 26 6 = 1 then some (.sli (bf w 21 5) (bf w 0 16)) else
  if fld w 26 6 = 2 then some (.saddi (bf w 21 5) (bf w 16 5) (bf w 0 16)) else
  if fld w 0 11 = 0 ∧ fld w 26 6 = 3 then some (.saluAdd (bf w 21 5) (bf w 16 5) (bf w 11 5)) else
  if fld w 0 11 = 1 ∧ fld w 26 6 = 3 then some (.saluSub (bf w 21 5) (bf w 16 5) (bf w 11 5)) else
  if fld w 0 11 = 2 ∧ fld w 26 6 = 3 then some (.saluMul (bf w 21 5) (bf w 16 5) (bf w 11 5)) else
  if fld w 0 11 = 3 ∧ fld w 26 6 = 3 then some (.saluAnd (bf w 21 5) (bf w 16 5) (bf w 11 5)) else
  if fld w 0 11 = 4 ∧ fld w 26 6 = 3 then some (.saluOr (bf w 21 5) (bf w 16 5) (bf w 11 5)) else
  if fld w 0 11 = 5 ∧ fld w 26 6 = 3 then some (.saluXor (bf w 21 5) (bf w 16 5) (bf w 11 5)) else
  if fld w 0 11 = 6 ∧ fld w 26 6 = 3 then some (.saluShl (bf w 21 5) (bf w 16 5) (bf w 11 5)) else
  if fld w 0 11 = 7 ∧ fld w 26 6 = 3 then some (.saluShr (bf w 21 5) (bf w 16 5) (bf w 11 5)) else
  if fld w 26 6 = 4 then some (.sld (bf w 21 5) (bf w 16 5) (bf w 0 16)) else
  if fld w 26 6 = 5 then some (.sst (bf w 21 5) (bf w 16 5) (bf w 0 16)) else
  if fld w 16 16 = 6144 then some (.b (bf w 0 16)) else
  if fld w 21 11 = 193 then some (.bEqz (bf w 16 5) (bf w 0 16)) else
  if fld w 21 11 = 194 then some (.bNez (bf w 16 5) (bf w 0 16)) else
  if fld w 21 11 = 195 then some (.bLtz (bf w 16 5) (bf w 0 16)) else
  if fld w 21 11 = 196 then some (.bGez (bf w 16 5) (bf w 0 16)) else
  if fld w 21 11 = 224 then some (.floop (bf w 16 5) (bf w 0 16)) else
  if fld w 0 32 = 536870912 then some (.stepend) else
  if fld w 0 32 = 603979776 then some (.fend) else
  if fld w 26 6 = 10 then some (.fld (bf w 21 5) (bf w 16 5) (bf w 11 5) (bf w 0 11)) else
  if fld w 26 6 = 11 then some (.fst (bf w 21 5) (bf w 16 5) (bf w 11 5) (bf w 0 11)) else
  if fld w 26 6 = 12 then some (.fredf (bf w 21 5) (bf w 16 5) (bf w 11 5) (bf w 0 11)) else
  if fld w 0 6 = 0 ∧ fld w 7 9 = 0 ∧ fld w 26 6 = 13 then some (.fbc (bf w 21 5) (bf w 16 5) (bf w 6 1)) else
  if fld w 0 6 = 0 ∧ fld w 10 6 = 0 ∧ fld w 26 6 = 14 then some (.fext (bf w 21 5) (bf w 16 5) (bf w 6 4)) else
  if fld w 0 6 = 0 ∧ fld w 10 6 = 0 ∧ fld w 26 6 = 15 then some (.fins (bf w 21 5) (bf w 16 5) (bf w 6 4)) else
  if fld w 0 4 = 0 ∧ fld w 6 5 = 0 ∧ fld w 26 6 = 16 then some (.fopAdd (bf w 21 5) (bf w 16 5) (bf w 11 5) (bf w 4 2)) else
  if fld w 0 4 = 1 ∧ fld w 6 5 = 0 ∧ fld w 26 6 = 16 then some (.fopSub (bf w 21 5) (bf w 16 5) (bf w 11 5) (bf w 4 2)) else
  if fld w 0 4 = 2 ∧ fld w 6 5 = 0 ∧ fld w 26 6 = 16 then some (.fopMul (bf w 21 5) (bf w 16 5) (bf w 11 5) (bf w 4 2)) else
  if fld w 0 4 = 3 ∧ fld w 6 5 = 0 ∧ fld w 26 6 = 16 then some (.fopDiv (bf w 21 5) (bf w 16 5) (bf w 11 5) (bf w 4 2)) else
  if fld w 0 4 = 4 ∧ fld w 6 5 = 0 ∧ fld w 26 6 = 16 then some (.fopMin (bf w 21 5) (bf w 16 5) (bf w 11 5) (bf w 4 2)) else
  if fld w 0 4 = 5 ∧ fld w 6 5 = 0 ∧ fld w 26 6 = 16 then some (.fopMax (bf w 21 5) (bf w 16 5) (bf w 11 5) (bf w 4 2)) else
  if fld w 0 4 = 6 ∧ fld w 26 6 = 16 then some (.fopFma (bf w 21 5) (bf w 16 5) (bf w 11 5) (bf w 6 5) (bf w 4 2)) else
  if fld w 0 4 = 7 ∧ fld w 26 6 = 16 then some (.fopFnma (bf w 21 5) (bf w 16 5) (bf w 11 5) (bf w 6 5) (bf w 4 2)) else
  if fld w 0 4 = 8 ∧ fld w 6 10 = 0 ∧ fld w 26 6 = 16 then some (.fopSqrt (bf w 21 5) (bf w 16 5) (bf w 4 2)) else
  if fld w 0 4 = 9 ∧ fld w 6 10 = 0 ∧ fld w 26 6 = 16 then some (.fopMov (bf w 21 5) (bf w 16 5) (bf w 4 2)) else
  if fld w 0 4 = 0 ∧ fld w 6 5 = 0 ∧ fld w 26 6 = 17 then some (.iopAdd (bf w 21 5) (bf w 16 5) (bf w 11 5) (bf w 4 2)) else
  if fld w 0 4 = 1 ∧ fld w 6 5 = 0 ∧ fld w 26 6 = 17 then some (.iopSub (bf w 21 5) (bf w 16 5) (bf w 11 5) (bf w 4 2)) else
  if fld w 0 4 = 2 ∧ fld w 6 5 = 0 ∧ fld w 26 6 = 17 then some (.iopAnd (bf w 21 5) (bf w 16 5) (bf w 11 5) (bf w 4 2)) else
  if fld w 0 4 = 3 ∧ fld w 6 5 = 0 ∧ fld w 26 6 = 17 then some (.iopOr (bf w 21 5) (bf w 16 5) (bf w 11 5) (bf w 4 2)) else
  if fld w 0 4 = 4 ∧ fld w 6 5 = 0 ∧ fld w 26 6 = 17 then some (.iopXor (bf w 21 5) (bf w 16 5) (bf w 11 5) (bf w 4 2)) else
  if fld w 0 4 = 5 ∧ fld w 6 5 = 0 ∧ fld w 26 6 = 17 then some (.iopShl (bf w 21 5) (bf w 16 5) (bf w 11 5) (bf w 4 2)) else
  if fld w 0 4 = 6 ∧ fld w 6 5 = 0 ∧ fld w 26 6 = 17 then some (.iopShr (bf w 21 5) (bf w 16 5) (bf w 11 5) (bf w 4 2)) else
  if fld w 0 4 = 7 ∧ fld w 26 6 = 17 then some (.iopSel (bf w 21 5) (bf w 16 5) (bf w 11 5) (bf w 6 5) (bf w 4 2)) else
  if fld w 0 4 = 8 ∧ fld w 6 5 = 0 ∧ fld w 26 6 = 17 then some (.iopFclt (bf w 21 5) (bf w 16 5) (bf w 11 5) (bf w 4 2)) else
  if fld w 0 4 = 9 ∧ fld w 6 5 = 0 ∧ fld w 26 6 = 17 then some (.iopIeq (bf w 21 5) (bf w 16 5) (bf w 11 5) (bf w 4 2)) else
  if fld w 0 6 = 0 ∧ fld w 11 5 = 0 ∧ fld w 26 6 = 18 then some (.fcvt (bf w 21 5) (bf w 16 5) (bf w 6 5)) else
  if fld w 4 2 = 0 ∧ fld w 26 6 = 19 then some (.fdq (bf w 21 5) (bf w 16 5) (bf w 11 5) (bf w 6 5) (bf w 0 4)) else
  if fld w 4 2 = 0 ∧ fld w 26 6 = 20 then some (.frq (bf w 21 5) (bf w 16 5) (bf w 11 5) (bf w 6 5) (bf w 0 4)) else
  if fld w 1 5 = 0 ∧ fld w 11 5 = 0 ∧ fld w 26 6 = 21 then some (.frot (bf w 21 5) (bf w 16 5) (bf w 6 5) (bf w 0 1)) else
  if fld w 2 14 = 0 ∧ fld w 26 6 = 22 then some (.wbld (bf w 21 5) (bf w 16 5) (bf w 0 2)) else
  if fld w 0 6 = 0 ∧ fld w 7 14 = 0 ∧ fld w 26 6 = 23 then some (.fflg (bf w 21 5) (bf w 6 1)) else
  none

/-- Whether a fixer word has an unassigned op, function or condition (14 R346, R347, R349, R365: subcause
0x01); a word that is not assigned otherwise has a nonzero zero field (subcause 0x02). -/
def fixerUnassigned (w : Nat) : Bool :=
  match fld w 26 6 with
  | 0 => true | 6 => 5 ≤ fld w 21 5
  | 16 => 10 ≤ fld w 0 4 | 17 => 10 ≤ fld w 0 4
  | op => 24 ≤ op

/-- The number that little-endian bytes hold (02 R39). -/
def leNat : List Byte → Nat
  | [] => 0
  | b :: bs => b.toNat + 256 * leNat bs

/-- The low `n` bytes of a number, little-endian (02 R39). -/
def toBytes : Nat → Nat → List Byte
  | 0, _ => []
  | n + 1, w => BitVec.ofNat 8 w :: toBytes n (w / 256)

/-- Decodes one instruction from the bytes at an address, and gives the bytes after it. Bit 0 of the first
halfword gives the length (R67). -/
noncomputable def decode (bs : List Byte) : Except Reject (Instr × List Byte) :=
  match bs with
  | b0 :: b1 :: rest =>
    if b0.toNat % 2 = 0 then
      match decode16 (leNat [b0, b1]) with
      | some i => .ok (i, rest)
      | none => .error (.reserved (BitVec.ofNat 32 (leNat [b0, b1])))
    else
      match rest with
      | b2 :: b3 :: rest' =>
        match decodeWord (leNat [b0, b1, b2, b3]) with
        | .ok i => .ok (i, rest')
        | .error e => .error e
      | _ => .error .tooShort
  | _ => .error .tooShort

/-- The length in bytes of an instruction's words; 0 for an event, which has none. -/
def Instr.bytes : Instr → Nat
  | .mov16 .. | .iadd16 .. | .isub16 .. | .imul16 .. | .and16 .. | .or16 .. | .xor16 .. | .shl16 .. | .shr16 .. | .sar16 .. | .fadd16 .. | .fsub16 .. | .fmul16 .. | .fmin16 .. | .fmax16 .. | .fmac16 .. => 2
  | .regroupComplete .. | .groupSlotQuota .. | .groupAged .. | .starveForced .. | .storePerformed .. 
  | .loadDataReturn .. | .atomicPerform .. | .l1Writeback .. | .rdcRequestArrive .. | .rangeLockGrant .. 
  | .engineBytesArrive .. | .ringSlotClaim .. | .copyCommandComplete .. | .gseCommandComplete .. 
  | .matrixPhaseEnd .. | .matrixOperationComplete .. | .aallocGrant .. | .qtenWrite .. | .queueTableWake .. 
  | .ringLineWake .. | .launchRecord .. | .tlbInvalidationRecord .. | .tlbInvalidationComplete .. 
  | .markerRecord .. | .startTickReached .. | .launchDispatch .. | .clusterPlace .. | .stageDrainComplete .. 
  | .sliceExpire .. | .blockSave .. | .queueResume .. | .spawnBinTimerExpire .. | .spawnBlockDispatch .. 
  | .launchComplete .. | .hostPendDecrement .. | .fixerKernelAdmit .. | .fixerInstanceStart .. 
  | .fixerKernelComplete .. | .kseCommandBegin .. | .kseCommandComplete .. | .collectiveBegin .. 
  | .collectiveComplete .. | .peerFlitTimeout .. | .peerLossReport .. | .channelRequestServe .. 
  | .requestAged .. | .burstCrcError .. | .burstReplayExhausted .. | .laneCrcThreshold .. | .laneRepair .. 
  | .repair .. | .retrain .. | .retrainDone .. | .eyeSample .. | .rowSwap .. | .retire .. 
  | .errorCountClear .. | .irqstClear .. | .missCounterClear .. | .hctlWrite .. | .heatHalve .. 
  | .heatClear .. | .heatPassDone .. | .cxlLinkDown .. | .migrationSubmit .. | .migrationComplete .. 
  | .tctlWrite .. | .tdropClear .. | .halt .. | .resume .. | .step .. | .timebaseLowRead .. 
  | .timebaseHighRead .. | .seedLowRead .. | .counterSnapshotRead .. | .powerUp .. | .coldReset .. 
  | .warmReset .. | .windowRead .. | .windowWrite .. | .firmwareStage .. | .firmwareActivate .. 
  | .selfTestLogRead .. | .retirementTableRead .. | .unknownCommand .. | .getVersion .. | .getCapabilities .. 
  | .negotiateAlgorithms .. | .getDigests .. | .getCertificate .. | .challenge .. | .getMeasurements .. 
  | .pkidWrite .. | .qtbWrite .. | .mirqClear .. | .pwrSample .. | .selfTestStart .. | .selfTestComplete .. 
  | .registerWrite .. | .unassignedEncoding .. | .fetchFault .. | .fixerUnassignedOp .. | .fixerFetchFault .. 
  | .twinericLinkFailure .. | .cxlLinkRetrain .. | .powerLoss .. | .peerRequest .. | .hostAccess .. => 0
  | _ => 4

/-- Whether the instruction is a fixer's (14 R346), in an encoding space of its own. -/
def Instr.isFixer : Instr → Bool
  | .sli .. | .saddi .. | .saluAdd .. | .saluSub .. | .saluMul .. | .saluAnd .. | .saluOr .. | .saluXor .. 
  | .saluShl .. | .saluShr .. | .sld .. | .sst .. | .b .. | .bEqz .. | .bNez .. | .bLtz .. | .bGez .. 
  | .floop .. | .stepend .. | .fend .. | .fld .. | .fst .. | .fredf .. | .fbc .. | .fext .. | .fins .. 
  | .fopAdd .. | .fopSub .. | .fopMul .. | .fopDiv .. | .fopMin .. | .fopMax .. | .fopFma .. | .fopFnma .. 
  | .fopSqrt .. | .fopMov .. | .iopAdd .. | .iopSub .. | .iopAnd .. | .iopOr .. | .iopXor .. | .iopShl .. 
  | .iopShr .. | .iopSel .. | .iopFclt .. | .iopIeq .. | .fcvt .. | .fdq .. | .frq .. | .frot .. | .wbld .. 
  | .fflg .. => true
  | _ => false

/-- A word with fixed bits `base` and the fields n at [15:15], s at [14:10], d at [9:5]. -/
def wordN15_15S14_10D9_5 (base : Nat) (n : BitVec 1) (s : BitVec 5) (d : BitVec 5) : Nat := base + n.toNat * 2 ^ 15 + s.toNat * 2 ^ 10 + d.toNat * 2 ^ 5

/-- A word with fixed bits `base` and the fields n at [31:31], b at [26:20], a at [19:13], d at [12:6]. -/
def wordN31_31B26_20A19_13D12_6 (base : Nat) (n : BitVec 1) (b : BitVec 7) (a : BitVec 7) (d : BitVec 7) : Nat := base + n.toNat * 2 ^ 31 + b.toNat * 2 ^ 20 + a.toNat * 2 ^ 13 + d.toNat * 2 ^ 6

/-- A word with fixed bits `base` and the fields n at [31:31], a at [19:13], d at [12:6]. -/
def wordN31_31A19_13D12_6 (base : Nat) (n : BitVec 1) (a : BitVec 7) (d : BitVec 7) : Nat := base + n.toNat * 2 ^ 31 + a.toNat * 2 ^ 13 + d.toNat * 2 ^ 6

/-- A word with fixed bits `base` and the fields i at [31:23], a at [19:13], d at [12:6]. -/
def wordI31_23A19_13D12_6 (base : Nat) (i : BitVec 9) (a : BitVec 7) (d : BitVec 7) : Nat := base + i.toNat * 2 ^ 23 + a.toNat * 2 ^ 13 + d.toNat * 2 ^ 6

/-- A word with fixed bits `base` and the fields k at [31:14], d at [12:6]. -/
def wordK31_14D12_6 (base : Nat) (k : BitVec 18) (d : BitVec 7) : Nat := base + k.toNat * 2 ^ 14 + d.toNat * 2 ^ 6

/-- A word with fixed bits `base` and the fields n at [31:31], g at [30:30], c at [29:29], b at [26:20], a at [19:13], d at [12:6]. -/
def wordN31_31G30_30C29_29B26_20A19_13D12_6 (base : Nat) (n : BitVec 1) (g : BitVec 1) (c : BitVec 1) (b : BitVec 7) (a : BitVec 7) (d : BitVec 7) : Nat := base + n.toNat * 2 ^ 31 + g.toNat * 2 ^ 30 + c.toNat * 2 ^ 29 + b.toNat * 2 ^ 20 + a.toNat * 2 ^ 13 + d.toNat * 2 ^ 6

/-- A word with fixed bits `base` and the fields t at [31:30], b at [25:19], a at [18:12], p at [11:6]. -/
def wordT31_30B25_19A18_12P11_6 (base : Nat) (t : BitVec 2) (b : BitVec 7) (a : BitVec 7) (p : BitVec 6) : Nat := base + t.toNat * 2 ^ 30 + b.toNat * 2 ^ 19 + a.toNat * 2 ^ 12 + p.toNat * 2 ^ 6

/-- A word with fixed bits `base` and the fields t at [30:30], b at [25:19], a at [18:12], p at [11:6]. -/
def wordT30_30B25_19A18_12P11_6 (base : Nat) (t : BitVec 1) (b : BitVec 7) (a : BitVec 7) (p : BitVec 6) : Nat := base + t.toNat * 2 ^ 30 + b.toNat * 2 ^ 19 + a.toNat * 2 ^ 12 + p.toNat * 2 ^ 6

/-- A word with fixed bits `base` and the fields f at [27:24], b at [23:18], a at [17:12], p at [11:6]. -/
def wordF27_24B23_18A17_12P11_6 (base : Nat) (f : BitVec 4) (b : BitVec 6) (a : BitVec 6) (p : BitVec 6) : Nat := base + f.toNat * 2 ^ 24 + b.toNat * 2 ^ 18 + a.toNat * 2 ^ 12 + p.toNat * 2 ^ 6

/-- A word with fixed bits `base` and the fields n at [31:31], s at [30:27], b at [26:20], a at [19:13], d at [12:6]. -/
def wordN31_31S30_27B26_20A19_13D12_6 (base : Nat) (n : BitVec 1) (s : BitVec 4) (b : BitVec 7) (a : BitVec 7) (d : BitVec 7) : Nat := base + n.toNat * 2 ^ 31 + s.toNat * 2 ^ 27 + b.toNat * 2 ^ 20 + a.toNat * 2 ^ 13 + d.toNat * 2 ^ 6

/-- A word with fixed bits `base` and the fields s at [24:13], d at [12:6]. -/
def wordS24_13D12_6 (base : Nat) (s : BitVec 12) (d : BitVec 7) : Nat := base + s.toNat * 2 ^ 13 + d.toNat * 2 ^ 6

/-- A word with fixed bits `base` and the fields s at [24:13], a at [12:6]. -/
def wordS24_13A12_6 (base : Nat) (s : BitVec 12) (a : BitVec 7) : Nat := base + s.toNat * 2 ^ 13 + a.toNat * 2 ^ 6

/-- A word with fixed bits `base` and the fields w at [24:13]. -/
def wordW24_13 (base : Nat) (w : BitVec 12) : Nat := base + w.toNat * 2 ^ 13

/-- A word with fixed bits `base` and the fields k at [24:23], u at [22:13]. -/
def wordK24_23U22_13 (base : Nat) (k : BitVec 2) (u : BitVec 10) : Nat := base + k.toNat * 2 ^ 23 + u.toNat * 2 ^ 13

/-- A word with fixed bits `base` and the fields k at [24:23], v at [22:13]. -/
def wordK24_23V22_13 (base : Nat) (k : BitVec 2) (v : BitVec 10) : Nat := base + k.toNat * 2 ^ 23 + v.toNat * 2 ^ 13

/-- A word with fixed bits `base` and the fields r at [17:16], s at [15:13]. -/
def wordR17_16S15_13 (base : Nat) (r : BitVec 2) (s : BitVec 3) : Nat := base + r.toNat * 2 ^ 16 + s.toNat * 2 ^ 13

/-- A word with fixed bits `base` and the fields n at [24:13]. -/
def wordN24_13 (base : Nat) (n : BitVec 12) : Nat := base + n.toNat * 2 ^ 13

/-- A word with fixed bits `base` and the fields k at [24:13], a at [12:6]. -/
def wordK24_13A12_6 (base : Nat) (k : BitVec 12) (a : BitVec 7) : Nat := base + k.toNat * 2 ^ 13 + a.toNat * 2 ^ 6

/-- A word with fixed bits `base` and the fields i at [24:13], a at [12:6]. -/
def wordI24_13A12_6 (base : Nat) (i : BitVec 12) (a : BitVec 7) : Nat := base + i.toNat * 2 ^ 13 + a.toNat * 2 ^ 6

/-- A word with fixed bits `base` and the fields o at [31:14], q at [13:13], p at [12:7], u at [6:6]. -/
def wordO31_14Q13_13P12_7U6_6 (base : Nat) (o : BitVec 18) (q : BitVec 1) (p : BitVec 6) (u : BitVec 1) : Nat := base + o.toNat * 2 ^ 14 + q.toNat * 2 ^ 13 + p.toNat * 2 ^ 7 + u.toNat * 2 ^ 6

/-- A word with fixed bits `base` and the fields o at [31:7], u at [6:6]. -/
def wordO31_7U6_6 (base : Nat) (o : BitVec 25) (u : BitVec 1) : Nat := base + o.toNat * 2 ^ 7 + u.toNat * 2 ^ 6

/-- A word with fixed bits `base` and the fields u at [13:13], a at [12:6]. -/
def wordU13_13A12_6 (base : Nat) (u : BitVec 1) (a : BitVec 7) : Nat := base + u.toNat * 2 ^ 13 + a.toNat * 2 ^ 6

/-- A word with fixed bits `base` and the fields u at [13:13]. -/
def wordU13_13 (base : Nat) (u : BitVec 1) : Nat := base + u.toNat * 2 ^ 13

/-- A word with fixed bits `base` and the fields n at [20:13]. -/
def wordN20_13 (base : Nat) (n : BitVec 8) : Nat := base + n.toNat * 2 ^ 13

/-- A word with fixed bits `base` and the fields o at [31:19], a at [18:12], l at [11:10]. -/
def wordO31_19A18_12L11_10 (base : Nat) (o : BitVec 13) (a : BitVec 7) (l : BitVec 2) : Nat := base + o.toNat * 2 ^ 19 + a.toNat * 2 ^ 12 + l.toNat * 2 ^ 10

/-- A word with fixed bits `base` and the fields o at [31:19], i at [18:12], l at [11:10]. -/
def wordO31_19I18_12L11_10 (base : Nat) (o : BitVec 13) (i : BitVec 7) (l : BitVec 2) : Nat := base + o.toNat * 2 ^ 19 + i.toNat * 2 ^ 12 + l.toNat * 2 ^ 10

/-- A word with fixed bits `base` and the fields l at [11:10]. -/
def wordL11_10 (base : Nat) (l : BitVec 2) : Nat := base + l.toNat * 2 ^ 10

/-- A word with fixed bits `base` and the fields k at [16:13], a at [12:6]. -/
def wordK16_13A12_6 (base : Nat) (k : BitVec 4) (a : BitVec 7) : Nat := base + k.toNat * 2 ^ 13 + a.toNat * 2 ^ 6

/-- A word with fixed bits `base` and the fields k at [16:13]. -/
def wordK16_13 (base : Nat) (k : BitVec 4) : Nat := base + k.toNat * 2 ^ 13

/-- A word with fixed bits `base` and the fields n at [31:31], m at [21:20], a at [19:13], d at [12:6]. -/
def wordN31_31M21_20A19_13D12_6 (base : Nat) (n : BitVec 1) (m : BitVec 2) (a : BitVec 7) (d : BitVec 7) : Nat := base + n.toNat * 2 ^ 31 + m.toNat * 2 ^ 20 + a.toNat * 2 ^ 13 + d.toNat * 2 ^ 6

/-- A word with fixed bits `base` and the fields n at [31:31], k at [22:20], a at [19:13], d at [12:6]. -/
def wordN31_31K22_20A19_13D12_6 (base : Nat) (n : BitVec 1) (k : BitVec 3) (a : BitVec 7) (d : BitVec 7) : Nat := base + n.toNat * 2 ^ 31 + k.toNat * 2 ^ 20 + a.toNat * 2 ^ 13 + d.toNat * 2 ^ 6

/-- A word with fixed bits `base` and the fields q at [31:28], s at [27:25], o at [24:23], a at [19:13], v at [12:6]. -/
def wordQ31_28S27_25O24_23A19_13V12_6 (base : Nat) (q : BitVec 4) (s : BitVec 3) (o : BitVec 2) (a : BitVec 7) (v : BitVec 7) : Nat := base + q.toNat * 2 ^ 28 + s.toNat * 2 ^ 25 + o.toNat * 2 ^ 23 + a.toNat * 2 ^ 13 + v.toNat * 2 ^ 6

/-- A word with fixed bits `base` and the fields q at [31:28], a at [19:13]. -/
def wordQ31_28A19_13 (base : Nat) (q : BitVec 4) (a : BitVec 7) : Nat := base + q.toNat * 2 ^ 28 + a.toNat * 2 ^ 13

/-- A word with fixed bits `base` and the fields q at [31:28], s at [27:25], o at [23:23], a at [19:13]. -/
def wordQ31_28S27_25O23_23A19_13 (base : Nat) (q : BitVec 4) (s : BitVec 3) (o : BitVec 1) (a : BitVec 7) : Nat := base + q.toNat * 2 ^ 28 + s.toNat * 2 ^ 25 + o.toNat * 2 ^ 23 + a.toNat * 2 ^ 13

/-- A word with fixed bits `base` and the fields t at [31:30], s at [29:27], r at [26:25], a at [19:13], v at [12:6]. -/
def wordT31_30S29_27R26_25A19_13V12_6 (base : Nat) (t : BitVec 2) (s : BitVec 3) (r : BitVec 2) (a : BitVec 7) (v : BitVec 7) : Nat := base + t.toNat * 2 ^ 30 + s.toNat * 2 ^ 27 + r.toNat * 2 ^ 25 + a.toNat * 2 ^ 13 + v.toNat * 2 ^ 6

/-- A word with fixed bits `base` and the fields t at [31:30], s at [29:27], r at [26:26], a at [19:13], v at [12:6]. -/
def wordT31_30S29_27R26_26A19_13V12_6 (base : Nat) (t : BitVec 2) (s : BitVec 3) (r : BitVec 1) (a : BitVec 7) (v : BitVec 7) : Nat := base + t.toNat * 2 ^ 30 + s.toNat * 2 ^ 27 + r.toNat * 2 ^ 26 + a.toNat * 2 ^ 13 + v.toNat * 2 ^ 6

/-- A word with fixed bits `base` and the fields m at [31:30], t at [29:24], d at [12:6]. -/
def wordM31_30T29_24D12_6 (base : Nat) (m : BitVec 2) (t : BitVec 6) (d : BitVec 7) : Nat := base + m.toNat * 2 ^ 30 + t.toNat * 2 ^ 24 + d.toNat * 2 ^ 6

/-- A word with fixed bits `base` and the fields t at [29:24], d at [12:6]. -/
def wordT29_24D12_6 (base : Nat) (t : BitVec 6) (d : BitVec 7) : Nat := base + t.toNat * 2 ^ 24 + d.toNat * 2 ^ 6

/-- A word with fixed bits `base` and the fields t at [29:24], c at [19:13], d at [12:6]. -/
def wordT29_24C19_13D12_6 (base : Nat) (t : BitVec 6) (c : BitVec 7) (d : BitVec 7) : Nat := base + t.toNat * 2 ^ 24 + c.toNat * 2 ^ 13 + d.toNat * 2 ^ 6

/-- A word with fixed bits `base` and the fields m at [31:30], c at [19:13], d at [12:6]. -/
def wordM31_30C19_13D12_6 (base : Nat) (m : BitVec 2) (c : BitVec 7) (d : BitVec 7) : Nat := base + m.toNat * 2 ^ 30 + c.toNat * 2 ^ 13 + d.toNat * 2 ^ 6

/-- A word with fixed bits `base` and the fields m at [31:30], d at [12:6]. -/
def wordM31_30D12_6 (base : Nat) (m : BitVec 2) (d : BitVec 7) : Nat := base + m.toNat * 2 ^ 30 + d.toNat * 2 ^ 6

/-- A word with fixed bits `base` and the fields c at [19:13], d at [12:6]. -/
def wordC19_13D12_6 (base : Nat) (c : BitVec 7) (d : BitVec 7) : Nat := base + c.toNat * 2 ^ 13 + d.toNat * 2 ^ 6

/-- A word with fixed bits `base` and the fields d at [12:6]. -/
def wordD12_6 (base : Nat) (d : BitVec 7) : Nat := base + d.toNat * 2 ^ 6

/-- A word with fixed bits `base` and the fields m at [31:30], t at [29:24], c at [19:13], d at [12:6]. -/
def wordM31_30T29_24C19_13D12_6 (base : Nat) (m : BitVec 2) (t : BitVec 6) (c : BitVec 7) (d : BitVec 7) : Nat := base + m.toNat * 2 ^ 30 + t.toNat * 2 ^ 24 + c.toNat * 2 ^ 13 + d.toNat * 2 ^ 6

/-- A word with fixed bits `base` and the fields z at [19:19], p at [18:18], w at [17:17], k at [16:13], d at [12:6]. -/
def wordZ19_19P18_18W17_17K16_13D12_6 (base : Nat) (z : BitVec 1) (p : BitVec 1) (w : BitVec 1) (k : BitVec 4) (d : BitVec 7) : Nat := base + z.toNat * 2 ^ 19 + p.toNat * 2 ^ 18 + w.toNat * 2 ^ 17 + k.toNat * 2 ^ 13 + d.toNat * 2 ^ 6

/-- A word with fixed bits `base` and the fields p at [25:20], a at [19:13], d at [12:6]. -/
def wordP25_20A19_13D12_6 (base : Nat) (p : BitVec 6) (a : BitVec 7) (d : BitVec 7) : Nat := base + p.toNat * 2 ^ 20 + a.toNat * 2 ^ 13 + d.toNat * 2 ^ 6

/-- A word with fixed bits `base` and the fields a at [19:13]. -/
def wordA19_13 (base : Nat) (a : BitVec 7) : Nat := base + a.toNat * 2 ^ 13

/-- A word with fixed bits `base` and the fields b at [26:20], a at [19:13], d at [12:6]. -/
def wordB26_20A19_13D12_6 (base : Nat) (b : BitVec 7) (a : BitVec 7) (d : BitVec 7) : Nat := base + b.toNat * 2 ^ 20 + a.toNat * 2 ^ 13 + d.toNat * 2 ^ 6

/-- A word with fixed bits `base` and the fields l at [22:20], a at [19:13], d at [12:6]. -/
def wordL22_20A19_13D12_6 (base : Nat) (l : BitVec 3) (a : BitVec 7) (d : BitVec 7) : Nat := base + l.toNat * 2 ^ 20 + a.toNat * 2 ^ 13 + d.toNat * 2 ^ 6

/-- A word with fixed bits `base` and the fields a at [19:13], d at [12:6]. -/
def wordA19_13D12_6 (base : Nat) (a : BitVec 7) (d : BitVec 7) : Nat := base + a.toNat * 2 ^ 13 + d.toNat * 2 ^ 6

/-- A word with fixed bits `base` and the fields s at [22:20], a at [19:13], d at [12:6]. -/
def wordS22_20A19_13D12_6 (base : Nat) (s : BitVec 3) (a : BitVec 7) (d : BitVec 7) : Nat := base + s.toNat * 2 ^ 20 + a.toNat * 2 ^ 13 + d.toNat * 2 ^ 6

/-- A word with fixed bits `base` and the fields k at [26:24], c at [19:13], d at [12:6]. -/
def wordK26_24C19_13D12_6 (base : Nat) (k : BitVec 3) (c : BitVec 7) (d : BitVec 7) : Nat := base + k.toNat * 2 ^ 24 + c.toNat * 2 ^ 13 + d.toNat * 2 ^ 6

/-- A word with fixed bits `base` and the fields t at [29:24]. -/
def wordT29_24 (base : Nat) (t : BitVec 6) : Nat := base + t.toNat * 2 ^ 24

/-- A word with fixed bits `base` and the fields d at [25:21], i at [15:0]. -/
def wordD25_21I15_0 (base : Nat) (d : BitVec 5) (i : BitVec 16) : Nat := base + d.toNat * 2 ^ 21 + i.toNat

/-- A word with fixed bits `base` and the fields d at [25:21], a at [20:16], i at [15:0]. -/
def wordD25_21A20_16I15_0 (base : Nat) (d : BitVec 5) (a : BitVec 5) (i : BitVec 16) : Nat := base + d.toNat * 2 ^ 21 + a.toNat * 2 ^ 16 + i.toNat

/-- A word with fixed bits `base` and the fields d at [25:21], a at [20:16], b at [15:11]. -/
def wordD25_21A20_16B15_11 (base : Nat) (d : BitVec 5) (a : BitVec 5) (b : BitVec 5) : Nat := base + d.toNat * 2 ^ 21 + a.toNat * 2 ^ 16 + b.toNat * 2 ^ 11

/-- A word with fixed bits `base` and the fields i at [15:0]. -/
def wordI15_0 (base : Nat) (i : BitVec 16) : Nat := base + i.toNat

/-- A word with fixed bits `base` and the fields a at [20:16], i at [15:0]. -/
def wordA20_16I15_0 (base : Nat) (a : BitVec 5) (i : BitVec 16) : Nat := base + a.toNat * 2 ^ 16 + i.toNat

/-- A word with fixed bits `base` and the fields d at [25:21], a at [20:16], n at [15:11], i at [10:0]. -/
def wordD25_21A20_16N15_11I10_0 (base : Nat) (d : BitVec 5) (a : BitVec 5) (n : BitVec 5) (i : BitVec 11) : Nat := base + d.toNat * 2 ^ 21 + a.toNat * 2 ^ 16 + n.toNat * 2 ^ 11 + i.toNat

/-- A word with fixed bits `base` and the fields d at [25:21], a at [20:16], h at [6:6]. -/
def wordD25_21A20_16H6_6 (base : Nat) (d : BitVec 5) (a : BitVec 5) (h : BitVec 1) : Nat := base + d.toNat * 2 ^ 21 + a.toNat * 2 ^ 16 + h.toNat * 2 ^ 6

/-- A word with fixed bits `base` and the fields d at [25:21], a at [20:16], l at [9:6]. -/
def wordD25_21A20_16L9_6 (base : Nat) (d : BitVec 5) (a : BitVec 5) (l : BitVec 4) : Nat := base + d.toNat * 2 ^ 21 + a.toNat * 2 ^ 16 + l.toNat * 2 ^ 6

/-- A word with fixed bits `base` and the fields d at [25:21], a at [20:16], b at [15:11], n at [5:4]. -/
def wordD25_21A20_16B15_11N5_4 (base : Nat) (d : BitVec 5) (a : BitVec 5) (b : BitVec 5) (n : BitVec 2) : Nat := base + d.toNat * 2 ^ 21 + a.toNat * 2 ^ 16 + b.toNat * 2 ^ 11 + n.toNat * 2 ^ 4

/-- A word with fixed bits `base` and the fields d at [25:21], a at [20:16], b at [15:11], c at [10:6], n at [5:4]. -/
def wordD25_21A20_16B15_11C10_6N5_4 (base : Nat) (d : BitVec 5) (a : BitVec 5) (b : BitVec 5) (c : BitVec 5) (n : BitVec 2) : Nat := base + d.toNat * 2 ^ 21 + a.toNat * 2 ^ 16 + b.toNat * 2 ^ 11 + c.toNat * 2 ^ 6 + n.toNat * 2 ^ 4

/-- A word with fixed bits `base` and the fields d at [25:21], a at [20:16], n at [5:4]. -/
def wordD25_21A20_16N5_4 (base : Nat) (d : BitVec 5) (a : BitVec 5) (n : BitVec 2) : Nat := base + d.toNat * 2 ^ 21 + a.toNat * 2 ^ 16 + n.toNat * 2 ^ 4

/-- A word with fixed bits `base` and the fields d at [25:21], a at [20:16], c at [10:6]. -/
def wordD25_21A20_16C10_6 (base : Nat) (d : BitVec 5) (a : BitVec 5) (c : BitVec 5) : Nat := base + d.toNat * 2 ^ 21 + a.toNat * 2 ^ 16 + c.toNat * 2 ^ 6

/-- A word with fixed bits `base` and the fields d at [25:21], a at [20:16], b at [15:11], c at [10:6], o at [3:0]. -/
def wordD25_21A20_16B15_11C10_6O3_0 (base : Nat) (d : BitVec 5) (a : BitVec 5) (b : BitVec 5) (c : BitVec 5) (o : BitVec 4) : Nat := base + d.toNat * 2 ^ 21 + a.toNat * 2 ^ 16 + b.toNat * 2 ^ 11 + c.toNat * 2 ^ 6 + o.toNat

/-- A word with fixed bits `base` and the fields d at [25:21], a at [20:16], c at [10:6], v at [0:0]. -/
def wordD25_21A20_16C10_6V0_0 (base : Nat) (d : BitVec 5) (a : BitVec 5) (c : BitVec 5) (v : BitVec 1) : Nat := base + d.toNat * 2 ^ 21 + a.toNat * 2 ^ 16 + c.toNat * 2 ^ 6 + v.toNat

/-- A word with fixed bits `base` and the fields d at [25:21], a at [20:16], n at [1:0]. -/
def wordD25_21A20_16N1_0 (base : Nat) (d : BitVec 5) (a : BitVec 5) (n : BitVec 2) : Nat := base + d.toNat * 2 ^ 21 + a.toNat * 2 ^ 16 + n.toNat

/-- A word with fixed bits `base` and the fields d at [25:21], c at [6:6]. -/
def wordD25_21C6_6 (base : Nat) (d : BitVec 5) (c : BitVec 1) : Nat := base + d.toNat * 2 ^ 21 + c.toNat * 2 ^ 6

/-- The word of an instruction, from the same rows; 0 for an event. -/
def encodeWord : Instr → Nat
  | .mov16 n s d => wordN15_15S14_10D9_5 0x0000 n s d
  | .iadd16 n s d => wordN15_15S14_10D9_5 0x0002 n s d
  | .isub16 n s d => wordN15_15S14_10D9_5 0x0004 n s d
  | .imul16 n s d => wordN15_15S14_10D9_5 0x0006 n s d
  | .and16 n s d => wordN15_15S14_10D9_5 0x0008 n s d
  | .or16 n s d => wordN15_15S14_10D9_5 0x000A n s d
  | .xor16 n s d => wordN15_15S14_10D9_5 0x000C n s d
  | .shl16 n s d => wordN15_15S14_10D9_5 0x000E n s d
  | .shr16 n s d => wordN15_15S14_10D9_5 0x0010 n s d
  | .sar16 n s d => wordN15_15S14_10D9_5 0x0012 n s d
  | .fadd16 n s d => wordN15_15S14_10D9_5 0x0014 n s d
  | .fsub16 n s d => wordN15_15S14_10D9_5 0x0016 n s d
  | .fmul16 n s d => wordN15_15S14_10D9_5 0x0018 n s d
  | .fmin16 n s d => wordN15_15S14_10D9_5 0x001A n s d
  | .fmax16 n s d => wordN15_15S14_10D9_5 0x001C n s d
  | .fmac16 n s d => wordN15_15S14_10D9_5 0x001E n s d
  | .mov n b a d => wordN31_31B26_20A19_13D12_6 0x00000001 n b a d
  | .iadd n b a d => wordN31_31B26_20A19_13D12_6 0x08000001 n b a d
  | .isub n b a d => wordN31_31B26_20A19_13D12_6 0x10000001 n b a d
  | .imul n b a d => wordN31_31B26_20A19_13D12_6 0x18000001 n b a d
  | .and n b a d => wordN31_31B26_20A19_13D12_6 0x20000001 n b a d
  | .or n b a d => wordN31_31B26_20A19_13D12_6 0x28000001 n b a d
  | .xor n b a d => wordN31_31B26_20A19_13D12_6 0x30000001 n b a d
  | .shl n b a d => wordN31_31B26_20A19_13D12_6 0x38000001 n b a d
  | .shr n b a d => wordN31_31B26_20A19_13D12_6 0x40000001 n b a d
  | .sar n b a d => wordN31_31B26_20A19_13D12_6 0x48000001 n b a d
  | .iminS32 n b a d => wordN31_31B26_20A19_13D12_6 0x50000001 n b a d
  | .imaxS32 n b a d => wordN31_31B26_20A19_13D12_6 0x58000001 n b a d
  | .iminN32 n b a d => wordN31_31B26_20A19_13D12_6 0x60000001 n b a d
  | .imaxN32 n b a d => wordN31_31B26_20A19_13D12_6 0x68000001 n b a d
  | .iaddB64 n b a d => wordN31_31B26_20A19_13D12_6 0x00000003 n b a d
  | .isubB64 n b a d => wordN31_31B26_20A19_13D12_6 0x08000003 n b a d
  | .imulwS32 n b a d => wordN31_31B26_20A19_13D12_6 0x10000003 n b a d
  | .imulwN32 n b a d => wordN31_31B26_20A19_13D12_6 0x18000003 n b a d
  | .shlB64 n b a d => wordN31_31B26_20A19_13D12_6 0x20000003 n b a d
  | .shrB64 n b a d => wordN31_31B26_20A19_13D12_6 0x28000003 n b a d
  | .bfxS32 n b a d => wordN31_31B26_20A19_13D12_6 0x30000003 n b a d
  | .bfxN32 n b a d => wordN31_31B26_20A19_13D12_6 0x38000003 n b a d
  | .bfiB32 n b a d => wordN31_31B26_20A19_13D12_6 0x40000003 n b a d
  | .popcB32 n a d => wordN31_31A19_13D12_6 0x4FC00003 n a d
  | .iaddImm i a d => wordI31_23A19_13D12_6 0x00000005 i a d
  | .imulImm i a d => wordI31_23A19_13D12_6 0x00100005 i a d
  | .andImm i a d => wordI31_23A19_13D12_6 0x00200005 i a d
  | .orImm i a d => wordI31_23A19_13D12_6 0x00300005 i a d
  | .xorImm i a d => wordI31_23A19_13D12_6 0x00400005 i a d
  | .shlImm i a d => wordI31_23A19_13D12_6 0x00500005 i a d
  | .shrImm i a d => wordI31_23A19_13D12_6 0x00600005 i a d
  | .sarImm i a d => wordI31_23A19_13D12_6 0x00700005 i a d
  | .mvk k d => wordK31_14D12_6 0x00000007 k d
  | .mvkh k d => wordK31_14D12_6 0x00002007 k d
  | .fadd n b a d => wordN31_31B26_20A19_13D12_6 0x00000009 n b a d
  | .fsub n b a d => wordN31_31B26_20A19_13D12_6 0x08000009 n b a d
  | .fmul n b a d => wordN31_31B26_20A19_13D12_6 0x10000009 n b a d
  | .fmin n b a d => wordN31_31B26_20A19_13D12_6 0x18000009 n b a d
  | .fmax n b a d => wordN31_31B26_20A19_13D12_6 0x20000009 n b a d
  | .fdiv n b a d => wordN31_31B26_20A19_13D12_6 0x28000009 n b a d
  | .frint n a d => wordN31_31A19_13D12_6 0x37C00009 n a d
  | .fsgnj n b a d => wordN31_31B26_20A19_13D12_6 0x38000009 n b a d
  | .faddF64 n b a d => wordN31_31B26_20A19_13D12_6 0x0000000B n b a d
  | .fmulF64 n b a d => wordN31_31B26_20A19_13D12_6 0x0800000B n b a d
  | .fdivF64 n b a d => wordN31_31B26_20A19_13D12_6 0x1000000B n b a d
  | .fsqrtF64 n a d => wordN31_31A19_13D12_6 0x1FC0000B n a d
  | .fminF64 n b a d => wordN31_31B26_20A19_13D12_6 0x2000000B n b a d
  | .fmaxF64 n b a d => wordN31_31B26_20A19_13D12_6 0x2800000B n b a d
  | .faddF16 n b a d => wordN31_31B26_20A19_13D12_6 0x0000000D n b a d
  | .fmulF16 n b a d => wordN31_31B26_20A19_13D12_6 0x0800000D n b a d
  | .fmaxF16 n b a d => wordN31_31B26_20A19_13D12_6 0x1000000D n b a d
  | .faddBf16 n b a d => wordN31_31B26_20A19_13D12_6 0x1800000D n b a d
  | .fmulBf16 n b a d => wordN31_31B26_20A19_13D12_6 0x2000000D n b a d
  | .fmaxBf16 n b a d => wordN31_31B26_20A19_13D12_6 0x2800000D n b a d
  | .fmaF32 n g c b a d => wordN31_31G30_30C29_29B26_20A19_13D12_6 0x0000000F n g c b a d
  | .fmaF64 n g c b a d => wordN31_31G30_30C29_29B26_20A19_13D12_6 0x0800000F n g c b a d
  | .fmaF16x2 n g c b a d => wordN31_31G30_30C29_29B26_20A19_13D12_6 0x1000000F n g c b a d
  | .fmaBf16x2 n g c b a d => wordN31_31G30_30C29_29B26_20A19_13D12_6 0x1800000F n g c b a d
  | .ceq t b a p => wordT31_30B25_19A18_12P11_6 0x00000011 t b a p
  | .cne t b a p => wordT31_30B25_19A18_12P11_6 0x04000011 t b a p
  | .clt t b a p => wordT31_30B25_19A18_12P11_6 0x08000011 t b a p
  | .cle t b a p => wordT31_30B25_19A18_12P11_6 0x0C000011 t b a p
  | .cgt t b a p => wordT31_30B25_19A18_12P11_6 0x10000011 t b a p
  | .cge t b a p => wordT31_30B25_19A18_12P11_6 0x14000011 t b a p
  | .cord t b a p => wordT30_30B25_19A18_12P11_6 0x98000011 t b a p
  | .cuno t b a p => wordT30_30B25_19A18_12P11_6 0x9C000011 t b a p
  | .cueq t b a p => wordT30_30B25_19A18_12P11_6 0xA0000011 t b a p
  | .cune t b a p => wordT30_30B25_19A18_12P11_6 0xA4000011 t b a p
  | .cult t b a p => wordT30_30B25_19A18_12P11_6 0xA8000011 t b a p
  | .cule t b a p => wordT30_30B25_19A18_12P11_6 0xAC000011 t b a p
  | .cugt t b a p => wordT30_30B25_19A18_12P11_6 0xB0000011 t b a p
  | .cuge t b a p => wordT30_30B25_19A18_12P11_6 0xB4000011 t b a p
  | .ctrue t b a p => wordT31_30B25_19A18_12P11_6 0x38000011 t b a p
  | .cfalse t b a p => wordT31_30B25_19A18_12P11_6 0x3C000011 t b a p
  | .plop f b a p => wordF27_24B23_18A17_12P11_6 0x00000013 f b a p
  | .pland f b a p => wordF27_24B23_18A17_12P11_6 0x10000013 f b a p
  | .plor f b a p => wordF27_24B23_18A17_12P11_6 0x20000013 f b a p
  | .plxor f b a p => wordF27_24B23_18A17_12P11_6 0x30000013 f b a p
  | .sel n s b a d => wordN31_31S30_27B26_20A19_13D12_6 0x00000015 n s b a d
  | .exp2 n a d => wordN31_31A19_13D12_6 0x07C00017 n a d
  | .log2 n a d => wordN31_31A19_13D12_6 0x0FC00017 n a d
  | .rcp n a d => wordN31_31A19_13D12_6 0x17C00017 n a d
  | .rsq n a d => wordN31_31A19_13D12_6 0x1FC00017 n a d
  | .sqrt n a d => wordN31_31A19_13D12_6 0x27C00017 n a d
  | .sin n a d => wordN31_31A19_13D12_6 0x2FC00017 n a d
  | .cos n a d => wordN31_31A19_13D12_6 0x37C00017 n a d
  | .tanh n a d => wordN31_31A19_13D12_6 0x3FC00017 n a d
  | .movs s d => wordS24_13D12_6 0x00000019 s d
  | .sets s a => wordS24_13A12_6 0x02000019 s a
  | .setwb w => wordW24_13 0x04000019 w
  | .xset k u => wordK24_23U22_13 0x06000019 k u
  | .xadd k v => wordK24_23V22_13 0x08000019 k v
  | .nop => 0x0A000019
  | .fence r s => wordR17_16S15_13 0x0C000019 r s
  | .oswait n => wordN24_13 0x0E000019 n
  | .rcflush k a => wordK24_13A12_6 0x10000019 k a
  | .tmark i a => wordI24_13A12_6 0x12000019 i a
  | .tsmp => 0x14000019
  | .br o q p u => wordO31_14Q13_13P12_7U6_6 0x0000001B o q p u
  | .call o u => wordO31_7U6_6 0x0000001D o u
  | .calli u a => wordU13_13A12_6 0x0000001F u a
  | .jmpi u a => wordU13_13A12_6 0x0200001F u a
  | .ret u => wordU13_13 0x0400001F u
  | .trap n => wordN20_13 0x0600001F n
  | .trapret => 0x0800001F
  | .exit => 0x0A00001F
  | .yield => 0x0C00001F
  | .loop o a l => wordO31_19A18_12L11_10 0x00000021 o a l
  | .loopi o i l => wordO31_19I18_12L11_10 0x00000061 o i l
  | .lbrk l => wordL11_10 0x000000A1 l
  | .lcont l => wordL11_10 0x000000E1 l
  | .bar => 0x00000023
  | .cvarm k a => wordK16_13A12_6 0x02000023 k a
  | .cvsign k => wordK16_13 0x04000023 k
  | .cvsync k => wordK16_13 0x04020023 k
  | .cvwait k => wordK16_13 0x06000023 k
  | .shflIdx n b a d => wordN31_31B26_20A19_13D12_6 0x00000025 n b a d
  | .shflUp n b a d => wordN31_31B26_20A19_13D12_6 0x08000025 n b a d
  | .shflDn n b a d => wordN31_31B26_20A19_13D12_6 0x10000025 n b a d
  | .shflXor n b a d => wordN31_31B26_20A19_13D12_6 0x18000025 n b a d
  | .qxchXor n m a d => wordN31_31M21_20A19_13D12_6 0x20000025 n m a d
  | .qxchBc n m a d => wordN31_31M21_20A19_13D12_6 0x20400025 n m a d
  | .gqMask n a d => wordN31_31A19_13D12_6 0x28000025 n a d
  | .gqEvery n a d => wordN31_31A19_13D12_6 0x28100025 n a d
  | .gqSome n a d => wordN31_31A19_13D12_6 0x28200025 n a d
  | .gqSame n a d => wordN31_31A19_13D12_6 0x28300025 n a d
  | .peersB32 n a d => wordN31_31A19_13D12_6 0x30000025 n a d
  | .peersB64 n a d => wordN31_31A19_13D12_6 0x30100025 n a d
  | .bflyS64 n k a d => wordN31_31K22_20A19_13D12_6 0x38000025 n k a d
  | .scanAdd n a d => wordN31_31A19_13D12_6 0x00000027 n a d
  | .scanFadd n a d => wordN31_31A19_13D12_6 0x00100027 n a d
  | .scanMax n a d => wordN31_31A19_13D12_6 0x00200027 n a d
  | .scanMin n a d => wordN31_31A19_13D12_6 0x00300027 n a d
  | .scanxAdd n a d => wordN31_31A19_13D12_6 0x00400027 n a d
  | .scanxFadd n a d => wordN31_31A19_13D12_6 0x00500027 n a d
  | .scanxMax n a d => wordN31_31A19_13D12_6 0x00600027 n a d
  | .scanxMin n a d => wordN31_31A19_13D12_6 0x00700027 n a d
  | .gredAdd n a d => wordN31_31A19_13D12_6 0x08000027 n a d
  | .gredFadd n a d => wordN31_31A19_13D12_6 0x08100027 n a d
  | .gredMax n a d => wordN31_31A19_13D12_6 0x08200027 n a d
  | .gredMin n a d => wordN31_31A19_13D12_6 0x08300027 n a d
  | .cmpct n b a d => wordN31_31B26_20A19_13D12_6 0x10000027 n b a d
  | .regroup => 0x18000027
  | .remap n a d => wordN31_31A19_13D12_6 0x27C00027 n a d
  | .expand n b a d => wordN31_31B26_20A19_13D12_6 0x28000027 n b a d
  | .cvt n b a d => wordN31_31B26_20A19_13D12_6 0x00000029 n b a d
  | .qnt n b a d => wordN31_31B26_20A19_13D12_6 0x08000029 n b a d
  | .dqnt n b a d => wordN31_31B26_20A19_13D12_6 0x10000029 n b a d
  | .qscl n b a d => wordN31_31B26_20A19_13D12_6 0x18000029 n b a d
  | .rot n b a d => wordN31_31B26_20A19_13D12_6 0x20000029 n b a d
  | .irot n b a d => wordN31_31B26_20A19_13D12_6 0x28000029 n b a d
  | .seed n k a d => wordN31_31K22_20A19_13D12_6 0x30000029 n k a d
  | .seedr n k a d => wordN31_31K22_20A19_13D12_6 0x38000029 n k a d
  | .tagmk n a d => wordN31_31A19_13D12_6 0x47C00029 n a d
  | .sgen n k a d => wordN31_31K22_20A19_13D12_6 0x48000029 n k a d
  | .ldN8 q s o a v => wordQ31_28S27_25O24_23A19_13V12_6 0x0000002B q s o a v
  | .ldS8 q s o a v => wordQ31_28S27_25O24_23A19_13V12_6 0x0010002B q s o a v
  | .ldN16 q s o a v => wordQ31_28S27_25O24_23A19_13V12_6 0x0020002B q s o a v
  | .ldS16 q s o a v => wordQ31_28S27_25O24_23A19_13V12_6 0x0030002B q s o a v
  | .ldB32 q s o a v => wordQ31_28S27_25O24_23A19_13V12_6 0x0040002B q s o a v
  | .ldB64 q s o a v => wordQ31_28S27_25O24_23A19_13V12_6 0x0050002B q s o a v
  | .ldB128 q s o a v => wordQ31_28S27_25O24_23A19_13V12_6 0x0060002B q s o a v
  | .prf q a => wordQ31_28A19_13 0x00701F2B q a
  | .stB8 q s o a v => wordQ31_28S27_25O24_23A19_13V12_6 0x0000002D q s o a v
  | .stB16 q s o a v => wordQ31_28S27_25O24_23A19_13V12_6 0x0010002D q s o a v
  | .stB32 q s o a v => wordQ31_28S27_25O24_23A19_13V12_6 0x0020002D q s o a v
  | .stB64 q s o a v => wordQ31_28S27_25O24_23A19_13V12_6 0x0030002D q s o a v
  | .stB128 q s o a v => wordQ31_28S27_25O24_23A19_13V12_6 0x0040002D q s o a v
  | .zline q s o a => wordQ31_28S27_25O23_23A19_13 0x00501F2D q s o a
  | .cwb q a => wordQ31_28A19_13 0x00601F2D q a
  | .cinv q a => wordQ31_28A19_13 0x00701F2D q a
  | .atomAdd t s r a v => wordT31_30S29_27R26_25A19_13V12_6 0x0000002F t s r a v
  | .atomMinS t s r a v => wordT31_30S29_27R26_25A19_13V12_6 0x0010002F t s r a v
  | .atomMaxS t s r a v => wordT31_30S29_27R26_25A19_13V12_6 0x0020002F t s r a v
  | .atomMinN t s r a v => wordT31_30S29_27R26_25A19_13V12_6 0x0030002F t s r a v
  | .atomMaxN t s r a v => wordT31_30S29_27R26_25A19_13V12_6 0x0040002F t s r a v
  | .atomAnd t s r a v => wordT31_30S29_27R26_25A19_13V12_6 0x0050002F t s r a v
  | .atomOr t s r a v => wordT31_30S29_27R26_25A19_13V12_6 0x0060002F t s r a v
  | .atomXor t s r a v => wordT31_30S29_27R26_25A19_13V12_6 0x0070002F t s r a v
  | .atomXchg t s r a v => wordT31_30S29_27R26_25A19_13V12_6 0x0080002F t s r a v
  | .atomCas t s r a v => wordT31_30S29_27R26_25A19_13V12_6 0x0090002F t s r a v
  | .atomFadd t s r a v => wordT31_30S29_27R26_25A19_13V12_6 0x00A0002F t s r a v
  | .atomFmin t s r a v => wordT31_30S29_27R26_25A19_13V12_6 0x00B0002F t s r a v
  | .atomFmax t s r a v => wordT31_30S29_27R26_25A19_13V12_6 0x00C0002F t s r a v
  | .atomBinc t s r a v => wordT31_30S29_27R26_25A19_13V12_6 0x00D0002F t s r a v
  | .atomWinc t s r a v => wordT31_30S29_27R26_25A19_13V12_6 0x00E0002F t s r a v
  | .atomDdecN t s r a v => wordT31_30S29_27R26_25A19_13V12_6 0x00F0002F t s r a v
  | .atomDdecS t s r a v => wordT31_30S29_27R26_25A19_13V12_6 0x0100002F t s r a v
  | .atomLaddN t s r a v => wordT31_30S29_27R26_25A19_13V12_6 0x0110002F t s r a v
  | .atomLaddS t s r a v => wordT31_30S29_27R26_25A19_13V12_6 0x0120002F t s r a v
  | .atomLd t s r a v => wordT31_30S29_27R26_25A19_13V12_6 0x0130002F t s r a v
  | .redAdd t s r a v => wordT31_30S29_27R26_26A19_13V12_6 0x00000031 t s r a v
  | .redMinS t s r a v => wordT31_30S29_27R26_26A19_13V12_6 0x00100031 t s r a v
  | .redMaxS t s r a v => wordT31_30S29_27R26_26A19_13V12_6 0x00200031 t s r a v
  | .redMinN t s r a v => wordT31_30S29_27R26_26A19_13V12_6 0x00300031 t s r a v
  | .redMaxN t s r a v => wordT31_30S29_27R26_26A19_13V12_6 0x00400031 t s r a v
  | .redAnd t s r a v => wordT31_30S29_27R26_26A19_13V12_6 0x00500031 t s r a v
  | .redOr t s r a v => wordT31_30S29_27R26_26A19_13V12_6 0x00600031 t s r a v
  | .redXor t s r a v => wordT31_30S29_27R26_26A19_13V12_6 0x00700031 t s r a v
  | .redFadd t s r a v => wordT31_30S29_27R26_26A19_13V12_6 0x00800031 t s r a v
  | .redFmin t s r a v => wordT31_30S29_27R26_26A19_13V12_6 0x00900031 t s r a v
  | .redFmax t s r a v => wordT31_30S29_27R26_26A19_13V12_6 0x00A00031 t s r a v
  | .redFadda t s r a v => wordT31_30S29_27R26_26A19_13V12_6 0x00B00031 t s r a v
  | .cpl m t d => wordM31_30T29_24D12_6 0x000F8033 m t d
  | .cpt t d => wordT29_24D12_6 0x001F8033 t d
  | .cptr t d => wordT29_24D12_6 0x002F8033 t d
  | .cptc t d => wordT29_24D12_6 0x003F8033 t d
  | .cpml t c d => wordT29_24C19_13D12_6 0x00400033 t c d
  | .cpms t c d => wordT29_24C19_13D12_6 0x00500033 t c d
  | .expect t d => wordT29_24D12_6 0x006F8033 t d
  | .wany m c d => wordM31_30C19_13D12_6 0x00700033 m c d
  | .wall m d => wordM31_30D12_6 0x008F8033 m d
  | .ffrdy m c d => wordM31_30C19_13D12_6 0x00900033 m c d
  | .awaitf c d => wordC19_13D12_6 0x00A00033 c d
  | .relslot d => wordD12_6 0x00BF8033 d
  | .gsg t c d => wordT29_24C19_13D12_6 0x00000035 t c d
  | .gsgm t c d => wordT29_24C19_13D12_6 0x00100035 t c d
  | .gss t c d => wordT29_24C19_13D12_6 0x00200035 t c d
  | .gssm t c d => wordT29_24C19_13D12_6 0x00300035 t c d
  | .gswt m t c d => wordM31_30T29_24C19_13D12_6 0x00400035 m t c d
  | .gspoll m t c d => wordM31_30T29_24C19_13D12_6 0x00500035 m t c d
  | .mma z p w k d => wordZ19_19P18_18W17_17K16_13D12_6 0x00000037 z p w k d
  | .mmam z p w k d => wordZ19_19P18_18W17_17K16_13D12_6 0x00100037 z p w k d
  | .aalloc p a d => wordP25_20A19_13D12_6 0x00000039 p a d
  | .afree a => wordA19_13 0x0FC01F39 a
  | .aacq a => wordA19_13 0x17C01F39 a
  | .arel a => wordA19_13 0x1FC01F39 a
  | .azero a => wordA19_13 0x27C01F39 a
  | .ard b a d => wordB26_20A19_13D12_6 0x28000039 b a d
  | .awr b a d => wordB26_20A19_13D12_6 0x30000039 b a d
  | .asv l a d => wordL22_20A19_13D12_6 0x38000039 l a d
  | .arst l a d => wordL22_20A19_13D12_6 0x40000039 l a d
  | .mtag b a d => wordB26_20A19_13D12_6 0x48000039 b a d
  | .sproj a d => wordA19_13D12_6 0x07C0003B a d
  | .sload s a d => wordS22_20A19_13D12_6 0x0800003B s a d
  | .sblend b a d => wordB26_20A19_13D12_6 0x1000003B b a d
  | .sgrad b a d => wordB26_20A19_13D12_6 0x1800003B b a d
  | .sinit a => wordA19_13 0x2000003B a
  | .sinitr => 0x201F803B
  | .srd d => wordD12_6 0x2FCF803B d
  | .swr a => wordA19_13 0x37C0003B a
  | .skey b a d => wordB26_20A19_13D12_6 0x3800003B b a d
  | .kemit c d => wordC19_13D12_6 0x0000003D c d
  | .ksort t c d => wordT29_24C19_13D12_6 0x0010003D t c d
  | .ksortBat t c d => wordT29_24C19_13D12_6 0x4010003D t c d
  | .ksel t c d => wordT29_24C19_13D12_6 0x0020003D t c d
  | .kselBat t c d => wordT29_24C19_13D12_6 0x4020003D t c d
  | .kcs t c d => wordT29_24C19_13D12_6 0x0030003D t c d
  | .ocomp t c d => wordT29_24C19_13D12_6 0x0040003D t c d
  | .ored t c d => wordT29_24C19_13D12_6 0x0050003D t c d
  | .cbar t c d => wordT29_24C19_13D12_6 0x0060003D t c d
  | .cfail c d => wordC19_13D12_6 0x0070003D c d
  | .launch c d => wordC19_13D12_6 0x0080003D c d
  | .launchSig t c d => wordT29_24C19_13D12_6 0x4080003D t c d
  | .spawn k c d => wordK26_24C19_13D12_6 0x0090003D k c d
  | .spawnNow k c d => wordK26_24C19_13D12_6 0x4090003D k c d
  | .tgsig c d => wordC19_13D12_6 0x00A0003D c d
  | .binflush c d => wordC19_13D12_6 0x00B0003D c d
  | .fxrun c d => wordC19_13D12_6 0x00C0003D c d
  | .fxrunSig t c d => wordT29_24C19_13D12_6 0x40C0003D t c d
  | .fxabort c d => wordC19_13D12_6 0x00D0003D c d
  | .tcsnap t d => wordT29_24D12_6 0x00EF803D t d
  | .tflush t => wordT29_24 0x00FF9F3D t
  | .sli d i => wordD25_21I15_0 0x04000000 d i
  | .saddi d a i => wordD25_21A20_16I15_0 0x08000000 d a i
  | .saluAdd d a b => wordD25_21A20_16B15_11 0x0C000000 d a b
  | .saluSub d a b => wordD25_21A20_16B15_11 0x0C000001 d a b
  | .saluMul d a b => wordD25_21A20_16B15_11 0x0C000002 d a b
  | .saluAnd d a b => wordD25_21A20_16B15_11 0x0C000003 d a b
  | .saluOr d a b => wordD25_21A20_16B15_11 0x0C000004 d a b
  | .saluXor d a b => wordD25_21A20_16B15_11 0x0C000005 d a b
  | .saluShl d a b => wordD25_21A20_16B15_11 0x0C000006 d a b
  | .saluShr d a b => wordD25_21A20_16B15_11 0x0C000007 d a b
  | .sld d a i => wordD25_21A20_16I15_0 0x10000000 d a i
  | .sst d a i => wordD25_21A20_16I15_0 0x14000000 d a i
  | .b i => wordI15_0 0x18000000 i
  | .bEqz a i => wordA20_16I15_0 0x18200000 a i
  | .bNez a i => wordA20_16I15_0 0x18400000 a i
  | .bLtz a i => wordA20_16I15_0 0x18600000 a i
  | .bGez a i => wordA20_16I15_0 0x18800000 a i
  | .floop a i => wordA20_16I15_0 0x1C000000 a i
  | .stepend => 0x20000000
  | .fend => 0x24000000
  | .fld d a n i => wordD25_21A20_16N15_11I10_0 0x28000000 d a n i
  | .fst d a n i => wordD25_21A20_16N15_11I10_0 0x2C000000 d a n i
  | .fredf d a n i => wordD25_21A20_16N15_11I10_0 0x30000000 d a n i
  | .fbc d a h => wordD25_21A20_16H6_6 0x34000000 d a h
  | .fext d a l => wordD25_21A20_16L9_6 0x38000000 d a l
  | .fins d a l => wordD25_21A20_16L9_6 0x3C000000 d a l
  | .fopAdd d a b n => wordD25_21A20_16B15_11N5_4 0x40000000 d a b n
  | .fopSub d a b n => wordD25_21A20_16B15_11N5_4 0x40000001 d a b n
  | .fopMul d a b n => wordD25_21A20_16B15_11N5_4 0x40000002 d a b n
  | .fopDiv d a b n => wordD25_21A20_16B15_11N5_4 0x40000003 d a b n
  | .fopMin d a b n => wordD25_21A20_16B15_11N5_4 0x40000004 d a b n
  | .fopMax d a b n => wordD25_21A20_16B15_11N5_4 0x40000005 d a b n
  | .fopFma d a b c n => wordD25_21A20_16B15_11C10_6N5_4 0x40000006 d a b c n
  | .fopFnma d a b c n => wordD25_21A20_16B15_11C10_6N5_4 0x40000007 d a b c n
  | .fopSqrt d a n => wordD25_21A20_16N5_4 0x40000008 d a n
  | .fopMov d a n => wordD25_21A20_16N5_4 0x40000009 d a n
  | .iopAdd d a b n => wordD25_21A20_16B15_11N5_4 0x44000000 d a b n
  | .iopSub d a b n => wordD25_21A20_16B15_11N5_4 0x44000001 d a b n
  | .iopAnd d a b n => wordD25_21A20_16B15_11N5_4 0x44000002 d a b n
  | .iopOr d a b n => wordD25_21A20_16B15_11N5_4 0x44000003 d a b n
  | .iopXor d a b n => wordD25_21A20_16B15_11N5_4 0x44000004 d a b n
  | .iopShl d a b n => wordD25_21A20_16B15_11N5_4 0x44000005 d a b n
  | .iopShr d a b n => wordD25_21A20_16B15_11N5_4 0x44000006 d a b n
  | .iopSel d a b c n => wordD25_21A20_16B15_11C10_6N5_4 0x44000007 d a b c n
  | .iopFclt d a b n => wordD25_21A20_16B15_11N5_4 0x44000008 d a b n
  | .iopIeq d a b n => wordD25_21A20_16B15_11N5_4 0x44000009 d a b n
  | .fcvt d a c => wordD25_21A20_16C10_6 0x48000000 d a c
  | .fdq d a b c o => wordD25_21A20_16B15_11C10_6O3_0 0x4C000000 d a b c o
  | .frq d a b c o => wordD25_21A20_16B15_11C10_6O3_0 0x50000000 d a b c o
  | .frot d a c v => wordD25_21A20_16C10_6V0_0 0x54000000 d a c v
  | .wbld d a n => wordD25_21A20_16N1_0 0x58000000 d a n
  | .fflg d c => wordD25_21C6_6 0x5C000000 d c
  | .regroupComplete .. | .groupSlotQuota .. | .groupAged .. | .starveForced .. | .storePerformed .. 
  | .loadDataReturn .. | .atomicPerform .. | .l1Writeback .. | .rdcRequestArrive .. | .rangeLockGrant .. 
  | .engineBytesArrive .. | .ringSlotClaim .. | .copyCommandComplete .. | .gseCommandComplete .. 
  | .matrixPhaseEnd .. | .matrixOperationComplete .. | .aallocGrant .. | .qtenWrite .. | .queueTableWake .. 
  | .ringLineWake .. | .launchRecord .. | .tlbInvalidationRecord .. | .tlbInvalidationComplete .. 
  | .markerRecord .. | .startTickReached .. | .launchDispatch .. | .clusterPlace .. | .stageDrainComplete .. 
  | .sliceExpire .. | .blockSave .. | .queueResume .. | .spawnBinTimerExpire .. | .spawnBlockDispatch .. 
  | .launchComplete .. | .hostPendDecrement .. | .fixerKernelAdmit .. | .fixerInstanceStart .. 
  | .fixerKernelComplete .. | .kseCommandBegin .. | .kseCommandComplete .. | .collectiveBegin .. 
  | .collectiveComplete .. | .peerFlitTimeout .. | .peerLossReport .. | .channelRequestServe .. 
  | .requestAged .. | .burstCrcError .. | .burstReplayExhausted .. | .laneCrcThreshold .. | .laneRepair .. 
  | .repair .. | .retrain .. | .retrainDone .. | .eyeSample .. | .rowSwap .. | .retire .. 
  | .errorCountClear .. | .irqstClear .. | .missCounterClear .. | .hctlWrite .. | .heatHalve .. 
  | .heatClear .. | .heatPassDone .. | .cxlLinkDown .. | .migrationSubmit .. | .migrationComplete .. 
  | .tctlWrite .. | .tdropClear .. | .halt .. | .resume .. | .step .. | .timebaseLowRead .. 
  | .timebaseHighRead .. | .seedLowRead .. | .counterSnapshotRead .. | .powerUp .. | .coldReset .. 
  | .warmReset .. | .windowRead .. | .windowWrite .. | .firmwareStage .. | .firmwareActivate .. 
  | .selfTestLogRead .. | .retirementTableRead .. | .unknownCommand .. | .getVersion .. | .getCapabilities .. 
  | .negotiateAlgorithms .. | .getDigests .. | .getCertificate .. | .challenge .. | .getMeasurements .. 
  | .pkidWrite .. | .qtbWrite .. | .mirqClear .. | .pwrSample .. | .selfTestStart .. | .selfTestComplete .. 
  | .registerWrite .. | .unassignedEncoding .. | .fetchFault .. | .fixerUnassignedOp .. | .fixerFetchFault .. 
  | .twinericLinkFailure .. | .cxlLinkRetrain .. | .powerLoss .. | .peerRequest .. | .hostAccess .. => 0

/-- The bytes of an instruction, little-endian (R67): none for an event. -/
def encode (i : Instr) : List Byte := toBytes i.bytes (encodeWord i)

/-- The `match` words of fixer rows whose bit 0 is 1 and that are the `match` word of no Densil row. -/
def oddFixerMatches : List Nat :=
  [0x0C000001, 0x0C000003, 0x0C000005, 0x0C000007, 0x40000005, 0x40000007, 0x40000009,
   0x44000001, 0x44000003, 0x44000005, 0x44000007, 0x44000009]

/-- The instruction of a word numbered as the opcode table numbers it. The table holds two encoding spaces, of Densil
programs and of fixers, and its number alone does not say which: a word whose bit 0 is 0, or that is the `match` word of a
fixer row alone, is read as a fixer word, any other first as a Densil word (log entry 16). -/
noncomputable def decodeTableWord (nbits w : Nat) : Option Instr :=
  if nbits = 16 then decode16 w
  else if w % 2 = 1 ∧ !(w ∈ oddFixerMatches) then
    match decode32 w with
    | some i => some i
    | none => decodeFixer w
  else decodeFixer w

end Sys2Proof
end

