-- ==== Sys2Proof/Machine/Issue.lean ====
section
/-! DEFINITION. The issue stage (04 R67-R70, R79, R82; 07 R164-R171; 19 R438, R441, R442): instruction fetch, the
choice of group and paths, issue-slot counters, breakpoints and single step, and the latched special registers as
events (01 R24, 10 R247, 19 R439). -/

namespace Sys2Proof.Machine

open Sys2Proof

/-! ### Fetch, 04 R67, R68 -/

/-- One halfword at an address: its bytes, or the cause and subcause of the fault. -/
def State.fetchHalf (s : State) (core blk va : Nat) : State × Except (Nat × Nat) (List Byte) :=
  match s.translate (s.ctxOf core blk) va .x with
  | (s1, .error f) => (s1, .error f)
  | (s1, .ok p) =>
    let (s2, bs, lost) := s1.homeRead p.pa 2
    if lost || s2.badAt (lineOf p.pa * 128) 128 then (s2, .error (0x0D, 1)) else (s2, .ok bs)

/-- The two or four bytes of the instruction at a PC, or cause, subcause and address of the halfword that faults. The front end
never fetches from an odd address: where `ret` or `trapret` has gone to one, for which the spec names no cause, the model
raises that of an odd indirect target, 0x08 with subcause 0x02, at the target (log entry 43). -/
def State.fetch (s : State) (core blk : Nat) (pc : Dword) : State × Except (Nat × Nat × Nat) (List Byte) :=
  if pc.getLsbD 0 then (s, .error (8, 2, pc.toNat))
  else
  match s.fetchHalf core blk pc.toNat with
  | (s1, .error f) => (s1, .error (f.1, f.2, pc.toNat))
  | (s1, .ok lo) =>
    if natOf lo % 2 = 0 then (s1, .ok lo)
    else
      match s1.fetchHalf core blk (pc + 2).toNat with
      | (s2, .error f) => (s2, .error (f.1, f.2, (pc + 2).toNat))
      | (s2, .ok hi) => (s2, .ok (lo ++ hi))

/-- R68: a fetch fault is a precise trap of every lane of the path. -/
def execFetchFault (cause sub : Nat) (addr : Dword) (s : State) : Out :=
  .next (s.trapPath cause sub addr (memDet 2 false false true))

/-- R79: a word that is no instruction raises cause 0x01. -/
def execUnassignedEncoding (_w : Word) (s : State) : Out := .next (s.trapPath 1 0 0 0)

/-- Where an instruction's 7-bit source fields stand, by major (04 R73). -/
def sourceFields (major : Nat) : List Nat :=
  match major with
  | 2 => [13] | 8 => [12, 19] | 12 => [6] | 15 => [6] | 16 => [12] | 17 => [6] | 21 => [13]
  | 22 => [6, 13] | 23 => [6, 13] | 24 => [6, 13] | 25 => [6, 13] | 26 => [6, 13] | 27 => [6] | 30 => [13]
  | 3 => [] | 9 => [] | 13 => [] | 14 => []
  | _ => [13, 20]

/-- Whether an instruction's word reads a latch: a source field that names b0 to b7. -/
def wordReadsLatch (bs : List Byte) : Bool :=
  let w := natOf bs
  if w % 2 = 0 then decide (24 ≤ w / 2 ^ 10 % 32)
  else if w / 2 % 32 = 16 ∧ w / 64 % 16 ≠ 0 then false
  else (sourceFields (w / 2 % 32)).any fun i => decide (116 ≤ w / 2 ^ i % 128) && decide (w / 2 ^ i % 128 < 124)

/-! ### Paths, 07 R168, R171 -/

/-- Runnable threads of a group. -/
def Block.runners (b : Block) (g : Nat) : List (Nat × Thread) := b.threads.filter fun p => p.2.group == g && p.2.runnable

/-- A path: its PC and its threads. -/
abbrev Path := Dword × List (Nat × Thread)

/-- The paths of threads, by PC. -/
def pathsOf (ts : List (Nat × Thread)) : List Path :=
  ((ts.map fun p => p.2.pc).eraseDups).map fun a => (a, ts.filter fun p => p.2.pc == a)

/-- The path of the largest population; ties go to the lower PC. -/
def largestPath (ps : List Path) : Option Path :=
  ps.foldl (fun m p => match m with
    | none => some p
    | some q => if q.2.length < p.2.length ∨ (q.2.length = p.2.length ∧ p.1.toNat < q.1.toNat) then some p else some q) none

/-- The largest starve count of a path. -/
def starveOf (p : Path) : Nat := p.2.foldl (fun n x => max n x.2.starve) 0

/-- The path that starvation forces into the second place, at a count of 64 as R168's pseudocode has it: that is the 65th
slot after the last issue, where the sentence of R169 says the 64th (log entry 43). -/
def forcedPath (ps : List Path) : Option Path :=
  (ps.filter fun p => decide (64 ≤ starveOf p)).foldl (fun m p => match m with
    | none => some p
    | some q => if starveOf q < starveOf p ∨ (starveOf q = starveOf p ∧ p.1.toNat < q.1.toNat) then some p else some q) none

/-- The first and second path of a group's slot. -/
def choosePaths (ts : List (Nat × Thread)) : Option (Path × Option Path) :=
  let ps := pathsOf ts
  match largestPath ps with
  | none => none
  | some p =>
    let rest := ps.filter fun q => q.1 != p.1
    some (p, match forcedPath rest with | some q => some q | none => largestPath rest)

/-- The thread that a helper lane follows: the lowest live one of its quad (R171). -/
def Block.leaderOf (b : Block) (h : Thread) : Option Nat :=
  (b.threads.find? fun p => p.2.live && p.2.group == h.group && p.2.rank / 4 == h.rank / 4).map (·.1)

/-- A lane in its place by index. -/
def insertLane (x : LaneRef) : List LaneRef → List LaneRef
  | [] => [x]
  | y :: l => if x.idx < y.idx then x :: y :: l else y :: insertLane x l

/-- The lanes of a path: its threads and the helpers that follow them. -/
def Block.lanesOf (b : Block) (g : Nat) (idxs : List Nat) : List LaneRef :=
  let hs := (b.helpers.filter fun p => p.2.group == g && (match b.leaderOf p.2 with | some i => i ∈ idxs | none => false)).map
    fun p => (⟨true, p.1⟩ : LaneRef)
  (hs ++ idxs.map fun i => (⟨false, i⟩ : LaneRef)).foldl (fun l x => insertLane x l) []

def Block.issueOf (b : Block) (core blk g : Nat) (p : Path) : Issue := ⟨core, blk, g, p.1, b.lanesOf g (p.2.map (·.1))⟩

/-! ### Groups, 07 R165-R167 -/

/-- The groups of a quadrant that hold a thread with some property, with their blocks. -/
def State.groupsWith (s : State) (core q : Nat) (f : Block → Thread → Bool) : List (Nat × Nat) :=
  (s.coreAt core).blocks.flatMap fun p =>
    ((p.2.groups.filter fun g => quadOf p.2 g == q && p.2.threads.any fun t => t.2.group == g && f p.2 t.2).map fun g => (p.1, g))

/-- Groups of a quadrant that have an instruction to issue. -/
def State.runnableGroups (s : State) (core q : Nat) : List (Nat × Nat) := s.groupsWith core q fun b t => s.mayIssue b && t.runnable

/-- Groups of a quadrant that have been noted as ready. -/
def State.readyGroups (s : State) (core q : Nat) : List (Nat × Nat) :=
  (s.runnableGroups core q).filter fun x => ((s.block? core x.1).map fun b => (sget b.readyAt x.2).isSome).getD false

/-- Keys 2 to 4 of R166. -/
def State.lowKey (s : State) (core : Nat) (x : Nat × Nat) : List Nat :=
  match s.block? core x.1 with
  | none => []
  | some b => [b.order, sgetD b.issued x.2 0, x.2]

/-- All keys of R166: aged groups first, by their wait. -/
def State.groupKey (s : State) (core : Nat) (x : Nat × Nat) : List Nat :=
  match s.block? core x.1 with
  | none => []
  | some b => (if x.2 ∈ b.aged then [0, sgetD b.readyAt x.2 0] else [1, 0]) ++ s.lowKey core x

/-- Lexicographic order. -/
def listLt : List Nat → List Nat → Bool
  | _, [] => false
  | [], _ => true
  | x :: xs, y :: ys => decide (x < y) || (x == y && listLt xs ys)

/-- The group that ranks first under some keys. -/
def firstGroup (key : Nat × Nat → List Nat) (gs : List (Nat × Nat)) : Option (Nat × Nat) :=
  gs.foldl (fun m g => match m with
    | none => some g
    | some x => if listLt (key g) (key x) then some g else some x) none

/-- Whether a thread of a group replays; one that a halt or a pre-emption has stopped does not (R84). -/
def State.replaying (s : State) (core : Nat) (x : Nat × Nat) : Bool :=
  match s.block? core x.1 with
  | none => false
  | some b => s.mayIssue b && b.threads.any fun p => p.2.group == x.2 && p.2.replay.isSome && p.2.runnable

/-- The paths that a group's slot would issue (R168). -/
def State.slotPaths (s : State) (core : Nat) (x : Nat × Nat) : List Issue :=
  match s.block? core x.1 with
  | none => []
  | some b =>
    match choosePaths (b.runners x.2) with
    | none => []
    | some (p, q) => (p :: (q.map fun y => [y]).getD []).map fun y => b.issueOf core x.1 x.2 y

/-- Whether an instruction chosen for a group's slot reads a latch. -/
def State.slotReadsLatch (s : State) (core : Nat) (x : Nat × Nat) : Bool :=
  (s.slotPaths core x).any fun i =>
    match (s.fetch core x.1 i.pc).2 with
    | .ok bs => wordReadsLatch bs
    | .error _ => false

/-- The group whose slot a quadrant issues next, of the ready ones (R165): none while the current group replays and awaits the
data of its other path. -/
def State.nextGroup (s : State) (core q : Nat) (ready : List (Nat × Nat)) : Option (Nat × Nat) :=
  let best := firstGroup (s.groupKey core)
  let quad := s.quadAt core q
  match quad.cur with
  | none => best ready
  | some c =>
    let others := ready.filter fun x => x != c
    let leave := match best others with | some x => some x | none => some c
    if s.replaying core c then (if c ∈ ready then some c else none)
    else if !(c ∈ ready) then best ready
    else if quad.yielded then leave
    else if s.slotReadsLatch core c then some c
    else if quad.quotaDue then leave
    else best ready

/-- R165: a group that has issued 16 slots leaves at the next slot that reads no latch. -/
def execGroupSlotQuota (core quad : Nat) (s : State) : Out :=
  .next (s.modQuad core quad fun q => if 16 ≤ q.slots then { q with quotaDue := true } else q)

/-- Notes since when the groups of a block that are ready have been so; the others wait no more. -/
def Block.noteReady (b : Block) (gs : List Nat) (cycle : Nat) : Block :=
  { b with
    readyAt := gs.foldl (fun m g => sput m g (sgetD b.readyAt g cycle)) []
    aged := b.aged.filter fun g => gs.contains g }

/-- A group that has been ready for 1,024 cycles is aged. -/
def Block.age (b : Block) (g cycle : Nat) : Block :=
  match sget b.readyAt g with
  | some t => if t + 1024 ≤ cycle ∧ !(g ∈ b.aged) then { b with aged := b.aged ++ [g] } else b
  | none => b

/-- R166: a group that has waited 1,024 cycles, ready, takes priority. -/
def execGroupAged (core blk grp : Nat) (s : State) : Out := .next (s.modBlock core blk fun b => b.age grp s.cycle)

/-- The starve counts after a slot (R168). -/
def Block.starveStep (b : Block) (g : Nat) (issued : List Nat) : Block :=
  { b with threads := b.threads.map fun p =>
      (p.1, if p.2.group == g && p.2.runnable then { p.2 with starve := if p.1 ∈ issued then 0 else p.2.starve + 1 } else p.2) }

/-- Another group of the quadrant issues: the latches of the last owner go (04 R82). A replay that this ends is that of a
thread which pre-emption or a halt has stopped: it lands at the replay PC (04 R87). -/
def State.takeLatches (s : State) (core q : Nat) (x : Nat × Nat) : State :=
  match (s.quadAt core q).owner with
  | none => s
  | some o =>
    if o = x then s
    else
      let lose (t : Thread) : Thread := if t.group = o.2 then t.landReplay else t
      s.modBlock core o.1 fun b =>
        { b with threads := b.threads.map fun p => (p.1, lose p.2), helpers := b.helpers.map fun p => (p.1, lose p.2) }

/-- The ready groups of a core noted, and aged where they have waited long. -/
def State.noteReady (s : State) (core : Nat) (ready : List (Nat × Nat)) : State :=
  ((s.coreAt core).blocks.map (·.1)).foldl (fun s k => s.modBlock core k fun b =>
    let gs := (ready.filter fun x => x.1 == k).map (·.2)
    gs.foldl (fun b g => b.age g s.cycle) (b.noteReady gs s.cycle)) s

/-- A group issues its next slot: the paths are executed one after the other (R170). -/
def State.issueSlot (s0 : State) (core q : Nat) (x : Nat × Nat) : State :=
    match (s0.block? core x.1).bind fun b => (choosePaths (b.runners x.2)).map fun ps => (b, ps) with
    | none => s0
    | some (b, p, q2) =>
      let idxs := (p.2 ++ (q2.map (·.2)).getD []).map (·.1)
      let s1 := s0.takeLatches core q x
      let s2 := s1.modQuad core q fun y =>
        let n := if y.cur = some x then y.slots + 1 else 1
        { y with cur := some x, owner := some x, slots := n, quotaDue := decide (16 ≤ n), yielded := false }
      let s3 := s2.modBlock core x.1 fun b =>
        { (b.starveStep x.2 idxs) with
          issued := sput b.issued x.2 (sgetD b.issued x.2 0 + 1)
          readyAt := sdel b.readyAt x.2
          aged := b.aged.filter fun g => g != x.2 }
      { s3 with sel := some (.path (b.issueOf core x.1 x.2 p)), slotMate := q2.map fun y => b.issueOf core x.1 x.2 y }

/-- R168: where the slot of a group that comes next has a path forced by starvation in its second place, that slot issues. -/
def execStarveForced (core blk grp : Nat) (s : State) : Out :=
  match s.sel, s.block? core blk with
  | none, some b =>
    let q := quadOf b grp
    let forced := match choosePaths (b.runners grp) with
      | some (_, some y) => decide (64 ≤ starveOf y)
      | _ => false
    if forced && s.mayIssue b && s.nextGroup core q (s.readyGroups core q) == some (blk, grp) then .next (s.issueSlot core q (blk, grp))
    else .next s
  | _, _ => .next s

/-- What is left of a path when it comes to execute: threads still runnable at its PC, and their helpers. -/
def State.livePath (s : State) (i : Issue) : Issue :=
  match s.block? i.core i.blk with
  | none => { i with lanes := [] }
  | some b =>
    let idxs := ((i.lanes.filter fun l => !l.helper).map (·.idx)).filter fun k =>
      match sget b.threads k with
      | some t => t.runnable && t.pc == i.pc && t.group == i.grp
      | none => false
    if s.mayIssue b then { i with lanes := b.lanesOf i.grp idxs } else { i with lanes := [] }

/-! ### Issue-slot counters, 19 R438 -/

/-- A wait that counts as waiting on memory, and one that counts as waiting on an engine. -/
def TMode.onMemory : TMode → Bool
  | .waiting (.oswait _) => true
  | .waiting .exitOsc => true
  | .waiting .trapOsc => true
  | .waiting (.held .stores) => true
  | _ => false

def TMode.onEngine : TMode → Bool
  | .waiting (.wall _) => true
  | .waiting (.wany _) => true
  | .waiting (.gswt _) => true
  | .waiting (.awaitf _) => true
  | .waiting (.aacq _) => true
  | .waiting .aalloc => true
  | .waiting (.held _) => true
  | .waiting .lock => true
  | _ => false

/-- The group that decides a slot which does not issue. -/
def State.decidingGroup (s : State) (core q : Nat) : Option (Nat × Nat) :=
  match (s.quadAt core q).cur with
  | some c => if s.replaying core c then some c else firstGroup (s.lowKey core) (s.groupsWith core q fun _ t => t.live)
  | none => firstGroup (s.lowKey core) (s.groupsWith core q fun _ t => t.live)

/-- Whether a group that could issue waits for the data of its loads or atomics: it has not been noted as ready. -/
def State.awaitsData (s : State) (core : Nat) (x : Nat × Nat) (b : Block) : Bool :=
  (sget b.readyAt x.2).isNone && b.threads.any fun p => p.2.group == x.2 && p.2.runnable &&
    ((s.loads.any fun l => l.who == ⟨core, x.1, p.1⟩)
      || s.atomics.any fun a => a.core == core && a.blk == x.1 && a.lanes.any fun l => l.1 == p.1)

/-- Whether an instruction chosen for a group's slot has not been fetched: its core holds no translation of its page yet. -/
def State.unfetched (s : State) (core : Nat) (x : Nat × Nat) : Bool :=
  (s.slotPaths core x).any fun i => (tlbHit (s.coreAt core).tlb (s.ctxOf core x.1).asid i.pc.toNat .x).isNone

/-- The class of a slot that does not issue (log entry 11); 7 where no group is resident. -/
def State.idleClass (s : State) (core q : Nat) : Nat :=
  match (s.decidingGroup core q).bind fun x => (s.block? core x.1).map fun b =>
      (if s.unfetched core x then 3 else if s.awaitsData core x b then 4 else 5, b.threads.filter fun p => p.2.group == x.2 && p.2.live) with
  | none => 7
  | some (reason, ts) =>
    if ts.any fun p => p.2.runnable then reason
    else if ts.any fun p => p.2.mode.onMemory then 4
    else if ts.any fun p => p.2.mode.onEngine then 5
    else 6

/-- Counts one slot of a class; class 7 is what is left of counter 0. -/
def Quad.count (q : Quad) (k : Nat) : Quad :=
  if 1 ≤ k ∧ k ≤ 6 then { q with ctrs := q.ctrs.set (k - 1) (nth q.ctrs (k - 1) 0 + 1) } else q

/-- Whether some thread of a path executes outside a replay. -/
def State.useful (s : State) (i : Issue) : Bool :=
  i.lanes.any fun l => !l.helper && (match s.thr? ⟨i.core, i.blk, l.idx⟩ with | some t => t.replay.isNone | none => false)

/-- The slot that a path takes, with the other path of the slot: core, quadrant and class; none where no lane is left. -/
def State.slotOf (s : State) (i : Issue) : Option (Nat × Nat × Nat) :=
  if i.lanes = [] then none
  else (s.block? i.core i.blk).map fun b =>
    (i.core, quadOf b i.grp, if s.useful i || (s.slotMate.map s.useful).getD false then 1 else 2)

/-- Counts one cycle in the quadrants of the cores in use: the quadrant whose slot issues, and the others. -/
def State.countSlots (s : State) (slot : Option (Nat × Nat × Nat)) : State :=
  (s.cores.filter fun p => !p.2.blocks.isEmpty).foldl (fun t p => (List.range 4).foldl (fun t q =>
    let k := match slot with
      | some (c, q', k) => if c = p.1 ∧ q' = q then k else s.idleClass p.1 q
      | none => s.idleClass p.1 q
    t.modQuad p.1 q fun x => x.count k) t) s

/-! ### Breakpoints and single step, 19 R441, R442 -/

/-- Breakpoints that a thread at a PC matches, with their actions. -/
def State.breakHits (s : State) (launch : Nat) (pc : Dword) : List (Nat × Nat) :=
  ((List.range 8).filter fun i =>
    let b := traceBase + 0x100 + 16 * i
    let c := s.winAt (b + 8)
    c.getLsbD 0 && s.winPair b == pc.toNat && (!c.getLsbD 3 || (s.winAt (b + 12)).toNat == launch)).map
      fun i => (i, (s.winAt (traceBase + 0x108 + 16 * i)).toNat / 2 % 4)

/-- Lanes of a path that a breakpoint stops, each with the breakpoint and its action; a halt in a handler is held and
stops nothing. -/
def State.breakLanes (s : State) (i : Issue) : List (LaneRef × Nat × Nat) :=
  match s.block? i.core i.blk with
  | none => []
  | some b =>
    i.lanes.filterMap fun l =>
      if l.helper then none
      else match sget b.threads l.idx with
        | none => none
        | some t =>
          if t.skipBp || t.replay.isSome then none
          else ((s.breakHits b.launch i.pc).find? fun h => h.2 != 2 && !(h.2 == 1 && t.handler)).map fun h => (l, h.1, h.2)

/-- What matched breakpoints do besides stopping: records, and the halt that a handler holds. -/
def State.breakNotes (s : State) (i : Issue) : State :=
  match s.block? i.core i.blk with
  | none => s
  | some b =>
    i.lanes.foldl (fun s l =>
      match (if l.helper then none else sget b.threads l.idx) with
      | none => s
      | some t =>
        if t.skipBp || t.replay.isSome then s
        else
          let hits := s.breakHits b.launch i.pc
          let s1 := hits.foldl (fun s h => if h.2 = 2 then s.traceDebug b ⟨i.core, i.blk, l.idx⟩ 0x21 i.pc h.1 else s) s
          if t.handler && hits.any (fun h => h.2 == 1) then s1.modThr ⟨i.core, i.blk, l.idx⟩ fun t => t.holdHalt 3 else s1) s

/-- Whether a lane has trapped in an execution, by a cause that comes before a breakpoint (01 R26). -/
def trapped (before after : State) (w : Who) : Bool :=
  match before.thr? w, after.thr? w with
  | some t, some u => (u.handler && !t.handler && u.trcause.toNat % 256 != 0x23)
      || (after.due.drop before.due.length).any fun r => r.thr == w.thr && r.cause != 0x23 && r.pc == t.pc
  | some _, none => true
  | _, _ => false

/-- Stops a lane at a breakpoint. -/
def State.breakStop (s : State) (i : Issue) (x : LaneRef × Nat × Nat) : State :=
  let w : Who := ⟨i.core, i.blk, x.1.idx⟩
  if x.2.2 = 0 then s.takeTrap w 0x21 x.2.1 0 0 else s.modThr w fun t => t.halt 0x22 3

/-- Whether a thread waits at an instruction that it will execute again. -/
def Thread.retries (t : Thread) : Bool :=
  match t.mode with
  | .waiting (.wall _) => true
  | .waiting (.wany _) => true
  | .waiting (.gswt _) => true
  | .waiting (.awaitf _) => true
  | .waiting (.aacq _) => true
  | .waiting (.held .post) => false
  | .waiting (.held _) => true
  | _ => false

/-- Halts the threads of a path that were to run for one instruction (R442); one that is in a replay, or that will execute the
instruction again, has not finished it. -/
def State.stepHalts (s : State) (i : Issue) : State :=
  i.lanes.foldl (fun s l =>
    if l.helper then s
    else s.modThr ⟨i.core, i.blk, l.idx⟩ fun t => if t.stepping && t.live && t.replay.isNone && !t.retries then t.halt 0x22 2 else t) s

/-- Gives the mark of a first instruction back to the lanes of a path that had it and have not finished the instruction: it
waits and executes again, or a replay has begun that ends with it. -/
def State.keepSkip (old : State) (i : Issue) (s : State) : State :=
  i.lanes.foldl (fun s l =>
    let w : Who := ⟨i.core, i.blk, l.idx⟩
    if l.helper || !((old.thr? w).map (·.skipBp)).getD false then s
    else s.modThr w fun t => if t.retries || t.replay.isSome then { t with skipBp := true } else t) s

/-- Takes the mark of a first instruction off the lanes of a path. -/
def State.clearSkip (s : State) (i : Issue) : State :=
  i.lanes.foldl (fun s l =>
    if l.helper then s else s.modThr ⟨i.core, i.blk, l.idx⟩ fun t => if t.skipBp then { t with skipBp := false } else t) s

/-! ### Latched special registers as events, 01 R24, 10 R247, 19 R439 -/

/-- A thread reads a special register into a register of its own. -/
def State.readInto (s : State) (w : Who) (n d : Nat) : State :=
  match s.thr? w with
  | none => s
  | some t =>
    if t.nregs ≤ d then s
    else
      let (v, t1) := s.readSpecial w.core w.blk t n
      s.setThr w (t1.setReg d v)

/-- R24: a read of `tbl` latches the high half. -/
def execTimebaseLowRead (core blk thr d : Nat) (s : State) : Out := .next (s.readInto ⟨core, blk, thr⟩ 0x060 d)

/-- R24: a read of `tbh` takes the latch, or the live high half. -/
def execTimebaseHighRead (core blk thr d : Nat) (s : State) : Out := .next (s.readInto ⟨core, blk, thr⟩ 0x061 d)

/-- R247: a read of `rsl`k latches `rsh`k and `rsg`k. -/
def execSeedLowRead (core blk thr slot d : Nat) (s : State) : Out :=
  if slot < 8 then .next (s.readInto ⟨core, blk, thr⟩ (0x200 + 2 * slot) d) else .next s

/-- R439: a read of 0x700 latches all sixteen counter words. -/
def execCounterSnapshotRead (core blk thr d : Nat) (s : State) : Out := .next (s.readInto ⟨core, blk, thr⟩ 0x700 d)

end Sys2Proof.Machine
end

