-- ==== Sys2Proof/Machine/Partition.lean ====
section
/-! DEFINITION. Memory partitions, expansion ports and the migration engine (18 R414-R432): events and logs, channels,
link and array errors, lane repair, row swapping and retirement, page heat, migrations. -/

namespace Sys2Proof.Machine

open Sys2Proof

/-! ### Events and logs, R415, R416, R420 -/

/-- Whether the package has a partition (0-7) or expansion port (8-11) (00 R1). -/
def unitPresent (p : Part) (u : Nat) : Bool :=
  match p with
  | .s8 => decide (u < 12)
  | .s4 => decide (u < 4) || (decide (8 ≤ u) && decide (u < 10))

/-- A partition that the package has. -/
def State.hasPartition (s : State) (u : Nat) : Bool := unitPresent s.hw.part u && decide (u < 8)

/-- Sets an event bit of a window whose status lies at 0x030 and its enables at 0x034; an enabled one raises an alert. -/
def State.raiseEvent (s : State) (base bit : Nat) : State :=
  let s1 := s.setWin (base + 0x30) (s.winAt (base + 0x30) ||| (1#32 <<< bit))
  if s1.winBit (base + 0x34) bit then { s1 with alerts := (base, bit) :: s1.alerts } else s1

def State.unitEvent (s : State) (u bit : Nat) : State := s.raiseEvent (unitBase u) bit

/-- Counts one in a 32-bit register. -/
def State.bump (s : State) (a : Nat) : State := s.setWin a (s.winAt a + 1)

/-- Counts one in a register that saturates. -/
def State.bumpSat (s : State) (a : Nat) : State := s.setWin a (if s.winAt a = BitVec.allOnes 32 then BitVec.allOnes 32 else s.winAt a + 1)

/-- Bytes laid into a window, in words. -/
def State.putWindow (s : State) (a : Nat) (bs : List Byte) : State :=
  (List.range (bs.length / 4)).foldl (fun s i => s.setWin (a + 4 * i) (wordOf ((bs.drop (4 * i)).take 4))) s

/-- The place that a test is of, as its log entry names it: source, partition or die, channel or port, row or lane (20 R449). -/
def SelfTest.named (a b : SelfTest) : Bool := a.src == b.src && a.unit == b.unit && a.ch == b.ch && a.row == b.row

/-- The bank of a row under test. -/
def SelfTest.bank (t : SelfTest) : Nat := if t.src = 2 then Config.bankOf t.addr % 64 else 0

/-- Tests of one unit (20 R448): of the place they name, and of one bank. -/
def SelfTest.same (a b : SelfTest) : Bool := a.named b && a.bank == b.bank

/-- The physical address of a row of a partition: which one is open (log entry 25). -/
def rowAt (u ch bank row : Nat) : Nat := 2 ^ 36 * u + Config.rowAddr ch bank row % 2 ^ 36 / 128 * 128

/-- Reducing-cache lines of a row. -/
def State.linesOfRow (s : State) (u ch bank row : Nat) : List Nat :=
  (s.rdc.map (·.1)).filter fun ln => s.unitOf (128 * ln) == some u && Config.channelOf (128 * ln) % 32 == ch
    && Config.bankOf (128 * ln) % 64 == bank && Config.rowOf (128 * ln) % 2 ^ 18 == row

/-- A swap, a retirement or a row test reads a row of HBM4E directly: the reducing cache evicts the row's lines first (14 R342), and
the row's channel has a request of the highest class (R418). -/
def State.readRow (s : State) (u ch bank row : Nat) : State :=
  let s1 := s.evictAll false (s.linesOfRow u ch bank row)
  (s1.modUnit u fun x =>
    { x with reqs := x.reqs ++ [⟨s1.nextId, ch, rowAt u ch bank row, ⟨0xF9, 0, 2 ^ 64 - 1, 0⟩, s1.now, false, none, []⟩] }).fresh

/-- The EYE word of a lane. -/
def eyeAt (u ch lane : Nat) : Nat := unitBase u + 0x2000 + 0x200 * ch + 4 * lane

/-- The spare positions of a channel. -/
def spareLanes : List Nat := [72, 73, 74, 75]

/-- Whether a position is a spare that carries traffic. -/
def MemUnit.carries (x : MemUnit) (ch lane : Nat) : Bool := x.spares.any fun m => m.1 == ch && m.2.2 == lane

/-- The spares of a channel shown as they carry traffic, where monitors show them. -/
def State.showSpares (s : State) (u ch : Nat) : State :=
  if s.hw.part = .s8 then
    spareLanes.foldl (fun s k =>
      let w := s.winAt (eyeAt u ch k)
      s.setWin (eyeAt u ch k) (if (s.unitAt u).carries ch k then w ||| 0x20000#32 else w &&& ~~~0x20000#32)) s
  else s

/-- The traffic of a position goes to a spare: the position's own, and what it carries for others. -/
def MemUnit.moveLane (x : MemUnit) (ch lane spare : Nat) : MemUnit :=
  let moved := (x.spares.filter fun m => !(m.1 == ch && m.2.1 == lane)).map fun m => if m.1 = ch ∧ m.2.2 = lane then (ch, m.2.1, spare) else m
  { x with spares := moved ++ [(ch, lane, spare)], errs := x.errs.filter fun e => !(e.1 == ch && e.2.1 == lane) }

/-- The traffic of a position comes back to it (20 R448). -/
def MemUnit.returnLane (x : MemUnit) (ch lane : Nat) : MemUnit :=
  let mine := ((x.spares.filter fun m => m.1 == ch && m.2.1 == lane).map (·.2.2)).head?
  let rest := x.spares.filter fun m => !(m.1 == ch && m.2.1 == lane)
  { x with spares := if 72 ≤ lane then rest.map fun m => if m.1 = ch ∧ some m.2.2 = mine then (ch, m.2.1, lane) else m else rest }

/-- A spare that carries no traffic, and has not been repaired itself. -/
def MemUnit.freeSpare (x : MemUnit) (ch lane : Nat) : Option Nat :=
  spareLanes.find? fun k => k != lane && !x.carries ch k && !(x.spares.any fun m => m.1 == ch && m.2.1 == k)

/-- A lane under test is carried by a spare, where one is free (20 R448). -/
def State.carryLane (s : State) (u ch lane : Nat) : State :=
  let x := s.unitAt u
  if x.spares.any fun m => m.1 == ch && m.2.1 == lane then s
  else
    match x.freeSpare ch lane with
    | some k => (s.modUnit u fun x => x.moveLane ch lane k).showSpares u ch
    | none => s

/-- What a unit under test does without (20 R448): a row of HBM4E is held in a spare row, a lane of HBM4E is carried by a spare, the
lines of an SRAM row are moved to a spare row of its slice, and a Twineric lane is routed around. -/
def State.setAside (s : State) (t : SelfTest) : State :=
  if t.src = 2 then s.readRow t.unit t.ch t.bank t.row
  else if t.src = 3 then s.carryLane t.unit t.ch t.row
  else if s.aside.any fun x => x.named t then s
  else { s with aside := s.aside ++ [t] }

/-- Tests of a unit that run or are queued. -/
def State.testsOf (s : State) (t : SelfTest) : List SelfTest := s.tests.filter fun x => x.same t

/-- Starts a test of a unit, or queues one behind the test that runs (20 R448). -/
def State.addTest (s : State) (t : SelfTest) : State :=
  if 2 ≤ (s.testsOf t).length then s
  else
    let s1 := if s.testsOf t = [] then s.setAside t else s
    { s1 with tests := s1.tests ++ [t] }

/-- The test that a logged error of a partition calls for (20 R448); an expansion port has no rows and lanes of HBM4E. -/
def testFor (u kind ch lane pa : Nat) : Option SelfTest :=
  if 8 ≤ u then none
  else match kind with
  | 1 => some ⟨3, u, ch, lane, pa⟩
  | 2 => some ⟨3, u, ch, lane, pa⟩
  | 3 => some ⟨2, u, ch, Config.rowOf pa % 2 ^ 18, pa⟩
  | 4 => some ⟨2, u, ch, Config.rowOf pa % 2 ^ 18, pa⟩
  | 5 => some ⟨3, u, ch, lane, 0⟩
  | _ => none

/-- Writes an entry of the error log. -/
def State.logError (s : State) (u kind ch lane req pa : Nat) : State :=
  let b := unitBase u
  let n := (s.winAt (b + 0x44)).toNat
  let s1 := s.putWindow (b + 0x400 + 32 * (n % 16))
    (leOf 1 kind ++ leOf 1 ch ++ leOf 1 lane ++ leOf 1 req ++ leOf 4 0 ++ leOf 8 pa ++ leOf 8 s.now ++ leOf 8 0)
  let s2 := s1.bump (b + 0x44)
  match testFor u kind ch lane pa with
  | some t => s2.addTest t
  | none => s2

/-- The same where the spec names no requester and no address: those are open values. -/
def State.logFree (s : State) (u kind ch lane : Nat) : State :=
  let req := (Config.freeByte s.freeCtr).toNat
  let pa := (Config.freeWord (s.freeCtr + 1)).toNat + 2 ^ 32 * (Config.freeWord (s.freeCtr + 2)).toNat
  (s.drawn 3).logError u kind ch lane req pa

/-! ### Channels, R417-R419 -/

/-- Ticks since a tick. -/
def State.since (s : State) (t : Nat) : Nat := (s.now + 2 ^ 64 - t) % 2 ^ 64

/-- The first request that is best by a measure; an earlier arrival wins. -/
def bestReq (f : MemReq → Nat) (rs : List MemReq) : Option MemReq :=
  rs.foldl (fun m r => match m with
    | none => some r
    | some x => if f r < f x then some r else some x) none

/-- Whether a request has waited longer than the limit. -/
def State.overAge (s : State) (u : Nat) (r : MemReq) : Bool := r.aged || decide ((s.winAt (unitBase u + 0x14)).toNat < s.since r.at_)

/-- The weight of class 1, 2 or 3. -/
def State.weight (s : State) (u cls : Nat) : Nat := (s.winAt (unitBase u + 0x10)).toNat / 256 ^ (cls - 1) % 256

/-- What a channel has served of each class in its round. -/
def State.turnOf (s : State) (u ch : Nat) : List Nat := sgetD (s.unitAt u).turns ch [0, 0, 0]

/-- The class whose turn it is, and the turns taken after it: each class has its weight in a round of the channel. -/
def State.nextClass (s : State) (u ch : Nat) (rs : List MemReq) : Nat × List Nat :=
  let turn := s.turnOf u ch
  let has (c : Nat) : Bool := rs.any fun r => r.by_.cls == c
  match [1, 2, 3].find? fun c => has c && decide (nth turn (c - 1) 0 < s.weight u c) with
  | some c => (c, turn.set (c - 1) (nth turn (c - 1) 0 + 1))
  | none =>
    let c := ([1, 2, 3].find? has).getD 1
    (c, ([0, 0, 0] : List Nat).set (c - 1) 1)

/-- The next request of a channel, with the turns. -/
def State.nextReq (s : State) (u ch : Nat) : Option (MemReq × List Nat) :=
  let rs := (s.unitAt u).reqs.filter fun r => r.ch == ch
  let turn := s.turnOf u ch
  match bestReq (fun r => r.id) (rs.filter fun r => s.overAge u r) with
  | some r => some (r, turn)
  | none =>
    match bestReq (fun r => r.by_.stamp) (rs.filter fun r => r.by_.cls == 0) with
    | some r => some (r, turn)
    | none =>
      let (c, turn') := s.nextClass u ch rs
      (bestReq (fun r => r.by_.stamp) (rs.filter fun r => r.by_.cls == c)).map fun r => (r, turn')

/-- Takes a request from its channel. -/
def State.takeReq (s : State) (u : Nat) (r : MemReq) (turn : List Nat) : State :=
  s.modUnit u fun x => { x with reqs := x.reqs.filter fun y => y.id != r.id, turns := sput x.turns r.ch turn }

/-- Ticks of a millisecond, and of 32. -/
def tickMs : Nat := 1000000

/-- A request is served: a deadline it misses counts (R419), and its row is activated (R425). -/
def State.serveReq (s : State) (u : Nat) (r : MemReq) : State :=
  let late := r.by_.stamp ≠ 2 ^ 64 - 1 ∧ r.by_.stamp < s.now
  let s1 := if late then s.bumpSat (unitBase u + 0x1000 + 16 * r.by_.id + 4 * r.by_.cls) else s
  if 8 ≤ u then s1
  else
    s1.modUnit u fun x =>
      { x with acts := (r.ch, Config.bankOf r.pa % 64, Config.rowOf r.pa % 2 ^ 18, s.now) :: x.acts.filter fun a => decide (s.since a.2.2.2 < 32 * tickMs) }

/-- Outstanding loads that a request's data serves are marked: of any core, or of the requester alone. -/
def State.spoilLoads (s : State) (r : MemReq) (word : Option Nat) (alone : Bool) : State :=
  { s with loads := s.loads.map fun l =>
      let lo := l.mark.addr.toNat % 128 / 4 * 4
      let hit := match word with
        | some w => decide (8 * w < lo + 4 * l.dst.length) && decide (lo < 8 * w + 8)
        | none => true
      if l.line = lineOf r.pa ∧ r.id < l.id ∧ hit = true ∧ (alone = false ∨ coreRequester l.who.core = r.by_.id) then { l with bad := true } else l }

/-- An uncorrectable word that a request finds: it counts, is logged with the address of the burst, and raises its event. -/
def State.noteBad (s : State) (u : Nat) (r : MemReq) : State :=
  ((s.bump (unitBase u + 0x2C)).logError u 4 r.ch 0xFF r.by_.id r.pa).unitEvent u 3

/-- The clean bytes of a word that an L1 holds are those of uncorrectable data (06 R130). -/
def Core.spoil (c : Core) (word : Nat) : Core :=
  match sget c.l1 (word / 16) with
  | none => c
  | some l => c.setL1 (word / 16) (l.zipIdx.map fun x =>
      if x.2 / 8 = word % 16 then x.1.map fun b => if b.dirty then b else { b with bad := true } else x.1)

/-- The core that made a request holds what the request fetched of a word as uncorrectable. -/
def State.spoilL1 (s : State) (r : MemReq) (word : Nat) : State :=
  { s with cores := s.cores.map fun p => (p.1, if coreRequester p.1 = r.by_.id then p.2.spoil word else p.2) }

/-- An array error found by a request (R420): corrected, or a word of its line from now on uncorrectable; a read also finds a word
that was uncorrectable before. -/
def State.arrayError (s0 : State) (u : Nat) (r : MemReq) (ecc : Nat) : State :=
  let b := unitBase u
  let s := if r.old = none ∧ s0.badAt (r.pa / 128 * 128) 128 then s0.noteBad u r else s0
  if ecc = 1 then
    let s1 := (s.bump (b + 0x28)).logError u 3 r.ch 0xFF r.by_.id r.pa
    if (s1.winAt (b + 0x3C)).toNat ≤ (s1.winAt (b + 0x28)).toNat then s1.unitEvent u 2 else s1
  else if ecc = 2 then
    let w := (Config.freeWord s.freeCtr).toNat % 16
    let word := r.pa / 128 * 16 + w
    let s1 := (s.drawn 1).noteBad u r
    (({ s1 with badWords := if word ∈ s1.badWords then s1.badWords else word :: s1.badWords } : State).spoilLoads r (some w) false).spoilL1 r word
  else s

/-- R417: a channel serves its next request, unless it retrains; a burst that replays goes first. -/
def execChannelRequestServe (unit ch ecc : Nat) (s : State) : Out :=
  let x := s.unitAt unit
  if !unitPresent s.hw.part unit || decide (ch ∈ x.retraining) then .next s
  else
    match sget x.bursts ch with
    | some bu =>
      if bu.failed then .next s
      else .next (((s.modUnit unit fun x => { x with bursts := sdel x.bursts ch }).serveReq unit bu.req).arrayError unit bu.req ecc)
    | none =>
      match s.nextReq unit ch with
      | none => .next s
      | some (r, turn) => .next (((s.takeReq unit r turn).serveReq unit r).arrayError unit r ecc)

/-- R417: a request that has waited longer than AGELIM is aged. -/
def execRequestAged (unit ch : Nat) (s : State) : Out :=
  .next (s.modUnit unit fun x => { x with reqs := x.reqs.map fun r => if r.ch = ch ∧ s.overAge unit r then { r with aged := true } else r })

/-! ### Link errors and lane repair, R421-R424 -/

/-- Requests the repair of a lane, once. -/
def State.wantRepair (s : State) (u ch lane : Nat) : State :=
  s.modUnit u fun x => if (ch, lane) ∈ x.wants then x else { x with wants := x.wants ++ [(ch, lane)] }

/-- CRC errors of a lane in the last millisecond. -/
def State.laneErrors (s : State) (u ch lane : Nat) : Nat :=
  ((s.unitAt u).errs.filter fun e => e.1 == ch && e.2.1 == lane && decide (s.since e.2.2 < tickMs)).length

/-- Whether a lane's count is past LCRTH. -/
def State.pastLimit (s : State) (u ch lane : Nat) : Bool := decide ((s.winAt (unitBase u + 0x38)).toNat < s.laneErrors u ch lane)

/-- A lane's count passes LCRTH. -/
def State.passLimit (s : State) (u ch lane : Nat) : State := (s.unitEvent u 0).wantRepair u ch lane

/-- Counts a CRC error on a lane: the one that takes its count past LCRTH is the event, whether or not the lane's repair is requested
already. -/
def State.countLane (s : State) (u ch lane : Nat) : State :=
  let s1 := s.modUnit u fun x => { x with errs := (ch, lane, s.now) :: x.errs.filter fun e => decide (s.since e.2.2 < tickMs) }
  if s1.pastLimit u ch lane && !s.pastLimit u ch lane then s1.passLimit u ch lane else s1

/-- R421: the next burst of a channel, or the one that replays, fails its CRC and is replayed. -/
def execBurstCrcError (unit ch lane : Nat) (s : State) : Out :=
  let x := s.unitAt unit
  if !s.hasPartition unit || decide (76 ≤ lane) || decide (ch ∈ x.retraining) then .next s
  else
    match sget x.bursts ch with
    | some bu =>
      if bu.failed || decide (8 ≤ bu.tries) then .next s
      else
        .next (((s.modUnit unit fun x => { x with bursts := sput x.bursts ch { bu with tries := bu.tries + 1, lane := lane } }).bump
          (unitBase unit + 0x20)).countLane unit ch lane)
    | none =>
      match s.nextReq unit ch with
      | none => .next s
      | some (r, turn) =>
        .next ((((s.takeReq unit r turn).modUnit unit fun x => { x with bursts := sput x.bursts ch ⟨r, 1, lane, false⟩ }).bump
          (unitBase unit + 0x20)).countLane unit ch lane)

/-- R421: the eighth replay of a burst fails. -/
def execBurstReplayExhausted (unit ch : Nat) (s : State) : Out :=
  match sget (s.unitAt unit).bursts ch with
  | none => .next s
  | some bu =>
    if bu.failed || decide (bu.tries < 8) || decide (ch ∈ (s.unitAt unit).retraining) then .next s
    else
      .next ((((s.modUnit unit fun x => { x with bursts := sput x.bursts ch { bu with failed := true } }).countLane unit ch bu.lane).bump
        (unitBase unit + 0x24)).unitEvent unit 1)

/-- R421: a lane that is past LCRTH errors in a millisecond, LCRTH having been lowered, requests a repair. -/
def execLaneCrcThreshold (unit ch lane : Nat) (s : State) : Out :=
  .next (if s.hasPartition unit && s.pastLimit unit ch lane && !decide ((ch, lane) ∈ (s.unitAt unit).wants) then s.passLimit unit ch lane else s)

/-- The switch of a lane to a free spare (R422 step 2). -/
def State.switchLane (s : State) (u ch lane : Nat) : State :=
  match (s.unitAt u).freeSpare ch lane with
  | none => s.unitEvent u 6
  | some k => (((s.modUnit u fun x => x.moveLane ch lane k).unitEvent u 5).showSpares u ch).logFree u 5 ch lane

/-- Atomics of the requester that wait for a line: their data is uncorrectable. -/
def State.spoilAtomics (s : State) (r : MemReq) : State :=
  { s with atomics := s.atomics.map fun a =>
      if lineOf a.pa = lineOf r.pa ∧ r.id < a.id ∧ !a.inL1 ∧ coreRequester a.core = r.by_.id then { a with bad := true } else a }

/-- A core keeps no clean byte of a line that it did not get. -/
def Core.forget (c : Core) (ln : Nat) : Core :=
  match sget c.l1 ln with
  | none => c
  | some l => c.setL1 ln (l.map fun b => b.bind fun x => if x.dirty then some x else none)

/-- The core that made a request keeps no clean byte of its line. -/
def State.forgetLine (s : State) (r : MemReq) : State :=
  { s with cores := s.cores.map fun p => (p.1, if coreRequester p.1 = r.by_.id then p.2.forget (lineOf r.pa) else p.2) }

/-- Memory as it stood before a write, but for what has been written since. -/
def State.restore (s : State) (pa : Nat) (old : List (Option Byte)) (bad : List Nat) : State :=
  let s1 := old.zipIdx.foldl (fun s x => match x.1 with
    | some v => s.putBytes (pa + x.2) [v]
    | none => s) (s.noteWrite pa)
  { s1 with badWords := bad.filter (fun w => !s1.badWords.contains w) ++ s1.badWords }

/-- A request that cannot be served: its requester's data is uncorrectable, or its write leaves memory as it stood with a record
(R422, R428). The model's engines and page walks take their data in the step that makes the request: for them it is the
requester's next read of the line that meets uncorrectable data (log entry 25). -/
def State.failReq (s0 : State) (r : MemReq) : State :=
  let s := s0.forgetLine r
  match r.old with
  | some o => (s.restore o.1 o.2 r.oldBad).failWrite r.by_.launch o.1
  | none =>
    let s1 := (s.spoilLoads r none true).spoilAtomics r
    if r.by_.id < 0xF0 then s1 else { s1 with spoilt := (r.by_.id, lineOf r.pa) :: s1.spoilt }

/-- The failed burst of a channel is re-issued (R422 step 3). -/
def State.reissueBurst (s : State) (u ch : Nat) (ok : Bool) : State :=
  match sget (s.unitAt u).bursts ch with
  | none => s
  | some bu =>
    if !bu.failed then s
    else
      let s1 := (s.modUnit u fun x => { x with bursts := sdel x.bursts ch }).logError u (if ok then 1 else 2) ch bu.lane bu.req.by_.id bu.req.pa
      (if ok then s1 else s1.failReq bu.req).serveReq u bu.req

/-- Whether a repair waits on a channel: one that is requested, or the re-issue of a failed burst that ends one. -/
def MemUnit.repairing (x : MemUnit) (ch : Nat) : Bool :=
  (x.wants.any fun w => w.1 == ch) || ((sget x.bursts ch).map (·.failed)).getD false

/-- A retrain that waited for the last repair of its channel starts. -/
def State.startRetrain (s : State) (u ch : Nat) : State :=
  s.modUnit u fun x =>
    if ch ∈ x.retrainWaits ∧ !x.repairing ch then
      { x with retrainWaits := x.retrainWaits.filter fun c => c != ch, retraining := x.retraining ++ [ch] }
    else x

/-- R422: with no replay outstanding, the first lane wanted is switched, and a failed burst is re-issued; a channel in retraining
serves nothing until it is done (R424). -/
def execLaneRepair (unit ch : Nat) (reissueOk : Bool) (s : State) : Out :=
  let x := s.unitAt unit
  let waits := match sget x.bursts ch with
    | some bu => !bu.failed
    | none => false
  if !s.hasPartition unit || waits || decide (ch ∈ x.retraining) then .next s
  else
    match x.wants.find? fun w => w.1 == ch with
    | none => .next ((s.reissueBurst unit ch reissueOk).startRetrain unit ch)
    | some w =>
      let s1 := s.modUnit unit fun x => { x with wants := x.wants.erase w }
      .next (((s1.switchLane unit ch w.2).reissueBurst unit ch reissueOk).startRetrain unit ch)

/-- R415, R422: REPAIR with go set. -/
def execRepair (unit : Nat) (value : Word) (s : State) : Out :=
  let lane := value.toNat / 256 % 32
  if !s.windowsOpen || !s.hasPartition unit || (value &&& 0x7FFFE0E0#32) != 0 || !value.getLsbD 31 then .next s
  else .next (s.wantRepair unit (value.toNat % 32) lane)

/-- R424: RETRAIN with go set; it waits for a repair that waits. -/
def execRetrain (unit : Nat) (value : Word) (s : State) : Out :=
  let ch := value.toNat % 32
  if !s.windowsOpen || !s.hasPartition unit || (value &&& 0x7FFFFFE0#32) != 0 || !value.getLsbD 31 then .next s
  else
    .next (s.modUnit unit fun x =>
      if ch ∈ x.retraining ∨ ch ∈ x.retrainWaits then x
      else if x.repairing ch then { x with retrainWaits := x.retrainWaits ++ [ch] }
      else { x with retraining := x.retraining ++ [ch] })

/-- R424: the retrained channel serves its requests again. -/
def execRetrainDone (unit ch : Nat) (s : State) : Out :=
  if ch ∈ (s.unitAt unit).retraining then
    .next ((s.modUnit unit fun x => { x with retraining := x.retraining.filter fun c => c != ch }).logFree unit 6 ch 0xFF)
  else .next s

/-- R423: a sample of a lane's eye margins, on the S8. -/
def execEyeSample (unit ch lane hm vm : Nat) (s : State) : Out :=
  if s.hw.part ≠ .s8 ∨ 8 ≤ unit ∨ 32 ≤ ch ∨ 76 ≤ lane then .next s
  else
    let th := s.winAt (unitBase unit + 0x50)
    let h := hm % 256
    let v := vm % 256
    let low := h < th.toNat % 256 ∨ v < th.toNat / 256 % 256
    let sp := (s.unitAt unit).carries ch lane
    let s1 := s.setWin (eyeAt unit ch lane) (BitVec.ofNat 32 (h + 256 * v + (if low then 2 ^ 16 else 0) + (if sp then 2 ^ 17 else 0)))
    if low then
      let s2 := s1.unitEvent unit 4
      .next (if th.getLsbD 16 then s2.wantRepair unit ch lane else s2)
    else .next s1

/-! ### Rows, R425-R427 -/

/-- Activations of a row in the last 32 ms. -/
def State.activations (s : State) (u ch bank row : Nat) : Nat :=
  ((s.unitAt u).acts.filter fun a => a.1 == ch && a.2.1 == bank && a.2.2.1 == row && decide (s.since a.2.2.2 < 32 * tickMs)).length

/-- R425: a row that has reached SWTH activations is swapped with another of its bank. -/
def execRowSwap (unit ch bank row partner : Nat) (s : State) : Out :=
  let b := unitBase unit
  if !s.hasPartition unit || decide (row = partner) || decide (2 ^ 18 ≤ partner) || decide (s.activations unit ch bank row < (s.winAt (b + 0x60)).toNat) then
    .next s
  else
    let s1 := (s.readRow unit ch bank row).readRow unit ch bank partner
    .next ((s1.modUnit unit fun x =>
      { x with
        swaps := x.swaps ++ [(ch, bank, row, partner)]
        acts := x.acts.filter fun a => !(a.1 == ch && a.2.1 == bank && a.2.2.1 == row) }).bumpSat (b + 0x64))

/-- Entries that a partition's table holds at most. -/
def retireCap : Nat := 512

/-- Retires a row (R426, R427): the entry is kept, then reported. -/
def State.retireRow (s : State) (u ch bank row : Nat) : State :=
  let x := s.unitAt u
  let used := (x.retired.filter fun r => r.ch == ch && r.bank == bank).map (·.spare)
  match (List.range 4).find? fun k => !(k ∈ used) with
  | none => s.unitEvent u 7
  | some spare =>
    if retireCap ≤ x.retired.length then s.unitEvent u 7
    else
      let e : Retired := ⟨ch, bank, row, spare⟩
      let s1 := (s.readRow u ch bank row).modUnit u fun x => { x with retired := x.retired ++ [e] }
      let s2 := ({ s1 with nvRetired := s1.nvRetired ++ [(u, e)] } : State).logError u 7 ch 0xFF 0xF9 (rowAt u ch bank row)
      let s3 := if retireCap - 16 ≤ x.retired.length + 1 then s2.unitEvent u 8 else s2
      s3.raiseEvent mgmtBase 3

/-- R426: RETIRE with go set. -/
def execRetire (unit : Nat) (value : Word) (s : State) : Out :=
  let v := value.toNat
  if !s.windowsOpen || !s.hasPartition unit || (value &&& 0x60000000#32) != 0 || !value.getLsbD 31 then .next s
  else .next (s.retireRow unit (v % 32) (v / 2 ^ 5 % 64) (v / 2 ^ 11 % 2 ^ 18))

/-! ### Registers that a write clears, R415, R416, R419 -/

/-- R415: a write to LCRC, LUNC, ACE or AUE clears it. -/
def execErrorCountClear (unit off : Nat) (s : State) : Out :=
  if s.windowsOpen && unitPresent s.hw.part unit && (off == 0x20 || off == 0x24 || off == 0x28 || off == 0x2C) then .next (s.setWin (unitBase unit + off) 0)
  else .next s

/-- R416: IRQST bits written 1 clear; a write with a reserved bit set is ignored. -/
def execIrqstClear (unit : Nat) (value : Word) (s : State) : Out :=
  let a := unitBase unit + 0x30
  if s.windowsOpen && unitPresent s.hw.part unit && decide (value.toNat < 512) then .next (s.setWin a (s.winAt a &&& ~~~value)) else .next s

/-- R419: a write to a MISS counter clears it. -/
def execMissCounterClear (unit off : Nat) (s : State) : Out :=
  if s.windowsOpen && unitPresent s.hw.part unit && decide (0x1000 ≤ off) && decide (off < 0x2000) && off % 4 == 0 then .next (s.setWin (unitBase unit + off) 0)
  else .next s

/-! ### Page heat, R429 -/

/-- Local HBM4E or host memory. -/
def PKind.heatable : PKind → Bool
  | .hbm _ => true
  | .host => true
  | _ => false

/-- The checks of an enabling write. -/
def State.heatValid (s : State) (u : Nat) : Bool :=
  let b := unitBase u
  let base := s.winPair (b + 0x88)
  let len := s.winPair (b + 0x98)
  let last := base + 2 * (len / 65536) - 1
  s.winPair (b + 0x90) % 65536 == 0 && len % 65536 == 0 && base % 2 == 0 && (s.kind base).heatable
    && (decide (last ≤ base) || s.kind last == s.kind base)

/-- R429: HCTL; the enabling write of a bad set-up leaves it disabled. -/
def execHctlWrite (unit : Nat) (value : Word) (s : State) : Out :=
  if !s.windowsOpen || !unitPresent s.hw.part unit || decide (64 ≤ value.toNat) then .next s
  else
    .next (s.setWin (unitBase unit + 0x80) (if value.getLsbD 0 ∧ !s.heatValid unit then value &&& ~~~1#32 else value))

/-- R429: a pass that halves every counter starts; one in progress goes on. -/
def execHeatHalve (unit : Nat) (s : State) : Out :=
  if s.windowsOpen && unitPresent s.hw.part unit && (s.unitAt unit).heatPass == 0 then .next (s.modUnit unit fun x => { x with heatPass := 1 }) else .next s

/-- R429: a pass that clears every counter starts. -/
def execHeatClear (unit : Nat) (s : State) : Out :=
  if s.windowsOpen && unitPresent s.hw.part unit && (s.unitAt unit).heatPass == 0 then .next (s.modUnit unit fun x => { x with heatPass := 2 }) else .next s

/-- Counters of a unit that may be other than 0. -/
def State.heatCounters (s : State) (u : Nat) : List Nat :=
  let base := normPlace s.pkid (s.winPair (unitBase u + 0x88))
  let n := s.winPair (unitBase u + 0x98) / 65536
  let lines := s.rdc.flatMap fun p => (List.range 128).map fun i => 128 * p.1 + i
  (((s.mem.map (·.1)) ++ lines).filterMap fun a => if base ≤ a ∧ a < base + 2 * n then some ((a - base) / 2) else none).eraseDups

/-- R429: the pass is done. -/
def execHeatPassDone (unit : Nat) (s : State) : Out :=
  let pass := (s.unitAt unit).heatPass
  if pass = 0 then .next s
  else
    let base := normPlace s.pkid (s.winPair (unitBase unit + 0x88))
    let s1 := (s.heatCounters unit).foldl (fun s i =>
      let (s1, bs, _) := s.homeRead (base + 2 * i) 2
      s1.homeWrite (base + 2 * i) (leOf 2 (if pass = 1 then natOf bs / 2 else 0))) (s.servedAs 0xF7 3)
    .next (s1.modUnit unit fun x => { x with heatPass := 0 })

/-! ### Expansion ports, R428 -/

/-- R428: a port's link goes down: what it has outstanding completes as uncorrectable. -/
def execCxlLinkDown (port : Nat) (s : State) : Out :=
  let u := 8 + port
  if 4 ≤ port ∨ !unitPresent s.hw.part u then .next s
  else
    let s1 := (s.unitAt u).reqs.foldl (fun s r => (s.failReq r).serveReq u r) s
    .next ((s1.modUnit u fun x => { x with reqs := [], down := true }).unitEvent u 3)

/-- R428: system software has retrained a port's link. -/
def execCxlLinkRetrain (port : Nat) (s : State) : Out :=
  if 4 ≤ port ∨ !unitPresent s.hw.part (8 + port) then .next s else .next (s.modUnit (8 + port) fun x => { x with down := false })

/-! ### The migration engine, R430-R432 -/

/-- The migration that a descriptor asks for (R430); none where a field has no meaning. -/
def migrationOf (id : Nat) (bs : List Byte) : Option Migration :=
  if 2 < fieldOf bs 42 1 ∨ 16 < fieldOf bs 43 1 ∨ fieldOf bs 44 4 ≠ 0 ∨ fieldOf bs 48 8 % 8 ≠ 0 ∨ fieldOf bs 16 8 % 8 ≠ 0 then none
  else
    some { id := id, src := fieldOf bs 0 8, dst := fieldOf bs 8 8, pte := fieldOf bs 16 8, old := fieldOf bs 24 8, new := fieldOf bs 32 8,
           asid := fieldOf bs 40 2, size := fieldOf bs 42 1, rounds := if fieldOf bs 43 1 = 0 then 8 else fieldOf bs 43 1,
           status := fieldOf bs 48 8, va := fieldOf bs 56 8 }

/-- Every write on its way to a page is performed, and no L1 keeps a line of it. -/
def State.settlePage (s : State) (base n : Nat) : State :=
  let s1 := (s.stores.filter fun x => match x.op with
    | .write pa _ => inPage base n pa
    | .line ln => inPage base n (128 * ln)
    | _ => false).foldl (fun s x => s.performStore x) s
  let s2 := (s1.reds.filter fun r => inPage base n r.pa).foldl (fun s r => s.performRed r) s1
  let s3 := (s2.atomics.filter fun a => inPage base n a.pa).foldl (fun s a => s.performAtomic a) s2
  s3.cores.foldl (fun s p =>
    (((s.coreAt p.1).l1.map (·.1)).filter fun ln => inPage base n (128 * ln)).foldl (fun s ln => s.dropLine p.1 ln) s) s3

/-- Keys of a page replaced by those of another. -/
def movePage {β : Type} (m : SMap β) (src dst n : Nat) : SMap β :=
  (m.filter fun p => inPage src n p.1).foldl (fun m p => sput m (p.1 - src + dst) p.2) (m.filter fun p => !inPage dst n p.1)

/-- Uncorrectable words of a page, and those that its port cannot reach. -/
def State.badIn (s : State) (base n : Nat) : List Nat :=
  let lost := if s.downAt base then ((List.range (n / 8)).map fun i => base / 8 + i).filter fun w => s.unreached (8 * w) else []
  lost ++ s.badWords.filter fun w => inPage base n (8 * w) && !lost.contains w

/-- Copies a page or a line, with the words that are uncorrectable: the reducing cache evicts its lines, and each line is read and
written by requests of the engine (R418). -/
def State.copyPage (s : State) (src dst n : Nat) : State :=
  let s0 := s.evictAll false ((s.rdc.map (·.1)).filter fun ln => inPage src n (128 * ln) || inPage dst n (128 * ln))
  let s1 := (List.range (n / 128)).foldl (fun s i =>
    let s1 := (s.heat (src + 128 * i)).request (src + 128 * i)
    (s1.heat (dst + 128 * i)).request (dst + 128 * i)) s0
  if src = dst then s1
  else
    { s1 with
      mem := movePage s1.mem src dst n
      badWords := (s1.badWords.filter fun w => !inPage dst n (8 * w)) ++ (s1.badIn src n).map fun w => (8 * w - src + dst) / 8 }

/-- Whether a page can be reached: both its ends lie in memory. -/
def State.pageThere (s : State) (base n : Nat) : Bool := s.kind base != .hole && s.kind (base + n - 1) != .hole

/-- Whether a page can be copied: both are there, and the destination's port answers. -/
def State.canMigrate (s : State) (m : Migration) : Bool :=
  s.pageThere m.src m.bytes && s.pageThere m.dst m.bytes && !s.downAt m.dst

/-- A migration starts: its source is copied; where it cannot be, a destination write has failed (R431). -/
def State.startMigration (s : State) (m : Migration) : State :=
  let s1 := if s.canMigrate m then s.copyPage (normPlace s.pkid m.src) (normPlace s.pkid m.dst) m.bytes else s
  { s1.fresh with migrations := s1.migrations ++ [{ m with failed := !s.canMigrate m }] }

/-- R430: the write of MGCMD's high word submits. -/
def execMigrationSubmit (value : Word) (s : State) : Out :=
  let a := (s.winAt mgBase).toNat + 2 ^ 32 * value.toNat
  if !s.windowsOpen ∨ 16 ≤ s.migrations.length ∨ a % 64 ≠ 0 then .next s
  else
    match (s.servedAs 0xF6 3).deviceRead a 64 with
    | (s1, none) => .next s1
    | (s1, some bs) =>
      match migrationOf s1.nextId bs with
      | none => .next s1
      | some m => .next (s1.startMigration m)

/-- Entry i of a page's leaf entries, from a given value (06 R120). -/
def Migration.entry (m : Migration) (v i : Nat) : Nat := if m.size = 1 then v - v / 2 ^ 12 % 16 * 2 ^ 12 + i * 2 ^ 12 else v

/-- A compare-and-swap of a page-table entry at `.sys`: whether it was made. -/
def State.casPte (s : State) (pa old new : Nat) : State × Bool :=
  match s.deviceRead pa 8 with
  | (s1, none) => (s1, false)
  | (s1, some bs) => if natOf bs = old then (s1.deviceWrite pa (leOf 8 new), true) else (s1, false)

/-- The entries from `i` on, one after the other; a mismatch puts the earlier ones back. -/
def State.casPtes (s : State) (m : Migration) : Nat → Nat → State × Bool
  | _, 0 => (s, true)
  | i, n + 1 =>
    match s.casPte (m.pte + 8 * i) (m.entry m.old i) (m.entry m.new i) with
    | (s1, false) => (s1, false)
    | (s1, true) =>
      match s1.casPtes m (i + 1) n with
      | (s2, true) => (s2, true)
      | (s2, false) => ((s2.casPte (m.pte + 8 * i) (m.entry m.new i) (m.entry m.old i)).1, false)

/-- The oldest migration recopies the lines that its log names, and empties it. -/
def State.recopyLog (s : State) : State × Nat :=
  match s.migrations with
  | [] => (s, 0)
  | m :: rest =>
    let src := normPlace s.pkid m.src
    let dst := normPlace s.pkid m.dst
    (m.log.foldl (fun s ln => s.copyPage (128 * ln) (128 * ln - src + dst) 128) { s with migrations := { m with log := [] } :: rest }, m.log.length)

/-- Whether the oldest migration has a round to make: its log is not empty, and its limit not reached. -/
def Migration.mayRecopy (m : Migration) : Bool := !m.log.isEmpty && decide (m.used < m.rounds)

/-- A round of the oldest migration: the lines that its log names are recopied. -/
def State.recopyRound (s : State) : State :=
  let (s1, k) := s.recopyLog
  match s1.migrations with
  | [] => s1
  | m :: rest => { s1 with migrations := { m with used := m.used + 1, lines := m.lines + k } :: rest }

/-- The freeze of the oldest migration: writes already past it complete, and the lines they logged are recopied. -/
def State.settleMigration (s : State) (m : Migration) : State × Nat := (s.settlePage (normPlace s.pkid m.src) m.bytes).recopyLog

/-- The end of the oldest migration: the status with its bits, rounds and lines (R431). -/
def State.endMigration (s : State) (m : Migration) (bits rounds lines : Nat) : State :=
  ({ s with migrations := s.migrations.drop 1 } : State).deviceWrite m.status (leOf 8 (bits + 2 ^ 8 * rounds + 2 ^ 32 * lines))

/-- R431: the oldest migration makes a round; with none left to make, it ends: freeze, entries, invalidation, status. -/
def execMigrationComplete (id : Nat) (s0 : State) : Out :=
  match s0.migrations with
  | [] => .next s0
  | m :: _ =>
    let s := s0.servedAs 0xF6 3
    if m.id ≠ id then .next s0
    else if m.failed || !s.canMigrate m then .next (s.endMigration m 5 m.used m.lines)
    else if m.mayRecopy then .next s.recopyRound
    else
      let (s1, k) := s.settleMigration m
      match s1.casPtes m 0 (if m.size = 1 then 16 else 1) with
      | (s2, false) => .next (s2.endMigration m 3 m.used (m.lines + k))
      | (s2, true) => .next ((s2.dropTlb m.asid m.va m.bytes).endMigration m 1 m.used (m.lines + k))

end Sys2Proof.Machine
end

