-- ==== Sys2Proof/Machine/Trace.lean ====
section
/-! DEFINITION. The trace and debug unit (19 R433-R442): markers, sampling marks, counter snapshots, the control of records,
and the halt, resume and step commands. -/

namespace Sys2Proof.Machine

open Sys2Proof

/-! ### Instructions, R436, R437 -/

/-- The record of a marker (R434). -/
def markRecord (launch : Nat) (lin : Dword) (thr now id : Nat) (v : Word) : List Byte :=
  traceHead launch lin thr ++ leOf 1 1 ++ leOf 1 0 ++ leOf 8 now ++ leOf 4 v.toNat ++ leOf 2 id ++ leOf 2 0

/-- R436: a marker record in each lane that is no helper, while records and markers are on. -/
def execTmark (imm : BitVec 12) (a : BitVec 7) : State → Out :=
  stateOp [.src a] fun s l t =>
    let s1 :=
      if l.helper || !s.winBit traceBase 8 then s
      else match s.block? s.issue.core s.issue.blk with
        | some b => s.traceOf (s.who l) (markRecord b.launch b.lin t.idx s.now imm.toNat (t.val a))
        | none => s
    (s1.advanceLane l, none)

/-- R436: the thread's next load is sampled. -/
def execTsmp : State → Out := plainOp [] fun t => .ok ({ t with tsmp := !t.helper }.advance 4)

/-- The checks of the address of `tcsnap`: those of a store of 16 bytes to each of its sectors (R127, R149), with its own
alignment. -/
def State.snapCheck (s : State) (va : Nat) : State × Option (Nat × Nat) :=
  if va % 64 ≠ 0 then (s, some (8, 1))
  else
    match s.translate (s.ctxOf s.issue.core s.issue.blk) va .w with
    | (s1, .error f) => (s1, some f)
    | (s1, .ok p) =>
      (s1, if s1.sizeDebug s.issue.core s.issue.blk && (List.range 4).any (fun i => s1.sizeClash (p.pa + 16 * i) 16) then some (0x0C, 1) else none)

/-- One lane of `tcsnap`: its release, the checks of its address, its command. -/
def State.snapLane (s0 : State) (tag : Nat) (d : BitVec 7) (l : LaneRef) (t : Thread) : LaneOut :=
  let w := s0.who l
  let s := s0.releaseAt w 3
  let va := (t.val64 d).toNat
  match s.snapCheck va with
  | (s1, some f) => (s1, some (memStop va 64 true false f))
  | (s1, none) =>
    let q := ((s1.block? w.core w.blk).map fun b => quadOf b t.group).getD 0
    let base := s1.laneCmd l t 30 14 0 tag []
    let c := { base with aux := [va, q], locks := [lockSpan (s.ctxOf w.core w.blk) va 64 true true base.id] }
    let s2 := s1.fresh
    if s2.mustWait c then (({ s2 with waiting := s2.waiting ++ [c] } : State).modLane l fun t => t.hold .lock, none)
    else ((s2.runSnap c).advanceLane l, none)

/-- R437: writes the counters of the lane's quadrant, and credits a tag. -/
def execTcsnap (t : BitVec 6) (d : BitVec 7) (s : State) : Out :=
  .next (s.lanes fun s l t0 =>
    let s1 := s.settleRoles l t0 [.src64 d]
    let th := (s1.lane? l).getD t0
    match firstSome [(descField d).map plainStop, (s1.badTag t.toNat).map plainStop, checkEntry th [.src64 d]] with
    | some e => (s1, some e)
    | none =>
      if l.helper then (s1.advanceLane l, none)
      else match poisonOf th [.src64 d] with
        | some e => (s1, some (rankPoison e (s1.snapLane t.toNat d l th).2))
        | none => s1.snapLane t.toNat d l th)

/-- R437: 32 bytes on a tag, once the records of the lane's sampled loads are written; the others are visible as they are
written. -/
def execTflush (t : BitVec 6) : State → Out :=
  stateOp [] fun s l _ =>
    match s.badTag t.toNat with
    | some c => (s, some (plainStop c))
    | none =>
      let s1 := if l.helper then s else (s.returnSampled (s.who l) s.nextId).sendBytes s.issue.core s.issue.blk t.toNat 32 0
      (s1.advanceLane l, none)

/-! ### The trace window, R433, R435 -/

/-- R435: TCTL, with the checks of R433; turning records on starts the count of bytes again. -/
def execTctlWrite (value : Word) (s : State) : Out :=
  let size := (s.winAt (traceBase + 0x10)).toNat
  if !s.windowsOpen ∨ (value &&& ~~~0x33F#32) ≠ 0 ∨ (value.getLsbD 0 ∧ (s.winPair (traceBase + 0x08) % 4096 ≠ 0 ∨ size % 4096 ≠ 0 ∨ size = 0)) then .next s
  else
    let s1 := if value.getLsbD 0 ∧ !s.winBit traceBase 0 then s.setWinPair (traceBase + 0x18) 0 else s
    .next (s1.setWin traceBase value)

/-- R433: a write to TDROP clears it. -/
def execTdropClear (s : State) : Out := .next (if s.windowsOpen then s.setWin (traceBase + 0x20) 0 else s)

/-! ### Halt, resume and step, R442 -/

/-- The threads that the halt registers name: of resident blocks, live. -/
def State.named (s : State) : List Who :=
  if !s.windowsOpen then [] else
  let lid := (s.winAt (traceBase + 0x300)).toNat
  let blk := s.winPair (traceBase + 0x308)
  let thr := (s.winAt (traceBase + 0x310)).toNat
  s.cores.flatMap fun p => (p.2.blocks.filter fun q => q.2.launch == lid && (blk == 2 ^ 64 - 1 || q.2.lin.toNat == blk)).flatMap fun q =>
    (q.2.threads.filter fun t => t.2.live && (thr == 0xFFFF || t.1 == thr % 1024)).map fun t => (⟨p.1, q.1, t.1⟩ : Who)

/-- Keeps what a command has done: the number of threads that it has halted or released at once, and those whose halt a handler
holds. -/
def State.setHst (s : State) (n : Nat) (held : List (Nat × Dword × Nat)) : State :=
  { s.setWin (traceBase + 0x318) (BitVec.ofNat 32 n) with halting := held }

/-- The thread of a launch, a block linear index and a logical index: of a resident block, or of a saved one. -/
def State.threadOf (s : State) (x : Nat × Dword × Nat) : Option Thread :=
  let saved := ((s.launch? x.1).map fun l => l.saved.map (·.2)).getD []
  let here := ((s.findLin x.1 x.2.1).bind fun w => s.block? w.1 w.2).toList
  ((here ++ saved.filter fun b => b.lin == x.2.1).head?).bind fun b => sget b.threads x.2.2

/-- HST as it reads: a command is in progress while a handler holds a halt that it has asked for; such a halt counts once it is
taken. -/
def State.hst (s : State) : Word :=
  let ts := s.halting.filterMap s.threadOf
  let n := (s.winAt (traceBase + 0x318)).toNat + (ts.filter fun t => t.halted.isSome).length
  BitVec.ofNat 32 ((if ts.any fun t => t.haltHeld then 1 else 0) + 2 ^ 16 * min n 0xFFFF)

/-- A host halt of a thread: held in a handler (01 R31). -/
def Thread.hostHalt (t : Thread) : Thread :=
  if t.halted.isSome then t else if t.handler then t.holdHalt 1 else t.halt 0x22 1

/-- What names a thread across saves of its block. -/
def State.nameOf (s : State) (w : Who) : Option (Nat × Dword × Nat) := (s.block? w.core w.blk).map fun b => (b.launch, b.lin, w.thr)

/-- The named threads that are not halted: those that halt now, and those whose halt their handler will hold. -/
def State.toHalt (s : State) (inHandler : Bool) : List Who :=
  s.named.filter fun w => ((s.thr? w).map fun t => t.halted.isNone && t.handler == inHandler).getD false

/-- R442: halts the named threads. -/
def execHalt (s : State) : Out :=
  .next (if s.windowsOpen then
    ((s.toHalt false ++ s.toHalt true).foldl (fun s w => s.modThr w Thread.hostHalt) s).setHst (s.toHalt false).length
      ((s.toHalt true).filterMap s.nameOf)
    else s)

/-- The named threads that are halted. -/
def State.namedHalted (s : State) : List Who := s.named.filter fun w => ((s.thr? w).map fun t => t.halted.isSome).getD false

/-- Releases halted threads: their next instruction meets no breakpoint. -/
def State.releaseHalted (s : State) (stepping : Bool) : State :=
  let ws := s.namedHalted
  if s.windowsOpen then
    (ws.foldl (fun s w => s.modThr w fun t => { t with halted := none, skipBp := true, stepping := stepping }) s).setHst ws.length []
  else s

/-- R442: the named halted threads go on from where they halted. -/
def execResume (s : State) : Out := .next (s.releaseHalted false)

/-- R442: the named halted threads go on for one instruction each. -/
def execStep (s : State) : Out := .next (s.releaseHalted true)

end Sys2Proof.Machine
end

