-- ==== Sys2Proof/Machine/Management.lean ====
section
/-! DEFINITION. The management controller (20 R443-R450): windows and the Bexkai port, reset and bring-up, firmware,
identity, self-tests, power; and the accesses of the host and of peers (01 R11, 14 R341). -/

namespace Sys2Proof.Machine

open Sys2Proof

/-! ### The management window, R444 -/

/-- A write of the host: before stage 7 its port does not respond (R445). -/
def State.fromHost (s : State) (f : State → State) : State := if s.passed 7 then f s else s

/-- QTEN written; setting it makes the work distributor read the queue table. -/
def State.writeQten (s : State) (value : Word) : State :=
  let a := mgmtBase + 0x018
  let s1 := s.setWin a (value &&& 1#32)
  if value.getLsbD 0 && !s.winBit a 0 && s1.watching then s1.readTable else s1

/-- R444: QTEN, written by the host. -/
def execQtenWrite (value : Word) (s : State) : Out := .next (s.fromHost fun s => s.writeQten value)

/-- QTB written: ignored while the queue table is in use; its base is a multiple of 4 KiB. -/
def State.writeQtb (s : State) (off : Nat) (value : Word) : State :=
  if s.winBit (mgmtBase + 0x018) 0 then s
  else if off = 0x010 ∧ value.toNat % 4096 = 0 ∨ off = 0x014 then s.setWin (mgmtBase + off) value
  else s

/-- R444: QTB, written by the host. -/
def execQtbWrite (off : Nat) (value : Word) (s : State) : Out := .next (s.fromHost fun s => s.writeQtb off value)

/-- R444: PKID, through the Bexkai port only, before stage 5. -/
def execPkidWrite (value : Word) (bexkai : Bool) (s : State) : Out :=
  if bexkai && decide (s.bstate < 5) && decide (value.toNat < 2048) then .next (s.setWin (mgmtBase + 0x004) value) else .next s

/-- MIRQ bits written 1 clear. -/
def State.writeMirq (s : State) (value : Word) : State :=
  let a := mgmtBase + 0x030
  s.setWin a (s.winAt a &&& ~~~value)

/-- R444: MIRQ, written by the host. -/
def execMirqClear (value : Word) (s : State) : Out := .next (s.fromHost fun s => s.writeMirq value)

/-- R444, R450: the sample of the power draw. -/
def execPwrSample (watts : Nat) (s : State) : Out :=
  let s1 := s.setWin (mgmtBase + 0x020) (BitVec.ofNat 32 watts)
  .next (if (s.winAt (mgmtBase + 0x024)).toNat < watts % 2 ^ 32 then s1.raiseEvent mgmtBase 0 else s1)

/-! ### Window accesses, R414, R415, R433, R443-R445 -/

/-- The partition or port whose window holds a BAR 0 offset. -/
def unitAtOff (off : Nat) : Option Nat := if 0x01000000 ≤ off ∧ off < mgBase then some ((off - 0x01000000) / 0x10000) else none

/-- Whether an offset lies in a window that the package has. -/
def State.hasWindow (s : State) (off : Nat) : Bool :=
  match unitAtOff off with
  | some u => unitPresent s.hw.part u
  | none => off / 4096 == mgBase / 4096 || off / 4096 == traceBase / 4096 || off / 4096 == mgmtBase / 4096

/-- Offsets that read 0 in an expansion port's window (R415). -/
def portReads0 (u o : Nat) : Bool := decide (8 ≤ u) && ((decide (0x50 ≤ o) && decide (o < 0x7C)) || (decide (0x2000 ≤ o) && decide (o < 0x6000)))

/-- A register of a partition or port as it reads. -/
def State.readUnit (s : State) (u o : Nat) : Word :=
  if portReads0 u o then 0
  else if o = 0x000 then BitVec.ofNat 32 (u % 8 + if s.hw.part = .s8 ∧ u < 8 then 256 else 0)
  else if o = 0x070 then BitVec.ofNat 32 (s.unitAt u).retired.length
  else if o = 0x074 then BitVec.ofNat 32 retireCap
  else if o = 0x084 then (if (s.unitAt u).heatPass = 0 then 0 else 1)
  else s.winAt (unitBase u + o)

/-- A register of a window that is present, as it reads. -/
def State.readRegister (s : State) (off : Nat) : Word :=
  match unitAtOff off with
  | some u => s.readUnit u (off % 0x10000)
  | none =>
    if off = mgBase ∨ off = mgBase + 4 then 0
    else if off = mgBase + 8 then BitVec.ofNat 32 (16 - s.migrations.length)
    else if off = traceBase + 0x318 then s.hst
    else if off = mgmtBase then (if s.hw.part = .s8 then 8 else 4)
    else s.winAt off

/-- A register written where it passes its range check. -/
def State.writeIf (s : State) (ok : Bool) (off : Nat) (value : Word) : State := if ok then s.setWin off value else s

/-- A write of a partition's or port's register with no behaviour of its own. -/
def State.writeUnit (s : State) (u o : Nat) (value : Word) : State :=
  let v := value.toNat
  let a := unitBase u + o
  match o with
  | 0x010 => s.writeIf (v % 256 != 0 && v / 256 % 256 != 0 && v / 65536 % 256 != 0 && decide (v < 2 ^ 24)) a value
  | 0x014 => s.writeIf (decide (1000 ≤ v) && decide (v ≤ 10000000)) a value
  | 0x034 => s.writeIf (decide (v < 512)) a value
  | 0x038 => s.setWin a value
  | 0x03C => s.setWin a value
  | 0x050 => s.writeIf (decide (u < 8) && decide (v < 2 ^ 17)) a value
  | 0x060 => s.writeIf (decide (u < 8)) a value
  | _ => s.writeIf (decide (0x88 ≤ o) && decide (o < 0xA0)) a value

/-- A write of a breakpoint's register. -/
def State.writeBreak (s : State) (o : Nat) (value : Word) : State :=
  let ok := match o % 16 with
    | 0 => !value.getLsbD 0
    | 8 => decide (value.toNat < 16) && value.toNat / 2 % 4 != 3
    | _ => true
  s.writeIf ok (traceBase + o) value

/-- A write of a watchpoint's register: the watched address stays aligned to its length. -/
def State.writeWatch (s : State) (o : Nat) (value : Word) : State :=
  let b := traceBase + o / 32 * 32
  let v := value.toNat
  match o % 32 with
  | 0 => s.writeIf (v % 2 ^ ((s.winAt (b + 8)).toNat / 256 % 16) == 0) (traceBase + o) value
  | 4 => s.setWin (traceBase + o) value
  | 8 => s.writeIf ((value &&& 0xFFFFF0C0#32) == 0 && v / 8 % 4 != 3 && decide (v / 256 ≤ 12) && (s.winAt b).toNat % 2 ^ (v / 256) == 0)
      (traceBase + o) value
  | 12 => s.setWin (traceBase + o) value
  | _ => s

/-- A write of a trace register with no behaviour of its own. -/
def State.writeTrace (s : State) (o : Nat) (value : Word) : State :=
  if 0x100 ≤ o ∧ o < 0x180 then s.writeBreak o value
  else if 0x200 ≤ o ∧ o < 0x280 then s.writeWatch o value
  else if o = 0x310 then s.writeIf (decide (value.toNat < 1024) || value.toNat == 0xFFFF) (traceBase + o) value
  else s.writeIf (o ∈ [0x008, 0x00C, 0x010, 0x300, 0x308, 0x30C]) (traceBase + o) value

/-- A write of a management register with no behaviour of its own. -/
def State.writeMgmt (s : State) (o : Nat) (value : Word) : State :=
  match o with
  | 0x024 => s.writeIf (decide (100 ≤ value.toNat) && decide (value.toNat ≤ 4000)) (mgmtBase + o) value
  | 0x034 => s.writeIf (decide (value.toNat < 16)) (mgmtBase + o) value
  | _ => s

/-- Whether an offset can be accessed now: aligned, in a window that is present, and open (R414, R445). -/
def State.reachable (s : State) (off : Nat) : Bool :=
  off % 4 == 0 && s.hasWindow off && (off / 4096 == mgmtBase / 4096 || s.windowsOpen)

/-- A write of a register that has no behaviour of its own. -/
def State.writeRegister (s : State) (off : Nat) (value : Word) : State :=
  if !s.reachable off then s
  else
    match unitAtOff off with
    | some u => s.writeUnit u (off % 0x10000) value
    | none =>
      if off = mgBase then s.setWin off value
      else if off / 4096 = traceBase / 4096 then s.writeTrace (off % 4096) value
      else if off / 4096 = mgmtBase / 4096 then s.writeMgmt (off % 4096) value
      else s

/-- R414: the same, by the host. -/
def execRegisterWrite (off : Nat) (value : Word) (s : State) : Out := .next (s.fromHost fun s => s.writeRegister off value)

/-- A write to a partition's or port's window. -/
def State.unitWrite (s : State) (u o : Nat) (value : Word) : Out :=
  if portReads0 u o then .next s
  else if 0x1000 ≤ o ∧ o < 0x2000 then execMissCounterClear u o s
  else
    match o with
    | 0x020 => execErrorCountClear u o s
    | 0x024 => execErrorCountClear u o s
    | 0x028 => execErrorCountClear u o s
    | 0x02C => execErrorCountClear u o s
    | 0x030 => execIrqstClear u value s
    | 0x054 => execRepair u value s
    | 0x058 => execRetrain u value s
    | 0x078 => execRetire u value s
    | 0x080 => execHctlWrite u value s
    | 0x084 => if value = 1 then execHeatHalve u s else if value = 2 then execHeatClear u s else .next s
    | _ => .next (s.writeRegister (unitBase u + o) value)

/-- A write to any window register, with the behaviour of each, whatever the port. -/
def State.windowWrite (s : State) (off : Nat) (value : Word) : Out :=
  if !s.reachable off then .next s
  else
    match unitAtOff off with
    | some u => s.unitWrite u (off % 0x10000) value
    | none =>
      if off = mgBase + 4 then execMigrationSubmit value s
      else if off = traceBase then execTctlWrite value s
      else if off = traceBase + 0x20 then execTdropClear s
      else if off = traceBase + 0x314 then
        (if value = 1 then execHalt s else if value = 2 then execResume s else if value = 3 then execStep s else .next s)
      else if off = mgmtBase + 0x004 then execPkidWrite value true s
      else if off = mgmtBase + 0x010 then .next (s.writeQtb 0x010 value)
      else if off = mgmtBase + 0x014 then .next (s.writeQtb 0x014 value)
      else if off = mgmtBase + 0x018 then .next (s.writeQten value)
      else if off = mgmtBase + 0x030 then .next (s.writeMirq value)
      else .next (s.writeRegister off value)

/-! ### The Bexkai port, R443 -/

/-- An answer of the port. -/
def State.answerWith (s : State) (r : Reply) : State := { s with reply := some r }

/-- An answer that carries data. -/
def State.answerData (s : State) (bs : List Byte) : State := s.answerWith { data := bs }

/-- Whether the port refuses a window for want of main power. -/
def State.darkWindow (s : State) (off : Nat) : Bool := !s.mainPower && off / 4096 != mgmtBase / 4096

/-- R443: command 0x01. -/
def execWindowRead (off : Nat) (s : State) : Out :=
  .next (if s.darkWindow off then s.answerWith { code := 5 }
    else s.answerData (wordBytes (if s.reachable off then s.readRegister off else BitVec.allOnes 32)))

/-- R443: command 0x02. -/
def execWindowWrite (off : Nat) (value : Word) (s : State) : Out :=
  if s.darkWindow off then .next (s.answerWith { code := 5 })
  else
    match s.windowWrite off value with
    | .next s1 => .next (s1.answerData [])
    | other => other

/-- Commands of type 0x7F. -/
def knownCommands : List Nat := [0x01, 0x02, 0x10, 0x11, 0x20, 0x21, 0x30]

/-- R443: a request with an unknown command changes nothing. -/
def execUnknownCommand (cmd : Nat) (s : State) : Out :=
  .next (if cmd ∈ knownCommands then s else s.answerWith { code := 2 })

/-! ### Firmware, R446 -/

/-- An image that passes the three checks. -/
def Image.accepted (i : Image) (fused : Nat) : Bool := i.signed && i.keyed && decide (fused ≤ i.counter)

def Firmware.running (f : Firmware) : Option Image := if f.runsB then f.slotB else f.slotA
def Firmware.other (f : Firmware) : Option Image := if f.runsB then f.slotA else f.slotB
def Firmware.setOther (f : Firmware) (i : Option Image) : Firmware := if f.runsB then { f with slotA := i } else { f with slotB := i }

/-- An image that stage 1 may boot: accepted, and activated if it was staged. -/
def bootable (i : Option Image) (fused : Nat) : Bool :=
  match i with
  | some x => x.accepted fused && !x.fresh
  | none => false

/-- The version of a slot. -/
def versionOf (i : Option Image) : Nat := (i.map (·.version)).getD 0

/-- The slots after stage 1: the one that boots is the higher version of those that may; none where neither may. -/
def Firmware.boot (f : Firmware) : Option Firmware :=
  let run := bootable f.running f.fused
  let oth := bootable f.other f.fused
  if oth && (!run || decide (versionOf f.running < versionOf f.other)) then some { f with runsB := !f.runsB }
  else if run then some f
  else none

/-- The counter fused after a boot that reaches stage 8. -/
def Firmware.fuse (f : Firmware) : Firmware := { f with fused := max f.fused ((f.running.map (·.counter)).getD 0) }

/-- An image as staged: its signature is over all that comes before it, its version and counter among them, and its key's digest is
held against the fuses. -/
def stagedImage (version counter : Nat) (image : List Byte) : Image :=
  { version := version, counter := counter, bytes := image, signed := Config.imageSigned version counter image
    keyed := Config.sm3 (Config.imageKey image) == Config.fusedKey (), fresh := true }

/-- R446: command 0x10 writes an image into the slot that does not run. -/
def execFirmwareStage (version counter : Nat) (image : List Byte) (s : State) : Out :=
  .next (({ s with firmware := s.firmware.setOther (some (stagedImage version counter image)) } : State).answerData [])

/-- R446: command 0x11 verifies the other slot's image and marks it for the next reset. -/
def execFirmwareActivate (s : State) : Out :=
  let fail := (s.drawn 1).answerWith { code := (Config.freeByte s.freeCtr).toNat, error := true }
  match s.firmware.other with
  | none => .next fail
  | some i =>
    if i.accepted s.firmware.fused then
      let s1 := { s with firmware := s.firmware.setOther (some { i with fresh := false }) }
      .next ((s1.raiseEvent mgmtBase 2).answerData [])
    else .next fail

/-! ### Reset and bring-up, R445 -/

/-- What is left when the package loses its state: what is fixed, non-volatile memory, memory that is not the package's own,
time, and the inputs to come. -/
def State.powerCut (s : State) : State :=
  { State.reset with
    hw := s.hw
    cycle := s.cycle
    bootCycle := s.cycle
    mem := s.mem.filter fun p => !(physKind s.hw s.pkid p.1).isHbm
    badWords := s.badWords.filter fun w => !(physKind s.hw s.pkid (8 * w)).isHbm
    firmware := s.firmware
    nvRetired := s.nvRetired
    bootRetired := s.bootRetired
    bootDue := s.bootDue
    alerts := s.alerts
    reply := s.reply
    answer := s.answer
    agenda := s.agenda
    nextLaunch := s.nextLaunch
    nextId := s.nextId
    freeCtr := s.freeCtr }

/-- The retirement entries loaded into the indirection tables (R427), and at a power-up the table that measurement 4 covers (R447). -/
def State.loadRetired (s : State) : State :=
  let s1 := { s with bootRetired := if s.bootDue then s.nvRetired else s.bootRetired, bootDue := false }
  s.nvRetired.foldl (fun s e => s.modUnit e.1 fun x => { x with retired := x.retired ++ [e.2] }) s1

/-- Stage memory, the caches and the accumulators are 0, and row swaps start afresh. -/
def State.clearSram (s : State) : State :=
  { s with stage := [], l2 := [], rdc := [], units := s.units.map fun p => (p.1, { p.2 with swaps := [] }) }

/-- Twineric links trained: those of a peer whose timebase stays apart are down. -/
def State.trainLinks (s : State) : State :=
  { s with linksDown := ((Config.peersApart s.cycle).filter fun k => decide (k < 2048)).foldl (fun m k => sput m k s.now) [] }

/-- What a stage does (R445); none where it fails. At stage 8 the counter of the running image is fused (R446), and launch queues are
watched if QTEN is set. -/
def State.doStage (s : State) (k : Nat) : Option State :=
  match k with
  | 1 => s.firmware.boot.map fun f => { s with firmware := f }
  | 8 =>
    let s1 := { s with firmware := s.firmware.fuse, bootCycle := s.cycle }
    some (if s1.watching then s1.readTable else s1)
  | _ =>
    if Config.stageFails s.cycle k then none
    else some (match k with
      | 2 => { s with mainPower := true }
      | 3 => s.loadRetired
      | 4 => s.clearSram
      | 5 => ({ s with pkid := (s.winAt (mgmtBase + 0x004)).toNat % 2048 } : State).trainLinks
      | _ => s)

/-- R445: the next stage of bring-up: BSTATE shows it, with [8] where it fails. -/
def execPowerUp (s : State) : Out :=
  if s.bringUpFailed || decide (8 ≤ s.bstate) then .next s
  else
    match (s.setWin (mgmtBase + 0x008) (BitVec.ofNat 32 (s.bstate + 1))).doStage (s.bstate + 1) with
    | none => .next (s.setWin (mgmtBase + 0x008) (BitVec.ofNat 32 (0x100 + (s.bstate + 1))))
    | some t => .next t

/-- R445: a cold reset goes back to stage 0, from which bring-up follows. -/
def execColdReset (s : State) : Out := .next (s.powerCut.answerData [])

/-- Registers of the management window. -/
def State.mgmtRegs (s : State) : SMap Word := s.win.filter fun p => p.1 / 4096 == mgmtBase / 4096

/-- R445: a warm reset goes back to stage 1, from which stages 2 to 8 follow, whether main power is on or off; the MGC keeps running.
Where stage 1 has not been passed it is the next one (log entry 28). -/
def execWarmReset (s : State) : Out :=
  .next ((({ s.powerCut with win := s.mgmtRegs, tests := s.tests, aside := s.aside } : State).setWin (mgmtBase + 0x008)
    (if s.passed 1 then 1 else 0)).answerData [])

/-- R446: power is lost; the next bring-up is a power-up. -/
def execPowerLoss (s : State) : Out := .next { s.powerCut with bootDue := true }

/-! ### Identity and attestation, R447 -/

/-- A retirement entry as its table word (R426). -/
def retireWord (u : Nat) (r : Retired) : Nat :=
  u * 2 ^ 61 + r.ch * 2 ^ 56 + r.bank * 2 ^ 50 + r.row * 2 ^ 32 + r.spare * 2 ^ 30 + 1

def retireTable (es : List (Nat × Retired)) : List Byte := es.flatMap fun e => leOf 8 (retireWord e.1 e.2)

/-- What the four measurements cover. -/
def State.measured (s : State) : List (List Byte) :=
  [Config.bootRom (), (s.firmware.running.map (·.bytes)).getD [],
   leOf 8 s.firmware.fused ++ leOf 1 (if s.hw.part = .s8 then 8 else 4) ++ s.hw.inactive.flatMap fun p => leOf 1 p,
   retireTable s.bootRetired]

/-- R447: GET_VERSION: SPDM 1.2. -/
def execGetVersion (s : State) : Out := .next (s.answerData (leOf 1 0x12))

/-- R447: GET_CAPABILITIES: the flags are open. -/
def execGetCapabilities (s : State) : Out :=
  let (s1, bs) := s.freeBytes 4
  .next (s1.answerData bs)

/-- SPDM's bits of SM2 and SM3. -/
def sm2Bit : Nat := 9
def sm3Bit : Nat := 6

/-- R447: NEGOTIATE_ALGORITHMS: only SM2 and SM3. -/
def execNegotiateAlgorithms (sign hash : Nat) (s : State) : Out :=
  .next (if sign.testBit sm2Bit && hash.testBit sm3Bit then s.answerData (leOf 4 (2 ^ sm2Bit) ++ leOf 4 (2 ^ sm3Bit))
    else s.answerWith { error := true })

/-- R447: GET_DIGESTS. -/
def execGetDigests (s : State) : Out := .next (s.answerData (Config.sm3 (Config.certChain ())))

/-- R447: GET_CERTIFICATE, of slot 0. -/
def execGetCertificate (slot : Nat) (s : State) : Out :=
  .next (if slot = 0 then s.answerData (Config.certChain ()) else s.answerWith { error := true })

/-- R447: CHALLENGE. -/
def execChallenge (nonce : List Byte) (s : State) : Out :=
  let dig := Config.sm3 (Config.certChain ())
  .next (s.answerData (dig ++ Config.sm2Sign (dig ++ nonce)))

/-- R447: GET_MEASUREMENTS. -/
def execGetMeasurements (nonce : List Byte) (s : State) : Out :=
  let ms := s.measured.flatMap Config.sm3
  .next (s.answerData (ms ++ Config.sm2Sign (ms ++ nonce)))

/-! ### Self-tests, R448, R449 -/

/-- Whether the package has what a test is of (R449; 00 R2, 01 R4, 18 R417): an SRAM row of a die, a row or a lane of a partition's
channel, or a lane of a Twineric port of an I/O die. -/
def SelfTest.present (t : SelfTest) (p : Part) : Bool :=
  match t.src with
  | 1 => decide (t.unit < p.dies) && decide (t.ch < 256)
  | 2 => unitPresent p t.unit && decide (t.unit < 8) && decide (t.ch < 32) && decide (t.row < 2 ^ 18)
  | 3 => unitPresent p t.unit && decide (t.unit < 8) && decide (t.ch < 32) && decide (t.row < 76)
  | 4 => decide (t.unit < p.dies / 2) && t.ch / 6 == t.unit && decide (t.row < 16)
  | _ => false

/-- R448: the test that a logged error of a source calls for starts, or is queued behind one of its unit. -/
def execSelfTestStart (src unit ch row addr : Nat) (s : State) : Out :=
  let t : SelfTest := ⟨src, unit, ch, row, addr⟩
  .next (if t.present s.hw.part then s.addTest t else s)

/-- Writes an entry of the self-test log. -/
def State.logTest (s : State) (t : SelfTest) (result : Nat) : State :=
  let n := (s.winAt (mgmtBase + 0x040)).toNat
  (s.putWindow (mgmtBase + 0x400 + 32 * (n % 16))
    (leOf 1 t.src ++ leOf 1 result ++ leOf 1 t.unit ++ leOf 1 t.ch ++ leOf 4 t.row ++ leOf 8 t.addr ++ leOf 8 s.now ++ leOf 8 0)).bump
      (mgmtBase + 0x040)

/-- A lane returns to use. -/
def State.returnLane (s : State) (u ch lane : Nat) : State := (s.modUnit u fun x => x.returnLane ch lane).showSpares u ch

/-- What a test's result does to its unit. -/
def State.applyTest (s : State) (t : SelfTest) (result : Nat) : State :=
  if t.src = 2 ∧ result = 1 then s.retireRow t.unit t.ch t.bank t.row
  else if t.src = 2 then s.readRow t.unit t.ch t.bank t.row
  else if t.src = 3 ∧ result = 0 then s.returnLane t.unit t.ch t.row
  else if t.src = 3 ∧ result = 2 then s.unitEvent t.unit 6
  else if result = 0 then { s with aside := s.aside.filter fun x => !x.named t }
  else s

/-- The test that was queued behind one that has ended starts. -/
def State.nextTest (s : State) (t : SelfTest) : State :=
  match s.testsOf t with
  | x :: _ => s.setAside x
  | [] => s

/-- A test has ended: its unit, its log entry, its alert, and the test behind it. -/
def State.endTest (s : State) (t : SelfTest) (result : Nat) : State :=
  let s1 := (({ s with tests := s.tests.erase t } : State).applyTest t result).logTest t result
  (if result = 0 then s1 else s1.raiseEvent mgmtBase 1).nextTest t

/-- R448, R449: the test that runs on a unit ends: 0 pass, 1 fail, 2 spare exhausted. -/
def execSelfTestComplete (src unit ch row result : Nat) (s : State) : Out :=
  match s.tests.find? fun t => t.named ⟨src, unit, ch, row, 0⟩ with
  | none => .next s
  | some t => .next (if 3 ≤ result then s else s.endTest t result)

/-- The bytes of a window from an offset on. -/
def State.windowBytes (s : State) (a n : Nat) : List Byte := (List.range (n / 4)).flatMap fun i => wordBytes (s.winAt (a + 4 * i))

/-- R443: command 0x20. -/
def execSelfTestLogRead (s : State) : Out := .next (s.answerData (s.windowBytes (mgmtBase + 0x400) 512))

/-- R443: command 0x21. -/
def execRetirementTableRead (s : State) : Out := .next (s.answerData (retireTable s.nvRetired))

/-! ### Accesses of peers and of the host -/

/-- Bytes at the homes of a physical span: those read, or why not. -/
def State.physRead (s : State) (pa n : Nat) : State × Nat × List Byte :=
  (lineCuts (n / 128 + 2) pa n).foldl (fun acc cut =>
    if acc.2.1 ≠ 0 then acc
    else if acc.1.kind cut.1 = .hole then (acc.1, 9, [])
    else
      let (s1, bs, bad) := acc.1.homeRead (normPlace acc.1.pkid cut.1) cut.2
      if bad then (s1, 0xD, []) else (s1, 0, acc.2.2 ++ bs)) (s, 0, [])

/-- Bytes written at the homes of a physical span. -/
def State.physWrite (s : State) (pa : Nat) (bs : List Byte) : State × Nat :=
  (lineCuts (bs.length / 128 + 2) pa bs.length).foldl (fun acc cut =>
    if acc.2 ≠ 0 then acc
    else if acc.1.kind cut.1 = .hole then (acc.1, 9)
    else (acc.1.homeWrite (normPlace acc.1.pkid cut.1) ((bs.drop (cut.1 - pa)).take cut.2), 0)) (s, 0)

/-- An access from outside, and its answer. -/
def State.outsideAccess (s : State) (pa len : Nat) (data : List Byte) (write : Bool) : State :=
  if write then
    let (s1, cause) := s.physWrite pa (data.take len)
    { s1 with answer := some (cause, []) }
  else
    let (s1, cause, bs) := s.physRead pa len
    { s1 with answer := some (cause, bs) }

/-- R11: a peer's access through this package's window, once the Twineric links are up. -/
def execPeerRequest (pkg off len : Nat) (data : List Byte) (write : Bool) (s : State) : Out :=
  if !s.passed 5 || pkg == s.pkid || (sget s.linksDown pkg).isSome then .next s
  else if 2 ^ 39 ≤ off then .next { s with answer := some (9, []) }
  else .next ((s.servedAs 0xF8 1).outsideAccess off len data write)

/-- R341: a coherent access of the host, once the host port's link is up. -/
def execHostAccess (pa len : Nat) (data : List Byte) (write : Bool) (s : State) : Out :=
  if !s.passed 7 then .next s
  else .next ((s.servedAs 0xF7 1).outsideAccess pa len data write)

end Sys2Proof.Machine
end

