-- ==== Sys2Proof/Machine/Splat.lean ====
section
/-! DEFINITION. The splat blend unit (16 R382-R398): projection, keys, the pixel state, record loads, forward blending
and reverse replay. -/

namespace Sys2Proof.Machine

open Sys2Proof

/-! ### Operand fields, R383 -/

/-- A run that is read. -/
def sbRunA (f : BitVec 7) : Option (Nat × Nat) := if f.toNat = 127 then some (3, 1) else if 116 ≤ f.toNat then some (3, 0x70) else none

/-- A run that is written. -/
def sbRunD (f : BitVec 7) : Option (Nat × Nat) := if f.toNat = 127 then some (3, 2) else if 116 ≤ f.toNat then some (3, 0x70) else none

/-- A source that may be a constant. -/
def sbSrc (f : BitVec 7) : Option (Nat × Nat) :=
  if f.toNat = 127 then some (3, 1) else if 116 ≤ f.toNat ∧ f.toNat < 124 then some (3, 0x70) else none

/-- A destination register or pair. -/
def sbDst (f : BitVec 7) : Option (Nat × Nat) :=
  if 124 ≤ f.toNat then some (3, 2) else if 116 ≤ f.toNat then some (3, 0x70) else none

/-- A lane instruction of the unit: its fields, its operands, its effect. -/
def sbOp (fields : List (Option (Nat × Nat))) (roles : List Role) (f : State → LaneRef → Thread → LaneOut) : State → Out :=
  wordCheck (firstSome fields) (stateOp roles f)

/-- Words written from a field on, after which the instruction is complete. -/
def State.sbWrite (s : State) (l : LaneRef) (t : Thread) (d : BitVec 7) (ws : List Word) : LaneOut :=
  (s.setLane l ((t.setRegs (t.absReg d.toNat) ws).advance 4), none)

/-! ### Arithmetic, R383 -/

/-- An FP32 word as an exact value. -/
def sbv (w : Word) : Num := fp32.value w.toNat

/-- One rounding to nearest even; an exact zero is +0. -/
def sbr (x : Num) : Word := if x.isZero then 0 else BitVec.ofNat 32 (fp32.round .rn false x).1

/-- The exact sum and product of several values. -/
def sbSum (l : List Num) : Num := l.foldl (fun a x => (a.add .rn x).1) (Num.ofInt 0)
def sbProd (l : List Num) : Num := l.foldl (fun a x => (a.mul x).1) (Num.ofInt 1)

/-- A NaN or an infinity. -/
def Num.special : Num → Bool
  | .fin .. => false
  | _ => true

/-- The quotient of exact values with a positive finite divisor, rounded once. -/
def sbQuot (x z : Num) : Word :=
  match x, z with
  | .fin n m e, .fin _ mz ez => if m = 0 then 0 else BitVec.ofNat 32 (fp32.roundQ .rn false n m mz (e - ez)).1
  | _, _ => 0

/-- An exact value times ln 2, rounded once (R395). -/
def sbLn2 (x : Num) : Word :=
  match x with
  | .nan _ => BitVec.ofNat 32 fp32.nanEnc
  | .inf n => BitVec.ofNat 32 (fp32.withSign n fp32.infEnc)
  | .fin n m e => if m = 0 then 0 else BitVec.ofNat 32 (fp32.roundFix .rn n (m * ln2Fix) e).1

/-- A quotient of exact values times (1/2) log2(e), rounded once (R386). -/
def sbK (x d : Num) : Word :=
  match x, d with
  | .fin n m e, .fin _ md ed =>
    if m = 0 then 0
    else
      let sh : Int := 200 - log2Rat m md
      let q := scaleQ (m * 2 ^ fixP) (2 * md * ln2Fix) sh
      BitVec.ofNat 32 (fp32.roundSticky .rn n (q.1 / q.2) (e - ed - sh) false).1
  | _, _ => 0

/-- The floor of an exact value. -/
def sbFloor : Num → Int
  | .fin n m e =>
    let z : Int := if n then -(m : Int) else m
    if 0 ≤ e then z * 2 ^ e.toNat else z / 2 ^ (-e).toNat
  | _ => 0

/-! ### Projection, R386 -/

/-- The least n from `lo` on, below `hi`, at which a property that stays true becomes true. -/
def leastFrom : Nat → Nat → Nat → (Nat → Bool) → Nat
  | 0, lo, _, _ => lo
  | k + 1, lo, hi, p =>
    if hi ≤ lo then lo
    else
      let mid := (lo + hi) / 2
      if p mid then leastFrom k lo mid p else leastFrom k (mid + 1) hi p

/-- min(ceil(3 sqrt lam), 65535), of the covariance times z^4, and z^4. -/
def sbRadius (v00 v01 v11 z4 : Num) : Nat :=
  let tr := (v00.add .rn v11).1
  let df := (v00.add .rn v11.neg).1
  let disc := sbProd [.ofInt 81, sbSum [sbProd [df, df], sbProd [.ofInt 4, v01, v01]]]
  leastFrom 17 1 65535 fun n =>
    let c := (sbProd [.ofInt (2 * n * n), z4]).add .rn (sbProd [.ofInt (-9), tr])
    !Num.lt c.1 (.ofInt 0) && !Num.lt (sbProd [c.1, c.1]) disc

/-- A tile bound. -/
def sbClamp (z : Int) (hi : Nat) : Nat := (max 0 (min z hi)).toNat

/-- Projects a Gaussian: its nine words and the camera's sixteen to the nine words of the output. -/
def sbProject (a cam : List Word) : List Word :=
  let x (i : Nat) : Num := sbv (nth a i 0)
  let p (r c : Nat) : Num := sbv (nth cam (4 * r + c) 0)
  let cull := List.replicate 9 (0 : Word)
  let cx := sbv (nth cam 12 0)
  let cy := sbv (nth cam 13 0)
  let q (i : Nat) : Num := sbv (sbr (sbSum [sbProd [p i 0, x 0], sbProd [p i 1, x 1], sbProd [p i 2, x 2], p i 3]))
  let z := q 2
  if ((a ++ cam.take 14).any fun w => (sbv w).special) || (q 0).special || (q 1).special || z.special || !Num.lt (.ofInt 0) z then cull
  else
    let u := sbQuot (sbSum [q 0, sbProd [cx, z]]) z
    let v := sbQuot (sbSum [q 1, sbProd [cy, z]]) z
    let sig (i j : Nat) : Num := x (nth [3, 4, 5, 4, 6, 7, 5, 7, 8] (3 * i + j) 3)
    -- the rows of z^2 J W
    let m0 (c : Nat) : Num := sbSum [sbProd [z, p 0 c], sbProd [(q 0).neg, p 2 c]]
    let m1 (c : Nat) : Num := sbSum [sbProd [z, p 1 c], sbProd [(q 1).neg, p 2 c]]
    let form (f g : Nat → Num) : Num :=
      sbSum ((List.range 9).map fun k => sbProd [f (k / 3), sig (k / 3) (k % 3), g (k % 3)])
    let v00 := form m0 m0
    let v01 := form m0 m1
    let v11 := form m1 m1
    let z4 := sbProd [z, z, z, z]
    let det := sbSum [sbProd [v00, v11], (sbProd [v01, v01]).neg]
    if !Num.lt (.ofInt 0) det || !Num.lt (.ofInt 0) v00 || (sbv u).special || (sbv v).special then cull
    else
      let qa := sbK (sbProd [v11, z4]) det
      let qb := sbK (sbProd [v01, z4]).neg det
      let qc := sbK (sbProd [v00, z4]) det
      let r := sbRadius v00 v01 v11 z4
      let grd := (nth cam 14 0).toNat
      let lo (w : Word) (t : Nat) : Nat := sbClamp (sbFloor (((sbv w).add .rn (.ofInt (-(r : Int)))).1.scale (-4))) t
      let hi (w : Word) (t : Nat) : Nat := sbClamp (sbFloor (((sbv w).add .rn (.ofInt r)).1.scale (-4)) + 1) t
      let x0 := lo u (grd % 65536)
      let x1 := hi u (grd % 65536)
      let y0 := lo v (grd / 65536)
      let y1 := hi v (grd / 65536)
      if x1 ≤ x0 ∨ y1 ≤ y0 then cull
      else [u, v, sbr z, BitVec.ofNat 32 r, BitVec.ofNat 32 (x0 + 65536 * y0), BitVec.ofNat 32 (x1 + 65536 * y1), qa, qb, qc]

/-- The camera of the issuing block, its sixteen registers. -/
def State.camera (s : State) : List Word :=
  match s.block? s.issue.core s.issue.blk with
  | some b => (List.range 16).map fun i => b.camAt i
  | none => List.replicate 16 0

/-- R386: projects one Gaussian per lane. -/
def execSproj (a d : BitVec 7) : State → Out :=
  sbOp [sbRunA a, sbRunD d] [.rw a 9, .also d 9] fun s l t =>
    s.sbWrite l t d (if l.helper then List.replicate 9 0 else sbProject (t.regRun (t.absReg a.toNat) 9) s.camera)

/-- R387: builds a splat key. -/
def execSkey (b a d : BitVec 7) : State → Out :=
  sbOp [sbSrc a, sbSrc b, sbDst d] [.src a, .src b, .dst64 d] fun s l t =>
    let key := (t.val a).toNat % 2 ^ 24 * 2 ^ 40 + (t.val b).toNat * 2 ^ 8 + t.idx % 256
    (s.setLane l ((t.setVal64 d (if l.helper then 0 else BitVec.ofNat 64 key)).advance 4), none)

/-! ### Pixel state, R388, R389 -/

/-- The 32 bytes of the pixel state, as words. -/
def Pixel.words (p : Pixel) : List Word := [nth p.col 0 0, nth p.col 1 0, nth p.col 2 0, p.trans, p.pix, p.ctl, p.ncon, 0]

/-- The state that eight words give. -/
def pixelOf (ws : List Word) : Pixel :=
  { col := ws.take 3, trans := nth ws 3 0, pix := nth ws 4 0, ctl := nth ws 5 0, ncon := nth ws 6 0 }

def Pixel.last (p : Pixel) : Nat := p.ctl.toNat % 2 ^ 24
def Pixel.done (p : Pixel) : Bool := p.ctl.getLsbD 24
def Pixel.rev (p : Pixel) : Bool := p.ctl.getLsbD 25
def Pixel.live (p : Pixel) : Bool := p.ctl.getLsbD 26

/-- The control word with another LAST. -/
def Pixel.withLast (p : Pixel) (i : Nat) : Word := (p.ctl &&& 0xFF000000#32) ||| BitVec.ofNat 32 (i % 2 ^ 24)

/-- R389: the pixel state of the forward pass. -/
def execSinit (a : BitVec 7) : State → Out :=
  sbOp [sbSrc a] [.src a] fun s l t =>
    (s.setLane l ((if l.helper then t else
      { t with pixel := { trans := 0x3F800000, pix := t.val a, ctl := 0x04000000 } }).advance 4), none)

/-- R389: turns to the reverse pass. -/
def execSinitr : State → Out :=
  plainOp [] fun t => .ok ((if t.helper then t else
    { t with pixel := { t.pixel with col := [0, 0, 0], ctl := (t.pixel.ctl &&& 0xFEFFFFFF#32) ||| 0x02000000#32 } }).advance 4)

/-- R389: reads the pixel state. -/
def execSrd (d : BitVec 7) : State → Out :=
  sbOp [sbRunD d] [.also d 8] fun s l t => s.sbWrite l t d (if l.helper then List.replicate 8 0 else t.pixel.words)

/-- R389: writes the pixel state. -/
def execSwr (a : BitVec 7) : State → Out :=
  sbOp [sbRunA a] [.rw a 8] fun s l t =>
    let ws := t.regRun (t.absReg a.toNat) 8
    if nth ws 7 0 ≠ 0 ∨ 2 ^ 27 ≤ (nth ws 5 0).toNat then (s, some (.trap 2 0 0 0))
    else (s.setLane l ((if l.helper then t else { t with pixel := pixelOf ws }).advance 4), none)

/-! ### Record loads, R391 -/

/-- Of two faults of one access, that of the lower priority number (01 R26). -/
def lowerFault (a : Option (Nat × Nat)) (b : Nat × Nat) : Nat × Nat :=
  match a with
  | some f => if b.1 < f.1 then b else f
  | none => b

/-- The places of the three parts of a record, or the fault of the 48 bytes. -/
def State.recordPlaces (s : State) (w : Who) (va scope : Nat) : State × Except Stop (List Place) :=
  let r := (List.range 3).foldl (fun (acc : State × Option (Nat × Nat) × List Place) i =>
    match acc.1.access w ((va + 16 * i) % 2 ^ 64) 16 .r false (sizedAt scope) with
    | (s1, .error (.trap c sub _ _)) => (s1, some (lowerFault acc.2.1 (c, sub)), acc.2.2)
    | (s1, .error .replay) => (s1, acc.2)
    | (s1, .ok p) => (s1, acc.2.1, acc.2.2 ++ [p])) (s, none, [])
  (r.1, match r.2.1 with
    | some f => .error (memStop va 48 false false f)
    | none => .ok r.2.2)

/-- The watchpoints of one load by several lanes: those that go on. -/
def State.watchLanes (s : State) (ls : List LaneRef) (va n : Nat) : State × List LaneRef :=
  ls.foldl (fun (acc : State × List LaneRef) l =>
    match acc.1.watch (acc.1.who l) va n false false with
    | (s1, none) => (s1, acc.2 ++ [l])
    | (s1, some e) => (s1.stopLane l e, acc.2)) (s, [])

/-- The data of a part on its way to a lane. -/
def State.sendPart (s : State) (l : LaneRef) (d : BitVec 7) (i : Nat) (bs : List Byte) (bad : Bool) (va line : Nat) : State :=
  match s.lane? l with
  | none => s
  | some t =>
    let ws := (List.range 4).map fun k => wordOf ((bs.drop (4 * k)).take 4)
    let ld : Load := ⟨s.nextId, s.who l, numberFrom (t.absReg d.toNat + 4 * i) ws, ⟨BitVec.ofNat 64 va, t.pc⟩, bad, line, none⟩
    ({ s with loads := s.loads ++ [ld] } : State).fresh

/-- A record read once, and sent to lanes. -/
def State.sendRecord (s : State) (d : BitVec 7) (va scope : Nat) (places : List Place) (live : List LaneRef) : State :=
  match live with
  | [] => s
  | l0 :: _ =>
    let s1 := places.foldl (fun s p => live.foldl (fun s l => s.settleLine (s.who l) (lineOf p.pa)) s) s
    let s2 := places.zipIdx.foldl (fun s p =>
      let (s', bs, bad) := (s.noteSize (s.who l0) p.1 16 (sizedAt scope)).loadAs (s.who l0) p.1 16 0 scope
      live.foldl (fun s l => s.sendPart l d p.2 bs bad va (lineOf p.1.pa)) s') s1
    live.foldl (fun s l => s.advanceLane l) s2

/-- R391: loads one splat record for the group. -/
def execSload (sc : BitVec 3) (a d : BitVec 7) (s : State) : Out :=
  let word := firstSome [if 5 ≤ sc.toNat then some (2, 0) else none,
    if 116 ≤ a.toNat ∧ a.toNat < 124 then some (3, 0x70) else (Role.src64 a).illegal, sbRunD d]
  let (s1, r) := s.agree word none [.src64 a] (fun t => t.val64 a) 0x10 0x70
  match r with
  | none => .next s1
  | some (addr, ls) =>
    let (s2, ps) := (s1.settleRun ls d 12).screen ls fun t => runBeyond t d 12
    let live := (ps.map (·.1)).filter fun l => !l.helper
    let s3 := ps.foldl (fun s p => if p.1.helper then
      if (poisonOf p.2 [.src64 a]).isSome then s
      else s.modLane p.1 fun t => (t.setRegs (t.absReg d.toNat) (List.replicate 12 0)).advance 4 else s) s2
    let va := addr.toNat
    match live with
    | [] => .next s3
    | l0 :: _ =>
      if va % 16 ≠ 0 then .next (s3.stopAll live (memStop va 48 false false (8, 1)))
      else
        match s3.recordPlaces (s3.who l0) va sc.toNat with
        | (s4, .error e) => .next (s4.stopAll live e)
        | (s4, .ok places) =>
          let (s4, rs) := s4.screen live fun t => poisonOf t [.src64 a]
          let (s5, go) := s4.watchLanes (rs.map (·.1)) va 48
          .next (s5.sendRecord d va sc.toNat places go)

/-! ### Blending, R392, R393 -/

/-- What a splat gives at a pixel (R392). -/
structure SplatEval where
  dx : Num
  dy : Num
  g : Num
  a : Num
  cl : Bool
  skip : Bool
  deriving DecidableEq, Repr

/-- Evaluates a record at a pixel. -/
def sbAlpha (rec : List Word) (pix : Word) : SplatEval :=
  let f (i : Nat) : Num := sbv (nth rec i 0)
  let centre (n : Nat) : Num := .fin false (2 * n + 1) (-1)
  let dx := sbv (sbr (sbSum [centre (pix.toNat % 65536), (f 0).neg]))
  let dy := sbv (sbr (sbSum [centre (pix.toNat / 65536), (f 1).neg]))
  let e := sbr (sbSum [sbProd [f 2, dx, dx], sbProd [.ofInt 2, f 3, dx, dy], sbProd [f 4, dy, dy]])
  let g := sbv (BitVec.ofNat 32 (fp32.fexp2 .rn (e ^^^ 0x80000000#32).toNat).1)
  let a := sbv (sbr (sbProd [f 5, g]))
  if a.isNan then ⟨dx, dy, g, a, false, true⟩
  else
    let cl := Num.lt (sbv 0x3F7D70A4) a
    let a' := if cl then sbv 0x3F7D70A4 else a
    ⟨dx, dy, g, a', cl, Num.lt a' (sbv 0x3B808081)⟩

/-- The checks of an entry index: a value of 0x00FF_FFFF or more (R383). -/
def entryStop (t : Thread) (b : BitVec 7) : Option Stop :=
  if (check t [.src b]).isNone ∧ 0x00FFFFFF ≤ (t.val b).toNat then some (.trap 3 0x71 0 0) else none

/-- A blending instruction: its fields, its entry index, its operands, its effect. -/
def blendOp (fields : List (Option (Nat × Nat))) (b : BitVec 7) (roles : List Role) (f : State → LaneRef → Thread → LaneOut) : State → Out :=
  wordCheck (firstSome fields) fun s => .next (s.lanes fun s l t0 =>
    let s1 := s.settleRoles l t0 roles
    let t := (s1.lane? l).getD t0
    match firstSome [entryStop t b, check t roles] with
    | some e => (s1, some e)
    | none => f s1 l t)

/-- One forward step: the pixel and the status word. -/
def Pixel.blend (p : Pixel) (rec : List Word) (i : Nat) (thr : Word) : Pixel × Word :=
  if !p.live || p.rev || p.done then (p, 1)
  else
    let x := sbAlpha rec p.pix
    if x.skip then (p, 4)
    else
      let t := sbv p.trans
      let m := sbv (sbr (sbSum [.ofInt 1, x.a.neg]))
      let tn := sbr (sbProd [t, m])
      if Num.lt (sbv tn) (sbv thr) then ({ p with ctl := p.ctl ||| 0x01000000#32 }, 1)
      else
        let w := sbv (sbr (sbProd [x.a, t]))
        let col := (List.range 3).map fun c =>
          sbr (sbSum [sbv (nth p.col c 0), sbv (sbr (sbProd [sbv (nth rec (6 + c) 0), w]))])
        ({ p with col := col, trans := tn, ncon := BitVec.ofNat 32 (min (p.ncon.toNat + 1) 0xFFFFFFFF), ctl := p.withLast (i + 1) }, 2)

/-- R393: blends one splat. -/
def execSblend (b a d : BitVec 7) : State → Out :=
  blendOp [sbRunA a, sbSrc b, sbDst d] b [.rw a 12, .src b, .dst d] fun s l t =>
    if l.helper then (s.setLane l ((t.setVal d 0).advance 4), none)
    else
      let r := t.pixel.blend (t.regRun (t.absReg a.toNat) 12) (t.val b).toNat (nth s.camera 15 0)
      (s.setLane l (({ t with pixel := r.1 }.setVal d r.2).advance 4), none)

/-! ### Reverse replay, R395 -/

/-- One reverse step: the pixel and the nine outputs. -/
def Pixel.grad (p : Pixel) (rec gc : List Word) (i : Nat) : Pixel × List Word :=
  let zeros := List.replicate 9 (0 : Word)
  if !p.live || !p.rev || i + 1 != p.last then (p, zeros)
  else
    let x := sbAlpha rec p.pix
    if x.skip then ({ p with ctl := p.withLast i }, zeros)
    else
      let m := sbv (sbr (sbSum [.ofInt 1, x.a.neg]))
      let q := BitVec.ofNat 32 (fp32.fdiv .rn p.trans.toNat (sbr m).toNat).1
      let ti := if (sbv q).isZero then 0 else q
      let tv := sbv ti
      let w := sbv (sbr (sbProd [x.a, tv]))
      let g (c : Nat) : Num := sbv (nth gc c 0)
      let k (c : Nat) : Num := sbv (nth rec (6 + c) 0)
      let col (c : Nat) : Num := sbv (nth p.col c 0)
      let gk := (List.range 3).map fun c => sbr (sbProd [g c, w])
      let sv := sbv (sbr (sbSum ((List.range 3).map fun c => sbProd [g c, sbSum [k c, (col c).neg]])))
      let ga := sbv (sbr (sbProd [tv, sv]))
      let go := if x.cl then 0 else sbr (sbProd [ga, x.g])
      let gew := if x.cl then 0 else sbLn2 (sbProd [ga, x.a]).neg
      let ge := sbv gew
      let qa := sbv (nth rec 2 0)
      let qb := sbv (nth rec 3 0)
      let qc := sbv (nth rec 4 0)
      let gu := sbr (sbProd [.ofInt (-2), ge, sbSum [sbProd [qa, x.dx], sbProd [qb, x.dy]]])
      let gv := sbr (sbProd [.ofInt (-2), ge, sbSum [sbProd [qb, x.dx], sbProd [qc, x.dy]]])
      let conic := [sbr (sbProd [ge, x.dx, x.dx]), sbr (sbProd [.ofInt 2, ge, x.dx, x.dy]), sbr (sbProd [ge, x.dy, x.dy])]
      let col' := (List.range 3).map fun c => sbr (sbSum [sbv (sbr (sbProd [x.a, k c])), sbv (sbr (sbProd [m, col c]))])
      ({ p with col := col', trans := ti, ctl := p.withLast i }, gk ++ [go, gu, gv] ++ conic)

/-- R395: replays one splat and writes its gradients. -/
def execSgrad (b a d : BitVec 7) : State → Out :=
  blendOp [sbRunA a, sbSrc b, sbRunD d] b [.rw a 12, .src b, .rw d 3, .also d 12] fun s l t =>
    let r := t.absReg d.toNat
    if l.helper then (s.setLane l ((t.setRegs (r + 3) (List.replicate 9 0)).advance 4), none)
    else
      let x := t.pixel.grad (t.regRun (t.absReg a.toNat) 12) (t.regRun r 3) (t.val b).toNat
      (s.setLane l (({ t with pixel := x.1 }.setRegs (r + 3) x.2).advance 4), none)

end Sys2Proof.Machine
end

