-- ==== Sys2Proof/Machine/Dispatch.lean ====
section
/-! DEFINITION. The dispatch: one arm per constructor of Instr, each one call of that instruction's meaning. -/

namespace Sys2Proof.Machine

open Sys2Proof

def exec (i : Instr) (s : State) : Host.Outcome State Fault Refusal :=
  match i with
  | .mov16 n sf d => Sys2Proof.Machine.execMov16 n sf d s
  | .iadd16 n sf d => Sys2Proof.Machine.execIadd16 n sf d s
  | .isub16 n sf d => Sys2Proof.Machine.execIsub16 n sf d s
  | .imul16 n sf d => Sys2Proof.Machine.execImul16 n sf d s
  | .and16 n sf d => Sys2Proof.Machine.execAnd16 n sf d s
  | .or16 n sf d => Sys2Proof.Machine.execOr16 n sf d s
  | .xor16 n sf d => Sys2Proof.Machine.execXor16 n sf d s
  | .shl16 n sf d => Sys2Proof.Machine.execShl16 n sf d s
  | .shr16 n sf d => Sys2Proof.Machine.execShr16 n sf d s
  | .sar16 n sf d => Sys2Proof.Machine.execSar16 n sf d s
  | .fadd16 n sf d => Sys2Proof.Machine.execFadd16 n sf d s
  | .fsub16 n sf d => Sys2Proof.Machine.execFsub16 n sf d s
  | .fmul16 n sf d => Sys2Proof.Machine.execFmul16 n sf d s
  | .fmin16 n sf d => Sys2Proof.Machine.execFmin16 n sf d s
  | .fmax16 n sf d => Sys2Proof.Machine.execFmax16 n sf d s
  | .fmac16 n sf d => Sys2Proof.Machine.execFmac16 n sf d s
  | .mov n b a d => Sys2Proof.Machine.execMov n b a d s
  | .iadd n b a d => Sys2Proof.Machine.execIadd n b a d s
  | .isub n b a d => Sys2Proof.Machine.execIsub n b a d s
  | .imul n b a d => Sys2Proof.Machine.execImul n b a d s
  | .and n b a d => Sys2Proof.Machine.execAnd n b a d s
  | .or n b a d => Sys2Proof.Machine.execOr n b a d s
  | .xor n b a d => Sys2Proof.Machine.execXor n b a d s
  | .shl n b a d => Sys2Proof.Machine.execShl n b a d s
  | .shr n b a d => Sys2Proof.Machine.execShr n b a d s
  | .sar n b a d => Sys2Proof.Machine.execSar n b a d s
  | .iminS32 n b a d => Sys2Proof.Machine.execIminS32 n b a d s
  | .imaxS32 n b a d => Sys2Proof.Machine.execImaxS32 n b a d s
  | .iminN32 n b a d => Sys2Proof.Machine.execIminN32 n b a d s
  | .imaxN32 n b a d => Sys2Proof.Machine.execImaxN32 n b a d s
  | .iaddB64 n b a d => Sys2Proof.Machine.execIaddB64 n b a d s
  | .isubB64 n b a d => Sys2Proof.Machine.execIsubB64 n b a d s
  | .imulwS32 n b a d => Sys2Proof.Machine.execImulwS32 n b a d s
  | .imulwN32 n b a d => Sys2Proof.Machine.execImulwN32 n b a d s
  | .shlB64 n b a d => Sys2Proof.Machine.execShlB64 n b a d s
  | .shrB64 n b a d => Sys2Proof.Machine.execShrB64 n b a d s
  | .bfxS32 n b a d => Sys2Proof.Machine.execBfxS32 n b a d s
  | .bfxN32 n b a d => Sys2Proof.Machine.execBfxN32 n b a d s
  | .bfiB32 n b a d => Sys2Proof.Machine.execBfiB32 n b a d s
  | .popcB32 n a d => Sys2Proof.Machine.execPopcB32 n a d s
  | .iaddImm imm a d => Sys2Proof.Machine.execIaddImm imm a d s
  | .imulImm imm a d => Sys2Proof.Machine.execImulImm imm a d s
  | .andImm imm a d => Sys2Proof.Machine.execAndImm imm a d s
  | .orImm imm a d => Sys2Proof.Machine.execOrImm imm a d s
  | .xorImm imm a d => Sys2Proof.Machine.execXorImm imm a d s
  | .shlImm imm a d => Sys2Proof.Machine.execShlImm imm a d s
  | .shrImm imm a d => Sys2Proof.Machine.execShrImm imm a d s
  | .sarImm imm a d => Sys2Proof.Machine.execSarImm imm a d s
  | .mvk k d => Sys2Proof.Machine.execMvk k d s
  | .mvkh k d => Sys2Proof.Machine.execMvkh k d s
  | .fadd n b a d => Sys2Proof.Machine.execFadd n b a d s
  | .fsub n b a d => Sys2Proof.Machine.execFsub n b a d s
  | .fmul n b a d => Sys2Proof.Machine.execFmul n b a d s
  | .fmin n b a d => Sys2Proof.Machine.execFmin n b a d s
  | .fmax n b a d => Sys2Proof.Machine.execFmax n b a d s
  | .fdiv n b a d => Sys2Proof.Machine.execFdiv n b a d s
  | .frint n a d => Sys2Proof.Machine.execFrint n a d s
  | .fsgnj n b a d => Sys2Proof.Machine.execFsgnj n b a d s
  | .faddF64 n b a d => Sys2Proof.Machine.execFaddF64 n b a d s
  | .fmulF64 n b a d => Sys2Proof.Machine.execFmulF64 n b a d s
  | .fdivF64 n b a d => Sys2Proof.Machine.execFdivF64 n b a d s
  | .fsqrtF64 n a d => Sys2Proof.Machine.execFsqrtF64 n a d s
  | .fminF64 n b a d => Sys2Proof.Machine.execFminF64 n b a d s
  | .fmaxF64 n b a d => Sys2Proof.Machine.execFmaxF64 n b a d s
  | .faddF16 n b a d => Sys2Proof.Machine.execFaddF16 n b a d s
  | .fmulF16 n b a d => Sys2Proof.Machine.execFmulF16 n b a d s
  | .fmaxF16 n b a d => Sys2Proof.Machine.execFmaxF16 n b a d s
  | .faddBf16 n b a d => Sys2Proof.Machine.execFaddBf16 n b a d s
  | .fmulBf16 n b a d => Sys2Proof.Machine.execFmulBf16 n b a d s
  | .fmaxBf16 n b a d => Sys2Proof.Machine.execFmaxBf16 n b a d s
  | .fmaF32 n g c b a d => Sys2Proof.Machine.execFmaF32 n g c b a d s
  | .fmaF64 n g c b a d => Sys2Proof.Machine.execFmaF64 n g c b a d s
  | .fmaF16x2 n g c b a d => Sys2Proof.Machine.execFmaF16x2 n g c b a d s
  | .fmaBf16x2 n g c b a d => Sys2Proof.Machine.execFmaBf16x2 n g c b a d s
  | .ceq t b a p => Sys2Proof.Machine.execCeq t b a p s
  | .cne t b a p => Sys2Proof.Machine.execCne t b a p s
  | .clt t b a p => Sys2Proof.Machine.execClt t b a p s
  | .cle t b a p => Sys2Proof.Machine.execCle t b a p s
  | .cgt t b a p => Sys2Proof.Machine.execCgt t b a p s
  | .cge t b a p => Sys2Proof.Machine.execCge t b a p s
  | .cord t b a p => Sys2Proof.Machine.execCord t b a p s
  | .cuno t b a p => Sys2Proof.Machine.execCuno t b a p s
  | .cueq t b a p => Sys2Proof.Machine.execCueq t b a p s
  | .cune t b a p => Sys2Proof.Machine.execCune t b a p s
  | .cult t b a p => Sys2Proof.Machine.execCult t b a p s
  | .cule t b a p => Sys2Proof.Machine.execCule t b a p s
  | .cugt t b a p => Sys2Proof.Machine.execCugt t b a p s
  | .cuge t b a p => Sys2Proof.Machine.execCuge t b a p s
  | .ctrue t b a p => Sys2Proof.Machine.execCtrue t b a p s
  | .cfalse t b a p => Sys2Proof.Machine.execCfalse t b a p s
  | .plop f b a p => Sys2Proof.Machine.execPlop f b a p s
  | .pland f b a p => Sys2Proof.Machine.execPland f b a p s
  | .plor f b a p => Sys2Proof.Machine.execPlor f b a p s
  | .plxor f b a p => Sys2Proof.Machine.execPlxor f b a p s
  | .sel n sf b a d => Sys2Proof.Machine.execSel n sf b a d s
  | .exp2 n a d => Sys2Proof.Machine.execExp2 n a d s
  | .log2 n a d => Sys2Proof.Machine.execLog2 n a d s
  | .rcp n a d => Sys2Proof.Machine.execRcp n a d s
  | .rsq n a d => Sys2Proof.Machine.execRsq n a d s
  | .sqrt n a d => Sys2Proof.Machine.execSqrt n a d s
  | .sin n a d => Sys2Proof.Machine.execSin n a d s
  | .cos n a d => Sys2Proof.Machine.execCos n a d s
  | .tanh n a d => Sys2Proof.Machine.execTanh n a d s
  | .movs sf d => Sys2Proof.Machine.execMovs sf d s
  | .sets sf a => Sys2Proof.Machine.execSets sf a s
  | .setwb w => Sys2Proof.Machine.execSetwb w s
  | .xset k u => Sys2Proof.Machine.execXset k u s
  | .xadd k v => Sys2Proof.Machine.execXadd k v s
  | .nop => Sys2Proof.Machine.execNop s
  | .fence r sf => Sys2Proof.Machine.execFence r sf s
  | .oswait n => Sys2Proof.Machine.execOswait n s
  | .rcflush k a => Sys2Proof.Machine.execRcflush k a s
  | .tmark imm a => Sys2Proof.Machine.execTmark imm a s
  | .tsmp => Sys2Proof.Machine.execTsmp s
  | .br o q p u => Sys2Proof.Machine.execBr o q p u s
  | .call o u => Sys2Proof.Machine.execCall o u s
  | .calli u a => Sys2Proof.Machine.execCalli u a s
  | .jmpi u a => Sys2Proof.Machine.execJmpi u a s
  | .ret u => Sys2Proof.Machine.execRet u s
  | .trap n => Sys2Proof.Machine.execTrap n s
  | .trapret => Sys2Proof.Machine.execTrapret s
  | .exit => Sys2Proof.Machine.execExit s
  | .yield => Sys2Proof.Machine.execYield s
  | .loop o a l => Sys2Proof.Machine.execLoop o a l s
  | .loopi o imm l => Sys2Proof.Machine.execLoopi o imm l s
  | .lbrk l => Sys2Proof.Machine.execLbrk l s
  | .lcont l => Sys2Proof.Machine.execLcont l s
  | .bar => Sys2Proof.Machine.execBar s
  | .cvarm k a => Sys2Proof.Machine.execCvarm k a s
  | .cvsign k => Sys2Proof.Machine.execCvsign k s
  | .cvsync k => Sys2Proof.Machine.execCvsync k s
  | .cvwait k => Sys2Proof.Machine.execCvwait k s
  | .shflIdx n b a d => Sys2Proof.Machine.execShflIdx n b a d s
  | .shflUp n b a d => Sys2Proof.Machine.execShflUp n b a d s
  | .shflDn n b a d => Sys2Proof.Machine.execShflDn n b a d s
  | .shflXor n b a d => Sys2Proof.Machine.execShflXor n b a d s
  | .qxchXor n m a d => Sys2Proof.Machine.execQxchXor n m a d s
  | .qxchBc n m a d => Sys2Proof.Machine.execQxchBc n m a d s
  | .gqMask n a d => Sys2Proof.Machine.execGqMask n a d s
  | .gqEvery n a d => Sys2Proof.Machine.execGqEvery n a d s
  | .gqSome n a d => Sys2Proof.Machine.execGqSome n a d s
  | .gqSame n a d => Sys2Proof.Machine.execGqSame n a d s
  | .peersB32 n a d => Sys2Proof.Machine.execPeersB32 n a d s
  | .peersB64 n a d => Sys2Proof.Machine.execPeersB64 n a d s
  | .bflyS64 n k a d => Sys2Proof.Machine.execBflyS64 n k a d s
  | .scanAdd n a d => Sys2Proof.Machine.execScanAdd n a d s
  | .scanFadd n a d => Sys2Proof.Machine.execScanFadd n a d s
  | .scanMax n a d => Sys2Proof.Machine.execScanMax n a d s
  | .scanMin n a d => Sys2Proof.Machine.execScanMin n a d s
  | .scanxAdd n a d => Sys2Proof.Machine.execScanxAdd n a d s
  | .scanxFadd n a d => Sys2Proof.Machine.execScanxFadd n a d s
  | .scanxMax n a d => Sys2Proof.Machine.execScanxMax n a d s
  | .scanxMin n a d => Sys2Proof.Machine.execScanxMin n a d s
  | .gredAdd n a d => Sys2Proof.Machine.execGredAdd n a d s
  | .gredFadd n a d => Sys2Proof.Machine.execGredFadd n a d s
  | .gredMax n a d => Sys2Proof.Machine.execGredMax n a d s
  | .gredMin n a d => Sys2Proof.Machine.execGredMin n a d s
  | .cmpct n b a d => Sys2Proof.Machine.execCmpct n b a d s
  | .regroup => Sys2Proof.Machine.execRegroup s
  | .remap n a d => Sys2Proof.Machine.execRemap n a d s
  | .expand n b a d => Sys2Proof.Machine.execExpand n b a d s
  | .cvt n b a d => Sys2Proof.Machine.execCvt n b a d s
  | .qnt n b a d => Sys2Proof.Machine.execQnt n b a d s
  | .dqnt n b a d => Sys2Proof.Machine.execDqnt n b a d s
  | .qscl n b a d => Sys2Proof.Machine.execQscl n b a d s
  | .rot n b a d => Sys2Proof.Machine.execRot n b a d s
  | .irot n b a d => Sys2Proof.Machine.execIrot n b a d s
  | .seed n k a d => Sys2Proof.Machine.execSeed n k a d s
  | .seedr n k a d => Sys2Proof.Machine.execSeedr n k a d s
  | .tagmk n a d => Sys2Proof.Machine.execTagmk n a d s
  | .sgen n k a d => Sys2Proof.Machine.execSgen n k a d s
  | .ldN8 q sf o a v => Sys2Proof.Machine.execLdN8 q sf o a v s
  | .ldS8 q sf o a v => Sys2Proof.Machine.execLdS8 q sf o a v s
  | .ldN16 q sf o a v => Sys2Proof.Machine.execLdN16 q sf o a v s
  | .ldS16 q sf o a v => Sys2Proof.Machine.execLdS16 q sf o a v s
  | .ldB32 q sf o a v => Sys2Proof.Machine.execLdB32 q sf o a v s
  | .ldB64 q sf o a v => Sys2Proof.Machine.execLdB64 q sf o a v s
  | .ldB128 q sf o a v => Sys2Proof.Machine.execLdB128 q sf o a v s
  | .prf q a => Sys2Proof.Machine.execPrf q a s
  | .stB8 q sf o a v => Sys2Proof.Machine.execStB8 q sf o a v s
  | .stB16 q sf o a v => Sys2Proof.Machine.execStB16 q sf o a v s
  | .stB32 q sf o a v => Sys2Proof.Machine.execStB32 q sf o a v s
  | .stB64 q sf o a v => Sys2Proof.Machine.execStB64 q sf o a v s
  | .stB128 q sf o a v => Sys2Proof.Machine.execStB128 q sf o a v s
  | .zline q sf o a => Sys2Proof.Machine.execZline q sf o a s
  | .cwb q a => Sys2Proof.Machine.execCwb q a s
  | .cinv q a => Sys2Proof.Machine.execCinv q a s
  | .atomAdd t sf r a v => Sys2Proof.Machine.execAtomAdd t sf r a v s
  | .atomMinS t sf r a v => Sys2Proof.Machine.execAtomMinS t sf r a v s
  | .atomMaxS t sf r a v => Sys2Proof.Machine.execAtomMaxS t sf r a v s
  | .atomMinN t sf r a v => Sys2Proof.Machine.execAtomMinN t sf r a v s
  | .atomMaxN t sf r a v => Sys2Proof.Machine.execAtomMaxN t sf r a v s
  | .atomAnd t sf r a v => Sys2Proof.Machine.execAtomAnd t sf r a v s
  | .atomOr t sf r a v => Sys2Proof.Machine.execAtomOr t sf r a v s
  | .atomXor t sf r a v => Sys2Proof.Machine.execAtomXor t sf r a v s
  | .atomXchg t sf r a v => Sys2Proof.Machine.execAtomXchg t sf r a v s
  | .atomCas t sf r a v => Sys2Proof.Machine.execAtomCas t sf r a v s
  | .atomFadd t sf r a v => Sys2Proof.Machine.execAtomFadd t sf r a v s
  | .atomFmin t sf r a v => Sys2Proof.Machine.execAtomFmin t sf r a v s
  | .atomFmax t sf r a v => Sys2Proof.Machine.execAtomFmax t sf r a v s
  | .atomBinc t sf r a v => Sys2Proof.Machine.execAtomBinc t sf r a v s
  | .atomWinc t sf r a v => Sys2Proof.Machine.execAtomWinc t sf r a v s
  | .atomDdecN t sf r a v => Sys2Proof.Machine.execAtomDdecN t sf r a v s
  | .atomDdecS t sf r a v => Sys2Proof.Machine.execAtomDdecS t sf r a v s
  | .atomLaddN t sf r a v => Sys2Proof.Machine.execAtomLaddN t sf r a v s
  | .atomLaddS t sf r a v => Sys2Proof.Machine.execAtomLaddS t sf r a v s
  | .atomLd t sf r a v => Sys2Proof.Machine.execAtomLd t sf r a v s
  | .redAdd t sf r a v => Sys2Proof.Machine.execRedAdd t sf r a v s
  | .redMinS t sf r a v => Sys2Proof.Machine.execRedMinS t sf r a v s
  | .redMaxS t sf r a v => Sys2Proof.Machine.execRedMaxS t sf r a v s
  | .redMinN t sf r a v => Sys2Proof.Machine.execRedMinN t sf r a v s
  | .redMaxN t sf r a v => Sys2Proof.Machine.execRedMaxN t sf r a v s
  | .redAnd t sf r a v => Sys2Proof.Machine.execRedAnd t sf r a v s
  | .redOr t sf r a v => Sys2Proof.Machine.execRedOr t sf r a v s
  | .redXor t sf r a v => Sys2Proof.Machine.execRedXor t sf r a v s
  | .redFadd t sf r a v => Sys2Proof.Machine.execRedFadd t sf r a v s
  | .redFmin t sf r a v => Sys2Proof.Machine.execRedFmin t sf r a v s
  | .redFmax t sf r a v => Sys2Proof.Machine.execRedFmax t sf r a v s
  | .redFadda t sf r a v => Sys2Proof.Machine.execRedFadda t sf r a v s
  | .cpl m t d => Sys2Proof.Machine.execCpl m t d s
  | .cpt t d => Sys2Proof.Machine.execCpt t d s
  | .cptr t d => Sys2Proof.Machine.execCptr t d s
  | .cptc t d => Sys2Proof.Machine.execCptc t d s
  | .cpml t c d => Sys2Proof.Machine.execCpml t c d s
  | .cpms t c d => Sys2Proof.Machine.execCpms t c d s
  | .expect t d => Sys2Proof.Machine.execExpect t d s
  | .wany m c d => Sys2Proof.Machine.execWany m c d s
  | .wall m d => Sys2Proof.Machine.execWall m d s
  | .ffrdy m c d => Sys2Proof.Machine.execFfrdy m c d s
  | .awaitf c d => Sys2Proof.Machine.execAwaitf c d s
  | .relslot d => Sys2Proof.Machine.execRelslot d s
  | .gsg t c d => Sys2Proof.Machine.execGsg t c d s
  | .gsgm t c d => Sys2Proof.Machine.execGsgm t c d s
  | .gss t c d => Sys2Proof.Machine.execGss t c d s
  | .gssm t c d => Sys2Proof.Machine.execGssm t c d s
  | .gswt m t c d => Sys2Proof.Machine.execGswt m t c d s
  | .gspoll m t c d => Sys2Proof.Machine.execGspoll m t c d s
  | .mma z p w k d => Sys2Proof.Machine.execMma z p w k d s
  | .mmam z p w k d => Sys2Proof.Machine.execMmam z p w k d s
  | .aalloc p a d => Sys2Proof.Machine.execAalloc p a d s
  | .afree a => Sys2Proof.Machine.execAfree a s
  | .aacq a => Sys2Proof.Machine.execAacq a s
  | .arel a => Sys2Proof.Machine.execArel a s
  | .azero a => Sys2Proof.Machine.execAzero a s
  | .ard b a d => Sys2Proof.Machine.execArd b a d s
  | .awr b a d => Sys2Proof.Machine.execAwr b a d s
  | .asv l a d => Sys2Proof.Machine.execAsv l a d s
  | .arst l a d => Sys2Proof.Machine.execArst l a d s
  | .mtag b a d => Sys2Proof.Machine.execMtag b a d s
  | .sproj a d => Sys2Proof.Machine.execSproj a d s
  | .sload sf a d => Sys2Proof.Machine.execSload sf a d s
  | .sblend b a d => Sys2Proof.Machine.execSblend b a d s
  | .sgrad b a d => Sys2Proof.Machine.execSgrad b a d s
  | .sinit a => Sys2Proof.Machine.execSinit a s
  | .sinitr => Sys2Proof.Machine.execSinitr s
  | .srd d => Sys2Proof.Machine.execSrd d s
  | .swr a => Sys2Proof.Machine.execSwr a s
  | .skey b a d => Sys2Proof.Machine.execSkey b a d s
  | .kemit c d => Sys2Proof.Machine.execKemit c d s
  | .ksort t c d => Sys2Proof.Machine.execKsort t c d s
  | .ksortBat t c d => Sys2Proof.Machine.execKsortBat t c d s
  | .ksel t c d => Sys2Proof.Machine.execKsel t c d s
  | .kselBat t c d => Sys2Proof.Machine.execKselBat t c d s
  | .kcs t c d => Sys2Proof.Machine.execKcs t c d s
  | .ocomp t c d => Sys2Proof.Machine.execOcomp t c d s
  | .ored t c d => Sys2Proof.Machine.execOred t c d s
  | .cbar t c d => Sys2Proof.Machine.execCbar t c d s
  | .cfail c d => Sys2Proof.Machine.execCfail c d s
  | .launch c d => Sys2Proof.Machine.execLaunch c d s
  | .launchSig t c d => Sys2Proof.Machine.execLaunchSig t c d s
  | .spawn k c d => Sys2Proof.Machine.execSpawn k c d s
  | .spawnNow k c d => Sys2Proof.Machine.execSpawnNow k c d s
  | .tgsig c d => Sys2Proof.Machine.execTgsig c d s
  | .binflush c d => Sys2Proof.Machine.execBinflush c d s
  | .fxrun c d => Sys2Proof.Machine.execFxrun c d s
  | .fxrunSig t c d => Sys2Proof.Machine.execFxrunSig t c d s
  | .fxabort c d => Sys2Proof.Machine.execFxabort c d s
  | .tcsnap t d => Sys2Proof.Machine.execTcsnap t d s
  | .tflush t => Sys2Proof.Machine.execTflush t s
  | .sli d imm => Sys2Proof.Machine.execSli d imm s
  | .saddi d a imm => Sys2Proof.Machine.execSaddi d a imm s
  | .saluAdd d a b => Sys2Proof.Machine.execSaluAdd d a b s
  | .saluSub d a b => Sys2Proof.Machine.execSaluSub d a b s
  | .saluMul d a b => Sys2Proof.Machine.execSaluMul d a b s
  | .saluAnd d a b => Sys2Proof.Machine.execSaluAnd d a b s
  | .saluOr d a b => Sys2Proof.Machine.execSaluOr d a b s
  | .saluXor d a b => Sys2Proof.Machine.execSaluXor d a b s
  | .saluShl d a b => Sys2Proof.Machine.execSaluShl d a b s
  | .saluShr d a b => Sys2Proof.Machine.execSaluShr d a b s
  | .sld d a imm => Sys2Proof.Machine.execSld d a imm s
  | .sst d a imm => Sys2Proof.Machine.execSst d a imm s
  | .b imm => Sys2Proof.Machine.execB imm s
  | .bEqz a imm => Sys2Proof.Machine.execBEqz a imm s
  | .bNez a imm => Sys2Proof.Machine.execBNez a imm s
  | .bLtz a imm => Sys2Proof.Machine.execBLtz a imm s
  | .bGez a imm => Sys2Proof.Machine.execBGez a imm s
  | .floop a imm => Sys2Proof.Machine.execFloop a imm s
  | .stepend => Sys2Proof.Machine.execStepend s
  | .fend => Sys2Proof.Machine.execFend s
  | .fld d a n imm => Sys2Proof.Machine.execFld d a n imm s
  | .fst d a n imm => Sys2Proof.Machine.execFst d a n imm s
  | .fredf d a n imm => Sys2Proof.Machine.execFredf d a n imm s
  | .fbc d a h => Sys2Proof.Machine.execFbc d a h s
  | .fext d a l => Sys2Proof.Machine.execFext d a l s
  | .fins d a l => Sys2Proof.Machine.execFins d a l s
  | .fopAdd d a b n => Sys2Proof.Machine.execFopAdd d a b n s
  | .fopSub d a b n => Sys2Proof.Machine.execFopSub d a b n s
  | .fopMul d a b n => Sys2Proof.Machine.execFopMul d a b n s
  | .fopDiv d a b n => Sys2Proof.Machine.execFopDiv d a b n s
  | .fopMin d a b n => Sys2Proof.Machine.execFopMin d a b n s
  | .fopMax d a b n => Sys2Proof.Machine.execFopMax d a b n s
  | .fopFma d a b c n => Sys2Proof.Machine.execFopFma d a b c n s
  | .fopFnma d a b c n => Sys2Proof.Machine.execFopFnma d a b c n s
  | .fopSqrt d a n => Sys2Proof.Machine.execFopSqrt d a n s
  | .fopMov d a n => Sys2Proof.Machine.execFopMov d a n s
  | .iopAdd d a b n => Sys2Proof.Machine.execIopAdd d a b n s
  | .iopSub d a b n => Sys2Proof.Machine.execIopSub d a b n s
  | .iopAnd d a b n => Sys2Proof.Machine.execIopAnd d a b n s
  | .iopOr d a b n => Sys2Proof.Machine.execIopOr d a b n s
  | .iopXor d a b n => Sys2Proof.Machine.execIopXor d a b n s
  | .iopShl d a b n => Sys2Proof.Machine.execIopShl d a b n s
  | .iopShr d a b n => Sys2Proof.Machine.execIopShr d a b n s
  | .iopSel d a b c n => Sys2Proof.Machine.execIopSel d a b c n s
  | .iopFclt d a b n => Sys2Proof.Machine.execIopFclt d a b n s
  | .iopIeq d a b n => Sys2Proof.Machine.execIopIeq d a b n s
  | .fcvt d a c => Sys2Proof.Machine.execFcvt d a c s
  | .fdq d a b c o => Sys2Proof.Machine.execFdq d a b c o s
  | .frq d a b c o => Sys2Proof.Machine.execFrq d a b c o s
  | .frot d a c v => Sys2Proof.Machine.execFrot d a c v s
  | .wbld d a n => Sys2Proof.Machine.execWbld d a n s
  | .fflg d c => Sys2Proof.Machine.execFflg d c s
  | .regroupComplete core blk => Sys2Proof.Machine.execRegroupComplete core blk s
  | .groupSlotQuota core quad => Sys2Proof.Machine.execGroupSlotQuota core quad s
  | .groupAged core blk grp => Sys2Proof.Machine.execGroupAged core blk grp s
  | .starveForced core blk grp => Sys2Proof.Machine.execStarveForced core blk grp s
  | .storePerformed id => Sys2Proof.Machine.execStorePerformed id s
  | .loadDataReturn id => Sys2Proof.Machine.execLoadDataReturn id s
  | .atomicPerform id => Sys2Proof.Machine.execAtomicPerform id s
  | .l1Writeback core line => Sys2Proof.Machine.execL1Writeback core line s
  | .rdcRequestArrive id => Sys2Proof.Machine.execRdcRequestArrive id s
  | .rangeLockGrant id => Sys2Proof.Machine.execRangeLockGrant id s
  | .engineBytesArrive id => Sys2Proof.Machine.execEngineBytesArrive id s
  | .ringSlotClaim id => Sys2Proof.Machine.execRingSlotClaim id s
  | .copyCommandComplete id => Sys2Proof.Machine.execCopyCommandComplete id s
  | .gseCommandComplete id => Sys2Proof.Machine.execGseCommandComplete id s
  | .matrixPhaseEnd id => Sys2Proof.Machine.execMatrixPhaseEnd id s
  | .matrixOperationComplete id => Sys2Proof.Machine.execMatrixOperationComplete id s
  | .aallocGrant core => Sys2Proof.Machine.execAallocGrant core s
  | .qtenWrite value => Sys2Proof.Machine.execQtenWrite value s
  | .queueTableWake line => Sys2Proof.Machine.execQueueTableWake line s
  | .ringLineWake queue => Sys2Proof.Machine.execRingLineWake queue s
  | .launchRecord queue => Sys2Proof.Machine.execLaunchRecord queue s
  | .tlbInvalidationRecord queue => Sys2Proof.Machine.execTlbInvalidationRecord queue s
  | .tlbInvalidationComplete id => Sys2Proof.Machine.execTlbInvalidationComplete id s
  | .markerRecord queue => Sys2Proof.Machine.execMarkerRecord queue s
  | .startTickReached id => Sys2Proof.Machine.execStartTickReached id s
  | .launchDispatch launch => Sys2Proof.Machine.execLaunchDispatch launch s
  | .clusterPlace launch die qoff => Sys2Proof.Machine.execClusterPlace launch die qoff s
  | .stageDrainComplete launch => Sys2Proof.Machine.execStageDrainComplete launch s
  | .sliceExpire queue => Sys2Proof.Machine.execSliceExpire queue s
  | .blockSave core blk => Sys2Proof.Machine.execBlockSave core blk s
  | .queueResume queue => Sys2Proof.Machine.execQueueResume queue s
  | .spawnBinTimerExpire core bin => Sys2Proof.Machine.execSpawnBinTimerExpire core bin s
  | .spawnBlockDispatch core bin => Sys2Proof.Machine.execSpawnBlockDispatch core bin s
  | .launchComplete launch => Sys2Proof.Machine.execLaunchComplete launch s
  | .hostPendDecrement queue node => Sys2Proof.Machine.execHostPendDecrement queue node s
  | .fixerKernelAdmit kernel => Sys2Proof.Machine.execFixerKernelAdmit kernel s
  | .fixerInstanceStart kernel => Sys2Proof.Machine.execFixerInstanceStart kernel s
  | .fixerKernelComplete kernel => Sys2Proof.Machine.execFixerKernelComplete kernel s
  | .kseCommandBegin id => Sys2Proof.Machine.execKseCommandBegin id s
  | .kseCommandComplete id => Sys2Proof.Machine.execKseCommandComplete id s
  | .collectiveBegin id => Sys2Proof.Machine.execCollectiveBegin id s
  | .collectiveComplete id peers => Sys2Proof.Machine.execCollectiveComplete id peers s
  | .peerFlitTimeout pkg => Sys2Proof.Machine.execPeerFlitTimeout pkg s
  | .peerLossReport pkg => Sys2Proof.Machine.execPeerLossReport pkg s
  | .channelRequestServe unit ch ecc => Sys2Proof.Machine.execChannelRequestServe unit ch ecc s
  | .requestAged unit ch => Sys2Proof.Machine.execRequestAged unit ch s
  | .burstCrcError unit ch lane => Sys2Proof.Machine.execBurstCrcError unit ch lane s
  | .burstReplayExhausted unit ch => Sys2Proof.Machine.execBurstReplayExhausted unit ch s
  | .laneCrcThreshold unit ch lane => Sys2Proof.Machine.execLaneCrcThreshold unit ch lane s
  | .laneRepair unit ch reissueOk => Sys2Proof.Machine.execLaneRepair unit ch reissueOk s
  | .repair unit value => Sys2Proof.Machine.execRepair unit value s
  | .retrain unit value => Sys2Proof.Machine.execRetrain unit value s
  | .retrainDone unit ch => Sys2Proof.Machine.execRetrainDone unit ch s
  | .eyeSample unit ch lane hm vm => Sys2Proof.Machine.execEyeSample unit ch lane hm vm s
  | .rowSwap unit ch bank row partner => Sys2Proof.Machine.execRowSwap unit ch bank row partner s
  | .retire unit value => Sys2Proof.Machine.execRetire unit value s
  | .errorCountClear unit off => Sys2Proof.Machine.execErrorCountClear unit off s
  | .irqstClear unit value => Sys2Proof.Machine.execIrqstClear unit value s
  | .missCounterClear unit off => Sys2Proof.Machine.execMissCounterClear unit off s
  | .hctlWrite unit value => Sys2Proof.Machine.execHctlWrite unit value s
  | .heatHalve unit => Sys2Proof.Machine.execHeatHalve unit s
  | .heatClear unit => Sys2Proof.Machine.execHeatClear unit s
  | .heatPassDone unit => Sys2Proof.Machine.execHeatPassDone unit s
  | .cxlLinkDown port => Sys2Proof.Machine.execCxlLinkDown port s
  | .migrationSubmit value => Sys2Proof.Machine.execMigrationSubmit value s
  | .migrationComplete id => Sys2Proof.Machine.execMigrationComplete id s
  | .tctlWrite value => Sys2Proof.Machine.execTctlWrite value s
  | .tdropClear => Sys2Proof.Machine.execTdropClear s
  | .halt => Sys2Proof.Machine.execHalt s
  | .resume => Sys2Proof.Machine.execResume s
  | .step => Sys2Proof.Machine.execStep s
  | .timebaseLowRead core blk thr d => Sys2Proof.Machine.execTimebaseLowRead core blk thr d s
  | .timebaseHighRead core blk thr d => Sys2Proof.Machine.execTimebaseHighRead core blk thr d s
  | .seedLowRead core blk thr slot d => Sys2Proof.Machine.execSeedLowRead core blk thr slot d s
  | .counterSnapshotRead core blk thr d => Sys2Proof.Machine.execCounterSnapshotRead core blk thr d s
  | .powerUp => Sys2Proof.Machine.execPowerUp s
  | .coldReset => Sys2Proof.Machine.execColdReset s
  | .warmReset => Sys2Proof.Machine.execWarmReset s
  | .windowRead off => Sys2Proof.Machine.execWindowRead off s
  | .windowWrite off value => Sys2Proof.Machine.execWindowWrite off value s
  | .firmwareStage version counter image => Sys2Proof.Machine.execFirmwareStage version counter image s
  | .firmwareActivate => Sys2Proof.Machine.execFirmwareActivate s
  | .selfTestLogRead => Sys2Proof.Machine.execSelfTestLogRead s
  | .retirementTableRead => Sys2Proof.Machine.execRetirementTableRead s
  | .unknownCommand cmd => Sys2Proof.Machine.execUnknownCommand cmd s
  | .getVersion => Sys2Proof.Machine.execGetVersion s
  | .getCapabilities => Sys2Proof.Machine.execGetCapabilities s
  | .negotiateAlgorithms sign hash => Sys2Proof.Machine.execNegotiateAlgorithms sign hash s
  | .getDigests => Sys2Proof.Machine.execGetDigests s
  | .getCertificate slot => Sys2Proof.Machine.execGetCertificate slot s
  | .challenge nonce => Sys2Proof.Machine.execChallenge nonce s
  | .getMeasurements nonce => Sys2Proof.Machine.execGetMeasurements nonce s
  | .pkidWrite value bexkai => Sys2Proof.Machine.execPkidWrite value bexkai s
  | .qtbWrite off value => Sys2Proof.Machine.execQtbWrite off value s
  | .mirqClear value => Sys2Proof.Machine.execMirqClear value s
  | .pwrSample watts => Sys2Proof.Machine.execPwrSample watts s
  | .selfTestStart src unit ch row addr => Sys2Proof.Machine.execSelfTestStart src unit ch row addr s
  | .selfTestComplete src unit ch row result => Sys2Proof.Machine.execSelfTestComplete src unit ch row result s
  | .registerWrite off value => Sys2Proof.Machine.execRegisterWrite off value s
  | .unassignedEncoding w => Sys2Proof.Machine.execUnassignedEncoding w s
  | .fetchFault cause sub addr => Sys2Proof.Machine.execFetchFault cause sub addr s
  | .fixerUnassignedOp w => Sys2Proof.Machine.execFixerUnassignedOp w s
  | .fixerFetchFault => Sys2Proof.Machine.execFixerFetchFault s
  | .twinericLinkFailure pkg rerouted => Sys2Proof.Machine.execTwinericLinkFailure pkg rerouted s
  | .cxlLinkRetrain port => Sys2Proof.Machine.execCxlLinkRetrain port s
  | .powerLoss => Sys2Proof.Machine.execPowerLoss s
  | .peerRequest pkg off len data write => Sys2Proof.Machine.execPeerRequest pkg off len data write s
  | .hostAccess pa len data write => Sys2Proof.Machine.execHostAccess pa len data write s

end Sys2Proof.Machine
end

