-- ==== Sys2Proof/Machine/Waits.lean ====
section
/-! DEFINITION. The release conditions of waits (07 R164): of the count of outstanding stores (06 R137, 07 R190), and of the
engine waits, whose thread then executes its instruction again. -/

namespace Sys2Proof.Machine

open Sys2Proof

/-- Whether an instruction held at issue may go on, for a thread of a block. -/
def State.unheld (s : State) (w : Who) (t : Thread) (h : Hold) : Bool :=
  match h with
  | .stores => !t.full
  | .copies => decide (s.copiesOf w.core < 64)
  | .ring => !s.heldMax w.core w.blk
  | .gathers => decide (s.gathersOf w.core < 32)
  | .post => false
  | .sorts tick => decide ((s.kseQueue (dieOf w.core)).length < 64) && !s.heldFullAt w.core w.blk tick
  | .colls => !s.heldMax w.core w.blk
  | .phase core blk k => ((s.block? core blk).map fun b => !(b.cv k).draining).getD true

/-- The filled slots of a ring whose header stands at a place (11 R280). -/
def State.filledAt (s : State) (place : Nat) : Nat := (natOf (s.bytesAt place 4) + 2 ^ 32 - natOf (s.bytesAt (place + 4) 4)) % 2 ^ 32

/-- Whether the release condition of an engine wait holds. -/
def State.waitOver (s : State) (w : Who) (t : Thread) (x : Wait) : Bool :=
  let tags := ((s.block? w.core w.blk).map fun b => b.readyMap).getD 0
  match x with
  | .wall mask => Nat.land tags mask == mask
  | .wany mask => Nat.land tags mask != 0
  | .gswt tag => bitOf tags tag
  | .awaitf place => s.filledAt place != 0
  | .aacq h => !s.regionBusy w.core w.blk h
  | .held h => s.unheld w t h
  | _ => false

/-- Lets a thread go on whose wait is over. One that pre-emption has stopped stays waiting (09 R230), but for one that a trap has
ended, which has nothing to execute again (log entry 9). -/
def State.wakeThread (s : State) (w : Who) : State :=
  match s.thr? w with
  | none => s
  | some t =>
    match t.mode with
    | .waiting .trapOsc => if t.osc = 0 then s.finishExit w else s
    | .waiting x =>
      if s.stoppedAt w.core w.blk then s
      else
        match x with
        | .oswait n => if t.osc ≤ n then s.setThr w t.release else s
        | .exitOsc => if t.osc = 0 then s.finishExit w else s
        | x => if s.waitOver w t x then s.setThr w { t with mode := .running } else s
    | _ => s

/-- Every waiting thread of the machine. -/
def State.waiters (s : State) : List Who :=
  s.cores.flatMap fun p => p.2.blocks.flatMap fun q => (q.2.threads.filter fun t => match t.2.mode with
    | .waiting _ => true
    | _ => false).map fun t => (⟨p.1, q.1, t.1⟩ : Who)

/-- The threads whose waits are over go on. -/
def State.wakeWaits (s : State) : State := s.waiters.foldl (fun s w => s.wakeThread w) s

end Sys2Proof.Machine
end

