-- ==== Sys2Proof/Machine/Run.lean ====
section
/-! DEFINITION. What one cycle does (07 R165-R171; 14 R344; 19 R441, R442): a path or a fixer instance executes its next
instruction, or one of the machine's own events takes place (log entry 4). -/

namespace Sys2Proof.Machine

open Sys2Proof

/-! ### A path -/

/-- Executes the bytes of an instruction on the path: an unassigned word raises cause 0x01, a reserved field cause 0x02 (R70, R79), a
descriptor field that a tflush may not hold cause 0x03 (19 R437). -/
noncomputable def State.runBytes (s : State) (bs : List Byte) : Out :=
  match decode bs with
  | .ok (i, _) => exec i s
  | .error (.unassigned w) => exec (.unassignedEncoding w) s
  | .error (.descriptor _) => .next (s.trapPath 3 0x20 0 0)
  | .error _ => .next (s.trapPath 2 0 0 0)

/-- The helpers of a path whose leader has still to execute the instruction are as they were before it (R171). -/
def State.helpersHeld (old : State) (p : Issue) (s : State) : State :=
  match old.block? p.core p.blk with
  | none => s
  | some b0 =>
    let late := b0.helpers.filter fun h => (⟨true, h.1⟩ : LaneRef) ∈ p.lanes &&
      (((b0.leaderOf h.2).bind fun i => s.thr? ⟨p.core, p.blk, i⟩).map Thread.retries).getD false
    s.modBlock p.core p.blk fun b => { b with helpers := late.foldl (fun hs h => sput hs h.1 h.2) b.helpers }

/-- What follows the instruction of a path: helpers wait with their leaders, a first instruction that is not finished stays the
first, and threads that were to run for one instruction halt. -/
def afterPath (old : State) (p : Issue) : Out → Out
  | .next s => .next ((old.keepSkip p (old.helpersHeld p s)).stepHalts p)
  | other => other

/-- Executes an instruction whose bytes have been fetched. A lane that a breakpoint stops does so unless the instruction itself
traps it first (01 R26); the others execute it, with the helpers that follow them. -/
noncomputable def State.runFetched (s : State) (p : Issue) (bs : List Byte) : Out :=
  match s.breakLanes p with
  | [] => afterPath s p (((s.breakNotes p).clearSkip p).runBytes bs)
  | hits =>
    match (s.clearSkip p).runBytes bs with
    | .next t =>
      let stops := hits.filter fun h => !trapped s t ⟨p.core, p.blk, h.1.idx⟩
      let s1 := stops.foldl (fun s h => s.breakStop p h) (s.breakNotes p)
      let rest := s1.livePath { p with lanes := p.lanes.filter fun l => !(stops.any fun h => h.1 == l) }
      if rest.lanes = [] then .next s1
      else afterPath s1 rest ((({ s1 with issue := rest } : State).clearSkip rest).runBytes bs)
    | other => other

/-- The state in which a path executes: its lanes, and the requester that its accesses name (18 R418). -/
def State.onPath (s : State) (p : Issue) : State :=
  ({ s with issue := p } : State).servedFor (coreRequester p.core) (((s.block? p.core p.blk).map (·.launch)).getD 0)

/-- Fetches and executes the next instruction of a path; nothing where no lane is left. -/
noncomputable def State.runPath (s : State) (i : Issue) : Out :=
  let p := s.livePath i
  if p.lanes = [] then .next s
  else
    match (s.onPath p).fetch p.core p.blk p.pc with
    | (s1, .error f) => afterPath s1 p (exec (.fetchFault f.1 f.2.1 (BitVec.ofNat 64 f.2.2)) s1)
    | (s1, .ok bs) => s1.runFetched p bs

/-! ### A fixer instance, 14 R347 -/

/-- The word at an instance's PC; a fetch needs R permission, and reaches what a load reaches (R345). -/
def State.fxFetch (s : State) (k : Kernel) (pc : Nat) : State × Option Nat :=
  match s.fxLoad k pc 4 with
  | (s1, .ok bs) => (s1, some (natOf bs))
  | (s1, .error _) => (s1, none)

/-- Executes a fixer word: an unassigned one raises 0x30/0x01, a reserved field 0x30/0x02 (R346). -/
noncomputable def State.runWord (s : State) (w : Nat) : Out :=
  match decodeFixer w with
  | some i => exec i s
  | none => if fixerUnassigned w then exec (.fixerUnassignedOp (BitVec.ofNat 32 w)) s else .next (s.fxReserved (BitVec.ofNat 32 w))

/-- The state in which an instance executes. -/
def State.onInst (s : State) (kernel inst : Nat) : State := { s with fx := (kernel, inst) }

/-- Fetches and executes the next instruction of an instance. -/
noncomputable def State.runFixer (s : State) (kernel inst : Nat) : Out :=
  match sget s.kernels kernel with
  | none => .next s
  | some k =>
    match sget k.insts inst with
    | none => .next s
    | some x =>
      match ((s.onInst kernel inst).servedKernel k).fxFetch k x.pc.toNat with
      | (s1, none) => exec .fixerFetchFault s1
      | (s1, some w) => s1.runWord w

/-! ### The machine's own events -/

/-- Blocks in residence: core, number. -/
def State.residents (s : State) : List (Nat × Nat) := s.cores.flatMap fun p => p.2.blocks.map fun b => (p.1, b.1)

/-- Bins in use: core, number. -/
def State.binsInUse (s : State) : List (Nat × Nat) := s.cores.flatMap fun p => p.2.bins.map fun b => (p.1, b.1)

/-- Entries of the queue table whose enabled bit differs from what the device last read. -/
def State.changedEntries (s : State) : List Nat :=
  if !s.watching then []
  else s.entriesToRead.filter fun i =>
    (s.byteAt (normPlace s.pkid (s.entryAt i + 10))).getLsbD 0 != ((sget s.queues i).map (·.enabled)).getD false

/-- Queues with a posted record, or whose watched ring line holds a matching sequence. -/
def State.readyRings (s : State) : List Nat :=
  (s.queues.filter fun p => !p.2.posted.isEmpty || (s.watching && p.2.enabled && !p.2.bad &&
    natOf (s.bytesAt (normPlace s.pkid (p.2.ring + 128 * (p.2.seq % 2 ^ p.2.lgsz) + 126)) 2) == p.2.seq)).map (·.1)

/-- Events of traffic in flight. -/
noncomputable def State.trafficEvents (s : State) : List Instr :=
  s.loads.map (fun x => Instr.loadDataReturn x.id) ++ s.stores.map (fun x => Instr.storePerformed x.id)
    ++ s.atomics.map (fun x => Instr.atomicPerform x.id) ++ s.reds.map (fun x => Instr.rdcRequestArrive x.id)
    ++ s.arrivals.map (fun x => Instr.engineBytesArrive x.id) ++ s.waiting.map (fun x => Instr.rangeLockGrant x.id)
    ++ s.tlbInvs.map (fun x => Instr.tlbInvalidationComplete x.id)

/-- Events of a command. -/
noncomputable def cmdEvents (id : Nat) : List Instr :=
  [.startTickReached id, .ringSlotClaim id, .copyCommandComplete id, .gseCommandComplete id, .matrixPhaseEnd id,
   .matrixOperationComplete id, .kseCommandBegin id, .kseCommandComplete id, .collectiveBegin id, .collectiveComplete id []]

/-- Events of launches, queues, blocks and bins. -/
noncomputable def State.launchEvents (s : State) : List Instr :=
  s.changedEntries.map (fun i => Instr.queueTableWake (i / 2)) ++ s.readyRings.map Instr.ringLineWake
    ++ (s.launches.flatMap fun p =>
      [Instr.launchDispatch p.1] ++ (List.range s.hw.part.dies).map (fun d => Instr.clusterPlace p.1 d (s.offsetsFor p.1 d))
        ++ [.stageDrainComplete p.1, .launchComplete p.1])
    ++ (s.queues.flatMap fun p => [Instr.sliceExpire p.1, .queueResume p.1])
    ++ (s.residents.flatMap fun b => [Instr.regroupComplete b.1 b.2, .blockSave b.1 b.2])
    ++ (s.binsInUse.flatMap fun b => [Instr.spawnBinTimerExpire b.1 b.2, .spawnBlockDispatch b.1 b.2])
    ++ s.cores.map (fun p => Instr.aallocGrant p.1)

/-- Events of fixer kernels. -/
noncomputable def State.kernelEvents (s : State) : List Instr :=
  s.kernels.flatMap fun p => [Instr.fixerKernelAdmit p.1, .fixerInstanceStart p.1, .fixerKernelComplete p.1]

/-- Rows that have reached SWTH, each to be swapped with a row of its bank other than itself (18 R425). -/
noncomputable def State.swapEvents (s : State) (u : Nat) (x : MemUnit) : List Instr :=
  x.acts.map fun a => Instr.rowSwap u a.1 a.2.1 a.2.2.1 ((a.2.2.1 + 1 + Config.swapRow s.cycle % (2 ^ 18 - 1)) % 2 ^ 18)

/-- Events of a partition or port. -/
noncomputable def State.unitEvents (s : State) (u : Nat) (x : MemUnit) : List Instr :=
  s.swapEvents u x ++ (((x.reqs.map (·.ch)) ++ x.bursts.map (·.1)).eraseDups.map fun ch => Instr.channelRequestServe u ch 0)
    ++ (((x.wants.map (·.1)) ++ x.bursts.map (·.1)).eraseDups.map fun ch => Instr.laneRepair u ch true)
    ++ x.retraining.map (fun ch => Instr.retrainDone u ch) ++ (if x.heatPass = 0 then [] else [Instr.heatPassDone u])

/-- Events of the rest of the package. -/
noncomputable def State.packageEvents (s : State) : List Instr :=
  [Instr.powerUp] ++ (s.units.flatMap fun p => s.unitEvents p.1 p.2) ++ s.migrations.map (fun m => Instr.migrationComplete m.id)
    ++ s.tests.map (fun t => Instr.selfTestComplete t.src t.unit t.ch t.row 0) ++ s.linksDown.map (fun p => Instr.peerFlitTimeout p.1)

/-- The events that may take place by themselves. -/
noncomputable def State.ownEvents (s : State) : List Instr :=
  s.packageEvents ++ s.trafficEvents ++ (s.cmds.flatMap fun p => cmdEvents p.1) ++ s.launchEvents ++ s.kernelEvents

/-- A list turned by some places. -/
def turned {β : Type} (k : Nat) (l : List β) : List β := l.drop (k % l.length) ++ l.take (k % l.length)

/-- The first event that changes the state. -/
noncomputable def State.firstEvent (s : State) : List Instr → Option State
  | [] => none
  | e :: es =>
    match exec e s with
    | .next t => if t = s then s.firstEvent es else some t
    | _ => s.firstEvent es

/-- One of the machine's own events, in turn. -/
noncomputable def State.ownEvent (s : State) : Option State := s.firstEvent (turned (s.turn / 2) s.ownEvents)

/-! ### The choice of what executes -/

/-- Whether the instruction of a path can issue: it would take up no load or atomic whose data has not arrived (07 R165,
06 R129). -/
noncomputable def State.canIssue (s : State) (i : Issue) : Bool :=
  match s.runPath i with
  | .next t => (s.loads.all fun x => t.loads.any fun y => y.id == x.id) && s.atomics.all fun x => t.atomics.any fun y => y.id == x.id
  | _ => true

/-- Groups of a quadrant that are ready: every instruction chosen for their slot can issue (07 R165). -/
noncomputable def State.findReady (s : State) (core q : Nat) : List (Nat × Nat) :=
  (s.runnableGroups core q).filter fun x =>
    (s.loads.isEmpty && s.atomics.isEmpty) || (s.slotPaths core x).all fun i => s.canIssue i

/-- Notes which groups of the package are ready in this cycle (07 R166). -/
noncomputable def State.noteGroups (s : State) : State :=
  s.cores.foldl (fun t p => if p.2.blocks.isEmpty then t else t.noteReady p.1 ((List.range 4).flatMap fun q => s.findReady p.1 q)) s

/-- Chooses the slot that a quadrant issues next. -/
def State.chooseSlot (s : State) (core q : Nat) : State :=
  match s.nextGroup core q (s.readyGroups core q) with
  | some x => s.issueSlot core q x
  | none => s

/-- Quadrants with a ready group. -/
def State.readyQuads (s : State) : List (Nat × Nat) :=
  s.cores.flatMap fun p => ((List.range 4).filter fun q => !(s.readyGroups p.1 q).isEmpty).map fun q => (p.1, q)

/-- Running fixer instances. -/
def State.runningInsts (s : State) : List (Nat × Nat) := s.kernels.flatMap fun p => p.2.insts.map fun x => (p.1, x.1)

/-- Chooses a quadrant's slot, or a fixer instance, each in turn. -/
def State.choose (s : State) : State :=
  let qs := s.readyQuads
  let fs := s.runningInsts
  let k := s.turn / 2 % (qs.length + fs.length)
  match qs[k]? with
  | some x => s.chooseSlot x.1 x.2
  | none =>
    match fs[k - qs.length]? with
    | some x => { s with sel := some (.fixer x.1 x.2) }
    | none => s

/-- The choice of a slot taken. -/
def State.takeChoice (s : State) : State := { s with sel := none, slotMate := none }

/-- No choice left. -/
def State.dropChoice (s : State) : State := { s with sel := none }

/-- What follows the first path of a slot: its second path (07 R170). -/
noncomputable def thenMate (mate : Option Issue) : Out → Out
  | .next s =>
    match mate with
    | some i => s.runPath i
    | none => .next s
  | other => other

/-- Executes what is chosen, a slot with both its paths: the outcome, and the slot that issued. -/
noncomputable def State.runChosen (s : State) : Out × Option (Nat × Nat × Nat) :=
  match s.sel with
  | none => (.next s, none)
  | some (.path i) => (thenMate s.slotMate (s.takeChoice.runPath i), s.slotOf (s.livePath i))
  | some (.fixer k n) => (s.dropChoice.runFixer k n, none)

/-- What the machine does of itself in a cycle: what is chosen; else, in turn, one of its own events or a new choice. -/
noncomputable def State.act (s : State) : Out × Option (Nat × Nat × Nat) :=
  if s.sel.isSome then s.runChosen
  else
    let s0 := { s with turn := s.turn + 1 }
    let c := s0.choose
    if s.turn % 2 = 0 ∧ c.sel.isSome then c.runChosen
    else
      match s0.ownEvent with
      | some t => (.next t, none)
      | none => c.runChosen

/-- The end of a cycle: due records are written, threads whose wait is over go on, blocks whose last access is performed retire,
the slot counters count, time goes on. -/
def endCycle (slot : Option (Nat × Nat × Nat)) : Out → Out
  | .next s =>
    let s1 := s.flushDue.wakeWaits.retireDue.countSlots slot
    .next { s1 with cycle := s1.cycle + 1 }
  | other => other

end Sys2Proof.Machine
end

