-- ==== Sys2Proof/Machine/Step.lean ====
section
/-! DEFINITION. The step: one core cycle of the package, and the state in which a given word is what the next step
executes (log entry 15). -/

namespace Sys2Proof.Machine

open Sys2Proof

/-- What happens in a cycle whose ready groups are noted: the oldest input or chosen event of the agenda, or what the machine does
of itself. -/
noncomputable def State.cycleOn (s : State) : Host.Outcome State Fault Refusal :=
  match s.agenda with
  | i :: rest => endCycle none (exec i { s with agenda := rest })
  | [] => endCycle s.act.2 s.act.1

/-- One core cycle. -/
noncomputable def step (s : State) : Host.Outcome State Fault Refusal := s.noteGroups.cycleOn

/-- The core that runs a placed word. -/
def State.placeCore (s : State) : Nat := ((s.coresOf 0).head?).getD 0

/-- Where a placed word stands. -/
def placeAt : Nat := 0x10000

/-- The thread, block, launch and core of a placed word. -/
def placeThread : Thread := { idx := 0, pc := BitVec.ofNat 64 placeAt, nregs := 1024, group := 0, rank := 0 }

def placeBlock : Block :=
  { launch := 1, lin := 0, cluster := 0, crank := 0, nthreads := 1, qoff := 0, stackSlot := 0, order := 0,
    threads := [(0, placeThread)], ntags := 64 }

def placeLaunch : Launch :=
  { id := 1, queue := 0, asid := 0, root := 0, state := .running,
    rcd := { entry := BitVec.ofNat 64 placeAt, bthr := 1, regs := 1024, tags := 64, sb := 2 ^ 40 }, next := 1 }

/-- The code page of a placed word. -/
def placePage : TlbEntry :=
  { asid := 0, va := placeAt, len := 4096, pa := placeAt, r := false, w := false, x := true, cw := false, nl := false, dirty := false }

/-- The page tables of a placed fixer word: four tables, and a readable leaf. -/
def placeTables : List (Nat × Nat) :=
  [(0x1000, 0x2001), (0x2000, 0x3001), (0x3000, 0x4001), (0x4000, 0x5001), (0x5080, placeAt + 0x47)]

/-- The kernel of a placed fixer word. -/
def placeKernel : Kernel :=
  let k : Kernel :=
    { id := 1, queue := 0, asid := 0, root := 0x1000, pay := 0, code := BitVec.ofNat 64 placeAt, ninst := 1, part := 0, fl := 0,
      stat := 0, undo := 0, ubytes := 0, args := [], seeds := [], locks := [], admitted := true, next := 1 }
  { k with insts := [(0, freshInst k 0)] }

/-- The package ready, with nothing chosen and no input waiting. -/
def State.placeReady (s : State) : State :=
  ({ s with mainPower := true, agenda := [], sel := none, slotMate := none } : State).setWin (mgmtBase + 0x008) 8

/-- The word's four bytes at its place. -/
def State.placeWord (s : State) (w : Nat) : State :=
  { s with
    mem := bsetMany s.mem placeAt (leOf 4 w)
    rdc := sdel s.rdc (lineOf placeAt)
    badWords := s.badWords.filter fun x => lineOf (8 * x) != lineOf placeAt }

/-- A word of a Densil program placed as the next instruction of a thread. -/
def State.placeDensil (s : State) (w : Nat) : State :=
  let s1 := s.placeReady.placeWord w
  let c := s1.placeCore
  { s1 with
    launches := sput s1.launches 1 placeLaunch
    cores := sput s1.cores c { s1.coreAt c with blocks := [(0, placeBlock)], tlb := [placePage] }
    sel := some (.path ⟨c, 0, 0, BitVec.ofNat 64 placeAt, [⟨false, 0⟩]⟩) }

/-- A fixer word placed as the next instruction of an instance. -/
def State.placeFixer (s : State) (w : Nat) : State :=
  let s1 := s.placeReady.placeWord w
  { s1 with
    mem := placeTables.foldl (fun m p => bsetMany m p.1 (leOf 8 p.2)) s1.mem
    kernels := sput s1.kernels 1 placeKernel
    sel := some (.fixer 1 0) }

/-- Whether a table word is one of a Densil program. -/
noncomputable def isDensil (nbits w : Nat) : Bool :=
  nbits == 16 || (match decodeTableWord nbits w with | some i => !i.isFixer | none => w % 2 == 1)

/-- The state in which the next step executes a word. -/
noncomputable def State.withFetchWord (s : State) (nbits w : Nat) : State :=
  if isDensil nbits w then s.placeDensil w else s.placeFixer w

end Sys2Proof.Machine
end

