-- ==== Sys2Proof/WellFormed.lean ====
section
/-! DEFINITION. Well-formed instructions: the checks of an instruction's fields that its word alone decides (04 R70, R73, R75,
R78; 06 R124, R128; 13 R306; 14 R346, R348, R349; 16 R383). An ill-formed word decodes, and its execution raises the cause
that its rule names. Every event is well-formed. -/

namespace Sys2Proof

/-- A source: not field 127 (R75). -/
def srcField (f : BitVec 7) : Bool := decide (f.toNat ≠ 127)

/-- A destination: a register of the window or an index register (R75). -/
def dstField (f : BitVec 7) : Bool := decide (f.toNat < 116)

/-- A run that is read or written: always registers (11 R265, 13 R306, 16 R383). -/
def regField (f : BitVec 7) : Bool := decide (f.toNat < 116)

/-- A source of the matrix and splat units: no latch, not field 127. -/
def mxField (f : BitVec 7) : Bool := decide (f.toNat ≠ 127) && !(decide (116 ≤ f.toNat) && decide (f.toNat < 124))

/-- A predicate that is written: p0 is true for good (05 R113). -/
def predField (p : BitVec 6) : Bool := decide (p.toNat ≠ 0)

/-- A scope from `.grp` to `.sys`. -/
def scopeOk (sc : BitVec 3) : Bool := decide (sc.toNat < 5)

/-- Order and scope of a load: order 3 is reserved, and `.dev.rmt` is no relaxed scope (R124). -/
def ldOrder (o : BitVec 2) (sc : BitVec 3) : Bool :=
  decide (o.toNat ≠ 3) && (decide (sc.toNat < 5) || (decide (sc.toNat = 5) && decide (o.toNat ≠ 0)))

/-- Order and scope of an atomic (R151): `.dev.rmt` goes with acquire. -/
def atOrder (o : BitVec 2) (sc : BitVec 3) : Bool := decide (sc.toNat < 5) || (decide (sc.toNat = 5) && decide (o.toNat % 2 = 1))

/-- Order and scope of a store (R124). -/
def stOrder (o : Nat) (sc : BitVec 3) : Bool := decide (o ≠ 3) && decide (sc.toNat < 5)

/-- A loop level (R91). -/
def levelOk (l : BitVec 2) : Bool := decide (l.toNat ≠ 3)

/-- An `s` register of a fixer (R346). -/
def sReg (r : BitVec 5) : Bool := decide (r.toNat < 16)

/-- A run of n + 1 lines of a fixer (R348). -/
def lineRun (d n : BitVec 5) : Bool := decide (n.toNat < 8) && decide (d.toNat + n.toNat < 32)

/-- The runs of `wbld` (R353). -/
def masterRun (d a : BitVec 5) (n : BitVec 2) : Bool :=
  decide (a.toNat + n.toNat + 1 ≤ 32) && decide (d.toNat + 2 * (n.toNat + 1) ≤ 32)

/-- The operands of a lane operation over n + 1 registers: runs stay in f0-f23 (R349). -/
def laneRun (n : BitVec 2) (d : BitVec 5) (rs : List (BitVec 5)) : Bool :=
  (decide (d.toNat < 24) || decide (n.toNat = 0)) && rs.all fun r => decide (24 ≤ r.toNat) || decide (r.toNat + n.toNat < 24)

/-- Whether the word's own field checks pass. -/
def Instr.wf : Instr → Bool
  | .mov _ vb a d | .iadd _ vb a d | .isub _ vb a d | .imul _ vb a d | .and _ vb a d | .or _ vb a d | .xor _ vb a d
  | .shl _ vb a d | .shr _ vb a d | .sar _ vb a d | .iminS32 _ vb a d | .imaxS32 _ vb a d | .iminN32 _ vb a d
  | .imaxN32 _ vb a d | .iaddB64 _ vb a d | .isubB64 _ vb a d | .imulwS32 _ vb a d | .imulwN32 _ vb a d | .shlB64 _ vb a d
  | .shrB64 _ vb a d | .bfxS32 _ vb a d | .bfxN32 _ vb a d | .bfiB32 _ vb a d | .fadd _ vb a d | .fsub _ vb a d
  | .fmul _ vb a d | .fmin _ vb a d | .fmax _ vb a d | .fdiv _ vb a d | .fsgnj _ vb a d | .faddF64 _ vb a d | .fmulF64 _ vb a d
  | .fdivF64 _ vb a d | .fminF64 _ vb a d | .fmaxF64 _ vb a d | .faddF16 _ vb a d | .fmulF16 _ vb a d | .fmaxF16 _ vb a d
  | .faddBf16 _ vb a d | .fmulBf16 _ vb a d | .fmaxBf16 _ vb a d | .fmaF32 _ _ _ vb a d | .fmaF64 _ _ _ vb a d
  | .fmaF16x2 _ _ _ vb a d | .fmaBf16x2 _ _ _ vb a d | .sel _ _ vb a d | .shflIdx _ vb a d | .shflUp _ vb a d
  | .shflDn _ vb a d | .shflXor _ vb a d | .cmpct _ vb a d | .expand _ vb a d | .cvt _ vb a d | .qnt _ vb a d | .dqnt _ vb a d
  | .qscl _ vb a d | .rot _ vb a d | .irot _ vb a d =>
    srcField a && srcField vb && dstField d
  | .popcB32 _ a d | .iaddImm _ a d | .imulImm _ a d | .andImm _ a d | .orImm _ a d | .xorImm _ a d | .shlImm _ a d
  | .shrImm _ a d | .sarImm _ a d | .frint _ a d | .fsqrtF64 _ a d | .exp2 _ a d | .log2 _ a d | .rcp _ a d | .rsq _ a d
  | .sqrt _ a d | .sin _ a d | .cos _ a d | .tanh _ a d | .qxchXor _ _ a d | .qxchBc _ _ a d | .gqMask _ a d | .gqEvery _ a d
  | .gqSome _ a d | .gqSame _ a d | .peersB32 _ a d | .peersB64 _ a d | .bflyS64 _ _ a d | .scanAdd _ a d | .scanFadd _ a d
  | .scanMax _ a d | .scanMin _ a d | .scanxAdd _ a d | .scanxFadd _ a d | .scanxMax _ a d | .scanxMin _ a d | .gredAdd _ a d
  | .gredFadd _ a d | .gredMax _ a d | .gredMin _ a d | .remap _ a d | .seed _ _ a d | .seedr _ _ a d | .tagmk _ a d
  | .sgen _ _ a d =>
    srcField a && dstField d
  | .mvk _ d | .mvkh _ d | .movs _ d =>
    dstField d
  | .ceq _ vb a p | .cne _ vb a p | .clt _ vb a p | .cle _ vb a p | .cgt _ vb a p | .cge _ vb a p | .cord _ vb a p
  | .cuno _ vb a p | .cueq _ vb a p | .cune _ vb a p | .cult _ vb a p | .cule _ vb a p | .cugt _ vb a p | .cuge _ vb a p
  | .ctrue _ vb a p | .cfalse _ vb a p =>
    predField p && srcField a && srcField vb
  | .plop _ _ _ p | .pland _ _ _ p | .plor _ _ _ p | .plxor _ _ _ p =>
    predField p
  | .sets _ a | .rcflush _ a | .tmark _ a | .calli _ a | .jmpi _ a | .cvarm _ a | .prf _ a | .cwb _ a | .cinv _ a =>
    srcField a
  | .setwb w =>
    decide (w.toNat % 16 = 0) && decide (w.toNat < 1024)
  | .fence _ sf =>
    scopeOk sf
  | .loop o a l =>
    levelOk l && decide (o.toNat ≠ 0) && srcField a
  | .loopi o _ l =>
    levelOk l && decide (o.toNat ≠ 0)
  | .lbrk l | .lcont l =>
    levelOk l
  | .ldN8 _ sf o a v | .ldS8 _ sf o a v | .ldN16 _ sf o a v | .ldS16 _ sf o a v | .ldB32 _ sf o a v | .ldB64 _ sf o a v
  | .ldB128 _ sf o a v =>
    dstField v && srcField a && ldOrder o sf
  | .stB8 _ sf o a v | .stB16 _ sf o a v | .stB32 _ sf o a v | .stB64 _ sf o a v =>
    srcField v && srcField a && stOrder o.toNat sf
  | .stB128 _ sf o a v =>
    regField v && srcField a && stOrder o.toNat sf
  | .zline _ sf o a =>
    srcField a && stOrder o.toNat sf
  | .atomAdd t sf r a _ | .atomMinS t sf r a _ | .atomMaxS t sf r a _ | .atomMinN t sf r a _ | .atomMaxN t sf r a _
  | .atomAnd t sf r a _ | .atomOr t sf r a _ | .atomXor t sf r a _ | .atomBinc t sf r a _ | .atomWinc t sf r a _
  | .atomDdecN t sf r a _ | .atomDdecS t sf r a _ | .atomLaddN t sf r a _ | .atomLaddS t sf r a _ =>
    srcField a && decide (t.toNat < 2) && atOrder r sf
  | .atomXchg t sf r a _ | .atomCas t sf r a _ =>
    srcField a && decide (t.toNat < 3) && atOrder r sf
  | .atomFadd _ sf r a _ | .atomFmin _ sf r a _ | .atomFmax _ sf r a _ =>
    srcField a && atOrder r sf
  | .atomLd t sf r a _ =>
    srcField a && decide (t.toNat < 3) && atOrder r sf && decide (r.toNat ≠ 2)
  | .redAdd t sf _ a _ | .redMinS t sf _ a _ | .redMaxS t sf _ a _ | .redMinN t sf _ a _ | .redMaxN t sf _ a _
  | .redAnd t sf _ a _ | .redOr t sf _ a _ | .redXor t sf _ a _ =>
    srcField a && decide (t.toNat < 2) && scopeOk sf
  | .redFadd _ sf _ a _ | .redFmin _ sf _ a _ | .redFmax _ sf _ a _ | .redFadda _ sf _ a _ =>
    srcField a && scopeOk sf
  | .cpl m _ d =>
    decide (m.toNat ≠ 3) && regField d
  | .cpt _ d | .cptr _ d | .cptc _ d | .cpml _ _ d | .cpms _ _ d | .expect _ d | .wall _ d | .relslot d | .gsg _ _ d
  | .gsgm _ _ d | .gss _ _ d | .gssm _ _ d | .mma _ _ _ _ d | .mmam _ _ _ _ d | .srd d | .tcsnap _ d =>
    regField d
  | .wany _ c d | .ffrdy _ c d | .awaitf c d | .gswt _ _ c d | .gspoll _ _ c d | .kemit c d | .ksort _ c d | .ksortBat _ c d
  | .ksel _ c d | .kselBat _ c d | .kcs _ c d | .ocomp _ c d | .ored _ c d | .cbar _ c d | .cfail c d | .launch c d
  | .launchSig _ c d | .spawn _ c d | .spawnNow _ c d | .tgsig c d | .binflush c d | .fxrun c d | .fxrunSig _ c d
  | .fxabort c d =>
    regField d && dstField c
  | .aalloc p a d =>
    predField p && mxField a && dstField d
  | .afree a | .aacq a | .arel a | .azero a =>
    mxField a
  | .ard vb a d | .mtag vb a d =>
    mxField a && mxField vb && dstField d
  | .awr vb a d | .skey vb a d =>
    mxField a && mxField vb && regField d
  | .asv _ a d =>
    mxField a && dstField d
  | .arst _ a d =>
    mxField a && regField d
  | .sproj a d =>
    regField a && regField d
  | .sload sf a d =>
    mxField a && regField d && scopeOk sf
  | .sblend vb a d | .sgrad vb a d =>
    regField a && mxField vb && regField d
  | .sinit a | .swr a =>
    regField a
  | .sli d _ | .fext d _ _ | .fflg d _ =>
    sReg d
  | .saddi d a _ | .sld d a _ | .sst d a _ =>
    sReg d && sReg a
  | .saluAdd d a vb | .saluSub d a vb | .saluMul d a vb | .saluAnd d a vb | .saluOr d a vb | .saluXor d a vb | .saluShl d a vb
  | .saluShr d a vb =>
    sReg d && sReg a && sReg vb
  | .bEqz a _ | .bNez a _ | .bLtz a _ | .bGez a _ | .floop a _ | .fbc _ a _ | .fins _ a _ =>
    sReg a
  | .fld d a n _ | .fst d a n _ | .fredf d a n _ =>
    sReg a && lineRun d n
  | .fopAdd d a vb n | .fopSub d a vb n | .fopMul d a vb n | .fopDiv d a vb n | .fopMin d a vb n | .fopMax d a vb n
  | .iopAdd d a vb n | .iopSub d a vb n | .iopAnd d a vb n | .iopOr d a vb n | .iopXor d a vb n | .iopShl d a vb n
  | .iopShr d a vb n | .iopFclt d a vb n | .iopIeq d a vb n =>
    laneRun n d [d, a, vb]
  | .fopFma d a vb c n | .fopFnma d a vb c n | .iopSel d a vb c n =>
    laneRun n d [d, a, vb, c]
  | .fopSqrt d a n | .fopMov d a n =>
    laneRun n d [d, a]
  | .fcvt _ _ c | .fdq _ _ _ c _ | .frq _ _ _ c _ | .frot _ _ c _ =>
    sReg c
  | .wbld d a n =>
    masterRun d a n
  | .mov16 .. | .iadd16 .. | .isub16 .. | .imul16 .. | .and16 .. | .or16 .. | .xor16 .. | .shl16 .. | .shr16 .. | .sar16 ..
  | .fadd16 .. | .fsub16 .. | .fmul16 .. | .fmin16 .. | .fmax16 .. | .fmac16 .. | .xset .. | .xadd .. | .nop | .oswait ..
  | .tsmp | .br .. | .call .. | .ret .. | .trap .. | .trapret | .exit | .yield | .bar | .cvsign .. | .cvsync .. | .cvwait ..
  | .regroup | .sinitr | .tflush .. | .b .. | .stepend | .fend | .regroupComplete .. | .groupSlotQuota .. | .groupAged ..
  | .starveForced .. | .storePerformed .. | .loadDataReturn .. | .atomicPerform .. | .l1Writeback .. | .rdcRequestArrive ..
  | .rangeLockGrant .. | .engineBytesArrive .. | .ringSlotClaim .. | .copyCommandComplete .. | .gseCommandComplete ..
  | .matrixPhaseEnd .. | .matrixOperationComplete .. | .aallocGrant .. | .qtenWrite .. | .queueTableWake .. | .ringLineWake ..
  | .launchRecord .. | .tlbInvalidationRecord .. | .tlbInvalidationComplete .. | .markerRecord .. | .startTickReached ..
  | .launchDispatch .. | .clusterPlace .. | .stageDrainComplete .. | .sliceExpire .. | .blockSave .. | .queueResume ..
  | .spawnBinTimerExpire .. | .spawnBlockDispatch .. | .launchComplete .. | .hostPendDecrement .. | .fixerKernelAdmit ..
  | .fixerInstanceStart .. | .fixerKernelComplete .. | .kseCommandBegin .. | .kseCommandComplete .. | .collectiveBegin ..
  | .collectiveComplete .. | .peerFlitTimeout .. | .peerLossReport .. | .channelRequestServe .. | .requestAged ..
  | .burstCrcError .. | .burstReplayExhausted .. | .laneCrcThreshold .. | .laneRepair .. | .repair .. | .retrain ..
  | .retrainDone .. | .eyeSample .. | .rowSwap .. | .retire .. | .errorCountClear .. | .irqstClear .. | .missCounterClear ..
  | .hctlWrite .. | .heatHalve .. | .heatClear .. | .heatPassDone .. | .cxlLinkDown .. | .migrationSubmit ..
  | .migrationComplete .. | .tctlWrite .. | .tdropClear | .halt | .resume | .step | .timebaseLowRead .. | .timebaseHighRead ..
  | .seedLowRead .. | .counterSnapshotRead .. | .powerUp | .coldReset | .warmReset | .windowRead .. | .windowWrite ..
  | .firmwareStage .. | .firmwareActivate | .selfTestLogRead | .retirementTableRead | .unknownCommand .. | .getVersion
  | .getCapabilities | .negotiateAlgorithms .. | .getDigests | .getCertificate .. | .challenge .. | .getMeasurements ..
  | .pkidWrite .. | .qtbWrite .. | .mirqClear .. | .pwrSample .. | .selfTestStart .. | .selfTestComplete .. | .registerWrite ..
  | .unassignedEncoding .. | .fetchFault .. | .fixerUnassignedOp .. | .fixerFetchFault | .twinericLinkFailure ..
  | .cxlLinkRetrain .. | .powerLoss | .peerRequest .. | .hostAccess .. =>
    true

end Sys2Proof
end

