-- ==== Sys2Proof/Safety.lean ====
section
/-! DEFINITION. The terms in which claims about the machine are stated: its invariants, what two states share, the paths and
threads that an instruction meets, and tables that say once more, from the rules, what the instructions of one shape compute. -/

namespace Sys2Proof.Machine

open Sys2Proof

/-! ### Memory -/

/-- Memory has its canonical form. -/
def State.MemOk (s : State) : Prop := Memory.wf s.mem = true

/-- A property that every step keeps. -/
def Kept (I : State → Prop) : Prop := ∀ s t, I s → step s = .next t → I t

/-- Every byte of memory and of stage memory reads as before. -/
def SameMemory (s t : State) : Prop := ∀ a, t.byteAt a = s.byteAt a

/-- Every byte outside `n` bytes from `a` on reads as before. -/
def SameOutside (s t : State) (a n : Nat) : Prop := ∀ x, (x < a ∨ a + n ≤ x) → t.byteAt x = s.byteAt x

/-! ### Paths and threads -/

/-- No load or atomic is on its way to a register. -/
def State.Quiet (s : State) : Prop := s.loads = [] ∧ s.atomics = []

/-- The path has this lane alone, of this thread. -/
def State.Alone (s : State) (l : LaneRef) (t : Thread) : Prop := s.issue.lanes = [l] ∧ s.lane? l = some t

/-- An instruction's checks pass in a thread that does not stand at a replay PC. -/
def Passes (t : Thread) (rs : List Role) : Prop := check t rs = none ∧ t.atAnchor = false

/-- The lanes of the path are distinct, and each is a thread or a helper for which something holds. -/
def State.EachLane (s : State) (p : Thread → Prop) : Prop :=
  s.issue.lanes.Nodup ∧ ∀ l ∈ s.issue.lanes, ∃ t, s.lane? l = some t ∧ p t

/-- The state in which each lane of the path has taken a change of its thread, and nothing else has changed. -/
def State.eachLane (s : State) (f : Thread → Thread) : State := s.issue.lanes.foldl (fun u l => u.modLane l f) s

/-- A live thread is the path's one lane, nothing is on its way to it, and its operand checks pass. -/
structure State.Solo (s : State) (l : LaneRef) (t : Thread) (rs : List Role) : Prop where
  quiet : s.Quiet
  alone : s.Alone l t
  live : l.helper = false
  first : t.atAnchor = false
  passes : check t rs = none

/-- What a path's instruction leaves alone when it acts on the threads of its lanes only: every byte of memory, every thread that
is no lane of it, the block's own registers, the launches, and the windows. -/
structure LanesOnly (s t : State) : Prop where
  memory : SameMemory s t
  others : ∀ l : LaneRef, l ∉ s.issue.lanes → t.lane? l = s.lane? l
  blocks : ∀ c b, (c, b) ≠ (s.issue.core, s.issue.blk) → t.block? c b = s.block? c b
  regs : (t.block? s.issue.core s.issue.blk).map (fun b => (b.cvs, b.tags, b.cpflg, b.mxflg, b.regions, b.cam)) =
    (s.block? s.issue.core s.issue.blk).map (fun b => (b.cvs, b.tags, b.cpflg, b.mxflg, b.regions, b.cam))
  launches : t.launches = s.launches
  windows : t.win = s.win
  work : t.loads = s.loads ∧ t.stores = s.stores ∧ t.atomics = s.atomics ∧ t.reds = s.reds ∧ t.cmds = s.cmds

/-! ### Latching instructions, 04 R72, R83; 05 R96-R116 -/

/-- A latching instruction: its length, its destination, whether it writes it (N), its sources, and its value with the flags that
it raises. -/
structure LatchForm where
  len : Nat
  dst : Dst
  n : Bool
  srcs : List Role
  op : Thread → Dword × Word

/-- A 32-bit integer operation. -/
def int2 (len : Nat) (n : BitVec 1) (d a b : BitVec 7) (f : Word → Word → Word) : LatchForm :=
  ⟨len, .r32 d, bit1 n, [.src a, .src b], fun t => (word64 (f (t.val a) (t.val b)), 0)⟩

/-- A 32-bit operation on encodings, in the thread's rounding mode. -/
def float2 (len : Nat) (n : BitVec 1) (d a b : BitVec 7) (f : Rnd → Nat → Nat → Nat × Word) : LatchForm :=
  ⟨len, .r32 d, bit1 n, [.src a, .src b], fun t => res32 (f t.rnd (t.val a).toNat (t.val b).toNat)⟩

/-- The same on pairs. -/
def double2 (n : BitVec 1) (d a b : BitVec 7) (f : Rnd → Nat → Nat → Nat × Word) : LatchForm :=
  ⟨4, .r64 d, bit1 n, [.src64 a, .src64 b], fun t => res64 (f t.rnd (t.val64 a).toNat (t.val64 b).toNat)⟩

/-- A fused multiply-add: the addend is D where C is 1, else b0. -/
def float3 (len : Nat) (n c : BitVec 1) (d a b : BitVec 7) (f : Rnd → Nat → Nat → Nat → Nat × Word) : LatchForm :=
  ⟨len, .r32 d, bit1 n, if bit1 c then [.src a, .src b, .rw d 1] else [.src a, .src b, .src 116],
    fun t => res32 (f t.rnd (t.val a).toNat (t.val b).toNat (if bit1 c then t.val d else t.val 116).toNat)⟩

/-- A compare of a type: s32, n32, f32 or f64. -/
def compare (cond ty : Nat) (p : BitVec 6) (a b : BitVec 7) : LatchForm :=
  ⟨4, .p p, false, if ty = 3 then [.src64 a, .src64 b] else [.src a, .src b], fun t =>
    let r := match ty with
      | 0 => (intCond cond (t.val a).toInt (t.val b).toInt, 0)
      | 1 => (intCond cond (t.val a).toNat (t.val b).toNat, 0)
      | 2 => floatCond cond (fp32.value (t.val a).toNat) (fp32.value (t.val b).toNat)
      | _ => floatCond cond (fp64.value (t.val64 a).toNat) (fp64.value (t.val64 b).toNat)
    (if r.1 then 1 else 0, r.2)⟩

/-- Predicate logic over a truth table. -/
def logic (p : BitVec 6) (f : BitVec 4) (b a : BitVec 6) (g : Bool → Bool → Bool) : LatchForm :=
  ⟨4, .p p, false, [], fun t =>
    (if g (t.pred p.toNat) (f.getLsbD ((if t.pred a.toNat then 2 else 0) + (if t.pred b.toNat then 1 else 0))) then 1 else 0, 0)⟩

/-- The latching instructions of the lane arithmetic unit and of the 16-bit form. -/
def latchForm : Instr → Option LatchForm
  | .iadd n vb a d => some (int2 4 n d a vb (· + ·))
  | .isub n vb a d => some (int2 4 n d a vb (· - ·))
  | .imul n vb a d => some (int2 4 n d a vb (· * ·))
  | .and n vb a d => some (int2 4 n d a vb (· &&& ·))
  | .or n vb a d => some (int2 4 n d a vb (· ||| ·))
  | .xor n vb a d => some (int2 4 n d a vb (· ^^^ ·))
  | .shl n vb a d => some (int2 4 n d a vb shlW)
  | .shr n vb a d => some (int2 4 n d a vb shrW)
  | .sar n vb a d => some (int2 4 n d a vb sarW)
  | .iminS32 n vb a d => some (int2 4 n d a vb minS)
  | .imaxS32 n vb a d => some (int2 4 n d a vb maxS)
  | .iminN32 n vb a d => some (int2 4 n d a vb minN)
  | .imaxN32 n vb a d => some (int2 4 n d a vb maxN)
  | .bfxS32 n vb a d => some (int2 4 n d a vb bfxS)
  | .bfxN32 n vb a d => some (int2 4 n d a vb bfxN)
  | .mov n vb _ d => some ⟨4, .r32 d, bit1 n, [.src vb], fun t => (word64 (t.val vb), 0)⟩
  | .bfiB32 n vb a d => some ⟨4, .r32 d, bit1 n, [.src a, .src vb, .rw d 1], fun t => (word64 (bfi (t.val d) (t.val a) (t.val vb)), 0)⟩
  | .popcB32 n a d => some ⟨4, .r32 d, bit1 n, [.src a], fun t => (word64 (popc (t.val a)), 0)⟩
  | .iaddB64 n vb a d => some ⟨4, .r64 d, bit1 n, [.src64 a, .src64 vb], fun t => (t.val64 a + t.val64 vb, 0)⟩
  | .isubB64 n vb a d => some ⟨4, .r64 d, bit1 n, [.src64 a, .src64 vb], fun t => (t.val64 a - t.val64 vb, 0)⟩
  | .imulwS32 n vb a d => some ⟨4, .r64 d, bit1 n, [.src a, .src vb], fun t => ((t.val a).signExtend 64 * (t.val vb).signExtend 64, 0)⟩
  | .imulwN32 n vb a d => some ⟨4, .r64 d, bit1 n, [.src a, .src vb], fun t => ((t.val a).zeroExtend 64 * (t.val vb).zeroExtend 64, 0)⟩
  | .shlB64 n vb a d => some ⟨4, .r64 d, bit1 n, [.src64 a, .src vb], fun t => (shlW (t.val64 a) (t.val vb), 0)⟩
  | .shrB64 n vb a d => some ⟨4, .r64 d, bit1 n, [.src64 a, .src vb], fun t => (shrW (t.val64 a) (t.val vb), 0)⟩
  | .iaddImm i a d => some ⟨4, .r32 d, false, [.src a], fun t => (word64 ((· + ·) (t.val a) (i.signExtend 32)), 0)⟩
  | .imulImm i a d => some ⟨4, .r32 d, false, [.src a], fun t => (word64 ((· * ·) (t.val a) (i.signExtend 32)), 0)⟩
  | .andImm i a d => some ⟨4, .r32 d, false, [.src a], fun t => (word64 ((· &&& ·) (t.val a) (i.signExtend 32)), 0)⟩
  | .orImm i a d => some ⟨4, .r32 d, false, [.src a], fun t => (word64 ((· ||| ·) (t.val a) (i.signExtend 32)), 0)⟩
  | .xorImm i a d => some ⟨4, .r32 d, false, [.src a], fun t => (word64 ((· ^^^ ·) (t.val a) (i.signExtend 32)), 0)⟩
  | .shlImm i a d => some ⟨4, .r32 d, false, [.src a], fun t => (word64 (shlW (t.val a) (i.signExtend 32)), 0)⟩
  | .shrImm i a d => some ⟨4, .r32 d, false, [.src a], fun t => (word64 (shrW (t.val a) (i.signExtend 32)), 0)⟩
  | .sarImm i a d => some ⟨4, .r32 d, false, [.src a], fun t => (word64 (sarW (t.val a) (i.signExtend 32)), 0)⟩
  | .iadd16 n s d => some (int2 2 n (field16D d) (field16D d) (field16S s) (· + ·))
  | .isub16 n s d => some (int2 2 n (field16D d) (field16D d) (field16S s) (· - ·))
  | .imul16 n s d => some (int2 2 n (field16D d) (field16D d) (field16S s) (· * ·))
  | .and16 n s d => some (int2 2 n (field16D d) (field16D d) (field16S s) (· &&& ·))
  | .or16 n s d => some (int2 2 n (field16D d) (field16D d) (field16S s) (· ||| ·))
  | .xor16 n s d => some (int2 2 n (field16D d) (field16D d) (field16S s) (· ^^^ ·))
  | .shl16 n s d => some (int2 2 n (field16D d) (field16D d) (field16S s) shlW)
  | .shr16 n s d => some (int2 2 n (field16D d) (field16D d) (field16S s) shrW)
  | .sar16 n s d => some (int2 2 n (field16D d) (field16D d) (field16S s) sarW)
  | .mov16 n s d => some ⟨2, .r32 (field16D d), bit1 n, [.src (field16S s)], fun t => (word64 (t.val (field16S s)), 0)⟩
  | .fadd16 n s d => some (float2 2 n (field16D d) (field16D d) (field16S s) fp32.fadd)
  | .fsub16 n s d => some (float2 2 n (field16D d) (field16D d) (field16S s) fp32.fsub)
  | .fmul16 n s d => some (float2 2 n (field16D d) (field16D d) (field16S s) fp32.fmul)
  | .fmin16 n s d => some (float2 2 n (field16D d) (field16D d) (field16S s) (fun _ => fp32.fminmax false))
  | .fmax16 n s d => some (float2 2 n (field16D d) (field16D d) (field16S s) (fun _ => fp32.fminmax true))
  | .fmac16 n s d => some (float3 2 n 1 (field16D d) (field16S s) 116 fun md => fp32.ffma md false)
  | .fadd n vb a d => some (float2 4 n d a vb fp32.fadd)
  | .fsub n vb a d => some (float2 4 n d a vb fp32.fsub)
  | .fmul n vb a d => some (float2 4 n d a vb fp32.fmul)
  | .fdiv n vb a d => some (float2 4 n d a vb fp32.fdiv)
  | .fmin n vb a d => some (float2 4 n d a vb (fun _ => fp32.fminmax false))
  | .fmax n vb a d => some (float2 4 n d a vb (fun _ => fp32.fminmax true))
  | .fsgnj n vb a d => some (float2 4 n d a vb (fun _ x y => (fsgnj x y, 0)))
  | .faddF16 n vb a d => some (float2 4 n d a vb (fun md => packed2 (fp16.fadd md)))
  | .fmulF16 n vb a d => some (float2 4 n d a vb (fun md => packed2 (fp16.fmul md)))
  | .fmaxF16 n vb a d => some (float2 4 n d a vb (fun _ => packed2 (fp16.fminmax true)))
  | .faddBf16 n vb a d => some (float2 4 n d a vb (fun md => packed2 (bf16.fadd md)))
  | .fmulBf16 n vb a d => some (float2 4 n d a vb (fun md => packed2 (bf16.fmul md)))
  | .fmaxBf16 n vb a d => some (float2 4 n d a vb (fun _ => packed2 (bf16.fminmax true)))
  | .faddF64 n vb a d => some (double2 n d a vb fp64.fadd)
  | .fmulF64 n vb a d => some (double2 n d a vb fp64.fmul)
  | .fdivF64 n vb a d => some (double2 n d a vb fp64.fdiv)
  | .fminF64 n vb a d => some (double2 n d a vb (fun _ => fp64.fminmax false))
  | .fmaxF64 n vb a d => some (double2 n d a vb (fun _ => fp64.fminmax true))
  | .fsqrtF64 n a d => some ⟨4, .r64 d, bit1 n, [.src64 a], fun t => res64 (fp64.fsqrt t.rnd (t.val64 a).toNat)⟩
  | .frint n a d => some ⟨4, .r32 d, bit1 n, [.src a], fun t => res32 (fp32.frint t.rnd (t.val a).toNat)⟩
  | .exp2 n a d => some ⟨4, .r32 d, bit1 n, [.src a], fun t => res32 (fp32.fexp2 t.rnd (t.val a).toNat)⟩
  | .log2 n a d => some ⟨4, .r32 d, bit1 n, [.src a], fun t => res32 (fp32.flog2 t.rnd (t.val a).toNat)⟩
  | .rcp n a d => some ⟨4, .r32 d, bit1 n, [.src a], fun t => res32 (fp32.frcp t.rnd (t.val a).toNat)⟩
  | .rsq n a d => some ⟨4, .r32 d, bit1 n, [.src a], fun t => res32 (fp32.frsq t.rnd (t.val a).toNat)⟩
  | .sqrt n a d => some ⟨4, .r32 d, bit1 n, [.src a], fun t => res32 (fp32.fsqrt t.rnd (t.val a).toNat)⟩
  | .sin n a d => some ⟨4, .r32 d, bit1 n, [.src a], fun t => res32 (fp32.fsin t.rnd (t.val a).toNat)⟩
  | .cos n a d => some ⟨4, .r32 d, bit1 n, [.src a], fun t => res32 (fp32.fcos t.rnd (t.val a).toNat)⟩
  | .tanh n a d => some ⟨4, .r32 d, bit1 n, [.src a], fun t => res32 (fp32.ftanh t.rnd (t.val a).toNat)⟩
  | .fmaF32 n g c vb a d => some (float3 4 n c d a vb fun md => fp32.ffma md (bit1 g))
  | .fmaF16x2 n g c vb a d => some (float3 4 n c d a vb fun md => packed3 (fp16.ffma md (bit1 g)))
  | .fmaBf16x2 n g c vb a d => some (float3 4 n c d a vb fun md => packed3 (bf16.ffma md (bit1 g)))
  | .fmaF64 n g c vb a d => some ⟨4, .r64 d, bit1 n, if bit1 c then [.src64 a, .src64 vb, .rw d 2] else [.src64 a, .src64 vb, .src64 116],
      fun t => res64 (fp64.ffma t.rnd (bit1 g) (t.val64 a).toNat (t.val64 vb).toNat (if bit1 c then t.val64 d else t.val64 116).toNat)⟩
  | .ceq t vb a p => some (compare 0 t.toNat p a vb)
  | .cne t vb a p => some (compare 1 t.toNat p a vb)
  | .clt t vb a p => some (compare 2 t.toNat p a vb)
  | .cle t vb a p => some (compare 3 t.toNat p a vb)
  | .cgt t vb a p => some (compare 4 t.toNat p a vb)
  | .cge t vb a p => some (compare 5 t.toNat p a vb)
  | .ctrue t vb a p => some (compare 14 t.toNat p a vb)
  | .cfalse t vb a p => some (compare 15 t.toNat p a vb)
  | .cord t vb a p => some (compare 6 (2 + t.toNat) p a vb)
  | .cuno t vb a p => some (compare 7 (2 + t.toNat) p a vb)
  | .cueq t vb a p => some (compare 8 (2 + t.toNat) p a vb)
  | .cune t vb a p => some (compare 9 (2 + t.toNat) p a vb)
  | .cult t vb a p => some (compare 10 (2 + t.toNat) p a vb)
  | .cule t vb a p => some (compare 11 (2 + t.toNat) p a vb)
  | .cugt t vb a p => some (compare 12 (2 + t.toNat) p a vb)
  | .cuge t vb a p => some (compare 13 (2 + t.toNat) p a vb)
  | .plop f vb a p => some (logic p f vb a (fun _ v => v))
  | .pland f vb a p => some (logic p f vb a (fun o v => o && v))
  | .plor f vb a p => some (logic p f vb a (fun o v => o || v))
  | .plxor f vb a p => some (logic p f vb a (fun o v => o != v))
  | .sel n k vb a d => some ⟨4, .r32 d, bit1 n, [.src a, .src vb], fun t => (word64 (if t.pred k.toNat then t.val a else t.val vb), 0)⟩
  | _ => none

/-! ### Instructions of the thread alone, 04 R88-R95 -/

/-- An instruction that latches nothing and changes its thread: its roles, what must hold, and the change. -/
structure PlainForm where
  roles : List Role
  ok : Thread → Bool
  eff : Thread → Thread

/-- Constants, the window, the index registers and the loops. -/
def plainForm : Instr → Option PlainForm
  | .mvk k d => some ⟨[.dst d], fun _ => true, fun t => (t.setVal d (k.signExtend 32)).advance 4⟩
  | .mvkh k d => some ⟨[.dst d, .rw d 1], fun _ => true, fun t =>
      (t.setVal d ((t.val d &&& 0x3FFF#32) ||| (k.zeroExtend 32 <<< (14 : Nat)))).advance 4⟩
  | .setwb w => some ⟨[], fun t => decide (w.toNat % 16 = 0) && decide (w.toNat < 1024) && decide (w.toNat < t.nregs), fun t =>
      ({ t with wb := w.truncate 10 }).advance 4⟩
  | .xset k u => some ⟨[], fun _ => true, fun t => ({ t with xs := t.xs.set k.toNat u }).advance 4⟩
  | .xadd k v => some ⟨[], fun _ => true, fun t => ({ t with xs := t.xs.set k.toNat (t.xreg k.toNat + v) }).advance 4⟩
  | .nop => some ⟨[], fun _ => true, fun t => t.advance 4⟩
  | .loop o a l => some ⟨[.src a], fun _ => decide (l.toNat ≠ 3) && decide (o ≠ 0), fun t =>
      t.startLoop l.toNat (o.zeroExtend 32) (t.val a)⟩
  | .loopi o n l => some ⟨[], fun _ => decide (l.toNat ≠ 3) && decide (o ≠ 0), fun t =>
      t.startLoop l.toNat (o.zeroExtend 32) (n.zeroExtend 32)⟩
  | .lbrk l => some ⟨[], fun t => decide (l.toNat ≠ 3) && decide (t.lcOf l.toNat ≠ 0), fun t =>
      (t.clearLoops l.toNat).endReplay.goSeq (t.loopAddr (t.loopEnd l.toNat))⟩
  | .lcont l => some ⟨[], fun t => decide (l.toNat ≠ 3) && decide (t.lcOf l.toNat ≠ 0), fun t =>
      (t.clearLoops (l.toNat + 1)).endReplay.goSeq (t.loopAddr (t.loopEnd l.toNat))⟩
  | .tsmp => some ⟨[], fun _ => true, fun t => ({ t with tsmp := !t.helper }).advance 4⟩
  | _ => none

/-! ### The exchange network, 08 R199-R206 -/

/-- An exchange instruction: its destination, N, its sources, the operands A and B that a lane supplies, and the value and flags
that a lane receives from all of them. -/
structure ExchForm where
  dst : Dst
  n : Bool
  srcs : List Role
  a : Thread → Dword
  b : Thread → Word
  res : State → Rnd → List XLane → XLane → Dword × Word

/-- A of a lane at a rank, or the lane's own A where no lane has that rank. -/
def fromRank (ps : List XLane) (p : XLane) (r : Nat) : Dword := ((ps.find? fun q => q.rank == r).map (·.a)).getD p.a

/-- An instruction of one 32-bit operand, and of two. -/
def exch1 (n : BitVec 1) (d a : BitVec 7) (res : State → Rnd → List XLane → XLane → Dword × Word) : ExchForm :=
  ⟨.r32 d, bit1 n, [.src a], fun t => word64 (t.val a), fun _ => 0, res⟩

def exch2 (n : BitVec 1) (d a b : BitVec 7) (res : State → Rnd → List XLane → XLane → Dword × Word) : ExchForm :=
  ⟨.r32 d, bit1 n, [.src a, .src b], fun t => word64 (t.val a), fun t => t.val b, res⟩

/-- A scan or reduction over the lanes of H whose rank `keep` admits, in ascending rank. -/
def exchScan (n : BitVec 1) (d a : BitVec 7) (op : ScanOp) (keep : Nat → Nat → Bool) : ExchForm :=
  exch1 n d a fun _ m ps p =>
    let r := prefixOf op m (((byRank ps).filter fun q => keep q.rank p.rank).map fun q => lo32 q.a)
    (word64 r.1, r.2)

/-- The shuffles, queries, matches, scans and compactions. -/
def exchForm : Instr → Option ExchForm
  | .shflIdx n vb a d => some (exch2 n d a vb fun _ _ ps p => (fromRank ps p (p.b.toNat % 32), 0))
  | .shflUp n vb a d => some (exch2 n d a vb fun _ _ ps p =>
      (if p.b.toNat ≤ p.rank then fromRank ps p (p.rank - p.b.toNat) else p.a, 0))
  | .shflDn n vb a d => some (exch2 n d a vb fun _ _ ps p =>
      (if p.rank + p.b.toNat ≤ 31 then fromRank ps p (p.rank + p.b.toNat) else p.a, 0))
  | .shflXor n vb a d => some (exch2 n d a vb fun _ _ ps p => (fromRank ps p (Nat.xor p.rank (p.b.toNat % 32)), 0))
  | .qxchXor n m a d => some (exch1 n d a fun _ _ ps p => (fromRank ps p (p.rank / 4 * 4 + Nat.xor (p.rank % 4) m.toNat), 0))
  | .qxchBc n m a d => some (exch1 n d a fun _ _ ps p => (fromRank ps p (p.rank / 4 * 4 + m.toNat), 0))
  | .gqMask n a d => some (exch1 n d a fun _ _ ps _ => (word64 (maskOf ps fun p => p.a != 0), 0))
  | .gqEvery n a d => some (exch1 n d a fun _ _ ps _ => (if (liveX ps).all (fun p => p.a != 0) then 1 else 0, 0))
  | .gqSome n a d => some (exch1 n d a fun _ _ ps _ => (if (liveX ps).any (fun p => p.a != 0) then 1 else 0, 0))
  | .gqSame n a d => some (exch1 n d a fun _ _ ps _ =>
      (if (liveX ps).all (fun p => (liveX ps).all fun q => p.a == q.a) then 1 else 0, 0))
  | .peersB32 n a d => some (exch1 n d a fun _ _ ps p => (word64 (maskOf ps fun q => q.a == p.a), 0))
  | .peersB64 n a d => some ⟨.r32 d, bit1 n, [.src64 a], fun t => t.val64 a, fun _ => 0, fun _ _ ps p =>
      (word64 (maskOf ps fun q => q.a == p.a), 0)⟩
  | .bflyS64 n k a d =>
    if k.toNat ≤ 4 then some ⟨.r64 d, bit1 n, [.src64 a], fun t => t.val64 a, fun _ => 0, fun _ _ ps p =>
      match ps.find? fun q => q.rank == Nat.xor p.rank (2 ^ k.toNat) with
      | none => (p.a, 0)
      | some q => (if p.rank / 2 ^ k.toNat % 2 = 0 then p.a + q.a else q.a - p.a, 0)⟩
    else none
  | .scanAdd n a d => some (exchScan n d a scanSum fun q r => decide (q ≤ r))
  | .scanFadd n a d => some (exchScan n d a scanFsum fun q r => decide (q ≤ r))
  | .scanMax n a d => some (exchScan n d a scanMaxS fun q r => decide (q ≤ r))
  | .scanMin n a d => some (exchScan n d a scanMinS fun q r => decide (q ≤ r))
  | .scanxAdd n a d => some (exchScan n d a scanSum fun q r => decide (q < r))
  | .scanxFadd n a d => some (exchScan n d a scanFsum fun q r => decide (q < r))
  | .scanxMax n a d => some (exchScan n d a scanMaxS fun q r => decide (q < r))
  | .scanxMin n a d => some (exchScan n d a scanMinS fun q r => decide (q < r))
  | .gredAdd n a d => some (exchScan n d a scanSum fun _ _ => true)
  | .gredFadd n a d => some (exchScan n d a scanFsum fun _ _ => true)
  | .gredMax n a d => some (exchScan n d a scanMaxS fun _ _ => true)
  | .gredMin n a d => some (exchScan n d a scanMinS fun _ _ => true)
  | .cmpct n vb a d => some (exch2 n d a vb fun _ _ ps p =>
      (((((byRank ps).filter fun q => q.b != 0)[p.rank]?).map (·.a)).getD 0, 0))
  | .expand n vb a d => some (exch2 n d a vb fun _ _ ps p =>
      if p.b = 0 then (0, 0)
      else
        let r := (((byRank ps).filter fun q => q.b != 0).filter fun q => decide (q.rank < p.rank)).length
        ((((liveX ps).find? fun q => q.rank == r).map (·.a)).getD 0, 0))
  | .remap n a d => some (exch1 n d a fun s _ _ p =>
      (word64 (((s.block? s.issue.core s.issue.blk).map fun b => b.location (lo32 p.a).toNat).getD (BitVec.allOnes 32)), 0))
  | _ => none

/-- The lanes of the path with the operands they supply. -/
def State.taking (s : State) (a : Thread → Dword) (b : Thread → Word) : List XLane :=
  s.issue.lanes.filterMap fun l => (s.lane? l).map fun t => ⟨l, t.rank, a t, b t⟩

/-- Every lane has received its value. -/
def State.exchanged (s : State) (f : ExchForm) : State :=
  let ps := s.taking f.a f.b
  ps.foldl (fun u p => u.modLane p.lane fun t =>
    t.finishX f.dst f.n (readsLatch f.srcs) (f.res s t.rnd ps p).1 (f.res s t.rnd ps p).2) s

/-! ### Instructions of one live thread that reach beyond it -/

/-- The effect of an instruction on a path of one live thread: its roles, when it executes normally, and the state it leaves. -/
structure SoloForm where
  roles : List Role
  ok : State → LaneRef → Thread → Prop
  eff : State → LaneRef → Thread → State

/-- An instruction whose lanes agree on its shared words before it acts once for all of them (01 R451): its roles, what its own word
and the registers of each lane must be before the agreement, when two lanes agree, and the cause and subcause of a disagreement;
then, for a live thread of the path and all its lanes, when it executes normally, and the state it leaves. -/
structure GroupForm where
  roles : List Role
  word : Prop
  enters : Thread → Prop
  same : Thread → Thread → Prop
  cause : Nat
  sub : Nat
  ok : State → Thread → List (LaneRef × Thread) → Prop
  eff : State → Thread → List (LaneRef × Thread) → State

/-- The same on a path of one live thread. -/
def GroupForm.solo (f : GroupForm) : SoloForm :=
  ⟨f.roles, fun s l t => f.word ∧ f.enters t ∧ f.ok s t [(l, t)], fun s l t => f.eff s t [(l, t)]⟩

/-- The lanes of the path with their threads. -/
def State.group (s : State) : List (LaneRef × Thread) := s.issue.lanes.filterMap fun l => (s.lane? l).map fun t => (l, t)

/-- Those of them that are no helpers. -/
def liveOf (ps : List (LaneRef × Thread)) : List LaneRef := (ps.map (·.1)).filter fun l => !l.helper

/-- An access that translates, is permitted and meets no watchpoint. -/
def State.Grants (s : State) (l : LaneRef) (va n : Nat) (need : Need) (at_ : Bool) (sized : State → Place → Bool) : Prop :=
  ∃ p, (s.watchedAccess (s.who l) va n need at_ sized).2 = .ok p

/-- What follows a granted access, from the state that the translation leaves and the place it gives. -/
def State.granted (s : State) (l : LaneRef) (va n : Nat) (need : Need) (at_ : Bool) (sized : State → Place → Bool)
    (k : State → Place → State) : State :=
  match s.watchedAccess (s.who l) va n need at_ sized with
  | (s1, .ok p) => k s1 p
  | (s1, .error _) => s1

/-- The address of the call-stack slot that a call spills to (04 R179). -/
def State.spillAddr (s : State) (l : LaneRef) (t : Thread) : Nat := (s.stackAddr (s.who l) (t.sp - 8)).toNat

/-- The address of the call-stack slot that a return refills from. -/
def State.refillAddr (s : State) (l : LaneRef) (t : Thread) : Nat := (s.stackAddr (s.who l) t.sp).toNat

/-- A call that stays in the four return registers, or whose spill is an aligned, permitted store. -/
def State.PushOk (s : State) (l : LaneRef) (t : Thread) : Prop :=
  t.rsd.toNat < 4 ∨ (t.rsd ≠ 0xFFFFFFFF ∧ t.full = false ∧ s.spillAddr l t % 8 = 0 ∧
    s.Grants l (s.spillAddr l t) 8 .w false (sizedAt 0))

/-- The return address enters the return registers; the oldest of four goes to memory below the stack pointer. -/
def State.pushed (s : State) (l : LaneRef) (t : Thread) (ra target : Dword) : State :=
  let enter (u : Thread) : Thread := { u with ret := (ra :: u.ret).take 4, rsd := u.rsd + 1 }.goTo target
  if t.rsd.toNat < 4 then s.setLane l (enter t)
  else s.granted l (s.spillAddr l t) 8 .w false (sizedAt 0) fun s1 p =>
    let s2 := s1.storeAs (s.who l) p (leOf 8 (nth t.ret 3 0).toNat) 0 0
    s2.setLane l (enter { (s2.lane? l).getD t with sp := t.sp - 8 })

/-- The refill of a return: an aligned, permitted load of sound data that no watchpoint stops, with the state after it. -/
def State.refill? (s : State) (l : LaneRef) (t : Thread) : Option (State × Dword) :=
  if s.refillAddr l t % 8 = 0 then
    match s.access (s.who l) (s.refillAddr l t) 8 .r false (sizedAt 0) with
    | (_, .error _) => none
    | (s1, .ok p) =>
      let r := s1.loadAs (s.who l) p 8 0 0
      if r.2.2 then none
      else
        match r.1.watch (s.who l) (s.refillAddr l t) 8 false false with
        | (_, some _) => none
        | (s3, none) => some (s3.noteSize (s.who l) p 8 (sizedAt 0), BitVec.ofNat 64 (natOf r.2.1))
  else none

/-- A return from the return registers alone, or with a refill. -/
def State.PopOk (s : State) (l : LaneRef) (t : Thread) : Prop := t.rsd.toNat ≤ 4 ∨ (s.refill? l t).isSome = true

/-- The newest return address is left and jumped to; the fifth comes back from memory. -/
def State.popped (s : State) (l : LaneRef) (t : Thread) : State :=
  if t.rsd.toNat ≤ 4 then s.setLane l ({ t with ret := t.ret.drop 1, rsd := t.rsd - 1 }.goTo (nth t.ret 0 0))
  else match s.refill? l t with
    | none => s
    | some (s1, e) =>
      let u := (s1.lane? l).getD t
      s1.setLane l ({ u with ret := u.ret.drop 1 ++ [e], sp := u.sp + 8, rsd := u.rsd - 1 }.goTo (nth t.ret 0 0))

/-- What a thread has done comes before all that follows: a release at the block's scope, and its accesses are no race's any more. -/
def State.publishes (s : State) (l : LaneRef) : State := (s.releaseAt (s.who l) 1).publish fun x => x == s.who l

/-- A thread that arrives at a rendezvous: a release at the block's scope, a wait, and the rendezvous when it is the last. -/
def State.arrives (s : State) (l : LaneRef) (t : Thread) (w : Wait) : State :=
  ((s.publishes l).modLane l fun u => ({ u with pc := t.pc } : Thread).hold w).modBlock s.issue.core s.issue.blk Block.checkBar

/-- A sign of a convergence register: a release at the block's scope, the thread's sign, and one more count. -/
def State.signs (s : State) (k : Nat) (l : LaneRef) : State :=
  let c := s.issueCv k
  ((s.publishes l).modLane l fun t => t.sign k c.ph).modIssueBlock fun b => b.setCv k { c with c := c.c + 1 }

/-- A sign that the register takes. -/
def State.SignOk (s : State) (k : Nat) (t : Thread) : Prop :=
  signFault (s.issueCv k) t k = none ∧ (s.issueCv k).mat = none

/-- The handler of a launch. -/
def State.handlerOf (s : State) : Dword :=
  (((s.block? s.issue.core s.issue.blk).bind fun b => s.launch? b.launch).map (·.rcd.trap)).getD (BitVec.allOnes 64)

/-- Front end and sequencer: 04 R95; 07 R176-R191. -/
def sequencerForm : Instr → Option SoloForm
  | .movs sr d => some ⟨[.dst d], fun _ _ _ => specialAssigned sr.toNat = true, fun s l t =>
      let s1 := s.readOrder (s.who l) sr.toNat
      let r := s1.readSpecial s1.issue.core s1.issue.blk t sr.toNat
      s1.setLane l ((r.2.setVal d r.1).advance 4)⟩
  | .sets sr a => some ⟨[.src a], fun _ _ t => specialWritable sr.toNat = true ∧ setsCheck t sr.toNat (t.val a) = none, fun s l t =>
      if specialBlock sr.toNat then (s.modIssueBlock fun b => b.writeSpecial sr.toNat (t.val a)).advanceLane l
      else s.setLane l ((t.writeSpecial sr.toNat (t.val a)).advance 4)⟩
  | .call o _ => some ⟨[], fun s l t => s.PushOk l t, fun s l t => s.pushed l t (t.pc + 4) (t.pc + 2 * o.signExtend 64)⟩
  | .calli _ a => some ⟨[.src64 a], fun s l t => (t.val64 a).getLsbD 0 = false ∧ s.PushOk l t, fun s l t =>
      s.pushed l t (t.pc + 4) (t.val64 a)⟩
  | .jmpi _ a => some ⟨[.src64 a], fun _ _ t => (t.val64 a).getLsbD 0 = false, fun s l t => s.setLane l (t.goTo (t.val64 a))⟩
  | .ret _ => some ⟨[], fun s l t => t.rsd ≠ 0 ∧ s.PopOk l t, fun s l t => s.popped l t⟩
  | .trap n => some ⟨[], fun s _ t => t.handler = false ∧ s.handlerOf ≠ BitVec.allOnes 64, fun s l t =>
      s.setThr (s.who l) (t.enterHandler 0x20 n.toNat 0 0 (t.pc + 4) s.handlerOf)⟩
  | .trapret => some ⟨[], fun _ _ t => t.handler = true, fun s l t => s.setLane l t.returnFromTrap⟩
  | .exit => some ⟨[], fun _ _ _ => True, fun s l t =>
      if t.osc = 0 then s.finishExit (s.who l) else s.setThr (s.who l) { t with mode := .waiting .exitOsc }⟩
  | .yield => some ⟨[], fun _ _ _ => True, fun s l t =>
      let s1 := s.setLane l (t.advance 4)
      s1.modQuad s1.issue.core s1.issueQuad fun q => { q with yielded := true }⟩
  | .bar => some ⟨[], fun _ _ _ => True, fun s l t => s.arrives l t .bar⟩
  | .regroup => some ⟨[], fun _ _ _ => True, fun s l t => s.arrives l t .regroup⟩
  | .cvarm k a => some ⟨[.src a], fun s _ t =>
      let c := s.issueCv k.toNat
      (t.val a).toNat ≤ 1024 ∧ (t.val a = 0 → c.c = 0) ∧ (t.val a ≠ 0 → c.e = 0 ∨ c.broken = true ∨ c.e = (t.val a).toNat), fun s l t =>
      let c := s.issueCv k.toNat
      if t.val a = 0 then (s.modIssueBlock fun b => b.setCv k.toNat { c with e := 0, broken := false }).advanceLane l
      else if c.e = 0 ∨ c.broken = true then
        (s.modIssueBlock fun b => (b.setCv k.toNat ⟨(t.val a).toNat, 0, c.ph, false, none, [], false⟩).clearSigned k.toNat).advanceLane l
      else s.advanceLane l⟩
  | .cvsign k => some ⟨[], fun s _ t => s.SignOk k.toNat t, fun s l _ =>
      let c := s.issueCv k.toNat
      let s1 := s.signs k.toNat l
      (if c.c + 1 = c.e then s1.modIssueBlock fun b => b.endPhase k.toNat else s1).advanceLane l⟩
  | .cvsync k => some ⟨[], fun s _ t => s.SignOk k.toNat t, fun s l _ =>
      let c := s.issueCv k.toNat
      let s1 := s.signs k.toNat l
      if c.c + 1 = c.e then (s1.modIssueBlock fun b => b.endPhase k.toNat).advanceLane l
      else s1.modLane l fun t => t.hold (.cv k.toNat)⟩
  | .cvwait k => some ⟨[], fun s _ t => (t.sphOf k.toNat).isSome = true ∧ (s.issueCv k.toNat).broken = false, fun s l t =>
      if t.sphOf k.toNat = some (s.issueCv k.toNat).ph then s.setLane l (t.hold (.cv k.toNat)) else s.setLane l (t.advance 4)⟩
  | .oswait n => some ⟨[], fun _ _ _ => True, fun s l t =>
      if t.osc ≤ n.toNat then s.setLane l (t.advance 4) else s.setLane l (t.hold (.oswait n.toNat))⟩
  | .tmark imm a => some ⟨[.src a], fun _ _ _ => True, fun s l t =>
      (if s.winBit traceBase 8 then
        match s.block? s.issue.core s.issue.blk with
        | some b => s.traceOf (s.who l) (markRecord b.launch b.lin t.idx s.now imm.toNat (t.val a))
        | none => s
      else s).advanceLane l⟩
  | .tflush k => some ⟨[], fun s _ _ => s.badTag k.toNat = none, fun s l _ =>
      ((s.returnSampled (s.who l) s.nextId).sendBytes s.issue.core s.issue.blk k.toNat 32 0).advanceLane l⟩
  | .tcsnap k d => some ⟨[.src64 d], fun s l t => descField d = none ∧ s.badTag k.toNat = none ∧
        ((s.releaseAt (s.who l) 3).snapCheck (t.val64 d).toNat).2 = none, fun s l t =>
      let s0 := s.releaseAt (s.who l) 3
      let va := (t.val64 d).toNat
      let s1 := (s0.snapCheck va).1
      let q := ((s1.block? s.issue.core s.issue.blk).map fun b => quadOf b t.group).getD 0
      let base := s1.laneCmd l t 30 14 0 k.toNat []
      let c := { base with aux := [va, q], locks := [lockSpan (s0.ctxOf s.issue.core s.issue.blk) va 64 true true base.id] }
      let s2 := s1.fresh
      if s2.mustWait c then ({ s2 with waiting := s2.waiting ++ [c] } : State).modLane l fun t => t.hold .lock
      else (s2.runSnap c).advanceLane l⟩
  | _ => none

/-- The load-store unit: 06 R124-R138. -/
def memoryForm : Instr → Option SoloForm
  | .prf q a => some ⟨[.src64 a], fun _ _ _ => True, fun s l t =>
      match s.access (s.who l) (lineStart (lsuAddr t a q 128)) 128 .r false unsized with
      | (s1, .error _) => s1.advanceLane l
      | (s1, .ok p) =>
        ((s1.settleLine (s.who l) (lineOf p.pa)).prefetch s.issue.core p).advanceLane l⟩
  | .stB8 q sc o a v => some (storing 1 q sc o a v)
  | .stB16 q sc o a v => some (storing 2 q sc o a v)
  | .stB32 q sc o a v => some (storing 4 q sc o a v)
  | .stB64 q sc o a v => some (storing 8 q sc o a v)
  | .stB128 q sc o a v => some (storing 16 q sc o a v)
  | .zline q sc o a => some ⟨[.src64 a], fun s l t => stWord o.toNat sc = none ∧ t.full = false ∧ lsuAddr t a q 128 % 128 = 0 ∧
        s.Grants l (lsuAddr t a q 128) 128 .w false unsized, fun s l t =>
      s.granted l (lsuAddr t a q 128) 128 .w false unsized fun s1 p =>
        let s2 := (s1.storeAs (s.who l) p (List.replicate 128 0) o.toNat sc.toNat).advanceLane l
        match s2.translate (s2.ctxOf s2.issue.core s2.issue.blk) (lsuAddr t a q 128) .w with
        | (s3, .ok p') => s3.clearSectors (lineOf p'.pa)
        | (s3, .error _) => s3⟩
  | .cwb q a => some (cleaning false q a)
  | .cinv q a => some (cleaning true q a)
  | .fence r sc => some ⟨[], fun _ _ _ => sc.toNat ≤ 4, fun s l _ =>
      let s1 := if r.toNat = 1 then s.settleAtomics (s.who l) else s.releaseAt (s.who l) sc.toNat
      let s2 := if r.toNat = 0 then s1.settleAll (s.who l) else s1
      (if r.toNat = 2 then s2 else s2.acquireAt (s.who l) sc.toNat).advanceLane l⟩
  | .rcflush k a => some ⟨[.src64 a], fun s _ t => t.full = false ∧ ∃ ls, (flushed s t k a).2 = .ok ls, fun s l t =>
      match flushed s t k a with
      | (s1, .ok ls) => (s1.addStore (s.who l) (.flush ls) 0).advanceLane l
      | (s1, .error _) => s1⟩
  | _ => none
where
  flushed (s : State) (t : Thread) (k : BitVec 12) (a : BitVec 7) : State × Except Nat (List Nat) :=
    s.flushLines (s.ctxOf s.issue.core s.issue.blk) (lineStart (t.val64 a).toNat) (k.toNat + 1)
  storing (n : Nat) (q : BitVec 4) (sc : BitVec 3) (o : BitVec 2) (a v : BitVec 7) : SoloForm :=
    ⟨[storeRole v n, .src64 a], fun s l t => stWord o.toNat sc = none ∧ t.full = false ∧ lsuAddr t a q n % n = 0 ∧
        s.Grants l (lsuAddr t a q n) n .w false (sizedAt sc.toNat), fun s l t =>
      s.granted l (lsuAddr t a q n) n .w false (sizedAt sc.toNat) fun s1 p =>
        (s1.storeAs (s.who l) p (storeData t v n) o.toNat sc.toNat).advanceLane l⟩
  cleaning (drop : Bool) (q : BitVec 4) (a : BitVec 7) : SoloForm :=
    ⟨[.src64 a], fun s l t => t.full = false ∧
        (∃ p, (s.access (s.who l) (lineStart (lsuAddr t a q 128)) 128 .r false unsized).2 = .ok p), fun s l t =>
      match s.access (s.who l) (lineStart (lsuAddr t a q 128)) 128 .r false unsized with
      | (s1, .error _) => s1
      | (s1, .ok p) =>
        let s2 := s1.settleLine (s.who l) (lineOf p.pa)
        let s3 := if drop then s2.dropLine s.issue.core (lineOf p.pa) else s2
        (s3.addStore (s.who l) (.line (lineOf p.pa)) 0).advanceLane l⟩

/-! ### Loads, atomics and reductions, 06 R124-R130, R151-R163 -/

/-- A load: bytes, sign extension, displacement, scope, order, address pair and destination. -/
structure LoadForm where
  n : Nat
  signed : Bool
  q : BitVec 4
  sc : BitVec 3
  o : BitVec 2
  a : BitVec 7
  v : BitVec 7

def loadForm : Instr → Option LoadForm
  | .ldN8 q sc o a v => some ⟨1, false, q, sc, o, a, v⟩
  | .ldS8 q sc o a v => some ⟨1, true, q, sc, o, a, v⟩
  | .ldN16 q sc o a v => some ⟨2, false, q, sc, o, a, v⟩
  | .ldS16 q sc o a v => some ⟨2, true, q, sc, o, a, v⟩
  | .ldB32 q sc o a v => some ⟨4, false, q, sc, o, a, v⟩
  | .ldB64 q sc o a v => some ⟨8, false, q, sc, o, a, v⟩
  | .ldB128 q sc o a v => some ⟨16, false, q, sc, o, a, v⟩
  | _ => none

/-- The registers a load is to write, from the first on: its bytes widened (R125). -/
def LoadForm.words (f : LoadForm) (t : Thread) (bs : List Byte) : List (Nat × Word) := numberFrom (t.absReg f.v.toNat) (widen f.signed bs)

/-- An atomic: operation, type, scope, order, address and operand. -/
structure AtomForm where
  op : Nat
  ty : BitVec 2
  sc : BitVec 3
  o : BitVec 2
  a : BitVec 7
  v : BitVec 7

def atomForm : Instr → Option AtomForm
  | .atomAdd t s r a v => some ⟨0, t, s, r, a, v⟩
  | .atomMinS t s r a v => some ⟨1, t, s, r, a, v⟩
  | .atomMaxS t s r a v => some ⟨2, t, s, r, a, v⟩
  | .atomMinN t s r a v => some ⟨3, t, s, r, a, v⟩
  | .atomMaxN t s r a v => some ⟨4, t, s, r, a, v⟩
  | .atomAnd t s r a v => some ⟨5, t, s, r, a, v⟩
  | .atomOr t s r a v => some ⟨6, t, s, r, a, v⟩
  | .atomXor t s r a v => some ⟨7, t, s, r, a, v⟩
  | .atomXchg t s r a v => some ⟨8, t, s, r, a, v⟩
  | .atomCas t s r a v => some ⟨9, t, s, r, a, v⟩
  | .atomFadd t s r a v => some ⟨10, t, s, r, a, v⟩
  | .atomFmin t s r a v => some ⟨11, t, s, r, a, v⟩
  | .atomFmax t s r a v => some ⟨12, t, s, r, a, v⟩
  | .atomBinc t s r a v => some ⟨13, t, s, r, a, v⟩
  | .atomWinc t s r a v => some ⟨14, t, s, r, a, v⟩
  | .atomDdecN t s r a v => some ⟨15, t, s, r, a, v⟩
  | .atomDdecS t s r a v => some ⟨16, t, s, r, a, v⟩
  | .atomLaddN t s r a v => some ⟨17, t, s, r, a, v⟩
  | .atomLaddS t s r a v => some ⟨18, t, s, r, a, v⟩
  | .atomLd t s r a v => some ⟨19, t, s, r, a, v⟩
  | _ => none

/-- The bytes of an operand, and of the memory that an atomic acts on: twice them for a limited add. -/
def AtomForm.width (f : AtomForm) : Nat := (atomWidth f.op f.ty.toNat).getD 4
def AtomForm.span (f : AtomForm) : Nat := if f.op = 17 ∨ f.op = 18 then 2 * f.width else f.width
def AtomForm.need (f : AtomForm) : Need := if f.op = 19 then .r else .rw
def AtomForm.fp (f : AtomForm) : Bool := decide (10 ≤ f.op) && decide (f.op ≤ 12)
def AtomForm.roles (f : AtomForm) : List Role := atomRoles f.op f.ty.toNat f.a f.v

/-- A reduction: operation, type, scope, order, address and operand. -/
structure RedForm where
  op : Nat
  ty : BitVec 2
  sc : BitVec 3
  o : BitVec 1
  a : BitVec 7
  v : BitVec 7

def redForm : Instr → Option RedForm
  | .redAdd t s r a v => some ⟨0, t, s, r, a, v⟩
  | .redMinS t s r a v => some ⟨1, t, s, r, a, v⟩
  | .redMaxS t s r a v => some ⟨2, t, s, r, a, v⟩
  | .redMinN t s r a v => some ⟨3, t, s, r, a, v⟩
  | .redMaxN t s r a v => some ⟨4, t, s, r, a, v⟩
  | .redAnd t s r a v => some ⟨5, t, s, r, a, v⟩
  | .redOr t s r a v => some ⟨6, t, s, r, a, v⟩
  | .redXor t s r a v => some ⟨7, t, s, r, a, v⟩
  | .redFadd t s r a v => some ⟨8, t, s, r, a, v⟩
  | .redFmin t s r a v => some ⟨9, t, s, r, a, v⟩
  | .redFmax t s r a v => some ⟨10, t, s, r, a, v⟩
  | .redFadda t s r a v => some ⟨11, t, s, r, a, v⟩
  | _ => none

def RedForm.width (f : RedForm) : Nat := (redWidth f.op f.ty.toNat).getD 4
def RedForm.roles (f : RedForm) : List Role := [storeRole f.v f.width, .src64 f.a]

/-- One lane's entry into an atomic or a reduction, when its checks pass. -/
def Thread.atomLane (t : Thread) (l : LaneRef) (a v : BitVec 7) (w : Nat) (p : Place) : AtLane :=
  ⟨l, (t.val64 a).toNat, p, natOf ((operandWords t v w).take (w / 4) |>.flatMap wordBytes),
    natOf ((operandWords t v w).drop (w / 4) |>.flatMap wordBytes)⟩
where
  operandWords (t : Thread) (v : BitVec 7) (w : Nat) : List Word :=
    if w = 4 then [t.val v, t.reg (t.absReg v.toNat + 1)]
    else if w = 8 then [lo32 (t.val64 v), hi32 (t.val64 v)] ++ t.regRun (t.absReg v.toNat + 2) 2
    else t.regRun (t.absReg v.toNat) 8

/-! ### Engine commands of one live thread -/

/-- A command added to a lane's copy engine: the release at the scope of the package, a serial number, and the command's
admission or its wait for its ranges (11 R266, R276). -/
def State.copySent (s : State) (l : LaneRef) (c : Cmd) : State :=
  let s1 := s.releaseAt (s.who l) 3
  let r := s1.nextCopy s1.issue.core
  r.1.issueCmd { c with cmdId := r.2 } [l]

/-- A multicast command that a lane adds to its copy engine. -/
def copying (roles : List Role) (checks : State → LaneRef → Thread → Prop) (cmd : State → LaneRef → Thread → Cmd) : SoloForm :=
  ⟨roles, fun s l t => checks s l t ∧ s.copiesOf s.issue.core < 64 ∧ (cmd s l t).awaitsSlot = false, fun s l t => s.copySent l (cmd s l t)⟩

/-- A tile command: its descriptor passes; after a release, its ring, where it names one, is sound; and the engine and the block's
held commands have room for it. -/
def tiling (sub : Nat) (tag : BitVec 6) (d : BitVec 7) : SoloForm :=
  ⟨[], fun s l t =>
      let s1 := s.releaseAt (s.who l) 3
      descField d = none ∧ ∃ desc r, s.tileDesc sub tag.toNat 0 t d = .ok desc ∧ s1.tileRing desc = .ok r ∧
        s1.copiesOf s1.issue.core < 64 ∧
        ((s1.tileCommand sub tag.toNat l t desc r).awaitsSlot = true → s1.heldMax s1.issue.core s1.issue.blk = false), fun s l t =>
    let s1 := s.releaseAt (s.who l) 3
    match s.tileDesc sub tag.toNat 0 t d with
    | .ok desc => match s1.tileRing desc with
      | .ok r => s1.copySent l (s1.tileCommand sub tag.toNat l t desc r)
      | .error _ => s1
    | .error _ => s⟩

/-- A wait on a mask of copy tags that reads the bitmap of ready tags: some thread state when it is met, else the hold. -/
def observing (m : BitVec 2) (roles : List Role) (cnt : Option (BitVec 7)) (d : BitVec 7) (met : Nat → Nat → Bool) (hit : Nat → Nat → Bool)
    (w : Nat → Wait) (eff : Nat → Thread → Thread) : SoloForm :=
  ⟨roles ++ [.src64 d], fun s _ t => m.toNat ≠ 3 ∧ descField d = none ∧ cnt.bind cntDest = none ∧
      ∃ b, s.block? s.issue.core s.issue.blk = some b ∧ (t.val64 d).toNat < 2 ^ b.ntags, fun s l t =>
    let map := ((s.block? s.issue.core s.issue.blk).map (·.readyMap)).getD 0
    let mask := (t.val64 d).toNat
    if met map mask then (s.observed m l (hit map mask)).modLane l fun t => (eff (Nat.land map mask) t).advance 4
    else s.setLane l (t.hold (w mask))⟩

/-- A ring instruction: its header read, after the earlier stores of its lanes to it, and sound. -/
def ringing (word : Option (Nat × Nat)) (extra : List Role) (d : BitVec 7) (f : State → List LaneRef → Ring → State) : GroupForm where
  roles := [.src64 d]
  word := firstSome [descField d, word] = none
  enters _ := True
  same t v := t.val64 d = v.val64 d
  cause := 4
  sub := 0x10
  ok s t ps := (∀ p ∈ ps, check p.2 extra = none) ∧ ∃ r, ring s t ps = .ok r
  eff s t ps :=
    match ring s t ps with
    | .ok r => f (settled s t ps) (ps.map (·.1)) r
    | .error _ => settled s t ps
where
  settled (s : State) (t : Thread) (ps : List (LaneRef × Thread)) : State :=
    match ringPlace (s.ctxOf s.issue.core s.issue.blk) (t.val64 d).toNat with
    | some pa => (liveOf ps).foldl (fun s l => s.settleLine (s.who l) (lineOf pa)) s
    | none => s
  ring (s : State) (t : Thread) (ps : List (LaneRef × Thread)) : Except Nat Ring :=
    (settled s t ps).ringAt (s.ctxOf s.issue.core s.issue.blk) (t.val64 d).toNat (((s.block? s.issue.core s.issue.blk).map (·.ntags)).getD 0)

/-- The wait for a filled slot, which gives its number; a helper lane receives 0. -/
def awaiting (c d : BitVec 7) : GroupForm :=
  ringing (cntDest c) [.dst c] d fun s ls r =>
    if r.filled = 0 then (ls.filter fun l => !l.helper).foldl (fun s l => s.modLane l fun t => t.hold (.awaitf r.place)) s
    else ls.foldl (fun s l => (if l.helper then s else s.acquireAt (s.who l) 1).modLane l fun t =>
      (t.setVal c (if l.helper then 0 else BitVec.ofNat 32 (r.rs % r.nslot))).advance 4) s

/-- The release of the oldest slot. -/
def releasing (d : BitVec 7) : GroupForm :=
  ringing none [] d fun s ls r =>
    (((ls.filter fun l => !l.helper).foldl (fun s l => s.releaseAt (s.who l) 1) s).putBytes (r.place + 4) (leOf 4 (r.rs + 1))).advanceAll ls

/-- The copy engine: 11 R268-R280. -/
def copyForm : Instr → Option SoloForm
  | .cpl m tag d => some ⟨[], fun s _ t => m.toNat ≠ 3 ∧ descField d = none ∧ s.badTag tag.toNat = none ∧ t.absReg d.toNat % 2 = 0 ∧
        runCheck t d 4 = none ∧ (s.cplCheck (4 * 2 ^ m.toNat) (pairAt (descRun t d 4) 0) (pairAt (descRun t d 4) 2)).2 = none ∧
        (let s1 := (s.cplCheck (4 * 2 ^ m.toNat) (pairAt (descRun t d 4) 0) (pairAt (descRun t d 4) 2)).1; s1.copiesOf s1.issue.core < 64),
      fun s l t =>
        let w := descRun t d 4
        ((s.cplCheck (4 * 2 ^ m.toNat) (pairAt w 0) (pairAt w 2)).1).sendLanes m.toNat tag.toNat [(l, pairAt w 0, pairAt w 2)]⟩
  | .cpt tag d => some (tiling 1 tag d)
  | .cptr tag d => some (tiling 2 tag d)
  | .cptc tag d => some (tiling 3 tag d)
  | .cpml tag c d =>
    some (copying [.src c]
      (fun s _ t => descField d = none ∧
        firstSome (maskStop (t.val c).toNat s.issueLaunch.rcd.cblk) = none ∧ ∃ desc, s.tileDesc 4 tag.toNat 0 t d = .ok desc)
      fun s l t => match s.tileDesc 4 tag.toNat 0 t d with
        | .ok desc => s.multicast l t 4 tag.toNat desc (t.val c).toNat (tileOf desc).bbase (tileOf desc).tensorSpan (tileOf desc).bytes
        | .error _ => s.laneCmd l t 25 4 0 tag.toNat [])
  | .cpms tag c d =>
    some (copying [.src c]
      (fun s _ t => descField d = none ∧ runCheck t d 9 = none ∧
        firstSome (maskStop (t.val c).toNat s.issueLaunch.rcd.cblk ++ sliceStop (descRun t d 9) ++
          [(s.badTag tag.toNat).map plainStop, sliceAlign (descRun t d 9)]) = none)
      fun s l t =>
        let w := descRun t d 9
        s.multicast l t 5 tag.toNat w (t.val c).toNat (pairAt w 2)
          (some (sliceSpan w ((List.range 16).filter fun i => bitOf (t.val c).toNat i).length)) ((wordAt w 4).toNat + (wordAt w 5).toNat))
  | .expect tag d => some ⟨[.src d], fun s _ t => descField d = none ∧ ∃ b, s.block? s.issue.core s.issue.blk = some b ∧
        tag.toNat < b.ntags ∧ (b.tagAt tag.toNat).balance + ((t.val d).toNat : Int) ≤ tagMax, fun s l t =>
      ((s.modIssueBlock fun b =>
        let g := b.tagAt tag.toNat
        { b with tags := sput b.tags tag.toNat { g with balance := g.balance + ((t.val d).toNat : Int), armed := true } }).advanceLane l)⟩
  | .wany m c d => some (observing m [.dst64 c] (some c) d (fun map mask => decide (Nat.land map mask ≠ 0) || decide (mask = 0))
      (fun map mask => decide (Nat.land map mask ≠ 0)) .wany fun x t => t.setVal64 c (BitVec.ofNat 64 x))
  | .wall m d => some (observing m [] none d (fun map mask => decide (Nat.land map mask = mask)) (fun _ mask => decide (mask ≠ 0)) .wall
      fun _ t => t)
  | .ffrdy m c d => some (observing m [.dst c] (some c) d (fun _ _ => true) (fun map mask => decide (Nat.land map mask ≠ 0)) .wany
      fun x t => t.setVal c (lowestBit x))
  | .awaitf c d => some (awaiting c d).solo
  | .relslot d => some (releasing d).solo
  | _ => none

/-- A gather or scatter command: its words are sound, and fewer than 32 are in flight. Its live lanes release, and wait with it. -/
def gathering (sub : Nat) (tag : BitVec 6) (c d : BitVec 7) : GroupForm where
  roles := [.src c]
  word := firstSome [descField d, (Role.src c).illegal] = none
  enters t := runBeyond t d 13 = none
  same t v := descRun t d 13 = descRun v d 13 ∧ t.val c = v.val c
  cause := 0x10
  sub := 0x50
  ok s t ps :=
    let g := gsOf sub (t.val c).toNat (descRun t d 13)
    g.check s.issueLaunch.rcd.regs (s.badTag tag.toNat) = none ∧ s.gathersOf s.issue.core < 32 ∧
      ∀ p ∈ ps, runPoison p.2 d 13 = none ∧ g.poisonOf p.2 = none
  eff s t ps :=
    let cnt := (t.val c).toNat
    let desc := descRun t d 13
    let g := gsOf sub cnt desc
    let live := liveOf ps
    let s1 := live.foldl (fun s l => s.releaseAt (s.who l) 3) s
    let k := s1.coreAt s1.issue.core
    let s2 := s1.setCore s1.issue.core { k with gseSerial := k.gseSerial + 1 }
    match ps with
    | [] => s2
    | q :: _ =>
      let base := s2.laneCmd q.1 q.2 26 sub 0 tag.toNat desc
      s2.issueCmd { base with
        cnt := BitVec.ofNat 32 cnt
        cmdId := engineId s2.issue.core k.gseSerial
        thr := (live.headD q.1).idx
        lanes := live.map fun l => (l.idx, 0)
        regs := g.lreg && !g.scatter
        words := ((List.range cnt).filterMap fun j => (g.element ps j).map fun w => (j, w)).filter fun p =>
          !(g.fromMem && !(g.scatter && g.lreg)) || p.2 != []
        locks := g.locks (s2.ctxOf s2.issue.core s2.issue.blk) base.id } live

/-- A look at a gather's tag: the trailer's status word once the tag is ready and its read is granted, in a mode that does not
trap or with no fault. -/
def polling (m : BitVec 2) (tag : BitVec 6) (c d : BitVec 7) (idle : State → LaneRef → Thread → State) : SoloForm :=
  ⟨[.dst c, .src64 d], fun s l t => m.toNat ≠ 3 ∧ descField d = none ∧ cntDest c = none ∧ s.badTag tag.toNat = none ∧
      ∃ b, s.block? s.issue.core s.issue.blk = some b ∧ ((b.tagAt tag.toNat).ready = true →
        ∃ st, (seen s l t).2 = .ok st ∧ (bitOf st.1 1 && bitOf st.1 4) = false), fun s l t =>
    if ((s.block? s.issue.core s.issue.blk).map fun b => (b.tagAt tag.toNat).ready).getD false then
      match seen s l t with
      | (s1, .ok st) => s1.modLane l fun t => (t.setVal c (BitVec.ofNat 32 st.1)).advance 4
      | (s1, .error _) => s1
    else idle s l t⟩
where
  seen (s : State) (l : LaneRef) (t : Thread) : State × Except Stop (Nat × Nat) :=
    (s.acquireAt (s.who l) (tagScope m)).readTrailer m l (t.val64 d).toNat

/-- The gather-scatter engine: 12 R285-R299. -/
def gatherForm : Instr → Option SoloForm
  | .gsg tag c d => some (gathering 0 tag c d).solo
  | .gsgm tag c d => some (gathering 1 tag c d).solo
  | .gss tag c d => some (gathering 2 tag c d).solo
  | .gssm tag c d => some (gathering 3 tag c d).solo
  | .gswt m tag c d => some (polling m tag c d fun s l t => s.setLane l (t.hold (.gswt tag.toNat)))
  | .gspoll m tag c d => some (polling m tag c d fun s l t => s.setLane l ((t.setVal c 0).advance 4))
  | _ => none

/-- A token instruction: its region is there and meets what the instruction asks of it. -/
def region (a : BitVec 7) (ok : State → Region → Prop) (f : State → List LaneRef → Region → State) : GroupForm where
  roles := [.src a]
  word := mxSource a = none
  enters _ := True
  same t v := t.val a = v.val a
  cause := 0x10
  sub := 0x20
  ok s t _ := ∃ b r, s.block? s.issue.core s.issue.blk = some b ∧ b.region? (t.val a).toNat = some r ∧ ok s r
  eff s t ps :=
    match (s.block? s.issue.core s.issue.blk).bind fun b => b.region? (t.val a).toNat with
    | some r => f s (ps.map (·.1)) r
    | none => s

def freeing (a : BitVec 7) : GroupForm :=
  region a (fun s r => r.token = .block ∧ s.regionBusy s.issue.core s.issue.blk r.handle = false) fun s ls r =>
    (s.modIssueBlock fun b => { b with regions := b.regions.filter fun x => x.handle != r.handle }).advanceAll ls

def acquiring (a : BitVec 7) : GroupForm :=
  region a (fun _ _ => True) fun s ls r =>
    if r.token = .block then s.advanceAll ls
    else if s.regionBusy s.issue.core s.issue.blk r.handle then
      (ls.filter fun l => !l.helper).foldl (fun s l => s.modLane l fun t => t.hold (.aacq r.handle)) s
    else (s.modIssueBlock fun b => b.modRegion r.handle fun x => { x with token := .block }).advanceAll ls

def yielding (a : BitVec 7) : GroupForm :=
  region a (fun _ _ => True) fun s ls r =>
    (((ls.filter fun l => !l.helper).foldl (fun s l => s.releaseAt (s.who l) 1) s).modIssueBlock fun b =>
      b.modRegion r.handle fun x => { x with token := .engine }).advanceAll ls

def zeroing (a : BitVec 7) : GroupForm :=
  region a (fun _ r => r.token = .block) fun s ls r =>
    (s.modIssueBlock fun b => b.modRegion r.handle fun x => { x with acc := (List.range x.size).map fun i => (i, 0#40) }).advanceAll ls

/-- A request for accumulator units. -/
def allocating (p : BitVec 6) (a d : BitVec 7) : GroupForm where
  roles := [.src a, .dst d]
  word := firstSome [mxSource a, (Role.dst d).illegal, (Role.pdst p).illegal] = none
  enters _ := True
  same t v := t.val a = v.val a
  cause := 0x10
  sub := 0x20
  ok s t _ := (t.val a).toNat ≠ 0 ∧ (t.val a).toNat ≤ 64 ∧ (s.block? s.issue.core s.issue.blk).isSome = true
  eff s t ps :=
    match s.block? s.issue.core s.issue.blk with
    | some b => s.askAcc b { blk := s.issue.blk, lanes := ps.map (·.1), units := (t.val a).toNat, d := d, p := p.toNat }
    | none => s

/-- A sign of a matrix operation that the phase takes: its register is there, no earlier phase drains, and every check passes. -/
def signing (mem : Bool) (z p w : BitVec 1) (k : BitVec 4) (d : BitVec 7) : SoloForm :=
  ⟨[], fun s l t => ∃ b c home, s.block? s.issue.core s.issue.blk = some b ∧
      (s.signAt b l t (bit1 p) k.toNat).cv = some c ∧ s.signHome b (bit1 p) = some home ∧ c.draining = false ∧
      signChecks (s.signAt b l t (bit1 p) k.toNat) t d mem (bit1 z) (bit1 p) = none, fun s l t =>
    match s.block? s.issue.core s.issue.blk with
    | none => s
    | some b =>
      match (s.signAt b l t (bit1 p) k.toNat).cv, s.signHome b (bit1 p) with
      | some c, some home => s.takeSign mem (bit1 z) (bit1 p) (bit1 w) k.toNat d false l t c (pairOdd b (bit1 p)) home
      | _, _ => s⟩

/-- The matrix engine: 13 R313, R326, R328, R332. -/
def matrixForm : Instr → Option SoloForm
  | .mma z p w k d => some (signing false z p w k d)
  | .mmam z p w k d => some (signing true z p w k d)
  | .aalloc p a d => some (allocating p a d).solo
  | .afree a => some (freeing a).solo
  | .aacq a => some (acquiring a).solo
  | .arel a => some (yielding a).solo
  | .azero a => some (zeroing a).solo
  | .mtag b a d => some ⟨[.dst d, .src64 a, .src b], fun s _ t =>
        let ta := (lo32 (t.val64 a)).toNat
        let tb := (hi32 (t.val64 a)).toNat
        let f := (t.val b).toNat
        firstSome [mxSource a, mxSource b] = none ∧ tagReserved ta = false ∧ tagReserved tb = false ∧ fmtReserved f = false ∧
          tagChecks s.issueLaunch ta tb (bitOf f 18) (bitOf f 19) = none, fun s l t =>
      let ta := (lo32 (t.val64 a)).toNat
      let tb := (hi32 (t.val64 a)).toNat
      let f := (t.val b).toNat
      s.setLane l ((t.setVal d (BitVec.ofNat 32 (65536 * (if bitOf f 18 then ta % 65536 else ta / 65536) +
        (if bitOf f 19 then tb % 65536 else tb / 65536)))).advance 4)⟩
  | _ => none

/-- The load of a record for the group: an aligned address whose three parts are granted, met by no watchpoint; each live lane
receives the bytes of each part, and a helper lane zeros. -/
def recordLoad (sc : BitVec 3) (a d : BitVec 7) : GroupForm where
  roles := [.src64 a]
  word := sc.toNat < 5 ∧ ¬(116 ≤ a.toNat ∧ a.toNat < 124) ∧ (Role.src64 a).illegal = none ∧ sbRunD d = none
  enters _ := True
  same t v := t.val64 a = v.val64 a
  cause := 0x10
  sub := 0x70
  ok s t ps := (∀ p ∈ ps, runBeyond p.2 d 12 = none) ∧ (t.val64 a).toNat % 16 = 0 ∧
    ∃ l0 rest places, liveOf ps = l0 :: rest ∧ ((zeroed s ps).recordPlaces (s.who l0) (t.val64 a).toNat sc.toNat).2 = .ok places ∧
      (((zeroed s ps).recordPlaces (s.who l0) (t.val64 a).toNat sc.toNat).1.watchLanes (liveOf ps) (t.val64 a).toNat 48).2 = liveOf ps
  eff s t ps :=
    let va := (t.val64 a).toNat
    let live := liveOf ps
    match live with
    | [] => zeroed s ps
    | l0 :: _ =>
      match (zeroed s ps).recordPlaces (s.who l0) va sc.toNat with
      | (s1, .error _) => s1
      | (s1, .ok places) =>
        let s2 := (s1.watchLanes live va 48).1
        let s3 := places.foldl (fun s p => live.foldl (fun s l => s.settleLine (s.who l) (lineOf p.pa)) s) s2
        live.foldl (fun s l => s.advanceLane l) (places.zipIdx.foldl (fun s p =>
          let r := (s.noteSize (s.who l0) p.1 16 (sizedAt sc.toNat)).loadAs (s.who l0) p.1 16 0 sc.toNat
          live.foldl (fun s l => s.sendPart l d p.2 r.2.1 r.2.2 va (lineOf p.1.pa)) r.1) s3)
where
  zeroed (s : State) (ps : List (LaneRef × Thread)) : State :=
    (ps.filter fun p => p.1.helper).foldl (fun s p => s.modLane p.1 fun t =>
      (t.setRegs (t.absReg d.toNat) (List.replicate 12 0)).advance 4) s

/-- The splat blend unit: 16 R386-R395. -/
def splatForm : Instr → Option SoloForm
  | .sproj a d => some ⟨[.rw a 9, .also d 9], fun _ _ _ => sbRunA a = none ∧ sbRunD d = none, fun s l t =>
      s.setLane l ((t.setRegs (t.absReg d.toNat) (sbProject (t.regRun (t.absReg a.toNat) 9) s.camera)).advance 4)⟩
  | .skey b a d => some ⟨[.src a, .src b, .dst64 d], fun _ _ _ => sbSrc a = none ∧ sbSrc b = none ∧ sbDst d = none, fun s l t =>
      s.setLane l ((t.setVal64 d (BitVec.ofNat 64 ((t.val a).toNat % 2 ^ 24 * 2 ^ 40 + (t.val b).toNat * 2 ^ 8 + t.idx % 256))).advance 4)⟩
  | .sinit a => some ⟨[.src a], fun _ _ _ => sbSrc a = none, fun s l t =>
      s.setLane l (({ t with pixel := { trans := 0x3F800000, pix := t.val a, ctl := 0x04000000 } } : Thread).advance 4)⟩
  | .sinitr => some ⟨[], fun _ _ t => t.helper = false, fun s l t =>
      s.setLane l (({ t with pixel := { t.pixel with col := [0, 0, 0], ctl := (t.pixel.ctl &&& 0xFEFFFFFF#32) ||| 0x02000000#32 } } :
        Thread).advance 4)⟩
  | .srd d => some ⟨[.also d 8], fun _ _ _ => sbRunD d = none, fun s l t =>
      s.setLane l ((t.setRegs (t.absReg d.toNat) t.pixel.words).advance 4)⟩
  | .swr a => some ⟨[.rw a 8], fun _ _ t => sbRunA a = none ∧ nth (t.regRun (t.absReg a.toNat) 8) 7 0 = 0 ∧
        (nth (t.regRun (t.absReg a.toNat) 8) 5 0).toNat < 2 ^ 27, fun s l t =>
      s.setLane l (({ t with pixel := pixelOf (t.regRun (t.absReg a.toNat) 8) } : Thread).advance 4)⟩
  | .sload sc a d => some (recordLoad sc a d).solo
  | .sblend b a d => some ⟨[.rw a 12, .src b, .dst d], fun _ _ t => sbRunA a = none ∧ sbSrc b = none ∧ sbDst d = none ∧
        (t.val b).toNat < 0x00FFFFFF, fun s l t =>
      let r := t.pixel.blend (t.regRun (t.absReg a.toNat) 12) (t.val b).toNat (nth s.camera 15 0)
      s.setLane l (({ t with pixel := r.1 }.setVal d r.2).advance 4)⟩
  | .sgrad b a d => some ⟨[.rw a 12, .src b, .rw d 3, .also d 12], fun _ _ t => sbRunA a = none ∧ sbSrc b = none ∧ sbRunD d = none ∧
        (t.val b).toNat < 0x00FFFFFF, fun s l t =>
      let r := t.absReg d.toNat
      let x := t.pixel.grad (t.regRun (t.absReg a.toNat) 12) (t.regRun r 3) (t.val b).toNat
      s.setLane l (({ t with pixel := x.1 }.setRegs (r + 3) x.2).advance 4)⟩
  | _ => none

/-- A sort command that its engine and its block have room for. -/
def sorting (sub mode : Nat) (tag : BitVec 6) (c d : BitVec 7) : SoloForm :=
  ⟨[.src c], fun s _ t =>
      let k := kseOf sub mode (descRun t d (kseRegs mode))
      descField d = none ∧ runCheck t d (kseRegs mode) = none ∧ k.early = none ∧ s.badTag tag.toNat = none ∧ k.late = none ∧
        (s.kseQueue (dieOf s.issue.core)).length < 64 ∧ s.heldFull k.tick = false, fun s l t =>
    let desc := descRun t d (kseRegs mode)
    let r := (s.releaseAt (s.who l) 3).nextKse s.issue.core
    (r.1.queueCmd { r.1.laneCmd l t 30 sub mode tag.toNat desc with
      cnt := t.val c, tick := BitVec.ofNat 64 (kseOf sub mode desc).tick, cmdId := r.2 }).advanceLane l⟩

/-- A collective command of a launch that has lost no rank, with room for it in its block. -/
def joining (sub : Nat) (tag : BitVec 6) (c d : BitVec 7) : SoloForm :=
  ⟨[.dst c, .rw d 12], fun s _ t =>
      let k := collOf sub (descRun t d 12)
      descField d = none ∧ cntDest c = none ∧ t.absReg d.toNat % 2 = 0 ∧ runCheck t d 12 = none ∧ k.early = none ∧ s.badTag tag.toNat = none ∧ k.late = none ∧
        s.issueLaunch.lostRanks = [] ∧ s.heldMax s.issue.core s.issue.blk = false, fun s l t =>
    (s.releaseAt (s.who l) 4).acceptColl sub tag.toNat c d l t⟩

/-- A command for a unit of the device: its fields pass, and it acts after a release at the scope of the package. -/
def device (tag : Option (BitVec 6)) (c d : BitVec 7) (roles : List Role) (ok : State → State → LaneRef → Thread → Prop)
    (eff : State → State → LaneRef → Thread → State) : SoloForm :=
  ⟨Role.dst c :: roles, fun s l t => descField d = none ∧ cntDest c = none ∧ (∀ k, tag = some k → s.badTag k.toNat = none) ∧
      ok s (s.releaseAt (s.who l) 3) l t, fun s l t => eff s (s.releaseAt (s.who l) 3) l t⟩

/-- A launch that a lane posts: its record is read, its queue takes it, and the lane waits for its acceptance. -/
def posting (tag : Option (BitVec 6)) (c d : BitVec 7) : SoloForm :=
  device tag c d [.src64 d, .rw d 3] (fun s s0 l t => ∃ bs, (s0.readPosted (s.who l) (t.val64 d).toNat).2 = .ok bs ∧
      (let s1 := (s0.readPosted (s.who l) (t.val64 d).toNat).1; s1.postable (queue t) s1.issueLaunch.asid = true)) fun s s0 l t =>
    match s0.readPosted (s.who l) (t.val64 d).toNat with
    | (s1, .error _) => s1
    | (s1, .ok bs) =>
      (s1.postRecord (tag.map (·.toNat)) (queue t) c (s.who l) bs).modLane l fun t => t.hold (.held .post)
where
  queue (t : Thread) : Nat := (t.reg (t.absReg d.toNat + 2)).toNat

/-- A fixer kernel that a lane dispatches: its payload is read and accepted. -/
def dispatching (tag : Option (BitVec 6)) (c d : BitVec 7) : SoloForm :=
  device tag c d [.src64 d] (fun s s0 l t => ∃ bs, (s0.readPosted (s.who l) (t.val64 d).toNat).2 = .ok bs ∧
      (((s0.readPosted (s.who l) (t.val64 d).toNat).1).dispatchFrom (tag.map (·.toNat)) (t.val64 d).toNat bs).2 = .accepted) fun s s0 l t =>
    match s0.readPosted (s.who l) (t.val64 d).toNat with
    | (s1, .error _) => s1
    | (s1, .ok bs) =>
      ((s1.dispatchFrom (tag.map (·.toNat)) (t.val64 d).toNat bs).1).modLane l fun t => (t.setVal c 1).advance 4

/-- A thread that a lane spawns into a bin that takes it. -/
def spawning (now : Bool) (n : BitVec 3) (c d : BitVec 7) : SoloForm :=
  device none c d [.src64 d, .rw d (2 + n.toNat)] (fun _ s0 _ t => n.toNat ≤ 4 ∧ (t.val64 d).toNat % 2 = 0 ∧
      (s0.spawnThread now (t.val64 d) (t.regRun (t.absReg d.toNat + 2) n.toNat)).2 = true) fun _ s0 l t =>
    (s0.spawnThread now (t.val64 d) (t.regRun (t.absReg d.toNat + 2) n.toNat)).1.modLane l fun t => (t.setVal c 1).advance 4

/-- Sorts, collectives, and the commands to the device: 09 R227-R229; 14 R358, R362; 15 R370-R377; 17 R404-R410. -/
def deviceForm : Instr → Option SoloForm
  | .kemit c d => some ⟨[.dst64 c, .src64 d, .rw d 5], fun s l t => descField d = none ∧ cntDest c = none ∧
        t.full = false ∧ ∃ r, (s.emitHeader [s.who l] (pairAt (descRun t d 5) 0)).2 = .ok r, fun s l t =>
      let w := descRun t d 5
      match s.emitHeader [s.who l] (pairAt w 0) with
      | (s1, .error _) => s1
      | (s1, .ok (p, r)) =>
        let s2 := s1.homeWrite (p.pa + 16) (leOf 8 (r.cnt + 1))
        let slot := r.cnt % 2 ^ 64
        let rcd := wordBytes (wordAt w 2) ++ wordBytes (wordAt w 3) ++ wordBytes (wordAt w 4) ++ leOf 4 0
        (if slot < r.cap then s2.emitStore (s2.who l) ((r.rbase + 16 * slot) % 2 ^ 64) rcd else s2).modLane l fun t =>
          (t.setVal64 c (BitVec.ofNat 64 slot)).advance 4⟩
  | .ksort tag c d => some (sorting 1 0 tag c d)
  | .ksortBat tag c d => some (sorting 1 1 tag c d)
  | .ksel tag c d => some (sorting 2 0 tag c d)
  | .kselBat tag c d => some (sorting 2 1 tag c d)
  | .kcs tag c d => some (sorting 3 0 tag c d)
  | .ocomp tag c d => some (joining 4 tag c d)
  | .ored tag c d => some (joining 5 tag c d)
  | .cbar tag c d => some (joining 6 tag c d)
  | .cfail c d => some ⟨[.dst c, .src d], fun _ _ _ => descField d = none ∧ cntDest c = none, fun s l t =>
      (((s.releaseAt (s.who l) 4).reportLoss (t.val d)).modLane l fun t => (t.setVal c 1).advance 4)⟩
  | .launch c d => some (posting none c d)
  | .launchSig tag c d => some (posting (some tag) c d)
  | .spawn n c d => some (spawning false n c d)
  | .spawnNow n c d => some (spawning true n c d)
  | .tgsig c d => some (device none c d [.src d] (fun _ s0 l _ => ∃ q, sget s0.queues s0.issueLaunch.queue = some q ∧
        ((s0.decAndGo s0.issueLaunch.queue q (nodeOf s0 l d)).2.1 = .lowered ∨
          (s0.decAndGo s0.issueLaunch.queue q (nodeOf s0 l d)).2.1 = .zero)) fun _ s0 l _ =>
      match sget s0.queues s0.issueLaunch.queue with
      | none => s0
      | some q =>
        let r := s0.decAndGo s0.issueLaunch.queue q (nodeOf s0 l d)
        (r.1.graph r.2.2).modLane l fun t => (t.setVal c 1).advance 4)
  | .binflush c d => some (device none c d [.src64 d] (fun _ s0 _ t =>
        ∃ x, (s0.coreAt s0.issue.core).binOf s0.issueLaunch.id (t.val64 d) false = some x) fun _ s0 l t =>
      let k := s0.coreAt s0.issue.core
      match k.binOf s0.issueLaunch.id (t.val64 d) false with
      | none => s0
      | some (n, b) =>
        ((s0.setCore s0.issue.core { k with bins := sput k.bins n { b with closed := true, closedAt := s0.nextId } }).fresh).modLane l fun t =>
          (t.setVal c (BitVec.ofNat 32 b.threads.length)).advance 4)
  | .fxrun c d => some (dispatching none c d)
  | .fxrunSig tag c d => some (dispatching (some tag) c d)
  | .fxabort c d => some (device none c d [.src64 d] (fun _ _ _ _ => True) fun _ s0 l t =>
      let r := s0.abortPayload (t.val64 d).toNat
      r.1.modLane l fun t => (t.setVal c (BitVec.ofNat 32 r.2)).advance 4)
  | _ => none
where
  nodeOf (s0 : State) (l : LaneRef) (d : BitVec 7) : Nat := match s0.lane? l with | some u => (u.val d).toNat | none => 0

/-! ### Conversions and accumulator moves of one live thread, 10 R251-R261; 13 R329-R331 -/

/-- A group-wide conversion: its control word, its runs, its seed and its operands pass. -/
def converting (n : BitVec 1) (d a b : BitVec 7) (plan : Ccw → CvPlan) (res : RunResult) : GroupForm where
  roles := [.src64 b]
  word := firstSome [cvtSource b, cvtRun a, (Role.dst d).illegal] = none
  enters _ := True
  same t v := t.val64 b = v.val64 b ∧ mode t = mode v
  cause := 0x10
  sub := 0x20
  ok s t ps :=
    let c := ccwOf (lo32 (t.val64 b)) (hi32 (t.val64 b))
    c.reserved = false ∧ (plan c).bad = none ∧ halfFault s.issueLaunch c.tag false = none ∧
      ∀ p ∈ ps, runBeyond p.2 a (plan c).aRegs = none ∧ runBeyond p.2 d (plan c).dRegs = none ∧ cvPoison p.2 a d (plan c) = none
  eff s t ps :=
    let c := ccwOf (lo32 (t.val64 b)) (hi32 (t.val64 b))
    ps.foldl (fun u p => u.modLane p.1 fun v =>
      let x := res c (rsMode c.rs (mode t)) s.issueLaunch ps v
      v.finishRun (bit1 n) d x.1 x.2) s
where
  /-- The rounding mode of a lane, where the control word names that of FPCTL. -/
  mode (t : Thread) : Nat := if (lo32 (t.val64 b)).toNat / 1024 % 2 = 1 then t.fpctl.toNat % 4 else 0

/-- A move between a region's accumulators and a run of registers. -/
def moving (word : Option (Nat × Nat)) (roles : List Role) (d : BitVec 7) (key : Thread → Word × Dword × Nat) (plan : Word → Dword → MovePlan)
    (eff : State → List (LaneRef × Thread) → Region → Word → Dword → Nat → State) : GroupForm where
  roles := roles
  word := word = none
  enters _ := True
  same t v := key t = key v
  cause := 0x10
  sub := 0x20
  ok s t ps :=
    let k := key t
    let p := plan k.1 k.2.1
    p.reserved = false ∧ p.bad = none ∧ halfFault s.issueLaunch p.tag false = none ∧
      (∀ q ∈ ps, (p.pair = true → q.2.absReg d.toNat % 2 = 0) ∧ runBeyond q.2 d p.dRegs = none ∧
        ∀ i ∈ p.reads, sget q.2.poison (q.2.absReg d.toNat + i) = none) ∧
      ∃ b r, s.block? s.issue.core s.issue.blk = some b ∧ accFault b k.1.toNat p.accs = none ∧ b.region? (k.1.toNat % 64) = some r
  eff s t ps :=
    let k := key t
    match (s.block? s.issue.core s.issue.blk).bind fun b => b.region? (k.1.toNat % 64) with
    | some r => eff s ps r k.1 k.2.1 k.2.2
    | none => s

def reading (b a d : BitVec 7) : GroupForm :=
  moving (firstSome [mxSource a, mxSource b, (Role.dst d).illegal]) [.src a, .src64 b] d (ardKey a b) ardPlan (ardMove d)

def writing (b a d : BitVec 7) : GroupForm :=
  moving (firstSome [mxSource a, mxSource b, mxRun d]) [.src a, .src64 b] d (fun t => (t.val a, t.val64 b, 0)) awrPlan (awrMove d)

def saving (k : BitVec 3) (a d : BitVec 7) : GroupForm :=
  moving (firstSome [mxSource a, (Role.dst d).illegal]) [.src a] d (fun t => (t.val a, 0, 0))
    (fun acc _ => imagePlan (k.toNat + 1) acc false) (asvMove k.toNat d)

def restoring (k : BitVec 3) (a d : BitVec 7) : GroupForm :=
  moving (firstSome [mxSource a, mxRun d]) [.src a] d (fun t => (t.val a, 0, 0))
    (fun acc _ => imagePlan (k.toNat + 1) acc true) (arstMove k.toNat d)

def converterForm : Instr → Option SoloForm
  | .cvt n b a d => some ⟨[], fun _ _ t => t.atAnchor = false ∧ cvtCheck t d a b = none, fun s l t =>
      let c := ccwOf (t.val b) 0
      let r := convertElem c.wt c.nt (rsMode c.rs (t.fpctl.toNat % 4)) (rsSat c.rs) (cvtBits t c.wt a)
      let reads := readsLatch [.src b, cvtSrc c.wt a]
      let u := t.finish 4 (cvtDst c.nt d) (bit1 n) reads (BitVec.ofNat 64 r.1) r.2
      s.setLane l (if reads then u else { u with anchorPair := typePair c.nt })⟩
  | .qnt n b a d => some (converting n d a b qntPlan (qntResult a d)).solo
  | .dqnt n b a d => some (converting n d a b dqntPlan (dqntResult a)).solo
  | .qscl n b a d => some (converting n d a b qsclPlan (qsclResult a d)).solo
  | .rot n b a d => some (converting n d a b rotPlan (rotResult false a)).solo
  | .irot n b a d => some (converting n d a b rotPlan (rotResult true a)).solo
  | .seed n k a d => some ⟨[.dst d, .src64 a], fun _ _ t => t.atAnchor = false ∧ cvtSource a = none, fun s l t =>
      let g := nextGen (s.issueLaunch.seedAt k.toNat).gen
      (s.writeSeed k.toNat ⟨t.val64 a, g⟩).modLane l fun t => t.finish 4 (.r32 d) (bit1 n) false (BitVec.ofNat 64 g) 0⟩
  | .seedr n k a d => some ⟨[.dst d, .src64 a, .rw d 1], fun _ _ t => t.atAnchor = false ∧ cvtSource a = none, fun s l t =>
      let g := (t.val d).toNat % 256
      (s.writeSeed k.toNat ⟨t.val64 a, g⟩).modLane l fun t => t.finish 4 (.r32 d) (bit1 n) false (BitVec.ofNat 64 g) 0⟩
  | .tagmk n a d => some ⟨[.dst d, .src a], fun _ _ t => t.atAnchor = false ∧ cvtSource a = none, fun s l t =>
      let x := (t.val a).toNat
      s.modLane l fun t => t.finish 4 (.r32 d) (bit1 n) false
        (BitVec.ofNat 64 (tagHalf s.issueLaunch (x % 65536) + 65536 * tagHalf s.issueLaunch (x / 65536))) 0⟩
  | .sgen n k a d => some ⟨[.dst64 d, .src64 a], fun s _ t => t.atAnchor = false ∧ cvtSource a = none ∧ (s.issueLaunch.seedAt k.toNat).gen ≠ 0, fun s l t =>
      s.modLane l fun u => u.finish 4 (.r64 d) (bit1 n) false (rotGen (s.issueLaunch.seedAt k.toNat).val (t.val64 a)) 0⟩
  | .ard b a d => some (reading b a d).solo
  | .awr b a d => some (writing b a d).solo
  | .asv k a d => some (saving k a d).solo
  | .arst k a d => some (restoring k a d).solo
  | _ => none

/-! ### Fixer instructions, 14 R346-R353 -/

/-- A fixer executes an instance of a kernel. -/
structure State.Fixing (s : State) (k : Kernel) (x : FxInst) : Prop where
  kernel : s.fxKernel = some k
  inst : sget k.insts s.fx.2 = some x

/-- Scalar operands that exist. -/
def scalars (rs : List (BitVec 5)) : Prop := ∀ r ∈ rs, r.toNat < 16

/-- An instruction of an instance's registers: when it executes normally, and the registers, flags and PC that it leaves. -/
structure FixerForm where
  ok : Kernel → FxInst → Prop
  eff : Kernel → FxInst → FxInst

/-- A scalar function of two registers. -/
def scalar2 (d a b : BitVec 5) (f : Dword → Dword → Dword) : FixerForm :=
  ⟨fun _ _ => scalars [d, a, b], fun _ x => (x.setS d (f (x.sreg a) (x.sreg b))).step⟩

/-- A branch on a scalar. -/
def branch (a : BitVec 5) (i : BitVec 16) (p : Dword → Bool) : FixerForm :=
  ⟨fun _ _ => scalars [a], fun _ x => if p (x.sreg a) then x.jump i else x.step⟩

/-- A lane operation over n + 1 registers from its operands on; a run starts below f24 and ends there. -/
def lanewise (d : BitVec 5) (a b c : BitVec 5) (used : List (BitVec 5)) (n : BitVec 2) (f : Word → Word → Word → Word × Word) : FixerForm :=
  ⟨fun _ _ => (24 ≤ d.toNat → n = 0) ∧ ∀ r ∈ d :: a :: used, 24 ≤ r.toNat ∨ r.toNat + n.toNat ≤ 23,
    fun _ x => (laneSteps f d.toNat a.toNat b.toNat c.toNat (n.toNat + 1) 0 x).step⟩

def lane2 (d a b : BitVec 5) (n : BitVec 2) (f : Word → Word → Word × Word) : FixerForm := lanewise d a b 0 [b] n fun x y _ => f x y

def fixerForm : Instr → Option FixerForm
  | .sli d i => some ⟨fun _ _ => scalars [d], fun _ x => (x.setS d (i.signExtend 64)).step⟩
  | .saddi d a i => some ⟨fun _ _ => scalars [d, a], fun _ x => (x.setS d (x.sreg a + i.signExtend 64)).step⟩
  | .saluAdd d a b => some (scalar2 d a b (· + ·))
  | .saluSub d a b => some (scalar2 d a b (· - ·))
  | .saluMul d a b => some (scalar2 d a b (· * ·))
  | .saluAnd d a b => some (scalar2 d a b (· &&& ·))
  | .saluOr d a b => some (scalar2 d a b (· ||| ·))
  | .saluXor d a b => some (scalar2 d a b (· ^^^ ·))
  | .saluShl d a b => some (scalar2 d a b fun x y => x <<< (y.toNat % 64))
  | .saluShr d a b => some (scalar2 d a b fun x y => x >>> (y.toNat % 64))
  | .b i => some (branch 0 i fun _ => true)
  | .bEqz a i => some (branch a i fun v => v == 0)
  | .bNez a i => some (branch a i fun v => v != 0)
  | .bLtz a i => some (branch a i fun v => v.msb)
  | .bGez a i => some (branch a i fun v => !v.msb)
  | .floop a i => some ⟨fun _ _ => scalars [a], fun _ x =>
      if x.sreg a = 1 then (x.setS a 0).step else (x.setS a (x.sreg a - 1)).jump i⟩
  | .fbc d a h => some ⟨fun _ _ => scalars [a], fun _ x =>
      (x.setF d.toNat (List.replicate 16 (if bit1 h then hi32 (x.sreg a) else lo32 (x.sreg a)))).step⟩
  | .fext d a l => some ⟨fun _ _ => scalars [d], fun _ x => (x.setS d (word64 (x.lane a.toNat l.toNat))).step⟩
  | .fins d a l => some ⟨fun _ _ => scalars [a], fun _ x =>
      (x.setF d.toNat ((x.freg d.toNat).set l.toNat (lo32 (x.sreg a)))).step⟩
  | .fopAdd d a b n => some (lane2 d a b n fun x y => fxF (fp32.fadd .rn x.toNat y.toNat))
  | .fopSub d a b n => some (lane2 d a b n fun x y => fxF (fp32.fsub .rn x.toNat y.toNat))
  | .fopMul d a b n => some (lane2 d a b n fun x y => fxF (fp32.fmul .rn x.toNat y.toNat))
  | .fopDiv d a b n => some (lane2 d a b n fun x y => fxF (fp32.fdiv .rn x.toNat y.toNat))
  | .fopMin d a b n => some (lane2 d a b n fun x y => fxF (fp32.fminmax false x.toNat y.toNat))
  | .fopMax d a b n => some (lane2 d a b n fun x y => fxF (fp32.fminmax true x.toNat y.toNat))
  | .fopFma d a b c n => some (lanewise d a b c [b, c] n fun x y z => fxF (fp32.ffma .rn false x.toNat y.toNat z.toNat))
  | .fopFnma d a b c n => some (lanewise d a b c [b, c] n fun x y z => fxF (fp32.ffma .rn true x.toNat y.toNat z.toNat))
  | .fopSqrt d a n => some (lanewise d a 0 0 [] n fun x _ _ => fxF (fp32.fsqrt .rn x.toNat))
  | .fopMov d a n => some (lanewise d a 0 0 [] n fun x _ _ => (x, 0))
  | .iopAdd d a b n => some (lane2 d a b n fun x y => (x + y, 0))
  | .iopSub d a b n => some (lane2 d a b n fun x y => (x - y, 0))
  | .iopAnd d a b n => some (lane2 d a b n fun x y => (x &&& y, 0))
  | .iopOr d a b n => some (lane2 d a b n fun x y => (x ||| y, 0))
  | .iopXor d a b n => some (lane2 d a b n fun x y => (x ^^^ y, 0))
  | .iopShl d a b n => some (lane2 d a b n fun x y => (if 32 ≤ y.toNat then 0 else x <<< y.toNat, 0))
  | .iopShr d a b n => some (lane2 d a b n fun x y => (if 32 ≤ y.toNat then 0 else x >>> y.toNat, 0))
  | .iopSel d a b c n => some (lanewise d a b c [b, c] n fun x y z => (if z ≠ 0 then x else y, 0))
  | .iopFclt d a b n => some (lane2 d a b n fun x y =>
      (if (floatCond 2 (fp32.value x.toNat) (fp32.value y.toNat)).1 then 1 else 0,
        (floatCond 2 (fp32.value x.toNat) (fp32.value y.toNat)).2))
  | .iopIeq d a b n => some (lane2 d a b n fun x y => (if x = y then 1 else 0, 0))
  | .fcvt d a c => some ⟨fun _ x => fcvtCheck d a c x = none, fun _ x => fcvtRun d a c x⟩
  | .fdq d a b c o => some ⟨fun k x => fdqCheck d a b c o k x = none, fdqRun d a b c o⟩
  | .frq d a b c o => some ⟨fun k x => frqCheck d a b c o k x = none, frqRun d a b c o⟩
  | .frot d a c v => some ⟨fun k x => frotCheck d a c v k x = none, frotRun d a c v⟩
  | .wbld d a n => some ⟨fun _ _ => a.toNat + (n.toNat + 1) ≤ 32 ∧ d.toNat + 2 * (n.toNat + 1) ≤ 32, fun _ x =>
      (x.setRun d.toNat (fxPackRun 32 (2 * (n.toNat + 1)) (fun j => rebuildMaster (fxElem x a.toNat true j)) (32 * (n.toNat + 1)))).step⟩
  | .fflg d c => some ⟨fun _ _ => scalars [d], fun _ x =>
      let x1 := x.setS d (word64 x.ff)
      (if bit1 c then { x1 with ff := 0 } else x1).step⟩
  | _ => none

/-- A fixer instruction that reaches memory or its kernel: when it executes normally, and what it leaves. -/
structure FixerMove where
  ok : State → Kernel → FxInst → Prop
  eff : State → Kernel → FxInst → State

/-- The state in which an instance's instruction has been served and the instance replaced. -/
def State.putServed (s : State) (x : FxInst) : State := s.putInst { x with fresh := false }

/-- A line instruction: its lines are in place, and each is handled in turn. -/
def lining (op : Nat) (d a n : BitVec 5) (i : BitVec 11) (f : Kernel → State → FxInst → Nat → Nat → State × FxInst × Option FxErr) : FixerMove :=
  ⟨fun s k x => ∃ ls, fxLines op x d a n i = .ok ls ∧ (fxEach (f k) (s.servedKernel k) x ls).2.2 = none, fun s k x =>
    match fxLines op x d a n i with
    | .ok ls => let r := fxEach (f k) (s.servedKernel k) x ls; r.1.putServed r.2.1
    | .error _ => s⟩

def fixerMove : Instr → Option FixerMove
  | .sld d a i => some ⟨fun s k x => scalars [d, a] ∧ fxAddr8 x a i % 8 = 0 ∧ ∃ bs, ((s.servedKernel k).fxLoad k (fxAddr8 x a i) 8).2 = .ok bs,
      fun s k x => match (s.servedKernel k).fxLoad k (fxAddr8 x a i) 8 with
        | (s1, .ok bs) => s1.putServed (x.setS d (BitVec.ofNat 64 (natOf bs))).step
        | (s1, .error _) => s1⟩
  | .sst d a i => some ⟨fun s k x => scalars [a, d] ∧ fxAddr8 x a i % 8 = 0 ∧
        ((s.servedKernel k).fxStore k s.fx.2 x (fxAddr8 x a i) (leOf 8 (x.sreg d).toNat)).2.2 = none, fun s k x =>
      let r := (s.servedKernel k).fxStore k s.fx.2 x (fxAddr8 x a i) (leOf 8 (x.sreg d).toNat)
      r.1.putServed r.2.1.step⟩
  | .fld d a n i => some (lining 10 d a n i fun k s x r va => match s.fxLoad k va 64 with
      | (s1, .error e) => (s1, x, some e)
      | (s1, .ok bs) => (s1, x.setF r (lineWords bs), none))
  | .fst d a n i => some (lining 11 d a n i fun k s x r va => s.fxStore k s.fx.2 x va (lineBytes (x.freg r)))
  | .fredf d a n i => some (lining 12 d a n i fun k s x r va => match s.fxPlace k va .w with
      | (s1, .error e) => (s1, x, some e)
      | (s1, .ok p) => ((List.range 16).foldl (fun s l => s.fxReduce k x (p.pa + 4 * l) (va + 4 * l) (x.lane r l)) s1, x, none))
  | .stepend => some ⟨fun s k x => (s.commitStep k s.fx.2 x).2.2 = none, fun s k x =>
      let r := s.commitStep k s.fx.2 x
      r.1.putInst r.2.1.step⟩
  | .fend => some ⟨fun s k x => (committed s k x).2.2 = none ∧ ((committed s k x).1.fxWrites k (ending s k)).2 = .ok (), fun s k x =>
      let r := committed s k x
      (r.1.fxWrites k (ending s k)).1.modKernel k.id fun y =>
        { y with insts := sdel y.insts s.fx.2, nend := y.nend + 1, flags := y.flags ||| r.2.1.ff }⟩
  | _ => none
where
  /-- What has run since the last commit, committed. -/
  committed (s : State) (k : Kernel) (x : FxInst) : State × FxInst × Option FxErr :=
    if x.fresh then (s, x, none) else s.commitStep k s.fx.2 x
  /-- The words that free a slice and count the instance. -/
  ending (s : State) (k : Kernel) : List (Nat × List Byte) := [(k.slice s.fx.2, leOf 8 (2 ^ 64 - 1)), (k.undo + 4, leOf 4 (k.nend + 1))]

/-! ### Events of the machine and inputs to it -/

/-- An event or an input: when it has its effect, and the state it leaves. -/
structure EventForm where
  ok : State → Prop
  eff : State → State

/-- A command of the machine that an event acts on. -/
def ofCmd (id : Nat) (ok : State → Cmd → Prop) (eff : State → Cmd → State) : EventForm :=
  ⟨fun s => ∃ c, sget s.cmds id = some c ∧ ok s c, fun s => match sget s.cmds id with
    | some c => eff s c
    | none => s⟩

/-- Traffic and the memory system: 06 R129-R137, R155; 14 R340; 01 R20, R23. -/
def trafficEvent : Instr → Option EventForm
  | .storePerformed id => some ⟨fun s => ∃ x, s.stores.find? (fun x => x.id == id) = some x, fun s =>
      match s.stores.find? fun x => x.id == id with
      | some x => s.performStore x
      | none => s⟩
  | .loadDataReturn id => some ⟨fun s => ∃ x, s.loads.find? (fun x => x.id == id) = some x, fun s =>
      match s.loads.find? fun x => x.id == id with
      | some x => s.returnLoad x
      | none => s⟩
  | .atomicPerform id => some ⟨fun s => ∃ x, s.atomics.find? (fun x => x.id == id) = some x, fun s =>
      match s.atomics.find? fun x => x.id == id with
      | some x => s.performAtomic x
      | none => s⟩
  | .l1Writeback core line => some ⟨fun _ => True, fun s => (s.servedFor (coreRequester core) (s.coreLaunch core)).writeBack core line⟩
  | .rdcRequestArrive id => some ⟨fun s => ∃ x, s.reds.find? (fun x => x.id == id) = some x, fun s =>
      match s.reds.find? fun x => x.id == id with
      | some x => s.performRed x
      | none => s⟩
  | .engineBytesArrive id => some ⟨fun s => ∃ a w, s.arrivals.find? (fun x => x.id == id) = some a ∧ s.findLin a.launch a.lin = some w, fun s =>
      match s.arrivals.find? fun x => x.id == id with
      | none => s
      | some a => match s.findLin a.launch a.lin with
        | none => s
        | some w => (({ s with arrivals := s.arrivals.filter fun x => x.id != id } : State).creditTag w.1 w.2 a).checkRetire w.1 w.2⟩
  | .rangeLockGrant id => some ⟨fun s => ∃ c, s.waiting.find? (fun c => c.id == id) = some c ∧ ¬(c.major = 30 ∧ c.sub = 12) ∧
        s.blocked id c.locks = false ∧ s.roomFor c = true ∧ s.admissible c = true, fun s =>
      match s.waiting.find? fun c => c.id == id with
      | none => s
      | some c =>
        let s0 := { s with waiting := s.waiting.filter fun x => x.id != id }
        if c.major = 27 then s0.grantSign c
        else if c.isColl then s0.beginColl c
        else if c.isKse then s0.startCmd { c with begun := true }
        else c.lanes.foldl (fun s l => s.modThr ⟨c.core, c.blk, l.1⟩ fun t => if t.mode = .waiting .lock then t.release else t)
          (if c.major = 30 ∧ c.sub = 14 then s0.runSnap c else s0.startCmd c)⟩
  | .regroupComplete core blk => some ⟨fun s => ∃ b, s.block? core blk = some b ∧ b.regroupDue = true ∧
        (s.cmds.any fun p => p.2.regs && p.2.core == core && p.2.blk == blk) = false, fun s =>
      match s.block? core blk with
      | none => s
      | some b => (b.threads.filter fun p => p.2.atBar).foldl (fun s p => s.acquireAt ⟨core, blk, p.1⟩ 1)
          (s.setBlock core blk (b.repack (((s.launch? b.launch).map (·.rcd.regs)).getD 0)))⟩
  | .groupSlotQuota core quad => some ⟨fun _ => True, fun s =>
      s.modQuad core quad fun q => if 16 ≤ q.slots then { q with quotaDue := true } else q⟩
  | .groupAged core blk grp => some ⟨fun _ => True, fun s => s.modBlock core blk fun b => b.age grp s.cycle⟩
  | .starveForced core blk grp => some ⟨fun s => ∃ b x y, s.sel = none ∧ s.block? core blk = some b ∧
        choosePaths (b.runners grp) = some (x, some y) ∧ 64 ≤ starveOf y ∧ s.mayIssue b = true ∧
        s.nextGroup core (quadOf b grp) (s.readyGroups core (quadOf b grp)) = some (blk, grp), fun s =>
      match s.block? core blk with
      | some b => s.issueSlot core (quadOf b grp) (blk, grp)
      | none => s⟩
  | .unassignedEncoding _ => some ⟨fun _ => True, fun s => s.trapPath 1 0 0 0⟩
  | .fetchFault cause sub addr => some ⟨fun _ => True, fun s => s.trapPath cause sub addr (memDet 2 false false true)⟩
  | _ => none

/-- The engines: 11 R267, R280; 12 R298; 13 R314, R326, R335; 15 R373, R378; 17 R399, R407, R409. -/
def engineEvent : Instr → Option EventForm
  | .ringSlotClaim id => some ⟨fun s => ∃ c r k, sget s.cmds id = some c ∧ s.claimOf c = some (r, k) ∧
        s.blocked id (c.slotLocks (c.ctx s) r.slsz k) = false, fun s =>
      match sget s.cmds id with
      | none => s
      | some c => match s.claimOf c with
        | none => s
        | some (r, k) =>
          s.fresh.startCmd { c with slot := some k, aux := c.aux ++ [s.nextId], locks := c.slotLocks (c.ctx s) r.slsz k }⟩
  | .copyCommandComplete id => some (ofCmd id (fun s c => c.major = 25 ∧ s.copyWaits c = false) fun s c =>
      let s0 := s.servedFor (coreRequester c.core) c.launch
      if c.fromBlock then s0.completeCopy c
      else let r := s0.completeCopyNode c; r.1.graph (nodeEnd c (!r.2) 10))
  | .gseCommandComplete id => some (ofCmd id (fun _ c => c.major = 26) fun s c => (s.servedFor 0xF1 c.launch).completeGs c)
  | .matrixPhaseEnd id => some (ofCmd id (fun _ c => c.major = 27 ∧ c.begun = false) fun s c =>
      (((s.cmds.filter fun p => p.2.major == 27 && !p.2.begun && p.2.aux == c.aux).map (·.2)).foldl (fun s c => s.endReads c) s).endMatPhase
        (nth c.aux 1 0, nth c.aux 2 0) (nth c.aux 0 0))
  | .matrixOperationComplete id => some (ofCmd id (fun s c => c.major = 27 ∧ c.begun = true ∧
        (s.cmds.any fun p => p.2.major == 27 && p.2.core == c.core && decide (p.1 < id)) = false) fun s c =>
      ((s.modBlock c.core c.blk fun b => match b.region? (matDesc c.desc).hnd with
        | none => b
        | some r => { b.modRegion r.handle (fun _ => (matRun c r).1) with mxflg := b.mxflg ||| ((matRun c r).2 &&& 0x1D00) }).endCmd c 0).checkRetire
          c.core c.blk)
  | .aallocGrant core => some ⟨fun s => ∃ q, s.firstReq core = some q ∧ q.units ≤ s.freeUnits core, fun s =>
      match s.firstReq core with
      | none => s
      | some q => ((s.setCore core { s.coreAt core with accReqs := (s.coreAt core).accReqs.erase q }).judgeAlloc core q).judgeRest core q.blk⟩
  | .startTickReached id => some (ofCmd id (fun s c => c.held = true ∧ c.tick.toNat ≤ s.now ∧ s.stopped c = false) fun s c =>
      { s with cmds := sput s.cmds id { c with held := false } })
  | .kseCommandBegin id => some (ofCmd id (fun s c => s.kseTurn c = true) fun s c =>
      let r := s.kseStart c
      let c1 : Cmd := { c with aux := [nth c.aux 0 0, r.2.n, r.2.rbase, r.2.stat], locks := c.kse.locks (c.ctx r.1) r.2 id }
      if r.1.mustWait c1 then { r.1 with waiting := r.1.waiting ++ [c1], cmds := sput r.1.cmds id c1 }
      else r.1.startCmd { c1 with begun := true })
  | .kseCommandComplete id => some (ofCmd id (fun _ c => c.isKse = true ∧ c.begun = true) fun s c =>
      let r := (s.servedFor 0xF4 c.launch).completeKse c
      let s2 := r.1.graph (nodeEnd c r.2 10)
      if c.fromBlock then s2.checkRetire c.core c.blk else s2)
  | .collectiveBegin id => some (ofCmd id (fun s c => s.collTurn c = true ∧ s.lostFor c = none) fun s c =>
      let c1 : Cmd := { c with locks := c.collLocks (c.ctx s) }
      if s.mustWait c1 then { s with waiting := s.waiting ++ [c1], cmds := sput s.cmds id c1 } else s.beginColl c1)
  | .collectiveComplete id peers => some (ofCmd id (fun _ c => c.isColl = true ∧ c.begun = true ∧ (c.inputs peers).isSome = true) fun s c =>
      match c.inputs peers with
      | none => s
      | some ins =>
        let r := (s.servedAs 0xF5 1).completeColl c ins
        let s2 := r.1.graph (nodeEnd c r.2 2)
        if c.fromBlock then s2.checkRetire c.core c.blk else s2)
  | .peerFlitTimeout pkg => some ⟨fun s => ∃ t, sget s.linksDown pkg = some t ∧ t + 10000000 ≤ s.now ∧ s.pathNeeded pkg = true, fun s => s.losePeer pkg⟩
  | .peerLossReport pkg => some ⟨fun _ => True, fun s => s.losePeer pkg⟩
  | .twinericLinkFailure pkg rerouted => some ⟨fun s => rerouted = false ∧ sget s.linksDown pkg = none, fun s =>
      { s with linksDown := sput s.linksDown pkg s.now }⟩
  | _ => none

/-- The task graph, placement and pre-emption: 09 R210-R235. -/
def launchEvent : Instr → Option EventForm
  | .qtenWrite v => some ⟨fun s => s.passed 7 = true, fun s =>
      let s1 := s.setWin (mgmtBase + 0x018) (v &&& 1#32)
      if v.getLsbD 0 && !s.winBit (mgmtBase + 0x018) 0 && s1.watching then s1.readTable else s1⟩
  | .queueTableWake line => some ⟨fun s => s.watching = true ∧ 2 * line < queueCount, fun s =>
      (s.readEntry (2 * line)).readEntry (2 * line + 1)⟩
  | .ringLineWake q => some ⟨fun _ => True, fun s => s.acceptNext q [0, 1, 2, 3]⟩
  | .launchRecord q => some ⟨fun _ => True, fun s => s.acceptNext q [0, 3]⟩
  | .tlbInvalidationRecord q => some ⟨fun _ => True, fun s => s.acceptRing q [1]⟩
  | .markerRecord q => some ⟨fun _ => True, fun s => s.acceptRing q [2]⟩
  | .tlbInvalidationComplete id => some ⟨fun s => ∃ x q, s.tlbInvs.find? (fun x => x.id == id) = some x ∧ sget s.queues x.queue = some q, fun s =>
      match s.tlbInvs.find? fun x => x.id == id with
      | none => s
      | some x => match sget s.queues x.queue with
        | none => s
        | some q =>
          let s1 := ({ s with tlbInvs := s.tlbInvs.filter fun y => y.id != id } : State).dropTlb x.asid x.va x.len
          ((s1.writeStatus q.asid q.root x.done 0 0 1 0).giveTag x.signal 16).graph (doneNodes x.queue 0xFFFFFFFF x.signal ++ [.settle x.queue])⟩
  | .launchDispatch k => some ⟨fun s => ∃ l, s.launch? k = some l ∧ s.mayDispatch l = true ∧ (l.rcd.tick = 0 ∨
        (s.launches.any fun p => p.2.rcd.tick == l.rcd.tick && decide (p.2.order < l.order) && s.mayDispatch p.2) = false), fun s =>
      s.modLaunch k fun x => { x with state := if x.count = 0 then .running else .dispatching, dispatchTick := s.now }⟩
  | .clusterPlace k die qoff => some ⟨fun s => ∃ l w spots, s.offered.find? (fun x => x.1.id == k) = some (l, w) ∧ die < s.hw.part.dies ∧
        ((offeredBefore k s.offered).any fun x => s.fits x.1 x.2 die && !s.drainHeld x.1 x.2 die) = false ∧ s.fits l w die = true ∧
        s.drainHeld l w die = false ∧ (l.stageOf w = 0 ∨ l.draining ≠ none) ∧ s.chooseCores (s.coresOf die) (spread l w qoff) = some spots,
      fun s => match s.offered.find? fun x => x.1.id == k with
        | none => s
        | some (l, w) => match s.chooseCores (s.coresOf die) (spread l w qoff) with
          | none => s
          | some spots => s.place l w spots⟩
  | .stageDrainComplete k => some ⟨fun s => ∃ d, (s.launch? k).bind (·.draining) = some d, fun s =>
      match (s.launch? k).bind (·.draining) with
      | some d => (s.trimL2 d.1).modLaunch k fun x => { x with drained := true }
      | none => s⟩
  | .sliceExpire k => some ⟨fun s => ∃ q t, sget s.queues k = some q ∧ q.sliceStart = some t ∧ q.slice ≠ 0 ∧ t + q.slice ≤ s.now, fun s =>
      { s with queues := smod s.queues k fun q => { q with sliceOver := true } }⟩
  | .blockSave core blk => some ⟨fun s => ∃ b l q, s.block? core blk = some b ∧ s.launch? b.launch = some l ∧ sget s.queues l.queue = some q ∧
        q.preempted = true ∧ s.quiet core blk b = true ∧ s.savesLater l.queue b.launch = false, fun s =>
      match s.block? core blk with
      | none => s
      | some b =>
        let qn := ((s.launch? b.launch).map (·.queue)).getD 0
        match sget s.queues qn with
        | none => s
        | some q =>
          let s1 := s.modLaunch b.launch fun l => { l with saved := l.saved ++ [(0, { b with held := s.cmdsIn core blk })] }
          let s2 := (s1.writeImages q b.launch).unplace core blk
          if s2.queueResident qn then s2 else s2.writeSaveArea qn q⟩
  | .queueResume k => some ⟨fun s => ∃ q, sget s.queues k = some q ∧ q.preempted = true ∧ s.queueResident k = false, fun s =>
      match sget s.queues k with
      | none => s
      | some q =>
        if !q.areaDone then s.writeSaveArea k q
        else
        let s2 := (s.unfinished k).foldl (fun s l => s.readLaunch q l) s
        ({ s2 with
          queues := smod s2.queues k fun q => { q with preempted := false }
          launches := s2.launches.map fun p =>
            (p.1, if p.2.queue = k ∧ p.2.state = .preempted then { p.2 with state := .dispatching } else p.2) } : State).resumeKernels k⟩
  | .spawnBinTimerExpire core n => some ⟨fun s => ∃ b t, sget (s.coreAt core).bins n = some b ∧ b.timer = some t ∧ b.closed = false ∧ t ≤ s.now, fun s =>
      match sget (s.coreAt core).bins n with
      | none => s
      | some b => (s.setCore core { s.coreAt core with bins := sput (s.coreAt core).bins n { b with closed := true, closedAt := s.nextId } }).fresh⟩
  | .spawnBlockDispatch core n => some ⟨fun s => ∃ b l off slot, sget (s.coreAt core).bins n = some b ∧ s.launch? b.launch = some l ∧
        (List.range 4).find? (fun o => s.coreFits core o (want l b)) = some off ∧ l.freeSlot l.spawnWidth = some slot ∧ b.closed = true ∧
        ((s.coreAt core).bins.all fun p => !p.2.closed || decide (b.closedAt ≤ p.2.closedAt)) = true ∧ l.state ≠ .preempted, fun s =>
      match sget (s.coreAt core).bins n with
      | none => s
      | some b => match s.launch? b.launch with
        | none => s
        | some l => match (List.range 4).find? fun o => s.coreFits core o (want l b), l.freeSlot l.spawnWidth with
          | some off, some slot =>
            (s.setCore core { s.coreAt core with bins := sdel (s.coreAt core).bins n }).placeSpawn l ⟨b.entry, b.threads⟩ core off slot
          | _, _ => s⟩
  | .launchComplete k => some ⟨fun s => ∃ l, s.launch? k = some l ∧ s.launchOver l = true, fun s =>
      let s1 := (s.cores.map (·.1)).foldl (fun s c => s.writeBackAll c) s
      let s2 := (s1.evictAll true (s1.rdc.map (·.1))).flushDue
      match s.launch? k with
      | none => s
      | some l0 =>
        let l := (s2.launch? k).getD l0
        let s3 := s2.writeStatus l.asid l.root l.rcd.done l.rank l.id l.statusBits 0
        ({ s3.giveTag l.signal 16 with launches := sdel s3.launches k } : State).graph
          (doneNodes l.queue l.rcd.node l.signal ++ [.settle l.queue])⟩
  | .hostPendDecrement k node => some ⟨fun s => ∃ q, sget s.queues k = some q, fun s =>
      match sget s.queues k with
      | none => s
      | some q => let r := s.decAndGo k q node; r.1.graph r.2.2⟩
  | _ => none
where
  /-- What the blocks of a piece of work want, a new cluster's with the offsets that are offered. -/
  spread (l : Launch) (w : Work) (qoff : Nat) : List (Want × List Nat) := match w with
    | .resume _ => l.wants w
    | _ => offsetDigits qoff (l.wants w)
  want (l : Launch) (b : Bin) : Want := { nthreads := b.threads.length, regs := l.rcd.regs, tags := 0 }

/-- Fixer kernels and words: 14 R346, R347, R356, R357. -/
def kernelEvent : Instr → Option EventForm
  | .fixerKernelAdmit n => some ⟨fun s => ∃ k c, sget s.kernels n = some k ∧ s.waiting.find? (fun c => c.id == n) = some c ∧
        s.kernelWaits k = false, fun s =>
      match sget s.kernels n with
      | none => s
      | some k => ({ s with waiting := s.waiting.filter fun x => x.id != n, locks := s.locks ++ k.locks } : State).admitKernel k⟩
  | .fixerInstanceStart n => some ⟨fun s => ∃ k m, sget s.kernels n = some k ∧ k.admitted = true ∧ k.stopping = false ∧ k.preempted = false ∧
        s.fixersBusy k.part < 64 ∧ (k.restarts.head? = some m ∨ k.restarts = [] ∧ k.next < k.ninst ∧ k.freeSlice = some m), fun s =>
      match sget s.kernels n with
      | none => s
      | some k => match k.restarts with
        | m :: rest => match (s.modKernel n fun y => { y with restarts := rest }).fxRead k (k.slice m) 2304 with
          | (s2, .error e) => s2.failKernel n e
          | (s2, .ok bs) => s2.modKernel n fun y => { y with insts := sput y.insts m (instOf bs) }
        | [] => match k.freeSlice with
          | none => s
          | some m => s.startInst k m⟩
  | .fixerKernelComplete n => some ⟨fun s => ∃ k, sget s.kernels n = some k ∧ k.ended = true, fun s =>
      match sget s.kernels n with
      | none => s
      | some k =>
        let r := (s.servedKernel k).finishKernel k
        let s2 := r.1.graph (match k.signal.node with
          | some n => [if r.2 then .done k.queue n else .ended k.queue n 10]
          | none => [])
        match k.owner.bind fun o => s2.findLin o.1 o.2 with
        | some w => s2.checkRetire w.1 w.2
        | none => s2⟩
  | .fixerUnassignedOp w => some ⟨fun s => ∃ k x, s.Fixing k x, fun s => s.fxRaise fun _ => (0x30, 1, w.toNat)⟩
  | .fixerFetchFault => some ⟨fun s => ∃ k x, s.Fixing k x, fun s => s.fxRaise fun pc => (0x30, 0xB, pc)⟩
  | _ => none


/-- What a channel serves next, and the state in which it has left its queue. -/
def State.served? (s : State) (unit ch : Nat) : Option (MemReq × State) :=
  match sget (s.unitAt unit).bursts ch with
  | some bu => if bu.failed then none else some (bu.req, s.modUnit unit fun x => { x with bursts := sdel x.bursts ch })
  | none => (s.nextReq unit ch).map fun p => (p.1, s.takeReq unit p.1 p.2)

/-- The burst that a CRC error replays, and the state in which it is the channel's burst with one more try. -/
def State.replayed? (s : State) (unit ch lane : Nat) : Option State :=
  match sget (s.unitAt unit).bursts ch with
  | some bu =>
    if bu.failed || decide (8 ≤ bu.tries) then none
    else some (s.modUnit unit fun x => { x with bursts := sput x.bursts ch { bu with tries := bu.tries + 1, lane := lane } })
  | none => (s.nextReq unit ch).map fun p =>
      (s.takeReq unit p.1 p.2).modUnit unit fun x => { x with bursts := sput x.bursts ch ⟨p.1, 1, lane, false⟩ }

/-- Partitions, expansion ports and migrations: 18 R415-R432. -/
def partitionEvent : Instr → Option EventForm
  | .channelRequestServe unit ch ecc => some ⟨fun s => unitPresent s.hw.part unit = true ∧ ch ∉ (s.unitAt unit).retraining ∧
        (s.served? unit ch).isSome = true, fun s =>
      match s.served? unit ch with
      | some (r, s1) => (s1.serveReq unit r).arrayError unit r ecc
      | none => s⟩
  | .requestAged unit ch => some ⟨fun _ => True, fun s =>
      s.modUnit unit fun x => { x with reqs := x.reqs.map fun r => if r.ch = ch ∧ s.overAge unit r then { r with aged := true } else r }⟩
  | .burstCrcError unit ch lane => some ⟨fun s => s.hasPartition unit = true ∧ lane < 76 ∧ ch ∉ (s.unitAt unit).retraining ∧
        (s.replayed? unit ch lane).isSome = true, fun s =>
      match s.replayed? unit ch lane with
      | some s1 => (s1.bump (unitBase unit + 0x20)).countLane unit ch lane
      | none => s⟩
  | .burstReplayExhausted unit ch => some ⟨fun s => ch ∉ (s.unitAt unit).retraining ∧
        ∃ bu, sget (s.unitAt unit).bursts ch = some bu ∧ bu.failed = false ∧ 8 ≤ bu.tries, fun s =>
      match sget (s.unitAt unit).bursts ch with
      | some bu => (((s.modUnit unit fun x => { x with bursts := sput x.bursts ch { bu with failed := true } }).countLane unit ch bu.lane).bump
          (unitBase unit + 0x24)).unitEvent unit 1
      | none => s⟩
  | .laneCrcThreshold unit ch lane => some ⟨fun s => s.hasPartition unit = true ∧ (ch, lane) ∉ (s.unitAt unit).wants ∧
        (s.winAt (unitBase unit + 0x38)).toNat < s.laneErrors unit ch lane, fun s => (s.unitEvent unit 0).wantRepair unit ch lane⟩
  | .laneRepair unit ch reissueOk => some ⟨fun s => s.hasPartition unit = true ∧ ch ∉ (s.unitAt unit).retraining ∧
        (∀ bu, sget (s.unitAt unit).bursts ch = some bu → bu.failed = true), fun s =>
      match (s.unitAt unit).wants.find? fun w => w.1 == ch with
      | some w => (((s.modUnit unit fun x => { x with wants := x.wants.erase w }).switchLane unit ch w.2).reissueBurst unit ch reissueOk).startRetrain
          unit ch
      | none => (s.reissueBurst unit ch reissueOk).startRetrain unit ch⟩
  | .repair unit value => some ⟨fun s => s.windowsOpen = true ∧ s.hasPartition unit = true ∧ (value &&& 0x7FFFE0E0#32) = 0 ∧ value.getLsbD 31 = true,
      fun s => s.wantRepair unit (value.toNat % 32) (value.toNat / 256 % 32)⟩
  | .retrain unit value => some ⟨fun s => s.windowsOpen = true ∧ s.hasPartition unit = true ∧ (value &&& 0x7FFFFFE0#32) = 0 ∧ value.getLsbD 31 = true,
      fun s =>
        let ch := value.toNat % 32
        s.modUnit unit fun x =>
          if ch ∈ x.retraining ∨ ch ∈ x.retrainWaits then x
          else if x.repairing ch then { x with retrainWaits := x.retrainWaits ++ [ch] }
          else { x with retraining := x.retraining ++ [ch] }⟩
  | .retrainDone unit ch => some ⟨fun s => ch ∈ (s.unitAt unit).retraining, fun s =>
      (s.modUnit unit fun x => { x with retraining := x.retraining.filter fun c => c != ch }).logFree unit 6 ch 0xFF⟩
  | .eyeSample unit ch lane hm vm => some ⟨fun s => s.hw.part = .s8 ∧ unit < 8 ∧ ch < 32 ∧ lane < 76, fun s =>
      let th := s.winAt (unitBase unit + 0x50)
      let low := decide (hm % 256 < th.toNat % 256) || decide (vm % 256 < th.toNat / 256 % 256)
      let carries := (s.unitAt unit).spares.any fun m => m.1 == ch && m.2.2 == lane
      let s1 := s.setWin (eyeAt unit ch lane)
        (BitVec.ofNat 32 (hm % 256 + 256 * (vm % 256) + (if low then 2 ^ 16 else 0) + (if carries then 2 ^ 17 else 0)))
      let s2 := if low then s1.unitEvent unit 4 else s1
      if low && th.getLsbD 16 then s2.wantRepair unit ch lane else s2⟩
  | .rowSwap unit ch bank row partner => some ⟨fun s => s.hasPartition unit = true ∧ row ≠ partner ∧ partner < 2 ^ 18 ∧
        (s.winAt (unitBase unit + 0x60)).toNat ≤ s.activations unit ch bank row, fun s =>
      let s1 := (s.readRow unit ch bank row).readRow unit ch bank partner
      (s1.modUnit unit fun x =>
        { x with
          swaps := x.swaps ++ [(ch, bank, row, partner)]
          acts := x.acts.filter fun a => !(a.1 == ch && a.2.1 == bank && a.2.2.1 == row) }).bumpSat (unitBase unit + 0x64)⟩
  | .retire unit value => some ⟨fun s => s.windowsOpen = true ∧ s.hasPartition unit = true ∧ (value &&& 0x60000000#32) = 0 ∧ value.getLsbD 31 = true,
      fun s => s.retireRow unit (value.toNat % 32) (value.toNat / 2 ^ 5 % 64) (value.toNat / 2 ^ 11 % 2 ^ 18)⟩
  | .errorCountClear unit off => some ⟨fun s => s.windowsOpen = true ∧ unitPresent s.hw.part unit = true ∧ off ∈ [0x20, 0x24, 0x28, 0x2C], fun s =>
      s.setWin (unitBase unit + off) 0⟩
  | .irqstClear unit value => some ⟨fun s => s.windowsOpen = true ∧ unitPresent s.hw.part unit = true ∧ value.toNat < 512, fun s =>
      s.setWin (unitBase unit + 0x30) (s.winAt (unitBase unit + 0x30) &&& ~~~value)⟩
  | .missCounterClear unit off => some ⟨fun s => s.windowsOpen = true ∧ unitPresent s.hw.part unit = true ∧ 0x1000 ≤ off ∧ off < 0x2000 ∧ off % 4 = 0,
      fun s => s.setWin (unitBase unit + off) 0⟩
  | .hctlWrite unit value => some ⟨fun s => s.windowsOpen = true ∧ unitPresent s.hw.part unit = true ∧ value.toNat < 64, fun s =>
      s.setWin (unitBase unit + 0x80) (if value.getLsbD 0 ∧ !s.heatValid unit then value &&& ~~~1#32 else value)⟩
  | .heatHalve unit => some ⟨fun s => s.windowsOpen = true ∧ unitPresent s.hw.part unit = true ∧ (s.unitAt unit).heatPass = 0, fun s =>
      s.modUnit unit fun x => { x with heatPass := 1 }⟩
  | .heatClear unit => some ⟨fun s => s.windowsOpen = true ∧ unitPresent s.hw.part unit = true ∧ (s.unitAt unit).heatPass = 0, fun s =>
      s.modUnit unit fun x => { x with heatPass := 2 }⟩
  | .heatPassDone unit => some ⟨fun s => (s.unitAt unit).heatPass ≠ 0, fun s =>
      let base := normPlace s.pkid (s.winPair (unitBase unit + 0x88))
      ((s.heatCounters unit).foldl (fun u i =>
        let r := u.homeRead (base + 2 * i) 2
        r.1.homeWrite (base + 2 * i) (leOf 2 (if (s.unitAt unit).heatPass = 1 then natOf r.2.1 / 2 else 0))) (s.servedAs 0xF7 3)).modUnit unit
          fun x => { x with heatPass := 0 }⟩
  | .cxlLinkDown port => some ⟨fun s => port < 4 ∧ unitPresent s.hw.part (8 + port) = true, fun s =>
      (((s.unitAt (8 + port)).reqs.foldl (fun s r => (s.failReq r).serveReq (8 + port) r) s).modUnit (8 + port)
        fun x => { x with reqs := [], down := true }).unitEvent (8 + port) 3⟩
  | .cxlLinkRetrain port => some ⟨fun s => port < 4 ∧ unitPresent s.hw.part (8 + port) = true, fun s =>
      s.modUnit (8 + port) fun x => { x with down := false }⟩
  | .migrationSubmit value => some ⟨fun s => s.windowsOpen = true ∧ s.migrations.length < 16 ∧
        ((s.winAt mgBase).toNat + 2 ^ 32 * value.toNat) % 64 = 0 ∧
        ∃ s1 bs m, (s.servedAs 0xF6 3).deviceRead ((s.winAt mgBase).toNat + 2 ^ 32 * value.toNat) 64 = (s1, some bs) ∧
          migrationOf s1.nextId bs = some m, fun s =>
      match (s.servedAs 0xF6 3).deviceRead ((s.winAt mgBase).toNat + 2 ^ 32 * value.toNat) 64 with
      | (s1, some bs) => ((migrationOf s1.nextId bs).map s1.startMigration).getD s1
      | (s1, none) => s1⟩
  | .migrationComplete id => some ⟨fun s => ∃ m rest, s.migrations = m :: rest ∧ m.id = id, fun s0 =>
      match s0.migrations with
      | [] => s0
      | m :: _ =>
        let s := s0.servedAs 0xF6 3
        let r := s.settleMigration m
        let c := r.1.casPtes m 0 (if m.size = 1 then 16 else 1)
        if m.failed = false ∧ s.canMigrate m = true then
          if m.log ≠ [] ∧ m.used < m.rounds then s.recopyRound
          else if c.2 then (c.1.dropTlb m.asid m.va m.bytes).endMigration m 1 m.used (m.lines + r.2)
          else c.1.endMigration m 3 m.used (m.lines + r.2)
        else s.endMigration m 5 m.used m.lines⟩
  | _ => none

/-- The trace unit and the registers whose reading has an effect: 19 R433-R442; 01 R24; 10 R247. -/
def traceEvent : Instr → Option EventForm
  | .tctlWrite value => some ⟨fun s => s.windowsOpen = true ∧ (value &&& ~~~0x33F#32) = 0 ∧ (value.getLsbD 0 = true →
        s.winPair (traceBase + 0x08) % 4096 = 0 ∧ (s.winAt (traceBase + 0x10)).toNat % 4096 = 0 ∧ (s.winAt (traceBase + 0x10)).toNat ≠ 0), fun s =>
      (if value.getLsbD 0 ∧ !s.winBit traceBase 0 then s.setWinPair (traceBase + 0x18) 0 else s).setWin traceBase value⟩
  | .tdropClear => some ⟨fun s => s.windowsOpen = true, fun s => s.setWin (traceBase + 0x20) 0⟩
  | .halt => some ⟨fun s => s.windowsOpen = true, fun s =>
      ((s.toHalt false ++ s.toHalt true).foldl (fun s w => s.modThr w Thread.hostHalt) s).setHst (s.toHalt false).length
        ((s.toHalt true).filterMap s.nameOf)⟩
  | .resume => some ⟨fun s => s.windowsOpen = true, fun s => letGo s false⟩
  | .step => some ⟨fun s => s.windowsOpen = true, fun s => letGo s true⟩
  | .timebaseLowRead core blk thr d => some ⟨fun _ => True, fun s => s.readInto ⟨core, blk, thr⟩ 0x060 d⟩
  | .timebaseHighRead core blk thr d => some ⟨fun _ => True, fun s => s.readInto ⟨core, blk, thr⟩ 0x061 d⟩
  | .seedLowRead core blk thr slot d => some ⟨fun _ => slot < 8, fun s => s.readInto ⟨core, blk, thr⟩ (0x200 + 2 * slot) d⟩
  | .counterSnapshotRead core blk thr d => some ⟨fun _ => True, fun s => s.readInto ⟨core, blk, thr⟩ 0x700 d⟩
  | _ => none
where
  /-- The named halted threads go on, all of them or for one instruction each. -/
  letGo (s : State) (stepping : Bool) : State :=
    (s.namedHalted.foldl (fun s w => s.modThr w fun t => { t with halted := none, skipBp := true, stepping := stepping }) s).setHst s.namedHalted.length []

/-- Whether a partition's or port's register with no behaviour of its own takes a value (18 R415, R417, R419, R423, R425, R429). -/
def unitTakes (u o v : Nat) : Bool :=
  match o with
  | 0x010 => v % 256 != 0 && v / 256 % 256 != 0 && v / 65536 % 256 != 0 && decide (v < 2 ^ 24)
  | 0x014 => decide (1000 ≤ v) && decide (v ≤ 10000000)
  | 0x034 => decide (v < 512)
  | 0x038 => true
  | 0x03C => true
  | 0x050 => decide (u < 8) && decide (v < 2 ^ 17)
  | 0x060 => decide (u < 8)
  | _ => decide (0x88 ≤ o) && decide (o < 0xA0)

/-- Whether a register with no behaviour of its own takes a value, or ignores it (18 R430, 19 R433, R440-R442, 20 R444). -/
def State.takes (s : State) (off : Nat) (value : Word) : Bool :=
  let v := value.toNat
  let o := off % 4096
  match unitAtOff off with
  | some u => unitTakes u (off % 0x10000) v
  | none =>
    if off = mgBase then true
    else if off / 4096 = traceBase / 4096 then
      if 0x100 ≤ o ∧ o < 0x180 then o % 16 != 0 && o % 16 != 8 || o % 16 == 0 && !value.getLsbD 0 || o % 16 == 8 && decide (v < 16) && v / 2 % 4 != 3
      else if 0x200 ≤ o ∧ o < 0x280 then
        let b := traceBase + o / 32 * 32
        o % 32 == 4 || o % 32 == 12 || o % 32 == 0 && v % 2 ^ ((s.winAt (b + 8)).toNat / 256 % 16) == 0
          || o % 32 == 8 && (value &&& 0xFFFFF0C0#32) == 0 && v / 8 % 4 != 3 && decide (v / 256 ≤ 12) && (s.winAt b).toNat % 2 ^ (v / 256) == 0
      else o == 0x310 && (decide (v < 1024) || v == 0xFFFF) || o ∈ [0x008, 0x00C, 0x010, 0x300, 0x308, 0x30C]
    else if off / 4096 = mgmtBase / 4096 then o == 0x024 && decide (100 ≤ v) && decide (v ≤ 4000) || o == 0x034 && decide (v < 16)
    else false

/-- The instruction that a write of a register is: one of its own, or the write of a plain register. -/
noncomputable def writeOf (off : Nat) (value : Word) : Instr :=
  match unitAtOff off with
  | some u =>
    let o := off % 0x10000
    if 0x1000 ≤ o ∧ o < 0x2000 then .missCounterClear u o
    else if o = 0x020 ∨ o = 0x024 ∨ o = 0x028 ∨ o = 0x02C then .errorCountClear u o
    else if o = 0x030 then .irqstClear u value
    else if o = 0x054 then .repair u value
    else if o = 0x058 then .retrain u value
    else if o = 0x078 then .retire u value
    else if o = 0x080 then .hctlWrite u value
    else if o = 0x084 ∧ value = 1 then .heatHalve u
    else if o = 0x084 ∧ value = 2 then .heatClear u
    else .registerWrite off value
  | none =>
    if off = mgBase + 4 then .migrationSubmit value
    else if off = traceBase then .tctlWrite value
    else if off = traceBase + 0x20 then .tdropClear
    else if off = traceBase + 0x314 ∧ value = 1 then .halt
    else if off = traceBase + 0x314 ∧ value = 2 then .resume
    else if off = traceBase + 0x314 ∧ value = 3 then .step
    else if off = mgmtBase + 0x004 then .pkidWrite value true
    else if off = mgmtBase + 0x010 then .qtbWrite 0x010 value
    else if off = mgmtBase + 0x014 then .qtbWrite 0x014 value
    else if off = mgmtBase + 0x018 then .qtenWrite value
    else if off = mgmtBase + 0x030 then .mirqClear value
    else .registerWrite off value

/-- Management: 20 R443-R450; accesses from outside: 01 R11, 14 R341. -/
def managementEvent : Instr → Option EventForm
  | .powerUp => some ⟨fun s => s.bringUpFailed = false ∧ s.bstate < 8, fun s =>
      (({ s with win := sput s.win (mgmtBase + 0x008) (BitVec.ofNat 32 (s.bstate + 1)) } : State).doStage (s.bstate + 1)).getD
        { s with win := sput s.win (mgmtBase + 0x008) (BitVec.ofNat 32 (0x101 + s.bstate)) }⟩
  | .coldReset => some ⟨fun _ => True, fun s => s.powerCut.answerData []⟩
  | .warmReset => some ⟨fun _ => True, fun s =>
      { s.powerCut with
        win := sput s.mgmtRegs (mgmtBase + 0x008) (if s.passed 1 then 1 else 0)
        tests := s.tests
        aside := s.aside
        reply := some {} }⟩
  | .powerLoss => some ⟨fun _ => True, fun s => { s.powerCut with bootDue := true }⟩
  | .windowRead off => some ⟨fun s => s.darkWindow off = false ∧ s.reachable off = true, fun s => s.answerData (wordBytes (s.readRegister off))⟩
  | .windowWrite off value => some ⟨fun s => s.darkWindow off = false ∧ s.reachable off = true ∧ writeOf off value = .registerWrite off value, fun s =>
      (if s.takes off value then s.setWin off value else s).answerData []⟩
  | .registerWrite off value => some ⟨fun s => s.passed 7 = true ∧ s.reachable off = true, fun s => if s.takes off value then s.setWin off value else s⟩
  | .firmwareStage version counter image => some ⟨fun _ => True, fun s =>
      ({ s with firmware := s.firmware.setOther (some
          { version := version, counter := counter, bytes := image, signed := Config.imageSigned version counter image
            keyed := decide (Config.sm3 (Config.imageKey image) = Config.fusedKey ()), fresh := true }) } : State).answerData []⟩
  | .firmwareActivate => some ⟨fun s => ∃ i, s.firmware.other = some i ∧ i.accepted s.firmware.fused = true, fun s =>
      (({ s with firmware := s.firmware.setOther (s.firmware.other.map fun i => { i with fresh := false }) } : State).raiseEvent mgmtBase 2).answerData []⟩
  | .selfTestLogRead => some ⟨fun _ => True, fun s => s.answerData (s.windowBytes (mgmtBase + 0x400) 512)⟩
  | .retirementTableRead => some ⟨fun _ => True, fun s => s.answerData (retireTable s.nvRetired)⟩
  | .unknownCommand cmd => some ⟨fun _ => cmd ∉ knownCommands, fun s => s.answerWith { code := 2 }⟩
  | .getVersion => some ⟨fun _ => True, fun s => s.answerData (leOf 1 0x12)⟩
  | .getCapabilities => some ⟨fun _ => True, fun s => (s.freeBytes 4).1.answerData (s.freeBytes 4).2⟩
  | .negotiateAlgorithms sign hash => some ⟨fun _ => sign.testBit sm2Bit = true ∧ hash.testBit sm3Bit = true, fun s =>
      s.answerData (leOf 4 (2 ^ sm2Bit) ++ leOf 4 (2 ^ sm3Bit))⟩
  | .getDigests => some ⟨fun _ => True, fun s => s.answerData (Config.sm3 (Config.certChain ()))⟩
  | .getCertificate slot => some ⟨fun _ => slot = 0, fun s => s.answerData (Config.certChain ())⟩
  | .challenge nonce => some ⟨fun _ => True, fun s =>
      let dig := Config.sm3 (Config.certChain ())
      s.answerData (dig ++ Config.sm2Sign (dig ++ nonce))⟩
  | .getMeasurements nonce => some ⟨fun _ => True, fun s =>
      let ms := s.measured.flatMap Config.sm3
      s.answerData (ms ++ Config.sm2Sign (ms ++ nonce))⟩
  | .pkidWrite value bexkai => some ⟨fun s => bexkai = true ∧ s.bstate < 5 ∧ value.toNat < 2048, fun s => s.setWin (mgmtBase + 0x004) value⟩
  | .qtbWrite off value => some ⟨fun s => s.passed 7 = true ∧ s.winBit (mgmtBase + 0x018) 0 = false ∧ (off = 0x010 ∧ value.toNat % 4096 = 0 ∨ off = 0x014), fun s =>
      s.setWin (mgmtBase + off) value⟩
  | .mirqClear value => some ⟨fun s => s.passed 7 = true, fun s => s.setWin (mgmtBase + 0x030) (s.winAt (mgmtBase + 0x030) &&& ~~~value)⟩
  | .pwrSample watts => some ⟨fun _ => True, fun s =>
      let s1 := s.setWin (mgmtBase + 0x020) (BitVec.ofNat 32 watts)
      if (s.winAt (mgmtBase + 0x024)).toNat < watts % 2 ^ 32 then s1.raiseEvent mgmtBase 0 else s1⟩
  | .selfTestStart src unit ch row addr => some ⟨fun s => (⟨src, unit, ch, row, addr⟩ : SelfTest).present s.hw.part = true ∧
        (s.testsOf ⟨src, unit, ch, row, addr⟩).length < 2, fun s =>
      let t : SelfTest := ⟨src, unit, ch, row, addr⟩
      let s1 := if s.testsOf t = [] then s.setAside t else s
      { s1 with tests := s1.tests ++ [t] }⟩
  | .selfTestComplete src unit ch row result => some ⟨fun s => result < 3 ∧ (s.tests.any fun t => t.named ⟨src, unit, ch, row, 0⟩) = true, fun s =>
      match s.tests.find? fun t => t.named ⟨src, unit, ch, row, 0⟩ with
      | none => s
      | some t =>
        let s1 := (({ s with tests := s.tests.erase t } : State).applyTest t result).logTest t result
        let s2 := if result = 0 then s1 else s1.raiseEvent mgmtBase 1
        match s2.testsOf t with
        | x :: _ => s2.setAside x
        | [] => s2⟩
  | .peerRequest pkg off len data write => some ⟨fun s => s.passed 5 = true ∧ pkg ≠ s.pkid ∧ sget s.linksDown pkg = none ∧ off < 2 ^ 39, fun s =>
      (s.servedAs 0xF8 1).outsideAccess off len data write⟩
  | .hostAccess pa len data write => some ⟨fun s => s.passed 7 = true, fun s => (s.servedAs 0xF7 1).outsideAccess pa len data write⟩
  | _ => none


/-! ### What instructions leave alone -/

/-- The byte that a core's loads find at a place: that of its L1, or that of memory. -/
def State.sees (s : State) (core pa : Nat) : Byte :=
  match nth ((s.coreAt core).l1Line (lineOf pa)) (pa % 128) none with
  | some b => b.val
  | none => s.byteAt pa

/-- Nothing else is on its way to memory: no store, atomic or reduction is in flight, no line is dirty, owned or in the reducing
cache, and no page heat is counted. -/
structure State.Settled (s : State) : Prop where
  stores : s.stores = []
  atomics : s.atomics = []
  reds : s.reds = []
  lines : s.rdc = []
  owners : s.owners = []
  races : s.recent = []
  clean : ∀ core ln, hasDirty ((s.coreAt core).l1Line ln) = false
  cold : ∀ u, s.winBit (unitBase u + 0x80) 0 = false

/-- A store: bytes, displacement, scope, order, address pair and data. -/
structure StoreForm where
  n : Nat
  q : BitVec 4
  sc : BitVec 3
  o : BitVec 2
  a : BitVec 7
  v : BitVec 7

def storeForm : Instr → Option StoreForm
  | .stB8 q sc o a v => some ⟨1, q, sc, o, a, v⟩
  | .stB16 q sc o a v => some ⟨2, q, sc, o, a, v⟩
  | .stB32 q sc o a v => some ⟨4, q, sc, o, a, v⟩
  | .stB64 q sc o a v => some ⟨8, q, sc, o, a, v⟩
  | .stB128 q sc o a v => some ⟨16, q, sc, o, a, v⟩
  | _ => none

/-- The operand roles of a store, and the address that it stores to. -/
def StoreForm.roles (f : StoreForm) : List Role := [storeRole f.v f.n, .src64 f.a]
def StoreForm.addr (f : StoreForm) (t : Thread) : Nat := lsuAddr t f.a f.q f.n

/-- The operand roles of a load, the address that it loads from, and the record of its sample. -/
def LoadForm.roles (f : LoadForm) : List Role := [loadRole f.v f.n, .src64 f.a]
def LoadForm.addr (f : LoadForm) (t : Thread) : Nat := lsuAddr t f.a f.q f.n
def LoadForm.sample (f : LoadForm) (s s1 : State) (l : LaneRef) (t : Thread) (p : Place) : Option Sample :=
  if (s.sampling f.roles).2 = some l then some ⟨f.addr t, s1.levelOf (s.who l) p f.n f.sc.toNat, s1.cycle⟩ else none

/-- What an instruction that delivers nothing to its thread's registers leaves of it. -/
structure SameRegisters (t u : Thread) : Prop where
  regs : u.regs = t.regs
  preds : u.preds = t.preds
  latches : u.latches = t.latches
  window : u.wb = t.wb ∧ u.xs = t.xs
  flags : u.fpctl = t.fpctl
  stack : u.ret = t.ret ∧ u.rsd = t.rsd ∧ u.sp = t.sp
  traps : u.trcause = t.trcause ∧ u.trpc = t.trpc ∧ u.trpch = t.trpch ∧ u.tradl = t.tradl ∧ u.tradh = t.tradh ∧ u.trdet = t.trdet
  handler : u.handler = t.handler
  pixel : u.pixel = t.pixel

/-- The absolute registers that a destination names. -/
def Dst.regs (d : Dst) (t : Thread) : List Nat :=
  match d with
  | .r32 f => [t.absReg f.toNat]
  | .r64 f => [t.absReg f.toNat, t.absReg f.toNat + 1]
  | .p _ => []

/-- The predicate that a destination names. -/
def Dst.pred? : Dst → Option Nat
  | .p q => some q.toNat
  | _ => none

/-- The instructions of one live thread that act on that thread alone. -/
def threadOnly : Instr → Bool
  | .jmpi .. | .trap .. | .trapret | .oswait .. | .cvwait .. | .cvt .. | .qnt .. | .dqnt .. | .qscl .. | .rot .. | .irot .. | .tagmk ..
  | .sgen .. | .mtag .. | .sproj .. | .skey .. | .sinit .. | .sinitr | .srd .. | .swr .. | .sblend .. | .sgrad .. => true
  | _ => false

/-- The form of an instruction of one live thread, whichever table holds it. -/
def soloForm (i : Instr) : Option SoloForm :=
  (sequencerForm i).or ((memoryForm i).or ((copyForm i).or ((gatherForm i).or ((matrixForm i).or ((splatForm i).or
    ((deviceForm i).or (converterForm i)))))))

/-! ### Helper lanes, 01 R10, 07 R171 -/

/-- A helper lane that only goes on. -/
def advancing (rs : List Role) (ok : State → Thread → Prop) : SoloForm := ⟨rs, fun s _ t => ok s t, fun s l t => s.setLane l (t.advance 4)⟩

/-- A helper lane that receives constants and goes on. -/
def receiving (rs : List Role) (ok : State → Thread → Prop) (f : Thread → Thread) : SoloForm :=
  ⟨rs, fun s _ t => ok s t, fun s l t => s.setLane l ((f t).advance 4)⟩

/-- A sort command in a helper lane. -/
def sortHelper (sub mode : Nat) (c d : BitVec 7) : SoloForm :=
  advancing [.src c] fun _ t =>
    let k := kseOf sub mode (descRun t d (kseRegs mode))
    descField d = none ∧ runCheck t d (kseRegs mode) = none ∧ k.early = none ∧ k.late = none

/-- A device command in a helper lane: Cnt := 0. -/
def deviceHelper (tag : Option (BitVec 6)) (c d : BitVec 7) (roles : List Role) : SoloForm :=
  receiving (Role.dst c :: roles) (fun s _ => descField d = none ∧ cntDest c = none ∧ ∀ k, tag = some k → s.badTag k.toNat = none)
    fun t => t.setVal c 0

/-- A collective command in a helper lane: Cnt := all ones. -/
def collHelper (c d : BitVec 7) : SoloForm :=
  receiving [.dst c] (fun _ _ => descField d = none ∧ cntDest c = none) fun t => t.setVal c (BitVec.allOnes 32)

/-- A call in a helper lane: its registers change as a call's do, and nothing is stored. -/
def callHelper (roles : List Role) (ok : Thread → Prop) (target : Thread → Dword) : SoloForm :=
  ⟨roles, fun _ _ t => t.rsd ≠ 0xFFFFFFFF ∧ ok t, fun s l t =>
    s.setLane l ({ t with ret := ((t.pc + 4) :: t.ret).take 4, rsd := t.rsd + 1, sp := if t.rsd.toNat < 4 then t.sp else t.sp - 8 }.goTo (target t))⟩

/-- A rendezvous in a helper lane, which does not arrive. -/
def barHelper : SoloForm := ⟨[], fun _ _ _ => True, fun s l t => (s.setLane l (t.advance 4)).modBlock s.issue.core s.issue.blk Block.checkBar⟩

/-- An instruction in a helper lane: its roles, when it executes normally there, and the state it leaves. -/
def helperForm (i : Instr) : Option SoloForm :=
  match storeForm i, atomForm i, redForm i with
  | some f, _, _ => some (advancing f.roles fun _ _ => stWord f.o.toNat f.sc = none)
  | none, some f, _ => some (advancing f.roles fun _ _ => atWord f.op f.ty.toNat f.o.toNat f.sc.toNat = none)
  | none, none, some f => some (advancing f.roles fun _ _ => rdWord f.op f.ty.toNat f.sc.toNat = none)
  | none, none, none =>
    match i with
    | .movs sr d => some ⟨[.dst d], fun _ _ _ => specialAssigned sr.toNat = true, fun s l t =>
        let r := s.readSpecial s.issue.core s.issue.blk t sr.toNat
        s.setLane l ((r.2.setVal d r.1).advance 4)⟩
    | .sets sr a => some ⟨[.src a], fun _ _ t => specialWritable sr.toNat = true ∧ setsCheck t sr.toNat (t.val a) = none, fun s l t =>
        s.setLane l ((if specialBlock sr.toNat then t else t.writeSpecial sr.toNat (t.val a)).advance 4)⟩
    | .call o _ => some (callHelper [] (fun _ => True) fun t => t.pc + 2 * o.signExtend 64)
    | .calli _ a => some (callHelper [.src64 a] (fun t => (t.val64 a).getLsbD 0 = false) fun t => t.val64 a)
    | .jmpi _ a => some ⟨[.src64 a], fun _ _ t => (t.val64 a).getLsbD 0 = false, fun s l t => s.setLane l (t.goTo (t.val64 a))⟩
    | .ret _ => some ⟨[], fun _ _ t => t.rsd ≠ 0, fun s l t =>
        s.setLane l ((if t.rsd.toNat ≤ 4 then { t with ret := t.ret.drop 1, rsd := t.rsd - 1 }
          else { t with ret := t.ret.drop 1 ++ [0], sp := t.sp + 8, rsd := t.rsd - 1 } : Thread).goTo (nth t.ret 0 0))⟩
    | .trap _ => some ⟨[], fun _ _ _ => True, fun s _ _ => s⟩
    | .exit => some ⟨[], fun _ _ _ => True, fun s _ _ => s⟩
    | .bar => some barHelper
    | .regroup => some barHelper
    | .yield => sequencerForm i
    | .cvarm _ a => some (advancing [.src a] fun _ _ => True)
    | .cvsign _ => some (advancing [] fun _ _ => True)
    | .cvsync _ => some (advancing [] fun _ _ => True)
    | .cvwait _ => some (advancing [] fun _ _ => True)
    | .oswait _ => some (advancing [] fun _ _ => True)
    | .tmark _ a => some (advancing [.src a] fun _ _ => True)
    | .tflush k => some (advancing [] fun s _ => s.badTag k.toNat = none)
    | .tcsnap k d => some (advancing [.src64 d] fun s _ => descField d = none ∧ s.badTag k.toNat = none)
    | .zline _ sc o a => some (advancing [.src64 a] fun _ _ => stWord o.toNat sc = none)
    | .prf _ a => some (advancing [.src64 a] fun _ _ => True)
    | .cwb _ a => some (advancing [.src64 a] fun _ _ => True)
    | .cinv _ a => some (advancing [.src64 a] fun _ _ => True)
    | .fence _ sc => some (advancing [] fun _ _ => sc.toNat ≤ 4)
    | .rcflush _ a => some (advancing [.src64 a] fun _ _ => True)
    | .cpl m _ d => some (advancing [] fun _ _ => m.toNat ≠ 3 ∧ descField d = none)
    | .cpt _ d => some (advancing [] fun _ _ => descField d = none)
    | .cptr _ d => some (advancing [] fun _ _ => descField d = none)
    | .cptc _ d => some (advancing [] fun _ _ => descField d = none)
    | .cpml _ _ d => some (advancing [] fun _ _ => descField d = none)
    | .cpms _ _ d => some (advancing [] fun _ _ => descField d = none)
    | .wany m c d => some (receiving [.dst64 c, .src64 d] (fun _ _ => m.toNat ≠ 3 ∧ descField d = none ∧ cntDest c = none) fun t =>
        t.setVal64 c 0)
    | .wall m d => some (advancing [.src64 d] fun _ _ => m.toNat ≠ 3 ∧ descField d = none)
    | .ffrdy m c d => some (receiving [.dst c, .src64 d] (fun _ _ => m.toNat ≠ 3 ∧ descField d = none ∧ cntDest c = none) fun t => t.setVal c 0)
    | .gswt m _ c d => some (receiving [.dst c, .src64 d] (fun _ _ => m.toNat ≠ 3 ∧ descField d = none ∧ cntDest c = none) fun t => t.setVal c 0)
    | .gspoll m _ c d => some (receiving [.dst c, .src64 d] (fun _ _ => m.toNat ≠ 3 ∧ descField d = none ∧ cntDest c = none) fun t => t.setVal c 0)
    | .mma _ _ _ _ _ => some (advancing [] fun _ _ => True)
    | .mmam _ _ _ _ _ => some (advancing [] fun _ _ => True)
    | .mtag _ _ _ => matrixForm i
    | .sproj a d => some (receiving [.rw a 9, .also d 9] (fun _ _ => sbRunA a = none ∧ sbRunD d = none) fun t =>
        t.setRegs (t.absReg d.toNat) (List.replicate 9 0))
    | .skey b a d => some (receiving [.src a, .src b, .dst64 d] (fun _ _ => sbSrc a = none ∧ sbSrc b = none ∧ sbDst d = none) fun t =>
        t.setVal64 d 0)
    | .sinit a => some (advancing [.src a] fun _ _ => sbSrc a = none)
    | .sinitr => some (advancing [] fun _ t => t.helper = true)
    | .srd d => some (receiving [.also d 8] (fun _ _ => sbRunD d = none) fun t => t.setRegs (t.absReg d.toNat) (List.replicate 8 0))
    | .swr a => some (advancing [.rw a 8] fun _ t => sbRunA a = none ∧ nth (t.regRun (t.absReg a.toNat) 8) 7 0 = 0 ∧
        (nth (t.regRun (t.absReg a.toNat) 8) 5 0).toNat < 2 ^ 27)
    | .sblend b a d => some (receiving [.rw a 12, .src b, .dst d] (fun _ t => sbRunA a = none ∧ sbSrc b = none ∧ sbDst d = none ∧
        (t.val b).toNat < 0x00FFFFFF) fun t => t.setVal d 0)
    | .sgrad b a d => some (receiving [.rw a 12, .src b, .rw d 3, .also d 12] (fun _ t => sbRunA a = none ∧ sbSrc b = none ∧
        sbRunD d = none ∧ (t.val b).toNat < 0x00FFFFFF) fun t => t.setRegs (t.absReg d.toNat + 3) (List.replicate 9 0))
    | .kemit c d => some (receiving [.dst64 c, .src64 d, .rw d 5] (fun _ _ => descField d = none ∧ cntDest c = none) fun t =>
        t.setVal64 c (BitVec.allOnes 64))
    | .ksort _ c d => some (sortHelper 1 0 c d)
    | .ksortBat _ c d => some (sortHelper 1 1 c d)
    | .ksel _ c d => some (sortHelper 2 0 c d)
    | .kselBat _ c d => some (sortHelper 2 1 c d)
    | .kcs _ c d => some (sortHelper 3 0 c d)
    | .ocomp _ c d => some (collHelper c d)
    | .ored _ c d => some (collHelper c d)
    | .cbar _ c d => some (collHelper c d)
    | .cfail c d => some (receiving [.dst c, .src d] (fun _ _ => descField d = none ∧ cntDest c = none) fun t => t.setVal c (BitVec.allOnes 32))
    | .launch c d => some (deviceHelper none c d [.src64 d, .rw d 3])
    | .launchSig k c d => some (deviceHelper (some k) c d [.src64 d, .rw d 3])
    | .spawn n c d => if n.toNat ≤ 4 then some (deviceHelper none c d [.src64 d, .rw d (2 + n.toNat)]) else none
    | .spawnNow n c d => if n.toNat ≤ 4 then some (deviceHelper none c d [.src64 d, .rw d (2 + n.toNat)]) else none
    | .tgsig c d => some (deviceHelper none c d [.src d])
    | .binflush c d => some (deviceHelper none c d [.src64 d])
    | .fxrun c d => some (deviceHelper none c d [.src64 d])
    | .fxrunSig k c d => some (deviceHelper (some k) c d [.src64 d])
    | .fxabort c d => some (deviceHelper none c d [.src64 d])
    | .cvt _ _ _ _ => converterForm i
    | .tagmk _ _ _ => converterForm i
    | .sgen _ _ _ _ => converterForm i
    | .seed n _ a d => some ⟨[.dst d, .src64 a], fun _ _ t => t.atAnchor = false ∧ cvtSource a = none, fun s l t =>
        s.setLane l (t.finish 4 (.r32 d) (bit1 n) false 0 0)⟩
    | .seedr n _ a d => some ⟨[.dst d, .src64 a, .rw d 1], fun _ _ t => t.atAnchor = false ∧ cvtSource a = none, fun s l t =>
        s.setLane l (t.finish 4 (.r32 d) (bit1 n) false 0 0)⟩
    | _ => none

/-! ### Paths of several lanes -/

/-- The instructions that each lane of a path executes on its own, one lane after the other. -/
def laneByLane : Instr → Bool
  | .movs .. | .sets .. | .call .. | .trap .. | .trapret | .exit | .cvarm .. | .cvsign .. | .cvsync .. | .cvwait .. | .oswait ..
  | .tmark .. | .tflush .. | .tcsnap .. | .prf .. | .stB8 .. | .stB16 .. | .stB32 .. | .stB64 .. | .stB128 .. | .zline .. | .cwb ..
  | .cinv .. | .fence .. | .rcflush .. | .cpt .. | .cptr .. | .cptc .. | .cpml .. | .cpms .. | .wany .. | .wall .. | .ffrdy ..
  | .gswt .. | .gspoll .. | .mma .. | .mmam .. | .mtag .. | .sproj .. | .skey .. | .sinit .. | .sinitr | .srd .. | .swr ..
  | .sblend .. | .sgrad .. | .cvt .. | .seed .. | .seedr .. | .tagmk .. | .sgen .. | .ksort .. | .ksortBat .. | .ksel .. | .kselBat ..
  | .kcs .. | .ocomp .. | .ored .. | .cbar .. | .cfail .. | .launch .. | .launchSig .. | .spawn .. | .spawnNow .. | .tgsig ..
  | .binflush .. | .fxrun .. | .fxrunSig .. | .fxabort .. => true
  | _ => false

/-- Nothing is on its way to a lane's registers. -/
def State.Free (s : State) (l : LaneRef) : Prop :=
  (∀ x ∈ s.loads, x.who ≠ s.who l) ∧ ∀ a ∈ s.atomics, ∀ x ∈ a.lanes, (⟨a.core, a.blk, x.1⟩ : Who) ≠ s.who l

/-- The form that a lane executes: a live lane's, or a helper's. -/
def SoloForm.at (f h : SoloForm) (l : LaneRef) : SoloForm := if l.helper then h else f

/-- Each of these lanes meets its form's conditions in the state that the lanes before it leave. -/
def SoloForm.ready (f h : SoloForm) : State → List LaneRef → Prop
  | _, [] => True
  | s, l :: ls => ∃ t, s.lane? l = some t ∧ (l.helper = false → s.Free l) ∧ check t (f.at h l).roles = none ∧ (f.at h l).ok s l t ∧
      f.ready h ((f.at h l).eff s l t) ls

/-- What these lanes leave, each acting after those before it. -/
def SoloForm.inTurn (f h : SoloForm) : State → List LaneRef → State
  | s, [] => s
  | s, l :: ls =>
    match s.lane? l with
    | some t => f.inTurn h ((f.at h l).eff s l t) ls
    | none => f.inTurn h s ls

/-- A form of which nothing is said. -/
def SoloForm.never : SoloForm := ⟨[], fun _ _ _ => False, fun s _ _ => s⟩

/-- A load in one of several lanes, of which one may be sampled: granted, and its data on its way. -/
def LoadForm.inLane (f : LoadForm) (smp : Option LaneRef) : SoloForm :=
  ⟨f.roles, fun s l t => f.addr t % f.n = 0 ∧ s.Grants l (f.addr t) f.n .r false (sizedAt f.sc.toNat), fun s l t =>
    s.granted l (f.addr t) f.n .r false (sizedAt f.sc.toNat) fun s1 p =>
      let x : Option Sample := if smp = some l then some ⟨f.addr t, s1.levelOf (s.who l) p f.n f.sc.toNat, s1.cycle⟩ else none
      let r := s1.loadAs (s.who l) p f.n f.o.toNat f.sc.toNat
      (({ r.1 with loads := r.1.loads ++ [⟨r.1.nextId, s.who l, f.words t r.2.1, ⟨BitVec.ofNat 64 (f.addr t), t.pc⟩, r.2.2, lineOf p.pa, x⟩] } :
        State).fresh).advanceLane l⟩

/-- A load in a helper lane: its registers become 0. -/
def LoadForm.inHelper (f : LoadForm) : SoloForm :=
  receiving f.roles (fun _ _ => True) fun t => t.setRegs (t.absReg f.v.toNat) (widen f.signed (List.replicate f.n 0))

/-- The lanes of a path enter an instruction that then acts for all of them: each live lane passes and supplies an item, from the state
that the lanes before it leave; a helper lane has a change of its own. -/
def Collected {β : Type} (roles : List Role) (help : Thread → Thread) (entry : State → LaneRef → Thread → State → β → Prop) :
    State → List LaneRef → State → List β → Prop
  | s, [], u, xs => u = s ∧ xs = []
  | s, l :: ls, u, xs => ∃ t, s.lane? l = some t ∧ check t roles = none ∧
      ((l.helper = true ∧ Collected roles help entry (s.setLane l (help t)) ls u xs) ∨
        (l.helper = false ∧ s.Free l ∧ ∃ s1 x ys, entry s l t s1 x ∧ xs = x :: ys ∧ Collected roles help entry s1 ls u ys))

/-- A lane's entry into an atomic: an aligned address, an access that is granted, an operation that the memory supports. -/
def AtomForm.entry (f : AtomForm) (s : State) (l : LaneRef) (t : Thread) (s1 : State) (x : AtLane) : Prop :=
  (t.val64 f.a).toNat % f.span = 0 ∧ ∃ p, s.watchedAccess (s.who l) (t.val64 f.a).toNat f.span f.need true
      (fun s p => !atomInL1 f.sc.toNat s p) = (s1, .ok p) ∧
    unsupported s p f.fp (f.width == 16) = false ∧ x = t.atomLane l f.a f.v f.width p

/-- A lane's entry into a reduction, with room in its count of outstanding stores. -/
def RedForm.entry (f : RedForm) (s : State) (l : LaneRef) (t : Thread) (s1 : State) (x : AtLane) : Prop :=
  t.full = false ∧ (t.val64 f.a).toNat % f.width = 0 ∧ ∃ p, s.watchedAccess (s.who l) (t.val64 f.a).toNat f.width .w true unsized = (s1, .ok p) ∧
    unsupported s p (decide (8 ≤ f.op)) (f.width == 16) = false ∧ x = t.atomLane l f.a f.v f.width p

/-- A lane's entry into a lane copy: its tag, its pair of addresses, and both granted. -/
def copyEntry (m : BitVec 2) (tag : BitVec 6) (d : BitVec 7) (s : State) (l : LaneRef) (t : Thread) (s1 : State) (x : LaneRef × Nat × Nat) : Prop :=
  let w := descRun t d 4
  s.badTag tag.toNat = none ∧ t.absReg d.toNat % 2 = 0 ∧ runCheck t d 4 = none ∧
    s.cplCheck (4 * 2 ^ m.toNat) (pairAt w 0) (pairAt w 2) = (s1, none) ∧ x = (l, pairAt w 0, pairAt w 2)

/-- A lane's entry into `kemit`: its header address and its record. -/
def emitEntry (d : BitVec 7) (s : State) (l : LaneRef) (t : Thread) (s1 : State) (x : Emit) : Prop :=
  let w := descRun t d 5
  t.full = false ∧ s1 = s ∧ x = ⟨l, pairAt w 0, wordBytes (wordAt w 2) ++ wordBytes (wordAt w 3) ++ wordBytes (wordAt w 4) ++ leOf 4 0⟩

/-- The instructions whose lanes agree before they act. -/
def groupForm : Instr → Option GroupForm
  | .qnt n b a d => some (converting n d a b qntPlan (qntResult a d))
  | .dqnt n b a d => some (converting n d a b dqntPlan (dqntResult a))
  | .qscl n b a d => some (converting n d a b qsclPlan (qsclResult a d))
  | .rot n b a d => some (converting n d a b rotPlan (rotResult false a))
  | .irot n b a d => some (converting n d a b rotPlan (rotResult true a))
  | .ard b a d => some (reading b a d)
  | .awr b a d => some (writing b a d)
  | .asv k a d => some (saving k a d)
  | .arst k a d => some (restoring k a d)
  | .aalloc p a d => some (allocating p a d)
  | .afree a => some (freeing a)
  | .aacq a => some (acquiring a)
  | .arel a => some (yielding a)
  | .azero a => some (zeroing a)
  | .gsg tag c d => some (gathering 0 tag c d)
  | .gsgm tag c d => some (gathering 1 tag c d)
  | .gss tag c d => some (gathering 2 tag c d)
  | .gssm tag c d => some (gathering 3 tag c d)
  | .sload sc a d => some (recordLoad sc a d)
  | .awaitf c d => some (awaiting c d)
  | .relslot d => some (releasing d)
  | _ => none

end Sys2Proof.Machine
end

