-- ==== Sys2Proof/Certificates/Slice0/Obligations.lean ====
section
/-! DEFINITION. The statements for the provers. Each formalises what rules of the spec say of this machine, in the terms of
Sys2Proof.Safety. -/

open Sys2Proof Sys2Proof.Machine

/-- For every 16-bit instruction with every operand value, decoding its encoded bytes followed by any bytes gives that
instruction and leaves those bytes. (R67, R71, R72.) -/
def Obligations.SixteenBitRoundTrip : Prop :=
  ∀ (i : Instr) (rest : List Byte), i.bytes = 2 → decode (encode i ++ rest) = .ok (i, rest)

/-- For every well-formed 32-bit instruction of a Densil program with every operand value, decoding its encoded bytes followed
by any bytes gives that instruction and leaves those bytes: no bit of an operand is dropped and no two encodings meet. (R67,
R73, R74, R79.) -/
def Obligations.DensilRoundTrip : Prop :=
  ∀ (i : Instr) (rest : List Byte), i.bytes = 4 → i.isFixer = false → i.wf = true → decode (encode i ++ rest) = .ok (i, rest)

/-- For every well-formed fixer instruction with every operand value, decoding its word as a fixer word gives that instruction.
(R346, R348, R349, R350.) -/
def Obligations.FixerRoundTrip : Prop :=
  ∀ i : Instr, i.isFixer = true → i.wf = true → decodeFixer (encodeWord i) = some i

/-- The words 0x159E0287, 0x12346287, 0x021401D9, 0x097E0019, 0x000440DB, 0x1200E159 and 0x14000019 of the spec decode to mvk
v10 0x5678, mvkh v10 0x48D1, sets fpctl v7, xadd x2 -16, br.uni p1 +34 bytes, tmark v5 7 and tsmp. (R91, R92, R95, R174, R436.)
-/
def Obligations.SpecWordsDecode : Prop :=
  decode (toBytes 4 0x159E0287) = .ok (.mvk 0x5678 10, []) ∧ decode (toBytes 4 0x12346287) = .ok (.mvkh 0x48D1 10, []) ∧
  decode (toBytes 4 0x021401D9) = .ok (.sets 0x0A0 7, []) ∧ decode (toBytes 4 0x097E0019) = .ok (.xadd 2 (-16), []) ∧
  decode (toBytes 4 0x000440DB) = .ok (.br 17 0 1 1, []) ∧ decode (toBytes 4 0x1200E159) = .ok (.tmark 7 5, []) ∧
  decode (toBytes 4 0x14000019) = .ok (.tsmp, [])

/-- Decoding a 32-bit word with bit 0 set and major 31 in bits 5 to 1 answers that the word is unassigned. (R79, R67.) -/
def Obligations.UnassignedMajorRejected : Prop :=
  ∀ (w : Nat) (rest : List Byte), w < 2 ^ 32 → w % 64 = 63 → decode (toBytes 4 w ++ rest) = .error (.unassigned (BitVec.ofNat 32 w))

/-- When no input waits, a path is chosen and has lanes left, its fetch succeeds, no breakpoint stops a lane and the bytes
decode to i, the step is the end of a cycle that has noted the ready groups, after exec of i in the state of the fetch, with the
record of breakpoints that only record, the one-time pass of breakpoints used up, and afterwards helpers waiting with their
leaders, threads that step halted, and the slot's second path, where it has one. (R68, R165, R166, R169, R170, R171, R441.) -/
def Obligations.StepRunsDecoded : Prop :=
  ∀ (s s1 : State) (p0 : Issue) (bs rest : List Byte) (i : Instr),
    s.agenda = [] → s.sel = some (.path p0) →
    let n := s.noteGroups
    let p := n.takeChoice.livePath p0
    p.lanes ≠ [] → (n.takeChoice.onPath p).fetch p.core p.blk p.pc = (s1, .ok bs) → s1.breakLanes p = [] → decode bs = .ok (i, rest) →
    Machine.step s = endCycle (n.slotOf (n.livePath p0)) (thenMate n.slotMate (afterPath s1 p (exec i ((s1.breakNotes p).clearSkip p))))

/-- When no input waits, a path is chosen, has lanes left and meets no breakpoint: bytes that are an unassigned word trap its
lanes with cause 0x01, reserved bytes trap them with cause 0x02, a tflush with a latch or a constant other than zero in its
descriptor field traps them with cause 0x03, subcause 0x20, and a fetch that faults traps them with its cause and address;
then the slot's second path executes, where it has one. (R68, R70, R79, R170, R437.) -/
def Obligations.StepTrapsUndecoded : Prop :=
  ∀ (s s1 : State) (p0 : Issue) (bs : List Byte) (w : Word) (cause sub addr : Nat),
    s.agenda = [] → s.sel = some (.path p0) →
    let n := s.noteGroups
    let p := n.takeChoice.livePath p0
    let slot := n.slotOf (n.livePath p0)
    let s2 := (s1.breakNotes p).clearSkip p
    p.lanes ≠ [] → s1.breakLanes p = [] →
    (((n.takeChoice.onPath p).fetch p.core p.blk p.pc = (s1, .ok bs) → decode bs = .error (.unassigned w) →
      Machine.step s = endCycle slot (thenMate n.slotMate (afterPath s1 p (.next (s2.trapPath 1 0 0 0))))) ∧
    ((n.takeChoice.onPath p).fetch p.core p.blk p.pc = (s1, .ok bs) → decode bs = .error (.reserved w) →
      Machine.step s = endCycle slot (thenMate n.slotMate (afterPath s1 p (.next (s2.trapPath 2 0 0 0))))) ∧
    ((n.takeChoice.onPath p).fetch p.core p.blk p.pc = (s1, .ok bs) → decode bs = .error (.descriptor w) →
      Machine.step s = endCycle slot (thenMate n.slotMate (afterPath s1 p (.next (s2.trapPath 3 0x20 0 0))))) ∧
    ((n.takeChoice.onPath p).fetch p.core p.blk p.pc = (s1, .error (cause, sub, addr)) →
      Machine.step s = endCycle slot (thenMate n.slotMate
        (afterPath s1 p (.next (s1.trapPath cause sub (BitVec.ofNat 64 addr) (memDet 2 false false true)))))))

/-- When no input waits, an instance of a kernel is chosen and the word at its PC is fetched, the step is the end of a cycle
after exec of the decoded instruction, or after the exception of an unassigned or reserved word. (R344, R346, R347.) -/
def Obligations.StepRunsFixerWord : Prop :=
  ∀ (s s1 : State) (kn n w : Nat) (k : Kernel) (x : FxInst),
    s.agenda = [] → s.sel = some (.fixer kn n) → sget s.kernels kn = some k → sget k.insts n = some x →
    ((s.noteGroups.dropChoice.onInst kn n).servedKernel k).fxFetch k x.pc.toNat = (s1, some w) →
    (∀ i, decodeFixer w = some i → Machine.step s = endCycle none (exec i s1)) ∧
    (decodeFixer w = none → fixerUnassigned w = true → Machine.step s = endCycle none (exec (.fixerUnassignedOp (BitVec.ofNat 32 w)) s1)) ∧
    (decodeFixer w = none → fixerUnassigned w = false → Machine.step s = endCycle none (.next (s1.fxReserved (BitVec.ofNat 32 w))))

/-- When an input or a chosen event waits, the step takes the oldest off the agenda and executes it. That inputs stand on an
agenda is the choice of the model, log entry 4. (R414, R443, R341, R11.) -/
def Obligations.StepTakesInput : Prop :=
  ∀ (s : State) (i : Instr) (rest : List Instr), s.agenda = i :: rest →
    Machine.step s = endCycle none (exec i { s.noteGroups with agenda := rest })

/-- For every instruction or event and every state, exec answers a next state: an exception is taken, never a stop of the
machine. (R27, R79, R186.) -/
def Obligations.EveryInstructionAnswers : Prop := ∀ (i : Instr) (s : State), ∃ t, exec i s = .next t

/-- At reset MID reads 8, PWRTH 3600 and every other register of the management window 0, STCNT and the self-test log among
them, and every register of the trace window 0, the breakpoint and watchpoint registers and HST among them. Every partition and
port has CLSW 0x00010408, AGELIM 100000, LCRTH 64, ACETH 1024 and HCTL 0x0000000C, and its error counters, IRQST, IRQEN, ELCNT,
error log, heat command and range, missed-deadline counters and eye margins read 0; every partition has EYETH 0x00011420, SWTH
4096, SWCNT 0 and RTCAP 512. Main power is off, and no core, launch, queue, kernel, load, store, atomic, reduction, command,
waiting command, migration or request to memory exists. That the package is an S8 is the model's choice, log entry 1. (R414,
R415, R433, R444, R445.) -/
def Obligations.ResetValues : Prop :=
  let read := State.reset.readRegister
  let unit := State.reset.readUnit
  read mgmtBase = 8 ∧ read (mgmtBase + 0x024) = 3600 ∧ (∀ o < 0x1000, o ≠ 0 → o ≠ 0x024 → read (mgmtBase + o) = 0) ∧
  (∀ o < 0x1000, read (traceBase + o) = 0) ∧
  (∀ u < 12, unit u 0x010 = 0x00010408 ∧ unit u 0x014 = 100000 ∧ unit u 0x038 = 64 ∧ unit u 0x03C = 1024 ∧ unit u 0x080 = 0x0000000C ∧
    (∀ o ∈ [0x020, 0x024, 0x028, 0x02C, 0x030, 0x034, 0x044, 0x084, 0x088, 0x08C, 0x090, 0x094, 0x098, 0x09C], unit u o = 0) ∧
    ∀ o, (0x400 ≤ o ∧ o < 0x600 ∨ 0x1000 ≤ o ∧ o < 0x6000) → unit u o = 0) ∧
  (∀ u < 8, unit u 0x050 = 0x00011420 ∧ unit u 0x060 = 4096 ∧ unit u 0x064 = 0 ∧ unit u 0x074 = 512) ∧
  State.reset.mainPower = false ∧ State.reset.cores = [] ∧ State.reset.launches = [] ∧ State.reset.queues = [] ∧
  State.reset.kernels = [] ∧ State.reset.cmds = [] ∧ State.reset.waiting = [] ∧ State.reset.loads = [] ∧ State.reset.stores = [] ∧
  State.reset.atomics = [] ∧ State.reset.reds = [] ∧ State.reset.migrations = [] ∧ State.reset.units = []

/-- The memory of the reset state has the canonical form: addresses rise strictly and no entry is 0, which is what an unlisted
byte reads as. That unwritten memory reads 0 is the model's choice, log entry 2. (R14, R445.) -/
def Obligations.ResetMemoryOk : Prop := State.reset.MemOk

/-- In every state whose memory has the canonical form, a step that answers a next state leaves memory in the canonical form,
whatever instruction, event or input it executes. (R14, R129, R131, R340, R341.) -/
def Obligations.MemoryKept : Prop := Kept State.MemOk

/-- After bytes are put at a place of memory or of stage memory, each of them reads as it was put and every other byte reads as
before. (R14, R15, R39.) -/
def Obligations.BytesReadBack : Prop :=
  ∀ (s : State) (a x : Nat) (bs : List Byte), (a + bs.length ≤ stageBase ∨ stageBase ≤ a) →
    (∀ h : a ≤ x ∧ x < a + bs.length, (s.putBytes a bs).byteAt x = bs[x - a]'(by omega)) ∧
    ((x < a ∨ a + bs.length ≤ x) → (s.putBytes a bs).byteAt x = s.byteAt x)

/-- For each of the 101 latching instructions of the 16-bit form and of the lane arithmetic unit: with nothing on its way to a
register, and the operand checks passing in every lane of the path, exec answers the state in which each lane has taken the
result that the table latchForm gives: destination written unless N, latches shifted, flags raised, PC advanced, and nothing
else changed. (R72, R80, R84, R96, R97, R100, R104, R106, R109, R112, R113, R115.) -/
def Obligations.LatchingCompletes : Prop :=
  ∀ (i : Instr) (f : LatchForm) (s : State), latchForm i = some f → s.Quiet →
    s.EachLane (fun t => Passes t (f.dst.role :: f.srcs)) →
    exec i s = .next (s.eachLane fun t => t.finish f.len f.dst f.n (readsLatch f.srcs) (f.op t).1 (f.op t).2)

/-- A finished latching instruction: the destination holds the result unless N is set; the newest latch is the result and the
others shift; its flags are added to FPCTL except in a helper lane; every other register, every other predicate, the window,
loop addresses, return stack, trap registers, handler flag and pixel state stay. (R80, R46, R74, R113, R89.) -/
def Obligations.FinishEffect : Prop :=
  ∀ (t : Thread) (len : Nat) (d : Dst) (n reads : Bool) (v : Dword) (fl : Word),
    let u := t.finish len d n reads v fl
    u.latches = (v :: t.latches).take 8 ∧ u.fpctl = (if t.helper then t.fpctl else t.fpctl ||| fl) ∧
    (∀ r, (n = true ∨ r ∉ d.regs t) → u.reg r = t.reg r) ∧ (∀ k, (n = true ∨ d.pred? ≠ some k) → u.preds.getLsbD k = t.preds.getLsbD k) ∧
    (∀ f, n = false → d = .r32 f → u.reg (t.absReg f.toNat) = lo32 v) ∧
    (∀ f, n = false → d = .r64 f → u.reg (t.absReg f.toNat) = lo32 v ∧ u.reg (t.absReg f.toNat + 1) = hi32 v) ∧
    (∀ q, n = false → d = .p q → u.preds.getLsbD q.toNat = decide (v ≠ 0)) ∧
    u.wb = t.wb ∧ u.xs = t.xs ∧ u.ls = t.ls ∧ u.le = t.le ∧ u.ret = t.ret ∧ u.rsd = t.rsd ∧ u.sp = t.sp ∧ u.trcause = t.trcause ∧
    u.trpc = t.trpc ∧ u.trdet = t.trdet ∧ u.handler = t.handler ∧ u.mode = t.mode ∧ u.osc = t.osc ∧ u.pixel = t.pixel

/-- For mvk, mvkh, setwb, xset, xadd, nop, loop, loopi, lbrk, lcont and tsmp: with nothing on its way to a register, and the
checks passing in every lane of the path, exec answers the state in which each lane has taken the change that the table
plainForm gives, and nothing else has changed. (R88, R89, R91, R92, R94, R95, R436.) -/
def Obligations.PlainCompletes : Prop :=
  ∀ (i : Instr) (f : PlainForm) (s : State), plainForm i = some f → s.Quiet →
    s.EachLane (fun t => check t f.roles = none ∧ f.ok t = true) → exec i s = .next (s.eachLane f.eff)

/-- For each shuffle, query, match, scan, reduction, compaction and remap: with nothing on its way to a register, the operand
checks passing in every lane and no replay in progress, exec answers the state in which each lane has received the value and
flags that the table exchForm gives from what the lanes of the path supply, and nothing else has changed. That an expansion
gives 0 for the rank of a helper lane is the model's choice, log entry 44. (R197, R199, R200, R201, R202, R203, R204, R205,
R206, R209.) -/
def Obligations.ExchangeCompletes : Prop :=
  ∀ (i : Instr) (f : ExchForm) (s : State), exchForm i = some f → s.Quiet →
    s.EachLane (fun t => check t (f.dst.role :: f.srcs) = none ∧ t.replay = none) → exec i s = .next (s.exchanged f)

/-- When an instruction of latchForm, plainForm or exchForm executes under the conditions of its completion, every byte of
memory, every thread that is no lane of its path, the registers of every block, the launches, the windows and all traffic stay
as they were. (R96, R80, R95, R197, R81.) -/
def Obligations.LanesOnlyFrame : Prop :=
  ∀ (i : Instr) (s u : State), s.Quiet → exec i s = .next u →
    ((∃ f, latchForm i = some f ∧ s.EachLane (fun t => Passes t (f.dst.role :: f.srcs))) ∨
     (∃ f, plainForm i = some f ∧ s.EachLane (fun t => check t f.roles = none ∧ f.ok t = true)) ∨
     (∃ f, exchForm i = some f ∧ s.EachLane (fun t => check t (f.dst.role :: f.srcs) = none ∧ t.replay = none))) → LanesOnly s u

/-- movs, sets, call, calli, jmpi, ret, trap, trapret, exit, yield, bar, regroup, cvarm, cvsign, cvsync, cvwait, oswait, tmark,
tflush and tcsnap. On a path of one live thread with nothing on its way to its registers, whose operand checks and the
conditions of the table hold, exec answers the state that the table gives. The model's choices, not the rules', are in it: the
engine command id 0 in the credits of tflush and tcsnap and the subcause of a halt held until trapret (log entry 42), the locks
and the checks of tcsnap (log entry 27), and the return to an odd address, which traps at the fetch (log entry 43). (R95, R137,
R176, R178, R179, R181, R183, R184, R187, R190, R207, R437.) -/
def Obligations.SequencerCompletes : Prop :=
  ∀ (i : Instr) (f : SoloForm) (s : State) (l : LaneRef) (t : Thread), sequencerForm i = some f → s.Solo l t f.roles → f.ok s l t →
    exec i s = .next (f.eff s l t)

/-- prf, the five stores, zline, cwb, cinv, fence and rcflush. On a path of one live thread with nothing on its way to its
registers, whose operand checks and the conditions of the table hold, exec answers the state that the table gives. That a fence
or a store of release order performs the thread's earlier stores, atomics and reductions when it issues, and that an acquire
refreshes what the thread sees at once, is the model's choice, log entry 7. (R125, R126, R127, R131, R132, R133, R136, R137,
R138.) -/
def Obligations.MemoryOpsComplete : Prop :=
  ∀ (i : Instr) (f : SoloForm) (s : State) (l : LaneRef) (t : Thread), memoryForm i = some f → s.Solo l t f.roles → f.ok s l t →
    exec i s = .next (f.eff s l t)

/-- cpl, cpt, cptr, cptc, cpml, cpms, expect, wany, wall, ffrdy, awaitf and relslot. On a path of one live thread with nothing
on its way to its registers, whose operand checks and the conditions of the table hold, exec answers the state that the table
gives. A command that must wait for its ranges holds its lane and joins the waiting commands; otherwise it is issued and the
lane goes on. That a ring copy registers its ranges with its slot is the model's choice, log entry 18. (R265, R266, R268, R269,
R270, R271, R273, R274, R276, R278, R279.) -/
def Obligations.CopyCompletes : Prop :=
  ∀ (i : Instr) (f : SoloForm) (s : State) (l : LaneRef) (t : Thread), copyForm i = some f → s.Solo l t f.roles → f.ok s l t →
    exec i s = .next (f.eff s l t)

/-- gsg, gsgm, gss, gssm, gswt and gspoll. On a path of one live thread with nothing on its way to its registers, whose operand
checks and the conditions of the table hold, exec answers the state that the table gives. That a command reads its registers at
issue and does the rest at its completion is the model's choice, log entry 19. (R284, R285, R286, R294, R296, R298, R299, R300.)
-/
def Obligations.GatherCompletes : Prop :=
  ∀ (i : Instr) (f : SoloForm) (s : State) (l : LaneRef) (t : Thread), gatherForm i = some f → s.Solo l t f.roles → f.ok s l t →
    exec i s = .next (f.eff s l t)

/-- mma, mmam, aalloc, afree, aacq, arel, azero and mtag. On a path of one live thread with nothing on its way to its registers,
whose operand checks and the conditions of the table hold, exec answers the state that the table gives. When operands are
captured, and how a last sign meets range locks, are the model's choices, log entry 20. (R306, R307, R308, R310, R311, R313,
R322, R324.) -/
def Obligations.MatrixCompletes : Prop :=
  ∀ (i : Instr) (f : SoloForm) (s : State) (l : LaneRef) (t : Thread), matrixForm i = some f → s.Solo l t f.roles → f.ok s l t →
    exec i s = .next (f.eff s l t)

/-- sproj, skey, sinit, sinitr, srd, swr, sload, sblend and sgrad. On a path of one live thread with nothing on its way to its
registers, whose operand checks and the conditions of the table hold, exec answers the state that the table gives. That the
bytes of sload are chosen when it issues (log entry 7), and that its three parts are checked before one is read (log entry 23),
are the model's choices. (R383, R384, R386, R387, R388, R389, R390, R391, R392, R393, R395.) -/
def Obligations.SplatCompletes : Prop :=
  ∀ (i : Instr) (f : SoloForm) (s : State) (l : LaneRef) (t : Thread), splatForm i = some f → s.Solo l t f.roles → f.ok s l t →
    exec i s = .next (f.eff s l t)

/-- kemit, ksort, ksel, kcs, ocomp, ored, cbar, cfail, launch, spawn, tgsig, binflush, fxrun, fxabort and their variants. On a
path of one live thread with nothing on its way to its registers, whose operand checks and the conditions of the table hold,
exec answers the state that the table gives. cfail releases, reports this package as lost to every other package of the launch's
table and writes 1. That a posted record stands with its queue while its thread waits at launch, until the queue accepts it, is
the model's choice, log entry 30, and where the reason word of cfail stands is log entry 24. (R226, R227, R228, R229, R356,
R358, R362, R370, R371, R400, R402, R410.) -/
def Obligations.DeviceCompletes : Prop :=
  ∀ (i : Instr) (f : SoloForm) (s : State) (l : LaneRef) (t : Thread), deviceForm i = some f → s.Solo l t f.roles → f.ok s l t →
    exec i s = .next (f.eff s l t)

/-- cvt, qnt, dqnt, qscl, rot, irot, seed, seedr, tagmk, sgen, ard, awr, asv and arst. On a path of one live thread with nothing
on its way to its registers, whose operand checks and the conditions of the table hold, exec answers the state that the table
gives. That N discards the whole destination run of a conversion (log entry 17), and the narrowing and flags of ard and awr
where R329 and R330 do not give them (log entry 45), are the model's choices. (R248, R251, R252, R253, R254, R255, R257, R258,
R261, R329, R330, R331.) -/
def Obligations.ConverterCompletes : Prop :=
  ∀ (i : Instr) (f : SoloForm) (s : State) (l : LaneRef) (t : Thread), converterForm i = some f → s.Solo l t f.roles → f.ok s l t →
    exec i s = .next (f.eff s l t)

/-- jmpi, trap, trapret, oswait, cvwait, cvt, qnt, dqnt, qscl, rot, irot, tagmk, sgen, mtag, sproj, skey, sinit, sinitr, srd,
swr, sblend and sgrad, executed under the conditions of their completion, leave every byte of memory, every other thread, the
registers of every block, the launches, the windows and all traffic as they were. (R81, R96, R178, R187, R188, R251, R386.) -/
def Obligations.SoloFrame : Prop :=
  ∀ (i : Instr) (f : SoloForm) (s u : State) (l : LaneRef) (t : Thread), threadOnly i = true → soloForm i = some f →
    s.Solo l t f.roles → f.ok s l t → exec i s = .next u → LanesOnly s u

/-- For br: with U clear, or with all live lanes of one outcome, exec answers the state in which each lane whose predicate
differs from Q stands at its PC plus twice the offset, each other lane has completed the branch in sequence, and nothing else
has changed. (R173, R174, R89.) -/
def Obligations.BranchCompletes : Prop :=
  ∀ (o : BitVec 18) (q : BitVec 1) (p : BitVec 6) (u : BitVec 1) (s : State), s.EachLane (fun _ => True) →
    (u = 0 ∨ ∃ b, ∀ l ∈ s.issue.lanes, l.helper = false → (s.lane? l).map (fun t => t.pred p.toNat != bit1 q) = some b) →
    exec (.br o q p u) s = .next (s.eachLane fun t => if t.pred p.toNat != bit1 q then t.goTo (t.pc + 2 * o.signExtend 64) else t.advance 4)

/-- Where two live lanes of a path disagree, exec answers the state in which every live lane has taken a precise trap. For br
with U set and different outcomes it has cause 0x04, subcause 0x01, and its detail is the mask, by rank, of the lanes that would
have branched. For calli and jmpi with U set and different targets, with no operand of a lane at fault, it has subcause 0x02,
and for ret with U set and different return addresses, in lanes that each hold one, subcause 0x03; the detail is the mask, by
rank, of the lanes that differ from the live lane of the lowest logical index. For the instructions whose lanes agree on shared
words, it has the cause and subcause of the table groupForm, once the instruction's own word and the registers of the words pass
in every lane; that these pass first is the model's choice, log entries 10 and 17, and which lanes a transfer compares is log
entry 43. (R174, R178, R251, R280, R285, R327, R391, R451.) -/
def Obligations.BranchDisagreementTraps : Prop :=
  ∀ (s : State) (l m : LaneRef) (t v : Thread),
    l ∈ s.issue.lanes → m ∈ s.issue.lanes → l.helper = false → m.helper = false → s.lane? l = some t → s.lane? m = some v →
    (∀ (o : BitVec 18) (q : BitVec 1) (p : BitVec 6), t.pred p.toNat ≠ v.pred p.toNat →
      exec (.br o q p 1) s = .next (s.trapLanes s.liveLanes 4 1 0
        (s.rankMask s.liveLanes fun x => ((s.lane? x).map fun y => y.pred p.toNat != bit1 q).getD false))) ∧
    (∀ (a : BitVec 7) (i : Instr), i = .calli 1 a ∨ i = .jmpi 1 a → s.Quiet → s.EachLane (fun u => check u [.src64 a] = none) →
      (∀ x ∈ s.liveLanes, l.idx ≤ x.idx) → t.val64 a ≠ v.val64 a →
      exec i s = .next (s.trapLanes s.liveLanes 4 2 0
        (s.rankMask s.liveLanes fun x => ((s.lane? x).map fun y => y.val64 a != t.val64 a).getD false))) ∧
    (s.EachLane (fun u => u.rsd ≠ 0) → (∀ x ∈ s.liveLanes, l.idx ≤ x.idx) → nth t.ret 0 0 ≠ nth v.ret 0 0 →
      exec (.ret 1) s = .next (s.trapLanes s.liveLanes 4 3 0
        (s.rankMask s.liveLanes fun x => ((s.lane? x).map fun y => nth y.ret 0 0 != nth t.ret 0 0).getD false))) ∧
    ∀ (i : Instr) (f : GroupForm), groupForm i = some f → f.word → s.Quiet →
      s.EachLane (fun u => checkEntry u f.roles = none ∧ u.atAnchor = false ∧ f.enters u) → ¬f.same t v →
      exec i s = .next (s.trapLanes s.liveLanes f.cause f.sub 0 0)

/-- For each load on a path of one live thread: with a listed order and scope, an aligned address, and an access that is
granted, exec answers the state in which the bytes that the load finds at its order and scope, widened, are on their way to its
registers, and the thread has advanced. That a load's bytes are fixed when it issues, and only delivered when its data returns,
is the model's choice, log entry 7. (R124, R125, R127, R129, R131, R440.) -/
def Obligations.LoadsComplete : Prop :=
  ∀ (i : Instr) (f : LoadForm) (s s1 : State) (l : LaneRef) (t : Thread) (p : Place), loadForm i = some f → ldWord f.o f.sc = none →
    s.Solo l t f.roles → f.addr t % f.n = 0 →
    (s.sampling f.roles).1.watchedAccess (s.who l) (f.addr t) f.n .r false (sizedAt f.sc.toNat) = (s1, .ok p) →
    let r := s1.loadAs (s.who l) p f.n f.o.toNat f.sc.toNat
    exec i s = .next ((({ r.1 with loads := r.1.loads ++ [⟨r.1.nextId, s.who l, f.words t r.2.1,
      ⟨BitVec.ofNat 64 (f.addr t), t.pc⟩, r.2.2, lineOf p.pa, f.sample s s1 l t p⟩] } : State).fresh).advanceLane l)

/-- A load under the conditions of its completion, from a state of granted access in which nothing else is on its way to memory,
leaves every byte of memory as it was, every other thread as it was, and the registers, predicates, latches, window, flags,
stacks and trap registers of its own thread as they were until its data returns. (R125, R129, R131.) -/
def Obligations.LoadFrame : Prop :=
  ∀ (i : Instr) (f : LoadForm) (s s1 u : State) (l : LaneRef) (t : Thread) (p : Place), loadForm i = some f → ldWord f.o f.sc = none →
    s.Solo l t f.roles → f.addr t % f.n = 0 →
    (s.sampling f.roles).1.watchedAccess (s.who l) (f.addr t) f.n .r false (sizedAt f.sc.toNat) = (s1, .ok p) → s1.Settled →
    s1.lane? l = (s.sampling f.roles).1.lane? l → exec i s = .next u →
    SameMemory s1 u ∧ (∃ v, u.lane? l = some v ∧ SameRegisters t v) ∧ ∀ m : LaneRef, m ≠ l → u.lane? m = s1.lane? m

/-- When the data of an unsampled load returns and its thread is there, memory and the windows stay, every register outside the
load's stays, each of the load's registers holds its word, and a register is poisoned only if the data is bad. (R125, R129,
R130.) -/
def Obligations.LoadDelivers : Prop :=
  ∀ (s u : State) (id : Nat) (x : Load) (t : Thread), s.loads.find? (fun y => y.id == id) = some x → x.sample = none →
    s.thr? x.who = some t → (x.dst.map (·.1)).Nodup → exec (.loadDataReturn id) s = .next u →
    SameMemory s u ∧ u.win = s.win ∧ ∃ v, u.thr? x.who = some v ∧ (∀ r, r ∉ x.dst.map (·.1) → v.reg r = t.reg r) ∧
      (∀ d ∈ x.dst, v.reg d.1 = d.2) ∧ v.preds = t.preds ∧ v.pc = t.pc ∧ v.latches = t.latches ∧
      (x.bad = false → ∀ d ∈ x.dst, sget v.poison d.1 = none) ∧ (x.bad = true → ∀ d ∈ x.dst, sget v.poison d.1 = some x.mark)

/-- A store under the conditions of its completion, from a state of granted access in which nothing else is on its way to
memory: every byte outside the bytes from the place of its address on reads, to every core, as before, but that a core's own L1,
where all its lines are in use, may give up a line and see memory's bytes of it; every other thread and the windows stay; and
the registers, predicates, latches, window, flags, stacks and trap registers of its thread stay. Which line a full L1 gives up is
the model's choice, log entry 3. (R6, R126, R127, R131, R137.) -/
def Obligations.StoreFrame : Prop :=
  ∀ (i : Instr) (f : StoreForm) (s s1 u : State) (l : LaneRef) (t : Thread) (p : Place), storeForm i = some f →
    stWord f.o.toNat f.sc = none → s.Solo l t f.roles → t.full = false → f.addr t % f.n = 0 →
    s.watchedAccess (s.who l) (f.addr t) f.n .w false (sizedAt f.sc.toNat) = (s1, .ok p) → s1.Settled → s1.lane? l = s.lane? l →
    exec i s = .next u →
    (∀ core x, (x < p.pa ∨ p.pa + f.n ≤ x) → u.sees core x = s1.sees core x ∨
      (core = s.issue.core ∧ l1Lines ≤ (s1.coreAt core).l1.length ∧ u.sees core x = s1.byteAt x)) ∧
    (∃ v, u.lane? l = some v ∧ SameRegisters t v) ∧ (∀ m : LaneRef, m ≠ l → u.lane? m = s1.lane? m) ∧ u.win = s1.win

/-- A load or store on a path of one live thread whose operand and word checks pass, and whose address is no multiple of its
size, takes the precise trap with cause 0x08, subcause 0x01, the address, and the detail of the access. (R26, R123, R127.) -/
def Obligations.MisalignedTraps : Prop :=
  (∀ (i : Instr) (f : LoadForm) (s : State) (l : LaneRef) (t : Thread), loadForm i = some f → ldWord f.o f.sc = none →
    s.Solo l t f.roles → f.addr t % f.n ≠ 0 →
    exec i s = .next ((s.sampling f.roles).1.takeTrap (s.who l) 8 1 (BitVec.ofNat 64 (f.addr t)) (memDet f.n false false false))) ∧
  (∀ (i : Instr) (f : StoreForm) (s : State) (l : LaneRef) (t : Thread), storeForm i = some f → stWord f.o.toNat f.sc = none →
    s.Solo l t f.roles → t.full = false → f.addr t % f.n ≠ 0 →
    exec i s = .next (s.takeTrap (s.who l) 8 1 (BitVec.ofNat 64 (f.addr t)) (memDet f.n true false false)))

/-- For each atomic on a path of one live thread: with a listed type, order and scope, an aligned address, an access that is
granted, and an operation that the memory supports, exec answers the state in which the request of its address has been sent,
with its order and scope, and the thread has advanced. On a path of any lanes, where each live lane meets those conditions in the
state that the lanes before it leave, one request has been sent for each address, with the contributions of its lanes, and the
lanes have advanced. That an atomic of acquire order is performed at issue is the model's choice, log entry 7. (R151, R152, R153,
R154, R155, R158.) -/
def Obligations.AtomicsComplete : Prop :=
  (∀ (i : Instr) (f : AtomForm) (s s1 : State) (l : LaneRef) (t : Thread) (p : Place), atomForm i = some f →
    atWord f.op f.ty.toNat f.o.toNat f.sc.toNat = none → s.Solo l t f.roles → (t.val64 f.a).toNat % f.span = 0 →
    s.watchedAccess (s.who l) (t.val64 f.a).toNat f.span f.need true (fun s p => !atomInL1 f.sc.toNat s p) = (s1, .ok p) →
    unsupported s p f.fp (f.width == 16) = false →
    exec i s = .next ((s1.sendAtomic f.op f.ty.toNat f.o.toNat f.sc.toNat f.v s1.issue.pc [t.atomLane l f.a f.v f.width p]).advanceLane l)) ∧
  ∀ (i : Instr) (f : AtomForm) (s u : State) (xs : List AtLane), atomForm i = some f →
    atWord f.op f.ty.toNat f.o.toNat f.sc.toNat = none → Collected f.roles (·.advance 4) f.entry s s.issue.lanes u xs →
    exec i s = .next (xs.foldl (fun s x => s.advanceLane x.lane) ((addresses xs).foldl (fun s va =>
      s.sendAtomic f.op f.ty.toNat f.o.toNat f.sc.toNat f.v s.issue.pc (xs.filter fun x => x.va == va)) u))

/-- For each reduction on a path of one live thread: with a listed type and scope, an aligned address, an access that is
granted, an operation that the memory supports, and room in the count of outstanding stores, exec answers the state in which the
request of its address has been sent, and the thread has advanced. On a path of any lanes, where each live lane meets those
conditions in the state that the lanes before it leave, one request has been sent for each address, with the contributions of its
lanes, and the lanes have advanced. (R159, R160, R161, R163.) -/
def Obligations.ReductionsComplete : Prop :=
  (∀ (i : Instr) (f : RedForm) (s s1 : State) (l : LaneRef) (t : Thread) (p : Place), redForm i = some f →
    rdWord f.op f.ty.toNat f.sc.toNat = none → s.Solo l t f.roles → t.full = false → (t.val64 f.a).toNat % f.width = 0 →
    s.watchedAccess (s.who l) (t.val64 f.a).toNat f.width .w true unsized = (s1, .ok p) →
    unsupported s p (decide (8 ≤ f.op)) (f.width == 16) = false →
    exec i s = .next ((s1.sendRed f.op f.ty.toNat f.o.toNat f.sc.toNat [t.atomLane l f.a f.v f.width p]).advanceLane l)) ∧
  ∀ (i : Instr) (f : RedForm) (s u : State) (xs : List AtLane), redForm i = some f → rdWord f.op f.ty.toNat f.sc.toNat = none →
    Collected f.roles (·.advance 4) f.entry s s.issue.lanes u xs →
    exec i s = .next (xs.foldl (fun s x => s.advanceLane x.lane) ((addresses xs).foldl (fun s va =>
      s.sendRed f.op f.ty.toNat f.o.toNat f.sc.toNat (xs.filter fun x => x.va == va)) u))

/-- For each scalar, branch, lane and format instruction of a fixer, in an instance of a kernel and under the conditions of the
table fixerForm, exec answers the state in which the instance holds the registers, flags and PC that the table gives, and is no
longer fresh. (R346, R347, R349, R350, R351, R352, R353.) -/
def Obligations.FixerCompletes : Prop :=
  ∀ (i : Instr) (f : FixerForm) (s : State) (k : Kernel) (x : FxInst), fixerForm i = some f → s.Fixing k x → f.ok k x →
    exec i s = .next ((s.servedKernel k).putInst { f.eff k x with fresh := false })

/-- A fixer instruction of registers under the conditions of its completion leaves every byte of memory, every core, launch and
window, every other kernel, and every other instance of its kernel as they were. (R344, R347, R349.) -/
def Obligations.FixerFrame : Prop :=
  ∀ (i : Instr) (f : FixerForm) (s u : State) (k : Kernel) (x : FxInst), fixerForm i = some f → s.Fixing k x → f.ok k x →
    exec i s = .next u →
    SameMemory s u ∧ u.cores = s.cores ∧ u.launches = s.launches ∧ u.win = s.win ∧ (∀ m, m ≠ s.fx.1 → sget u.kernels m = sget s.kernels m) ∧
    ∀ j, j ≠ s.fx.2 → (sget u.kernels s.fx.1).bind (fun y => sget y.insts j) = sget k.insts j

/-- For sld, sst, fld, fst, fredf, stepend and fend, in an instance of a kernel and under the conditions of the table fixerMove,
exec answers the state that the table gives. That fend commits a step only where an instruction has run since the last commit is
the model's choice, log entry 21. (R347, R348, R359, R360.) -/
def Obligations.FixerMovesComplete : Prop :=
  ∀ (i : Instr) (f : FixerMove) (s : State) (k : Kernel) (x : FxInst), fixerMove i = some f → s.Fixing k x → f.ok s k x →
    exec i s = .next (f.eff s k x)

/-- The events of traffic in flight, of range locks, copy tags, groups and slots, and the exceptions of a word that is no
instruction or cannot be fetched. When the conditions of the table hold, exec answers the state that the table gives. The slot
that starveForced issues (log entries 6 and 43), the id in the record of a credit that overflows its tag (log entry 42), and
that traffic moves on in events of the model (log entry 7), are the model's choices. (R20, R23, R68, R79, R129, R131, R137,
R155, R160, R207, R340.) -/
def Obligations.TrafficTakesPlace : Prop :=
  ∀ (i : Instr) (f : EventForm) (s : State), trafficEvent i = some f → f.ok s → exec i s = .next (f.eff s)

/-- The events of the copy, gather, matrix, sort and collective engines and of the links to peers. When the conditions of the
table hold, exec answers the state that the table gives. That a command takes its whole effect in one event (log entries 18 and
19), that the inputs of peers are arguments of the event (log entry 24), and when a link that is down loses a peer (log entry
33), are the model's choices. (R267, R276, R280, R298, R314, R326, R335, R373, R378, R399, R407, R409.) -/
def Obligations.EnginesTakePlace : Prop :=
  ∀ (i : Instr) (f : EventForm) (s : State), engineEvent i = some f → f.ok s → exec i s = .next (f.eff s)

/-- The events of the queue table, of rings and records, of dispatch, placement, drains, slices, pre-emption, spawn bins and
completion. When the conditions of the table hold, exec answers the state that the table gives. The cores and quadrant offsets
that a cluster takes and the queue that gives way (log entry 31), the order in which posted records are accepted (log entry 30),
and what a save area restores (log entry 9), are the model's choices where the rules leave them open. (R210, R211, R213, R214,
R216, R217, R220, R227, R228, R230, R233, R235.) -/
def Obligations.LaunchesTakePlace : Prop :=
  ∀ (i : Instr) (f : EventForm) (s : State), launchEvent i = some f → f.ok s → exec i s = .next (f.eff s)

/-- The events of fixer kernels, and the exceptions of an unassigned fixer word and of a fetch that faults. When the conditions
of the table hold, exec answers the state that the table gives. When the engine writes slices, status and headers is the model's
choice where the rules leave it open, log entry 21. (R345, R346, R347, R356, R357.) -/
def Obligations.KernelsTakePlace : Prop :=
  ∀ (i : Instr) (f : EventForm) (s : State), kernelEvent i = some f → f.ok s → exec i s = .next (f.eff s)

/-- The events and register writes of memory partitions, expansion ports and the migration engine. When the conditions of the
table hold, exec answers the state that the table gives. The activations that a served request counts and the partner of a
swapped row (log entry 25), and the rounds that a migration makes, one an event, with the status of each failure (log entry 26),
are the model's choices. (R415, R416, R417, R419, R421, R422, R423, R424, R425, R426, R429, R431.) -/
def Obligations.PartitionsTakePlace : Prop :=
  ∀ (i : Instr) (f : EventForm) (s : State), partitionEvent i = some f → f.ok s → exec i s = .next (f.eff s)

/-- The register writes of the trace window, the halt, resume and step commands, and the reads of special registers that latch.
When the conditions of the table hold, exec answers the state that the table gives. The threads that HST counts, what resume
does to a held halt and the reserved bits [7:6] of TCTL (log entry 27), and the subcause of a held halt (log entry 42), are the
model's choices. (R24, R247, R433, R435, R439, R442.) -/
def Obligations.TracingTakesPlace : Prop :=
  ∀ (i : Instr) (f : EventForm) (s : State), traceEvent i = some f → f.ok s → exec i s = .next (f.eff s)

/-- The events and requests of the management controller and the accesses of peers and of the host. When the conditions of the
table hold, exec answers the state that the table gives. Completion code 0 and the event of each stage of bring-up (log entry
28), the version byte, the algorithm bits and the transcripts of the identity requests (log entry 29, PRESUMED), the answers to
accesses from outside (log entry 33) and the value of an unreachable register (log entry 39) are the model's choices, not the
rules'. (R11, R341, R443, R444, R445, R446, R447, R448, R449, R450.) -/
def Obligations.ManagementTakesPlace : Prop :=
  ∀ (i : Instr) (f : EventForm) (s : State), managementEvent i = some f → f.ok s → exec i s = .next (f.eff s)

/-- A write of a reachable register through the Bexkai port leaves the state that the instruction of that register leaves
(repair, retrain, retire, a clear, halt, queue enable, or the write of a plain register), with an empty answer; of the management
window this is stated where the host port answers, and at every stage of bring-up: MIRQ bits written 1 clear, QTB is written
while the queue table is not in use, QTEN is written and only recorded before stage 8, PKID follows its own instruction, and PWRTH
and MIEN take what their ranges admit. That the answer is empty, with completion code 0, is the model's choice, log entry 28.
(R414, R415, R433, R443, R444, R445.) -/
def Obligations.WindowWriteActs : Prop :=
  ∀ (s : State) (off : Nat) (value : Word),
    (∀ t, s.darkWindow off = false → s.reachable off = true → (off / 4096 = mgmtBase / 4096 → s.passed 7 = true) →
      exec (writeOf off value) s = .next t → exec (.windowWrite off value) s = .next (t.answerData [])) ∧
    (off = mgmtBase + 0x004 → ∀ t, exec (.pkidWrite value true) s = .next t → exec (.windowWrite off value) s = .next (t.answerData [])) ∧
    (off = mgmtBase + 0x010 ∧ value.toNat % 4096 = 0 ∨ off = mgmtBase + 0x014 → s.winBit (mgmtBase + 0x018) 0 = false →
      exec (.windowWrite off value) s = .next ((s.setWin off value).answerData [])) ∧
    (off = mgmtBase + 0x018 → s.bstate < 8 → exec (.windowWrite off value) s = .next ((s.setWin off (value &&& 1#32)).answerData [])) ∧
    (off = mgmtBase + 0x030 → exec (.windowWrite off value) s = .next ((s.setWin off (s.winAt off &&& ~~~value)).answerData [])) ∧
    (off = mgmtBase + 0x024 ∨ off = mgmtBase + 0x034 →
      exec (.windowWrite off value) s = .next ((if s.takes off value then s.setWin off value else s).answerData []))

/-- A write of an unreachable register changes nothing and a read of one answers all ones; with main power off another window
than that of management answers completion code 0x05; PKID is written only through the Bexkai port, below stage 5 and in range;
QTB is not written while the queue table is in use; and until stage 7 is passed no write of the host has an effect. That an
ignored write through the Bexkai port is answered with completion code 0 (log entry 28), and that a value of PKID out of range
or an unreachable register is ignored whole (log entry 39), are the model's choices. (R414, R443, R444, R445.) -/
def Obligations.GuardedAccessesIgnored : Prop :=
  ∀ (s : State) (off : Nat) (value : Word),
    (s.reachable off = false → exec (.registerWrite off value) s = .next s) ∧
    (s.reachable off = false → s.darkWindow off = false → exec (.windowWrite off value) s = .next (s.answerData []) ∧
      exec (.windowRead off) s = .next (s.answerData (wordBytes (BitVec.allOnes 32)))) ∧
    (s.darkWindow off = true → exec (.windowWrite off value) s = .next (s.answerWith { code := 5 }) ∧
      exec (.windowRead off) s = .next (s.answerWith { code := 5 })) ∧
    (exec (.pkidWrite value false) s = .next s) ∧ (5 ≤ s.bstate → ∀ b, exec (.pkidWrite value b) s = .next s) ∧
    (2048 ≤ value.toNat → ∀ b, exec (.pkidWrite value b) s = .next s) ∧
    (s.winBit (mgmtBase + 0x018) 0 = true → exec (.qtbWrite off value) s = .next s) ∧
    (s.passed 7 = false → exec (.registerWrite off value) s = .next s ∧ exec (.qtbWrite off value) s = .next s ∧
      exec (.qtenWrite value) s = .next s ∧ exec (.mirqClear value) s = .next s)

/-- A source field of 127 raises cause 0x03, subcause 0x01, and a destination field of 116 to 127 raises cause 0x03, subcause
0x02. A field of 0 to 111 is register WB plus the field, 112 to 115 the register that x0 to x3 names with no WB added, 116 to
123 a latch, 124 zero, 125 the logical thread index and 126 all ones. (R75.) -/
def Obligations.OperandFields : Prop :=
  ∀ (t : Thread) (f : BitVec 7),
    (f.toNat = 127 → check t [.src f] = some (.trap 3 1 0 0)) ∧ (f.toNat = 127 → check t [.src64 f] = some (.trap 3 1 0 0)) ∧
    (116 ≤ f.toNat → check t [.dst f] = some (.trap 3 2 0 0)) ∧ (116 ≤ f.toNat → check t [.dst64 f] = some (.trap 3 2 0 0)) ∧
    (f.toNat < 112 → t.val f = t.reg (t.wb.toNat + f.toNat)) ∧
    (112 ≤ f.toNat → f.toNat < 116 → t.val f = t.reg (t.xreg (f.toNat - 112)).toNat) ∧
    (116 ≤ f.toNat → f.toNat < 124 → t.val f = lo32 (t.latch (f.toNat - 116))) ∧
    (f.toNat = 124 → t.val f = 0x00000000#32) ∧ (f.toNat = 125 → t.val f = BitVec.ofNat 32 t.idx) ∧ (f.toNat = 126 → t.val f = 0xFFFFFFFF#32)

/-- A 64-bit operand in registers is the pair at its absolute register, the lower in the low word; an odd register raises cause
0x03, subcause 0x03; a latch supplies all its bits, 124 zero, 125 the logical thread index and 126 all ones. (R77.) -/
def Obligations.PairOperands : Prop :=
  ∀ (t : Thread) (f : BitVec 7),
    (f.toNat < 116 → t.val64 f = t.reg (t.absReg f.toNat + 1) ++ t.reg (t.absReg f.toNat)) ∧
    (f.toNat < 116 → t.absReg f.toNat % 2 = 1 → check t [.src64 f] = some (.trap 3 3 0 0) ∧ check t [.dst64 f] = some (.trap 3 3 0 0)) ∧
    (116 ≤ f.toNat → f.toNat < 124 → t.val64 f = t.latch (f.toNat - 116)) ∧
    (f.toNat = 124 → t.val64 f = 0#64) ∧ (f.toNat = 125 → t.val64 f = BitVec.ofNat 64 t.idx) ∧
    (f.toNat = 126 → t.val64 f = 0xFFFFFFFFFFFFFFFF#64)

/-- A legal source or destination of registers that reaches the allocation or beyond, by either half of a pair, raises cause
0x06, and one below it passes the check of fields. (R70, R76, R77.) -/
def Obligations.AllocationBound : Prop :=
  ∀ (t : Thread) (f : BitVec 7), f.toNat < 116 →
    (t.nregs ≤ t.absReg f.toNat → check t [.src f] = some (.trap 6 0 0 0) ∧ check t [.dst f] = some (.trap 6 0 0 0)) ∧
    (t.absReg f.toNat % 2 = 0 → t.nregs ≤ t.absReg f.toNat + 1 →
      check t [.src64 f] = some (.trap 6 0 0 0) ∧ check t [.dst64 f] = some (.trap 6 0 0 0)) ∧
    (t.absReg f.toNat < t.nregs → checkFields t [.src f] = none ∧ check t [.dst f] = none) ∧
    (t.absReg f.toNat % 2 = 0 → t.absReg f.toNat + 1 < t.nregs → checkFields t [.src64 f] = none ∧ check t [.dst64 f] = none)

/-- When an instruction completes in sequence at np: in a trap handler the PC becomes np. Otherwise a level matches when its
counter is not 0 and np[31:0] is its end address. With no match the PC becomes np. At the highest level that matches the counter
falls by one: while it stays above 0 the PC becomes the level's start address with the upper half of the PC; when it becomes 0
the check goes on with np. (R88, R89.) -/
def Obligations.EndCheck : Prop :=
  ∀ (t : Thread) (np : Dword), let hit := fun k => t.lcOf k ≠ 0 ∧ lo32 np = t.loopEnd k
    (t.handler = true → t.goSeq np = { t with pc := np }) ∧
    (t.handler = false → (∀ k < 3, ¬hit k) → t.goSeq np = { t with pc := np }) ∧
    (t.handler = false → ∀ k < 3, hit k → (∀ j < 3, k < j → ¬hit j) → t.lcOf k ≠ 1 →
      t.goSeq np = { t with lc := t.lc.set k (t.lcOf k - 1), pc := hi32 t.pc ++ t.lsOf k }) ∧
    (t.handler = false → ∀ k < 3, hit k → (∀ j < 3, k < j → ¬hit j) → t.lcOf k = 1 →
      t.goSeq np = ({ t with lc := t.lc.set k 0 } : Thread).goSeq np)

/-- A precise trap in a thread of a launch with a handler: outside a handler the thread's trap registers hold the cause with the
subcause in bits 15 to 8, its PC, the address and the detail, its latches and replay are gone, the handler flag is set, the PC
is the launch's handler address, and no other thread or state changes; inside a handler the trap registers are loaded, the PC is
the handler's address too, every live thread of its group halts with cause 0x22, subcause 0x04, and one fault record with the
fault's own cause is due. (R27, R31, R186, R442.) -/
def Obligations.TrapEntry : Prop :=
  ∀ (s : State) (w : Who) (cause sub : Nat) (adr : Dword) (det : Word) (b : Block) (t : Thread) (l : Launch),
    s.block? w.core w.blk = some b → sget b.threads w.thr = some t → s.launch? b.launch = some l →
    let saved : Thread := { t with latches := [], replay := none, tsmp := false, trcause := BitVec.ofNat 32 (cause + 256 * sub),
                                   trpc := lo32 t.pc, trpch := hi32 t.pc, tradl := lo32 adr, tradh := hi32 adr, trdet := det }
    (t.handler = false → l.rcd.trap ≠ BitVec.allOnes 64 →
      s.takeTrap w cause sub adr det = s.setThr w { saved with handler := true, pc := l.rcd.trap }) ∧
    (t.handler = true → s.takeTrap w cause sub adr det =
      { (s.setThr w { saved with handler := true, pc := l.rcd.trap }).haltGroup w.core w.blk t.group 0x22 4 with
        due := s.due ++ [trapRecord b t cause sub t.pc adr det] })

/-- trap #n on a path of one live thread of a launch with a handler: outside a handler exec answers the state in which that
thread alone has changed, with trcause 0x20 and subcause n, trpc at PC + 4, no address and no detail, latches and replay gone,
the handler flag set and the PC at the handler; inside a handler it answers the state in which that thread has changed so too,
its group has halted with cause 0x22, subcause 0x04, and one fault record of cause 0x20 and subcause n is due. (R188, R186,
R442.) -/
def Obligations.TrapInstruction : Prop :=
  ∀ (n : BitVec 8) (s : State) (l : LaneRef) (t : Thread) (b : Block) (lc : Launch),
    s.Solo l t [] → s.block? s.issue.core s.issue.blk = some b → s.launch? b.launch = some lc →
    let saved : Thread := { t with latches := [], replay := none, tsmp := false, trcause := BitVec.ofNat 32 (0x20 + 256 * n.toNat),
                                   trpc := lo32 (t.pc + 4), trpch := hi32 (t.pc + 4), tradl := 0, tradh := 0, trdet := 0 }
    (t.handler = false → lc.rcd.trap ≠ BitVec.allOnes 64 →
      exec (.trap n) s = .next (s.setThr (s.who l) { saved with handler := true, pc := lc.rcd.trap })) ∧
    (t.handler = true → exec (.trap n) s = .next
      { (s.setThr (s.who l) { saved with handler := true, pc := lc.rcd.trap }).haltGroup s.issue.core s.issue.blk t.group 0x22 4 with
        due := s.due ++ [trapRecord b t 0x20 n.toNat t.pc 0 0] })

/-- trapret on a path of one live thread: inside a handler exec answers the state in which that thread alone has changed: its
latches are gone, the handler flag is clear, the PC is trpch : trpc, a halt held for it is taken there with cause 0x22, and no
entry of the return stack moves; outside a handler it takes the trap of cause 0x03, subcause 0x12. The subcause of a held halt
is that of what asked for it, 1 for the host's command and 3 for a breakpoint or watchpoint, and the halt leaves the trap
registers: these are the model's choices, log entry 42. How a save area keeps a held halt is log entry 9. (R187.) -/
def Obligations.TrapReturn : Prop :=
  ∀ (s : State) (l : LaneRef) (t : Thread), s.Solo l t [] →
    let back : Thread := { t with latches := [], replay := none, handler := false, pc := t.trpch ++ t.trpc, skipBp := true }
    (t.handler = true → t.haltHeld = false → exec .trapret s = .next (s.setLane l back)) ∧
    (t.handler = true → t.haltHeld = true → exec .trapret s = .next (s.setLane l { back with haltHeld := false, halted := some (0x22, t.heldSub) })) ∧
    (t.handler = false → exec .trapret s = .next (s.takeTrap (s.who l) 3 0x12 0 0))

/-- A precise trap outside a handler in a thread whose launch names no handler: one fault record with the cause, subcause and
PC is due and the launch is marked as faulted. With a store outstanding the thread is held at its exit; with none outstanding,
where its exit releases no thread that waits for a broken convergence register, it exits, and its block retires if nothing else
keeps it. trap #n on a path of that thread alone is such a trap, with cause 0x20, subcause n, and no address and no detail. (R28,
R188, R189, R190.) -/
def Obligations.NoHandlerEndsThread : Prop :=
  ∀ (s : State) (w : Who) (cause sub : Nat) (adr : Dword) (det : Word) (b : Block) (t : Thread) (l : Launch),
    s.block? w.core w.blk = some b → sget b.threads w.thr = some t → s.launch? b.launch = some l → l.rcd.trap = BitVec.allOnes 64 →
    t.handler = false →
    let noted : State := { (s.modLaunch b.launch fun l => { l with faulted := true }) with
                           due := s.due ++ [trapRecord b t cause sub t.pc adr det] }
    (t.osc ≠ 0 → s.takeTrap w cause sub adr det =
      noted.setThr w { t with latches := [], replay := none, mode := .waiting .trapOsc }) ∧
    (∀ s2, t.osc = 0 → noted.exitThread w = (s2, []) → s.takeTrap w cause sub adr det = s2.checkRetire w.core w.blk) ∧
    ∀ (n : BitVec 8) (r : LaneRef), s.Alone r t → r.helper = false → s.who r = w → exec (.trap n) s = .next (s.takeTrap w 0x20 n.toNat 0 0)

/-- A command of one lane that must wait for its ranges joins the waiting commands, and its thread is held at the instruction; a
command that need not wait has its ranges registered, unless it is a ring copy that registers them with its slot, is in flight,
and its thread has advanced; nothing else changes. That a ring copy registers its ranges with its slot, and not at issue as R276
says, is the model's choice, log entry 18. (R22, R23, R280.) -/
def Obligations.CommandsWaitForRanges : Prop :=
  ∀ (s : State) (c : Cmd) (l : LaneRef) (t : Thread), s.lane? l = some t →
    (s.fresh.mustWait c = true → s.issueCmd c [l] =
      ({ s with nextId := s.nextId + 1, waiting := s.waiting ++ [c] } : State).setLane l { t with mode := .waiting .lock }) ∧
    (s.fresh.mustWait c = false → s.issueCmd c [l] =
      ({ s with nextId := s.nextId + 1, locks := if c.awaitsSlot then s.locks else s.locks ++ c.locks,
                 cmds := sput s.cmds c.id c } : State).setLane l (t.advance 4))

/-- On a path of any lanes, threads and helpers: where each lane meets the conditions of its table in the state that the lanes
before it leave, an instruction of laneByLane or a load answers the state that the lanes leave one after the other; cpl issues one
command of all its lanes; kemit serves the lanes of each ring header together; expect adds the counts of its lanes to the tag. An
instruction of groupForm whose live lanes agree acts once for all of them, as the table gives. (R10, R27, R127, R171, R251, R268,
R277, R285, R327, R370, R391, R451.) -/
def Obligations.LanesActInTurn : Prop :=
  (∀ (i : Instr) (f : SoloForm) (s : State), let h := (helperForm i).getD SoloForm.never
    laneByLane i = true → soloForm i = some f → f.ready h s s.issue.lanes → exec i s = .next (f.inTurn h s s.issue.lanes)) ∧
  (∀ (i : Instr) (f : LoadForm) (s : State), let n := s.sampling f.roles
    loadForm i = some f → ldWord f.o f.sc = none → (f.inLane n.2).ready f.inHelper n.1 s.issue.lanes →
    exec i s = .next ((f.inLane n.2).inTurn f.inHelper n.1 s.issue.lanes)) ∧
  (∀ (m : BitVec 2) (tag : BitVec 6) (d : BitVec 7) (s u : State) (xs : List (LaneRef × Nat × Nat)), m.toNat ≠ 3 → descField d = none →
    Collected [] (·.advance 4) (copyEntry m tag d) s s.issue.lanes u xs →
    exec (.cpl m tag d) s = .next (u.sendLanes m.toNat tag.toNat xs)) ∧
  (∀ (c d : BitVec 7) (s u : State) (xs : List Emit), descField d = none → cntDest c = none →
    Collected [.dst64 c, .src64 d, .rw d 5] (fun t => (t.setVal64 c (BitVec.allOnes 64)).advance 4) (emitEntry d) s s.issue.lanes u xs →
    exec (.kemit c d) s = .next ((headersOf xs).foldl (fun s h => s.emitGroup c h (xs.filter fun e => e.hdr == h)) u)) ∧
  (∀ (tag : BitVec 6) (d : BitVec 7) (s : State) (b : Block), s.Quiet → s.EachLane (fun t => check t [.src d] = none) →
    descField d = none → s.block? s.issue.core s.issue.blk = some b → tag.toNat < b.ntags → s.liveLanes ≠ [] →
    let g := b.tagAt tag.toNat
    let n := ((s.group.filter fun p => !p.1.helper).map fun p => (p.2.val d).toNat).sum
    g.balance + (n : Int) ≤ tagMax →
    exec (.expect tag d) s = .next ((s.modIssueBlock fun b =>
      { b with tags := sput b.tags tag.toNat { g with balance := g.balance + (n : Int), armed := true } }).advanceAll s.issue.lanes)) ∧
  ∀ (i : Instr) (f : GroupForm) (s : State) (l : LaneRef) (t : Thread), groupForm i = some f → f.word → s.Quiet →
    s.EachLane (fun u => check u f.roles = none ∧ u.atAnchor = false ∧ f.enters u) → (l, t) ∈ s.group → l.helper = false →
    (∀ p ∈ s.group, p.1.helper = false → f.same t p.2) → f.ok s t s.group → exec i s = .next (f.eff s t s.group)

/-- On a path of one helper lane whose operand checks pass: for each instruction of the table helperForm exec answers the state that
the table gives, in which the lane stores nothing, signs nothing, issues no command and enters no request; a result that depends on
such an effect is 0, or all ones where the spec says so; and a load leaves its registers 0 and advances the lane. That a call in a
helper lane moves its return stack as a thread's, and a refill gives 0, is the model's choice, log entry 47. (R10, R95, R127, R171,
R226, R259, R266, R299, R313, R358, R383, R400.) -/
def Obligations.HelpersOnlyAdvance : Prop :=
  (∀ (i : Instr) (f : SoloForm) (s : State) (l : LaneRef) (t : Thread), helperForm i = some f → s.Alone l t → l.helper = true →
    check t f.roles = none → f.ok s l t → exec i s = .next (f.eff s l t)) ∧
  ∀ (i : Instr) (f : LoadForm) (s : State) (l : LaneRef) (t : Thread), loadForm i = some f → ldWord f.o f.sc = none → s.Alone l t →
    l.helper = true → check t f.roles = none →
    exec i s = .next ((s.sampling f.roles).1.setLane l ((t.setRegs (t.absReg f.v.toNat) (widen f.signed (List.replicate f.n 0))).advance 4))
end

