-- ==== Sys2Proof/Laws/State.lean ====
section
/-! SUPPORT. What each update of the state leaves alone, field by field, and the field it sets. -/

namespace Sys2Proof.Machine

open Sys2Proof


/-! ### setWin -/

@[simp] theorem setWin_hw (s : State) (a : Nat) (v : Word) : (s.setWin a v).hw = s.hw := rfl
@[simp] theorem setWin_cycle (s : State) (a : Nat) (v : Word) : (s.setWin a v).cycle = s.cycle := rfl
@[simp] theorem setWin_mem (s : State) (a : Nat) (v : Word) : (s.setWin a v).mem = s.mem := rfl
@[simp] theorem setWin_stage (s : State) (a : Nat) (v : Word) : (s.setWin a v).stage = s.stage := rfl
@[simp] theorem setWin_badWords (s : State) (a : Nat) (v : Word) : (s.setWin a v).badWords = s.badWords := rfl
@[simp] theorem setWin_l2 (s : State) (a : Nat) (v : Word) : (s.setWin a v).l2 = s.l2 := rfl
@[simp] theorem setWin_rdc (s : State) (a : Nat) (v : Word) : (s.setWin a v).rdc = s.rdc := rfl
@[simp] theorem setWin_owners (s : State) (a : Nat) (v : Word) : (s.setWin a v).owners = s.owners := rfl
@[simp] theorem setWin_sectors (s : State) (a : Nat) (v : Word) : (s.setWin a v).sectors = s.sectors := rfl
@[simp] theorem setWin_recent (s : State) (a : Nat) (v : Word) : (s.setWin a v).recent = s.recent := rfl
@[simp] theorem setWin_spoilt (s : State) (a : Nat) (v : Word) : (s.setWin a v).spoilt = s.spoilt := rfl
@[simp] theorem setWin_locks (s : State) (a : Nat) (v : Word) : (s.setWin a v).locks = s.locks := rfl
@[simp] theorem setWin_waiting (s : State) (a : Nat) (v : Word) : (s.setWin a v).waiting = s.waiting := rfl
@[simp] theorem setWin_loads (s : State) (a : Nat) (v : Word) : (s.setWin a v).loads = s.loads := rfl
@[simp] theorem setWin_stores (s : State) (a : Nat) (v : Word) : (s.setWin a v).stores = s.stores := rfl
@[simp] theorem setWin_atomics (s : State) (a : Nat) (v : Word) : (s.setWin a v).atomics = s.atomics := rfl
@[simp] theorem setWin_reds (s : State) (a : Nat) (v : Word) : (s.setWin a v).reds = s.reds := rfl
@[simp] theorem setWin_cmds (s : State) (a : Nat) (v : Word) : (s.setWin a v).cmds = s.cmds := rfl
@[simp] theorem setWin_arrivals (s : State) (a : Nat) (v : Word) : (s.setWin a v).arrivals = s.arrivals := rfl
@[simp] theorem setWin_tlbInvs (s : State) (a : Nat) (v : Word) : (s.setWin a v).tlbInvs = s.tlbInvs := rfl
@[simp] theorem setWin_markers (s : State) (a : Nat) (v : Word) : (s.setWin a v).markers = s.markers := rfl
@[simp] theorem setWin_cores (s : State) (a : Nat) (v : Word) : (s.setWin a v).cores = s.cores := rfl
@[simp] theorem setWin_launches (s : State) (a : Nat) (v : Word) : (s.setWin a v).launches = s.launches := rfl
@[simp] theorem setWin_queues (s : State) (a : Nat) (v : Word) : (s.setWin a v).queues = s.queues := rfl
@[simp] theorem setWin_kernels (s : State) (a : Nat) (v : Word) : (s.setWin a v).kernels = s.kernels := rfl
@[simp] theorem setWin_kseSerials (s : State) (a : Nat) (v : Word) : (s.setWin a v).kseSerials = s.kseSerials := rfl
@[simp] theorem setWin_win (s : State) (a : Nat) (v : Word) : (s.setWin a v).win = sput s.win a v := rfl
@[simp] theorem setWin_units (s : State) (a : Nat) (v : Word) : (s.setWin a v).units = s.units := rfl
@[simp] theorem setWin_by_ (s : State) (a : Nat) (v : Word) : (s.setWin a v).by_ = s.by_ := rfl
@[simp] theorem setWin_migrations (s : State) (a : Nat) (v : Word) : (s.setWin a v).migrations = s.migrations := rfl
@[simp] theorem setWin_alerts (s : State) (a : Nat) (v : Word) : (s.setWin a v).alerts = s.alerts := rfl
@[simp] theorem setWin_mainPower (s : State) (a : Nat) (v : Word) : (s.setWin a v).mainPower = s.mainPower := rfl
@[simp] theorem setWin_firmware (s : State) (a : Nat) (v : Word) : (s.setWin a v).firmware = s.firmware := rfl
@[simp] theorem setWin_tests (s : State) (a : Nat) (v : Word) : (s.setWin a v).tests = s.tests := rfl
@[simp] theorem setWin_aside (s : State) (a : Nat) (v : Word) : (s.setWin a v).aside = s.aside := rfl
@[simp] theorem setWin_nvRetired (s : State) (a : Nat) (v : Word) : (s.setWin a v).nvRetired = s.nvRetired := rfl
@[simp] theorem setWin_bootRetired (s : State) (a : Nat) (v : Word) : (s.setWin a v).bootRetired = s.bootRetired := rfl
@[simp] theorem setWin_bootDue (s : State) (a : Nat) (v : Word) : (s.setWin a v).bootDue = s.bootDue := rfl
@[simp] theorem setWin_reply (s : State) (a : Nat) (v : Word) : (s.setWin a v).reply = s.reply := rfl
@[simp] theorem setWin_answer (s : State) (a : Nat) (v : Word) : (s.setWin a v).answer = s.answer := rfl
@[simp] theorem setWin_bootCycle (s : State) (a : Nat) (v : Word) : (s.setWin a v).bootCycle = s.bootCycle := rfl
@[simp] theorem setWin_halting (s : State) (a : Nat) (v : Word) : (s.setWin a v).halting = s.halting := rfl
@[simp] theorem setWin_linksDown (s : State) (a : Nat) (v : Word) : (s.setWin a v).linksDown = s.linksDown := rfl
@[simp] theorem setWin_cfails (s : State) (a : Nat) (v : Word) : (s.setWin a v).cfails = s.cfails := rfl
@[simp] theorem setWin_due (s : State) (a : Nat) (v : Word) : (s.setWin a v).due = s.due := rfl
@[simp] theorem setWin_pkid (s : State) (a : Nat) (v : Word) : (s.setWin a v).pkid = s.pkid := rfl
@[simp] theorem setWin_served (s : State) (a : Nat) (v : Word) : (s.setWin a v).served = s.served := rfl
@[simp] theorem setWin_nextLaunch (s : State) (a : Nat) (v : Word) : (s.setWin a v).nextLaunch = s.nextLaunch := rfl
@[simp] theorem setWin_nextId (s : State) (a : Nat) (v : Word) : (s.setWin a v).nextId = s.nextId := rfl
@[simp] theorem setWin_freeCtr (s : State) (a : Nat) (v : Word) : (s.setWin a v).freeCtr = s.freeCtr := rfl
@[simp] theorem setWin_agenda (s : State) (a : Nat) (v : Word) : (s.setWin a v).agenda = s.agenda := rfl
@[simp] theorem setWin_issue (s : State) (a : Nat) (v : Word) : (s.setWin a v).issue = s.issue := rfl
@[simp] theorem setWin_fx (s : State) (a : Nat) (v : Word) : (s.setWin a v).fx = s.fx := rfl
@[simp] theorem setWin_sel (s : State) (a : Nat) (v : Word) : (s.setWin a v).sel = s.sel := rfl
@[simp] theorem setWin_slotMate (s : State) (a : Nat) (v : Word) : (s.setWin a v).slotMate = s.slotMate := rfl
@[simp] theorem setWin_turn (s : State) (a : Nat) (v : Word) : (s.setWin a v).turn = s.turn := rfl

/-! ### setWinPair -/

@[simp] theorem setWinPair_hw (s : State) (a v : Nat) : (s.setWinPair a v).hw = s.hw := rfl
@[simp] theorem setWinPair_cycle (s : State) (a v : Nat) : (s.setWinPair a v).cycle = s.cycle := rfl
@[simp] theorem setWinPair_mem (s : State) (a v : Nat) : (s.setWinPair a v).mem = s.mem := rfl
@[simp] theorem setWinPair_stage (s : State) (a v : Nat) : (s.setWinPair a v).stage = s.stage := rfl
@[simp] theorem setWinPair_badWords (s : State) (a v : Nat) : (s.setWinPair a v).badWords = s.badWords := rfl
@[simp] theorem setWinPair_l2 (s : State) (a v : Nat) : (s.setWinPair a v).l2 = s.l2 := rfl
@[simp] theorem setWinPair_rdc (s : State) (a v : Nat) : (s.setWinPair a v).rdc = s.rdc := rfl
@[simp] theorem setWinPair_owners (s : State) (a v : Nat) : (s.setWinPair a v).owners = s.owners := rfl
@[simp] theorem setWinPair_sectors (s : State) (a v : Nat) : (s.setWinPair a v).sectors = s.sectors := rfl
@[simp] theorem setWinPair_recent (s : State) (a v : Nat) : (s.setWinPair a v).recent = s.recent := rfl
@[simp] theorem setWinPair_spoilt (s : State) (a v : Nat) : (s.setWinPair a v).spoilt = s.spoilt := rfl
@[simp] theorem setWinPair_locks (s : State) (a v : Nat) : (s.setWinPair a v).locks = s.locks := rfl
@[simp] theorem setWinPair_waiting (s : State) (a v : Nat) : (s.setWinPair a v).waiting = s.waiting := rfl
@[simp] theorem setWinPair_loads (s : State) (a v : Nat) : (s.setWinPair a v).loads = s.loads := rfl
@[simp] theorem setWinPair_stores (s : State) (a v : Nat) : (s.setWinPair a v).stores = s.stores := rfl
@[simp] theorem setWinPair_atomics (s : State) (a v : Nat) : (s.setWinPair a v).atomics = s.atomics := rfl
@[simp] theorem setWinPair_reds (s : State) (a v : Nat) : (s.setWinPair a v).reds = s.reds := rfl
@[simp] theorem setWinPair_cmds (s : State) (a v : Nat) : (s.setWinPair a v).cmds = s.cmds := rfl
@[simp] theorem setWinPair_arrivals (s : State) (a v : Nat) : (s.setWinPair a v).arrivals = s.arrivals := rfl
@[simp] theorem setWinPair_tlbInvs (s : State) (a v : Nat) : (s.setWinPair a v).tlbInvs = s.tlbInvs := rfl
@[simp] theorem setWinPair_markers (s : State) (a v : Nat) : (s.setWinPair a v).markers = s.markers := rfl
@[simp] theorem setWinPair_cores (s : State) (a v : Nat) : (s.setWinPair a v).cores = s.cores := rfl
@[simp] theorem setWinPair_launches (s : State) (a v : Nat) : (s.setWinPair a v).launches = s.launches := rfl
@[simp] theorem setWinPair_queues (s : State) (a v : Nat) : (s.setWinPair a v).queues = s.queues := rfl
@[simp] theorem setWinPair_kernels (s : State) (a v : Nat) : (s.setWinPair a v).kernels = s.kernels := rfl
@[simp] theorem setWinPair_kseSerials (s : State) (a v : Nat) : (s.setWinPair a v).kseSerials = s.kseSerials := rfl
@[simp] theorem setWinPair_units (s : State) (a v : Nat) : (s.setWinPair a v).units = s.units := rfl
@[simp] theorem setWinPair_by_ (s : State) (a v : Nat) : (s.setWinPair a v).by_ = s.by_ := rfl
@[simp] theorem setWinPair_migrations (s : State) (a v : Nat) : (s.setWinPair a v).migrations = s.migrations := rfl
@[simp] theorem setWinPair_alerts (s : State) (a v : Nat) : (s.setWinPair a v).alerts = s.alerts := rfl
@[simp] theorem setWinPair_mainPower (s : State) (a v : Nat) : (s.setWinPair a v).mainPower = s.mainPower := rfl
@[simp] theorem setWinPair_firmware (s : State) (a v : Nat) : (s.setWinPair a v).firmware = s.firmware := rfl
@[simp] theorem setWinPair_tests (s : State) (a v : Nat) : (s.setWinPair a v).tests = s.tests := rfl
@[simp] theorem setWinPair_aside (s : State) (a v : Nat) : (s.setWinPair a v).aside = s.aside := rfl
@[simp] theorem setWinPair_nvRetired (s : State) (a v : Nat) : (s.setWinPair a v).nvRetired = s.nvRetired := rfl
@[simp] theorem setWinPair_bootRetired (s : State) (a v : Nat) : (s.setWinPair a v).bootRetired = s.bootRetired := rfl
@[simp] theorem setWinPair_bootDue (s : State) (a v : Nat) : (s.setWinPair a v).bootDue = s.bootDue := rfl
@[simp] theorem setWinPair_reply (s : State) (a v : Nat) : (s.setWinPair a v).reply = s.reply := rfl
@[simp] theorem setWinPair_answer (s : State) (a v : Nat) : (s.setWinPair a v).answer = s.answer := rfl
@[simp] theorem setWinPair_bootCycle (s : State) (a v : Nat) : (s.setWinPair a v).bootCycle = s.bootCycle := rfl
@[simp] theorem setWinPair_halting (s : State) (a v : Nat) : (s.setWinPair a v).halting = s.halting := rfl
@[simp] theorem setWinPair_linksDown (s : State) (a v : Nat) : (s.setWinPair a v).linksDown = s.linksDown := rfl
@[simp] theorem setWinPair_cfails (s : State) (a v : Nat) : (s.setWinPair a v).cfails = s.cfails := rfl
@[simp] theorem setWinPair_due (s : State) (a v : Nat) : (s.setWinPair a v).due = s.due := rfl
@[simp] theorem setWinPair_pkid (s : State) (a v : Nat) : (s.setWinPair a v).pkid = s.pkid := rfl
@[simp] theorem setWinPair_served (s : State) (a v : Nat) : (s.setWinPair a v).served = s.served := rfl
@[simp] theorem setWinPair_nextLaunch (s : State) (a v : Nat) : (s.setWinPair a v).nextLaunch = s.nextLaunch := rfl
@[simp] theorem setWinPair_nextId (s : State) (a v : Nat) : (s.setWinPair a v).nextId = s.nextId := rfl
@[simp] theorem setWinPair_freeCtr (s : State) (a v : Nat) : (s.setWinPair a v).freeCtr = s.freeCtr := rfl
@[simp] theorem setWinPair_agenda (s : State) (a v : Nat) : (s.setWinPair a v).agenda = s.agenda := rfl
@[simp] theorem setWinPair_issue (s : State) (a v : Nat) : (s.setWinPair a v).issue = s.issue := rfl
@[simp] theorem setWinPair_fx (s : State) (a v : Nat) : (s.setWinPair a v).fx = s.fx := rfl
@[simp] theorem setWinPair_sel (s : State) (a v : Nat) : (s.setWinPair a v).sel = s.sel := rfl
@[simp] theorem setWinPair_slotMate (s : State) (a v : Nat) : (s.setWinPair a v).slotMate = s.slotMate := rfl
@[simp] theorem setWinPair_turn (s : State) (a v : Nat) : (s.setWinPair a v).turn = s.turn := rfl

/-! ### setUnit -/

@[simp] theorem setUnit_hw (s : State) (u : Nat) (x : MemUnit) : (s.setUnit u x).hw = s.hw := rfl
@[simp] theorem setUnit_cycle (s : State) (u : Nat) (x : MemUnit) : (s.setUnit u x).cycle = s.cycle := rfl
@[simp] theorem setUnit_mem (s : State) (u : Nat) (x : MemUnit) : (s.setUnit u x).mem = s.mem := rfl
@[simp] theorem setUnit_stage (s : State) (u : Nat) (x : MemUnit) : (s.setUnit u x).stage = s.stage := rfl
@[simp] theorem setUnit_badWords (s : State) (u : Nat) (x : MemUnit) : (s.setUnit u x).badWords = s.badWords := rfl
@[simp] theorem setUnit_l2 (s : State) (u : Nat) (x : MemUnit) : (s.setUnit u x).l2 = s.l2 := rfl
@[simp] theorem setUnit_rdc (s : State) (u : Nat) (x : MemUnit) : (s.setUnit u x).rdc = s.rdc := rfl
@[simp] theorem setUnit_owners (s : State) (u : Nat) (x : MemUnit) : (s.setUnit u x).owners = s.owners := rfl
@[simp] theorem setUnit_sectors (s : State) (u : Nat) (x : MemUnit) : (s.setUnit u x).sectors = s.sectors := rfl
@[simp] theorem setUnit_recent (s : State) (u : Nat) (x : MemUnit) : (s.setUnit u x).recent = s.recent := rfl
@[simp] theorem setUnit_spoilt (s : State) (u : Nat) (x : MemUnit) : (s.setUnit u x).spoilt = s.spoilt := rfl
@[simp] theorem setUnit_locks (s : State) (u : Nat) (x : MemUnit) : (s.setUnit u x).locks = s.locks := rfl
@[simp] theorem setUnit_waiting (s : State) (u : Nat) (x : MemUnit) : (s.setUnit u x).waiting = s.waiting := rfl
@[simp] theorem setUnit_loads (s : State) (u : Nat) (x : MemUnit) : (s.setUnit u x).loads = s.loads := rfl
@[simp] theorem setUnit_stores (s : State) (u : Nat) (x : MemUnit) : (s.setUnit u x).stores = s.stores := rfl
@[simp] theorem setUnit_atomics (s : State) (u : Nat) (x : MemUnit) : (s.setUnit u x).atomics = s.atomics := rfl
@[simp] theorem setUnit_reds (s : State) (u : Nat) (x : MemUnit) : (s.setUnit u x).reds = s.reds := rfl
@[simp] theorem setUnit_cmds (s : State) (u : Nat) (x : MemUnit) : (s.setUnit u x).cmds = s.cmds := rfl
@[simp] theorem setUnit_arrivals (s : State) (u : Nat) (x : MemUnit) : (s.setUnit u x).arrivals = s.arrivals := rfl
@[simp] theorem setUnit_tlbInvs (s : State) (u : Nat) (x : MemUnit) : (s.setUnit u x).tlbInvs = s.tlbInvs := rfl
@[simp] theorem setUnit_markers (s : State) (u : Nat) (x : MemUnit) : (s.setUnit u x).markers = s.markers := rfl
@[simp] theorem setUnit_cores (s : State) (u : Nat) (x : MemUnit) : (s.setUnit u x).cores = s.cores := rfl
@[simp] theorem setUnit_launches (s : State) (u : Nat) (x : MemUnit) : (s.setUnit u x).launches = s.launches := rfl
@[simp] theorem setUnit_queues (s : State) (u : Nat) (x : MemUnit) : (s.setUnit u x).queues = s.queues := rfl
@[simp] theorem setUnit_kernels (s : State) (u : Nat) (x : MemUnit) : (s.setUnit u x).kernels = s.kernels := rfl
@[simp] theorem setUnit_kseSerials (s : State) (u : Nat) (x : MemUnit) : (s.setUnit u x).kseSerials = s.kseSerials := rfl
@[simp] theorem setUnit_win (s : State) (u : Nat) (x : MemUnit) : (s.setUnit u x).win = s.win := rfl
@[simp] theorem setUnit_units (s : State) (u : Nat) (x : MemUnit) : (s.setUnit u x).units = sput s.units u x := rfl
@[simp] theorem setUnit_by_ (s : State) (u : Nat) (x : MemUnit) : (s.setUnit u x).by_ = s.by_ := rfl
@[simp] theorem setUnit_migrations (s : State) (u : Nat) (x : MemUnit) : (s.setUnit u x).migrations = s.migrations := rfl
@[simp] theorem setUnit_alerts (s : State) (u : Nat) (x : MemUnit) : (s.setUnit u x).alerts = s.alerts := rfl
@[simp] theorem setUnit_mainPower (s : State) (u : Nat) (x : MemUnit) : (s.setUnit u x).mainPower = s.mainPower := rfl
@[simp] theorem setUnit_firmware (s : State) (u : Nat) (x : MemUnit) : (s.setUnit u x).firmware = s.firmware := rfl
@[simp] theorem setUnit_tests (s : State) (u : Nat) (x : MemUnit) : (s.setUnit u x).tests = s.tests := rfl
@[simp] theorem setUnit_aside (s : State) (u : Nat) (x : MemUnit) : (s.setUnit u x).aside = s.aside := rfl
@[simp] theorem setUnit_nvRetired (s : State) (u : Nat) (x : MemUnit) : (s.setUnit u x).nvRetired = s.nvRetired := rfl
@[simp] theorem setUnit_bootRetired (s : State) (u : Nat) (x : MemUnit) : (s.setUnit u x).bootRetired = s.bootRetired := rfl
@[simp] theorem setUnit_bootDue (s : State) (u : Nat) (x : MemUnit) : (s.setUnit u x).bootDue = s.bootDue := rfl
@[simp] theorem setUnit_reply (s : State) (u : Nat) (x : MemUnit) : (s.setUnit u x).reply = s.reply := rfl
@[simp] theorem setUnit_answer (s : State) (u : Nat) (x : MemUnit) : (s.setUnit u x).answer = s.answer := rfl
@[simp] theorem setUnit_bootCycle (s : State) (u : Nat) (x : MemUnit) : (s.setUnit u x).bootCycle = s.bootCycle := rfl
@[simp] theorem setUnit_halting (s : State) (u : Nat) (x : MemUnit) : (s.setUnit u x).halting = s.halting := rfl
@[simp] theorem setUnit_linksDown (s : State) (u : Nat) (x : MemUnit) : (s.setUnit u x).linksDown = s.linksDown := rfl
@[simp] theorem setUnit_cfails (s : State) (u : Nat) (x : MemUnit) : (s.setUnit u x).cfails = s.cfails := rfl
@[simp] theorem setUnit_due (s : State) (u : Nat) (x : MemUnit) : (s.setUnit u x).due = s.due := rfl
@[simp] theorem setUnit_pkid (s : State) (u : Nat) (x : MemUnit) : (s.setUnit u x).pkid = s.pkid := rfl
@[simp] theorem setUnit_served (s : State) (u : Nat) (x : MemUnit) : (s.setUnit u x).served = s.served := rfl
@[simp] theorem setUnit_nextLaunch (s : State) (u : Nat) (x : MemUnit) : (s.setUnit u x).nextLaunch = s.nextLaunch := rfl
@[simp] theorem setUnit_nextId (s : State) (u : Nat) (x : MemUnit) : (s.setUnit u x).nextId = s.nextId := rfl
@[simp] theorem setUnit_freeCtr (s : State) (u : Nat) (x : MemUnit) : (s.setUnit u x).freeCtr = s.freeCtr := rfl
@[simp] theorem setUnit_agenda (s : State) (u : Nat) (x : MemUnit) : (s.setUnit u x).agenda = s.agenda := rfl
@[simp] theorem setUnit_issue (s : State) (u : Nat) (x : MemUnit) : (s.setUnit u x).issue = s.issue := rfl
@[simp] theorem setUnit_fx (s : State) (u : Nat) (x : MemUnit) : (s.setUnit u x).fx = s.fx := rfl
@[simp] theorem setUnit_sel (s : State) (u : Nat) (x : MemUnit) : (s.setUnit u x).sel = s.sel := rfl
@[simp] theorem setUnit_slotMate (s : State) (u : Nat) (x : MemUnit) : (s.setUnit u x).slotMate = s.slotMate := rfl
@[simp] theorem setUnit_turn (s : State) (u : Nat) (x : MemUnit) : (s.setUnit u x).turn = s.turn := rfl

/-! ### modUnit -/

@[simp] theorem modUnit_hw (s : State) (u : Nat) (f : MemUnit → MemUnit) : (s.modUnit u f).hw = s.hw := rfl
@[simp] theorem modUnit_cycle (s : State) (u : Nat) (f : MemUnit → MemUnit) : (s.modUnit u f).cycle = s.cycle := rfl
@[simp] theorem modUnit_mem (s : State) (u : Nat) (f : MemUnit → MemUnit) : (s.modUnit u f).mem = s.mem := rfl
@[simp] theorem modUnit_stage (s : State) (u : Nat) (f : MemUnit → MemUnit) : (s.modUnit u f).stage = s.stage := rfl
@[simp] theorem modUnit_badWords (s : State) (u : Nat) (f : MemUnit → MemUnit) : (s.modUnit u f).badWords = s.badWords := rfl
@[simp] theorem modUnit_l2 (s : State) (u : Nat) (f : MemUnit → MemUnit) : (s.modUnit u f).l2 = s.l2 := rfl
@[simp] theorem modUnit_rdc (s : State) (u : Nat) (f : MemUnit → MemUnit) : (s.modUnit u f).rdc = s.rdc := rfl
@[simp] theorem modUnit_owners (s : State) (u : Nat) (f : MemUnit → MemUnit) : (s.modUnit u f).owners = s.owners := rfl
@[simp] theorem modUnit_sectors (s : State) (u : Nat) (f : MemUnit → MemUnit) : (s.modUnit u f).sectors = s.sectors := rfl
@[simp] theorem modUnit_recent (s : State) (u : Nat) (f : MemUnit → MemUnit) : (s.modUnit u f).recent = s.recent := rfl
@[simp] theorem modUnit_spoilt (s : State) (u : Nat) (f : MemUnit → MemUnit) : (s.modUnit u f).spoilt = s.spoilt := rfl
@[simp] theorem modUnit_locks (s : State) (u : Nat) (f : MemUnit → MemUnit) : (s.modUnit u f).locks = s.locks := rfl
@[simp] theorem modUnit_waiting (s : State) (u : Nat) (f : MemUnit → MemUnit) : (s.modUnit u f).waiting = s.waiting := rfl
@[simp] theorem modUnit_loads (s : State) (u : Nat) (f : MemUnit → MemUnit) : (s.modUnit u f).loads = s.loads := rfl
@[simp] theorem modUnit_stores (s : State) (u : Nat) (f : MemUnit → MemUnit) : (s.modUnit u f).stores = s.stores := rfl
@[simp] theorem modUnit_atomics (s : State) (u : Nat) (f : MemUnit → MemUnit) : (s.modUnit u f).atomics = s.atomics := rfl
@[simp] theorem modUnit_reds (s : State) (u : Nat) (f : MemUnit → MemUnit) : (s.modUnit u f).reds = s.reds := rfl
@[simp] theorem modUnit_cmds (s : State) (u : Nat) (f : MemUnit → MemUnit) : (s.modUnit u f).cmds = s.cmds := rfl
@[simp] theorem modUnit_arrivals (s : State) (u : Nat) (f : MemUnit → MemUnit) : (s.modUnit u f).arrivals = s.arrivals := rfl
@[simp] theorem modUnit_tlbInvs (s : State) (u : Nat) (f : MemUnit → MemUnit) : (s.modUnit u f).tlbInvs = s.tlbInvs := rfl
@[simp] theorem modUnit_markers (s : State) (u : Nat) (f : MemUnit → MemUnit) : (s.modUnit u f).markers = s.markers := rfl
@[simp] theorem modUnit_cores (s : State) (u : Nat) (f : MemUnit → MemUnit) : (s.modUnit u f).cores = s.cores := rfl
@[simp] theorem modUnit_launches (s : State) (u : Nat) (f : MemUnit → MemUnit) : (s.modUnit u f).launches = s.launches := rfl
@[simp] theorem modUnit_queues (s : State) (u : Nat) (f : MemUnit → MemUnit) : (s.modUnit u f).queues = s.queues := rfl
@[simp] theorem modUnit_kernels (s : State) (u : Nat) (f : MemUnit → MemUnit) : (s.modUnit u f).kernels = s.kernels := rfl
@[simp] theorem modUnit_kseSerials (s : State) (u : Nat) (f : MemUnit → MemUnit) : (s.modUnit u f).kseSerials = s.kseSerials := rfl
@[simp] theorem modUnit_win (s : State) (u : Nat) (f : MemUnit → MemUnit) : (s.modUnit u f).win = s.win := rfl
@[simp] theorem modUnit_units (s : State) (u : Nat) (f : MemUnit → MemUnit) : (s.modUnit u f).units = sput s.units u (f (s.unitAt u)) := rfl
@[simp] theorem modUnit_by_ (s : State) (u : Nat) (f : MemUnit → MemUnit) : (s.modUnit u f).by_ = s.by_ := rfl
@[simp] theorem modUnit_migrations (s : State) (u : Nat) (f : MemUnit → MemUnit) : (s.modUnit u f).migrations = s.migrations := rfl
@[simp] theorem modUnit_alerts (s : State) (u : Nat) (f : MemUnit → MemUnit) : (s.modUnit u f).alerts = s.alerts := rfl
@[simp] theorem modUnit_mainPower (s : State) (u : Nat) (f : MemUnit → MemUnit) : (s.modUnit u f).mainPower = s.mainPower := rfl
@[simp] theorem modUnit_firmware (s : State) (u : Nat) (f : MemUnit → MemUnit) : (s.modUnit u f).firmware = s.firmware := rfl
@[simp] theorem modUnit_tests (s : State) (u : Nat) (f : MemUnit → MemUnit) : (s.modUnit u f).tests = s.tests := rfl
@[simp] theorem modUnit_aside (s : State) (u : Nat) (f : MemUnit → MemUnit) : (s.modUnit u f).aside = s.aside := rfl
@[simp] theorem modUnit_nvRetired (s : State) (u : Nat) (f : MemUnit → MemUnit) : (s.modUnit u f).nvRetired = s.nvRetired := rfl
@[simp] theorem modUnit_bootRetired (s : State) (u : Nat) (f : MemUnit → MemUnit) : (s.modUnit u f).bootRetired = s.bootRetired := rfl
@[simp] theorem modUnit_bootDue (s : State) (u : Nat) (f : MemUnit → MemUnit) : (s.modUnit u f).bootDue = s.bootDue := rfl
@[simp] theorem modUnit_reply (s : State) (u : Nat) (f : MemUnit → MemUnit) : (s.modUnit u f).reply = s.reply := rfl
@[simp] theorem modUnit_answer (s : State) (u : Nat) (f : MemUnit → MemUnit) : (s.modUnit u f).answer = s.answer := rfl
@[simp] theorem modUnit_bootCycle (s : State) (u : Nat) (f : MemUnit → MemUnit) : (s.modUnit u f).bootCycle = s.bootCycle := rfl
@[simp] theorem modUnit_halting (s : State) (u : Nat) (f : MemUnit → MemUnit) : (s.modUnit u f).halting = s.halting := rfl
@[simp] theorem modUnit_linksDown (s : State) (u : Nat) (f : MemUnit → MemUnit) : (s.modUnit u f).linksDown = s.linksDown := rfl
@[simp] theorem modUnit_cfails (s : State) (u : Nat) (f : MemUnit → MemUnit) : (s.modUnit u f).cfails = s.cfails := rfl
@[simp] theorem modUnit_due (s : State) (u : Nat) (f : MemUnit → MemUnit) : (s.modUnit u f).due = s.due := rfl
@[simp] theorem modUnit_pkid (s : State) (u : Nat) (f : MemUnit → MemUnit) : (s.modUnit u f).pkid = s.pkid := rfl
@[simp] theorem modUnit_served (s : State) (u : Nat) (f : MemUnit → MemUnit) : (s.modUnit u f).served = s.served := rfl
@[simp] theorem modUnit_nextLaunch (s : State) (u : Nat) (f : MemUnit → MemUnit) : (s.modUnit u f).nextLaunch = s.nextLaunch := rfl
@[simp] theorem modUnit_nextId (s : State) (u : Nat) (f : MemUnit → MemUnit) : (s.modUnit u f).nextId = s.nextId := rfl
@[simp] theorem modUnit_freeCtr (s : State) (u : Nat) (f : MemUnit → MemUnit) : (s.modUnit u f).freeCtr = s.freeCtr := rfl
@[simp] theorem modUnit_agenda (s : State) (u : Nat) (f : MemUnit → MemUnit) : (s.modUnit u f).agenda = s.agenda := rfl
@[simp] theorem modUnit_issue (s : State) (u : Nat) (f : MemUnit → MemUnit) : (s.modUnit u f).issue = s.issue := rfl
@[simp] theorem modUnit_fx (s : State) (u : Nat) (f : MemUnit → MemUnit) : (s.modUnit u f).fx = s.fx := rfl
@[simp] theorem modUnit_sel (s : State) (u : Nat) (f : MemUnit → MemUnit) : (s.modUnit u f).sel = s.sel := rfl
@[simp] theorem modUnit_slotMate (s : State) (u : Nat) (f : MemUnit → MemUnit) : (s.modUnit u f).slotMate = s.slotMate := rfl
@[simp] theorem modUnit_turn (s : State) (u : Nat) (f : MemUnit → MemUnit) : (s.modUnit u f).turn = s.turn := rfl

/-! ### setCore -/

@[simp] theorem setCore_hw (s : State) (c : Nat) (x : Core) : (s.setCore c x).hw = s.hw := rfl
@[simp] theorem setCore_cycle (s : State) (c : Nat) (x : Core) : (s.setCore c x).cycle = s.cycle := rfl
@[simp] theorem setCore_mem (s : State) (c : Nat) (x : Core) : (s.setCore c x).mem = s.mem := rfl
@[simp] theorem setCore_stage (s : State) (c : Nat) (x : Core) : (s.setCore c x).stage = s.stage := rfl
@[simp] theorem setCore_badWords (s : State) (c : Nat) (x : Core) : (s.setCore c x).badWords = s.badWords := rfl
@[simp] theorem setCore_l2 (s : State) (c : Nat) (x : Core) : (s.setCore c x).l2 = s.l2 := rfl
@[simp] theorem setCore_rdc (s : State) (c : Nat) (x : Core) : (s.setCore c x).rdc = s.rdc := rfl
@[simp] theorem setCore_owners (s : State) (c : Nat) (x : Core) : (s.setCore c x).owners = s.owners := rfl
@[simp] theorem setCore_sectors (s : State) (c : Nat) (x : Core) : (s.setCore c x).sectors = s.sectors := rfl
@[simp] theorem setCore_recent (s : State) (c : Nat) (x : Core) : (s.setCore c x).recent = s.recent := rfl
@[simp] theorem setCore_spoilt (s : State) (c : Nat) (x : Core) : (s.setCore c x).spoilt = s.spoilt := rfl
@[simp] theorem setCore_locks (s : State) (c : Nat) (x : Core) : (s.setCore c x).locks = s.locks := rfl
@[simp] theorem setCore_waiting (s : State) (c : Nat) (x : Core) : (s.setCore c x).waiting = s.waiting := rfl
@[simp] theorem setCore_loads (s : State) (c : Nat) (x : Core) : (s.setCore c x).loads = s.loads := rfl
@[simp] theorem setCore_stores (s : State) (c : Nat) (x : Core) : (s.setCore c x).stores = s.stores := rfl
@[simp] theorem setCore_atomics (s : State) (c : Nat) (x : Core) : (s.setCore c x).atomics = s.atomics := rfl
@[simp] theorem setCore_reds (s : State) (c : Nat) (x : Core) : (s.setCore c x).reds = s.reds := rfl
@[simp] theorem setCore_cmds (s : State) (c : Nat) (x : Core) : (s.setCore c x).cmds = s.cmds := rfl
@[simp] theorem setCore_arrivals (s : State) (c : Nat) (x : Core) : (s.setCore c x).arrivals = s.arrivals := rfl
@[simp] theorem setCore_tlbInvs (s : State) (c : Nat) (x : Core) : (s.setCore c x).tlbInvs = s.tlbInvs := rfl
@[simp] theorem setCore_markers (s : State) (c : Nat) (x : Core) : (s.setCore c x).markers = s.markers := rfl
@[simp] theorem setCore_cores (s : State) (c : Nat) (x : Core) : (s.setCore c x).cores = sput s.cores c x := rfl
@[simp] theorem setCore_launches (s : State) (c : Nat) (x : Core) : (s.setCore c x).launches = s.launches := rfl
@[simp] theorem setCore_queues (s : State) (c : Nat) (x : Core) : (s.setCore c x).queues = s.queues := rfl
@[simp] theorem setCore_kernels (s : State) (c : Nat) (x : Core) : (s.setCore c x).kernels = s.kernels := rfl
@[simp] theorem setCore_kseSerials (s : State) (c : Nat) (x : Core) : (s.setCore c x).kseSerials = s.kseSerials := rfl
@[simp] theorem setCore_win (s : State) (c : Nat) (x : Core) : (s.setCore c x).win = s.win := rfl
@[simp] theorem setCore_units (s : State) (c : Nat) (x : Core) : (s.setCore c x).units = s.units := rfl
@[simp] theorem setCore_by_ (s : State) (c : Nat) (x : Core) : (s.setCore c x).by_ = s.by_ := rfl
@[simp] theorem setCore_migrations (s : State) (c : Nat) (x : Core) : (s.setCore c x).migrations = s.migrations := rfl
@[simp] theorem setCore_alerts (s : State) (c : Nat) (x : Core) : (s.setCore c x).alerts = s.alerts := rfl
@[simp] theorem setCore_mainPower (s : State) (c : Nat) (x : Core) : (s.setCore c x).mainPower = s.mainPower := rfl
@[simp] theorem setCore_firmware (s : State) (c : Nat) (x : Core) : (s.setCore c x).firmware = s.firmware := rfl
@[simp] theorem setCore_tests (s : State) (c : Nat) (x : Core) : (s.setCore c x).tests = s.tests := rfl
@[simp] theorem setCore_aside (s : State) (c : Nat) (x : Core) : (s.setCore c x).aside = s.aside := rfl
@[simp] theorem setCore_nvRetired (s : State) (c : Nat) (x : Core) : (s.setCore c x).nvRetired = s.nvRetired := rfl
@[simp] theorem setCore_bootRetired (s : State) (c : Nat) (x : Core) : (s.setCore c x).bootRetired = s.bootRetired := rfl
@[simp] theorem setCore_bootDue (s : State) (c : Nat) (x : Core) : (s.setCore c x).bootDue = s.bootDue := rfl
@[simp] theorem setCore_reply (s : State) (c : Nat) (x : Core) : (s.setCore c x).reply = s.reply := rfl
@[simp] theorem setCore_answer (s : State) (c : Nat) (x : Core) : (s.setCore c x).answer = s.answer := rfl
@[simp] theorem setCore_bootCycle (s : State) (c : Nat) (x : Core) : (s.setCore c x).bootCycle = s.bootCycle := rfl
@[simp] theorem setCore_halting (s : State) (c : Nat) (x : Core) : (s.setCore c x).halting = s.halting := rfl
@[simp] theorem setCore_linksDown (s : State) (c : Nat) (x : Core) : (s.setCore c x).linksDown = s.linksDown := rfl
@[simp] theorem setCore_cfails (s : State) (c : Nat) (x : Core) : (s.setCore c x).cfails = s.cfails := rfl
@[simp] theorem setCore_due (s : State) (c : Nat) (x : Core) : (s.setCore c x).due = s.due := rfl
@[simp] theorem setCore_pkid (s : State) (c : Nat) (x : Core) : (s.setCore c x).pkid = s.pkid := rfl
@[simp] theorem setCore_served (s : State) (c : Nat) (x : Core) : (s.setCore c x).served = s.served := rfl
@[simp] theorem setCore_nextLaunch (s : State) (c : Nat) (x : Core) : (s.setCore c x).nextLaunch = s.nextLaunch := rfl
@[simp] theorem setCore_nextId (s : State) (c : Nat) (x : Core) : (s.setCore c x).nextId = s.nextId := rfl
@[simp] theorem setCore_freeCtr (s : State) (c : Nat) (x : Core) : (s.setCore c x).freeCtr = s.freeCtr := rfl
@[simp] theorem setCore_agenda (s : State) (c : Nat) (x : Core) : (s.setCore c x).agenda = s.agenda := rfl
@[simp] theorem setCore_issue (s : State) (c : Nat) (x : Core) : (s.setCore c x).issue = s.issue := rfl
@[simp] theorem setCore_fx (s : State) (c : Nat) (x : Core) : (s.setCore c x).fx = s.fx := rfl
@[simp] theorem setCore_sel (s : State) (c : Nat) (x : Core) : (s.setCore c x).sel = s.sel := rfl
@[simp] theorem setCore_slotMate (s : State) (c : Nat) (x : Core) : (s.setCore c x).slotMate = s.slotMate := rfl
@[simp] theorem setCore_turn (s : State) (c : Nat) (x : Core) : (s.setCore c x).turn = s.turn := rfl

/-! ### setBlock -/

@[simp] theorem setBlock_hw (s : State) (c b : Nat) (x : Block) : (s.setBlock c b x).hw = s.hw := rfl
@[simp] theorem setBlock_cycle (s : State) (c b : Nat) (x : Block) : (s.setBlock c b x).cycle = s.cycle := rfl
@[simp] theorem setBlock_mem (s : State) (c b : Nat) (x : Block) : (s.setBlock c b x).mem = s.mem := rfl
@[simp] theorem setBlock_stage (s : State) (c b : Nat) (x : Block) : (s.setBlock c b x).stage = s.stage := rfl
@[simp] theorem setBlock_badWords (s : State) (c b : Nat) (x : Block) : (s.setBlock c b x).badWords = s.badWords := rfl
@[simp] theorem setBlock_l2 (s : State) (c b : Nat) (x : Block) : (s.setBlock c b x).l2 = s.l2 := rfl
@[simp] theorem setBlock_rdc (s : State) (c b : Nat) (x : Block) : (s.setBlock c b x).rdc = s.rdc := rfl
@[simp] theorem setBlock_owners (s : State) (c b : Nat) (x : Block) : (s.setBlock c b x).owners = s.owners := rfl
@[simp] theorem setBlock_sectors (s : State) (c b : Nat) (x : Block) : (s.setBlock c b x).sectors = s.sectors := rfl
@[simp] theorem setBlock_recent (s : State) (c b : Nat) (x : Block) : (s.setBlock c b x).recent = s.recent := rfl
@[simp] theorem setBlock_spoilt (s : State) (c b : Nat) (x : Block) : (s.setBlock c b x).spoilt = s.spoilt := rfl
@[simp] theorem setBlock_locks (s : State) (c b : Nat) (x : Block) : (s.setBlock c b x).locks = s.locks := rfl
@[simp] theorem setBlock_waiting (s : State) (c b : Nat) (x : Block) : (s.setBlock c b x).waiting = s.waiting := rfl
@[simp] theorem setBlock_loads (s : State) (c b : Nat) (x : Block) : (s.setBlock c b x).loads = s.loads := rfl
@[simp] theorem setBlock_stores (s : State) (c b : Nat) (x : Block) : (s.setBlock c b x).stores = s.stores := rfl
@[simp] theorem setBlock_atomics (s : State) (c b : Nat) (x : Block) : (s.setBlock c b x).atomics = s.atomics := rfl
@[simp] theorem setBlock_reds (s : State) (c b : Nat) (x : Block) : (s.setBlock c b x).reds = s.reds := rfl
@[simp] theorem setBlock_cmds (s : State) (c b : Nat) (x : Block) : (s.setBlock c b x).cmds = s.cmds := rfl
@[simp] theorem setBlock_arrivals (s : State) (c b : Nat) (x : Block) : (s.setBlock c b x).arrivals = s.arrivals := rfl
@[simp] theorem setBlock_tlbInvs (s : State) (c b : Nat) (x : Block) : (s.setBlock c b x).tlbInvs = s.tlbInvs := rfl
@[simp] theorem setBlock_markers (s : State) (c b : Nat) (x : Block) : (s.setBlock c b x).markers = s.markers := rfl
@[simp] theorem setBlock_launches (s : State) (c b : Nat) (x : Block) : (s.setBlock c b x).launches = s.launches := rfl
@[simp] theorem setBlock_queues (s : State) (c b : Nat) (x : Block) : (s.setBlock c b x).queues = s.queues := rfl
@[simp] theorem setBlock_kernels (s : State) (c b : Nat) (x : Block) : (s.setBlock c b x).kernels = s.kernels := rfl
@[simp] theorem setBlock_kseSerials (s : State) (c b : Nat) (x : Block) : (s.setBlock c b x).kseSerials = s.kseSerials := rfl
@[simp] theorem setBlock_win (s : State) (c b : Nat) (x : Block) : (s.setBlock c b x).win = s.win := rfl
@[simp] theorem setBlock_units (s : State) (c b : Nat) (x : Block) : (s.setBlock c b x).units = s.units := rfl
@[simp] theorem setBlock_by_ (s : State) (c b : Nat) (x : Block) : (s.setBlock c b x).by_ = s.by_ := rfl
@[simp] theorem setBlock_migrations (s : State) (c b : Nat) (x : Block) : (s.setBlock c b x).migrations = s.migrations := rfl
@[simp] theorem setBlock_alerts (s : State) (c b : Nat) (x : Block) : (s.setBlock c b x).alerts = s.alerts := rfl
@[simp] theorem setBlock_mainPower (s : State) (c b : Nat) (x : Block) : (s.setBlock c b x).mainPower = s.mainPower := rfl
@[simp] theorem setBlock_firmware (s : State) (c b : Nat) (x : Block) : (s.setBlock c b x).firmware = s.firmware := rfl
@[simp] theorem setBlock_tests (s : State) (c b : Nat) (x : Block) : (s.setBlock c b x).tests = s.tests := rfl
@[simp] theorem setBlock_aside (s : State) (c b : Nat) (x : Block) : (s.setBlock c b x).aside = s.aside := rfl
@[simp] theorem setBlock_nvRetired (s : State) (c b : Nat) (x : Block) : (s.setBlock c b x).nvRetired = s.nvRetired := rfl
@[simp] theorem setBlock_bootRetired (s : State) (c b : Nat) (x : Block) : (s.setBlock c b x).bootRetired = s.bootRetired := rfl
@[simp] theorem setBlock_bootDue (s : State) (c b : Nat) (x : Block) : (s.setBlock c b x).bootDue = s.bootDue := rfl
@[simp] theorem setBlock_reply (s : State) (c b : Nat) (x : Block) : (s.setBlock c b x).reply = s.reply := rfl
@[simp] theorem setBlock_answer (s : State) (c b : Nat) (x : Block) : (s.setBlock c b x).answer = s.answer := rfl
@[simp] theorem setBlock_bootCycle (s : State) (c b : Nat) (x : Block) : (s.setBlock c b x).bootCycle = s.bootCycle := rfl
@[simp] theorem setBlock_halting (s : State) (c b : Nat) (x : Block) : (s.setBlock c b x).halting = s.halting := rfl
@[simp] theorem setBlock_linksDown (s : State) (c b : Nat) (x : Block) : (s.setBlock c b x).linksDown = s.linksDown := rfl
@[simp] theorem setBlock_cfails (s : State) (c b : Nat) (x : Block) : (s.setBlock c b x).cfails = s.cfails := rfl
@[simp] theorem setBlock_due (s : State) (c b : Nat) (x : Block) : (s.setBlock c b x).due = s.due := rfl
@[simp] theorem setBlock_pkid (s : State) (c b : Nat) (x : Block) : (s.setBlock c b x).pkid = s.pkid := rfl
@[simp] theorem setBlock_served (s : State) (c b : Nat) (x : Block) : (s.setBlock c b x).served = s.served := rfl
@[simp] theorem setBlock_nextLaunch (s : State) (c b : Nat) (x : Block) : (s.setBlock c b x).nextLaunch = s.nextLaunch := rfl
@[simp] theorem setBlock_nextId (s : State) (c b : Nat) (x : Block) : (s.setBlock c b x).nextId = s.nextId := rfl
@[simp] theorem setBlock_freeCtr (s : State) (c b : Nat) (x : Block) : (s.setBlock c b x).freeCtr = s.freeCtr := rfl
@[simp] theorem setBlock_agenda (s : State) (c b : Nat) (x : Block) : (s.setBlock c b x).agenda = s.agenda := rfl
@[simp] theorem setBlock_issue (s : State) (c b : Nat) (x : Block) : (s.setBlock c b x).issue = s.issue := rfl
@[simp] theorem setBlock_fx (s : State) (c b : Nat) (x : Block) : (s.setBlock c b x).fx = s.fx := rfl
@[simp] theorem setBlock_sel (s : State) (c b : Nat) (x : Block) : (s.setBlock c b x).sel = s.sel := rfl
@[simp] theorem setBlock_slotMate (s : State) (c b : Nat) (x : Block) : (s.setBlock c b x).slotMate = s.slotMate := rfl
@[simp] theorem setBlock_turn (s : State) (c b : Nat) (x : Block) : (s.setBlock c b x).turn = s.turn := rfl

/-! ### modBlock -/

@[simp] theorem modBlock_hw (s : State) (c b : Nat) (f : Block → Block) : (s.modBlock c b f).hw = s.hw := by unfold State.modBlock; split <;> rfl
@[simp] theorem modBlock_cycle (s : State) (c b : Nat) (f : Block → Block) : (s.modBlock c b f).cycle = s.cycle := by unfold State.modBlock; split <;> rfl
@[simp] theorem modBlock_mem (s : State) (c b : Nat) (f : Block → Block) : (s.modBlock c b f).mem = s.mem := by unfold State.modBlock; split <;> rfl
@[simp] theorem modBlock_stage (s : State) (c b : Nat) (f : Block → Block) : (s.modBlock c b f).stage = s.stage := by unfold State.modBlock; split <;> rfl
@[simp] theorem modBlock_badWords (s : State) (c b : Nat) (f : Block → Block) : (s.modBlock c b f).badWords = s.badWords := by unfold State.modBlock; split <;> rfl
@[simp] theorem modBlock_l2 (s : State) (c b : Nat) (f : Block → Block) : (s.modBlock c b f).l2 = s.l2 := by unfold State.modBlock; split <;> rfl
@[simp] theorem modBlock_rdc (s : State) (c b : Nat) (f : Block → Block) : (s.modBlock c b f).rdc = s.rdc := by unfold State.modBlock; split <;> rfl
@[simp] theorem modBlock_owners (s : State) (c b : Nat) (f : Block → Block) : (s.modBlock c b f).owners = s.owners := by unfold State.modBlock; split <;> rfl
@[simp] theorem modBlock_sectors (s : State) (c b : Nat) (f : Block → Block) : (s.modBlock c b f).sectors = s.sectors := by unfold State.modBlock; split <;> rfl
@[simp] theorem modBlock_recent (s : State) (c b : Nat) (f : Block → Block) : (s.modBlock c b f).recent = s.recent := by unfold State.modBlock; split <;> rfl
@[simp] theorem modBlock_spoilt (s : State) (c b : Nat) (f : Block → Block) : (s.modBlock c b f).spoilt = s.spoilt := by unfold State.modBlock; split <;> rfl
@[simp] theorem modBlock_locks (s : State) (c b : Nat) (f : Block → Block) : (s.modBlock c b f).locks = s.locks := by unfold State.modBlock; split <;> rfl
@[simp] theorem modBlock_waiting (s : State) (c b : Nat) (f : Block → Block) : (s.modBlock c b f).waiting = s.waiting := by unfold State.modBlock; split <;> rfl
@[simp] theorem modBlock_loads (s : State) (c b : Nat) (f : Block → Block) : (s.modBlock c b f).loads = s.loads := by unfold State.modBlock; split <;> rfl
@[simp] theorem modBlock_stores (s : State) (c b : Nat) (f : Block → Block) : (s.modBlock c b f).stores = s.stores := by unfold State.modBlock; split <;> rfl
@[simp] theorem modBlock_atomics (s : State) (c b : Nat) (f : Block → Block) : (s.modBlock c b f).atomics = s.atomics := by unfold State.modBlock; split <;> rfl
@[simp] theorem modBlock_reds (s : State) (c b : Nat) (f : Block → Block) : (s.modBlock c b f).reds = s.reds := by unfold State.modBlock; split <;> rfl
@[simp] theorem modBlock_cmds (s : State) (c b : Nat) (f : Block → Block) : (s.modBlock c b f).cmds = s.cmds := by unfold State.modBlock; split <;> rfl
@[simp] theorem modBlock_arrivals (s : State) (c b : Nat) (f : Block → Block) : (s.modBlock c b f).arrivals = s.arrivals := by unfold State.modBlock; split <;> rfl
@[simp] theorem modBlock_tlbInvs (s : State) (c b : Nat) (f : Block → Block) : (s.modBlock c b f).tlbInvs = s.tlbInvs := by unfold State.modBlock; split <;> rfl
@[simp] theorem modBlock_markers (s : State) (c b : Nat) (f : Block → Block) : (s.modBlock c b f).markers = s.markers := by unfold State.modBlock; split <;> rfl
@[simp] theorem modBlock_launches (s : State) (c b : Nat) (f : Block → Block) : (s.modBlock c b f).launches = s.launches := by unfold State.modBlock; split <;> rfl
@[simp] theorem modBlock_queues (s : State) (c b : Nat) (f : Block → Block) : (s.modBlock c b f).queues = s.queues := by unfold State.modBlock; split <;> rfl
@[simp] theorem modBlock_kernels (s : State) (c b : Nat) (f : Block → Block) : (s.modBlock c b f).kernels = s.kernels := by unfold State.modBlock; split <;> rfl
@[simp] theorem modBlock_kseSerials (s : State) (c b : Nat) (f : Block → Block) : (s.modBlock c b f).kseSerials = s.kseSerials := by unfold State.modBlock; split <;> rfl
@[simp] theorem modBlock_win (s : State) (c b : Nat) (f : Block → Block) : (s.modBlock c b f).win = s.win := by unfold State.modBlock; split <;> rfl
@[simp] theorem modBlock_units (s : State) (c b : Nat) (f : Block → Block) : (s.modBlock c b f).units = s.units := by unfold State.modBlock; split <;> rfl
@[simp] theorem modBlock_by_ (s : State) (c b : Nat) (f : Block → Block) : (s.modBlock c b f).by_ = s.by_ := by unfold State.modBlock; split <;> rfl
@[simp] theorem modBlock_migrations (s : State) (c b : Nat) (f : Block → Block) : (s.modBlock c b f).migrations = s.migrations := by unfold State.modBlock; split <;> rfl
@[simp] theorem modBlock_alerts (s : State) (c b : Nat) (f : Block → Block) : (s.modBlock c b f).alerts = s.alerts := by unfold State.modBlock; split <;> rfl
@[simp] theorem modBlock_mainPower (s : State) (c b : Nat) (f : Block → Block) : (s.modBlock c b f).mainPower = s.mainPower := by unfold State.modBlock; split <;> rfl
@[simp] theorem modBlock_firmware (s : State) (c b : Nat) (f : Block → Block) : (s.modBlock c b f).firmware = s.firmware := by unfold State.modBlock; split <;> rfl
@[simp] theorem modBlock_tests (s : State) (c b : Nat) (f : Block → Block) : (s.modBlock c b f).tests = s.tests := by unfold State.modBlock; split <;> rfl
@[simp] theorem modBlock_aside (s : State) (c b : Nat) (f : Block → Block) : (s.modBlock c b f).aside = s.aside := by unfold State.modBlock; split <;> rfl
@[simp] theorem modBlock_nvRetired (s : State) (c b : Nat) (f : Block → Block) : (s.modBlock c b f).nvRetired = s.nvRetired := by unfold State.modBlock; split <;> rfl
@[simp] theorem modBlock_bootRetired (s : State) (c b : Nat) (f : Block → Block) : (s.modBlock c b f).bootRetired = s.bootRetired := by unfold State.modBlock; split <;> rfl
@[simp] theorem modBlock_bootDue (s : State) (c b : Nat) (f : Block → Block) : (s.modBlock c b f).bootDue = s.bootDue := by unfold State.modBlock; split <;> rfl
@[simp] theorem modBlock_reply (s : State) (c b : Nat) (f : Block → Block) : (s.modBlock c b f).reply = s.reply := by unfold State.modBlock; split <;> rfl
@[simp] theorem modBlock_answer (s : State) (c b : Nat) (f : Block → Block) : (s.modBlock c b f).answer = s.answer := by unfold State.modBlock; split <;> rfl
@[simp] theorem modBlock_bootCycle (s : State) (c b : Nat) (f : Block → Block) : (s.modBlock c b f).bootCycle = s.bootCycle := by unfold State.modBlock; split <;> rfl
@[simp] theorem modBlock_halting (s : State) (c b : Nat) (f : Block → Block) : (s.modBlock c b f).halting = s.halting := by unfold State.modBlock; split <;> rfl
@[simp] theorem modBlock_linksDown (s : State) (c b : Nat) (f : Block → Block) : (s.modBlock c b f).linksDown = s.linksDown := by unfold State.modBlock; split <;> rfl
@[simp] theorem modBlock_cfails (s : State) (c b : Nat) (f : Block → Block) : (s.modBlock c b f).cfails = s.cfails := by unfold State.modBlock; split <;> rfl
@[simp] theorem modBlock_due (s : State) (c b : Nat) (f : Block → Block) : (s.modBlock c b f).due = s.due := by unfold State.modBlock; split <;> rfl
@[simp] theorem modBlock_pkid (s : State) (c b : Nat) (f : Block → Block) : (s.modBlock c b f).pkid = s.pkid := by unfold State.modBlock; split <;> rfl
@[simp] theorem modBlock_served (s : State) (c b : Nat) (f : Block → Block) : (s.modBlock c b f).served = s.served := by unfold State.modBlock; split <;> rfl
@[simp] theorem modBlock_nextLaunch (s : State) (c b : Nat) (f : Block → Block) : (s.modBlock c b f).nextLaunch = s.nextLaunch := by unfold State.modBlock; split <;> rfl
@[simp] theorem modBlock_nextId (s : State) (c b : Nat) (f : Block → Block) : (s.modBlock c b f).nextId = s.nextId := by unfold State.modBlock; split <;> rfl
@[simp] theorem modBlock_freeCtr (s : State) (c b : Nat) (f : Block → Block) : (s.modBlock c b f).freeCtr = s.freeCtr := by unfold State.modBlock; split <;> rfl
@[simp] theorem modBlock_agenda (s : State) (c b : Nat) (f : Block → Block) : (s.modBlock c b f).agenda = s.agenda := by unfold State.modBlock; split <;> rfl
@[simp] theorem modBlock_issue (s : State) (c b : Nat) (f : Block → Block) : (s.modBlock c b f).issue = s.issue := by unfold State.modBlock; split <;> rfl
@[simp] theorem modBlock_fx (s : State) (c b : Nat) (f : Block → Block) : (s.modBlock c b f).fx = s.fx := by unfold State.modBlock; split <;> rfl
@[simp] theorem modBlock_sel (s : State) (c b : Nat) (f : Block → Block) : (s.modBlock c b f).sel = s.sel := by unfold State.modBlock; split <;> rfl
@[simp] theorem modBlock_slotMate (s : State) (c b : Nat) (f : Block → Block) : (s.modBlock c b f).slotMate = s.slotMate := by unfold State.modBlock; split <;> rfl
@[simp] theorem modBlock_turn (s : State) (c b : Nat) (f : Block → Block) : (s.modBlock c b f).turn = s.turn := by unfold State.modBlock; split <;> rfl

/-! ### setThr -/

@[simp] theorem setThr_hw (s : State) (w : Who) (t : Thread) : (s.setThr w t).hw = s.hw := by simp [State.setThr]
@[simp] theorem setThr_cycle (s : State) (w : Who) (t : Thread) : (s.setThr w t).cycle = s.cycle := by simp [State.setThr]
@[simp] theorem setThr_mem (s : State) (w : Who) (t : Thread) : (s.setThr w t).mem = s.mem := by simp [State.setThr]
@[simp] theorem setThr_stage (s : State) (w : Who) (t : Thread) : (s.setThr w t).stage = s.stage := by simp [State.setThr]
@[simp] theorem setThr_badWords (s : State) (w : Who) (t : Thread) : (s.setThr w t).badWords = s.badWords := by simp [State.setThr]
@[simp] theorem setThr_l2 (s : State) (w : Who) (t : Thread) : (s.setThr w t).l2 = s.l2 := by simp [State.setThr]
@[simp] theorem setThr_rdc (s : State) (w : Who) (t : Thread) : (s.setThr w t).rdc = s.rdc := by simp [State.setThr]
@[simp] theorem setThr_owners (s : State) (w : Who) (t : Thread) : (s.setThr w t).owners = s.owners := by simp [State.setThr]
@[simp] theorem setThr_sectors (s : State) (w : Who) (t : Thread) : (s.setThr w t).sectors = s.sectors := by simp [State.setThr]
@[simp] theorem setThr_recent (s : State) (w : Who) (t : Thread) : (s.setThr w t).recent = s.recent := by simp [State.setThr]
@[simp] theorem setThr_spoilt (s : State) (w : Who) (t : Thread) : (s.setThr w t).spoilt = s.spoilt := by simp [State.setThr]
@[simp] theorem setThr_locks (s : State) (w : Who) (t : Thread) : (s.setThr w t).locks = s.locks := by simp [State.setThr]
@[simp] theorem setThr_waiting (s : State) (w : Who) (t : Thread) : (s.setThr w t).waiting = s.waiting := by simp [State.setThr]
@[simp] theorem setThr_loads (s : State) (w : Who) (t : Thread) : (s.setThr w t).loads = s.loads := by simp [State.setThr]
@[simp] theorem setThr_stores (s : State) (w : Who) (t : Thread) : (s.setThr w t).stores = s.stores := by simp [State.setThr]
@[simp] theorem setThr_atomics (s : State) (w : Who) (t : Thread) : (s.setThr w t).atomics = s.atomics := by simp [State.setThr]
@[simp] theorem setThr_reds (s : State) (w : Who) (t : Thread) : (s.setThr w t).reds = s.reds := by simp [State.setThr]
@[simp] theorem setThr_cmds (s : State) (w : Who) (t : Thread) : (s.setThr w t).cmds = s.cmds := by simp [State.setThr]
@[simp] theorem setThr_arrivals (s : State) (w : Who) (t : Thread) : (s.setThr w t).arrivals = s.arrivals := by simp [State.setThr]
@[simp] theorem setThr_tlbInvs (s : State) (w : Who) (t : Thread) : (s.setThr w t).tlbInvs = s.tlbInvs := by simp [State.setThr]
@[simp] theorem setThr_markers (s : State) (w : Who) (t : Thread) : (s.setThr w t).markers = s.markers := by simp [State.setThr]
@[simp] theorem setThr_launches (s : State) (w : Who) (t : Thread) : (s.setThr w t).launches = s.launches := by simp [State.setThr]
@[simp] theorem setThr_queues (s : State) (w : Who) (t : Thread) : (s.setThr w t).queues = s.queues := by simp [State.setThr]
@[simp] theorem setThr_kernels (s : State) (w : Who) (t : Thread) : (s.setThr w t).kernels = s.kernels := by simp [State.setThr]
@[simp] theorem setThr_kseSerials (s : State) (w : Who) (t : Thread) : (s.setThr w t).kseSerials = s.kseSerials := by simp [State.setThr]
@[simp] theorem setThr_win (s : State) (w : Who) (t : Thread) : (s.setThr w t).win = s.win := by simp [State.setThr]
@[simp] theorem setThr_units (s : State) (w : Who) (t : Thread) : (s.setThr w t).units = s.units := by simp [State.setThr]
@[simp] theorem setThr_by_ (s : State) (w : Who) (t : Thread) : (s.setThr w t).by_ = s.by_ := by simp [State.setThr]
@[simp] theorem setThr_migrations (s : State) (w : Who) (t : Thread) : (s.setThr w t).migrations = s.migrations := by simp [State.setThr]
@[simp] theorem setThr_alerts (s : State) (w : Who) (t : Thread) : (s.setThr w t).alerts = s.alerts := by simp [State.setThr]
@[simp] theorem setThr_mainPower (s : State) (w : Who) (t : Thread) : (s.setThr w t).mainPower = s.mainPower := by simp [State.setThr]
@[simp] theorem setThr_firmware (s : State) (w : Who) (t : Thread) : (s.setThr w t).firmware = s.firmware := by simp [State.setThr]
@[simp] theorem setThr_tests (s : State) (w : Who) (t : Thread) : (s.setThr w t).tests = s.tests := by simp [State.setThr]
@[simp] theorem setThr_aside (s : State) (w : Who) (t : Thread) : (s.setThr w t).aside = s.aside := by simp [State.setThr]
@[simp] theorem setThr_nvRetired (s : State) (w : Who) (t : Thread) : (s.setThr w t).nvRetired = s.nvRetired := by simp [State.setThr]
@[simp] theorem setThr_bootRetired (s : State) (w : Who) (t : Thread) : (s.setThr w t).bootRetired = s.bootRetired := by simp [State.setThr]
@[simp] theorem setThr_bootDue (s : State) (w : Who) (t : Thread) : (s.setThr w t).bootDue = s.bootDue := by simp [State.setThr]
@[simp] theorem setThr_reply (s : State) (w : Who) (t : Thread) : (s.setThr w t).reply = s.reply := by simp [State.setThr]
@[simp] theorem setThr_answer (s : State) (w : Who) (t : Thread) : (s.setThr w t).answer = s.answer := by simp [State.setThr]
@[simp] theorem setThr_bootCycle (s : State) (w : Who) (t : Thread) : (s.setThr w t).bootCycle = s.bootCycle := by simp [State.setThr]
@[simp] theorem setThr_halting (s : State) (w : Who) (t : Thread) : (s.setThr w t).halting = s.halting := by simp [State.setThr]
@[simp] theorem setThr_linksDown (s : State) (w : Who) (t : Thread) : (s.setThr w t).linksDown = s.linksDown := by simp [State.setThr]
@[simp] theorem setThr_cfails (s : State) (w : Who) (t : Thread) : (s.setThr w t).cfails = s.cfails := by simp [State.setThr]
@[simp] theorem setThr_due (s : State) (w : Who) (t : Thread) : (s.setThr w t).due = s.due := by simp [State.setThr]
@[simp] theorem setThr_pkid (s : State) (w : Who) (t : Thread) : (s.setThr w t).pkid = s.pkid := by simp [State.setThr]
@[simp] theorem setThr_served (s : State) (w : Who) (t : Thread) : (s.setThr w t).served = s.served := by simp [State.setThr]
@[simp] theorem setThr_nextLaunch (s : State) (w : Who) (t : Thread) : (s.setThr w t).nextLaunch = s.nextLaunch := by simp [State.setThr]
@[simp] theorem setThr_nextId (s : State) (w : Who) (t : Thread) : (s.setThr w t).nextId = s.nextId := by simp [State.setThr]
@[simp] theorem setThr_freeCtr (s : State) (w : Who) (t : Thread) : (s.setThr w t).freeCtr = s.freeCtr := by simp [State.setThr]
@[simp] theorem setThr_agenda (s : State) (w : Who) (t : Thread) : (s.setThr w t).agenda = s.agenda := by simp [State.setThr]
@[simp] theorem setThr_issue (s : State) (w : Who) (t : Thread) : (s.setThr w t).issue = s.issue := by simp [State.setThr]
@[simp] theorem setThr_fx (s : State) (w : Who) (t : Thread) : (s.setThr w t).fx = s.fx := by simp [State.setThr]
@[simp] theorem setThr_sel (s : State) (w : Who) (t : Thread) : (s.setThr w t).sel = s.sel := by simp [State.setThr]
@[simp] theorem setThr_slotMate (s : State) (w : Who) (t : Thread) : (s.setThr w t).slotMate = s.slotMate := by simp [State.setThr]
@[simp] theorem setThr_turn (s : State) (w : Who) (t : Thread) : (s.setThr w t).turn = s.turn := by simp [State.setThr]

/-! ### modThr -/

@[simp] theorem modThr_hw (s : State) (w : Who) (f : Thread → Thread) : (s.modThr w f).hw = s.hw := by unfold State.modThr; split <;> simp
@[simp] theorem modThr_cycle (s : State) (w : Who) (f : Thread → Thread) : (s.modThr w f).cycle = s.cycle := by unfold State.modThr; split <;> simp
@[simp] theorem modThr_mem (s : State) (w : Who) (f : Thread → Thread) : (s.modThr w f).mem = s.mem := by unfold State.modThr; split <;> simp
@[simp] theorem modThr_stage (s : State) (w : Who) (f : Thread → Thread) : (s.modThr w f).stage = s.stage := by unfold State.modThr; split <;> simp
@[simp] theorem modThr_badWords (s : State) (w : Who) (f : Thread → Thread) : (s.modThr w f).badWords = s.badWords := by unfold State.modThr; split <;> simp
@[simp] theorem modThr_l2 (s : State) (w : Who) (f : Thread → Thread) : (s.modThr w f).l2 = s.l2 := by unfold State.modThr; split <;> simp
@[simp] theorem modThr_rdc (s : State) (w : Who) (f : Thread → Thread) : (s.modThr w f).rdc = s.rdc := by unfold State.modThr; split <;> simp
@[simp] theorem modThr_owners (s : State) (w : Who) (f : Thread → Thread) : (s.modThr w f).owners = s.owners := by unfold State.modThr; split <;> simp
@[simp] theorem modThr_sectors (s : State) (w : Who) (f : Thread → Thread) : (s.modThr w f).sectors = s.sectors := by unfold State.modThr; split <;> simp
@[simp] theorem modThr_recent (s : State) (w : Who) (f : Thread → Thread) : (s.modThr w f).recent = s.recent := by unfold State.modThr; split <;> simp
@[simp] theorem modThr_spoilt (s : State) (w : Who) (f : Thread → Thread) : (s.modThr w f).spoilt = s.spoilt := by unfold State.modThr; split <;> simp
@[simp] theorem modThr_locks (s : State) (w : Who) (f : Thread → Thread) : (s.modThr w f).locks = s.locks := by unfold State.modThr; split <;> simp
@[simp] theorem modThr_waiting (s : State) (w : Who) (f : Thread → Thread) : (s.modThr w f).waiting = s.waiting := by unfold State.modThr; split <;> simp
@[simp] theorem modThr_loads (s : State) (w : Who) (f : Thread → Thread) : (s.modThr w f).loads = s.loads := by unfold State.modThr; split <;> simp
@[simp] theorem modThr_stores (s : State) (w : Who) (f : Thread → Thread) : (s.modThr w f).stores = s.stores := by unfold State.modThr; split <;> simp
@[simp] theorem modThr_atomics (s : State) (w : Who) (f : Thread → Thread) : (s.modThr w f).atomics = s.atomics := by unfold State.modThr; split <;> simp
@[simp] theorem modThr_reds (s : State) (w : Who) (f : Thread → Thread) : (s.modThr w f).reds = s.reds := by unfold State.modThr; split <;> simp
@[simp] theorem modThr_cmds (s : State) (w : Who) (f : Thread → Thread) : (s.modThr w f).cmds = s.cmds := by unfold State.modThr; split <;> simp
@[simp] theorem modThr_arrivals (s : State) (w : Who) (f : Thread → Thread) : (s.modThr w f).arrivals = s.arrivals := by unfold State.modThr; split <;> simp
@[simp] theorem modThr_tlbInvs (s : State) (w : Who) (f : Thread → Thread) : (s.modThr w f).tlbInvs = s.tlbInvs := by unfold State.modThr; split <;> simp
@[simp] theorem modThr_markers (s : State) (w : Who) (f : Thread → Thread) : (s.modThr w f).markers = s.markers := by unfold State.modThr; split <;> simp
@[simp] theorem modThr_launches (s : State) (w : Who) (f : Thread → Thread) : (s.modThr w f).launches = s.launches := by unfold State.modThr; split <;> simp
@[simp] theorem modThr_queues (s : State) (w : Who) (f : Thread → Thread) : (s.modThr w f).queues = s.queues := by unfold State.modThr; split <;> simp
@[simp] theorem modThr_kernels (s : State) (w : Who) (f : Thread → Thread) : (s.modThr w f).kernels = s.kernels := by unfold State.modThr; split <;> simp
@[simp] theorem modThr_kseSerials (s : State) (w : Who) (f : Thread → Thread) : (s.modThr w f).kseSerials = s.kseSerials := by unfold State.modThr; split <;> simp
@[simp] theorem modThr_win (s : State) (w : Who) (f : Thread → Thread) : (s.modThr w f).win = s.win := by unfold State.modThr; split <;> simp
@[simp] theorem modThr_units (s : State) (w : Who) (f : Thread → Thread) : (s.modThr w f).units = s.units := by unfold State.modThr; split <;> simp
@[simp] theorem modThr_by_ (s : State) (w : Who) (f : Thread → Thread) : (s.modThr w f).by_ = s.by_ := by unfold State.modThr; split <;> simp
@[simp] theorem modThr_migrations (s : State) (w : Who) (f : Thread → Thread) : (s.modThr w f).migrations = s.migrations := by unfold State.modThr; split <;> simp
@[simp] theorem modThr_alerts (s : State) (w : Who) (f : Thread → Thread) : (s.modThr w f).alerts = s.alerts := by unfold State.modThr; split <;> simp
@[simp] theorem modThr_mainPower (s : State) (w : Who) (f : Thread → Thread) : (s.modThr w f).mainPower = s.mainPower := by unfold State.modThr; split <;> simp
@[simp] theorem modThr_firmware (s : State) (w : Who) (f : Thread → Thread) : (s.modThr w f).firmware = s.firmware := by unfold State.modThr; split <;> simp
@[simp] theorem modThr_tests (s : State) (w : Who) (f : Thread → Thread) : (s.modThr w f).tests = s.tests := by unfold State.modThr; split <;> simp
@[simp] theorem modThr_aside (s : State) (w : Who) (f : Thread → Thread) : (s.modThr w f).aside = s.aside := by unfold State.modThr; split <;> simp
@[simp] theorem modThr_nvRetired (s : State) (w : Who) (f : Thread → Thread) : (s.modThr w f).nvRetired = s.nvRetired := by unfold State.modThr; split <;> simp
@[simp] theorem modThr_bootRetired (s : State) (w : Who) (f : Thread → Thread) : (s.modThr w f).bootRetired = s.bootRetired := by unfold State.modThr; split <;> simp
@[simp] theorem modThr_bootDue (s : State) (w : Who) (f : Thread → Thread) : (s.modThr w f).bootDue = s.bootDue := by unfold State.modThr; split <;> simp
@[simp] theorem modThr_reply (s : State) (w : Who) (f : Thread → Thread) : (s.modThr w f).reply = s.reply := by unfold State.modThr; split <;> simp
@[simp] theorem modThr_answer (s : State) (w : Who) (f : Thread → Thread) : (s.modThr w f).answer = s.answer := by unfold State.modThr; split <;> simp
@[simp] theorem modThr_bootCycle (s : State) (w : Who) (f : Thread → Thread) : (s.modThr w f).bootCycle = s.bootCycle := by unfold State.modThr; split <;> simp
@[simp] theorem modThr_halting (s : State) (w : Who) (f : Thread → Thread) : (s.modThr w f).halting = s.halting := by unfold State.modThr; split <;> simp
@[simp] theorem modThr_linksDown (s : State) (w : Who) (f : Thread → Thread) : (s.modThr w f).linksDown = s.linksDown := by unfold State.modThr; split <;> simp
@[simp] theorem modThr_cfails (s : State) (w : Who) (f : Thread → Thread) : (s.modThr w f).cfails = s.cfails := by unfold State.modThr; split <;> simp
@[simp] theorem modThr_due (s : State) (w : Who) (f : Thread → Thread) : (s.modThr w f).due = s.due := by unfold State.modThr; split <;> simp
@[simp] theorem modThr_pkid (s : State) (w : Who) (f : Thread → Thread) : (s.modThr w f).pkid = s.pkid := by unfold State.modThr; split <;> simp
@[simp] theorem modThr_served (s : State) (w : Who) (f : Thread → Thread) : (s.modThr w f).served = s.served := by unfold State.modThr; split <;> simp
@[simp] theorem modThr_nextLaunch (s : State) (w : Who) (f : Thread → Thread) : (s.modThr w f).nextLaunch = s.nextLaunch := by unfold State.modThr; split <;> simp
@[simp] theorem modThr_nextId (s : State) (w : Who) (f : Thread → Thread) : (s.modThr w f).nextId = s.nextId := by unfold State.modThr; split <;> simp
@[simp] theorem modThr_freeCtr (s : State) (w : Who) (f : Thread → Thread) : (s.modThr w f).freeCtr = s.freeCtr := by unfold State.modThr; split <;> simp
@[simp] theorem modThr_agenda (s : State) (w : Who) (f : Thread → Thread) : (s.modThr w f).agenda = s.agenda := by unfold State.modThr; split <;> simp
@[simp] theorem modThr_issue (s : State) (w : Who) (f : Thread → Thread) : (s.modThr w f).issue = s.issue := by unfold State.modThr; split <;> simp
@[simp] theorem modThr_fx (s : State) (w : Who) (f : Thread → Thread) : (s.modThr w f).fx = s.fx := by unfold State.modThr; split <;> simp
@[simp] theorem modThr_sel (s : State) (w : Who) (f : Thread → Thread) : (s.modThr w f).sel = s.sel := by unfold State.modThr; split <;> simp
@[simp] theorem modThr_slotMate (s : State) (w : Who) (f : Thread → Thread) : (s.modThr w f).slotMate = s.slotMate := by unfold State.modThr; split <;> simp
@[simp] theorem modThr_turn (s : State) (w : Who) (f : Thread → Thread) : (s.modThr w f).turn = s.turn := by unfold State.modThr; split <;> simp

/-! ### oscUp -/

@[simp] theorem oscUp_hw (s : State) (w : Who) : (s.oscUp w).hw = s.hw := by simp [State.oscUp]
@[simp] theorem oscUp_cycle (s : State) (w : Who) : (s.oscUp w).cycle = s.cycle := by simp [State.oscUp]
@[simp] theorem oscUp_mem (s : State) (w : Who) : (s.oscUp w).mem = s.mem := by simp [State.oscUp]
@[simp] theorem oscUp_stage (s : State) (w : Who) : (s.oscUp w).stage = s.stage := by simp [State.oscUp]
@[simp] theorem oscUp_badWords (s : State) (w : Who) : (s.oscUp w).badWords = s.badWords := by simp [State.oscUp]
@[simp] theorem oscUp_l2 (s : State) (w : Who) : (s.oscUp w).l2 = s.l2 := by simp [State.oscUp]
@[simp] theorem oscUp_rdc (s : State) (w : Who) : (s.oscUp w).rdc = s.rdc := by simp [State.oscUp]
@[simp] theorem oscUp_owners (s : State) (w : Who) : (s.oscUp w).owners = s.owners := by simp [State.oscUp]
@[simp] theorem oscUp_sectors (s : State) (w : Who) : (s.oscUp w).sectors = s.sectors := by simp [State.oscUp]
@[simp] theorem oscUp_recent (s : State) (w : Who) : (s.oscUp w).recent = s.recent := by simp [State.oscUp]
@[simp] theorem oscUp_spoilt (s : State) (w : Who) : (s.oscUp w).spoilt = s.spoilt := by simp [State.oscUp]
@[simp] theorem oscUp_locks (s : State) (w : Who) : (s.oscUp w).locks = s.locks := by simp [State.oscUp]
@[simp] theorem oscUp_waiting (s : State) (w : Who) : (s.oscUp w).waiting = s.waiting := by simp [State.oscUp]
@[simp] theorem oscUp_loads (s : State) (w : Who) : (s.oscUp w).loads = s.loads := by simp [State.oscUp]
@[simp] theorem oscUp_stores (s : State) (w : Who) : (s.oscUp w).stores = s.stores := by simp [State.oscUp]
@[simp] theorem oscUp_atomics (s : State) (w : Who) : (s.oscUp w).atomics = s.atomics := by simp [State.oscUp]
@[simp] theorem oscUp_reds (s : State) (w : Who) : (s.oscUp w).reds = s.reds := by simp [State.oscUp]
@[simp] theorem oscUp_cmds (s : State) (w : Who) : (s.oscUp w).cmds = s.cmds := by simp [State.oscUp]
@[simp] theorem oscUp_arrivals (s : State) (w : Who) : (s.oscUp w).arrivals = s.arrivals := by simp [State.oscUp]
@[simp] theorem oscUp_tlbInvs (s : State) (w : Who) : (s.oscUp w).tlbInvs = s.tlbInvs := by simp [State.oscUp]
@[simp] theorem oscUp_markers (s : State) (w : Who) : (s.oscUp w).markers = s.markers := by simp [State.oscUp]
@[simp] theorem oscUp_launches (s : State) (w : Who) : (s.oscUp w).launches = s.launches := by simp [State.oscUp]
@[simp] theorem oscUp_queues (s : State) (w : Who) : (s.oscUp w).queues = s.queues := by simp [State.oscUp]
@[simp] theorem oscUp_kernels (s : State) (w : Who) : (s.oscUp w).kernels = s.kernels := by simp [State.oscUp]
@[simp] theorem oscUp_kseSerials (s : State) (w : Who) : (s.oscUp w).kseSerials = s.kseSerials := by simp [State.oscUp]
@[simp] theorem oscUp_win (s : State) (w : Who) : (s.oscUp w).win = s.win := by simp [State.oscUp]
@[simp] theorem oscUp_units (s : State) (w : Who) : (s.oscUp w).units = s.units := by simp [State.oscUp]
@[simp] theorem oscUp_by_ (s : State) (w : Who) : (s.oscUp w).by_ = s.by_ := by simp [State.oscUp]
@[simp] theorem oscUp_migrations (s : State) (w : Who) : (s.oscUp w).migrations = s.migrations := by simp [State.oscUp]
@[simp] theorem oscUp_alerts (s : State) (w : Who) : (s.oscUp w).alerts = s.alerts := by simp [State.oscUp]
@[simp] theorem oscUp_mainPower (s : State) (w : Who) : (s.oscUp w).mainPower = s.mainPower := by simp [State.oscUp]
@[simp] theorem oscUp_firmware (s : State) (w : Who) : (s.oscUp w).firmware = s.firmware := by simp [State.oscUp]
@[simp] theorem oscUp_tests (s : State) (w : Who) : (s.oscUp w).tests = s.tests := by simp [State.oscUp]
@[simp] theorem oscUp_aside (s : State) (w : Who) : (s.oscUp w).aside = s.aside := by simp [State.oscUp]
@[simp] theorem oscUp_nvRetired (s : State) (w : Who) : (s.oscUp w).nvRetired = s.nvRetired := by simp [State.oscUp]
@[simp] theorem oscUp_bootRetired (s : State) (w : Who) : (s.oscUp w).bootRetired = s.bootRetired := by simp [State.oscUp]
@[simp] theorem oscUp_bootDue (s : State) (w : Who) : (s.oscUp w).bootDue = s.bootDue := by simp [State.oscUp]
@[simp] theorem oscUp_reply (s : State) (w : Who) : (s.oscUp w).reply = s.reply := by simp [State.oscUp]
@[simp] theorem oscUp_answer (s : State) (w : Who) : (s.oscUp w).answer = s.answer := by simp [State.oscUp]
@[simp] theorem oscUp_bootCycle (s : State) (w : Who) : (s.oscUp w).bootCycle = s.bootCycle := by simp [State.oscUp]
@[simp] theorem oscUp_halting (s : State) (w : Who) : (s.oscUp w).halting = s.halting := by simp [State.oscUp]
@[simp] theorem oscUp_linksDown (s : State) (w : Who) : (s.oscUp w).linksDown = s.linksDown := by simp [State.oscUp]
@[simp] theorem oscUp_cfails (s : State) (w : Who) : (s.oscUp w).cfails = s.cfails := by simp [State.oscUp]
@[simp] theorem oscUp_due (s : State) (w : Who) : (s.oscUp w).due = s.due := by simp [State.oscUp]
@[simp] theorem oscUp_pkid (s : State) (w : Who) : (s.oscUp w).pkid = s.pkid := by simp [State.oscUp]
@[simp] theorem oscUp_served (s : State) (w : Who) : (s.oscUp w).served = s.served := by simp [State.oscUp]
@[simp] theorem oscUp_nextLaunch (s : State) (w : Who) : (s.oscUp w).nextLaunch = s.nextLaunch := by simp [State.oscUp]
@[simp] theorem oscUp_nextId (s : State) (w : Who) : (s.oscUp w).nextId = s.nextId := by simp [State.oscUp]
@[simp] theorem oscUp_freeCtr (s : State) (w : Who) : (s.oscUp w).freeCtr = s.freeCtr := by simp [State.oscUp]
@[simp] theorem oscUp_agenda (s : State) (w : Who) : (s.oscUp w).agenda = s.agenda := by simp [State.oscUp]
@[simp] theorem oscUp_issue (s : State) (w : Who) : (s.oscUp w).issue = s.issue := by simp [State.oscUp]
@[simp] theorem oscUp_fx (s : State) (w : Who) : (s.oscUp w).fx = s.fx := by simp [State.oscUp]
@[simp] theorem oscUp_sel (s : State) (w : Who) : (s.oscUp w).sel = s.sel := by simp [State.oscUp]
@[simp] theorem oscUp_slotMate (s : State) (w : Who) : (s.oscUp w).slotMate = s.slotMate := by simp [State.oscUp]
@[simp] theorem oscUp_turn (s : State) (w : Who) : (s.oscUp w).turn = s.turn := by simp [State.oscUp]

/-! ### oscDown -/

@[simp] theorem oscDown_hw (s : State) (w : Who) : (s.oscDown w).hw = s.hw := by simp [State.oscDown]
@[simp] theorem oscDown_cycle (s : State) (w : Who) : (s.oscDown w).cycle = s.cycle := by simp [State.oscDown]
@[simp] theorem oscDown_mem (s : State) (w : Who) : (s.oscDown w).mem = s.mem := by simp [State.oscDown]
@[simp] theorem oscDown_stage (s : State) (w : Who) : (s.oscDown w).stage = s.stage := by simp [State.oscDown]
@[simp] theorem oscDown_badWords (s : State) (w : Who) : (s.oscDown w).badWords = s.badWords := by simp [State.oscDown]
@[simp] theorem oscDown_l2 (s : State) (w : Who) : (s.oscDown w).l2 = s.l2 := by simp [State.oscDown]
@[simp] theorem oscDown_rdc (s : State) (w : Who) : (s.oscDown w).rdc = s.rdc := by simp [State.oscDown]
@[simp] theorem oscDown_owners (s : State) (w : Who) : (s.oscDown w).owners = s.owners := by simp [State.oscDown]
@[simp] theorem oscDown_sectors (s : State) (w : Who) : (s.oscDown w).sectors = s.sectors := by simp [State.oscDown]
@[simp] theorem oscDown_recent (s : State) (w : Who) : (s.oscDown w).recent = s.recent := by simp [State.oscDown]
@[simp] theorem oscDown_spoilt (s : State) (w : Who) : (s.oscDown w).spoilt = s.spoilt := by simp [State.oscDown]
@[simp] theorem oscDown_locks (s : State) (w : Who) : (s.oscDown w).locks = s.locks := by simp [State.oscDown]
@[simp] theorem oscDown_waiting (s : State) (w : Who) : (s.oscDown w).waiting = s.waiting := by simp [State.oscDown]
@[simp] theorem oscDown_loads (s : State) (w : Who) : (s.oscDown w).loads = s.loads := by simp [State.oscDown]
@[simp] theorem oscDown_stores (s : State) (w : Who) : (s.oscDown w).stores = s.stores := by simp [State.oscDown]
@[simp] theorem oscDown_atomics (s : State) (w : Who) : (s.oscDown w).atomics = s.atomics := by simp [State.oscDown]
@[simp] theorem oscDown_reds (s : State) (w : Who) : (s.oscDown w).reds = s.reds := by simp [State.oscDown]
@[simp] theorem oscDown_cmds (s : State) (w : Who) : (s.oscDown w).cmds = s.cmds := by simp [State.oscDown]
@[simp] theorem oscDown_arrivals (s : State) (w : Who) : (s.oscDown w).arrivals = s.arrivals := by simp [State.oscDown]
@[simp] theorem oscDown_tlbInvs (s : State) (w : Who) : (s.oscDown w).tlbInvs = s.tlbInvs := by simp [State.oscDown]
@[simp] theorem oscDown_markers (s : State) (w : Who) : (s.oscDown w).markers = s.markers := by simp [State.oscDown]
@[simp] theorem oscDown_launches (s : State) (w : Who) : (s.oscDown w).launches = s.launches := by simp [State.oscDown]
@[simp] theorem oscDown_queues (s : State) (w : Who) : (s.oscDown w).queues = s.queues := by simp [State.oscDown]
@[simp] theorem oscDown_kernels (s : State) (w : Who) : (s.oscDown w).kernels = s.kernels := by simp [State.oscDown]
@[simp] theorem oscDown_kseSerials (s : State) (w : Who) : (s.oscDown w).kseSerials = s.kseSerials := by simp [State.oscDown]
@[simp] theorem oscDown_win (s : State) (w : Who) : (s.oscDown w).win = s.win := by simp [State.oscDown]
@[simp] theorem oscDown_units (s : State) (w : Who) : (s.oscDown w).units = s.units := by simp [State.oscDown]
@[simp] theorem oscDown_by_ (s : State) (w : Who) : (s.oscDown w).by_ = s.by_ := by simp [State.oscDown]
@[simp] theorem oscDown_migrations (s : State) (w : Who) : (s.oscDown w).migrations = s.migrations := by simp [State.oscDown]
@[simp] theorem oscDown_alerts (s : State) (w : Who) : (s.oscDown w).alerts = s.alerts := by simp [State.oscDown]
@[simp] theorem oscDown_mainPower (s : State) (w : Who) : (s.oscDown w).mainPower = s.mainPower := by simp [State.oscDown]
@[simp] theorem oscDown_firmware (s : State) (w : Who) : (s.oscDown w).firmware = s.firmware := by simp [State.oscDown]
@[simp] theorem oscDown_tests (s : State) (w : Who) : (s.oscDown w).tests = s.tests := by simp [State.oscDown]
@[simp] theorem oscDown_aside (s : State) (w : Who) : (s.oscDown w).aside = s.aside := by simp [State.oscDown]
@[simp] theorem oscDown_nvRetired (s : State) (w : Who) : (s.oscDown w).nvRetired = s.nvRetired := by simp [State.oscDown]
@[simp] theorem oscDown_bootRetired (s : State) (w : Who) : (s.oscDown w).bootRetired = s.bootRetired := by simp [State.oscDown]
@[simp] theorem oscDown_bootDue (s : State) (w : Who) : (s.oscDown w).bootDue = s.bootDue := by simp [State.oscDown]
@[simp] theorem oscDown_reply (s : State) (w : Who) : (s.oscDown w).reply = s.reply := by simp [State.oscDown]
@[simp] theorem oscDown_answer (s : State) (w : Who) : (s.oscDown w).answer = s.answer := by simp [State.oscDown]
@[simp] theorem oscDown_bootCycle (s : State) (w : Who) : (s.oscDown w).bootCycle = s.bootCycle := by simp [State.oscDown]
@[simp] theorem oscDown_halting (s : State) (w : Who) : (s.oscDown w).halting = s.halting := by simp [State.oscDown]
@[simp] theorem oscDown_linksDown (s : State) (w : Who) : (s.oscDown w).linksDown = s.linksDown := by simp [State.oscDown]
@[simp] theorem oscDown_cfails (s : State) (w : Who) : (s.oscDown w).cfails = s.cfails := by simp [State.oscDown]
@[simp] theorem oscDown_due (s : State) (w : Who) : (s.oscDown w).due = s.due := by simp [State.oscDown]
@[simp] theorem oscDown_pkid (s : State) (w : Who) : (s.oscDown w).pkid = s.pkid := by simp [State.oscDown]
@[simp] theorem oscDown_served (s : State) (w : Who) : (s.oscDown w).served = s.served := by simp [State.oscDown]
@[simp] theorem oscDown_nextLaunch (s : State) (w : Who) : (s.oscDown w).nextLaunch = s.nextLaunch := by simp [State.oscDown]
@[simp] theorem oscDown_nextId (s : State) (w : Who) : (s.oscDown w).nextId = s.nextId := by simp [State.oscDown]
@[simp] theorem oscDown_freeCtr (s : State) (w : Who) : (s.oscDown w).freeCtr = s.freeCtr := by simp [State.oscDown]
@[simp] theorem oscDown_agenda (s : State) (w : Who) : (s.oscDown w).agenda = s.agenda := by simp [State.oscDown]
@[simp] theorem oscDown_issue (s : State) (w : Who) : (s.oscDown w).issue = s.issue := by simp [State.oscDown]
@[simp] theorem oscDown_fx (s : State) (w : Who) : (s.oscDown w).fx = s.fx := by simp [State.oscDown]
@[simp] theorem oscDown_sel (s : State) (w : Who) : (s.oscDown w).sel = s.sel := by simp [State.oscDown]
@[simp] theorem oscDown_slotMate (s : State) (w : Who) : (s.oscDown w).slotMate = s.slotMate := by simp [State.oscDown]
@[simp] theorem oscDown_turn (s : State) (w : Who) : (s.oscDown w).turn = s.turn := by simp [State.oscDown]

/-! ### setLane -/

@[simp] theorem setLane_hw (s : State) (l : LaneRef) (t : Thread) : (s.setLane l t).hw = s.hw := by simp [State.setLane]
@[simp] theorem setLane_cycle (s : State) (l : LaneRef) (t : Thread) : (s.setLane l t).cycle = s.cycle := by simp [State.setLane]
@[simp] theorem setLane_mem (s : State) (l : LaneRef) (t : Thread) : (s.setLane l t).mem = s.mem := by simp [State.setLane]
@[simp] theorem setLane_stage (s : State) (l : LaneRef) (t : Thread) : (s.setLane l t).stage = s.stage := by simp [State.setLane]
@[simp] theorem setLane_badWords (s : State) (l : LaneRef) (t : Thread) : (s.setLane l t).badWords = s.badWords := by simp [State.setLane]
@[simp] theorem setLane_l2 (s : State) (l : LaneRef) (t : Thread) : (s.setLane l t).l2 = s.l2 := by simp [State.setLane]
@[simp] theorem setLane_rdc (s : State) (l : LaneRef) (t : Thread) : (s.setLane l t).rdc = s.rdc := by simp [State.setLane]
@[simp] theorem setLane_owners (s : State) (l : LaneRef) (t : Thread) : (s.setLane l t).owners = s.owners := by simp [State.setLane]
@[simp] theorem setLane_sectors (s : State) (l : LaneRef) (t : Thread) : (s.setLane l t).sectors = s.sectors := by simp [State.setLane]
@[simp] theorem setLane_recent (s : State) (l : LaneRef) (t : Thread) : (s.setLane l t).recent = s.recent := by simp [State.setLane]
@[simp] theorem setLane_spoilt (s : State) (l : LaneRef) (t : Thread) : (s.setLane l t).spoilt = s.spoilt := by simp [State.setLane]
@[simp] theorem setLane_locks (s : State) (l : LaneRef) (t : Thread) : (s.setLane l t).locks = s.locks := by simp [State.setLane]
@[simp] theorem setLane_waiting (s : State) (l : LaneRef) (t : Thread) : (s.setLane l t).waiting = s.waiting := by simp [State.setLane]
@[simp] theorem setLane_loads (s : State) (l : LaneRef) (t : Thread) : (s.setLane l t).loads = s.loads := by simp [State.setLane]
@[simp] theorem setLane_stores (s : State) (l : LaneRef) (t : Thread) : (s.setLane l t).stores = s.stores := by simp [State.setLane]
@[simp] theorem setLane_atomics (s : State) (l : LaneRef) (t : Thread) : (s.setLane l t).atomics = s.atomics := by simp [State.setLane]
@[simp] theorem setLane_reds (s : State) (l : LaneRef) (t : Thread) : (s.setLane l t).reds = s.reds := by simp [State.setLane]
@[simp] theorem setLane_cmds (s : State) (l : LaneRef) (t : Thread) : (s.setLane l t).cmds = s.cmds := by simp [State.setLane]
@[simp] theorem setLane_arrivals (s : State) (l : LaneRef) (t : Thread) : (s.setLane l t).arrivals = s.arrivals := by simp [State.setLane]
@[simp] theorem setLane_tlbInvs (s : State) (l : LaneRef) (t : Thread) : (s.setLane l t).tlbInvs = s.tlbInvs := by simp [State.setLane]
@[simp] theorem setLane_markers (s : State) (l : LaneRef) (t : Thread) : (s.setLane l t).markers = s.markers := by simp [State.setLane]
@[simp] theorem setLane_launches (s : State) (l : LaneRef) (t : Thread) : (s.setLane l t).launches = s.launches := by simp [State.setLane]
@[simp] theorem setLane_queues (s : State) (l : LaneRef) (t : Thread) : (s.setLane l t).queues = s.queues := by simp [State.setLane]
@[simp] theorem setLane_kernels (s : State) (l : LaneRef) (t : Thread) : (s.setLane l t).kernels = s.kernels := by simp [State.setLane]
@[simp] theorem setLane_kseSerials (s : State) (l : LaneRef) (t : Thread) : (s.setLane l t).kseSerials = s.kseSerials := by simp [State.setLane]
@[simp] theorem setLane_win (s : State) (l : LaneRef) (t : Thread) : (s.setLane l t).win = s.win := by simp [State.setLane]
@[simp] theorem setLane_units (s : State) (l : LaneRef) (t : Thread) : (s.setLane l t).units = s.units := by simp [State.setLane]
@[simp] theorem setLane_by_ (s : State) (l : LaneRef) (t : Thread) : (s.setLane l t).by_ = s.by_ := by simp [State.setLane]
@[simp] theorem setLane_migrations (s : State) (l : LaneRef) (t : Thread) : (s.setLane l t).migrations = s.migrations := by simp [State.setLane]
@[simp] theorem setLane_alerts (s : State) (l : LaneRef) (t : Thread) : (s.setLane l t).alerts = s.alerts := by simp [State.setLane]
@[simp] theorem setLane_mainPower (s : State) (l : LaneRef) (t : Thread) : (s.setLane l t).mainPower = s.mainPower := by simp [State.setLane]
@[simp] theorem setLane_firmware (s : State) (l : LaneRef) (t : Thread) : (s.setLane l t).firmware = s.firmware := by simp [State.setLane]
@[simp] theorem setLane_tests (s : State) (l : LaneRef) (t : Thread) : (s.setLane l t).tests = s.tests := by simp [State.setLane]
@[simp] theorem setLane_aside (s : State) (l : LaneRef) (t : Thread) : (s.setLane l t).aside = s.aside := by simp [State.setLane]
@[simp] theorem setLane_nvRetired (s : State) (l : LaneRef) (t : Thread) : (s.setLane l t).nvRetired = s.nvRetired := by simp [State.setLane]
@[simp] theorem setLane_bootRetired (s : State) (l : LaneRef) (t : Thread) : (s.setLane l t).bootRetired = s.bootRetired := by simp [State.setLane]
@[simp] theorem setLane_bootDue (s : State) (l : LaneRef) (t : Thread) : (s.setLane l t).bootDue = s.bootDue := by simp [State.setLane]
@[simp] theorem setLane_reply (s : State) (l : LaneRef) (t : Thread) : (s.setLane l t).reply = s.reply := by simp [State.setLane]
@[simp] theorem setLane_answer (s : State) (l : LaneRef) (t : Thread) : (s.setLane l t).answer = s.answer := by simp [State.setLane]
@[simp] theorem setLane_bootCycle (s : State) (l : LaneRef) (t : Thread) : (s.setLane l t).bootCycle = s.bootCycle := by simp [State.setLane]
@[simp] theorem setLane_halting (s : State) (l : LaneRef) (t : Thread) : (s.setLane l t).halting = s.halting := by simp [State.setLane]
@[simp] theorem setLane_linksDown (s : State) (l : LaneRef) (t : Thread) : (s.setLane l t).linksDown = s.linksDown := by simp [State.setLane]
@[simp] theorem setLane_cfails (s : State) (l : LaneRef) (t : Thread) : (s.setLane l t).cfails = s.cfails := by simp [State.setLane]
@[simp] theorem setLane_due (s : State) (l : LaneRef) (t : Thread) : (s.setLane l t).due = s.due := by simp [State.setLane]
@[simp] theorem setLane_pkid (s : State) (l : LaneRef) (t : Thread) : (s.setLane l t).pkid = s.pkid := by simp [State.setLane]
@[simp] theorem setLane_served (s : State) (l : LaneRef) (t : Thread) : (s.setLane l t).served = s.served := by simp [State.setLane]
@[simp] theorem setLane_nextLaunch (s : State) (l : LaneRef) (t : Thread) : (s.setLane l t).nextLaunch = s.nextLaunch := by simp [State.setLane]
@[simp] theorem setLane_nextId (s : State) (l : LaneRef) (t : Thread) : (s.setLane l t).nextId = s.nextId := by simp [State.setLane]
@[simp] theorem setLane_freeCtr (s : State) (l : LaneRef) (t : Thread) : (s.setLane l t).freeCtr = s.freeCtr := by simp [State.setLane]
@[simp] theorem setLane_agenda (s : State) (l : LaneRef) (t : Thread) : (s.setLane l t).agenda = s.agenda := by simp [State.setLane]
@[simp] theorem setLane_issue (s : State) (l : LaneRef) (t : Thread) : (s.setLane l t).issue = s.issue := by simp [State.setLane]
@[simp] theorem setLane_fx (s : State) (l : LaneRef) (t : Thread) : (s.setLane l t).fx = s.fx := by simp [State.setLane]
@[simp] theorem setLane_sel (s : State) (l : LaneRef) (t : Thread) : (s.setLane l t).sel = s.sel := by simp [State.setLane]
@[simp] theorem setLane_slotMate (s : State) (l : LaneRef) (t : Thread) : (s.setLane l t).slotMate = s.slotMate := by simp [State.setLane]
@[simp] theorem setLane_turn (s : State) (l : LaneRef) (t : Thread) : (s.setLane l t).turn = s.turn := by simp [State.setLane]

/-! ### modLane -/

@[simp] theorem modLane_hw (s : State) (l : LaneRef) (f : Thread → Thread) : (s.modLane l f).hw = s.hw := by unfold State.modLane; split <;> simp
@[simp] theorem modLane_cycle (s : State) (l : LaneRef) (f : Thread → Thread) : (s.modLane l f).cycle = s.cycle := by unfold State.modLane; split <;> simp
@[simp] theorem modLane_mem (s : State) (l : LaneRef) (f : Thread → Thread) : (s.modLane l f).mem = s.mem := by unfold State.modLane; split <;> simp
@[simp] theorem modLane_stage (s : State) (l : LaneRef) (f : Thread → Thread) : (s.modLane l f).stage = s.stage := by unfold State.modLane; split <;> simp
@[simp] theorem modLane_badWords (s : State) (l : LaneRef) (f : Thread → Thread) : (s.modLane l f).badWords = s.badWords := by unfold State.modLane; split <;> simp
@[simp] theorem modLane_l2 (s : State) (l : LaneRef) (f : Thread → Thread) : (s.modLane l f).l2 = s.l2 := by unfold State.modLane; split <;> simp
@[simp] theorem modLane_rdc (s : State) (l : LaneRef) (f : Thread → Thread) : (s.modLane l f).rdc = s.rdc := by unfold State.modLane; split <;> simp
@[simp] theorem modLane_owners (s : State) (l : LaneRef) (f : Thread → Thread) : (s.modLane l f).owners = s.owners := by unfold State.modLane; split <;> simp
@[simp] theorem modLane_sectors (s : State) (l : LaneRef) (f : Thread → Thread) : (s.modLane l f).sectors = s.sectors := by unfold State.modLane; split <;> simp
@[simp] theorem modLane_recent (s : State) (l : LaneRef) (f : Thread → Thread) : (s.modLane l f).recent = s.recent := by unfold State.modLane; split <;> simp
@[simp] theorem modLane_spoilt (s : State) (l : LaneRef) (f : Thread → Thread) : (s.modLane l f).spoilt = s.spoilt := by unfold State.modLane; split <;> simp
@[simp] theorem modLane_locks (s : State) (l : LaneRef) (f : Thread → Thread) : (s.modLane l f).locks = s.locks := by unfold State.modLane; split <;> simp
@[simp] theorem modLane_waiting (s : State) (l : LaneRef) (f : Thread → Thread) : (s.modLane l f).waiting = s.waiting := by unfold State.modLane; split <;> simp
@[simp] theorem modLane_loads (s : State) (l : LaneRef) (f : Thread → Thread) : (s.modLane l f).loads = s.loads := by unfold State.modLane; split <;> simp
@[simp] theorem modLane_stores (s : State) (l : LaneRef) (f : Thread → Thread) : (s.modLane l f).stores = s.stores := by unfold State.modLane; split <;> simp
@[simp] theorem modLane_atomics (s : State) (l : LaneRef) (f : Thread → Thread) : (s.modLane l f).atomics = s.atomics := by unfold State.modLane; split <;> simp
@[simp] theorem modLane_reds (s : State) (l : LaneRef) (f : Thread → Thread) : (s.modLane l f).reds = s.reds := by unfold State.modLane; split <;> simp
@[simp] theorem modLane_cmds (s : State) (l : LaneRef) (f : Thread → Thread) : (s.modLane l f).cmds = s.cmds := by unfold State.modLane; split <;> simp
@[simp] theorem modLane_arrivals (s : State) (l : LaneRef) (f : Thread → Thread) : (s.modLane l f).arrivals = s.arrivals := by unfold State.modLane; split <;> simp
@[simp] theorem modLane_tlbInvs (s : State) (l : LaneRef) (f : Thread → Thread) : (s.modLane l f).tlbInvs = s.tlbInvs := by unfold State.modLane; split <;> simp
@[simp] theorem modLane_markers (s : State) (l : LaneRef) (f : Thread → Thread) : (s.modLane l f).markers = s.markers := by unfold State.modLane; split <;> simp
@[simp] theorem modLane_launches (s : State) (l : LaneRef) (f : Thread → Thread) : (s.modLane l f).launches = s.launches := by unfold State.modLane; split <;> simp
@[simp] theorem modLane_queues (s : State) (l : LaneRef) (f : Thread → Thread) : (s.modLane l f).queues = s.queues := by unfold State.modLane; split <;> simp
@[simp] theorem modLane_kernels (s : State) (l : LaneRef) (f : Thread → Thread) : (s.modLane l f).kernels = s.kernels := by unfold State.modLane; split <;> simp
@[simp] theorem modLane_kseSerials (s : State) (l : LaneRef) (f : Thread → Thread) : (s.modLane l f).kseSerials = s.kseSerials := by unfold State.modLane; split <;> simp
@[simp] theorem modLane_win (s : State) (l : LaneRef) (f : Thread → Thread) : (s.modLane l f).win = s.win := by unfold State.modLane; split <;> simp
@[simp] theorem modLane_units (s : State) (l : LaneRef) (f : Thread → Thread) : (s.modLane l f).units = s.units := by unfold State.modLane; split <;> simp
@[simp] theorem modLane_by_ (s : State) (l : LaneRef) (f : Thread → Thread) : (s.modLane l f).by_ = s.by_ := by unfold State.modLane; split <;> simp
@[simp] theorem modLane_migrations (s : State) (l : LaneRef) (f : Thread → Thread) : (s.modLane l f).migrations = s.migrations := by unfold State.modLane; split <;> simp
@[simp] theorem modLane_alerts (s : State) (l : LaneRef) (f : Thread → Thread) : (s.modLane l f).alerts = s.alerts := by unfold State.modLane; split <;> simp
@[simp] theorem modLane_mainPower (s : State) (l : LaneRef) (f : Thread → Thread) : (s.modLane l f).mainPower = s.mainPower := by unfold State.modLane; split <;> simp
@[simp] theorem modLane_firmware (s : State) (l : LaneRef) (f : Thread → Thread) : (s.modLane l f).firmware = s.firmware := by unfold State.modLane; split <;> simp
@[simp] theorem modLane_tests (s : State) (l : LaneRef) (f : Thread → Thread) : (s.modLane l f).tests = s.tests := by unfold State.modLane; split <;> simp
@[simp] theorem modLane_aside (s : State) (l : LaneRef) (f : Thread → Thread) : (s.modLane l f).aside = s.aside := by unfold State.modLane; split <;> simp
@[simp] theorem modLane_nvRetired (s : State) (l : LaneRef) (f : Thread → Thread) : (s.modLane l f).nvRetired = s.nvRetired := by unfold State.modLane; split <;> simp
@[simp] theorem modLane_bootRetired (s : State) (l : LaneRef) (f : Thread → Thread) : (s.modLane l f).bootRetired = s.bootRetired := by unfold State.modLane; split <;> simp
@[simp] theorem modLane_bootDue (s : State) (l : LaneRef) (f : Thread → Thread) : (s.modLane l f).bootDue = s.bootDue := by unfold State.modLane; split <;> simp
@[simp] theorem modLane_reply (s : State) (l : LaneRef) (f : Thread → Thread) : (s.modLane l f).reply = s.reply := by unfold State.modLane; split <;> simp
@[simp] theorem modLane_answer (s : State) (l : LaneRef) (f : Thread → Thread) : (s.modLane l f).answer = s.answer := by unfold State.modLane; split <;> simp
@[simp] theorem modLane_bootCycle (s : State) (l : LaneRef) (f : Thread → Thread) : (s.modLane l f).bootCycle = s.bootCycle := by unfold State.modLane; split <;> simp
@[simp] theorem modLane_halting (s : State) (l : LaneRef) (f : Thread → Thread) : (s.modLane l f).halting = s.halting := by unfold State.modLane; split <;> simp
@[simp] theorem modLane_linksDown (s : State) (l : LaneRef) (f : Thread → Thread) : (s.modLane l f).linksDown = s.linksDown := by unfold State.modLane; split <;> simp
@[simp] theorem modLane_cfails (s : State) (l : LaneRef) (f : Thread → Thread) : (s.modLane l f).cfails = s.cfails := by unfold State.modLane; split <;> simp
@[simp] theorem modLane_due (s : State) (l : LaneRef) (f : Thread → Thread) : (s.modLane l f).due = s.due := by unfold State.modLane; split <;> simp
@[simp] theorem modLane_pkid (s : State) (l : LaneRef) (f : Thread → Thread) : (s.modLane l f).pkid = s.pkid := by unfold State.modLane; split <;> simp
@[simp] theorem modLane_served (s : State) (l : LaneRef) (f : Thread → Thread) : (s.modLane l f).served = s.served := by unfold State.modLane; split <;> simp
@[simp] theorem modLane_nextLaunch (s : State) (l : LaneRef) (f : Thread → Thread) : (s.modLane l f).nextLaunch = s.nextLaunch := by unfold State.modLane; split <;> simp
@[simp] theorem modLane_nextId (s : State) (l : LaneRef) (f : Thread → Thread) : (s.modLane l f).nextId = s.nextId := by unfold State.modLane; split <;> simp
@[simp] theorem modLane_freeCtr (s : State) (l : LaneRef) (f : Thread → Thread) : (s.modLane l f).freeCtr = s.freeCtr := by unfold State.modLane; split <;> simp
@[simp] theorem modLane_agenda (s : State) (l : LaneRef) (f : Thread → Thread) : (s.modLane l f).agenda = s.agenda := by unfold State.modLane; split <;> simp
@[simp] theorem modLane_issue (s : State) (l : LaneRef) (f : Thread → Thread) : (s.modLane l f).issue = s.issue := by unfold State.modLane; split <;> simp
@[simp] theorem modLane_fx (s : State) (l : LaneRef) (f : Thread → Thread) : (s.modLane l f).fx = s.fx := by unfold State.modLane; split <;> simp
@[simp] theorem modLane_sel (s : State) (l : LaneRef) (f : Thread → Thread) : (s.modLane l f).sel = s.sel := by unfold State.modLane; split <;> simp
@[simp] theorem modLane_slotMate (s : State) (l : LaneRef) (f : Thread → Thread) : (s.modLane l f).slotMate = s.slotMate := by unfold State.modLane; split <;> simp
@[simp] theorem modLane_turn (s : State) (l : LaneRef) (f : Thread → Thread) : (s.modLane l f).turn = s.turn := by unfold State.modLane; split <;> simp

/-! ### advanceLane -/

@[simp] theorem advanceLane_hw (s : State) (l : LaneRef) : (s.advanceLane l).hw = s.hw := by simp [State.advanceLane]
@[simp] theorem advanceLane_cycle (s : State) (l : LaneRef) : (s.advanceLane l).cycle = s.cycle := by simp [State.advanceLane]
@[simp] theorem advanceLane_mem (s : State) (l : LaneRef) : (s.advanceLane l).mem = s.mem := by simp [State.advanceLane]
@[simp] theorem advanceLane_stage (s : State) (l : LaneRef) : (s.advanceLane l).stage = s.stage := by simp [State.advanceLane]
@[simp] theorem advanceLane_badWords (s : State) (l : LaneRef) : (s.advanceLane l).badWords = s.badWords := by simp [State.advanceLane]
@[simp] theorem advanceLane_l2 (s : State) (l : LaneRef) : (s.advanceLane l).l2 = s.l2 := by simp [State.advanceLane]
@[simp] theorem advanceLane_rdc (s : State) (l : LaneRef) : (s.advanceLane l).rdc = s.rdc := by simp [State.advanceLane]
@[simp] theorem advanceLane_owners (s : State) (l : LaneRef) : (s.advanceLane l).owners = s.owners := by simp [State.advanceLane]
@[simp] theorem advanceLane_sectors (s : State) (l : LaneRef) : (s.advanceLane l).sectors = s.sectors := by simp [State.advanceLane]
@[simp] theorem advanceLane_recent (s : State) (l : LaneRef) : (s.advanceLane l).recent = s.recent := by simp [State.advanceLane]
@[simp] theorem advanceLane_spoilt (s : State) (l : LaneRef) : (s.advanceLane l).spoilt = s.spoilt := by simp [State.advanceLane]
@[simp] theorem advanceLane_locks (s : State) (l : LaneRef) : (s.advanceLane l).locks = s.locks := by simp [State.advanceLane]
@[simp] theorem advanceLane_waiting (s : State) (l : LaneRef) : (s.advanceLane l).waiting = s.waiting := by simp [State.advanceLane]
@[simp] theorem advanceLane_loads (s : State) (l : LaneRef) : (s.advanceLane l).loads = s.loads := by simp [State.advanceLane]
@[simp] theorem advanceLane_stores (s : State) (l : LaneRef) : (s.advanceLane l).stores = s.stores := by simp [State.advanceLane]
@[simp] theorem advanceLane_atomics (s : State) (l : LaneRef) : (s.advanceLane l).atomics = s.atomics := by simp [State.advanceLane]
@[simp] theorem advanceLane_reds (s : State) (l : LaneRef) : (s.advanceLane l).reds = s.reds := by simp [State.advanceLane]
@[simp] theorem advanceLane_cmds (s : State) (l : LaneRef) : (s.advanceLane l).cmds = s.cmds := by simp [State.advanceLane]
@[simp] theorem advanceLane_arrivals (s : State) (l : LaneRef) : (s.advanceLane l).arrivals = s.arrivals := by simp [State.advanceLane]
@[simp] theorem advanceLane_tlbInvs (s : State) (l : LaneRef) : (s.advanceLane l).tlbInvs = s.tlbInvs := by simp [State.advanceLane]
@[simp] theorem advanceLane_markers (s : State) (l : LaneRef) : (s.advanceLane l).markers = s.markers := by simp [State.advanceLane]
@[simp] theorem advanceLane_launches (s : State) (l : LaneRef) : (s.advanceLane l).launches = s.launches := by simp [State.advanceLane]
@[simp] theorem advanceLane_queues (s : State) (l : LaneRef) : (s.advanceLane l).queues = s.queues := by simp [State.advanceLane]
@[simp] theorem advanceLane_kernels (s : State) (l : LaneRef) : (s.advanceLane l).kernels = s.kernels := by simp [State.advanceLane]
@[simp] theorem advanceLane_kseSerials (s : State) (l : LaneRef) : (s.advanceLane l).kseSerials = s.kseSerials := by simp [State.advanceLane]
@[simp] theorem advanceLane_win (s : State) (l : LaneRef) : (s.advanceLane l).win = s.win := by simp [State.advanceLane]
@[simp] theorem advanceLane_units (s : State) (l : LaneRef) : (s.advanceLane l).units = s.units := by simp [State.advanceLane]
@[simp] theorem advanceLane_by_ (s : State) (l : LaneRef) : (s.advanceLane l).by_ = s.by_ := by simp [State.advanceLane]
@[simp] theorem advanceLane_migrations (s : State) (l : LaneRef) : (s.advanceLane l).migrations = s.migrations := by simp [State.advanceLane]
@[simp] theorem advanceLane_alerts (s : State) (l : LaneRef) : (s.advanceLane l).alerts = s.alerts := by simp [State.advanceLane]
@[simp] theorem advanceLane_mainPower (s : State) (l : LaneRef) : (s.advanceLane l).mainPower = s.mainPower := by simp [State.advanceLane]
@[simp] theorem advanceLane_firmware (s : State) (l : LaneRef) : (s.advanceLane l).firmware = s.firmware := by simp [State.advanceLane]
@[simp] theorem advanceLane_tests (s : State) (l : LaneRef) : (s.advanceLane l).tests = s.tests := by simp [State.advanceLane]
@[simp] theorem advanceLane_aside (s : State) (l : LaneRef) : (s.advanceLane l).aside = s.aside := by simp [State.advanceLane]
@[simp] theorem advanceLane_nvRetired (s : State) (l : LaneRef) : (s.advanceLane l).nvRetired = s.nvRetired := by simp [State.advanceLane]
@[simp] theorem advanceLane_bootRetired (s : State) (l : LaneRef) : (s.advanceLane l).bootRetired = s.bootRetired := by simp [State.advanceLane]
@[simp] theorem advanceLane_bootDue (s : State) (l : LaneRef) : (s.advanceLane l).bootDue = s.bootDue := by simp [State.advanceLane]
@[simp] theorem advanceLane_reply (s : State) (l : LaneRef) : (s.advanceLane l).reply = s.reply := by simp [State.advanceLane]
@[simp] theorem advanceLane_answer (s : State) (l : LaneRef) : (s.advanceLane l).answer = s.answer := by simp [State.advanceLane]
@[simp] theorem advanceLane_bootCycle (s : State) (l : LaneRef) : (s.advanceLane l).bootCycle = s.bootCycle := by simp [State.advanceLane]
@[simp] theorem advanceLane_halting (s : State) (l : LaneRef) : (s.advanceLane l).halting = s.halting := by simp [State.advanceLane]
@[simp] theorem advanceLane_linksDown (s : State) (l : LaneRef) : (s.advanceLane l).linksDown = s.linksDown := by simp [State.advanceLane]
@[simp] theorem advanceLane_cfails (s : State) (l : LaneRef) : (s.advanceLane l).cfails = s.cfails := by simp [State.advanceLane]
@[simp] theorem advanceLane_due (s : State) (l : LaneRef) : (s.advanceLane l).due = s.due := by simp [State.advanceLane]
@[simp] theorem advanceLane_pkid (s : State) (l : LaneRef) : (s.advanceLane l).pkid = s.pkid := by simp [State.advanceLane]
@[simp] theorem advanceLane_served (s : State) (l : LaneRef) : (s.advanceLane l).served = s.served := by simp [State.advanceLane]
@[simp] theorem advanceLane_nextLaunch (s : State) (l : LaneRef) : (s.advanceLane l).nextLaunch = s.nextLaunch := by simp [State.advanceLane]
@[simp] theorem advanceLane_nextId (s : State) (l : LaneRef) : (s.advanceLane l).nextId = s.nextId := by simp [State.advanceLane]
@[simp] theorem advanceLane_freeCtr (s : State) (l : LaneRef) : (s.advanceLane l).freeCtr = s.freeCtr := by simp [State.advanceLane]
@[simp] theorem advanceLane_agenda (s : State) (l : LaneRef) : (s.advanceLane l).agenda = s.agenda := by simp [State.advanceLane]
@[simp] theorem advanceLane_issue (s : State) (l : LaneRef) : (s.advanceLane l).issue = s.issue := by simp [State.advanceLane]
@[simp] theorem advanceLane_fx (s : State) (l : LaneRef) : (s.advanceLane l).fx = s.fx := by simp [State.advanceLane]
@[simp] theorem advanceLane_sel (s : State) (l : LaneRef) : (s.advanceLane l).sel = s.sel := by simp [State.advanceLane]
@[simp] theorem advanceLane_slotMate (s : State) (l : LaneRef) : (s.advanceLane l).slotMate = s.slotMate := by simp [State.advanceLane]
@[simp] theorem advanceLane_turn (s : State) (l : LaneRef) : (s.advanceLane l).turn = s.turn := by simp [State.advanceLane]

/-! ### modLaunch -/

@[simp] theorem modLaunch_hw (s : State) (i : Nat) (f : Launch → Launch) : (s.modLaunch i f).hw = s.hw := rfl
@[simp] theorem modLaunch_cycle (s : State) (i : Nat) (f : Launch → Launch) : (s.modLaunch i f).cycle = s.cycle := rfl
@[simp] theorem modLaunch_mem (s : State) (i : Nat) (f : Launch → Launch) : (s.modLaunch i f).mem = s.mem := rfl
@[simp] theorem modLaunch_stage (s : State) (i : Nat) (f : Launch → Launch) : (s.modLaunch i f).stage = s.stage := rfl
@[simp] theorem modLaunch_badWords (s : State) (i : Nat) (f : Launch → Launch) : (s.modLaunch i f).badWords = s.badWords := rfl
@[simp] theorem modLaunch_l2 (s : State) (i : Nat) (f : Launch → Launch) : (s.modLaunch i f).l2 = s.l2 := rfl
@[simp] theorem modLaunch_rdc (s : State) (i : Nat) (f : Launch → Launch) : (s.modLaunch i f).rdc = s.rdc := rfl
@[simp] theorem modLaunch_owners (s : State) (i : Nat) (f : Launch → Launch) : (s.modLaunch i f).owners = s.owners := rfl
@[simp] theorem modLaunch_sectors (s : State) (i : Nat) (f : Launch → Launch) : (s.modLaunch i f).sectors = s.sectors := rfl
@[simp] theorem modLaunch_recent (s : State) (i : Nat) (f : Launch → Launch) : (s.modLaunch i f).recent = s.recent := rfl
@[simp] theorem modLaunch_spoilt (s : State) (i : Nat) (f : Launch → Launch) : (s.modLaunch i f).spoilt = s.spoilt := rfl
@[simp] theorem modLaunch_locks (s : State) (i : Nat) (f : Launch → Launch) : (s.modLaunch i f).locks = s.locks := rfl
@[simp] theorem modLaunch_waiting (s : State) (i : Nat) (f : Launch → Launch) : (s.modLaunch i f).waiting = s.waiting := rfl
@[simp] theorem modLaunch_loads (s : State) (i : Nat) (f : Launch → Launch) : (s.modLaunch i f).loads = s.loads := rfl
@[simp] theorem modLaunch_stores (s : State) (i : Nat) (f : Launch → Launch) : (s.modLaunch i f).stores = s.stores := rfl
@[simp] theorem modLaunch_atomics (s : State) (i : Nat) (f : Launch → Launch) : (s.modLaunch i f).atomics = s.atomics := rfl
@[simp] theorem modLaunch_reds (s : State) (i : Nat) (f : Launch → Launch) : (s.modLaunch i f).reds = s.reds := rfl
@[simp] theorem modLaunch_cmds (s : State) (i : Nat) (f : Launch → Launch) : (s.modLaunch i f).cmds = s.cmds := rfl
@[simp] theorem modLaunch_arrivals (s : State) (i : Nat) (f : Launch → Launch) : (s.modLaunch i f).arrivals = s.arrivals := rfl
@[simp] theorem modLaunch_tlbInvs (s : State) (i : Nat) (f : Launch → Launch) : (s.modLaunch i f).tlbInvs = s.tlbInvs := rfl
@[simp] theorem modLaunch_markers (s : State) (i : Nat) (f : Launch → Launch) : (s.modLaunch i f).markers = s.markers := rfl
@[simp] theorem modLaunch_cores (s : State) (i : Nat) (f : Launch → Launch) : (s.modLaunch i f).cores = s.cores := rfl
@[simp] theorem modLaunch_launches (s : State) (i : Nat) (f : Launch → Launch) : (s.modLaunch i f).launches = smod s.launches i f := rfl
@[simp] theorem modLaunch_queues (s : State) (i : Nat) (f : Launch → Launch) : (s.modLaunch i f).queues = s.queues := rfl
@[simp] theorem modLaunch_kernels (s : State) (i : Nat) (f : Launch → Launch) : (s.modLaunch i f).kernels = s.kernels := rfl
@[simp] theorem modLaunch_kseSerials (s : State) (i : Nat) (f : Launch → Launch) : (s.modLaunch i f).kseSerials = s.kseSerials := rfl
@[simp] theorem modLaunch_win (s : State) (i : Nat) (f : Launch → Launch) : (s.modLaunch i f).win = s.win := rfl
@[simp] theorem modLaunch_units (s : State) (i : Nat) (f : Launch → Launch) : (s.modLaunch i f).units = s.units := rfl
@[simp] theorem modLaunch_by_ (s : State) (i : Nat) (f : Launch → Launch) : (s.modLaunch i f).by_ = s.by_ := rfl
@[simp] theorem modLaunch_migrations (s : State) (i : Nat) (f : Launch → Launch) : (s.modLaunch i f).migrations = s.migrations := rfl
@[simp] theorem modLaunch_alerts (s : State) (i : Nat) (f : Launch → Launch) : (s.modLaunch i f).alerts = s.alerts := rfl
@[simp] theorem modLaunch_mainPower (s : State) (i : Nat) (f : Launch → Launch) : (s.modLaunch i f).mainPower = s.mainPower := rfl
@[simp] theorem modLaunch_firmware (s : State) (i : Nat) (f : Launch → Launch) : (s.modLaunch i f).firmware = s.firmware := rfl
@[simp] theorem modLaunch_tests (s : State) (i : Nat) (f : Launch → Launch) : (s.modLaunch i f).tests = s.tests := rfl
@[simp] theorem modLaunch_aside (s : State) (i : Nat) (f : Launch → Launch) : (s.modLaunch i f).aside = s.aside := rfl
@[simp] theorem modLaunch_nvRetired (s : State) (i : Nat) (f : Launch → Launch) : (s.modLaunch i f).nvRetired = s.nvRetired := rfl
@[simp] theorem modLaunch_bootRetired (s : State) (i : Nat) (f : Launch → Launch) : (s.modLaunch i f).bootRetired = s.bootRetired := rfl
@[simp] theorem modLaunch_bootDue (s : State) (i : Nat) (f : Launch → Launch) : (s.modLaunch i f).bootDue = s.bootDue := rfl
@[simp] theorem modLaunch_reply (s : State) (i : Nat) (f : Launch → Launch) : (s.modLaunch i f).reply = s.reply := rfl
@[simp] theorem modLaunch_answer (s : State) (i : Nat) (f : Launch → Launch) : (s.modLaunch i f).answer = s.answer := rfl
@[simp] theorem modLaunch_bootCycle (s : State) (i : Nat) (f : Launch → Launch) : (s.modLaunch i f).bootCycle = s.bootCycle := rfl
@[simp] theorem modLaunch_halting (s : State) (i : Nat) (f : Launch → Launch) : (s.modLaunch i f).halting = s.halting := rfl
@[simp] theorem modLaunch_linksDown (s : State) (i : Nat) (f : Launch → Launch) : (s.modLaunch i f).linksDown = s.linksDown := rfl
@[simp] theorem modLaunch_cfails (s : State) (i : Nat) (f : Launch → Launch) : (s.modLaunch i f).cfails = s.cfails := rfl
@[simp] theorem modLaunch_due (s : State) (i : Nat) (f : Launch → Launch) : (s.modLaunch i f).due = s.due := rfl
@[simp] theorem modLaunch_pkid (s : State) (i : Nat) (f : Launch → Launch) : (s.modLaunch i f).pkid = s.pkid := rfl
@[simp] theorem modLaunch_served (s : State) (i : Nat) (f : Launch → Launch) : (s.modLaunch i f).served = s.served := rfl
@[simp] theorem modLaunch_nextLaunch (s : State) (i : Nat) (f : Launch → Launch) : (s.modLaunch i f).nextLaunch = s.nextLaunch := rfl
@[simp] theorem modLaunch_nextId (s : State) (i : Nat) (f : Launch → Launch) : (s.modLaunch i f).nextId = s.nextId := rfl
@[simp] theorem modLaunch_freeCtr (s : State) (i : Nat) (f : Launch → Launch) : (s.modLaunch i f).freeCtr = s.freeCtr := rfl
@[simp] theorem modLaunch_agenda (s : State) (i : Nat) (f : Launch → Launch) : (s.modLaunch i f).agenda = s.agenda := rfl
@[simp] theorem modLaunch_issue (s : State) (i : Nat) (f : Launch → Launch) : (s.modLaunch i f).issue = s.issue := rfl
@[simp] theorem modLaunch_fx (s : State) (i : Nat) (f : Launch → Launch) : (s.modLaunch i f).fx = s.fx := rfl
@[simp] theorem modLaunch_sel (s : State) (i : Nat) (f : Launch → Launch) : (s.modLaunch i f).sel = s.sel := rfl
@[simp] theorem modLaunch_slotMate (s : State) (i : Nat) (f : Launch → Launch) : (s.modLaunch i f).slotMate = s.slotMate := rfl
@[simp] theorem modLaunch_turn (s : State) (i : Nat) (f : Launch → Launch) : (s.modLaunch i f).turn = s.turn := rfl

/-! ### modKernel -/

@[simp] theorem modKernel_hw (s : State) (i : Nat) (f : Kernel → Kernel) : (s.modKernel i f).hw = s.hw := rfl
@[simp] theorem modKernel_cycle (s : State) (i : Nat) (f : Kernel → Kernel) : (s.modKernel i f).cycle = s.cycle := rfl
@[simp] theorem modKernel_mem (s : State) (i : Nat) (f : Kernel → Kernel) : (s.modKernel i f).mem = s.mem := rfl
@[simp] theorem modKernel_stage (s : State) (i : Nat) (f : Kernel → Kernel) : (s.modKernel i f).stage = s.stage := rfl
@[simp] theorem modKernel_badWords (s : State) (i : Nat) (f : Kernel → Kernel) : (s.modKernel i f).badWords = s.badWords := rfl
@[simp] theorem modKernel_l2 (s : State) (i : Nat) (f : Kernel → Kernel) : (s.modKernel i f).l2 = s.l2 := rfl
@[simp] theorem modKernel_rdc (s : State) (i : Nat) (f : Kernel → Kernel) : (s.modKernel i f).rdc = s.rdc := rfl
@[simp] theorem modKernel_owners (s : State) (i : Nat) (f : Kernel → Kernel) : (s.modKernel i f).owners = s.owners := rfl
@[simp] theorem modKernel_sectors (s : State) (i : Nat) (f : Kernel → Kernel) : (s.modKernel i f).sectors = s.sectors := rfl
@[simp] theorem modKernel_recent (s : State) (i : Nat) (f : Kernel → Kernel) : (s.modKernel i f).recent = s.recent := rfl
@[simp] theorem modKernel_spoilt (s : State) (i : Nat) (f : Kernel → Kernel) : (s.modKernel i f).spoilt = s.spoilt := rfl
@[simp] theorem modKernel_locks (s : State) (i : Nat) (f : Kernel → Kernel) : (s.modKernel i f).locks = s.locks := rfl
@[simp] theorem modKernel_waiting (s : State) (i : Nat) (f : Kernel → Kernel) : (s.modKernel i f).waiting = s.waiting := rfl
@[simp] theorem modKernel_loads (s : State) (i : Nat) (f : Kernel → Kernel) : (s.modKernel i f).loads = s.loads := rfl
@[simp] theorem modKernel_stores (s : State) (i : Nat) (f : Kernel → Kernel) : (s.modKernel i f).stores = s.stores := rfl
@[simp] theorem modKernel_atomics (s : State) (i : Nat) (f : Kernel → Kernel) : (s.modKernel i f).atomics = s.atomics := rfl
@[simp] theorem modKernel_reds (s : State) (i : Nat) (f : Kernel → Kernel) : (s.modKernel i f).reds = s.reds := rfl
@[simp] theorem modKernel_cmds (s : State) (i : Nat) (f : Kernel → Kernel) : (s.modKernel i f).cmds = s.cmds := rfl
@[simp] theorem modKernel_arrivals (s : State) (i : Nat) (f : Kernel → Kernel) : (s.modKernel i f).arrivals = s.arrivals := rfl
@[simp] theorem modKernel_tlbInvs (s : State) (i : Nat) (f : Kernel → Kernel) : (s.modKernel i f).tlbInvs = s.tlbInvs := rfl
@[simp] theorem modKernel_markers (s : State) (i : Nat) (f : Kernel → Kernel) : (s.modKernel i f).markers = s.markers := rfl
@[simp] theorem modKernel_cores (s : State) (i : Nat) (f : Kernel → Kernel) : (s.modKernel i f).cores = s.cores := rfl
@[simp] theorem modKernel_launches (s : State) (i : Nat) (f : Kernel → Kernel) : (s.modKernel i f).launches = s.launches := rfl
@[simp] theorem modKernel_queues (s : State) (i : Nat) (f : Kernel → Kernel) : (s.modKernel i f).queues = s.queues := rfl
@[simp] theorem modKernel_kernels (s : State) (i : Nat) (f : Kernel → Kernel) : (s.modKernel i f).kernels = smod s.kernels i f := rfl
@[simp] theorem modKernel_kseSerials (s : State) (i : Nat) (f : Kernel → Kernel) : (s.modKernel i f).kseSerials = s.kseSerials := rfl
@[simp] theorem modKernel_win (s : State) (i : Nat) (f : Kernel → Kernel) : (s.modKernel i f).win = s.win := rfl
@[simp] theorem modKernel_units (s : State) (i : Nat) (f : Kernel → Kernel) : (s.modKernel i f).units = s.units := rfl
@[simp] theorem modKernel_by_ (s : State) (i : Nat) (f : Kernel → Kernel) : (s.modKernel i f).by_ = s.by_ := rfl
@[simp] theorem modKernel_migrations (s : State) (i : Nat) (f : Kernel → Kernel) : (s.modKernel i f).migrations = s.migrations := rfl
@[simp] theorem modKernel_alerts (s : State) (i : Nat) (f : Kernel → Kernel) : (s.modKernel i f).alerts = s.alerts := rfl
@[simp] theorem modKernel_mainPower (s : State) (i : Nat) (f : Kernel → Kernel) : (s.modKernel i f).mainPower = s.mainPower := rfl
@[simp] theorem modKernel_firmware (s : State) (i : Nat) (f : Kernel → Kernel) : (s.modKernel i f).firmware = s.firmware := rfl
@[simp] theorem modKernel_tests (s : State) (i : Nat) (f : Kernel → Kernel) : (s.modKernel i f).tests = s.tests := rfl
@[simp] theorem modKernel_aside (s : State) (i : Nat) (f : Kernel → Kernel) : (s.modKernel i f).aside = s.aside := rfl
@[simp] theorem modKernel_nvRetired (s : State) (i : Nat) (f : Kernel → Kernel) : (s.modKernel i f).nvRetired = s.nvRetired := rfl
@[simp] theorem modKernel_bootRetired (s : State) (i : Nat) (f : Kernel → Kernel) : (s.modKernel i f).bootRetired = s.bootRetired := rfl
@[simp] theorem modKernel_bootDue (s : State) (i : Nat) (f : Kernel → Kernel) : (s.modKernel i f).bootDue = s.bootDue := rfl
@[simp] theorem modKernel_reply (s : State) (i : Nat) (f : Kernel → Kernel) : (s.modKernel i f).reply = s.reply := rfl
@[simp] theorem modKernel_answer (s : State) (i : Nat) (f : Kernel → Kernel) : (s.modKernel i f).answer = s.answer := rfl
@[simp] theorem modKernel_bootCycle (s : State) (i : Nat) (f : Kernel → Kernel) : (s.modKernel i f).bootCycle = s.bootCycle := rfl
@[simp] theorem modKernel_halting (s : State) (i : Nat) (f : Kernel → Kernel) : (s.modKernel i f).halting = s.halting := rfl
@[simp] theorem modKernel_linksDown (s : State) (i : Nat) (f : Kernel → Kernel) : (s.modKernel i f).linksDown = s.linksDown := rfl
@[simp] theorem modKernel_cfails (s : State) (i : Nat) (f : Kernel → Kernel) : (s.modKernel i f).cfails = s.cfails := rfl
@[simp] theorem modKernel_due (s : State) (i : Nat) (f : Kernel → Kernel) : (s.modKernel i f).due = s.due := rfl
@[simp] theorem modKernel_pkid (s : State) (i : Nat) (f : Kernel → Kernel) : (s.modKernel i f).pkid = s.pkid := rfl
@[simp] theorem modKernel_served (s : State) (i : Nat) (f : Kernel → Kernel) : (s.modKernel i f).served = s.served := rfl
@[simp] theorem modKernel_nextLaunch (s : State) (i : Nat) (f : Kernel → Kernel) : (s.modKernel i f).nextLaunch = s.nextLaunch := rfl
@[simp] theorem modKernel_nextId (s : State) (i : Nat) (f : Kernel → Kernel) : (s.modKernel i f).nextId = s.nextId := rfl
@[simp] theorem modKernel_freeCtr (s : State) (i : Nat) (f : Kernel → Kernel) : (s.modKernel i f).freeCtr = s.freeCtr := rfl
@[simp] theorem modKernel_agenda (s : State) (i : Nat) (f : Kernel → Kernel) : (s.modKernel i f).agenda = s.agenda := rfl
@[simp] theorem modKernel_issue (s : State) (i : Nat) (f : Kernel → Kernel) : (s.modKernel i f).issue = s.issue := rfl
@[simp] theorem modKernel_fx (s : State) (i : Nat) (f : Kernel → Kernel) : (s.modKernel i f).fx = s.fx := rfl
@[simp] theorem modKernel_sel (s : State) (i : Nat) (f : Kernel → Kernel) : (s.modKernel i f).sel = s.sel := rfl
@[simp] theorem modKernel_slotMate (s : State) (i : Nat) (f : Kernel → Kernel) : (s.modKernel i f).slotMate = s.slotMate := rfl
@[simp] theorem modKernel_turn (s : State) (i : Nat) (f : Kernel → Kernel) : (s.modKernel i f).turn = s.turn := rfl

/-! ### drawn -/

@[simp] theorem drawn_hw (s : State) (n : Nat) : (s.drawn n).hw = s.hw := rfl
@[simp] theorem drawn_cycle (s : State) (n : Nat) : (s.drawn n).cycle = s.cycle := rfl
@[simp] theorem drawn_mem (s : State) (n : Nat) : (s.drawn n).mem = s.mem := rfl
@[simp] theorem drawn_stage (s : State) (n : Nat) : (s.drawn n).stage = s.stage := rfl
@[simp] theorem drawn_badWords (s : State) (n : Nat) : (s.drawn n).badWords = s.badWords := rfl
@[simp] theorem drawn_l2 (s : State) (n : Nat) : (s.drawn n).l2 = s.l2 := rfl
@[simp] theorem drawn_rdc (s : State) (n : Nat) : (s.drawn n).rdc = s.rdc := rfl
@[simp] theorem drawn_owners (s : State) (n : Nat) : (s.drawn n).owners = s.owners := rfl
@[simp] theorem drawn_sectors (s : State) (n : Nat) : (s.drawn n).sectors = s.sectors := rfl
@[simp] theorem drawn_recent (s : State) (n : Nat) : (s.drawn n).recent = s.recent := rfl
@[simp] theorem drawn_spoilt (s : State) (n : Nat) : (s.drawn n).spoilt = s.spoilt := rfl
@[simp] theorem drawn_locks (s : State) (n : Nat) : (s.drawn n).locks = s.locks := rfl
@[simp] theorem drawn_waiting (s : State) (n : Nat) : (s.drawn n).waiting = s.waiting := rfl
@[simp] theorem drawn_loads (s : State) (n : Nat) : (s.drawn n).loads = s.loads := rfl
@[simp] theorem drawn_stores (s : State) (n : Nat) : (s.drawn n).stores = s.stores := rfl
@[simp] theorem drawn_atomics (s : State) (n : Nat) : (s.drawn n).atomics = s.atomics := rfl
@[simp] theorem drawn_reds (s : State) (n : Nat) : (s.drawn n).reds = s.reds := rfl
@[simp] theorem drawn_cmds (s : State) (n : Nat) : (s.drawn n).cmds = s.cmds := rfl
@[simp] theorem drawn_arrivals (s : State) (n : Nat) : (s.drawn n).arrivals = s.arrivals := rfl
@[simp] theorem drawn_tlbInvs (s : State) (n : Nat) : (s.drawn n).tlbInvs = s.tlbInvs := rfl
@[simp] theorem drawn_markers (s : State) (n : Nat) : (s.drawn n).markers = s.markers := rfl
@[simp] theorem drawn_cores (s : State) (n : Nat) : (s.drawn n).cores = s.cores := rfl
@[simp] theorem drawn_launches (s : State) (n : Nat) : (s.drawn n).launches = s.launches := rfl
@[simp] theorem drawn_queues (s : State) (n : Nat) : (s.drawn n).queues = s.queues := rfl
@[simp] theorem drawn_kernels (s : State) (n : Nat) : (s.drawn n).kernels = s.kernels := rfl
@[simp] theorem drawn_kseSerials (s : State) (n : Nat) : (s.drawn n).kseSerials = s.kseSerials := rfl
@[simp] theorem drawn_win (s : State) (n : Nat) : (s.drawn n).win = s.win := rfl
@[simp] theorem drawn_units (s : State) (n : Nat) : (s.drawn n).units = s.units := rfl
@[simp] theorem drawn_by_ (s : State) (n : Nat) : (s.drawn n).by_ = s.by_ := rfl
@[simp] theorem drawn_migrations (s : State) (n : Nat) : (s.drawn n).migrations = s.migrations := rfl
@[simp] theorem drawn_alerts (s : State) (n : Nat) : (s.drawn n).alerts = s.alerts := rfl
@[simp] theorem drawn_mainPower (s : State) (n : Nat) : (s.drawn n).mainPower = s.mainPower := rfl
@[simp] theorem drawn_firmware (s : State) (n : Nat) : (s.drawn n).firmware = s.firmware := rfl
@[simp] theorem drawn_tests (s : State) (n : Nat) : (s.drawn n).tests = s.tests := rfl
@[simp] theorem drawn_aside (s : State) (n : Nat) : (s.drawn n).aside = s.aside := rfl
@[simp] theorem drawn_nvRetired (s : State) (n : Nat) : (s.drawn n).nvRetired = s.nvRetired := rfl
@[simp] theorem drawn_bootRetired (s : State) (n : Nat) : (s.drawn n).bootRetired = s.bootRetired := rfl
@[simp] theorem drawn_bootDue (s : State) (n : Nat) : (s.drawn n).bootDue = s.bootDue := rfl
@[simp] theorem drawn_reply (s : State) (n : Nat) : (s.drawn n).reply = s.reply := rfl
@[simp] theorem drawn_answer (s : State) (n : Nat) : (s.drawn n).answer = s.answer := rfl
@[simp] theorem drawn_bootCycle (s : State) (n : Nat) : (s.drawn n).bootCycle = s.bootCycle := rfl
@[simp] theorem drawn_halting (s : State) (n : Nat) : (s.drawn n).halting = s.halting := rfl
@[simp] theorem drawn_linksDown (s : State) (n : Nat) : (s.drawn n).linksDown = s.linksDown := rfl
@[simp] theorem drawn_cfails (s : State) (n : Nat) : (s.drawn n).cfails = s.cfails := rfl
@[simp] theorem drawn_due (s : State) (n : Nat) : (s.drawn n).due = s.due := rfl
@[simp] theorem drawn_pkid (s : State) (n : Nat) : (s.drawn n).pkid = s.pkid := rfl
@[simp] theorem drawn_served (s : State) (n : Nat) : (s.drawn n).served = s.served := rfl
@[simp] theorem drawn_nextLaunch (s : State) (n : Nat) : (s.drawn n).nextLaunch = s.nextLaunch := rfl
@[simp] theorem drawn_nextId (s : State) (n : Nat) : (s.drawn n).nextId = s.nextId := rfl
@[simp] theorem drawn_freeCtr (s : State) (n : Nat) : (s.drawn n).freeCtr = s.freeCtr + n := rfl
@[simp] theorem drawn_agenda (s : State) (n : Nat) : (s.drawn n).agenda = s.agenda := rfl
@[simp] theorem drawn_issue (s : State) (n : Nat) : (s.drawn n).issue = s.issue := rfl
@[simp] theorem drawn_fx (s : State) (n : Nat) : (s.drawn n).fx = s.fx := rfl
@[simp] theorem drawn_sel (s : State) (n : Nat) : (s.drawn n).sel = s.sel := rfl
@[simp] theorem drawn_slotMate (s : State) (n : Nat) : (s.drawn n).slotMate = s.slotMate := rfl
@[simp] theorem drawn_turn (s : State) (n : Nat) : (s.drawn n).turn = s.turn := rfl

/-! ### fresh -/

@[simp] theorem fresh_hw (s : State) : (s.fresh).hw = s.hw := rfl
@[simp] theorem fresh_cycle (s : State) : (s.fresh).cycle = s.cycle := rfl
@[simp] theorem fresh_mem (s : State) : (s.fresh).mem = s.mem := rfl
@[simp] theorem fresh_stage (s : State) : (s.fresh).stage = s.stage := rfl
@[simp] theorem fresh_badWords (s : State) : (s.fresh).badWords = s.badWords := rfl
@[simp] theorem fresh_l2 (s : State) : (s.fresh).l2 = s.l2 := rfl
@[simp] theorem fresh_rdc (s : State) : (s.fresh).rdc = s.rdc := rfl
@[simp] theorem fresh_owners (s : State) : (s.fresh).owners = s.owners := rfl
@[simp] theorem fresh_sectors (s : State) : (s.fresh).sectors = s.sectors := rfl
@[simp] theorem fresh_recent (s : State) : (s.fresh).recent = s.recent := rfl
@[simp] theorem fresh_spoilt (s : State) : (s.fresh).spoilt = s.spoilt := rfl
@[simp] theorem fresh_locks (s : State) : (s.fresh).locks = s.locks := rfl
@[simp] theorem fresh_waiting (s : State) : (s.fresh).waiting = s.waiting := rfl
@[simp] theorem fresh_loads (s : State) : (s.fresh).loads = s.loads := rfl
@[simp] theorem fresh_stores (s : State) : (s.fresh).stores = s.stores := rfl
@[simp] theorem fresh_atomics (s : State) : (s.fresh).atomics = s.atomics := rfl
@[simp] theorem fresh_reds (s : State) : (s.fresh).reds = s.reds := rfl
@[simp] theorem fresh_cmds (s : State) : (s.fresh).cmds = s.cmds := rfl
@[simp] theorem fresh_arrivals (s : State) : (s.fresh).arrivals = s.arrivals := rfl
@[simp] theorem fresh_tlbInvs (s : State) : (s.fresh).tlbInvs = s.tlbInvs := rfl
@[simp] theorem fresh_markers (s : State) : (s.fresh).markers = s.markers := rfl
@[simp] theorem fresh_cores (s : State) : (s.fresh).cores = s.cores := rfl
@[simp] theorem fresh_launches (s : State) : (s.fresh).launches = s.launches := rfl
@[simp] theorem fresh_queues (s : State) : (s.fresh).queues = s.queues := rfl
@[simp] theorem fresh_kernels (s : State) : (s.fresh).kernels = s.kernels := rfl
@[simp] theorem fresh_kseSerials (s : State) : (s.fresh).kseSerials = s.kseSerials := rfl
@[simp] theorem fresh_win (s : State) : (s.fresh).win = s.win := rfl
@[simp] theorem fresh_units (s : State) : (s.fresh).units = s.units := rfl
@[simp] theorem fresh_by_ (s : State) : (s.fresh).by_ = s.by_ := rfl
@[simp] theorem fresh_migrations (s : State) : (s.fresh).migrations = s.migrations := rfl
@[simp] theorem fresh_alerts (s : State) : (s.fresh).alerts = s.alerts := rfl
@[simp] theorem fresh_mainPower (s : State) : (s.fresh).mainPower = s.mainPower := rfl
@[simp] theorem fresh_firmware (s : State) : (s.fresh).firmware = s.firmware := rfl
@[simp] theorem fresh_tests (s : State) : (s.fresh).tests = s.tests := rfl
@[simp] theorem fresh_aside (s : State) : (s.fresh).aside = s.aside := rfl
@[simp] theorem fresh_nvRetired (s : State) : (s.fresh).nvRetired = s.nvRetired := rfl
@[simp] theorem fresh_bootRetired (s : State) : (s.fresh).bootRetired = s.bootRetired := rfl
@[simp] theorem fresh_bootDue (s : State) : (s.fresh).bootDue = s.bootDue := rfl
@[simp] theorem fresh_reply (s : State) : (s.fresh).reply = s.reply := rfl
@[simp] theorem fresh_answer (s : State) : (s.fresh).answer = s.answer := rfl
@[simp] theorem fresh_bootCycle (s : State) : (s.fresh).bootCycle = s.bootCycle := rfl
@[simp] theorem fresh_halting (s : State) : (s.fresh).halting = s.halting := rfl
@[simp] theorem fresh_linksDown (s : State) : (s.fresh).linksDown = s.linksDown := rfl
@[simp] theorem fresh_cfails (s : State) : (s.fresh).cfails = s.cfails := rfl
@[simp] theorem fresh_due (s : State) : (s.fresh).due = s.due := rfl
@[simp] theorem fresh_pkid (s : State) : (s.fresh).pkid = s.pkid := rfl
@[simp] theorem fresh_served (s : State) : (s.fresh).served = s.served := rfl
@[simp] theorem fresh_nextLaunch (s : State) : (s.fresh).nextLaunch = s.nextLaunch := rfl
@[simp] theorem fresh_nextId (s : State) : (s.fresh).nextId = s.nextId + 1 := rfl
@[simp] theorem fresh_freeCtr (s : State) : (s.fresh).freeCtr = s.freeCtr := rfl
@[simp] theorem fresh_agenda (s : State) : (s.fresh).agenda = s.agenda := rfl
@[simp] theorem fresh_issue (s : State) : (s.fresh).issue = s.issue := rfl
@[simp] theorem fresh_fx (s : State) : (s.fresh).fx = s.fx := rfl
@[simp] theorem fresh_sel (s : State) : (s.fresh).sel = s.sel := rfl
@[simp] theorem fresh_slotMate (s : State) : (s.fresh).slotMate = s.slotMate := rfl
@[simp] theorem fresh_turn (s : State) : (s.fresh).turn = s.turn := rfl

/-! ### servedFor -/

@[simp] theorem servedFor_hw (s : State) (i la : Nat) : (s.servedFor i la).hw = s.hw := rfl
@[simp] theorem servedFor_cycle (s : State) (i la : Nat) : (s.servedFor i la).cycle = s.cycle := rfl
@[simp] theorem servedFor_mem (s : State) (i la : Nat) : (s.servedFor i la).mem = s.mem := rfl
@[simp] theorem servedFor_stage (s : State) (i la : Nat) : (s.servedFor i la).stage = s.stage := rfl
@[simp] theorem servedFor_badWords (s : State) (i la : Nat) : (s.servedFor i la).badWords = s.badWords := rfl
@[simp] theorem servedFor_l2 (s : State) (i la : Nat) : (s.servedFor i la).l2 = s.l2 := rfl
@[simp] theorem servedFor_rdc (s : State) (i la : Nat) : (s.servedFor i la).rdc = s.rdc := rfl
@[simp] theorem servedFor_owners (s : State) (i la : Nat) : (s.servedFor i la).owners = s.owners := rfl
@[simp] theorem servedFor_sectors (s : State) (i la : Nat) : (s.servedFor i la).sectors = s.sectors := rfl
@[simp] theorem servedFor_recent (s : State) (i la : Nat) : (s.servedFor i la).recent = s.recent := rfl
@[simp] theorem servedFor_spoilt (s : State) (i la : Nat) : (s.servedFor i la).spoilt = s.spoilt := rfl
@[simp] theorem servedFor_locks (s : State) (i la : Nat) : (s.servedFor i la).locks = s.locks := rfl
@[simp] theorem servedFor_waiting (s : State) (i la : Nat) : (s.servedFor i la).waiting = s.waiting := rfl
@[simp] theorem servedFor_loads (s : State) (i la : Nat) : (s.servedFor i la).loads = s.loads := rfl
@[simp] theorem servedFor_stores (s : State) (i la : Nat) : (s.servedFor i la).stores = s.stores := rfl
@[simp] theorem servedFor_atomics (s : State) (i la : Nat) : (s.servedFor i la).atomics = s.atomics := rfl
@[simp] theorem servedFor_reds (s : State) (i la : Nat) : (s.servedFor i la).reds = s.reds := rfl
@[simp] theorem servedFor_cmds (s : State) (i la : Nat) : (s.servedFor i la).cmds = s.cmds := rfl
@[simp] theorem servedFor_arrivals (s : State) (i la : Nat) : (s.servedFor i la).arrivals = s.arrivals := rfl
@[simp] theorem servedFor_tlbInvs (s : State) (i la : Nat) : (s.servedFor i la).tlbInvs = s.tlbInvs := rfl
@[simp] theorem servedFor_markers (s : State) (i la : Nat) : (s.servedFor i la).markers = s.markers := rfl
@[simp] theorem servedFor_cores (s : State) (i la : Nat) : (s.servedFor i la).cores = s.cores := rfl
@[simp] theorem servedFor_launches (s : State) (i la : Nat) : (s.servedFor i la).launches = s.launches := rfl
@[simp] theorem servedFor_queues (s : State) (i la : Nat) : (s.servedFor i la).queues = s.queues := rfl
@[simp] theorem servedFor_kernels (s : State) (i la : Nat) : (s.servedFor i la).kernels = s.kernels := rfl
@[simp] theorem servedFor_kseSerials (s : State) (i la : Nat) : (s.servedFor i la).kseSerials = s.kseSerials := rfl
@[simp] theorem servedFor_win (s : State) (i la : Nat) : (s.servedFor i la).win = s.win := rfl
@[simp] theorem servedFor_units (s : State) (i la : Nat) : (s.servedFor i la).units = s.units := rfl
@[simp] theorem servedFor_migrations (s : State) (i la : Nat) : (s.servedFor i la).migrations = s.migrations := rfl
@[simp] theorem servedFor_alerts (s : State) (i la : Nat) : (s.servedFor i la).alerts = s.alerts := rfl
@[simp] theorem servedFor_mainPower (s : State) (i la : Nat) : (s.servedFor i la).mainPower = s.mainPower := rfl
@[simp] theorem servedFor_firmware (s : State) (i la : Nat) : (s.servedFor i la).firmware = s.firmware := rfl
@[simp] theorem servedFor_tests (s : State) (i la : Nat) : (s.servedFor i la).tests = s.tests := rfl
@[simp] theorem servedFor_aside (s : State) (i la : Nat) : (s.servedFor i la).aside = s.aside := rfl
@[simp] theorem servedFor_nvRetired (s : State) (i la : Nat) : (s.servedFor i la).nvRetired = s.nvRetired := rfl
@[simp] theorem servedFor_bootRetired (s : State) (i la : Nat) : (s.servedFor i la).bootRetired = s.bootRetired := rfl
@[simp] theorem servedFor_bootDue (s : State) (i la : Nat) : (s.servedFor i la).bootDue = s.bootDue := rfl
@[simp] theorem servedFor_reply (s : State) (i la : Nat) : (s.servedFor i la).reply = s.reply := rfl
@[simp] theorem servedFor_answer (s : State) (i la : Nat) : (s.servedFor i la).answer = s.answer := rfl
@[simp] theorem servedFor_bootCycle (s : State) (i la : Nat) : (s.servedFor i la).bootCycle = s.bootCycle := rfl
@[simp] theorem servedFor_halting (s : State) (i la : Nat) : (s.servedFor i la).halting = s.halting := rfl
@[simp] theorem servedFor_linksDown (s : State) (i la : Nat) : (s.servedFor i la).linksDown = s.linksDown := rfl
@[simp] theorem servedFor_cfails (s : State) (i la : Nat) : (s.servedFor i la).cfails = s.cfails := rfl
@[simp] theorem servedFor_due (s : State) (i la : Nat) : (s.servedFor i la).due = s.due := rfl
@[simp] theorem servedFor_pkid (s : State) (i la : Nat) : (s.servedFor i la).pkid = s.pkid := rfl
@[simp] theorem servedFor_served (s : State) (i la : Nat) : (s.servedFor i la).served = s.served := rfl
@[simp] theorem servedFor_nextLaunch (s : State) (i la : Nat) : (s.servedFor i la).nextLaunch = s.nextLaunch := rfl
@[simp] theorem servedFor_nextId (s : State) (i la : Nat) : (s.servedFor i la).nextId = s.nextId := rfl
@[simp] theorem servedFor_freeCtr (s : State) (i la : Nat) : (s.servedFor i la).freeCtr = s.freeCtr := rfl
@[simp] theorem servedFor_agenda (s : State) (i la : Nat) : (s.servedFor i la).agenda = s.agenda := rfl
@[simp] theorem servedFor_issue (s : State) (i la : Nat) : (s.servedFor i la).issue = s.issue := rfl
@[simp] theorem servedFor_fx (s : State) (i la : Nat) : (s.servedFor i la).fx = s.fx := rfl
@[simp] theorem servedFor_sel (s : State) (i la : Nat) : (s.servedFor i la).sel = s.sel := rfl
@[simp] theorem servedFor_slotMate (s : State) (i la : Nat) : (s.servedFor i la).slotMate = s.slotMate := rfl
@[simp] theorem servedFor_turn (s : State) (i la : Nat) : (s.servedFor i la).turn = s.turn := rfl

/-! ### servedAs -/

@[simp] theorem servedAs_hw (s : State) (i c : Nat) : (s.servedAs i c).hw = s.hw := rfl
@[simp] theorem servedAs_cycle (s : State) (i c : Nat) : (s.servedAs i c).cycle = s.cycle := rfl
@[simp] theorem servedAs_mem (s : State) (i c : Nat) : (s.servedAs i c).mem = s.mem := rfl
@[simp] theorem servedAs_stage (s : State) (i c : Nat) : (s.servedAs i c).stage = s.stage := rfl
@[simp] theorem servedAs_badWords (s : State) (i c : Nat) : (s.servedAs i c).badWords = s.badWords := rfl
@[simp] theorem servedAs_l2 (s : State) (i c : Nat) : (s.servedAs i c).l2 = s.l2 := rfl
@[simp] theorem servedAs_rdc (s : State) (i c : Nat) : (s.servedAs i c).rdc = s.rdc := rfl
@[simp] theorem servedAs_owners (s : State) (i c : Nat) : (s.servedAs i c).owners = s.owners := rfl
@[simp] theorem servedAs_sectors (s : State) (i c : Nat) : (s.servedAs i c).sectors = s.sectors := rfl
@[simp] theorem servedAs_recent (s : State) (i c : Nat) : (s.servedAs i c).recent = s.recent := rfl
@[simp] theorem servedAs_spoilt (s : State) (i c : Nat) : (s.servedAs i c).spoilt = s.spoilt := rfl
@[simp] theorem servedAs_locks (s : State) (i c : Nat) : (s.servedAs i c).locks = s.locks := rfl
@[simp] theorem servedAs_waiting (s : State) (i c : Nat) : (s.servedAs i c).waiting = s.waiting := rfl
@[simp] theorem servedAs_loads (s : State) (i c : Nat) : (s.servedAs i c).loads = s.loads := rfl
@[simp] theorem servedAs_stores (s : State) (i c : Nat) : (s.servedAs i c).stores = s.stores := rfl
@[simp] theorem servedAs_atomics (s : State) (i c : Nat) : (s.servedAs i c).atomics = s.atomics := rfl
@[simp] theorem servedAs_reds (s : State) (i c : Nat) : (s.servedAs i c).reds = s.reds := rfl
@[simp] theorem servedAs_cmds (s : State) (i c : Nat) : (s.servedAs i c).cmds = s.cmds := rfl
@[simp] theorem servedAs_arrivals (s : State) (i c : Nat) : (s.servedAs i c).arrivals = s.arrivals := rfl
@[simp] theorem servedAs_tlbInvs (s : State) (i c : Nat) : (s.servedAs i c).tlbInvs = s.tlbInvs := rfl
@[simp] theorem servedAs_markers (s : State) (i c : Nat) : (s.servedAs i c).markers = s.markers := rfl
@[simp] theorem servedAs_cores (s : State) (i c : Nat) : (s.servedAs i c).cores = s.cores := rfl
@[simp] theorem servedAs_launches (s : State) (i c : Nat) : (s.servedAs i c).launches = s.launches := rfl
@[simp] theorem servedAs_queues (s : State) (i c : Nat) : (s.servedAs i c).queues = s.queues := rfl
@[simp] theorem servedAs_kernels (s : State) (i c : Nat) : (s.servedAs i c).kernels = s.kernels := rfl
@[simp] theorem servedAs_kseSerials (s : State) (i c : Nat) : (s.servedAs i c).kseSerials = s.kseSerials := rfl
@[simp] theorem servedAs_win (s : State) (i c : Nat) : (s.servedAs i c).win = s.win := rfl
@[simp] theorem servedAs_units (s : State) (i c : Nat) : (s.servedAs i c).units = s.units := rfl
@[simp] theorem servedAs_migrations (s : State) (i c : Nat) : (s.servedAs i c).migrations = s.migrations := rfl
@[simp] theorem servedAs_alerts (s : State) (i c : Nat) : (s.servedAs i c).alerts = s.alerts := rfl
@[simp] theorem servedAs_mainPower (s : State) (i c : Nat) : (s.servedAs i c).mainPower = s.mainPower := rfl
@[simp] theorem servedAs_firmware (s : State) (i c : Nat) : (s.servedAs i c).firmware = s.firmware := rfl
@[simp] theorem servedAs_tests (s : State) (i c : Nat) : (s.servedAs i c).tests = s.tests := rfl
@[simp] theorem servedAs_aside (s : State) (i c : Nat) : (s.servedAs i c).aside = s.aside := rfl
@[simp] theorem servedAs_nvRetired (s : State) (i c : Nat) : (s.servedAs i c).nvRetired = s.nvRetired := rfl
@[simp] theorem servedAs_bootRetired (s : State) (i c : Nat) : (s.servedAs i c).bootRetired = s.bootRetired := rfl
@[simp] theorem servedAs_bootDue (s : State) (i c : Nat) : (s.servedAs i c).bootDue = s.bootDue := rfl
@[simp] theorem servedAs_reply (s : State) (i c : Nat) : (s.servedAs i c).reply = s.reply := rfl
@[simp] theorem servedAs_answer (s : State) (i c : Nat) : (s.servedAs i c).answer = s.answer := rfl
@[simp] theorem servedAs_bootCycle (s : State) (i c : Nat) : (s.servedAs i c).bootCycle = s.bootCycle := rfl
@[simp] theorem servedAs_halting (s : State) (i c : Nat) : (s.servedAs i c).halting = s.halting := rfl
@[simp] theorem servedAs_linksDown (s : State) (i c : Nat) : (s.servedAs i c).linksDown = s.linksDown := rfl
@[simp] theorem servedAs_cfails (s : State) (i c : Nat) : (s.servedAs i c).cfails = s.cfails := rfl
@[simp] theorem servedAs_due (s : State) (i c : Nat) : (s.servedAs i c).due = s.due := rfl
@[simp] theorem servedAs_pkid (s : State) (i c : Nat) : (s.servedAs i c).pkid = s.pkid := rfl
@[simp] theorem servedAs_served (s : State) (i c : Nat) : (s.servedAs i c).served = s.served := rfl
@[simp] theorem servedAs_nextLaunch (s : State) (i c : Nat) : (s.servedAs i c).nextLaunch = s.nextLaunch := rfl
@[simp] theorem servedAs_nextId (s : State) (i c : Nat) : (s.servedAs i c).nextId = s.nextId := rfl
@[simp] theorem servedAs_freeCtr (s : State) (i c : Nat) : (s.servedAs i c).freeCtr = s.freeCtr := rfl
@[simp] theorem servedAs_agenda (s : State) (i c : Nat) : (s.servedAs i c).agenda = s.agenda := rfl
@[simp] theorem servedAs_issue (s : State) (i c : Nat) : (s.servedAs i c).issue = s.issue := rfl
@[simp] theorem servedAs_fx (s : State) (i c : Nat) : (s.servedAs i c).fx = s.fx := rfl
@[simp] theorem servedAs_sel (s : State) (i c : Nat) : (s.servedAs i c).sel = s.sel := rfl
@[simp] theorem servedAs_slotMate (s : State) (i c : Nat) : (s.servedAs i c).slotMate = s.slotMate := rfl
@[simp] theorem servedAs_turn (s : State) (i c : Nat) : (s.servedAs i c).turn = s.turn := rfl

/-! ### unlock -/

@[simp] theorem unlock_hw (s : State) (h : Nat) : (s.unlock h).hw = s.hw := rfl
@[simp] theorem unlock_cycle (s : State) (h : Nat) : (s.unlock h).cycle = s.cycle := rfl
@[simp] theorem unlock_mem (s : State) (h : Nat) : (s.unlock h).mem = s.mem := rfl
@[simp] theorem unlock_stage (s : State) (h : Nat) : (s.unlock h).stage = s.stage := rfl
@[simp] theorem unlock_badWords (s : State) (h : Nat) : (s.unlock h).badWords = s.badWords := rfl
@[simp] theorem unlock_l2 (s : State) (h : Nat) : (s.unlock h).l2 = s.l2 := rfl
@[simp] theorem unlock_rdc (s : State) (h : Nat) : (s.unlock h).rdc = s.rdc := rfl
@[simp] theorem unlock_owners (s : State) (h : Nat) : (s.unlock h).owners = s.owners := rfl
@[simp] theorem unlock_sectors (s : State) (h : Nat) : (s.unlock h).sectors = s.sectors := rfl
@[simp] theorem unlock_recent (s : State) (h : Nat) : (s.unlock h).recent = s.recent := rfl
@[simp] theorem unlock_spoilt (s : State) (h : Nat) : (s.unlock h).spoilt = s.spoilt := rfl
@[simp] theorem unlock_waiting (s : State) (h : Nat) : (s.unlock h).waiting = s.waiting := rfl
@[simp] theorem unlock_loads (s : State) (h : Nat) : (s.unlock h).loads = s.loads := rfl
@[simp] theorem unlock_stores (s : State) (h : Nat) : (s.unlock h).stores = s.stores := rfl
@[simp] theorem unlock_atomics (s : State) (h : Nat) : (s.unlock h).atomics = s.atomics := rfl
@[simp] theorem unlock_reds (s : State) (h : Nat) : (s.unlock h).reds = s.reds := rfl
@[simp] theorem unlock_cmds (s : State) (h : Nat) : (s.unlock h).cmds = s.cmds := rfl
@[simp] theorem unlock_arrivals (s : State) (h : Nat) : (s.unlock h).arrivals = s.arrivals := rfl
@[simp] theorem unlock_tlbInvs (s : State) (h : Nat) : (s.unlock h).tlbInvs = s.tlbInvs := rfl
@[simp] theorem unlock_markers (s : State) (h : Nat) : (s.unlock h).markers = s.markers := rfl
@[simp] theorem unlock_cores (s : State) (h : Nat) : (s.unlock h).cores = s.cores := rfl
@[simp] theorem unlock_launches (s : State) (h : Nat) : (s.unlock h).launches = s.launches := rfl
@[simp] theorem unlock_queues (s : State) (h : Nat) : (s.unlock h).queues = s.queues := rfl
@[simp] theorem unlock_kernels (s : State) (h : Nat) : (s.unlock h).kernels = s.kernels := rfl
@[simp] theorem unlock_kseSerials (s : State) (h : Nat) : (s.unlock h).kseSerials = s.kseSerials := rfl
@[simp] theorem unlock_win (s : State) (h : Nat) : (s.unlock h).win = s.win := rfl
@[simp] theorem unlock_units (s : State) (h : Nat) : (s.unlock h).units = s.units := rfl
@[simp] theorem unlock_by_ (s : State) (h : Nat) : (s.unlock h).by_ = s.by_ := rfl
@[simp] theorem unlock_migrations (s : State) (h : Nat) : (s.unlock h).migrations = s.migrations := rfl
@[simp] theorem unlock_alerts (s : State) (h : Nat) : (s.unlock h).alerts = s.alerts := rfl
@[simp] theorem unlock_mainPower (s : State) (h : Nat) : (s.unlock h).mainPower = s.mainPower := rfl
@[simp] theorem unlock_firmware (s : State) (h : Nat) : (s.unlock h).firmware = s.firmware := rfl
@[simp] theorem unlock_tests (s : State) (h : Nat) : (s.unlock h).tests = s.tests := rfl
@[simp] theorem unlock_aside (s : State) (h : Nat) : (s.unlock h).aside = s.aside := rfl
@[simp] theorem unlock_nvRetired (s : State) (h : Nat) : (s.unlock h).nvRetired = s.nvRetired := rfl
@[simp] theorem unlock_bootRetired (s : State) (h : Nat) : (s.unlock h).bootRetired = s.bootRetired := rfl
@[simp] theorem unlock_bootDue (s : State) (h : Nat) : (s.unlock h).bootDue = s.bootDue := rfl
@[simp] theorem unlock_reply (s : State) (h : Nat) : (s.unlock h).reply = s.reply := rfl
@[simp] theorem unlock_answer (s : State) (h : Nat) : (s.unlock h).answer = s.answer := rfl
@[simp] theorem unlock_bootCycle (s : State) (h : Nat) : (s.unlock h).bootCycle = s.bootCycle := rfl
@[simp] theorem unlock_halting (s : State) (h : Nat) : (s.unlock h).halting = s.halting := rfl
@[simp] theorem unlock_linksDown (s : State) (h : Nat) : (s.unlock h).linksDown = s.linksDown := rfl
@[simp] theorem unlock_cfails (s : State) (h : Nat) : (s.unlock h).cfails = s.cfails := rfl
@[simp] theorem unlock_due (s : State) (h : Nat) : (s.unlock h).due = s.due := rfl
@[simp] theorem unlock_pkid (s : State) (h : Nat) : (s.unlock h).pkid = s.pkid := rfl
@[simp] theorem unlock_served (s : State) (h : Nat) : (s.unlock h).served = s.served := rfl
@[simp] theorem unlock_nextLaunch (s : State) (h : Nat) : (s.unlock h).nextLaunch = s.nextLaunch := rfl
@[simp] theorem unlock_nextId (s : State) (h : Nat) : (s.unlock h).nextId = s.nextId := rfl
@[simp] theorem unlock_freeCtr (s : State) (h : Nat) : (s.unlock h).freeCtr = s.freeCtr := rfl
@[simp] theorem unlock_agenda (s : State) (h : Nat) : (s.unlock h).agenda = s.agenda := rfl
@[simp] theorem unlock_issue (s : State) (h : Nat) : (s.unlock h).issue = s.issue := rfl
@[simp] theorem unlock_fx (s : State) (h : Nat) : (s.unlock h).fx = s.fx := rfl
@[simp] theorem unlock_sel (s : State) (h : Nat) : (s.unlock h).sel = s.sel := rfl
@[simp] theorem unlock_slotMate (s : State) (h : Nat) : (s.unlock h).slotMate = s.slotMate := rfl
@[simp] theorem unlock_turn (s : State) (h : Nat) : (s.unlock h).turn = s.turn := rfl

/-! ### dropStore -/

@[simp] theorem dropStore_hw (s : State) (i : Nat) : (s.dropStore i).hw = s.hw := rfl
@[simp] theorem dropStore_cycle (s : State) (i : Nat) : (s.dropStore i).cycle = s.cycle := rfl
@[simp] theorem dropStore_mem (s : State) (i : Nat) : (s.dropStore i).mem = s.mem := rfl
@[simp] theorem dropStore_stage (s : State) (i : Nat) : (s.dropStore i).stage = s.stage := rfl
@[simp] theorem dropStore_badWords (s : State) (i : Nat) : (s.dropStore i).badWords = s.badWords := rfl
@[simp] theorem dropStore_l2 (s : State) (i : Nat) : (s.dropStore i).l2 = s.l2 := rfl
@[simp] theorem dropStore_rdc (s : State) (i : Nat) : (s.dropStore i).rdc = s.rdc := rfl
@[simp] theorem dropStore_owners (s : State) (i : Nat) : (s.dropStore i).owners = s.owners := rfl
@[simp] theorem dropStore_sectors (s : State) (i : Nat) : (s.dropStore i).sectors = s.sectors := rfl
@[simp] theorem dropStore_recent (s : State) (i : Nat) : (s.dropStore i).recent = s.recent := rfl
@[simp] theorem dropStore_spoilt (s : State) (i : Nat) : (s.dropStore i).spoilt = s.spoilt := rfl
@[simp] theorem dropStore_locks (s : State) (i : Nat) : (s.dropStore i).locks = s.locks := rfl
@[simp] theorem dropStore_waiting (s : State) (i : Nat) : (s.dropStore i).waiting = s.waiting := rfl
@[simp] theorem dropStore_loads (s : State) (i : Nat) : (s.dropStore i).loads = s.loads := rfl
@[simp] theorem dropStore_atomics (s : State) (i : Nat) : (s.dropStore i).atomics = s.atomics := rfl
@[simp] theorem dropStore_reds (s : State) (i : Nat) : (s.dropStore i).reds = s.reds := rfl
@[simp] theorem dropStore_cmds (s : State) (i : Nat) : (s.dropStore i).cmds = s.cmds := rfl
@[simp] theorem dropStore_arrivals (s : State) (i : Nat) : (s.dropStore i).arrivals = s.arrivals := rfl
@[simp] theorem dropStore_tlbInvs (s : State) (i : Nat) : (s.dropStore i).tlbInvs = s.tlbInvs := rfl
@[simp] theorem dropStore_markers (s : State) (i : Nat) : (s.dropStore i).markers = s.markers := rfl
@[simp] theorem dropStore_cores (s : State) (i : Nat) : (s.dropStore i).cores = s.cores := rfl
@[simp] theorem dropStore_launches (s : State) (i : Nat) : (s.dropStore i).launches = s.launches := rfl
@[simp] theorem dropStore_queues (s : State) (i : Nat) : (s.dropStore i).queues = s.queues := rfl
@[simp] theorem dropStore_kernels (s : State) (i : Nat) : (s.dropStore i).kernels = s.kernels := rfl
@[simp] theorem dropStore_kseSerials (s : State) (i : Nat) : (s.dropStore i).kseSerials = s.kseSerials := rfl
@[simp] theorem dropStore_win (s : State) (i : Nat) : (s.dropStore i).win = s.win := rfl
@[simp] theorem dropStore_units (s : State) (i : Nat) : (s.dropStore i).units = s.units := rfl
@[simp] theorem dropStore_by_ (s : State) (i : Nat) : (s.dropStore i).by_ = s.by_ := rfl
@[simp] theorem dropStore_migrations (s : State) (i : Nat) : (s.dropStore i).migrations = s.migrations := rfl
@[simp] theorem dropStore_alerts (s : State) (i : Nat) : (s.dropStore i).alerts = s.alerts := rfl
@[simp] theorem dropStore_mainPower (s : State) (i : Nat) : (s.dropStore i).mainPower = s.mainPower := rfl
@[simp] theorem dropStore_firmware (s : State) (i : Nat) : (s.dropStore i).firmware = s.firmware := rfl
@[simp] theorem dropStore_tests (s : State) (i : Nat) : (s.dropStore i).tests = s.tests := rfl
@[simp] theorem dropStore_aside (s : State) (i : Nat) : (s.dropStore i).aside = s.aside := rfl
@[simp] theorem dropStore_nvRetired (s : State) (i : Nat) : (s.dropStore i).nvRetired = s.nvRetired := rfl
@[simp] theorem dropStore_bootRetired (s : State) (i : Nat) : (s.dropStore i).bootRetired = s.bootRetired := rfl
@[simp] theorem dropStore_bootDue (s : State) (i : Nat) : (s.dropStore i).bootDue = s.bootDue := rfl
@[simp] theorem dropStore_reply (s : State) (i : Nat) : (s.dropStore i).reply = s.reply := rfl
@[simp] theorem dropStore_answer (s : State) (i : Nat) : (s.dropStore i).answer = s.answer := rfl
@[simp] theorem dropStore_bootCycle (s : State) (i : Nat) : (s.dropStore i).bootCycle = s.bootCycle := rfl
@[simp] theorem dropStore_halting (s : State) (i : Nat) : (s.dropStore i).halting = s.halting := rfl
@[simp] theorem dropStore_linksDown (s : State) (i : Nat) : (s.dropStore i).linksDown = s.linksDown := rfl
@[simp] theorem dropStore_cfails (s : State) (i : Nat) : (s.dropStore i).cfails = s.cfails := rfl
@[simp] theorem dropStore_due (s : State) (i : Nat) : (s.dropStore i).due = s.due := rfl
@[simp] theorem dropStore_pkid (s : State) (i : Nat) : (s.dropStore i).pkid = s.pkid := rfl
@[simp] theorem dropStore_served (s : State) (i : Nat) : (s.dropStore i).served = s.served := rfl
@[simp] theorem dropStore_nextLaunch (s : State) (i : Nat) : (s.dropStore i).nextLaunch = s.nextLaunch := rfl
@[simp] theorem dropStore_nextId (s : State) (i : Nat) : (s.dropStore i).nextId = s.nextId := rfl
@[simp] theorem dropStore_freeCtr (s : State) (i : Nat) : (s.dropStore i).freeCtr = s.freeCtr := rfl
@[simp] theorem dropStore_agenda (s : State) (i : Nat) : (s.dropStore i).agenda = s.agenda := rfl
@[simp] theorem dropStore_issue (s : State) (i : Nat) : (s.dropStore i).issue = s.issue := rfl
@[simp] theorem dropStore_fx (s : State) (i : Nat) : (s.dropStore i).fx = s.fx := rfl
@[simp] theorem dropStore_sel (s : State) (i : Nat) : (s.dropStore i).sel = s.sel := rfl
@[simp] theorem dropStore_slotMate (s : State) (i : Nat) : (s.dropStore i).slotMate = s.slotMate := rfl
@[simp] theorem dropStore_turn (s : State) (i : Nat) : (s.dropStore i).turn = s.turn := rfl

/-! ### failWrite -/

@[simp] theorem failWrite_hw (s : State) (la pa : Nat) : (s.failWrite la pa).hw = s.hw := by unfold State.failWrite; split <;> rfl
@[simp] theorem failWrite_cycle (s : State) (la pa : Nat) : (s.failWrite la pa).cycle = s.cycle := by unfold State.failWrite; split <;> rfl
@[simp] theorem failWrite_mem (s : State) (la pa : Nat) : (s.failWrite la pa).mem = s.mem := by unfold State.failWrite; split <;> rfl
@[simp] theorem failWrite_stage (s : State) (la pa : Nat) : (s.failWrite la pa).stage = s.stage := by unfold State.failWrite; split <;> rfl
@[simp] theorem failWrite_badWords (s : State) (la pa : Nat) : (s.failWrite la pa).badWords = s.badWords := by unfold State.failWrite; split <;> rfl
@[simp] theorem failWrite_l2 (s : State) (la pa : Nat) : (s.failWrite la pa).l2 = s.l2 := by unfold State.failWrite; split <;> rfl
@[simp] theorem failWrite_rdc (s : State) (la pa : Nat) : (s.failWrite la pa).rdc = s.rdc := by unfold State.failWrite; split <;> rfl
@[simp] theorem failWrite_owners (s : State) (la pa : Nat) : (s.failWrite la pa).owners = s.owners := by unfold State.failWrite; split <;> rfl
@[simp] theorem failWrite_sectors (s : State) (la pa : Nat) : (s.failWrite la pa).sectors = s.sectors := by unfold State.failWrite; split <;> rfl
@[simp] theorem failWrite_recent (s : State) (la pa : Nat) : (s.failWrite la pa).recent = s.recent := by unfold State.failWrite; split <;> rfl
@[simp] theorem failWrite_spoilt (s : State) (la pa : Nat) : (s.failWrite la pa).spoilt = s.spoilt := by unfold State.failWrite; split <;> rfl
@[simp] theorem failWrite_locks (s : State) (la pa : Nat) : (s.failWrite la pa).locks = s.locks := by unfold State.failWrite; split <;> rfl
@[simp] theorem failWrite_waiting (s : State) (la pa : Nat) : (s.failWrite la pa).waiting = s.waiting := by unfold State.failWrite; split <;> rfl
@[simp] theorem failWrite_loads (s : State) (la pa : Nat) : (s.failWrite la pa).loads = s.loads := by unfold State.failWrite; split <;> rfl
@[simp] theorem failWrite_stores (s : State) (la pa : Nat) : (s.failWrite la pa).stores = s.stores := by unfold State.failWrite; split <;> rfl
@[simp] theorem failWrite_atomics (s : State) (la pa : Nat) : (s.failWrite la pa).atomics = s.atomics := by unfold State.failWrite; split <;> rfl
@[simp] theorem failWrite_reds (s : State) (la pa : Nat) : (s.failWrite la pa).reds = s.reds := by unfold State.failWrite; split <;> rfl
@[simp] theorem failWrite_cmds (s : State) (la pa : Nat) : (s.failWrite la pa).cmds = s.cmds := by unfold State.failWrite; split <;> rfl
@[simp] theorem failWrite_arrivals (s : State) (la pa : Nat) : (s.failWrite la pa).arrivals = s.arrivals := by unfold State.failWrite; split <;> rfl
@[simp] theorem failWrite_tlbInvs (s : State) (la pa : Nat) : (s.failWrite la pa).tlbInvs = s.tlbInvs := by unfold State.failWrite; split <;> rfl
@[simp] theorem failWrite_markers (s : State) (la pa : Nat) : (s.failWrite la pa).markers = s.markers := by unfold State.failWrite; split <;> rfl
@[simp] theorem failWrite_cores (s : State) (la pa : Nat) : (s.failWrite la pa).cores = s.cores := by unfold State.failWrite; split <;> rfl
@[simp] theorem failWrite_launches (s : State) (la pa : Nat) : (s.failWrite la pa).launches = s.launches := by unfold State.failWrite; split <;> rfl
@[simp] theorem failWrite_queues (s : State) (la pa : Nat) : (s.failWrite la pa).queues = s.queues := by unfold State.failWrite; split <;> rfl
@[simp] theorem failWrite_kernels (s : State) (la pa : Nat) : (s.failWrite la pa).kernels = s.kernels := by unfold State.failWrite; split <;> rfl
@[simp] theorem failWrite_kseSerials (s : State) (la pa : Nat) : (s.failWrite la pa).kseSerials = s.kseSerials := by unfold State.failWrite; split <;> rfl
@[simp] theorem failWrite_win (s : State) (la pa : Nat) : (s.failWrite la pa).win = s.win := by unfold State.failWrite; split <;> rfl
@[simp] theorem failWrite_units (s : State) (la pa : Nat) : (s.failWrite la pa).units = s.units := by unfold State.failWrite; split <;> rfl
@[simp] theorem failWrite_by_ (s : State) (la pa : Nat) : (s.failWrite la pa).by_ = s.by_ := by unfold State.failWrite; split <;> rfl
@[simp] theorem failWrite_migrations (s : State) (la pa : Nat) : (s.failWrite la pa).migrations = s.migrations := by unfold State.failWrite; split <;> rfl
@[simp] theorem failWrite_alerts (s : State) (la pa : Nat) : (s.failWrite la pa).alerts = s.alerts := by unfold State.failWrite; split <;> rfl
@[simp] theorem failWrite_mainPower (s : State) (la pa : Nat) : (s.failWrite la pa).mainPower = s.mainPower := by unfold State.failWrite; split <;> rfl
@[simp] theorem failWrite_firmware (s : State) (la pa : Nat) : (s.failWrite la pa).firmware = s.firmware := by unfold State.failWrite; split <;> rfl
@[simp] theorem failWrite_tests (s : State) (la pa : Nat) : (s.failWrite la pa).tests = s.tests := by unfold State.failWrite; split <;> rfl
@[simp] theorem failWrite_aside (s : State) (la pa : Nat) : (s.failWrite la pa).aside = s.aside := by unfold State.failWrite; split <;> rfl
@[simp] theorem failWrite_nvRetired (s : State) (la pa : Nat) : (s.failWrite la pa).nvRetired = s.nvRetired := by unfold State.failWrite; split <;> rfl
@[simp] theorem failWrite_bootRetired (s : State) (la pa : Nat) : (s.failWrite la pa).bootRetired = s.bootRetired := by unfold State.failWrite; split <;> rfl
@[simp] theorem failWrite_bootDue (s : State) (la pa : Nat) : (s.failWrite la pa).bootDue = s.bootDue := by unfold State.failWrite; split <;> rfl
@[simp] theorem failWrite_reply (s : State) (la pa : Nat) : (s.failWrite la pa).reply = s.reply := by unfold State.failWrite; split <;> rfl
@[simp] theorem failWrite_answer (s : State) (la pa : Nat) : (s.failWrite la pa).answer = s.answer := by unfold State.failWrite; split <;> rfl
@[simp] theorem failWrite_bootCycle (s : State) (la pa : Nat) : (s.failWrite la pa).bootCycle = s.bootCycle := by unfold State.failWrite; split <;> rfl
@[simp] theorem failWrite_halting (s : State) (la pa : Nat) : (s.failWrite la pa).halting = s.halting := by unfold State.failWrite; split <;> rfl
@[simp] theorem failWrite_linksDown (s : State) (la pa : Nat) : (s.failWrite la pa).linksDown = s.linksDown := by unfold State.failWrite; split <;> rfl
@[simp] theorem failWrite_cfails (s : State) (la pa : Nat) : (s.failWrite la pa).cfails = s.cfails := by unfold State.failWrite; split <;> rfl
@[simp] theorem failWrite_pkid (s : State) (la pa : Nat) : (s.failWrite la pa).pkid = s.pkid := by unfold State.failWrite; split <;> rfl
@[simp] theorem failWrite_served (s : State) (la pa : Nat) : (s.failWrite la pa).served = s.served := by unfold State.failWrite; split <;> rfl
@[simp] theorem failWrite_nextLaunch (s : State) (la pa : Nat) : (s.failWrite la pa).nextLaunch = s.nextLaunch := by unfold State.failWrite; split <;> rfl
@[simp] theorem failWrite_nextId (s : State) (la pa : Nat) : (s.failWrite la pa).nextId = s.nextId := by unfold State.failWrite; split <;> rfl
@[simp] theorem failWrite_freeCtr (s : State) (la pa : Nat) : (s.failWrite la pa).freeCtr = s.freeCtr := by unfold State.failWrite; split <;> rfl
@[simp] theorem failWrite_agenda (s : State) (la pa : Nat) : (s.failWrite la pa).agenda = s.agenda := by unfold State.failWrite; split <;> rfl
@[simp] theorem failWrite_issue (s : State) (la pa : Nat) : (s.failWrite la pa).issue = s.issue := by unfold State.failWrite; split <;> rfl
@[simp] theorem failWrite_fx (s : State) (la pa : Nat) : (s.failWrite la pa).fx = s.fx := by unfold State.failWrite; split <;> rfl
@[simp] theorem failWrite_sel (s : State) (la pa : Nat) : (s.failWrite la pa).sel = s.sel := by unfold State.failWrite; split <;> rfl
@[simp] theorem failWrite_slotMate (s : State) (la pa : Nat) : (s.failWrite la pa).slotMate = s.slotMate := by unfold State.failWrite; split <;> rfl
@[simp] theorem failWrite_turn (s : State) (la pa : Nat) : (s.failWrite la pa).turn = s.turn := by unfold State.failWrite; split <;> rfl

/-! ### request -/

@[simp] theorem request_hw (s : State) (pa : Nat) : (s.request pa).hw = s.hw := by unfold State.request; split <;> rfl
@[simp] theorem request_cycle (s : State) (pa : Nat) : (s.request pa).cycle = s.cycle := by unfold State.request; split <;> rfl
@[simp] theorem request_mem (s : State) (pa : Nat) : (s.request pa).mem = s.mem := by unfold State.request; split <;> rfl
@[simp] theorem request_stage (s : State) (pa : Nat) : (s.request pa).stage = s.stage := by unfold State.request; split <;> rfl
@[simp] theorem request_badWords (s : State) (pa : Nat) : (s.request pa).badWords = s.badWords := by unfold State.request; split <;> rfl
@[simp] theorem request_l2 (s : State) (pa : Nat) : (s.request pa).l2 = s.l2 := by unfold State.request; split <;> rfl
@[simp] theorem request_rdc (s : State) (pa : Nat) : (s.request pa).rdc = s.rdc := by unfold State.request; split <;> rfl
@[simp] theorem request_owners (s : State) (pa : Nat) : (s.request pa).owners = s.owners := by unfold State.request; split <;> rfl
@[simp] theorem request_sectors (s : State) (pa : Nat) : (s.request pa).sectors = s.sectors := by unfold State.request; split <;> rfl
@[simp] theorem request_recent (s : State) (pa : Nat) : (s.request pa).recent = s.recent := by unfold State.request; split <;> rfl
@[simp] theorem request_spoilt (s : State) (pa : Nat) : (s.request pa).spoilt = s.spoilt := by unfold State.request; split <;> rfl
@[simp] theorem request_locks (s : State) (pa : Nat) : (s.request pa).locks = s.locks := by unfold State.request; split <;> rfl
@[simp] theorem request_waiting (s : State) (pa : Nat) : (s.request pa).waiting = s.waiting := by unfold State.request; split <;> rfl
@[simp] theorem request_loads (s : State) (pa : Nat) : (s.request pa).loads = s.loads := by unfold State.request; split <;> rfl
@[simp] theorem request_stores (s : State) (pa : Nat) : (s.request pa).stores = s.stores := by unfold State.request; split <;> rfl
@[simp] theorem request_atomics (s : State) (pa : Nat) : (s.request pa).atomics = s.atomics := by unfold State.request; split <;> rfl
@[simp] theorem request_reds (s : State) (pa : Nat) : (s.request pa).reds = s.reds := by unfold State.request; split <;> rfl
@[simp] theorem request_cmds (s : State) (pa : Nat) : (s.request pa).cmds = s.cmds := by unfold State.request; split <;> rfl
@[simp] theorem request_arrivals (s : State) (pa : Nat) : (s.request pa).arrivals = s.arrivals := by unfold State.request; split <;> rfl
@[simp] theorem request_tlbInvs (s : State) (pa : Nat) : (s.request pa).tlbInvs = s.tlbInvs := by unfold State.request; split <;> rfl
@[simp] theorem request_markers (s : State) (pa : Nat) : (s.request pa).markers = s.markers := by unfold State.request; split <;> rfl
@[simp] theorem request_cores (s : State) (pa : Nat) : (s.request pa).cores = s.cores := by unfold State.request; split <;> rfl
@[simp] theorem request_launches (s : State) (pa : Nat) : (s.request pa).launches = s.launches := by unfold State.request; split <;> rfl
@[simp] theorem request_queues (s : State) (pa : Nat) : (s.request pa).queues = s.queues := by unfold State.request; split <;> rfl
@[simp] theorem request_kernels (s : State) (pa : Nat) : (s.request pa).kernels = s.kernels := by unfold State.request; split <;> rfl
@[simp] theorem request_kseSerials (s : State) (pa : Nat) : (s.request pa).kseSerials = s.kseSerials := by unfold State.request; split <;> rfl
@[simp] theorem request_win (s : State) (pa : Nat) : (s.request pa).win = s.win := by unfold State.request; split <;> rfl
@[simp] theorem request_by_ (s : State) (pa : Nat) : (s.request pa).by_ = s.by_ := by unfold State.request; split <;> rfl
@[simp] theorem request_migrations (s : State) (pa : Nat) : (s.request pa).migrations = s.migrations := by unfold State.request; split <;> rfl
@[simp] theorem request_alerts (s : State) (pa : Nat) : (s.request pa).alerts = s.alerts := by unfold State.request; split <;> rfl
@[simp] theorem request_mainPower (s : State) (pa : Nat) : (s.request pa).mainPower = s.mainPower := by unfold State.request; split <;> rfl
@[simp] theorem request_firmware (s : State) (pa : Nat) : (s.request pa).firmware = s.firmware := by unfold State.request; split <;> rfl
@[simp] theorem request_tests (s : State) (pa : Nat) : (s.request pa).tests = s.tests := by unfold State.request; split <;> rfl
@[simp] theorem request_aside (s : State) (pa : Nat) : (s.request pa).aside = s.aside := by unfold State.request; split <;> rfl
@[simp] theorem request_nvRetired (s : State) (pa : Nat) : (s.request pa).nvRetired = s.nvRetired := by unfold State.request; split <;> rfl
@[simp] theorem request_bootRetired (s : State) (pa : Nat) : (s.request pa).bootRetired = s.bootRetired := by unfold State.request; split <;> rfl
@[simp] theorem request_bootDue (s : State) (pa : Nat) : (s.request pa).bootDue = s.bootDue := by unfold State.request; split <;> rfl
@[simp] theorem request_reply (s : State) (pa : Nat) : (s.request pa).reply = s.reply := by unfold State.request; split <;> rfl
@[simp] theorem request_answer (s : State) (pa : Nat) : (s.request pa).answer = s.answer := by unfold State.request; split <;> rfl
@[simp] theorem request_bootCycle (s : State) (pa : Nat) : (s.request pa).bootCycle = s.bootCycle := by unfold State.request; split <;> rfl
@[simp] theorem request_halting (s : State) (pa : Nat) : (s.request pa).halting = s.halting := by unfold State.request; split <;> rfl
@[simp] theorem request_linksDown (s : State) (pa : Nat) : (s.request pa).linksDown = s.linksDown := by unfold State.request; split <;> rfl
@[simp] theorem request_cfails (s : State) (pa : Nat) : (s.request pa).cfails = s.cfails := by unfold State.request; split <;> rfl
@[simp] theorem request_due (s : State) (pa : Nat) : (s.request pa).due = s.due := by unfold State.request; split <;> rfl
@[simp] theorem request_pkid (s : State) (pa : Nat) : (s.request pa).pkid = s.pkid := by unfold State.request; split <;> rfl
@[simp] theorem request_served (s : State) (pa : Nat) : (s.request pa).served = s.served := by unfold State.request; split <;> rfl
@[simp] theorem request_nextLaunch (s : State) (pa : Nat) : (s.request pa).nextLaunch = s.nextLaunch := by unfold State.request; split <;> rfl
@[simp] theorem request_freeCtr (s : State) (pa : Nat) : (s.request pa).freeCtr = s.freeCtr := by unfold State.request; split <;> rfl
@[simp] theorem request_agenda (s : State) (pa : Nat) : (s.request pa).agenda = s.agenda := by unfold State.request; split <;> rfl
@[simp] theorem request_issue (s : State) (pa : Nat) : (s.request pa).issue = s.issue := by unfold State.request; split <;> rfl
@[simp] theorem request_fx (s : State) (pa : Nat) : (s.request pa).fx = s.fx := by unfold State.request; split <;> rfl
@[simp] theorem request_sel (s : State) (pa : Nat) : (s.request pa).sel = s.sel := by unfold State.request; split <;> rfl
@[simp] theorem request_slotMate (s : State) (pa : Nat) : (s.request pa).slotMate = s.slotMate := by unfold State.request; split <;> rfl
@[simp] theorem request_turn (s : State) (pa : Nat) : (s.request pa).turn = s.turn := by unfold State.request; split <;> rfl

/-! ### keepOld -/

@[simp] theorem keepOld_hw (s : State) (rq pa : Nat) (old : List Byte) (bad : List Nat) : (s.keepOld rq pa old bad).hw = s.hw := by unfold State.keepOld; split <;> rfl
@[simp] theorem keepOld_cycle (s : State) (rq pa : Nat) (old : List Byte) (bad : List Nat) : (s.keepOld rq pa old bad).cycle = s.cycle := by unfold State.keepOld; split <;> rfl
@[simp] theorem keepOld_mem (s : State) (rq pa : Nat) (old : List Byte) (bad : List Nat) : (s.keepOld rq pa old bad).mem = s.mem := by unfold State.keepOld; split <;> rfl
@[simp] theorem keepOld_stage (s : State) (rq pa : Nat) (old : List Byte) (bad : List Nat) : (s.keepOld rq pa old bad).stage = s.stage := by unfold State.keepOld; split <;> rfl
@[simp] theorem keepOld_badWords (s : State) (rq pa : Nat) (old : List Byte) (bad : List Nat) : (s.keepOld rq pa old bad).badWords = s.badWords := by unfold State.keepOld; split <;> rfl
@[simp] theorem keepOld_l2 (s : State) (rq pa : Nat) (old : List Byte) (bad : List Nat) : (s.keepOld rq pa old bad).l2 = s.l2 := by unfold State.keepOld; split <;> rfl
@[simp] theorem keepOld_rdc (s : State) (rq pa : Nat) (old : List Byte) (bad : List Nat) : (s.keepOld rq pa old bad).rdc = s.rdc := by unfold State.keepOld; split <;> rfl
@[simp] theorem keepOld_owners (s : State) (rq pa : Nat) (old : List Byte) (bad : List Nat) : (s.keepOld rq pa old bad).owners = s.owners := by unfold State.keepOld; split <;> rfl
@[simp] theorem keepOld_sectors (s : State) (rq pa : Nat) (old : List Byte) (bad : List Nat) : (s.keepOld rq pa old bad).sectors = s.sectors := by unfold State.keepOld; split <;> rfl
@[simp] theorem keepOld_recent (s : State) (rq pa : Nat) (old : List Byte) (bad : List Nat) : (s.keepOld rq pa old bad).recent = s.recent := by unfold State.keepOld; split <;> rfl
@[simp] theorem keepOld_spoilt (s : State) (rq pa : Nat) (old : List Byte) (bad : List Nat) : (s.keepOld rq pa old bad).spoilt = s.spoilt := by unfold State.keepOld; split <;> rfl
@[simp] theorem keepOld_locks (s : State) (rq pa : Nat) (old : List Byte) (bad : List Nat) : (s.keepOld rq pa old bad).locks = s.locks := by unfold State.keepOld; split <;> rfl
@[simp] theorem keepOld_waiting (s : State) (rq pa : Nat) (old : List Byte) (bad : List Nat) : (s.keepOld rq pa old bad).waiting = s.waiting := by unfold State.keepOld; split <;> rfl
@[simp] theorem keepOld_loads (s : State) (rq pa : Nat) (old : List Byte) (bad : List Nat) : (s.keepOld rq pa old bad).loads = s.loads := by unfold State.keepOld; split <;> rfl
@[simp] theorem keepOld_stores (s : State) (rq pa : Nat) (old : List Byte) (bad : List Nat) : (s.keepOld rq pa old bad).stores = s.stores := by unfold State.keepOld; split <;> rfl
@[simp] theorem keepOld_atomics (s : State) (rq pa : Nat) (old : List Byte) (bad : List Nat) : (s.keepOld rq pa old bad).atomics = s.atomics := by unfold State.keepOld; split <;> rfl
@[simp] theorem keepOld_reds (s : State) (rq pa : Nat) (old : List Byte) (bad : List Nat) : (s.keepOld rq pa old bad).reds = s.reds := by unfold State.keepOld; split <;> rfl
@[simp] theorem keepOld_cmds (s : State) (rq pa : Nat) (old : List Byte) (bad : List Nat) : (s.keepOld rq pa old bad).cmds = s.cmds := by unfold State.keepOld; split <;> rfl
@[simp] theorem keepOld_arrivals (s : State) (rq pa : Nat) (old : List Byte) (bad : List Nat) : (s.keepOld rq pa old bad).arrivals = s.arrivals := by unfold State.keepOld; split <;> rfl
@[simp] theorem keepOld_tlbInvs (s : State) (rq pa : Nat) (old : List Byte) (bad : List Nat) : (s.keepOld rq pa old bad).tlbInvs = s.tlbInvs := by unfold State.keepOld; split <;> rfl
@[simp] theorem keepOld_markers (s : State) (rq pa : Nat) (old : List Byte) (bad : List Nat) : (s.keepOld rq pa old bad).markers = s.markers := by unfold State.keepOld; split <;> rfl
@[simp] theorem keepOld_cores (s : State) (rq pa : Nat) (old : List Byte) (bad : List Nat) : (s.keepOld rq pa old bad).cores = s.cores := by unfold State.keepOld; split <;> rfl
@[simp] theorem keepOld_launches (s : State) (rq pa : Nat) (old : List Byte) (bad : List Nat) : (s.keepOld rq pa old bad).launches = s.launches := by unfold State.keepOld; split <;> rfl
@[simp] theorem keepOld_queues (s : State) (rq pa : Nat) (old : List Byte) (bad : List Nat) : (s.keepOld rq pa old bad).queues = s.queues := by unfold State.keepOld; split <;> rfl
@[simp] theorem keepOld_kernels (s : State) (rq pa : Nat) (old : List Byte) (bad : List Nat) : (s.keepOld rq pa old bad).kernels = s.kernels := by unfold State.keepOld; split <;> rfl
@[simp] theorem keepOld_kseSerials (s : State) (rq pa : Nat) (old : List Byte) (bad : List Nat) : (s.keepOld rq pa old bad).kseSerials = s.kseSerials := by unfold State.keepOld; split <;> rfl
@[simp] theorem keepOld_win (s : State) (rq pa : Nat) (old : List Byte) (bad : List Nat) : (s.keepOld rq pa old bad).win = s.win := by unfold State.keepOld; split <;> rfl
@[simp] theorem keepOld_by_ (s : State) (rq pa : Nat) (old : List Byte) (bad : List Nat) : (s.keepOld rq pa old bad).by_ = s.by_ := by unfold State.keepOld; split <;> rfl
@[simp] theorem keepOld_migrations (s : State) (rq pa : Nat) (old : List Byte) (bad : List Nat) : (s.keepOld rq pa old bad).migrations = s.migrations := by unfold State.keepOld; split <;> rfl
@[simp] theorem keepOld_alerts (s : State) (rq pa : Nat) (old : List Byte) (bad : List Nat) : (s.keepOld rq pa old bad).alerts = s.alerts := by unfold State.keepOld; split <;> rfl
@[simp] theorem keepOld_mainPower (s : State) (rq pa : Nat) (old : List Byte) (bad : List Nat) : (s.keepOld rq pa old bad).mainPower = s.mainPower := by unfold State.keepOld; split <;> rfl
@[simp] theorem keepOld_firmware (s : State) (rq pa : Nat) (old : List Byte) (bad : List Nat) : (s.keepOld rq pa old bad).firmware = s.firmware := by unfold State.keepOld; split <;> rfl
@[simp] theorem keepOld_tests (s : State) (rq pa : Nat) (old : List Byte) (bad : List Nat) : (s.keepOld rq pa old bad).tests = s.tests := by unfold State.keepOld; split <;> rfl
@[simp] theorem keepOld_aside (s : State) (rq pa : Nat) (old : List Byte) (bad : List Nat) : (s.keepOld rq pa old bad).aside = s.aside := by unfold State.keepOld; split <;> rfl
@[simp] theorem keepOld_nvRetired (s : State) (rq pa : Nat) (old : List Byte) (bad : List Nat) : (s.keepOld rq pa old bad).nvRetired = s.nvRetired := by unfold State.keepOld; split <;> rfl
@[simp] theorem keepOld_bootRetired (s : State) (rq pa : Nat) (old : List Byte) (bad : List Nat) : (s.keepOld rq pa old bad).bootRetired = s.bootRetired := by unfold State.keepOld; split <;> rfl
@[simp] theorem keepOld_bootDue (s : State) (rq pa : Nat) (old : List Byte) (bad : List Nat) : (s.keepOld rq pa old bad).bootDue = s.bootDue := by unfold State.keepOld; split <;> rfl
@[simp] theorem keepOld_reply (s : State) (rq pa : Nat) (old : List Byte) (bad : List Nat) : (s.keepOld rq pa old bad).reply = s.reply := by unfold State.keepOld; split <;> rfl
@[simp] theorem keepOld_answer (s : State) (rq pa : Nat) (old : List Byte) (bad : List Nat) : (s.keepOld rq pa old bad).answer = s.answer := by unfold State.keepOld; split <;> rfl
@[simp] theorem keepOld_bootCycle (s : State) (rq pa : Nat) (old : List Byte) (bad : List Nat) : (s.keepOld rq pa old bad).bootCycle = s.bootCycle := by unfold State.keepOld; split <;> rfl
@[simp] theorem keepOld_halting (s : State) (rq pa : Nat) (old : List Byte) (bad : List Nat) : (s.keepOld rq pa old bad).halting = s.halting := by unfold State.keepOld; split <;> rfl
@[simp] theorem keepOld_linksDown (s : State) (rq pa : Nat) (old : List Byte) (bad : List Nat) : (s.keepOld rq pa old bad).linksDown = s.linksDown := by unfold State.keepOld; split <;> rfl
@[simp] theorem keepOld_cfails (s : State) (rq pa : Nat) (old : List Byte) (bad : List Nat) : (s.keepOld rq pa old bad).cfails = s.cfails := by unfold State.keepOld; split <;> rfl
@[simp] theorem keepOld_due (s : State) (rq pa : Nat) (old : List Byte) (bad : List Nat) : (s.keepOld rq pa old bad).due = s.due := by unfold State.keepOld; split <;> rfl
@[simp] theorem keepOld_pkid (s : State) (rq pa : Nat) (old : List Byte) (bad : List Nat) : (s.keepOld rq pa old bad).pkid = s.pkid := by unfold State.keepOld; split <;> rfl
@[simp] theorem keepOld_served (s : State) (rq pa : Nat) (old : List Byte) (bad : List Nat) : (s.keepOld rq pa old bad).served = s.served := by unfold State.keepOld; split <;> rfl
@[simp] theorem keepOld_nextLaunch (s : State) (rq pa : Nat) (old : List Byte) (bad : List Nat) : (s.keepOld rq pa old bad).nextLaunch = s.nextLaunch := by unfold State.keepOld; split <;> rfl
@[simp] theorem keepOld_nextId (s : State) (rq pa : Nat) (old : List Byte) (bad : List Nat) : (s.keepOld rq pa old bad).nextId = s.nextId := by unfold State.keepOld; split <;> rfl
@[simp] theorem keepOld_freeCtr (s : State) (rq pa : Nat) (old : List Byte) (bad : List Nat) : (s.keepOld rq pa old bad).freeCtr = s.freeCtr := by unfold State.keepOld; split <;> rfl
@[simp] theorem keepOld_agenda (s : State) (rq pa : Nat) (old : List Byte) (bad : List Nat) : (s.keepOld rq pa old bad).agenda = s.agenda := by unfold State.keepOld; split <;> rfl
@[simp] theorem keepOld_issue (s : State) (rq pa : Nat) (old : List Byte) (bad : List Nat) : (s.keepOld rq pa old bad).issue = s.issue := by unfold State.keepOld; split <;> rfl
@[simp] theorem keepOld_fx (s : State) (rq pa : Nat) (old : List Byte) (bad : List Nat) : (s.keepOld rq pa old bad).fx = s.fx := by unfold State.keepOld; split <;> rfl
@[simp] theorem keepOld_sel (s : State) (rq pa : Nat) (old : List Byte) (bad : List Nat) : (s.keepOld rq pa old bad).sel = s.sel := by unfold State.keepOld; split <;> rfl
@[simp] theorem keepOld_slotMate (s : State) (rq pa : Nat) (old : List Byte) (bad : List Nat) : (s.keepOld rq pa old bad).slotMate = s.slotMate := by unfold State.keepOld; split <;> rfl
@[simp] theorem keepOld_turn (s : State) (rq pa : Nat) (old : List Byte) (bad : List Nat) : (s.keepOld rq pa old bad).turn = s.turn := by unfold State.keepOld; split <;> rfl

/-! ### dropTrace -/

@[simp] theorem dropTrace_hw (s : State) : (s.dropTrace).hw = s.hw := rfl
@[simp] theorem dropTrace_cycle (s : State) : (s.dropTrace).cycle = s.cycle := rfl
@[simp] theorem dropTrace_mem (s : State) : (s.dropTrace).mem = s.mem := rfl
@[simp] theorem dropTrace_stage (s : State) : (s.dropTrace).stage = s.stage := rfl
@[simp] theorem dropTrace_badWords (s : State) : (s.dropTrace).badWords = s.badWords := rfl
@[simp] theorem dropTrace_l2 (s : State) : (s.dropTrace).l2 = s.l2 := rfl
@[simp] theorem dropTrace_rdc (s : State) : (s.dropTrace).rdc = s.rdc := rfl
@[simp] theorem dropTrace_owners (s : State) : (s.dropTrace).owners = s.owners := rfl
@[simp] theorem dropTrace_sectors (s : State) : (s.dropTrace).sectors = s.sectors := rfl
@[simp] theorem dropTrace_recent (s : State) : (s.dropTrace).recent = s.recent := rfl
@[simp] theorem dropTrace_spoilt (s : State) : (s.dropTrace).spoilt = s.spoilt := rfl
@[simp] theorem dropTrace_locks (s : State) : (s.dropTrace).locks = s.locks := rfl
@[simp] theorem dropTrace_waiting (s : State) : (s.dropTrace).waiting = s.waiting := rfl
@[simp] theorem dropTrace_loads (s : State) : (s.dropTrace).loads = s.loads := rfl
@[simp] theorem dropTrace_stores (s : State) : (s.dropTrace).stores = s.stores := rfl
@[simp] theorem dropTrace_atomics (s : State) : (s.dropTrace).atomics = s.atomics := rfl
@[simp] theorem dropTrace_reds (s : State) : (s.dropTrace).reds = s.reds := rfl
@[simp] theorem dropTrace_cmds (s : State) : (s.dropTrace).cmds = s.cmds := rfl
@[simp] theorem dropTrace_arrivals (s : State) : (s.dropTrace).arrivals = s.arrivals := rfl
@[simp] theorem dropTrace_tlbInvs (s : State) : (s.dropTrace).tlbInvs = s.tlbInvs := rfl
@[simp] theorem dropTrace_markers (s : State) : (s.dropTrace).markers = s.markers := rfl
@[simp] theorem dropTrace_cores (s : State) : (s.dropTrace).cores = s.cores := rfl
@[simp] theorem dropTrace_launches (s : State) : (s.dropTrace).launches = s.launches := rfl
@[simp] theorem dropTrace_queues (s : State) : (s.dropTrace).queues = s.queues := rfl
@[simp] theorem dropTrace_kernels (s : State) : (s.dropTrace).kernels = s.kernels := rfl
@[simp] theorem dropTrace_kseSerials (s : State) : (s.dropTrace).kseSerials = s.kseSerials := rfl
@[simp] theorem dropTrace_units (s : State) : (s.dropTrace).units = s.units := rfl
@[simp] theorem dropTrace_by_ (s : State) : (s.dropTrace).by_ = s.by_ := rfl
@[simp] theorem dropTrace_migrations (s : State) : (s.dropTrace).migrations = s.migrations := rfl
@[simp] theorem dropTrace_alerts (s : State) : (s.dropTrace).alerts = s.alerts := rfl
@[simp] theorem dropTrace_mainPower (s : State) : (s.dropTrace).mainPower = s.mainPower := rfl
@[simp] theorem dropTrace_firmware (s : State) : (s.dropTrace).firmware = s.firmware := rfl
@[simp] theorem dropTrace_tests (s : State) : (s.dropTrace).tests = s.tests := rfl
@[simp] theorem dropTrace_aside (s : State) : (s.dropTrace).aside = s.aside := rfl
@[simp] theorem dropTrace_nvRetired (s : State) : (s.dropTrace).nvRetired = s.nvRetired := rfl
@[simp] theorem dropTrace_bootRetired (s : State) : (s.dropTrace).bootRetired = s.bootRetired := rfl
@[simp] theorem dropTrace_bootDue (s : State) : (s.dropTrace).bootDue = s.bootDue := rfl
@[simp] theorem dropTrace_reply (s : State) : (s.dropTrace).reply = s.reply := rfl
@[simp] theorem dropTrace_answer (s : State) : (s.dropTrace).answer = s.answer := rfl
@[simp] theorem dropTrace_bootCycle (s : State) : (s.dropTrace).bootCycle = s.bootCycle := rfl
@[simp] theorem dropTrace_halting (s : State) : (s.dropTrace).halting = s.halting := rfl
@[simp] theorem dropTrace_linksDown (s : State) : (s.dropTrace).linksDown = s.linksDown := rfl
@[simp] theorem dropTrace_cfails (s : State) : (s.dropTrace).cfails = s.cfails := rfl
@[simp] theorem dropTrace_due (s : State) : (s.dropTrace).due = s.due := rfl
@[simp] theorem dropTrace_pkid (s : State) : (s.dropTrace).pkid = s.pkid := rfl
@[simp] theorem dropTrace_served (s : State) : (s.dropTrace).served = s.served := rfl
@[simp] theorem dropTrace_nextLaunch (s : State) : (s.dropTrace).nextLaunch = s.nextLaunch := rfl
@[simp] theorem dropTrace_nextId (s : State) : (s.dropTrace).nextId = s.nextId := rfl
@[simp] theorem dropTrace_freeCtr (s : State) : (s.dropTrace).freeCtr = s.freeCtr := rfl
@[simp] theorem dropTrace_agenda (s : State) : (s.dropTrace).agenda = s.agenda := rfl
@[simp] theorem dropTrace_issue (s : State) : (s.dropTrace).issue = s.issue := rfl
@[simp] theorem dropTrace_fx (s : State) : (s.dropTrace).fx = s.fx := rfl
@[simp] theorem dropTrace_sel (s : State) : (s.dropTrace).sel = s.sel := rfl
@[simp] theorem dropTrace_slotMate (s : State) : (s.dropTrace).slotMate = s.slotMate := rfl
@[simp] theorem dropTrace_turn (s : State) : (s.dropTrace).turn = s.turn := rfl

/-! ### noteWrite -/

@[simp] theorem noteWrite_hw (s : State) (pa : Nat) : (s.noteWrite pa).hw = s.hw := rfl
@[simp] theorem noteWrite_cycle (s : State) (pa : Nat) : (s.noteWrite pa).cycle = s.cycle := rfl
@[simp] theorem noteWrite_mem (s : State) (pa : Nat) : (s.noteWrite pa).mem = s.mem := rfl
@[simp] theorem noteWrite_stage (s : State) (pa : Nat) : (s.noteWrite pa).stage = s.stage := rfl
@[simp] theorem noteWrite_badWords (s : State) (pa : Nat) : (s.noteWrite pa).badWords = s.badWords := rfl
@[simp] theorem noteWrite_l2 (s : State) (pa : Nat) : (s.noteWrite pa).l2 = s.l2 := rfl
@[simp] theorem noteWrite_rdc (s : State) (pa : Nat) : (s.noteWrite pa).rdc = s.rdc := rfl
@[simp] theorem noteWrite_owners (s : State) (pa : Nat) : (s.noteWrite pa).owners = s.owners := rfl
@[simp] theorem noteWrite_sectors (s : State) (pa : Nat) : (s.noteWrite pa).sectors = s.sectors := rfl
@[simp] theorem noteWrite_recent (s : State) (pa : Nat) : (s.noteWrite pa).recent = s.recent := rfl
@[simp] theorem noteWrite_spoilt (s : State) (pa : Nat) : (s.noteWrite pa).spoilt = s.spoilt := rfl
@[simp] theorem noteWrite_locks (s : State) (pa : Nat) : (s.noteWrite pa).locks = s.locks := rfl
@[simp] theorem noteWrite_waiting (s : State) (pa : Nat) : (s.noteWrite pa).waiting = s.waiting := rfl
@[simp] theorem noteWrite_loads (s : State) (pa : Nat) : (s.noteWrite pa).loads = s.loads := rfl
@[simp] theorem noteWrite_stores (s : State) (pa : Nat) : (s.noteWrite pa).stores = s.stores := rfl
@[simp] theorem noteWrite_atomics (s : State) (pa : Nat) : (s.noteWrite pa).atomics = s.atomics := rfl
@[simp] theorem noteWrite_reds (s : State) (pa : Nat) : (s.noteWrite pa).reds = s.reds := rfl
@[simp] theorem noteWrite_cmds (s : State) (pa : Nat) : (s.noteWrite pa).cmds = s.cmds := rfl
@[simp] theorem noteWrite_arrivals (s : State) (pa : Nat) : (s.noteWrite pa).arrivals = s.arrivals := rfl
@[simp] theorem noteWrite_tlbInvs (s : State) (pa : Nat) : (s.noteWrite pa).tlbInvs = s.tlbInvs := rfl
@[simp] theorem noteWrite_markers (s : State) (pa : Nat) : (s.noteWrite pa).markers = s.markers := rfl
@[simp] theorem noteWrite_cores (s : State) (pa : Nat) : (s.noteWrite pa).cores = s.cores := rfl
@[simp] theorem noteWrite_launches (s : State) (pa : Nat) : (s.noteWrite pa).launches = s.launches := rfl
@[simp] theorem noteWrite_queues (s : State) (pa : Nat) : (s.noteWrite pa).queues = s.queues := rfl
@[simp] theorem noteWrite_kernels (s : State) (pa : Nat) : (s.noteWrite pa).kernels = s.kernels := rfl
@[simp] theorem noteWrite_kseSerials (s : State) (pa : Nat) : (s.noteWrite pa).kseSerials = s.kseSerials := rfl
@[simp] theorem noteWrite_win (s : State) (pa : Nat) : (s.noteWrite pa).win = s.win := rfl
@[simp] theorem noteWrite_units (s : State) (pa : Nat) : (s.noteWrite pa).units = s.units := rfl
@[simp] theorem noteWrite_by_ (s : State) (pa : Nat) : (s.noteWrite pa).by_ = s.by_ := rfl
@[simp] theorem noteWrite_alerts (s : State) (pa : Nat) : (s.noteWrite pa).alerts = s.alerts := rfl
@[simp] theorem noteWrite_mainPower (s : State) (pa : Nat) : (s.noteWrite pa).mainPower = s.mainPower := rfl
@[simp] theorem noteWrite_firmware (s : State) (pa : Nat) : (s.noteWrite pa).firmware = s.firmware := rfl
@[simp] theorem noteWrite_tests (s : State) (pa : Nat) : (s.noteWrite pa).tests = s.tests := rfl
@[simp] theorem noteWrite_aside (s : State) (pa : Nat) : (s.noteWrite pa).aside = s.aside := rfl
@[simp] theorem noteWrite_nvRetired (s : State) (pa : Nat) : (s.noteWrite pa).nvRetired = s.nvRetired := rfl
@[simp] theorem noteWrite_bootRetired (s : State) (pa : Nat) : (s.noteWrite pa).bootRetired = s.bootRetired := rfl
@[simp] theorem noteWrite_bootDue (s : State) (pa : Nat) : (s.noteWrite pa).bootDue = s.bootDue := rfl
@[simp] theorem noteWrite_reply (s : State) (pa : Nat) : (s.noteWrite pa).reply = s.reply := rfl
@[simp] theorem noteWrite_answer (s : State) (pa : Nat) : (s.noteWrite pa).answer = s.answer := rfl
@[simp] theorem noteWrite_bootCycle (s : State) (pa : Nat) : (s.noteWrite pa).bootCycle = s.bootCycle := rfl
@[simp] theorem noteWrite_halting (s : State) (pa : Nat) : (s.noteWrite pa).halting = s.halting := rfl
@[simp] theorem noteWrite_linksDown (s : State) (pa : Nat) : (s.noteWrite pa).linksDown = s.linksDown := rfl
@[simp] theorem noteWrite_cfails (s : State) (pa : Nat) : (s.noteWrite pa).cfails = s.cfails := rfl
@[simp] theorem noteWrite_due (s : State) (pa : Nat) : (s.noteWrite pa).due = s.due := rfl
@[simp] theorem noteWrite_pkid (s : State) (pa : Nat) : (s.noteWrite pa).pkid = s.pkid := rfl
@[simp] theorem noteWrite_served (s : State) (pa : Nat) : (s.noteWrite pa).served = s.served := rfl
@[simp] theorem noteWrite_nextLaunch (s : State) (pa : Nat) : (s.noteWrite pa).nextLaunch = s.nextLaunch := rfl
@[simp] theorem noteWrite_nextId (s : State) (pa : Nat) : (s.noteWrite pa).nextId = s.nextId := rfl
@[simp] theorem noteWrite_freeCtr (s : State) (pa : Nat) : (s.noteWrite pa).freeCtr = s.freeCtr := rfl
@[simp] theorem noteWrite_agenda (s : State) (pa : Nat) : (s.noteWrite pa).agenda = s.agenda := rfl
@[simp] theorem noteWrite_issue (s : State) (pa : Nat) : (s.noteWrite pa).issue = s.issue := rfl
@[simp] theorem noteWrite_fx (s : State) (pa : Nat) : (s.noteWrite pa).fx = s.fx := rfl
@[simp] theorem noteWrite_sel (s : State) (pa : Nat) : (s.noteWrite pa).sel = s.sel := rfl
@[simp] theorem noteWrite_slotMate (s : State) (pa : Nat) : (s.noteWrite pa).slotMate = s.slotMate := rfl
@[simp] theorem noteWrite_turn (s : State) (pa : Nat) : (s.noteWrite pa).turn = s.turn := rfl

/-! ### putBytes -/

@[simp] theorem putBytes_hw (s : State) (pa : Nat) (bs : List Byte) : (s.putBytes pa bs).hw = s.hw := by unfold State.putBytes; split <;> rfl
@[simp] theorem putBytes_cycle (s : State) (pa : Nat) (bs : List Byte) : (s.putBytes pa bs).cycle = s.cycle := by unfold State.putBytes; split <;> rfl
@[simp] theorem putBytes_l2 (s : State) (pa : Nat) (bs : List Byte) : (s.putBytes pa bs).l2 = s.l2 := by unfold State.putBytes; split <;> rfl
@[simp] theorem putBytes_rdc (s : State) (pa : Nat) (bs : List Byte) : (s.putBytes pa bs).rdc = s.rdc := by unfold State.putBytes; split <;> rfl
@[simp] theorem putBytes_owners (s : State) (pa : Nat) (bs : List Byte) : (s.putBytes pa bs).owners = s.owners := by unfold State.putBytes; split <;> rfl
@[simp] theorem putBytes_sectors (s : State) (pa : Nat) (bs : List Byte) : (s.putBytes pa bs).sectors = s.sectors := by unfold State.putBytes; split <;> rfl
@[simp] theorem putBytes_recent (s : State) (pa : Nat) (bs : List Byte) : (s.putBytes pa bs).recent = s.recent := by unfold State.putBytes; split <;> rfl
@[simp] theorem putBytes_spoilt (s : State) (pa : Nat) (bs : List Byte) : (s.putBytes pa bs).spoilt = s.spoilt := by unfold State.putBytes; split <;> rfl
@[simp] theorem putBytes_locks (s : State) (pa : Nat) (bs : List Byte) : (s.putBytes pa bs).locks = s.locks := by unfold State.putBytes; split <;> rfl
@[simp] theorem putBytes_waiting (s : State) (pa : Nat) (bs : List Byte) : (s.putBytes pa bs).waiting = s.waiting := by unfold State.putBytes; split <;> rfl
@[simp] theorem putBytes_loads (s : State) (pa : Nat) (bs : List Byte) : (s.putBytes pa bs).loads = s.loads := by unfold State.putBytes; split <;> rfl
@[simp] theorem putBytes_stores (s : State) (pa : Nat) (bs : List Byte) : (s.putBytes pa bs).stores = s.stores := by unfold State.putBytes; split <;> rfl
@[simp] theorem putBytes_atomics (s : State) (pa : Nat) (bs : List Byte) : (s.putBytes pa bs).atomics = s.atomics := by unfold State.putBytes; split <;> rfl
@[simp] theorem putBytes_reds (s : State) (pa : Nat) (bs : List Byte) : (s.putBytes pa bs).reds = s.reds := by unfold State.putBytes; split <;> rfl
@[simp] theorem putBytes_cmds (s : State) (pa : Nat) (bs : List Byte) : (s.putBytes pa bs).cmds = s.cmds := by unfold State.putBytes; split <;> rfl
@[simp] theorem putBytes_arrivals (s : State) (pa : Nat) (bs : List Byte) : (s.putBytes pa bs).arrivals = s.arrivals := by unfold State.putBytes; split <;> rfl
@[simp] theorem putBytes_tlbInvs (s : State) (pa : Nat) (bs : List Byte) : (s.putBytes pa bs).tlbInvs = s.tlbInvs := by unfold State.putBytes; split <;> rfl
@[simp] theorem putBytes_markers (s : State) (pa : Nat) (bs : List Byte) : (s.putBytes pa bs).markers = s.markers := by unfold State.putBytes; split <;> rfl
@[simp] theorem putBytes_cores (s : State) (pa : Nat) (bs : List Byte) : (s.putBytes pa bs).cores = s.cores := by unfold State.putBytes; split <;> rfl
@[simp] theorem putBytes_launches (s : State) (pa : Nat) (bs : List Byte) : (s.putBytes pa bs).launches = s.launches := by unfold State.putBytes; split <;> rfl
@[simp] theorem putBytes_queues (s : State) (pa : Nat) (bs : List Byte) : (s.putBytes pa bs).queues = s.queues := by unfold State.putBytes; split <;> rfl
@[simp] theorem putBytes_kernels (s : State) (pa : Nat) (bs : List Byte) : (s.putBytes pa bs).kernels = s.kernels := by unfold State.putBytes; split <;> rfl
@[simp] theorem putBytes_kseSerials (s : State) (pa : Nat) (bs : List Byte) : (s.putBytes pa bs).kseSerials = s.kseSerials := by unfold State.putBytes; split <;> rfl
@[simp] theorem putBytes_win (s : State) (pa : Nat) (bs : List Byte) : (s.putBytes pa bs).win = s.win := by unfold State.putBytes; split <;> rfl
@[simp] theorem putBytes_by_ (s : State) (pa : Nat) (bs : List Byte) : (s.putBytes pa bs).by_ = s.by_ := by unfold State.putBytes; split <;> rfl
@[simp] theorem putBytes_migrations (s : State) (pa : Nat) (bs : List Byte) : (s.putBytes pa bs).migrations = s.migrations := by unfold State.putBytes; split <;> rfl
@[simp] theorem putBytes_alerts (s : State) (pa : Nat) (bs : List Byte) : (s.putBytes pa bs).alerts = s.alerts := by unfold State.putBytes; split <;> rfl
@[simp] theorem putBytes_mainPower (s : State) (pa : Nat) (bs : List Byte) : (s.putBytes pa bs).mainPower = s.mainPower := by unfold State.putBytes; split <;> rfl
@[simp] theorem putBytes_firmware (s : State) (pa : Nat) (bs : List Byte) : (s.putBytes pa bs).firmware = s.firmware := by unfold State.putBytes; split <;> rfl
@[simp] theorem putBytes_tests (s : State) (pa : Nat) (bs : List Byte) : (s.putBytes pa bs).tests = s.tests := by unfold State.putBytes; split <;> rfl
@[simp] theorem putBytes_aside (s : State) (pa : Nat) (bs : List Byte) : (s.putBytes pa bs).aside = s.aside := by unfold State.putBytes; split <;> rfl
@[simp] theorem putBytes_nvRetired (s : State) (pa : Nat) (bs : List Byte) : (s.putBytes pa bs).nvRetired = s.nvRetired := by unfold State.putBytes; split <;> rfl
@[simp] theorem putBytes_bootRetired (s : State) (pa : Nat) (bs : List Byte) : (s.putBytes pa bs).bootRetired = s.bootRetired := by unfold State.putBytes; split <;> rfl
@[simp] theorem putBytes_bootDue (s : State) (pa : Nat) (bs : List Byte) : (s.putBytes pa bs).bootDue = s.bootDue := by unfold State.putBytes; split <;> rfl
@[simp] theorem putBytes_reply (s : State) (pa : Nat) (bs : List Byte) : (s.putBytes pa bs).reply = s.reply := by unfold State.putBytes; split <;> rfl
@[simp] theorem putBytes_answer (s : State) (pa : Nat) (bs : List Byte) : (s.putBytes pa bs).answer = s.answer := by unfold State.putBytes; split <;> rfl
@[simp] theorem putBytes_bootCycle (s : State) (pa : Nat) (bs : List Byte) : (s.putBytes pa bs).bootCycle = s.bootCycle := by unfold State.putBytes; split <;> rfl
@[simp] theorem putBytes_halting (s : State) (pa : Nat) (bs : List Byte) : (s.putBytes pa bs).halting = s.halting := by unfold State.putBytes; split <;> rfl
@[simp] theorem putBytes_linksDown (s : State) (pa : Nat) (bs : List Byte) : (s.putBytes pa bs).linksDown = s.linksDown := by unfold State.putBytes; split <;> rfl
@[simp] theorem putBytes_cfails (s : State) (pa : Nat) (bs : List Byte) : (s.putBytes pa bs).cfails = s.cfails := by unfold State.putBytes; split <;> rfl
@[simp] theorem putBytes_due (s : State) (pa : Nat) (bs : List Byte) : (s.putBytes pa bs).due = s.due := by unfold State.putBytes; split <;> rfl
@[simp] theorem putBytes_pkid (s : State) (pa : Nat) (bs : List Byte) : (s.putBytes pa bs).pkid = s.pkid := by unfold State.putBytes; split <;> rfl
@[simp] theorem putBytes_served (s : State) (pa : Nat) (bs : List Byte) : (s.putBytes pa bs).served = s.served := by unfold State.putBytes; split <;> rfl
@[simp] theorem putBytes_nextLaunch (s : State) (pa : Nat) (bs : List Byte) : (s.putBytes pa bs).nextLaunch = s.nextLaunch := by unfold State.putBytes; split <;> rfl
@[simp] theorem putBytes_nextId (s : State) (pa : Nat) (bs : List Byte) : (s.putBytes pa bs).nextId = s.nextId := by unfold State.putBytes; split <;> rfl
@[simp] theorem putBytes_freeCtr (s : State) (pa : Nat) (bs : List Byte) : (s.putBytes pa bs).freeCtr = s.freeCtr := by unfold State.putBytes; split <;> rfl
@[simp] theorem putBytes_agenda (s : State) (pa : Nat) (bs : List Byte) : (s.putBytes pa bs).agenda = s.agenda := by unfold State.putBytes; split <;> rfl
@[simp] theorem putBytes_issue (s : State) (pa : Nat) (bs : List Byte) : (s.putBytes pa bs).issue = s.issue := by unfold State.putBytes; split <;> rfl
@[simp] theorem putBytes_fx (s : State) (pa : Nat) (bs : List Byte) : (s.putBytes pa bs).fx = s.fx := by unfold State.putBytes; split <;> rfl
@[simp] theorem putBytes_sel (s : State) (pa : Nat) (bs : List Byte) : (s.putBytes pa bs).sel = s.sel := by unfold State.putBytes; split <;> rfl
@[simp] theorem putBytes_slotMate (s : State) (pa : Nat) (bs : List Byte) : (s.putBytes pa bs).slotMate = s.slotMate := by unfold State.putBytes; split <;> rfl
@[simp] theorem putBytes_turn (s : State) (pa : Nat) (bs : List Byte) : (s.putBytes pa bs).turn = s.turn := by unfold State.putBytes; split <;> rfl

end Sys2Proof.Machine
end

