-- ==== Sys2Proof/Laws/Store.lean ====
section
/-! SUPPORT. Sparse maps and memory: reading what was written, what a write leaves alone, and the canonical form, which every
operation keeps. -/

namespace Sys2Proof.Machine

open Sys2Proof

variable {β : Type}

/-! ### Keys that rise strictly -/

/-- Every key of a map lies above a bound. -/
def KeysAbove (k : Nat) (m : SMap β) : Prop := ∀ p ∈ m, k < p.1

theorem keysRise_cons (p : Nat × β) (m : SMap β) : keysRise (p :: m) = true ↔ KeysAbove p.1 m ∧ keysRise m = true := by
  induction m generalizing p with
  | nil => simp [keysRise, KeysAbove]
  | cons q m ih =>
    simp only [keysRise, Bool.and_eq_true, decide_eq_true_eq]
    constructor
    · rintro ⟨h1, h2⟩
      refine ⟨?_, h2⟩
      intro r hr
      rcases List.mem_cons.1 hr with rfl | hr
      · exact h1
      · exact Nat.lt_trans h1 (((ih q).1 h2).1 r hr)
    · rintro ⟨h1, h2⟩
      exact ⟨h1 q (by simp), h2⟩

theorem keysRise_filter (f : Nat × β → Bool) (m : SMap β) (h : keysRise m = true) : keysRise (m.filter f) = true := by
  induction m with
  | nil => simpa using h
  | cons p m ih =>
    obtain ⟨h1, h2⟩ := (keysRise_cons p m).1 h
    by_cases hp : f p = true
    · rw [List.filter_cons_of_pos hp, keysRise_cons]
      exact ⟨fun q hq => h1 q (List.mem_of_mem_filter hq), ih h2⟩
    · rw [List.filter_cons_of_neg hp]
      exact ih h2

theorem mem_splace (k : Nat) (v : β) (m : SMap β) (p : Nat × β) : p ∈ splace k v m ↔ p = (k, v) ∨ p ∈ m := by
  induction m with
  | nil => simp [splace]
  | cons q m ih =>
    by_cases hk : k < q.1
    · simp [splace, hk]
    · simp only [splace, hk, if_false, List.mem_cons, ih]
      tauto

theorem keysRise_splace (k : Nat) (v : β) (m : SMap β) (h : keysRise m = true) (hk : ∀ p ∈ m, p.1 ≠ k) :
    keysRise (splace k v m) = true := by
  induction m with
  | nil => simp [splace, keysRise]
  | cons q m ih =>
    obtain ⟨h1, h2⟩ := (keysRise_cons q m).1 h
    by_cases hlt : k < q.1
    · simp only [splace, hlt, if_true]
      rw [keysRise_cons]
      refine ⟨?_, h⟩
      intro r hr
      rcases List.mem_cons.1 hr with rfl | hr
      · exact hlt
      · exact Nat.lt_trans hlt (h1 r hr)
    · simp only [splace, hlt, if_false]
      rw [keysRise_cons]
      refine ⟨?_, ih h2 fun p hp => hk p (List.mem_cons_of_mem _ hp)⟩
      intro r hr
      rcases (mem_splace k v m r).1 hr with rfl | hr
      · have := hk q (by simp)
        simp only at *
        omega
      · exact h1 r hr

theorem keysRise_sdel (m : SMap β) (k : Nat) (h : keysRise m = true) : keysRise (sdel m k) = true := keysRise_filter _ m h

theorem sdel_keys (m : SMap β) (k : Nat) : ∀ p ∈ sdel m k, p.1 ≠ k := by
  intro p hp
  simpa [sdel] using (List.mem_filter.1 hp).2

theorem keysRise_sput (m : SMap β) (k : Nat) (v : β) (h : keysRise m = true) : keysRise (sput m k v) = true :=
  keysRise_splace k v _ (keysRise_sdel m k h) (sdel_keys m k)

/-! ### Reading what was written -/

theorem sget_splace_same (k : Nat) (v : β) (m : SMap β) (h : ∀ p ∈ m, p.1 ≠ k) : sget (splace k v m) k = some v := by
  induction m with
  | nil => simp [splace, sget]
  | cons q m ih =>
    by_cases hlt : k < q.1
    · simp [splace, hlt, sget]
    · simp only [splace, hlt, if_false, sget, h q (by simp)]
      exact ih fun p hp => h p (List.mem_cons_of_mem _ hp)

theorem sget_splace_ne (k j : Nat) (v : β) (m : SMap β) (h : j ≠ k) : sget (splace k v m) j = sget m j := by
  induction m with
  | nil => simp [splace, sget, h.symm]
  | cons q m ih =>
    by_cases hlt : k < q.1
    · simp [splace, hlt, sget, h.symm]
    · simp [splace, hlt, sget, ih]

theorem sget_sdel_same (m : SMap β) (k : Nat) : sget (sdel m k) k = none := by
  induction m with
  | nil => rfl
  | cons p m ih =>
    by_cases hp : p.1 = k
    · simpa [sdel, hp] using ih
    · have : sdel (p :: m) k = p :: sdel m k := by simp [sdel, hp]
      rw [this]
      simpa [sget, hp] using ih

theorem sget_sdel_ne (m : SMap β) (k j : Nat) (h : j ≠ k) : sget (sdel m k) j = sget m j := by
  induction m with
  | nil => rfl
  | cons p m ih =>
    by_cases hp : p.1 = k
    · have : sdel (p :: m) k = sdel m k := by simp [sdel, hp]
      rw [this, ih]
      simp [sget, hp, h.symm]
    · have : sdel (p :: m) k = p :: sdel m k := by simp [sdel, hp]
      rw [this]
      simp [sget, ih]

@[simp] theorem sget_sput_same (m : SMap β) (k : Nat) (v : β) : sget (sput m k v) k = some v :=
  sget_splace_same k v _ (sdel_keys m k)

theorem sget_sput_ne (m : SMap β) (k j : Nat) (v : β) (h : j ≠ k) : sget (sput m k v) j = sget m j := by
  rw [sput, sget_splace_ne k j v _ h, sget_sdel_ne m k j h]

/-! ### Bytes -/

@[simp] theorem bget_bset_same (m : SMap Byte) (a : Nat) (v : Byte) : bget (bset m a v) a = v := by
  by_cases h : v = 0
  · simp [bset, bget, sgetD, h, sget_sdel_same]
  · rw [bset, if_neg h]
    simp [bget, sgetD]

theorem bget_bset_ne (m : SMap Byte) (a b : Nat) (v : Byte) (h : b ≠ a) : bget (bset m a v) b = bget m b := by
  by_cases hv : v = 0
  · simp [bset, bget, sgetD, hv, sget_sdel_ne m a b h]
  · rw [bset, if_neg hv]
    simp [bget, sgetD, sget_sput_ne m a b v h]

theorem bget_bsetMany_below (m : SMap Byte) (a b : Nat) (bs : List Byte) (h : b < a) : bget (bsetMany m a bs) b = bget m b := by
  induction bs generalizing m a with
  | nil => rfl
  | cons x bs ih => rw [bsetMany, ih _ _ (by omega), bget_bset_ne _ _ _ _ (by omega)]

/-! ### The canonical form -/

theorem wf_iff (m : SMap Byte) : Memory.wf m = true ↔ keysRise m = true ∧ ∀ p ∈ m, p.2 ≠ 0 := by
  simp [Memory.wf]

theorem wf_nil : Memory.wf [] = true := rfl

theorem wf_filter (f : Nat × Byte → Bool) (m : SMap Byte) (h : Memory.wf m = true) : Memory.wf (m.filter f) = true := by
  rw [wf_iff] at *
  exact ⟨keysRise_filter f m h.1, fun p hp => h.2 p (List.mem_of_mem_filter hp)⟩

theorem wf_sdel (m : SMap Byte) (a : Nat) (h : Memory.wf m = true) : Memory.wf (sdel m a) = true := wf_filter _ m h

theorem wf_sput (m : SMap Byte) (a : Nat) (v : Byte) (hv : v ≠ 0) (h : Memory.wf m = true) : Memory.wf (sput m a v) = true := by
  rw [wf_iff] at *
  refine ⟨keysRise_sput m a v h.1, ?_⟩
  intro p hp
  rcases (mem_splace a v _ p).1 hp with rfl | hp
  · exact hv
  · exact h.2 p (List.mem_of_mem_filter hp)

theorem wf_bset (m : SMap Byte) (a : Nat) (v : Byte) (h : Memory.wf m = true) : Memory.wf (bset m a v) = true := by
  by_cases hv : v = 0
  · simpa [bset, hv] using wf_sdel m a h
  · rw [bset, if_neg hv]
    exact wf_sput m a v hv h

theorem wf_bsetMany (bs : List Byte) (m : SMap Byte) (a : Nat) (h : Memory.wf m = true) : Memory.wf (bsetMany m a bs) = true := by
  induction bs generalizing m a with
  | nil => exact h
  | cons b bs ih => exact ih _ _ (wf_bset m a b h)

end Sys2Proof.Machine
end

