-- ==== Sys2Proof/Laws/Lanes.lean ====
section
/-! SUPPORT. Threads and lanes read as they were written, and an instruction whose lanes act on their own threads changes those
threads alone. -/

namespace Sys2Proof.Machine

open Sys2Proof

/-! ### Registers of a thread -/

theorem rget_rset_same (m : SMap Word) (r : Nat) (v : Word) : rget (rset m r v) r = v := by
  unfold rget rset sgetD
  split
  · rw [sget_sdel_same]
    simp [*]
  · simp

theorem rget_rset_ne (m : SMap Word) (r k : Nat) (v : Word) (h : k ≠ r) : rget (rset m r v) k = rget m k := by
  unfold rget rset sgetD
  split
  · rw [sget_sdel_ne _ _ _ h]
  · rw [sget_sput_ne _ _ _ _ h]

@[simp] theorem setReg_reg_same (t : Thread) (r : Nat) (v : Word) : (t.setReg r v).reg r = v := rget_rset_same _ _ _

theorem setReg_reg_ne (t : Thread) (r k : Nat) (v : Word) (h : k ≠ r) : (t.setReg r v).reg k = t.reg k := rget_rset_ne _ _ _ _ h

/-! ### Cores, blocks and threads -/

@[simp] theorem coreAt_setCore_same (s : State) (c : Nat) (x : Core) : (s.setCore c x).coreAt c = x := by
  simp [State.coreAt, State.setCore, sgetD]

theorem coreAt_setCore_ne (s : State) (c k : Nat) (x : Core) (h : k ≠ c) : (s.setCore c x).coreAt k = s.coreAt k := by
  simp [State.coreAt, State.setCore, sgetD, sget_sput_ne _ _ _ _ h]

@[simp] theorem block?_setBlock_same (s : State) (c b : Nat) (x : Block) : (s.setBlock c b x).block? c b = some x := by
  simp [State.block?, State.setBlock]

theorem block?_setBlock_ne (s : State) (c b k j : Nat) (x : Block) (h : (k, j) ≠ (c, b)) :
    (s.setBlock c b x).block? k j = s.block? k j := by
  unfold State.block? State.setBlock
  by_cases hk : k = c
  · subst hk
    have hj : j ≠ b := fun e => h (by rw [e])
    simp [sget_sput_ne _ _ _ _ hj]
  · rw [coreAt_setCore_ne _ _ _ _ hk]

theorem block?_modBlock_same (s : State) (c b : Nat) (f : Block → Block) : (s.modBlock c b f).block? c b = (s.block? c b).map f := by
  unfold State.modBlock
  split
  · rename_i h
    simp [h]
  · rename_i h
    simp [h]

theorem block?_modBlock_ne (s : State) (c b k j : Nat) (f : Block → Block) (h : (k, j) ≠ (c, b)) :
    (s.modBlock c b f).block? k j = s.block? k j := by
  unfold State.modBlock
  split
  · exact block?_setBlock_ne _ _ _ _ _ _ h
  · rfl

@[simp] theorem thread?_setThread_same (b : Block) (l : LaneRef) (t : Thread) : (b.setThread l t).thread? l = some t := by
  unfold Block.thread? Block.setThread
  split <;> simp_all

theorem thread?_setThread_ne (b : Block) (l m : LaneRef) (t : Thread) (h : m ≠ l) : (b.setThread l t).thread? m = b.thread? m := by
  have key : m.helper = l.helper → m.idx ≠ l.idx := fun e i => h (by cases m; cases l; simp_all)
  unfold Block.thread? Block.setThread
  by_cases hm : m.helper = true <;> by_cases hl : l.helper = true <;> simp_all [sget_sput_ne]

/-! ### Lanes -/

/-- A lane set to a thread reads as that thread; a helper stands where the path stands. -/
theorem lane?_setLane_same (s : State) (l : LaneRef) (t t' : Thread) (h : s.lane? l = some t) :
    (s.setLane l t').lane? l = some (if l.helper then { t' with pc := s.issue.pc } else t') := by
  unfold State.lane? at h ⊢
  unfold State.setLane
  rw [modBlock_issue, block?_modBlock_same]
  cases hb : s.block? s.issue.core s.issue.blk with
  | none => simp [hb] at h
  | some b => simp

theorem lane?_setLane_ne (s : State) (l m : LaneRef) (t : Thread) (h : m ≠ l) : (s.setLane l t).lane? m = s.lane? m := by
  unfold State.lane? State.setLane
  rw [modBlock_issue, block?_modBlock_same]
  cases hb : s.block? s.issue.core s.issue.blk with
  | none => simp
  | some b => simp [thread?_setThread_ne _ _ _ _ h]

theorem modLane_of_lane (s : State) (l : LaneRef) (t : Thread) (f : Thread → Thread) (h : s.lane? l = some t) :
    s.modLane l f = s.setLane l (f t) := by
  simp [State.modLane, h]

theorem lane?_modLane_ne (s : State) (l m : LaneRef) (f : Thread → Thread) (h : m ≠ l) : (s.modLane l f).lane? m = s.lane? m := by
  unfold State.modLane
  split
  · exact lane?_setLane_ne _ _ _ _ h
  · rfl

/-- A fold of changes of other lanes leaves a lane as it was. -/
theorem lane?_foldl_ne (ls : List LaneRef) (f : Thread → Thread) (s : State) (m : LaneRef) (h : m ∉ ls) :
    (ls.foldl (fun u l => u.modLane l f) s).lane? m = s.lane? m := by
  induction ls generalizing s with
  | nil => rfl
  | cons l ls ih =>
    rw [List.foldl_cons, ih _ (fun hm => h (by simp [hm])), lane?_modLane_ne _ _ _ _ (fun e => h (by simp [e]))]

@[simp] theorem settleRoles_quiet (s : State) (l : LaneRef) (t : Thread) (rs : List Role) (h : s.Quiet) : s.settleRoles l t rs = s := by
  simp [State.settleRoles, h.1, h.2]

theorem quiet_modLane (s : State) (l : LaneRef) (f : Thread → Thread) (h : s.Quiet) : (s.modLane l f).Quiet := by
  simpa [State.Quiet] using h

/-- With nothing on its way to a register, lanes that all succeed each take their own change. -/
theorem lanesOf_threadLane (roles : List Role) (f : Thread → Except Stop Thread) (g : Thread → Thread) (ls : List LaneRef) (s : State)
    (hq : s.Quiet) (hn : ls.Nodup) (hf : ∀ l ∈ ls, ∃ t, s.lane? l = some t ∧ f t = .ok (g t)) :
    s.lanesOf ls (threadLane roles f) = ls.foldl (fun u l => u.modLane l g) s := by
  unfold State.lanesOf
  induction ls generalizing s with
  | nil => rfl
  | cons l ls ih =>
    obtain ⟨t, ht, ho⟩ := hf l (by simp)
    obtain ⟨hl, hn'⟩ := List.nodup_cons.1 hn
    have hstep : State.laneStep (threadLane roles f) s l = s.modLane l g := by
      simp [State.laneStep, endLane, threadLane, hq, ht, ho, modLane_of_lane s l t g ht]
    rw [List.foldl_cons, List.foldl_cons, hstep]
    refine ih _ (quiet_modLane _ _ _ hq) hn' fun m hm => ?_
    obtain ⟨u, hu, hg⟩ := hf m (by simp [hm])
    have hne : m ≠ l := fun e => hl (by rw [← e]; exact hm)
    exact ⟨u, by rw [lane?_modLane_ne _ _ _ _ hne, hu], hg⟩

/-- A latching instruction whose lanes all pass their checks. -/
theorem latchOp_next (len : Nat) (dst : Dst) (n : Bool) (srcs : List Role) (op : Thread → Dword × Word) (s : State) (hq : s.Quiet)
    (hn : s.issue.lanes.Nodup) (hp : ∀ l ∈ s.issue.lanes, ∃ t, s.lane? l = some t ∧ Passes t (dst.role :: srcs)) :
    latchOp len dst n srcs op s =
      .next (s.issue.lanes.foldl (fun u l => u.modLane l fun t => t.finish len dst n (readsLatch srcs) (op t).1 (op t).2) s) := by
  unfold latchOp State.lanes
  rw [lanesOf_threadLane _ _ (fun t => t.finish len dst n (readsLatch srcs) (op t).1 (op t).2) _ _ hq hn]
  intro l hl
  obtain ⟨t, ht, hc, ha⟩ := hp l hl
  exact ⟨t, ht, by simp [latchLane, ha, hc]⟩

/-- An instruction that latches nothing, whose lanes all pass their checks. -/
theorem plainOp_next (roles : List Role) (f : Thread → Except Stop Thread) (g : Thread → Thread) (s : State) (hq : s.Quiet)
    (hn : s.issue.lanes.Nodup) (hp : ∀ l ∈ s.issue.lanes, ∃ t, s.lane? l = some t ∧ check t roles = none ∧ f t = .ok (g t)) :
    plainOp roles f s = .next (s.issue.lanes.foldl (fun u l => u.modLane l g) s) := by
  unfold plainOp State.lanes
  rw [lanesOf_threadLane _ _ g _ _ hq hn]
  intro l hl
  obtain ⟨t, ht, hc, hf⟩ := hp l hl
  exact ⟨t, ht, by simp [plainLane, hc, hf]⟩

/-- One lane alone. -/
theorem lanes_alone (s : State) (l : LaneRef) (t : Thread) (f : State → LaneRef → Thread → LaneOut) (h : s.Alone l t) :
    s.lanes f = endLane l (f s l t) := by
  simp [State.lanes, State.lanesOf, State.laneStep, h.1, h.2]

/-- An instruction that reaches beyond the thread, in one lane that passes its checks. -/
theorem stateOp_alone (roles : List Role) (f : State → LaneRef → Thread → LaneOut) (s : State) (l : LaneRef) (t : Thread) (hq : s.Quiet)
    (ha : s.Alone l t) (hc : check t roles = none) :
    stateOp roles f s = .next (endLane l (f s l t)) := by
  unfold stateOp
  rw [lanes_alone _ _ _ _ ha]
  simp [hq, ha.2, hc, endLane]

/-- An instruction of one lane stops there when a check fails. -/
theorem stateOp_stops (roles : List Role) (f : State → LaneRef → Thread → LaneOut) (s : State) (l : LaneRef) (t : Thread) (e : Stop)
    (hq : s.Quiet) (ha : s.Alone l t) (hc : check t roles = some e) : stateOp roles f s = .next (s.stopLane l e) := by
  unfold stateOp
  rw [lanes_alone _ _ _ _ ha]
  simp [hq, ha.2, hc, endLane]

/-- Lanes that all take part in an exchange enter it with the operands they supply, and nothing changes. -/
theorem enterAll_next (dst : Dst) (n : Bool) (srcs : List Role) (a : Thread → Dword) (b : Thread → Word) (s : State) (hq : s.Quiet)
    (hp : ∀ l ∈ s.issue.lanes, ∃ t, s.lane? l = some t ∧ check t (dst.role :: srcs) = none ∧ t.replay = none) :
    s.enterAll dst n srcs a b = (s, s.taking a b) := by
  have key : ∀ (ls : List LaneRef) (acc : List XLane),
      (∀ l ∈ ls, ∃ t, s.lane? l = some t ∧ check t (dst.role :: srcs) = none ∧ t.replay = none) →
      ls.foldl (fun acc l => let r := State.enterX acc.1 dst n srcs a b l; (r.1, acc.2 ++ r.2)) (s, acc) =
        (s, acc ++ ls.filterMap fun l => (s.lane? l).map fun t => (⟨l, t.rank, a t, b t⟩ : XLane)) := by
    intro ls
    induction ls with
    | nil => intro acc _; simp
    | cons l ls ih =>
      intro acc h
      obtain ⟨t, ht, hc, hr⟩ := h l (by simp)
      have he : s.enterX dst n srcs a b l = (s, [⟨l, t.rank, a t, b t⟩]) := by
        simp [State.enterX, ht, hq, Thread.atAnchor, Thread.inRun, hc, hr]
      rw [List.foldl_cons]
      simp only [he]
      rw [ih _ fun m hm => h m (by simp [hm])]
      simp [ht]
  simpa [State.enterAll, State.taking] using key s.issue.lanes [] hp

/-- An exchange instruction whose lanes all take part. -/
theorem exchange_next (dst : Dst) (n : BitVec 1) (srcs : List Role) (a : Thread → Dword) (b : Thread → Word)
    (res : Rnd → List XLane → XLane → Dword × Word) (s : State) (hq : s.Quiet)
    (hp : ∀ l ∈ s.issue.lanes, ∃ t, s.lane? l = some t ∧ check t (dst.role :: srcs) = none ∧ t.replay = none) :
    exchange dst n srcs a b res s =
      .next ((s.taking a b).foldl (fun u p => u.modLane p.lane fun t =>
        t.finishX dst (bit1 n) (readsLatch srcs) (res t.rnd (s.taking a b) p).1 (res t.rnd (s.taking a b) p).2) s) := by
  simp [exchange, enterAll_next _ _ _ _ _ _ hq hp]

/-- Of a list with no value, the first value there is. -/
theorem firstSome_none {β : Type} (l : List (Option β)) : firstSome l = none ↔ ∀ x ∈ l, x = none := by
  induction l with
  | nil => simp [firstSome]
  | cons x l ih => cases x <;> simp [firstSome, ih]

/-- A lane that passes every operand check passes those before the agreement of group-wide words. -/
theorem checkEntry_of_check {t : Thread} {rs : List Role} (h : check t rs = none) : checkEntry t rs = none :=
  (firstSome_none _).2 fun x hx => (firstSome_none _).1 h x <| by
    rcases List.mem_cons.1 hx with rfl | hx
    · simp
    · exact List.mem_append_right _ hx

/-- A lane that passes every operand check reads no poisoned register. -/
theorem poisonOf_of_check {t : Thread} {rs : List Role} (h : check t rs = none) : poisonOf t rs = none :=
  (firstSome_none _).2 fun x hx => (firstSome_none _).1 h x (List.mem_append_left _ (List.mem_cons_of_mem _ hx))

/-- Of checks that all pass, none stops the lane. -/
theorem firstRanked_none (l : List (Option Stop)) (h : ∀ x ∈ l, x = none) : firstRanked l = none := by
  unfold firstRanked
  induction l with
  | nil => rfl
  | cons x l ih => rw [List.foldl_cons, h x (by simp)]; exact ih fun y hy => h y (by simp [hy])

/-- A group-wide instruction whose path is one live lane: it takes part with its own words. -/
theorem agree_solo {β : Type} [DecidableEq β] (s : State) (l : LaneRef) (t : Thread) (anchor : Option (Dst × Bool)) (roles : List Role)
    (key : Thread → β) (cause sub : Nat) (h : s.Solo l t roles) :
    s.agree none anchor roles key cause sub = (s, some (key t, [l])) := by
  have he : s.enterGroup anchor roles key = (s, [(l, key t)]) := by
    simp [State.enterGroup, h.alone.1, h.alone.2, h.quiet, h.first, checkEntry_of_check h.passes]
  simp [State.agree, he, leader, uniform, h.live]

/-- A further check that one lane passes. -/
theorem screen_one (s : State) (l : LaneRef) (t : Thread) (f : Thread → Option Stop) (h : s.lane? l = some t) (hf : f t = none) :
    s.screen [l] f = (s, [(l, t)]) := by
  simp [State.screen, h, hf]

/-- Operands that every lane of one lane supplies. -/
theorem collect_solo {β : Type} (s : State) (l : LaneRef) (t : Thread) (roles : List Role) (val : Thread → β) (h : s.Solo l t roles) :
    s.collect roles val = (s, [(l, val t)]) := by
  simp [State.collect, h.alone.1, h.alone.2, h.quiet, h.passes]

/-- An instruction that reaches beyond the thread, in a live lane that passes its checks. -/
theorem stateOp_solo (roles : List Role) (f : State → LaneRef → Thread → LaneOut) (s : State) (l : LaneRef) (t : Thread)
    (h : s.Solo l t roles) : stateOp roles f s = .next (endLane l (f s l t)) :=
  stateOp_alone roles f s l t h.quiet h.alone h.passes

/-! ### Nothing on its way -/

@[simp] theorem settleRegs_quiet (s : State) (w : Who) (a n : Nat) (h : s.Quiet) : s.settleRegs w a n = s := by
  obtain ⟨h1, h2⟩ := h
  simp [State.settleRegs, h1, h2]

@[simp] theorem settleLaneRun_quiet (s : State) (l : LaneRef) (d : BitVec 7) (n : Nat) (h : s.Quiet) : s.settleLaneRun l d n = s := by
  unfold State.settleLaneRun
  split <;> simp [h]

@[simp] theorem settleRun_quiet (s : State) (ls : List LaneRef) (d : BitVec 7) (n : Nat) (h : s.Quiet) : s.settleRun ls d n = s := by
  unfold State.settleRun
  induction ls with
  | nil => rfl
  | cons a as ih => simp only [List.foldl_cons]; split <;> simp [h, ih]

@[simp] theorem settleSign_quiet (s : State) (l : LaneRef) (d : BitVec 7) (f : Bool) (h : s.Quiet) : s.settleSign l d f = s := by
  unfold State.settleSign
  split
  · rfl
  · simp only [settleLaneRun_quiet _ _ _ _ h]
    split
    · rfl
    · generalize (matDesc _).reads f = rs
      induction rs with
      | nil => rfl
      | cons a as ih => simp only [List.foldl_cons, settleRegs_quiet _ _ _ _ h, ih]

/-- A path of one live lane: its step is that lane's. -/
theorem lanes_solo (s : State) (l : LaneRef) (t : Thread) (rs : List Role) (f : State → LaneRef → Thread → LaneOut) (h : s.Solo l t rs) :
    s.lanes f = endLane l (f s l t) := lanes_alone s l t f h.alone

end Sys2Proof.Machine
end

