-- ==== Sys2Proof/Laws/Memory.lean ====
section
/-! SUPPORT. The operations over memory keep its canonical form, and bytes read as they were written. -/

namespace Sys2Proof.Machine

open Sys2Proof

/-! ### Reading what was written -/

theorem putBytes_low (s : State) (pa : Nat) (bs : List Byte) (h : pa < stageBase) :
    (s.putBytes pa bs).mem = bsetMany s.mem pa bs ∧ (s.putBytes pa bs).stage = s.stage := by
  simp [State.putBytes, Nat.not_le.2 h]

theorem putBytes_high (s : State) (pa : Nat) (bs : List Byte) (h : stageBase ≤ pa) :
    (s.putBytes pa bs).mem = s.mem ∧ (s.putBytes pa bs).stage = stageSet s.stage pa bs := by
  simp [State.putBytes, h]

/-! ### The canonical form -/

theorem memOk_of_mem {s t : State} (h : t.mem = s.mem) (hs : s.MemOk) : t.MemOk := by
  unfold State.MemOk at *
  rw [h]
  exact hs

theorem memOk_ite {c : Prop} [Decidable c] {a b : State} (ha : a.MemOk) (hb : b.MemOk) : (if c then a else b).MemOk := by
  split
  · exact ha
  · exact hb

/-- A fold of steps that keep the form keeps it. -/
theorem memOk_foldl {γ : Type} (f : State → γ → State) (hf : ∀ s x, s.MemOk → (f s x).MemOk) (l : List γ) (s : State) (hs : s.MemOk) :
    (l.foldl f s).MemOk := by
  induction l generalizing s with
  | nil => exact hs
  | cons x l ih => exact ih _ (hf s x hs)

theorem putBytes_memOk (s : State) (pa : Nat) (bs : List Byte) (hs : s.MemOk) : (s.putBytes pa bs).MemOk := by
  by_cases h : stageBase ≤ pa
  · exact memOk_of_mem (putBytes_high s pa bs h).1 hs
  · have := (putBytes_low s pa bs (Nat.not_le.1 h)).1
    unfold State.MemOk
    rw [this]
    exact wf_bsetMany bs _ _ hs

theorem mergeUnits_wf (us : List RdcUnit) (m : SMap Byte) (base : Nat) (h : Memory.wf m = true) : Memory.wf (mergeUnits m base us) = true := by
  induction us generalizing m with
  | nil => exact h
  | cons u us ih => exact ih _ (wf_bsetMany _ _ _ h)

theorem makeFull_memOk (s : State) (ln : Nat) (hs : s.MemOk) : (s.makeFull ln).1.MemOk := by
  unfold State.makeFull
  split
  · exact hs
  · split
    · exact hs
    · split
      · exact hs
      · exact mergeUnits_wf _ _ _ hs

/-- What a write keeps for its request is no memory. -/
theorem writeWith_memOk (s : State) (id pa n : Nat) (f : State → State) (hf : ∀ u : State, u.MemOk → (f u).MemOk) (hs : s.MemOk) :
    (s.writeWith id pa n f).MemOk :=
  memOk_ite (hf _ hs) (memOk_of_mem (keepOld_mem _ _ _ _ _) (hf _ hs))

theorem evict_memOk (s : State) (forced : Bool) (ln : Nat) (hs : s.MemOk) : (s.evict forced ln).MemOk := by
  unfold State.evict
  split
  · exact hs
  · rename_i l _
    have h1 : ∀ b : Requester, (({ s with by_ := b } : State).request (ln * 128)).MemOk := fun b => memOk_of_mem (request_mem _ _) hs
    have h2 : ∀ (u : State) (b : Requester) (id : Nat), u.MemOk →
        (({ u with by_ := b } : State).writeWith id (ln * 128) 128 fun s => (s.makeFull ln).1).MemOk := fun u b id hu =>
      writeWith_memOk _ _ _ _ _ (fun v hv => makeFull_memOk v ln hv) hu
    exact h2 _ _ _ (h1 _)

theorem evictAll_memOk (s : State) (forced : Bool) (lines : List Nat) (hs : s.MemOk) : (s.evictAll forced lines).MemOk :=
  memOk_foldl _ (fun s ln h => evict_memOk s forced ln h) lines s hs

theorem flushPartials_memOk (s : State) (lines : List Nat) (hs : s.MemOk) : (s.flushPartials lines).MemOk :=
  memOk_foldl _ (fun s ln h => memOk_ite (evict_memOk s false ln h) h) lines s hs

theorem trimL2_mem (s : State) (die : Nat) : (s.trimL2 die).mem = s.mem := rfl

theorem enterL2_mem (s : State) (ln : Nat) : (s.enterL2 ln).mem = s.mem := by
  unfold State.enterL2
  split
  · split <;> rfl
  · rfl

theorem homeLine_memOk (s : State) (ln : Nat) (hs : s.MemOk) : (s.homeLine ln).1.MemOk := by
  have h1 := makeFull_memOk s ln hs
  have h2 : ∀ (u : State) (lost : Bool), u.MemOk →
      (if ln ∈ u.l2 then (u, lost) else if u.downAt (ln * 128) then (u, true)
        else ((if lost then u else u.enterL2 ln).request (ln * 128), lost)).1.MemOk := by
    intro u lost hu
    split
    · exact hu
    split
    · exact hu
    · exact memOk_of_mem (request_mem _ _) (memOk_ite hu (memOk_of_mem (enterL2_mem _ _) hu))
  exact h2 _ _ (memOk_ite h1 h1)

theorem noteWrite_memOk (s : State) (pa : Nat) (hs : s.MemOk) : (s.noteWrite pa).MemOk := hs

theorem heat_memOk (s : State) (pa : Nat) (hs : s.MemOk) : (s.heat pa).MemOk := by
  unfold State.heat
  split
  · exact hs
  · dsimp only
    split
    · exact hs
    · have h1 : ∀ (f : MemUnit → MemUnit) (u : Nat), (s.modUnit u f).MemOk := fun f u => memOk_of_mem (modUnit_mem _ _ _) hs
      split
      · exact memOk_of_mem rfl (putBytes_memOk _ _ _ (noteWrite_memOk _ _ (homeLine_memOk _ _ (memOk_of_mem rfl hs))))
      · exact h1 _ _

theorem touchHome_memOk (s : State) (ln : Nat) (hs : s.MemOk) : (s.touchHome ln).1.MemOk :=
  homeLine_memOk _ ln (heat_memOk s _ hs)

theorem homeRead_memOk (s : State) (pa n : Nat) (hs : s.MemOk) : (s.homeRead pa n).1.MemOk := touchHome_memOk s _ hs

theorem writeAt_memOk (s : State) (id pa : Nat) (bs : List Byte) (hs : s.MemOk) : (s.writeAt id pa bs).MemOk :=
  memOk_ite (memOk_of_mem (failWrite_mem _ _ _) hs) (writeWith_memOk _ _ _ _ _ (fun u hu => putBytes_memOk u pa bs hu) hs)

theorem homeWrite_memOk (s : State) (pa : Nat) (bs : List Byte) (hs : s.MemOk) : (s.homeWrite pa bs).MemOk :=
  writeAt_memOk _ _ _ _ (touchHome_memOk _ _ (noteWrite_memOk s pa hs))

theorem redDirect_memOk (s : State) (r : Red) (hs : s.MemOk) : (s.redDirect r).1.MemOk := by
  unfold State.redDirect
  split
  · exact hs
  · exact putBytes_memOk _ _ _ hs

theorem rdcRoom_memOk (s : State) (ln : Nat) (hs : s.MemOk) : (s.rdcRoom ln).MemOk :=
  memOk_ite hs (evict_memOk _ _ _ (memOk_of_mem (drawn_mem _ _) hs))

theorem redLine_memOk (s : State) (r : Red) (hs : s.MemOk) : (s.redLine r).MemOk :=
  memOk_ite (rdcRoom_memOk s _ hs) (rdcRoom_memOk s _ hs)

theorem redMerge_memOk (s : State) (r : Red) (lost : Bool) (hs : s.MemOk) : (s.redMerge r lost).1.MemOk := by
  unfold State.redMerge
  dsimp only
  split
  · exact hs
  · split
    · exact redDirect_memOk _ _ hs
    · exact hs

theorem redHome_memOk (s : State) (r : Red) (hs : s.MemOk) : (s.redHome r).1.MemOk := by
  have h1 := homeLine_memOk s (lineOf r.pa) hs
  unfold State.redHome
  revert h1
  generalize s.homeLine (lineOf r.pa) = m
  intro h1
  dsimp only
  split
  · exact h1
  · exact writeWith_memOk m.1 s.nextId r.pa r.width (fun s => (s.redDirect r).1) (fun u hu => redDirect_memOk u r hu) h1

theorem mergeRed_memOk (s : State) (r : Red) (hs : s.MemOk) : (s.mergeRed r).1.MemOk := by
  have h0 := heat_memOk _ r.pa (noteWrite_memOk s r.pa hs)
  have h1 : (((s.noteWrite r.pa).heat r.pa).redLine r).MemOk := redLine_memOk _ _ h0
  unfold State.mergeRed
  dsimp only
  split
  · split
    · exact redMerge_memOk _ _ _ (makeFull_memOk _ _ h1)
    · exact redMerge_memOk _ _ _ h1
  · exact redHome_memOk _ _ h0

/-! ### The L1 and what is in flight -/

theorem trace_memOk (s : State) (rcd : List Byte) (hs : s.MemOk) : (s.trace rcd).MemOk := by
  unfold State.trace
  split
  · exact hs
  · dsimp only
    split
    · exact memOk_of_mem (setWin_mem s _ _) hs
    · exact memOk_of_mem (setWinPair_mem _ _ _) (homeWrite_memOk s _ _ hs)

theorem writeDirty_memOk (bs : List (Option L1Byte)) (s : State) (pa : Nat) (hs : s.MemOk) : (writeDirty s pa bs).MemOk := by
  induction bs generalizing s pa with
  | nil => exact hs
  | cons b bs ih =>
    match b with
    | some ⟨v, true, _⟩ => exact ih _ _ (putBytes_memOk s pa [v] hs)
    | some ⟨_, false, _⟩ => exact ih _ _ hs
    | none => exact ih _ _ hs

theorem putDirty_memOk (bs : List (Option L1Byte)) (s : State) (pa : Nat) (hs : s.MemOk) : (s.putDirty pa bs).MemOk :=
  memOk_of_mem rfl (writeDirty_memOk bs s pa hs)

theorem lineDone_mem (s : State) (core ln : Nat) : (s.lineDone core ln).mem = s.mem := by
  unfold State.lineDone
  dsimp only
  generalize List.filter (fun x : Store => x.who.core == core && x.op == Pend.line ln) s.stores = l
  have : ∀ (l : List Store) (u : State), (l.foldl (fun s x => s.oscDown x.who) u).mem = u.mem := by
    intro l
    induction l with
    | nil => intro u; rfl
    | cons x l ih => intro u; rw [List.foldl_cons, ih]; simp
  exact this l _

theorem cleanLine_memOk (s : State) (core ln : Nat) (hs : s.MemOk) : (s.cleanLine core ln).MemOk := by
  refine memOk_ite (memOk_of_mem (setCore_mem _ _ _) ?_) hs
  have h1 := touchHome_memOk _ ln (noteWrite_memOk s (ln * 128) hs)
  exact memOk_ite (memOk_of_mem (failWrite_mem _ _ _) h1) (writeWith_memOk _ _ _ _ _ (fun u hu => putDirty_memOk _ u _ hu) h1)

theorem writeBack_memOk (s : State) (core ln : Nat) (hs : s.MemOk) : (s.writeBack core ln).MemOk := by
  refine memOk_of_mem (lineDone_mem _ _ _) (memOk_of_mem rfl (cleanLine_memOk _ core ln ?_))
  exact memOk_ite hs (memOk_of_mem (servedFor_mem _ _ _) hs)

theorem writeBackAll_memOk (s : State) (core : Nat) (hs : s.MemOk) : (s.writeBackAll core).MemOk :=
  memOk_foldl _ (fun s ln h => writeBack_memOk s core ln h) _ s hs

theorem dropLine_memOk (s : State) (core ln : Nat) (hs : s.MemOk) : (s.dropLine core ln).MemOk :=
  memOk_of_mem (by simp [State.dropLine]) (writeBack_memOk s core ln hs)

theorem l1Room_memOk (s : State) (core ln : Nat) (hs : s.MemOk) : (s.l1Room core ln).MemOk :=
  memOk_ite hs (dropLine_memOk _ _ _ (memOk_of_mem (drawn_mem _ _) hs))

theorem fill_memOk (s : State) (core ln : Nat) (refresh : Bool) (hs : s.MemOk) : (s.fill core ln refresh).MemOk :=
  memOk_of_mem (s := ((s.l1Room core ln).touchHome ln).1) (by simp [State.fill]) (touchHome_memOk _ ln (l1Room_memOk s core ln hs))

theorem sentBy_memOk (s : State) (w : Who) (f : State → State) (hf : ∀ u : State, u.MemOk → (f u).MemOk) (hs : s.MemOk) :
    (s.sentBy w f).MemOk := by
  have : (f (s.servedFor (coreRequester w.core) (s.launchOf w))).MemOk := hf _ (memOk_of_mem (by simp) hs)
  exact this

theorem deliver_mem (s : State) (w : Who) (dst : List (Nat × Word)) (p : Option Poison) : (s.deliver w dst p).mem = s.mem := by
  simp [State.deliver]

theorem mergeFor_memOk (s : State) (r : Red) (hs : s.MemOk) : (s.mergeFor r).MemOk :=
  mergeRed_memOk _ r (memOk_of_mem (by simp) hs)

theorem oscDown_memOk (s : State) (w : Who) (hs : s.MemOk) : (s.oscDown w).MemOk := memOk_of_mem (by simp) hs

theorem arriveRed_memOk (s : State) (r : Red) (hs : s.MemOk) : (s.arriveRed r).MemOk :=
  memOk_foldl _ (fun s w h => oscDown_memOk s w h) _ _
    (mergeFor_memOk _ _ (memOk_of_mem rfl (memOk_ite (dropLine_memOk s _ _ hs) hs)))

theorem performRed_memOk (s : State) (r : Red) (hs : s.MemOk) : (s.performRed r).MemOk :=
  memOk_foldl _ (fun s x h => arriveRed_memOk s x h) _ s hs

theorem renewL1_memOk (s : State) (core pa : Nat) (bs : List Byte) (hs : s.MemOk) : (s.renewL1 core pa bs).MemOk :=
  memOk_ite (dropLine_memOk s _ _ hs) (memOk_of_mem (setCore_mem _ _ _) hs)

theorem performStore_memOk (s : State) (x : Store) (hs : s.MemOk) : (s.performStore x).MemOk := by
  unfold State.performStore
  split
  · exact oscDown_memOk _ _ (renewL1_memOk _ _ _ _ (sentBy_memOk (s.dropStore x.id) _ _ (fun u hu => homeWrite_memOk u _ _ hu) hs))
  · exact sentBy_memOk _ _ _ (fun u hu => writeBack_memOk u _ _ hu) hs
  · split
    · exact performRed_memOk _ _ hs
    · exact oscDown_memOk (s.dropStore x.id) _ hs
  · exact oscDown_memOk _ _ (flushPartials_memOk (s.dropStore x.id) _ hs)

theorem settleSent_memOk (s : State) (core ln : Nat) (hs : s.MemOk) : (s.settleSent core ln).MemOk :=
  memOk_foldl _ (fun s x h => performStore_memOk s x h) _ s hs

theorem atomPlace_memOk (s : State) (a : Atomic) (n : Nat) (hs : s.MemOk) : (s.atomPlace a n).1.MemOk := by
  have h1 := settleSent_memOk s a.core (lineOf a.pa) hs
  unfold State.atomPlace
  split
  · exact memOk_ite h1 (fill_memOk _ _ _ _ h1)
  · exact homeRead_memOk _ _ _ (dropLine_memOk _ _ _ hs)

theorem atomStore_memOk (s : State) (id : Nat) (a : Atomic) (bs : List Byte) (hs : s.MemOk) : (s.atomStore id a bs).MemOk := by
  unfold State.atomStore
  split
  · exact memOk_of_mem (by simp) hs
  · exact writeAt_memOk _ _ _ _ (noteWrite_memOk _ _ hs)

theorem performAtomic_memOk (s : State) (a : Atomic) (hs : s.MemOk) : (s.performAtomic a).MemOk := by
  refine sentBy_memOk _ _ _ (fun u hu => ?_) hs
  dsimp only
  have h1 := fun n => atomPlace_memOk ({ u with atomics := u.atomics.filter fun x => x.id != a.id } : State) a n hu
  refine memOk_foldl _ (fun s x h => ?_) _ _ ?_
  · split
    · exact memOk_of_mem (deliver_mem _ _ _ _) h
    · exact h
  · exact memOk_ite (h1 _) (atomStore_memOk _ _ _ _ (h1 _))

theorem settleLine_memOk (s : State) (w : Who) (ln : Nat) (hs : s.MemOk) : (s.settleLine w ln).MemOk :=
  memOk_foldl _ (fun s a h => performAtomic_memOk s a h) _ _
    (memOk_foldl _ (fun s r h => performRed_memOk s r h) _ _ (memOk_foldl _ (fun s x h => performStore_memOk s x h) _ s hs))

theorem traceLoad_memOk (s : State) (l : Load) (x : Sample) (hs : s.MemOk) : (s.traceLoad l x).MemOk := by
  unfold State.traceLoad
  split
  · exact hs
  · exact trace_memOk _ _ (memOk_of_mem (by simp) hs)

theorem returnOne_memOk (s : State) (l : Load) (hs : s.MemOk) : (s.returnOne l).MemOk := by
  have h1 : ({ s with loads := s.loads.filter fun x => x.id != l.id } : State).MemOk := hs
  unfold State.returnOne
  dsimp only
  split
  · exact traceLoad_memOk _ _ _ (memOk_of_mem (deliver_mem _ _ _ _) h1)
  · exact memOk_of_mem (deliver_mem _ _ _ _) h1

theorem returnSampled_memOk (s : State) (w : Who) (before : Nat) (hs : s.MemOk) : (s.returnSampled w before).MemOk :=
  memOk_foldl _ (fun s x h => returnOne_memOk s x h) _ s hs

theorem returnLoad_memOk (s : State) (l : Load) (hs : s.MemOk) : (s.returnLoad l).MemOk :=
  returnOne_memOk _ _ (memOk_ite (returnSampled_memOk _ _ _ hs) hs)

theorem traceOf_memOk (s : State) (w : Who) (rcd : List Byte) (hs : s.MemOk) : (s.traceOf w rcd).MemOk :=
  memOk_ite (trace_memOk _ _ (returnSampled_memOk _ _ _ hs)) hs

theorem settleRegs_memOk (s : State) (w : Who) (a n : Nat) (hs : s.MemOk) : (s.settleRegs w a n).MemOk :=
  memOk_foldl _ (fun s x h => performAtomic_memOk s x h) _ _ (memOk_foldl _ (fun s l h => returnLoad_memOk s l h) _ s hs)

theorem settleReds_memOk (s : State) (w : Who) (hs : s.MemOk) : (s.settleReds w).MemOk :=
  memOk_foldl _ (fun s r h => performRed_memOk s r h) _ s hs

theorem settleAll_memOk (s : State) (w : Who) (hs : s.MemOk) : (s.settleAll w).MemOk :=
  memOk_foldl _ (fun s a h => performAtomic_memOk s a h) _ _
    (settleReds_memOk _ _ (memOk_foldl _ (fun s x h => performStore_memOk s x h) _ s hs))

theorem releaseAt_memOk (s : State) (w : Who) (scope : Nat) (hs : s.MemOk) : (s.releaseAt w scope).MemOk := by
  have h0 : (s.noteRelease w).MemOk := hs
  unfold State.releaseAt
  dsimp only
  split
  · exact settleAll_memOk _ _ h0
  · have h1 := writeBackAll_memOk _ w.core (settleAll_memOk (s.noteRelease w) w h0)
    split
    · exact evictAll_memOk _ _ _ h1
    · exact h1

theorem acquireAt_memOk (s : State) (w : Who) (scope : Nat) (hs : s.MemOk) : (s.acquireAt w scope).MemOk := by
  unfold State.acquireAt
  split
  · exact hs
  · exact memOk_of_mem (s := s) (by simp [State.dropClean, State.noteAcquire, State.modRecent]) hs

theorem freeAt_memOk (s : State) (pa : Nat) (hs : s.MemOk) : (s.freeAt pa).MemOk :=
  memOk_of_mem rfl (putBytes_memOk _ pa _ (makeFull_memOk _ (lineOf pa) (memOk_of_mem (drawn_mem s 1) hs)))

theorem meet_memOk (s : State) (w : Who) (pa n : Nat) (write : Bool) (hs : s.MemOk) : (s.meet w pa n write).MemOk :=
  memOk_of_mem rfl (memOk_foldl _ (fun u x hu => freeAt_memOk u x hu) _ s hs)

theorem meetParts_memOk (s : State) (w : Who) (pa n : Nat) (write : Bool) (hs : s.MemOk) : (s.meetParts w pa n write).MemOk :=
  memOk_ite (meet_memOk s w pa n write hs) (memOk_foldl _ (fun u i hu => meet_memOk u w (pa + 16 * i) 16 write hu) _ s hs)

theorem promote_memOk (s : State) (core ln : Nat) (hs : s.MemOk) : (s.promote core ln).MemOk := by
  unfold State.promote
  split
  · split
    · exact hs
    · exact writeBackAll_memOk _ _ (memOk_foldl _ (fun s a h => performAtomic_memOk s a h) _ _
        (memOk_foldl _ (fun s x h => performStore_memOk s x h) _ _ (writeBackAll_memOk s _ hs)))
  · exact hs

theorem own_memOk (s : State) (core ln : Nat) (hs : s.MemOk) : (s.own core ln).MemOk := promote_memOk s core ln hs

/-! ### Translation and accesses -/

theorem walkFrom_memOk (levels : List Nat) (s : State) (asid va : Nat) (need : Need) (table : Nat) (hs : s.MemOk) :
    (s.walkFrom asid va need table levels).1.MemOk := by
  induction levels generalizing s table with
  | nil => exact hs
  | cons level levels ih =>
    have h1 := homeRead_memOk s (normPlace s.pkid table + 8 * (va / 2 ^ (12 + 9 * level) % 512)) 8 hs
    unfold State.walkFrom
    split
    · exact hs
    · dsimp only
      split
      · exact h1
      · split
        · exact h1
        · split
          · split
            · exact h1
            · split
              · exact h1
              · split
                · exact h1
                · dsimp only
                  exact memOk_ite h1 (homeWrite_memOk _ _ _ h1)
          · split
            · exact h1
            · exact ih _ _ h1

theorem translate_memOk (s : State) (c : VCtx) (va : Nat) (need : Need) (hs : s.MemOk) : (s.translate c va need).1.MemOk := by
  unfold State.translate
  split
  · exact hs
  · split
    · split
      · exact hs
      · split <;> exact hs
    · dsimp only
      split
      · split <;> exact hs
      · have h1 := walkFrom_memOk [4, 3, 2, 1, 0] ({ s with by_ := { s.by_ with id := 0xF0 } } : State) c.asid va need c.root hs
        split
        · exact h1
        · split
          · split
            · exact memOk_of_mem (by simp) h1
            · exact memOk_of_mem (by simp) h1
          · split
            · exact h1
            · exact h1

theorem access_memOk (s : State) (w : Who) (va n : Nat) (need : Need) (atomic : Bool) (sized : State → Place → Bool) (hs : s.MemOk) :
    (s.access w va n need atomic sized).1.MemOk := by
  have h := translate_memOk s (s.ctxOf w.core w.blk) va need hs
  unfold State.access
  dsimp only
  split
  · rename_i e; rw [e] at h; exact h
  · rename_i e
    rw [e] at h
    split
    · exact h
    · split
      · exact h
      · exact h

theorem traceDebug_memOk (s : State) (b : Block) (w : Who) (cause : Nat) (pc : Dword) (num : Nat) (hs : s.MemOk) :
    (s.traceDebug b w cause pc num).MemOk := traceOf_memOk _ _ _ hs

theorem watch_memOk (s : State) (w : Who) (va n : Nat) (write atomic : Bool) (hs : s.MemOk) : (s.watch w va n write atomic).1.MemOk := by
  unfold State.watch
  split
  · rename_i b t _ _
    dsimp only
    have h1 : ∀ hits : List (Nat × Nat), (hits.foldl (fun s h => if h.2 = 2 then s.traceDebug b w 0x23 t.pc h.1 else s) s).MemOk := by
      intro hits
      refine memOk_foldl _ (fun u x hu => ?_) _ s hs
      split
      · exact traceDebug_memOk _ _ _ _ _ _ hu
      · exact hu
    split
    · exact h1 _
    · split
      · exact h1 _
      · split
        · exact memOk_of_mem (modBlock_mem _ _ _ _) (h1 _)
        · exact h1 _
  · exact hs

theorem noteSize_memOk (s : State) (w : Who) (p : Place) (n : Nat) (sized : State → Place → Bool) (hs : s.MemOk) :
    (s.noteSize w p n sized).MemOk := memOk_ite hs hs

theorem lateAccess_memOk (s : State) (w : Who) (va n : Nat) (need : Need) (atomic : Bool) (sized : State → Place → Bool)
    (late : Place → Option Stop) (hs : s.MemOk) : (s.lateAccess w va n need atomic sized late).1.MemOk := by
  have h := access_memOk s w va n need atomic sized hs
  unfold State.lateAccess
  split
  · rename_i e; rw [e] at h; exact h
  · rename_i s1 p e
    rw [e] at h
    split
    · exact h
    · have h2 := watch_memOk s1 w va n need.writes atomic h
      split
      · rename_i e2; rw [e2] at h2; exact h2
      · rename_i e2; rw [e2] at h2; exact noteSize_memOk _ _ _ _ _ h2

theorem watchedAccess_memOk (s : State) (w : Who) (va n : Nat) (need : Need) (atomic : Bool) (sized : State → Place → Bool)
    (hs : s.MemOk) : (s.watchedAccess w va n need atomic sized).1.MemOk :=
  lateAccess_memOk s w va n need atomic sized _ hs

theorem readAs_memOk (s : State) (w : Who) (p : Place) (n scope : Nat) (hs : s.MemOk) : (s.readAs w p n scope).1.MemOk := by
  have h1 := settleLine_memOk s w (lineOf p.pa) hs
  have h0 : (if (s.settleLine w (lineOf p.pa)).inL1 p scope then (s.settleLine w (lineOf p.pa)).settleSent w.core (lineOf p.pa)
      else s.settleLine w (lineOf p.pa)).MemOk := memOk_ite (settleSent_memOk _ _ _ h1) h1
  unfold State.readAs
  dsimp only
  revert h0
  generalize (if (s.settleLine w (lineOf p.pa)).inL1 p scope then (s.settleLine w (lineOf p.pa)).settleSent w.core (lineOf p.pa)
      else s.settleLine w (lineOf p.pa)) = u
  intro h0
  split
  · split
    · split
      · exact h0
      · exact fill_memOk _ _ _ _ h0
    · exact fill_memOk _ _ _ _ h0
  · exact homeRead_memOk _ p.pa n h0

theorem loadAs_memOk (s : State) (w : Who) (p : Place) (n order scope : Nat) (hs : s.MemOk) : (s.loadAs w p n order scope).1.MemOk := by
  unfold State.loadAs
  dsimp only
  have h0 : ∀ c : Bool, (if c then s.promote w.core (lineOf p.pa) else s).MemOk := by
    intro c
    split
    · exact promote_memOk _ _ _ hs
    · exact hs
  have h1 : ∀ u : State, u.MemOk →
      (if order = 2 then u.settleAll w else if order = 0 then u.meetParts w p.pa n false else u).MemOk := fun u hu =>
    memOk_ite (settleAll_memOk _ _ hu) (memOk_ite (meetParts_memOk _ _ _ _ _ hu) hu)
  have h2 : ∀ u : State, u.MemOk → ∀ sc, (u.readAs w p n sc).1.MemOk := fun u hu sc => readAs_memOk u w p n sc hu
  have h3 : (if scope = 5 ∧ (!decide (stageBase ≤ p.pa)) = true ∧ (!(s.kind p.pa).isPeer) = true then s.promote w.core (lineOf p.pa)
      else s).MemOk := by
    split
    · exact promote_memOk _ _ _ hs
    · exact hs
  exact memOk_ite (h2 _ (h1 _ h3) _) (acquireAt_memOk _ _ _ (h2 _ (h1 _ h3) _))

theorem addStore_mem (s : State) (w : Who) (op : Pend) (scope : Nat) : (s.addStore w op scope).mem = s.mem := by
  simp [State.addStore]

theorem addStore_memOk (s : State) (w : Who) (op : Pend) (scope : Nat) (hs : s.MemOk) : (s.addStore w op scope).MemOk :=
  memOk_of_mem (addStore_mem s w op scope) hs

theorem setCore_memOk (s : State) (c : Nat) (x : Core) (hs : s.MemOk) : (s.setCore c x).MemOk := hs

theorem storeAs_memOk (s : State) (w : Who) (p : Place) (bs : List Byte) (order scope : Nat) (hs : s.MemOk) :
    (s.storeAs w p bs order scope).MemOk := by
  have h1 : ((if order = 0 then s else s.releaseAt w scope).settleLine w (lineOf p.pa)).MemOk :=
    settleLine_memOk _ _ _ (memOk_ite hs (releaseAt_memOk _ _ _ hs))
  unfold State.storeAs
  dsimp only
  have h2 : ∀ u : State, u.MemOk → (if order = 0 then u.meetParts w p.pa bs.length true else u).MemOk := fun u hu =>
    memOk_ite (meetParts_memOk _ _ _ _ _ hu) hu
  have h3 := memOk_ite (c := scope = 1 ∧ (!(((if order = 0 then s else s.releaseAt w scope).settleLine w (lineOf p.pa)).kind p.pa).isPeer) = true ∧
    (!decide (stageBase ≤ p.pa)) = true) (own_memOk _ w.core (lineOf p.pa) h1) h1
  refine h2 _ (memOk_ite (addStore_memOk _ _ _ _ (setCore_memOk _ _ _ (l1Room_memOk _ _ _ (settleSent_memOk _ _ _ h3)))) ?_)
  exact memOk_ite (settleAll_memOk _ _ (addStore_memOk _ _ _ _ h3)) (addStore_memOk _ _ _ _ h3)

theorem engineRead_memOk (s : State) (c : VCtx) (va n : Nat) (hs : s.MemOk) : (s.engineRead c va n).1.MemOk := by
  have h := translate_memOk s c va .r hs
  unfold State.engineRead
  split
  · rename_i e; rw [e] at h; exact h
  · rename_i s1 p e
    rw [e] at h
    have h2 := homeRead_memOk s1 p.pa n h
    dsimp only
    split
    · exact h2
    · exact h2

theorem engineTarget_memOk (s : State) (c : VCtx) (va : Nat) (hs : s.MemOk) : (s.engineTarget c va).1.MemOk := by
  have h := translate_memOk s c va .w hs
  unfold State.engineTarget
  split
  · rename_i e; rw [e] at h; exact h
  · rename_i e; rw [e] at h; exact h

theorem engineWrite_memOk (s : State) (c : VCtx) (va : Nat) (bs : List Byte) (hs : s.MemOk) : (s.engineWrite c va bs).1.MemOk := by
  have h := engineTarget_memOk s c va hs
  unfold State.engineWrite
  split
  · rename_i e; rw [e] at h; exact h
  · rename_i s1 p e
    rw [e] at h
    refine homeWrite_memOk _ _ _ ?_
    split
    · split
      · exact dropLine_memOk _ _ _ h
      · exact h
    · exact h

/-- A fold that carries a result with the state. -/
theorem memOk_foldl_pair {γ ε : Type} (f : State × ε → γ → State × ε) (hf : ∀ a x, a.1.MemOk → (f a x).1.MemOk) (l : List γ)
    (a : State × ε) (ha : a.1.MemOk) : (l.foldl f a).1.MemOk := by
  induction l generalizing a with
  | nil => exact ha
  | cons x l ih => exact ih _ (hf a x ha)

theorem engineReadSpan_memOk (s : State) (c : VCtx) (va n : Nat) (hs : s.MemOk) : (s.engineReadSpan c va n).1.MemOk := by
  refine memOk_foldl_pair _ (fun a x ha => ?_) _ _ hs
  obtain ⟨u, r⟩ := a
  match r with
  | .error e => exact ha
  | .ok bs =>
    have h := engineRead_memOk u c x.1 x.2 ha
    dsimp only
    split
    · rename_i e; rw [e] at h; exact h
    · rename_i e; rw [e] at h; exact h

theorem engineWriteSpan_memOk (s : State) (c : VCtx) (va : Nat) (bs : List Byte) (hs : s.MemOk) : (s.engineWriteSpan c va bs).1.MemOk := by
  refine memOk_foldl_pair _ (fun a x ha => ?_) _ _ hs
  obtain ⟨u, r⟩ := a
  match r with
  | .error e => exact ha
  | .ok _ =>
    have h := engineWrite_memOk u c x.1 ((bs.drop (x.1 - va)).take x.2) ha
    dsimp only
    split
    · rename_i e; rw [e] at h; exact h
    · rename_i e; rw [e] at h; exact h

end Sys2Proof.Machine
end

