-- ==== Sys2Proof/Laws/PerInstr.lean ====
section
/-! SUPPORT. Facts about each instruction as syntax: its encoding fits its length, and bit 0 of the word says which length it is
(04 R67). An event has no words. -/

namespace Sys2Proof.Laws.Size

open Sys2Proof

/-- A word that fits its bytes: the 16-bit form has bit 0 clear, and the 32-bit form of a Densil program has it set. -/
def Fits (bytes : Nat) (fixer : Bool) (w : Nat) : Prop :=
  w < 256 ^ bytes ∧ (bytes = 2 → w % 2 = 0) ∧ (bytes = 4 → fixer = false → w % 2 = 1)

/-- The instruction's word fits its length. -/
def Statement (i : Instr) : Prop := Fits i.bytes i.isFixer (encodeWord i)

/-- An event has no words. -/
theorem fits_event : Fits 0 false 0 := by unfold Fits; omega

theorem mov16 (a b c) : Statement (.mov16 a b c) := by
  change Fits 2 false (wordN15_15S14_10D9_5 0x0000 a b c)
  unfold Fits wordN15_15S14_10D9_5
  exact ⟨by omega, by omega, by omega⟩

theorem iadd16 (a b c) : Statement (.iadd16 a b c) := by
  change Fits 2 false (wordN15_15S14_10D9_5 0x0002 a b c)
  unfold Fits wordN15_15S14_10D9_5
  exact ⟨by omega, by omega, by omega⟩

theorem isub16 (a b c) : Statement (.isub16 a b c) := by
  change Fits 2 false (wordN15_15S14_10D9_5 0x0004 a b c)
  unfold Fits wordN15_15S14_10D9_5
  exact ⟨by omega, by omega, by omega⟩

theorem imul16 (a b c) : Statement (.imul16 a b c) := by
  change Fits 2 false (wordN15_15S14_10D9_5 0x0006 a b c)
  unfold Fits wordN15_15S14_10D9_5
  exact ⟨by omega, by omega, by omega⟩

theorem and16 (a b c) : Statement (.and16 a b c) := by
  change Fits 2 false (wordN15_15S14_10D9_5 0x0008 a b c)
  unfold Fits wordN15_15S14_10D9_5
  exact ⟨by omega, by omega, by omega⟩

theorem or16 (a b c) : Statement (.or16 a b c) := by
  change Fits 2 false (wordN15_15S14_10D9_5 0x000A a b c)
  unfold Fits wordN15_15S14_10D9_5
  exact ⟨by omega, by omega, by omega⟩

theorem xor16 (a b c) : Statement (.xor16 a b c) := by
  change Fits 2 false (wordN15_15S14_10D9_5 0x000C a b c)
  unfold Fits wordN15_15S14_10D9_5
  exact ⟨by omega, by omega, by omega⟩

theorem shl16 (a b c) : Statement (.shl16 a b c) := by
  change Fits 2 false (wordN15_15S14_10D9_5 0x000E a b c)
  unfold Fits wordN15_15S14_10D9_5
  exact ⟨by omega, by omega, by omega⟩

theorem shr16 (a b c) : Statement (.shr16 a b c) := by
  change Fits 2 false (wordN15_15S14_10D9_5 0x0010 a b c)
  unfold Fits wordN15_15S14_10D9_5
  exact ⟨by omega, by omega, by omega⟩

theorem sar16 (a b c) : Statement (.sar16 a b c) := by
  change Fits 2 false (wordN15_15S14_10D9_5 0x0012 a b c)
  unfold Fits wordN15_15S14_10D9_5
  exact ⟨by omega, by omega, by omega⟩

theorem fadd16 (a b c) : Statement (.fadd16 a b c) := by
  change Fits 2 false (wordN15_15S14_10D9_5 0x0014 a b c)
  unfold Fits wordN15_15S14_10D9_5
  exact ⟨by omega, by omega, by omega⟩

theorem fsub16 (a b c) : Statement (.fsub16 a b c) := by
  change Fits 2 false (wordN15_15S14_10D9_5 0x0016 a b c)
  unfold Fits wordN15_15S14_10D9_5
  exact ⟨by omega, by omega, by omega⟩

theorem fmul16 (a b c) : Statement (.fmul16 a b c) := by
  change Fits 2 false (wordN15_15S14_10D9_5 0x0018 a b c)
  unfold Fits wordN15_15S14_10D9_5
  exact ⟨by omega, by omega, by omega⟩

theorem fmin16 (a b c) : Statement (.fmin16 a b c) := by
  change Fits 2 false (wordN15_15S14_10D9_5 0x001A a b c)
  unfold Fits wordN15_15S14_10D9_5
  exact ⟨by omega, by omega, by omega⟩

theorem fmax16 (a b c) : Statement (.fmax16 a b c) := by
  change Fits 2 false (wordN15_15S14_10D9_5 0x001C a b c)
  unfold Fits wordN15_15S14_10D9_5
  exact ⟨by omega, by omega, by omega⟩

theorem fmac16 (a b c) : Statement (.fmac16 a b c) := by
  change Fits 2 false (wordN15_15S14_10D9_5 0x001E a b c)
  unfold Fits wordN15_15S14_10D9_5
  exact ⟨by omega, by omega, by omega⟩

theorem mov (a b c d) : Statement (.mov a b c d) := by
  change Fits 4 false (wordN31_31B26_20A19_13D12_6 0x00000001 a b c d)
  unfold Fits wordN31_31B26_20A19_13D12_6
  exact ⟨by omega, by omega, by omega⟩

theorem iadd (a b c d) : Statement (.iadd a b c d) := by
  change Fits 4 false (wordN31_31B26_20A19_13D12_6 0x08000001 a b c d)
  unfold Fits wordN31_31B26_20A19_13D12_6
  exact ⟨by omega, by omega, by omega⟩

theorem isub (a b c d) : Statement (.isub a b c d) := by
  change Fits 4 false (wordN31_31B26_20A19_13D12_6 0x10000001 a b c d)
  unfold Fits wordN31_31B26_20A19_13D12_6
  exact ⟨by omega, by omega, by omega⟩

theorem imul (a b c d) : Statement (.imul a b c d) := by
  change Fits 4 false (wordN31_31B26_20A19_13D12_6 0x18000001 a b c d)
  unfold Fits wordN31_31B26_20A19_13D12_6
  exact ⟨by omega, by omega, by omega⟩

theorem and (a b c d) : Statement (.and a b c d) := by
  change Fits 4 false (wordN31_31B26_20A19_13D12_6 0x20000001 a b c d)
  unfold Fits wordN31_31B26_20A19_13D12_6
  exact ⟨by omega, by omega, by omega⟩

theorem or (a b c d) : Statement (.or a b c d) := by
  change Fits 4 false (wordN31_31B26_20A19_13D12_6 0x28000001 a b c d)
  unfold Fits wordN31_31B26_20A19_13D12_6
  exact ⟨by omega, by omega, by omega⟩

theorem xor (a b c d) : Statement (.xor a b c d) := by
  change Fits 4 false (wordN31_31B26_20A19_13D12_6 0x30000001 a b c d)
  unfold Fits wordN31_31B26_20A19_13D12_6
  exact ⟨by omega, by omega, by omega⟩

theorem shl (a b c d) : Statement (.shl a b c d) := by
  change Fits 4 false (wordN31_31B26_20A19_13D12_6 0x38000001 a b c d)
  unfold Fits wordN31_31B26_20A19_13D12_6
  exact ⟨by omega, by omega, by omega⟩

theorem shr (a b c d) : Statement (.shr a b c d) := by
  change Fits 4 false (wordN31_31B26_20A19_13D12_6 0x40000001 a b c d)
  unfold Fits wordN31_31B26_20A19_13D12_6
  exact ⟨by omega, by omega, by omega⟩

theorem sar (a b c d) : Statement (.sar a b c d) := by
  change Fits 4 false (wordN31_31B26_20A19_13D12_6 0x48000001 a b c d)
  unfold Fits wordN31_31B26_20A19_13D12_6
  exact ⟨by omega, by omega, by omega⟩

theorem iminS32 (a b c d) : Statement (.iminS32 a b c d) := by
  change Fits 4 false (wordN31_31B26_20A19_13D12_6 0x50000001 a b c d)
  unfold Fits wordN31_31B26_20A19_13D12_6
  exact ⟨by omega, by omega, by omega⟩

theorem imaxS32 (a b c d) : Statement (.imaxS32 a b c d) := by
  change Fits 4 false (wordN31_31B26_20A19_13D12_6 0x58000001 a b c d)
  unfold Fits wordN31_31B26_20A19_13D12_6
  exact ⟨by omega, by omega, by omega⟩

theorem iminN32 (a b c d) : Statement (.iminN32 a b c d) := by
  change Fits 4 false (wordN31_31B26_20A19_13D12_6 0x60000001 a b c d)
  unfold Fits wordN31_31B26_20A19_13D12_6
  exact ⟨by omega, by omega, by omega⟩

theorem imaxN32 (a b c d) : Statement (.imaxN32 a b c d) := by
  change Fits 4 false (wordN31_31B26_20A19_13D12_6 0x68000001 a b c d)
  unfold Fits wordN31_31B26_20A19_13D12_6
  exact ⟨by omega, by omega, by omega⟩

theorem iaddB64 (a b c d) : Statement (.iaddB64 a b c d) := by
  change Fits 4 false (wordN31_31B26_20A19_13D12_6 0x00000003 a b c d)
  unfold Fits wordN31_31B26_20A19_13D12_6
  exact ⟨by omega, by omega, by omega⟩

theorem isubB64 (a b c d) : Statement (.isubB64 a b c d) := by
  change Fits 4 false (wordN31_31B26_20A19_13D12_6 0x08000003 a b c d)
  unfold Fits wordN31_31B26_20A19_13D12_6
  exact ⟨by omega, by omega, by omega⟩

theorem imulwS32 (a b c d) : Statement (.imulwS32 a b c d) := by
  change Fits 4 false (wordN31_31B26_20A19_13D12_6 0x10000003 a b c d)
  unfold Fits wordN31_31B26_20A19_13D12_6
  exact ⟨by omega, by omega, by omega⟩

theorem imulwN32 (a b c d) : Statement (.imulwN32 a b c d) := by
  change Fits 4 false (wordN31_31B26_20A19_13D12_6 0x18000003 a b c d)
  unfold Fits wordN31_31B26_20A19_13D12_6
  exact ⟨by omega, by omega, by omega⟩

theorem shlB64 (a b c d) : Statement (.shlB64 a b c d) := by
  change Fits 4 false (wordN31_31B26_20A19_13D12_6 0x20000003 a b c d)
  unfold Fits wordN31_31B26_20A19_13D12_6
  exact ⟨by omega, by omega, by omega⟩

theorem shrB64 (a b c d) : Statement (.shrB64 a b c d) := by
  change Fits 4 false (wordN31_31B26_20A19_13D12_6 0x28000003 a b c d)
  unfold Fits wordN31_31B26_20A19_13D12_6
  exact ⟨by omega, by omega, by omega⟩

theorem bfxS32 (a b c d) : Statement (.bfxS32 a b c d) := by
  change Fits 4 false (wordN31_31B26_20A19_13D12_6 0x30000003 a b c d)
  unfold Fits wordN31_31B26_20A19_13D12_6
  exact ⟨by omega, by omega, by omega⟩

theorem bfxN32 (a b c d) : Statement (.bfxN32 a b c d) := by
  change Fits 4 false (wordN31_31B26_20A19_13D12_6 0x38000003 a b c d)
  unfold Fits wordN31_31B26_20A19_13D12_6
  exact ⟨by omega, by omega, by omega⟩

theorem bfiB32 (a b c d) : Statement (.bfiB32 a b c d) := by
  change Fits 4 false (wordN31_31B26_20A19_13D12_6 0x40000003 a b c d)
  unfold Fits wordN31_31B26_20A19_13D12_6
  exact ⟨by omega, by omega, by omega⟩

theorem popcB32 (a b c) : Statement (.popcB32 a b c) := by
  change Fits 4 false (wordN31_31A19_13D12_6 0x4FC00003 a b c)
  unfold Fits wordN31_31A19_13D12_6
  exact ⟨by omega, by omega, by omega⟩

theorem iaddImm (a b c) : Statement (.iaddImm a b c) := by
  change Fits 4 false (wordI31_23A19_13D12_6 0x00000005 a b c)
  unfold Fits wordI31_23A19_13D12_6
  exact ⟨by omega, by omega, by omega⟩

theorem imulImm (a b c) : Statement (.imulImm a b c) := by
  change Fits 4 false (wordI31_23A19_13D12_6 0x00100005 a b c)
  unfold Fits wordI31_23A19_13D12_6
  exact ⟨by omega, by omega, by omega⟩

theorem andImm (a b c) : Statement (.andImm a b c) := by
  change Fits 4 false (wordI31_23A19_13D12_6 0x00200005 a b c)
  unfold Fits wordI31_23A19_13D12_6
  exact ⟨by omega, by omega, by omega⟩

theorem orImm (a b c) : Statement (.orImm a b c) := by
  change Fits 4 false (wordI31_23A19_13D12_6 0x00300005 a b c)
  unfold Fits wordI31_23A19_13D12_6
  exact ⟨by omega, by omega, by omega⟩

theorem xorImm (a b c) : Statement (.xorImm a b c) := by
  change Fits 4 false (wordI31_23A19_13D12_6 0x00400005 a b c)
  unfold Fits wordI31_23A19_13D12_6
  exact ⟨by omega, by omega, by omega⟩

theorem shlImm (a b c) : Statement (.shlImm a b c) := by
  change Fits 4 false (wordI31_23A19_13D12_6 0x00500005 a b c)
  unfold Fits wordI31_23A19_13D12_6
  exact ⟨by omega, by omega, by omega⟩

theorem shrImm (a b c) : Statement (.shrImm a b c) := by
  change Fits 4 false (wordI31_23A19_13D12_6 0x00600005 a b c)
  unfold Fits wordI31_23A19_13D12_6
  exact ⟨by omega, by omega, by omega⟩

theorem sarImm (a b c) : Statement (.sarImm a b c) := by
  change Fits 4 false (wordI31_23A19_13D12_6 0x00700005 a b c)
  unfold Fits wordI31_23A19_13D12_6
  exact ⟨by omega, by omega, by omega⟩

theorem mvk (a b) : Statement (.mvk a b) := by
  change Fits 4 false (wordK31_14D12_6 0x00000007 a b)
  unfold Fits wordK31_14D12_6
  exact ⟨by omega, by omega, by omega⟩

theorem mvkh (a b) : Statement (.mvkh a b) := by
  change Fits 4 false (wordK31_14D12_6 0x00002007 a b)
  unfold Fits wordK31_14D12_6
  exact ⟨by omega, by omega, by omega⟩

theorem fadd (a b c d) : Statement (.fadd a b c d) := by
  change Fits 4 false (wordN31_31B26_20A19_13D12_6 0x00000009 a b c d)
  unfold Fits wordN31_31B26_20A19_13D12_6
  exact ⟨by omega, by omega, by omega⟩

theorem fsub (a b c d) : Statement (.fsub a b c d) := by
  change Fits 4 false (wordN31_31B26_20A19_13D12_6 0x08000009 a b c d)
  unfold Fits wordN31_31B26_20A19_13D12_6
  exact ⟨by omega, by omega, by omega⟩

theorem fmul (a b c d) : Statement (.fmul a b c d) := by
  change Fits 4 false (wordN31_31B26_20A19_13D12_6 0x10000009 a b c d)
  unfold Fits wordN31_31B26_20A19_13D12_6
  exact ⟨by omega, by omega, by omega⟩

theorem fmin (a b c d) : Statement (.fmin a b c d) := by
  change Fits 4 false (wordN31_31B26_20A19_13D12_6 0x18000009 a b c d)
  unfold Fits wordN31_31B26_20A19_13D12_6
  exact ⟨by omega, by omega, by omega⟩

theorem fmax (a b c d) : Statement (.fmax a b c d) := by
  change Fits 4 false (wordN31_31B26_20A19_13D12_6 0x20000009 a b c d)
  unfold Fits wordN31_31B26_20A19_13D12_6
  exact ⟨by omega, by omega, by omega⟩

theorem fdiv (a b c d) : Statement (.fdiv a b c d) := by
  change Fits 4 false (wordN31_31B26_20A19_13D12_6 0x28000009 a b c d)
  unfold Fits wordN31_31B26_20A19_13D12_6
  exact ⟨by omega, by omega, by omega⟩

theorem frint (a b c) : Statement (.frint a b c) := by
  change Fits 4 false (wordN31_31A19_13D12_6 0x37C00009 a b c)
  unfold Fits wordN31_31A19_13D12_6
  exact ⟨by omega, by omega, by omega⟩

theorem fsgnj (a b c d) : Statement (.fsgnj a b c d) := by
  change Fits 4 false (wordN31_31B26_20A19_13D12_6 0x38000009 a b c d)
  unfold Fits wordN31_31B26_20A19_13D12_6
  exact ⟨by omega, by omega, by omega⟩

theorem faddF64 (a b c d) : Statement (.faddF64 a b c d) := by
  change Fits 4 false (wordN31_31B26_20A19_13D12_6 0x0000000B a b c d)
  unfold Fits wordN31_31B26_20A19_13D12_6
  exact ⟨by omega, by omega, by omega⟩

theorem fmulF64 (a b c d) : Statement (.fmulF64 a b c d) := by
  change Fits 4 false (wordN31_31B26_20A19_13D12_6 0x0800000B a b c d)
  unfold Fits wordN31_31B26_20A19_13D12_6
  exact ⟨by omega, by omega, by omega⟩

theorem fdivF64 (a b c d) : Statement (.fdivF64 a b c d) := by
  change Fits 4 false (wordN31_31B26_20A19_13D12_6 0x1000000B a b c d)
  unfold Fits wordN31_31B26_20A19_13D12_6
  exact ⟨by omega, by omega, by omega⟩

theorem fsqrtF64 (a b c) : Statement (.fsqrtF64 a b c) := by
  change Fits 4 false (wordN31_31A19_13D12_6 0x1FC0000B a b c)
  unfold Fits wordN31_31A19_13D12_6
  exact ⟨by omega, by omega, by omega⟩

theorem fminF64 (a b c d) : Statement (.fminF64 a b c d) := by
  change Fits 4 false (wordN31_31B26_20A19_13D12_6 0x2000000B a b c d)
  unfold Fits wordN31_31B26_20A19_13D12_6
  exact ⟨by omega, by omega, by omega⟩

theorem fmaxF64 (a b c d) : Statement (.fmaxF64 a b c d) := by
  change Fits 4 false (wordN31_31B26_20A19_13D12_6 0x2800000B a b c d)
  unfold Fits wordN31_31B26_20A19_13D12_6
  exact ⟨by omega, by omega, by omega⟩

theorem faddF16 (a b c d) : Statement (.faddF16 a b c d) := by
  change Fits 4 false (wordN31_31B26_20A19_13D12_6 0x0000000D a b c d)
  unfold Fits wordN31_31B26_20A19_13D12_6
  exact ⟨by omega, by omega, by omega⟩

theorem fmulF16 (a b c d) : Statement (.fmulF16 a b c d) := by
  change Fits 4 false (wordN31_31B26_20A19_13D12_6 0x0800000D a b c d)
  unfold Fits wordN31_31B26_20A19_13D12_6
  exact ⟨by omega, by omega, by omega⟩

theorem fmaxF16 (a b c d) : Statement (.fmaxF16 a b c d) := by
  change Fits 4 false (wordN31_31B26_20A19_13D12_6 0x1000000D a b c d)
  unfold Fits wordN31_31B26_20A19_13D12_6
  exact ⟨by omega, by omega, by omega⟩

theorem faddBf16 (a b c d) : Statement (.faddBf16 a b c d) := by
  change Fits 4 false (wordN31_31B26_20A19_13D12_6 0x1800000D a b c d)
  unfold Fits wordN31_31B26_20A19_13D12_6
  exact ⟨by omega, by omega, by omega⟩

theorem fmulBf16 (a b c d) : Statement (.fmulBf16 a b c d) := by
  change Fits 4 false (wordN31_31B26_20A19_13D12_6 0x2000000D a b c d)
  unfold Fits wordN31_31B26_20A19_13D12_6
  exact ⟨by omega, by omega, by omega⟩

theorem fmaxBf16 (a b c d) : Statement (.fmaxBf16 a b c d) := by
  change Fits 4 false (wordN31_31B26_20A19_13D12_6 0x2800000D a b c d)
  unfold Fits wordN31_31B26_20A19_13D12_6
  exact ⟨by omega, by omega, by omega⟩

theorem fmaF32 (a b c d e f) : Statement (.fmaF32 a b c d e f) := by
  change Fits 4 false (wordN31_31G30_30C29_29B26_20A19_13D12_6 0x0000000F a b c d e f)
  unfold Fits wordN31_31G30_30C29_29B26_20A19_13D12_6
  exact ⟨by omega, by omega, by omega⟩

theorem fmaF64 (a b c d e f) : Statement (.fmaF64 a b c d e f) := by
  change Fits 4 false (wordN31_31G30_30C29_29B26_20A19_13D12_6 0x0800000F a b c d e f)
  unfold Fits wordN31_31G30_30C29_29B26_20A19_13D12_6
  exact ⟨by omega, by omega, by omega⟩

theorem fmaF16x2 (a b c d e f) : Statement (.fmaF16x2 a b c d e f) := by
  change Fits 4 false (wordN31_31G30_30C29_29B26_20A19_13D12_6 0x1000000F a b c d e f)
  unfold Fits wordN31_31G30_30C29_29B26_20A19_13D12_6
  exact ⟨by omega, by omega, by omega⟩

theorem fmaBf16x2 (a b c d e f) : Statement (.fmaBf16x2 a b c d e f) := by
  change Fits 4 false (wordN31_31G30_30C29_29B26_20A19_13D12_6 0x1800000F a b c d e f)
  unfold Fits wordN31_31G30_30C29_29B26_20A19_13D12_6
  exact ⟨by omega, by omega, by omega⟩

theorem ceq (a b c d) : Statement (.ceq a b c d) := by
  change Fits 4 false (wordT31_30B25_19A18_12P11_6 0x00000011 a b c d)
  unfold Fits wordT31_30B25_19A18_12P11_6
  exact ⟨by omega, by omega, by omega⟩

theorem cne (a b c d) : Statement (.cne a b c d) := by
  change Fits 4 false (wordT31_30B25_19A18_12P11_6 0x04000011 a b c d)
  unfold Fits wordT31_30B25_19A18_12P11_6
  exact ⟨by omega, by omega, by omega⟩

theorem clt (a b c d) : Statement (.clt a b c d) := by
  change Fits 4 false (wordT31_30B25_19A18_12P11_6 0x08000011 a b c d)
  unfold Fits wordT31_30B25_19A18_12P11_6
  exact ⟨by omega, by omega, by omega⟩

theorem cle (a b c d) : Statement (.cle a b c d) := by
  change Fits 4 false (wordT31_30B25_19A18_12P11_6 0x0C000011 a b c d)
  unfold Fits wordT31_30B25_19A18_12P11_6
  exact ⟨by omega, by omega, by omega⟩

theorem cgt (a b c d) : Statement (.cgt a b c d) := by
  change Fits 4 false (wordT31_30B25_19A18_12P11_6 0x10000011 a b c d)
  unfold Fits wordT31_30B25_19A18_12P11_6
  exact ⟨by omega, by omega, by omega⟩

theorem cge (a b c d) : Statement (.cge a b c d) := by
  change Fits 4 false (wordT31_30B25_19A18_12P11_6 0x14000011 a b c d)
  unfold Fits wordT31_30B25_19A18_12P11_6
  exact ⟨by omega, by omega, by omega⟩

theorem cord (a b c d) : Statement (.cord a b c d) := by
  change Fits 4 false (wordT30_30B25_19A18_12P11_6 0x98000011 a b c d)
  unfold Fits wordT30_30B25_19A18_12P11_6
  exact ⟨by omega, by omega, by omega⟩

theorem cuno (a b c d) : Statement (.cuno a b c d) := by
  change Fits 4 false (wordT30_30B25_19A18_12P11_6 0x9C000011 a b c d)
  unfold Fits wordT30_30B25_19A18_12P11_6
  exact ⟨by omega, by omega, by omega⟩

theorem cueq (a b c d) : Statement (.cueq a b c d) := by
  change Fits 4 false (wordT30_30B25_19A18_12P11_6 0xA0000011 a b c d)
  unfold Fits wordT30_30B25_19A18_12P11_6
  exact ⟨by omega, by omega, by omega⟩

theorem cune (a b c d) : Statement (.cune a b c d) := by
  change Fits 4 false (wordT30_30B25_19A18_12P11_6 0xA4000011 a b c d)
  unfold Fits wordT30_30B25_19A18_12P11_6
  exact ⟨by omega, by omega, by omega⟩

theorem cult (a b c d) : Statement (.cult a b c d) := by
  change Fits 4 false (wordT30_30B25_19A18_12P11_6 0xA8000011 a b c d)
  unfold Fits wordT30_30B25_19A18_12P11_6
  exact ⟨by omega, by omega, by omega⟩

theorem cule (a b c d) : Statement (.cule a b c d) := by
  change Fits 4 false (wordT30_30B25_19A18_12P11_6 0xAC000011 a b c d)
  unfold Fits wordT30_30B25_19A18_12P11_6
  exact ⟨by omega, by omega, by omega⟩

theorem cugt (a b c d) : Statement (.cugt a b c d) := by
  change Fits 4 false (wordT30_30B25_19A18_12P11_6 0xB0000011 a b c d)
  unfold Fits wordT30_30B25_19A18_12P11_6
  exact ⟨by omega, by omega, by omega⟩

theorem cuge (a b c d) : Statement (.cuge a b c d) := by
  change Fits 4 false (wordT30_30B25_19A18_12P11_6 0xB4000011 a b c d)
  unfold Fits wordT30_30B25_19A18_12P11_6
  exact ⟨by omega, by omega, by omega⟩

theorem ctrue (a b c d) : Statement (.ctrue a b c d) := by
  change Fits 4 false (wordT31_30B25_19A18_12P11_6 0x38000011 a b c d)
  unfold Fits wordT31_30B25_19A18_12P11_6
  exact ⟨by omega, by omega, by omega⟩

theorem cfalse (a b c d) : Statement (.cfalse a b c d) := by
  change Fits 4 false (wordT31_30B25_19A18_12P11_6 0x3C000011 a b c d)
  unfold Fits wordT31_30B25_19A18_12P11_6
  exact ⟨by omega, by omega, by omega⟩

theorem plop (a b c d) : Statement (.plop a b c d) := by
  change Fits 4 false (wordF27_24B23_18A17_12P11_6 0x00000013 a b c d)
  unfold Fits wordF27_24B23_18A17_12P11_6
  exact ⟨by omega, by omega, by omega⟩

theorem pland (a b c d) : Statement (.pland a b c d) := by
  change Fits 4 false (wordF27_24B23_18A17_12P11_6 0x10000013 a b c d)
  unfold Fits wordF27_24B23_18A17_12P11_6
  exact ⟨by omega, by omega, by omega⟩

theorem plor (a b c d) : Statement (.plor a b c d) := by
  change Fits 4 false (wordF27_24B23_18A17_12P11_6 0x20000013 a b c d)
  unfold Fits wordF27_24B23_18A17_12P11_6
  exact ⟨by omega, by omega, by omega⟩

theorem plxor (a b c d) : Statement (.plxor a b c d) := by
  change Fits 4 false (wordF27_24B23_18A17_12P11_6 0x30000013 a b c d)
  unfold Fits wordF27_24B23_18A17_12P11_6
  exact ⟨by omega, by omega, by omega⟩

theorem sel (a b c d e) : Statement (.sel a b c d e) := by
  change Fits 4 false (wordN31_31S30_27B26_20A19_13D12_6 0x00000015 a b c d e)
  unfold Fits wordN31_31S30_27B26_20A19_13D12_6
  exact ⟨by omega, by omega, by omega⟩

theorem exp2 (a b c) : Statement (.exp2 a b c) := by
  change Fits 4 false (wordN31_31A19_13D12_6 0x07C00017 a b c)
  unfold Fits wordN31_31A19_13D12_6
  exact ⟨by omega, by omega, by omega⟩

theorem log2 (a b c) : Statement (.log2 a b c) := by
  change Fits 4 false (wordN31_31A19_13D12_6 0x0FC00017 a b c)
  unfold Fits wordN31_31A19_13D12_6
  exact ⟨by omega, by omega, by omega⟩

theorem rcp (a b c) : Statement (.rcp a b c) := by
  change Fits 4 false (wordN31_31A19_13D12_6 0x17C00017 a b c)
  unfold Fits wordN31_31A19_13D12_6
  exact ⟨by omega, by omega, by omega⟩

theorem rsq (a b c) : Statement (.rsq a b c) := by
  change Fits 4 false (wordN31_31A19_13D12_6 0x1FC00017 a b c)
  unfold Fits wordN31_31A19_13D12_6
  exact ⟨by omega, by omega, by omega⟩

theorem sqrt (a b c) : Statement (.sqrt a b c) := by
  change Fits 4 false (wordN31_31A19_13D12_6 0x27C00017 a b c)
  unfold Fits wordN31_31A19_13D12_6
  exact ⟨by omega, by omega, by omega⟩

theorem sin (a b c) : Statement (.sin a b c) := by
  change Fits 4 false (wordN31_31A19_13D12_6 0x2FC00017 a b c)
  unfold Fits wordN31_31A19_13D12_6
  exact ⟨by omega, by omega, by omega⟩

theorem cos (a b c) : Statement (.cos a b c) := by
  change Fits 4 false (wordN31_31A19_13D12_6 0x37C00017 a b c)
  unfold Fits wordN31_31A19_13D12_6
  exact ⟨by omega, by omega, by omega⟩

theorem tanh (a b c) : Statement (.tanh a b c) := by
  change Fits 4 false (wordN31_31A19_13D12_6 0x3FC00017 a b c)
  unfold Fits wordN31_31A19_13D12_6
  exact ⟨by omega, by omega, by omega⟩

theorem movs (a b) : Statement (.movs a b) := by
  change Fits 4 false (wordS24_13D12_6 0x00000019 a b)
  unfold Fits wordS24_13D12_6
  exact ⟨by omega, by omega, by omega⟩

theorem sets (a b) : Statement (.sets a b) := by
  change Fits 4 false (wordS24_13A12_6 0x02000019 a b)
  unfold Fits wordS24_13A12_6
  exact ⟨by omega, by omega, by omega⟩

theorem setwb (a) : Statement (.setwb a) := by
  change Fits 4 false (wordW24_13 0x04000019 a)
  unfold Fits wordW24_13
  exact ⟨by omega, by omega, by omega⟩

theorem xset (a b) : Statement (.xset a b) := by
  change Fits 4 false (wordK24_23U22_13 0x06000019 a b)
  unfold Fits wordK24_23U22_13
  exact ⟨by omega, by omega, by omega⟩

theorem xadd (a b) : Statement (.xadd a b) := by
  change Fits 4 false (wordK24_23V22_13 0x08000019 a b)
  unfold Fits wordK24_23V22_13
  exact ⟨by omega, by omega, by omega⟩

theorem nop : Statement (.nop) := by
  change Fits 4 false 0x0A000019
  unfold Fits
  exact ⟨by omega, by omega, by omega⟩

theorem fence (a b) : Statement (.fence a b) := by
  change Fits 4 false (wordR17_16S15_13 0x0C000019 a b)
  unfold Fits wordR17_16S15_13
  exact ⟨by omega, by omega, by omega⟩

theorem oswait (a) : Statement (.oswait a) := by
  change Fits 4 false (wordN24_13 0x0E000019 a)
  unfold Fits wordN24_13
  exact ⟨by omega, by omega, by omega⟩

theorem rcflush (a b) : Statement (.rcflush a b) := by
  change Fits 4 false (wordK24_13A12_6 0x10000019 a b)
  unfold Fits wordK24_13A12_6
  exact ⟨by omega, by omega, by omega⟩

theorem tmark (a b) : Statement (.tmark a b) := by
  change Fits 4 false (wordI24_13A12_6 0x12000019 a b)
  unfold Fits wordI24_13A12_6
  exact ⟨by omega, by omega, by omega⟩

theorem tsmp : Statement (.tsmp) := by
  change Fits 4 false 0x14000019
  unfold Fits
  exact ⟨by omega, by omega, by omega⟩

theorem br (a b c d) : Statement (.br a b c d) := by
  change Fits 4 false (wordO31_14Q13_13P12_7U6_6 0x0000001B a b c d)
  unfold Fits wordO31_14Q13_13P12_7U6_6
  exact ⟨by omega, by omega, by omega⟩

theorem call (a b) : Statement (.call a b) := by
  change Fits 4 false (wordO31_7U6_6 0x0000001D a b)
  unfold Fits wordO31_7U6_6
  exact ⟨by omega, by omega, by omega⟩

theorem calli (a b) : Statement (.calli a b) := by
  change Fits 4 false (wordU13_13A12_6 0x0000001F a b)
  unfold Fits wordU13_13A12_6
  exact ⟨by omega, by omega, by omega⟩

theorem jmpi (a b) : Statement (.jmpi a b) := by
  change Fits 4 false (wordU13_13A12_6 0x0200001F a b)
  unfold Fits wordU13_13A12_6
  exact ⟨by omega, by omega, by omega⟩

theorem ret (a) : Statement (.ret a) := by
  change Fits 4 false (wordU13_13 0x0400001F a)
  unfold Fits wordU13_13
  exact ⟨by omega, by omega, by omega⟩

theorem trap (a) : Statement (.trap a) := by
  change Fits 4 false (wordN20_13 0x0600001F a)
  unfold Fits wordN20_13
  exact ⟨by omega, by omega, by omega⟩

theorem trapret : Statement (.trapret) := by
  change Fits 4 false 0x0800001F
  unfold Fits
  exact ⟨by omega, by omega, by omega⟩

theorem exit : Statement (.exit) := by
  change Fits 4 false 0x0A00001F
  unfold Fits
  exact ⟨by omega, by omega, by omega⟩

theorem yield : Statement (.yield) := by
  change Fits 4 false 0x0C00001F
  unfold Fits
  exact ⟨by omega, by omega, by omega⟩

theorem loop (a b c) : Statement (.loop a b c) := by
  change Fits 4 false (wordO31_19A18_12L11_10 0x00000021 a b c)
  unfold Fits wordO31_19A18_12L11_10
  exact ⟨by omega, by omega, by omega⟩

theorem loopi (a b c) : Statement (.loopi a b c) := by
  change Fits 4 false (wordO31_19I18_12L11_10 0x00000061 a b c)
  unfold Fits wordO31_19I18_12L11_10
  exact ⟨by omega, by omega, by omega⟩

theorem lbrk (a) : Statement (.lbrk a) := by
  change Fits 4 false (wordL11_10 0x000000A1 a)
  unfold Fits wordL11_10
  exact ⟨by omega, by omega, by omega⟩

theorem lcont (a) : Statement (.lcont a) := by
  change Fits 4 false (wordL11_10 0x000000E1 a)
  unfold Fits wordL11_10
  exact ⟨by omega, by omega, by omega⟩

theorem bar : Statement (.bar) := by
  change Fits 4 false 0x00000023
  unfold Fits
  exact ⟨by omega, by omega, by omega⟩

theorem cvarm (a b) : Statement (.cvarm a b) := by
  change Fits 4 false (wordK16_13A12_6 0x02000023 a b)
  unfold Fits wordK16_13A12_6
  exact ⟨by omega, by omega, by omega⟩

theorem cvsign (a) : Statement (.cvsign a) := by
  change Fits 4 false (wordK16_13 0x04000023 a)
  unfold Fits wordK16_13
  exact ⟨by omega, by omega, by omega⟩

theorem cvsync (a) : Statement (.cvsync a) := by
  change Fits 4 false (wordK16_13 0x04020023 a)
  unfold Fits wordK16_13
  exact ⟨by omega, by omega, by omega⟩

theorem cvwait (a) : Statement (.cvwait a) := by
  change Fits 4 false (wordK16_13 0x06000023 a)
  unfold Fits wordK16_13
  exact ⟨by omega, by omega, by omega⟩

theorem shflIdx (a b c d) : Statement (.shflIdx a b c d) := by
  change Fits 4 false (wordN31_31B26_20A19_13D12_6 0x00000025 a b c d)
  unfold Fits wordN31_31B26_20A19_13D12_6
  exact ⟨by omega, by omega, by omega⟩

theorem shflUp (a b c d) : Statement (.shflUp a b c d) := by
  change Fits 4 false (wordN31_31B26_20A19_13D12_6 0x08000025 a b c d)
  unfold Fits wordN31_31B26_20A19_13D12_6
  exact ⟨by omega, by omega, by omega⟩

theorem shflDn (a b c d) : Statement (.shflDn a b c d) := by
  change Fits 4 false (wordN31_31B26_20A19_13D12_6 0x10000025 a b c d)
  unfold Fits wordN31_31B26_20A19_13D12_6
  exact ⟨by omega, by omega, by omega⟩

theorem shflXor (a b c d) : Statement (.shflXor a b c d) := by
  change Fits 4 false (wordN31_31B26_20A19_13D12_6 0x18000025 a b c d)
  unfold Fits wordN31_31B26_20A19_13D12_6
  exact ⟨by omega, by omega, by omega⟩

theorem qxchXor (a b c d) : Statement (.qxchXor a b c d) := by
  change Fits 4 false (wordN31_31M21_20A19_13D12_6 0x20000025 a b c d)
  unfold Fits wordN31_31M21_20A19_13D12_6
  exact ⟨by omega, by omega, by omega⟩

theorem qxchBc (a b c d) : Statement (.qxchBc a b c d) := by
  change Fits 4 false (wordN31_31M21_20A19_13D12_6 0x20400025 a b c d)
  unfold Fits wordN31_31M21_20A19_13D12_6
  exact ⟨by omega, by omega, by omega⟩

theorem gqMask (a b c) : Statement (.gqMask a b c) := by
  change Fits 4 false (wordN31_31A19_13D12_6 0x28000025 a b c)
  unfold Fits wordN31_31A19_13D12_6
  exact ⟨by omega, by omega, by omega⟩

theorem gqEvery (a b c) : Statement (.gqEvery a b c) := by
  change Fits 4 false (wordN31_31A19_13D12_6 0x28100025 a b c)
  unfold Fits wordN31_31A19_13D12_6
  exact ⟨by omega, by omega, by omega⟩

theorem gqSome (a b c) : Statement (.gqSome a b c) := by
  change Fits 4 false (wordN31_31A19_13D12_6 0x28200025 a b c)
  unfold Fits wordN31_31A19_13D12_6
  exact ⟨by omega, by omega, by omega⟩

theorem gqSame (a b c) : Statement (.gqSame a b c) := by
  change Fits 4 false (wordN31_31A19_13D12_6 0x28300025 a b c)
  unfold Fits wordN31_31A19_13D12_6
  exact ⟨by omega, by omega, by omega⟩

theorem peersB32 (a b c) : Statement (.peersB32 a b c) := by
  change Fits 4 false (wordN31_31A19_13D12_6 0x30000025 a b c)
  unfold Fits wordN31_31A19_13D12_6
  exact ⟨by omega, by omega, by omega⟩

theorem peersB64 (a b c) : Statement (.peersB64 a b c) := by
  change Fits 4 false (wordN31_31A19_13D12_6 0x30100025 a b c)
  unfold Fits wordN31_31A19_13D12_6
  exact ⟨by omega, by omega, by omega⟩

theorem bflyS64 (a b c d) : Statement (.bflyS64 a b c d) := by
  change Fits 4 false (wordN31_31K22_20A19_13D12_6 0x38000025 a b c d)
  unfold Fits wordN31_31K22_20A19_13D12_6
  exact ⟨by omega, by omega, by omega⟩

theorem scanAdd (a b c) : Statement (.scanAdd a b c) := by
  change Fits 4 false (wordN31_31A19_13D12_6 0x00000027 a b c)
  unfold Fits wordN31_31A19_13D12_6
  exact ⟨by omega, by omega, by omega⟩

theorem scanFadd (a b c) : Statement (.scanFadd a b c) := by
  change Fits 4 false (wordN31_31A19_13D12_6 0x00100027 a b c)
  unfold Fits wordN31_31A19_13D12_6
  exact ⟨by omega, by omega, by omega⟩

theorem scanMax (a b c) : Statement (.scanMax a b c) := by
  change Fits 4 false (wordN31_31A19_13D12_6 0x00200027 a b c)
  unfold Fits wordN31_31A19_13D12_6
  exact ⟨by omega, by omega, by omega⟩

theorem scanMin (a b c) : Statement (.scanMin a b c) := by
  change Fits 4 false (wordN31_31A19_13D12_6 0x00300027 a b c)
  unfold Fits wordN31_31A19_13D12_6
  exact ⟨by omega, by omega, by omega⟩

theorem scanxAdd (a b c) : Statement (.scanxAdd a b c) := by
  change Fits 4 false (wordN31_31A19_13D12_6 0x00400027 a b c)
  unfold Fits wordN31_31A19_13D12_6
  exact ⟨by omega, by omega, by omega⟩

theorem scanxFadd (a b c) : Statement (.scanxFadd a b c) := by
  change Fits 4 false (wordN31_31A19_13D12_6 0x00500027 a b c)
  unfold Fits wordN31_31A19_13D12_6
  exact ⟨by omega, by omega, by omega⟩

theorem scanxMax (a b c) : Statement (.scanxMax a b c) := by
  change Fits 4 false (wordN31_31A19_13D12_6 0x00600027 a b c)
  unfold Fits wordN31_31A19_13D12_6
  exact ⟨by omega, by omega, by omega⟩

theorem scanxMin (a b c) : Statement (.scanxMin a b c) := by
  change Fits 4 false (wordN31_31A19_13D12_6 0x00700027 a b c)
  unfold Fits wordN31_31A19_13D12_6
  exact ⟨by omega, by omega, by omega⟩

theorem gredAdd (a b c) : Statement (.gredAdd a b c) := by
  change Fits 4 false (wordN31_31A19_13D12_6 0x08000027 a b c)
  unfold Fits wordN31_31A19_13D12_6
  exact ⟨by omega, by omega, by omega⟩

theorem gredFadd (a b c) : Statement (.gredFadd a b c) := by
  change Fits 4 false (wordN31_31A19_13D12_6 0x08100027 a b c)
  unfold Fits wordN31_31A19_13D12_6
  exact ⟨by omega, by omega, by omega⟩

theorem gredMax (a b c) : Statement (.gredMax a b c) := by
  change Fits 4 false (wordN31_31A19_13D12_6 0x08200027 a b c)
  unfold Fits wordN31_31A19_13D12_6
  exact ⟨by omega, by omega, by omega⟩

theorem gredMin (a b c) : Statement (.gredMin a b c) := by
  change Fits 4 false (wordN31_31A19_13D12_6 0x08300027 a b c)
  unfold Fits wordN31_31A19_13D12_6
  exact ⟨by omega, by omega, by omega⟩

theorem cmpct (a b c d) : Statement (.cmpct a b c d) := by
  change Fits 4 false (wordN31_31B26_20A19_13D12_6 0x10000027 a b c d)
  unfold Fits wordN31_31B26_20A19_13D12_6
  exact ⟨by omega, by omega, by omega⟩

theorem regroup : Statement (.regroup) := by
  change Fits 4 false 0x18000027
  unfold Fits
  exact ⟨by omega, by omega, by omega⟩

theorem remap (a b c) : Statement (.remap a b c) := by
  change Fits 4 false (wordN31_31A19_13D12_6 0x27C00027 a b c)
  unfold Fits wordN31_31A19_13D12_6
  exact ⟨by omega, by omega, by omega⟩

theorem expand (a b c d) : Statement (.expand a b c d) := by
  change Fits 4 false (wordN31_31B26_20A19_13D12_6 0x28000027 a b c d)
  unfold Fits wordN31_31B26_20A19_13D12_6
  exact ⟨by omega, by omega, by omega⟩

theorem cvt (a b c d) : Statement (.cvt a b c d) := by
  change Fits 4 false (wordN31_31B26_20A19_13D12_6 0x00000029 a b c d)
  unfold Fits wordN31_31B26_20A19_13D12_6
  exact ⟨by omega, by omega, by omega⟩

theorem qnt (a b c d) : Statement (.qnt a b c d) := by
  change Fits 4 false (wordN31_31B26_20A19_13D12_6 0x08000029 a b c d)
  unfold Fits wordN31_31B26_20A19_13D12_6
  exact ⟨by omega, by omega, by omega⟩

theorem dqnt (a b c d) : Statement (.dqnt a b c d) := by
  change Fits 4 false (wordN31_31B26_20A19_13D12_6 0x10000029 a b c d)
  unfold Fits wordN31_31B26_20A19_13D12_6
  exact ⟨by omega, by omega, by omega⟩

theorem qscl (a b c d) : Statement (.qscl a b c d) := by
  change Fits 4 false (wordN31_31B26_20A19_13D12_6 0x18000029 a b c d)
  unfold Fits wordN31_31B26_20A19_13D12_6
  exact ⟨by omega, by omega, by omega⟩

theorem rot (a b c d) : Statement (.rot a b c d) := by
  change Fits 4 false (wordN31_31B26_20A19_13D12_6 0x20000029 a b c d)
  unfold Fits wordN31_31B26_20A19_13D12_6
  exact ⟨by omega, by omega, by omega⟩

theorem irot (a b c d) : Statement (.irot a b c d) := by
  change Fits 4 false (wordN31_31B26_20A19_13D12_6 0x28000029 a b c d)
  unfold Fits wordN31_31B26_20A19_13D12_6
  exact ⟨by omega, by omega, by omega⟩

theorem seed (a b c d) : Statement (.seed a b c d) := by
  change Fits 4 false (wordN31_31K22_20A19_13D12_6 0x30000029 a b c d)
  unfold Fits wordN31_31K22_20A19_13D12_6
  exact ⟨by omega, by omega, by omega⟩

theorem seedr (a b c d) : Statement (.seedr a b c d) := by
  change Fits 4 false (wordN31_31K22_20A19_13D12_6 0x38000029 a b c d)
  unfold Fits wordN31_31K22_20A19_13D12_6
  exact ⟨by omega, by omega, by omega⟩

theorem tagmk (a b c) : Statement (.tagmk a b c) := by
  change Fits 4 false (wordN31_31A19_13D12_6 0x47C00029 a b c)
  unfold Fits wordN31_31A19_13D12_6
  exact ⟨by omega, by omega, by omega⟩

theorem sgen (a b c d) : Statement (.sgen a b c d) := by
  change Fits 4 false (wordN31_31K22_20A19_13D12_6 0x48000029 a b c d)
  unfold Fits wordN31_31K22_20A19_13D12_6
  exact ⟨by omega, by omega, by omega⟩

theorem ldN8 (a b c d e) : Statement (.ldN8 a b c d e) := by
  change Fits 4 false (wordQ31_28S27_25O24_23A19_13V12_6 0x0000002B a b c d e)
  unfold Fits wordQ31_28S27_25O24_23A19_13V12_6
  exact ⟨by omega, by omega, by omega⟩

theorem ldS8 (a b c d e) : Statement (.ldS8 a b c d e) := by
  change Fits 4 false (wordQ31_28S27_25O24_23A19_13V12_6 0x0010002B a b c d e)
  unfold Fits wordQ31_28S27_25O24_23A19_13V12_6
  exact ⟨by omega, by omega, by omega⟩

theorem ldN16 (a b c d e) : Statement (.ldN16 a b c d e) := by
  change Fits 4 false (wordQ31_28S27_25O24_23A19_13V12_6 0x0020002B a b c d e)
  unfold Fits wordQ31_28S27_25O24_23A19_13V12_6
  exact ⟨by omega, by omega, by omega⟩

theorem ldS16 (a b c d e) : Statement (.ldS16 a b c d e) := by
  change Fits 4 false (wordQ31_28S27_25O24_23A19_13V12_6 0x0030002B a b c d e)
  unfold Fits wordQ31_28S27_25O24_23A19_13V12_6
  exact ⟨by omega, by omega, by omega⟩

theorem ldB32 (a b c d e) : Statement (.ldB32 a b c d e) := by
  change Fits 4 false (wordQ31_28S27_25O24_23A19_13V12_6 0x0040002B a b c d e)
  unfold Fits wordQ31_28S27_25O24_23A19_13V12_6
  exact ⟨by omega, by omega, by omega⟩

theorem ldB64 (a b c d e) : Statement (.ldB64 a b c d e) := by
  change Fits 4 false (wordQ31_28S27_25O24_23A19_13V12_6 0x0050002B a b c d e)
  unfold Fits wordQ31_28S27_25O24_23A19_13V12_6
  exact ⟨by omega, by omega, by omega⟩

theorem ldB128 (a b c d e) : Statement (.ldB128 a b c d e) := by
  change Fits 4 false (wordQ31_28S27_25O24_23A19_13V12_6 0x0060002B a b c d e)
  unfold Fits wordQ31_28S27_25O24_23A19_13V12_6
  exact ⟨by omega, by omega, by omega⟩

theorem prf (a b) : Statement (.prf a b) := by
  change Fits 4 false (wordQ31_28A19_13 0x00701F2B a b)
  unfold Fits wordQ31_28A19_13
  exact ⟨by omega, by omega, by omega⟩

theorem stB8 (a b c d e) : Statement (.stB8 a b c d e) := by
  change Fits 4 false (wordQ31_28S27_25O24_23A19_13V12_6 0x0000002D a b c d e)
  unfold Fits wordQ31_28S27_25O24_23A19_13V12_6
  exact ⟨by omega, by omega, by omega⟩

theorem stB16 (a b c d e) : Statement (.stB16 a b c d e) := by
  change Fits 4 false (wordQ31_28S27_25O24_23A19_13V12_6 0x0010002D a b c d e)
  unfold Fits wordQ31_28S27_25O24_23A19_13V12_6
  exact ⟨by omega, by omega, by omega⟩

theorem stB32 (a b c d e) : Statement (.stB32 a b c d e) := by
  change Fits 4 false (wordQ31_28S27_25O24_23A19_13V12_6 0x0020002D a b c d e)
  unfold Fits wordQ31_28S27_25O24_23A19_13V12_6
  exact ⟨by omega, by omega, by omega⟩

theorem stB64 (a b c d e) : Statement (.stB64 a b c d e) := by
  change Fits 4 false (wordQ31_28S27_25O24_23A19_13V12_6 0x0030002D a b c d e)
  unfold Fits wordQ31_28S27_25O24_23A19_13V12_6
  exact ⟨by omega, by omega, by omega⟩

theorem stB128 (a b c d e) : Statement (.stB128 a b c d e) := by
  change Fits 4 false (wordQ31_28S27_25O24_23A19_13V12_6 0x0040002D a b c d e)
  unfold Fits wordQ31_28S27_25O24_23A19_13V12_6
  exact ⟨by omega, by omega, by omega⟩

theorem zline (a b c d) : Statement (.zline a b c d) := by
  change Fits 4 false (wordQ31_28S27_25O23_23A19_13 0x00501F2D a b c d)
  unfold Fits wordQ31_28S27_25O23_23A19_13
  exact ⟨by omega, by omega, by omega⟩

theorem cwb (a b) : Statement (.cwb a b) := by
  change Fits 4 false (wordQ31_28A19_13 0x00601F2D a b)
  unfold Fits wordQ31_28A19_13
  exact ⟨by omega, by omega, by omega⟩

theorem cinv (a b) : Statement (.cinv a b) := by
  change Fits 4 false (wordQ31_28A19_13 0x00701F2D a b)
  unfold Fits wordQ31_28A19_13
  exact ⟨by omega, by omega, by omega⟩

theorem atomAdd (a b c d e) : Statement (.atomAdd a b c d e) := by
  change Fits 4 false (wordT31_30S29_27R26_25A19_13V12_6 0x0000002F a b c d e)
  unfold Fits wordT31_30S29_27R26_25A19_13V12_6
  exact ⟨by omega, by omega, by omega⟩

theorem atomMinS (a b c d e) : Statement (.atomMinS a b c d e) := by
  change Fits 4 false (wordT31_30S29_27R26_25A19_13V12_6 0x0010002F a b c d e)
  unfold Fits wordT31_30S29_27R26_25A19_13V12_6
  exact ⟨by omega, by omega, by omega⟩

theorem atomMaxS (a b c d e) : Statement (.atomMaxS a b c d e) := by
  change Fits 4 false (wordT31_30S29_27R26_25A19_13V12_6 0x0020002F a b c d e)
  unfold Fits wordT31_30S29_27R26_25A19_13V12_6
  exact ⟨by omega, by omega, by omega⟩

theorem atomMinN (a b c d e) : Statement (.atomMinN a b c d e) := by
  change Fits 4 false (wordT31_30S29_27R26_25A19_13V12_6 0x0030002F a b c d e)
  unfold Fits wordT31_30S29_27R26_25A19_13V12_6
  exact ⟨by omega, by omega, by omega⟩

theorem atomMaxN (a b c d e) : Statement (.atomMaxN a b c d e) := by
  change Fits 4 false (wordT31_30S29_27R26_25A19_13V12_6 0x0040002F a b c d e)
  unfold Fits wordT31_30S29_27R26_25A19_13V12_6
  exact ⟨by omega, by omega, by omega⟩

theorem atomAnd (a b c d e) : Statement (.atomAnd a b c d e) := by
  change Fits 4 false (wordT31_30S29_27R26_25A19_13V12_6 0x0050002F a b c d e)
  unfold Fits wordT31_30S29_27R26_25A19_13V12_6
  exact ⟨by omega, by omega, by omega⟩

theorem atomOr (a b c d e) : Statement (.atomOr a b c d e) := by
  change Fits 4 false (wordT31_30S29_27R26_25A19_13V12_6 0x0060002F a b c d e)
  unfold Fits wordT31_30S29_27R26_25A19_13V12_6
  exact ⟨by omega, by omega, by omega⟩

theorem atomXor (a b c d e) : Statement (.atomXor a b c d e) := by
  change Fits 4 false (wordT31_30S29_27R26_25A19_13V12_6 0x0070002F a b c d e)
  unfold Fits wordT31_30S29_27R26_25A19_13V12_6
  exact ⟨by omega, by omega, by omega⟩

theorem atomXchg (a b c d e) : Statement (.atomXchg a b c d e) := by
  change Fits 4 false (wordT31_30S29_27R26_25A19_13V12_6 0x0080002F a b c d e)
  unfold Fits wordT31_30S29_27R26_25A19_13V12_6
  exact ⟨by omega, by omega, by omega⟩

theorem atomCas (a b c d e) : Statement (.atomCas a b c d e) := by
  change Fits 4 false (wordT31_30S29_27R26_25A19_13V12_6 0x0090002F a b c d e)
  unfold Fits wordT31_30S29_27R26_25A19_13V12_6
  exact ⟨by omega, by omega, by omega⟩

theorem atomFadd (a b c d e) : Statement (.atomFadd a b c d e) := by
  change Fits 4 false (wordT31_30S29_27R26_25A19_13V12_6 0x00A0002F a b c d e)
  unfold Fits wordT31_30S29_27R26_25A19_13V12_6
  exact ⟨by omega, by omega, by omega⟩

theorem atomFmin (a b c d e) : Statement (.atomFmin a b c d e) := by
  change Fits 4 false (wordT31_30S29_27R26_25A19_13V12_6 0x00B0002F a b c d e)
  unfold Fits wordT31_30S29_27R26_25A19_13V12_6
  exact ⟨by omega, by omega, by omega⟩

theorem atomFmax (a b c d e) : Statement (.atomFmax a b c d e) := by
  change Fits 4 false (wordT31_30S29_27R26_25A19_13V12_6 0x00C0002F a b c d e)
  unfold Fits wordT31_30S29_27R26_25A19_13V12_6
  exact ⟨by omega, by omega, by omega⟩

theorem atomBinc (a b c d e) : Statement (.atomBinc a b c d e) := by
  change Fits 4 false (wordT31_30S29_27R26_25A19_13V12_6 0x00D0002F a b c d e)
  unfold Fits wordT31_30S29_27R26_25A19_13V12_6
  exact ⟨by omega, by omega, by omega⟩

theorem atomWinc (a b c d e) : Statement (.atomWinc a b c d e) := by
  change Fits 4 false (wordT31_30S29_27R26_25A19_13V12_6 0x00E0002F a b c d e)
  unfold Fits wordT31_30S29_27R26_25A19_13V12_6
  exact ⟨by omega, by omega, by omega⟩

theorem atomDdecN (a b c d e) : Statement (.atomDdecN a b c d e) := by
  change Fits 4 false (wordT31_30S29_27R26_25A19_13V12_6 0x00F0002F a b c d e)
  unfold Fits wordT31_30S29_27R26_25A19_13V12_6
  exact ⟨by omega, by omega, by omega⟩

theorem atomDdecS (a b c d e) : Statement (.atomDdecS a b c d e) := by
  change Fits 4 false (wordT31_30S29_27R26_25A19_13V12_6 0x0100002F a b c d e)
  unfold Fits wordT31_30S29_27R26_25A19_13V12_6
  exact ⟨by omega, by omega, by omega⟩

theorem atomLaddN (a b c d e) : Statement (.atomLaddN a b c d e) := by
  change Fits 4 false (wordT31_30S29_27R26_25A19_13V12_6 0x0110002F a b c d e)
  unfold Fits wordT31_30S29_27R26_25A19_13V12_6
  exact ⟨by omega, by omega, by omega⟩

theorem atomLaddS (a b c d e) : Statement (.atomLaddS a b c d e) := by
  change Fits 4 false (wordT31_30S29_27R26_25A19_13V12_6 0x0120002F a b c d e)
  unfold Fits wordT31_30S29_27R26_25A19_13V12_6
  exact ⟨by omega, by omega, by omega⟩

theorem atomLd (a b c d e) : Statement (.atomLd a b c d e) := by
  change Fits 4 false (wordT31_30S29_27R26_25A19_13V12_6 0x0130002F a b c d e)
  unfold Fits wordT31_30S29_27R26_25A19_13V12_6
  exact ⟨by omega, by omega, by omega⟩

theorem redAdd (a b c d e) : Statement (.redAdd a b c d e) := by
  change Fits 4 false (wordT31_30S29_27R26_26A19_13V12_6 0x00000031 a b c d e)
  unfold Fits wordT31_30S29_27R26_26A19_13V12_6
  exact ⟨by omega, by omega, by omega⟩

theorem redMinS (a b c d e) : Statement (.redMinS a b c d e) := by
  change Fits 4 false (wordT31_30S29_27R26_26A19_13V12_6 0x00100031 a b c d e)
  unfold Fits wordT31_30S29_27R26_26A19_13V12_6
  exact ⟨by omega, by omega, by omega⟩

theorem redMaxS (a b c d e) : Statement (.redMaxS a b c d e) := by
  change Fits 4 false (wordT31_30S29_27R26_26A19_13V12_6 0x00200031 a b c d e)
  unfold Fits wordT31_30S29_27R26_26A19_13V12_6
  exact ⟨by omega, by omega, by omega⟩

theorem redMinN (a b c d e) : Statement (.redMinN a b c d e) := by
  change Fits 4 false (wordT31_30S29_27R26_26A19_13V12_6 0x00300031 a b c d e)
  unfold Fits wordT31_30S29_27R26_26A19_13V12_6
  exact ⟨by omega, by omega, by omega⟩

theorem redMaxN (a b c d e) : Statement (.redMaxN a b c d e) := by
  change Fits 4 false (wordT31_30S29_27R26_26A19_13V12_6 0x00400031 a b c d e)
  unfold Fits wordT31_30S29_27R26_26A19_13V12_6
  exact ⟨by omega, by omega, by omega⟩

theorem redAnd (a b c d e) : Statement (.redAnd a b c d e) := by
  change Fits 4 false (wordT31_30S29_27R26_26A19_13V12_6 0x00500031 a b c d e)
  unfold Fits wordT31_30S29_27R26_26A19_13V12_6
  exact ⟨by omega, by omega, by omega⟩

theorem redOr (a b c d e) : Statement (.redOr a b c d e) := by
  change Fits 4 false (wordT31_30S29_27R26_26A19_13V12_6 0x00600031 a b c d e)
  unfold Fits wordT31_30S29_27R26_26A19_13V12_6
  exact ⟨by omega, by omega, by omega⟩

theorem redXor (a b c d e) : Statement (.redXor a b c d e) := by
  change Fits 4 false (wordT31_30S29_27R26_26A19_13V12_6 0x00700031 a b c d e)
  unfold Fits wordT31_30S29_27R26_26A19_13V12_6
  exact ⟨by omega, by omega, by omega⟩

theorem redFadd (a b c d e) : Statement (.redFadd a b c d e) := by
  change Fits 4 false (wordT31_30S29_27R26_26A19_13V12_6 0x00800031 a b c d e)
  unfold Fits wordT31_30S29_27R26_26A19_13V12_6
  exact ⟨by omega, by omega, by omega⟩

theorem redFmin (a b c d e) : Statement (.redFmin a b c d e) := by
  change Fits 4 false (wordT31_30S29_27R26_26A19_13V12_6 0x00900031 a b c d e)
  unfold Fits wordT31_30S29_27R26_26A19_13V12_6
  exact ⟨by omega, by omega, by omega⟩

theorem redFmax (a b c d e) : Statement (.redFmax a b c d e) := by
  change Fits 4 false (wordT31_30S29_27R26_26A19_13V12_6 0x00A00031 a b c d e)
  unfold Fits wordT31_30S29_27R26_26A19_13V12_6
  exact ⟨by omega, by omega, by omega⟩

theorem redFadda (a b c d e) : Statement (.redFadda a b c d e) := by
  change Fits 4 false (wordT31_30S29_27R26_26A19_13V12_6 0x00B00031 a b c d e)
  unfold Fits wordT31_30S29_27R26_26A19_13V12_6
  exact ⟨by omega, by omega, by omega⟩

theorem cpl (a b c) : Statement (.cpl a b c) := by
  change Fits 4 false (wordM31_30T29_24D12_6 0x000F8033 a b c)
  unfold Fits wordM31_30T29_24D12_6
  exact ⟨by omega, by omega, by omega⟩

theorem cpt (a b) : Statement (.cpt a b) := by
  change Fits 4 false (wordT29_24D12_6 0x001F8033 a b)
  unfold Fits wordT29_24D12_6
  exact ⟨by omega, by omega, by omega⟩

theorem cptr (a b) : Statement (.cptr a b) := by
  change Fits 4 false (wordT29_24D12_6 0x002F8033 a b)
  unfold Fits wordT29_24D12_6
  exact ⟨by omega, by omega, by omega⟩

theorem cptc (a b) : Statement (.cptc a b) := by
  change Fits 4 false (wordT29_24D12_6 0x003F8033 a b)
  unfold Fits wordT29_24D12_6
  exact ⟨by omega, by omega, by omega⟩

theorem cpml (a b c) : Statement (.cpml a b c) := by
  change Fits 4 false (wordT29_24C19_13D12_6 0x00400033 a b c)
  unfold Fits wordT29_24C19_13D12_6
  exact ⟨by omega, by omega, by omega⟩

theorem cpms (a b c) : Statement (.cpms a b c) := by
  change Fits 4 false (wordT29_24C19_13D12_6 0x00500033 a b c)
  unfold Fits wordT29_24C19_13D12_6
  exact ⟨by omega, by omega, by omega⟩

theorem expect (a b) : Statement (.expect a b) := by
  change Fits 4 false (wordT29_24D12_6 0x006F8033 a b)
  unfold Fits wordT29_24D12_6
  exact ⟨by omega, by omega, by omega⟩

theorem wany (a b c) : Statement (.wany a b c) := by
  change Fits 4 false (wordM31_30C19_13D12_6 0x00700033 a b c)
  unfold Fits wordM31_30C19_13D12_6
  exact ⟨by omega, by omega, by omega⟩

theorem wall (a b) : Statement (.wall a b) := by
  change Fits 4 false (wordM31_30D12_6 0x008F8033 a b)
  unfold Fits wordM31_30D12_6
  exact ⟨by omega, by omega, by omega⟩

theorem ffrdy (a b c) : Statement (.ffrdy a b c) := by
  change Fits 4 false (wordM31_30C19_13D12_6 0x00900033 a b c)
  unfold Fits wordM31_30C19_13D12_6
  exact ⟨by omega, by omega, by omega⟩

theorem awaitf (a b) : Statement (.awaitf a b) := by
  change Fits 4 false (wordC19_13D12_6 0x00A00033 a b)
  unfold Fits wordC19_13D12_6
  exact ⟨by omega, by omega, by omega⟩

theorem relslot (a) : Statement (.relslot a) := by
  change Fits 4 false (wordD12_6 0x00BF8033 a)
  unfold Fits wordD12_6
  exact ⟨by omega, by omega, by omega⟩

theorem gsg (a b c) : Statement (.gsg a b c) := by
  change Fits 4 false (wordT29_24C19_13D12_6 0x00000035 a b c)
  unfold Fits wordT29_24C19_13D12_6
  exact ⟨by omega, by omega, by omega⟩

theorem gsgm (a b c) : Statement (.gsgm a b c) := by
  change Fits 4 false (wordT29_24C19_13D12_6 0x00100035 a b c)
  unfold Fits wordT29_24C19_13D12_6
  exact ⟨by omega, by omega, by omega⟩

theorem gss (a b c) : Statement (.gss a b c) := by
  change Fits 4 false (wordT29_24C19_13D12_6 0x00200035 a b c)
  unfold Fits wordT29_24C19_13D12_6
  exact ⟨by omega, by omega, by omega⟩

theorem gssm (a b c) : Statement (.gssm a b c) := by
  change Fits 4 false (wordT29_24C19_13D12_6 0x00300035 a b c)
  unfold Fits wordT29_24C19_13D12_6
  exact ⟨by omega, by omega, by omega⟩

theorem gswt (a b c d) : Statement (.gswt a b c d) := by
  change Fits 4 false (wordM31_30T29_24C19_13D12_6 0x00400035 a b c d)
  unfold Fits wordM31_30T29_24C19_13D12_6
  exact ⟨by omega, by omega, by omega⟩

theorem gspoll (a b c d) : Statement (.gspoll a b c d) := by
  change Fits 4 false (wordM31_30T29_24C19_13D12_6 0x00500035 a b c d)
  unfold Fits wordM31_30T29_24C19_13D12_6
  exact ⟨by omega, by omega, by omega⟩

theorem mma (a b c d e) : Statement (.mma a b c d e) := by
  change Fits 4 false (wordZ19_19P18_18W17_17K16_13D12_6 0x00000037 a b c d e)
  unfold Fits wordZ19_19P18_18W17_17K16_13D12_6
  exact ⟨by omega, by omega, by omega⟩

theorem mmam (a b c d e) : Statement (.mmam a b c d e) := by
  change Fits 4 false (wordZ19_19P18_18W17_17K16_13D12_6 0x00100037 a b c d e)
  unfold Fits wordZ19_19P18_18W17_17K16_13D12_6
  exact ⟨by omega, by omega, by omega⟩

theorem aalloc (a b c) : Statement (.aalloc a b c) := by
  change Fits 4 false (wordP25_20A19_13D12_6 0x00000039 a b c)
  unfold Fits wordP25_20A19_13D12_6
  exact ⟨by omega, by omega, by omega⟩

theorem afree (a) : Statement (.afree a) := by
  change Fits 4 false (wordA19_13 0x0FC01F39 a)
  unfold Fits wordA19_13
  exact ⟨by omega, by omega, by omega⟩

theorem aacq (a) : Statement (.aacq a) := by
  change Fits 4 false (wordA19_13 0x17C01F39 a)
  unfold Fits wordA19_13
  exact ⟨by omega, by omega, by omega⟩

theorem arel (a) : Statement (.arel a) := by
  change Fits 4 false (wordA19_13 0x1FC01F39 a)
  unfold Fits wordA19_13
  exact ⟨by omega, by omega, by omega⟩

theorem azero (a) : Statement (.azero a) := by
  change Fits 4 false (wordA19_13 0x27C01F39 a)
  unfold Fits wordA19_13
  exact ⟨by omega, by omega, by omega⟩

theorem ard (a b c) : Statement (.ard a b c) := by
  change Fits 4 false (wordB26_20A19_13D12_6 0x28000039 a b c)
  unfold Fits wordB26_20A19_13D12_6
  exact ⟨by omega, by omega, by omega⟩

theorem awr (a b c) : Statement (.awr a b c) := by
  change Fits 4 false (wordB26_20A19_13D12_6 0x30000039 a b c)
  unfold Fits wordB26_20A19_13D12_6
  exact ⟨by omega, by omega, by omega⟩

theorem asv (a b c) : Statement (.asv a b c) := by
  change Fits 4 false (wordL22_20A19_13D12_6 0x38000039 a b c)
  unfold Fits wordL22_20A19_13D12_6
  exact ⟨by omega, by omega, by omega⟩

theorem arst (a b c) : Statement (.arst a b c) := by
  change Fits 4 false (wordL22_20A19_13D12_6 0x40000039 a b c)
  unfold Fits wordL22_20A19_13D12_6
  exact ⟨by omega, by omega, by omega⟩

theorem mtag (a b c) : Statement (.mtag a b c) := by
  change Fits 4 false (wordB26_20A19_13D12_6 0x48000039 a b c)
  unfold Fits wordB26_20A19_13D12_6
  exact ⟨by omega, by omega, by omega⟩

theorem sproj (a b) : Statement (.sproj a b) := by
  change Fits 4 false (wordA19_13D12_6 0x07C0003B a b)
  unfold Fits wordA19_13D12_6
  exact ⟨by omega, by omega, by omega⟩

theorem sload (a b c) : Statement (.sload a b c) := by
  change Fits 4 false (wordS22_20A19_13D12_6 0x0800003B a b c)
  unfold Fits wordS22_20A19_13D12_6
  exact ⟨by omega, by omega, by omega⟩

theorem sblend (a b c) : Statement (.sblend a b c) := by
  change Fits 4 false (wordB26_20A19_13D12_6 0x1000003B a b c)
  unfold Fits wordB26_20A19_13D12_6
  exact ⟨by omega, by omega, by omega⟩

theorem sgrad (a b c) : Statement (.sgrad a b c) := by
  change Fits 4 false (wordB26_20A19_13D12_6 0x1800003B a b c)
  unfold Fits wordB26_20A19_13D12_6
  exact ⟨by omega, by omega, by omega⟩

theorem sinit (a) : Statement (.sinit a) := by
  change Fits 4 false (wordA19_13 0x2000003B a)
  unfold Fits wordA19_13
  exact ⟨by omega, by omega, by omega⟩

theorem sinitr : Statement (.sinitr) := by
  change Fits 4 false 0x201F803B
  unfold Fits
  exact ⟨by omega, by omega, by omega⟩

theorem srd (a) : Statement (.srd a) := by
  change Fits 4 false (wordD12_6 0x2FCF803B a)
  unfold Fits wordD12_6
  exact ⟨by omega, by omega, by omega⟩

theorem swr (a) : Statement (.swr a) := by
  change Fits 4 false (wordA19_13 0x37C0003B a)
  unfold Fits wordA19_13
  exact ⟨by omega, by omega, by omega⟩

theorem skey (a b c) : Statement (.skey a b c) := by
  change Fits 4 false (wordB26_20A19_13D12_6 0x3800003B a b c)
  unfold Fits wordB26_20A19_13D12_6
  exact ⟨by omega, by omega, by omega⟩

theorem kemit (a b) : Statement (.kemit a b) := by
  change Fits 4 false (wordC19_13D12_6 0x0000003D a b)
  unfold Fits wordC19_13D12_6
  exact ⟨by omega, by omega, by omega⟩

theorem ksort (a b c) : Statement (.ksort a b c) := by
  change Fits 4 false (wordT29_24C19_13D12_6 0x0010003D a b c)
  unfold Fits wordT29_24C19_13D12_6
  exact ⟨by omega, by omega, by omega⟩

theorem ksortBat (a b c) : Statement (.ksortBat a b c) := by
  change Fits 4 false (wordT29_24C19_13D12_6 0x4010003D a b c)
  unfold Fits wordT29_24C19_13D12_6
  exact ⟨by omega, by omega, by omega⟩

theorem ksel (a b c) : Statement (.ksel a b c) := by
  change Fits 4 false (wordT29_24C19_13D12_6 0x0020003D a b c)
  unfold Fits wordT29_24C19_13D12_6
  exact ⟨by omega, by omega, by omega⟩

theorem kselBat (a b c) : Statement (.kselBat a b c) := by
  change Fits 4 false (wordT29_24C19_13D12_6 0x4020003D a b c)
  unfold Fits wordT29_24C19_13D12_6
  exact ⟨by omega, by omega, by omega⟩

theorem kcs (a b c) : Statement (.kcs a b c) := by
  change Fits 4 false (wordT29_24C19_13D12_6 0x0030003D a b c)
  unfold Fits wordT29_24C19_13D12_6
  exact ⟨by omega, by omega, by omega⟩

theorem ocomp (a b c) : Statement (.ocomp a b c) := by
  change Fits 4 false (wordT29_24C19_13D12_6 0x0040003D a b c)
  unfold Fits wordT29_24C19_13D12_6
  exact ⟨by omega, by omega, by omega⟩

theorem ored (a b c) : Statement (.ored a b c) := by
  change Fits 4 false (wordT29_24C19_13D12_6 0x0050003D a b c)
  unfold Fits wordT29_24C19_13D12_6
  exact ⟨by omega, by omega, by omega⟩

theorem cbar (a b c) : Statement (.cbar a b c) := by
  change Fits 4 false (wordT29_24C19_13D12_6 0x0060003D a b c)
  unfold Fits wordT29_24C19_13D12_6
  exact ⟨by omega, by omega, by omega⟩

theorem cfail (a b) : Statement (.cfail a b) := by
  change Fits 4 false (wordC19_13D12_6 0x0070003D a b)
  unfold Fits wordC19_13D12_6
  exact ⟨by omega, by omega, by omega⟩

theorem launch (a b) : Statement (.launch a b) := by
  change Fits 4 false (wordC19_13D12_6 0x0080003D a b)
  unfold Fits wordC19_13D12_6
  exact ⟨by omega, by omega, by omega⟩

theorem launchSig (a b c) : Statement (.launchSig a b c) := by
  change Fits 4 false (wordT29_24C19_13D12_6 0x4080003D a b c)
  unfold Fits wordT29_24C19_13D12_6
  exact ⟨by omega, by omega, by omega⟩

theorem spawn (a b c) : Statement (.spawn a b c) := by
  change Fits 4 false (wordK26_24C19_13D12_6 0x0090003D a b c)
  unfold Fits wordK26_24C19_13D12_6
  exact ⟨by omega, by omega, by omega⟩

theorem spawnNow (a b c) : Statement (.spawnNow a b c) := by
  change Fits 4 false (wordK26_24C19_13D12_6 0x4090003D a b c)
  unfold Fits wordK26_24C19_13D12_6
  exact ⟨by omega, by omega, by omega⟩

theorem tgsig (a b) : Statement (.tgsig a b) := by
  change Fits 4 false (wordC19_13D12_6 0x00A0003D a b)
  unfold Fits wordC19_13D12_6
  exact ⟨by omega, by omega, by omega⟩

theorem binflush (a b) : Statement (.binflush a b) := by
  change Fits 4 false (wordC19_13D12_6 0x00B0003D a b)
  unfold Fits wordC19_13D12_6
  exact ⟨by omega, by omega, by omega⟩

theorem fxrun (a b) : Statement (.fxrun a b) := by
  change Fits 4 false (wordC19_13D12_6 0x00C0003D a b)
  unfold Fits wordC19_13D12_6
  exact ⟨by omega, by omega, by omega⟩

theorem fxrunSig (a b c) : Statement (.fxrunSig a b c) := by
  change Fits 4 false (wordT29_24C19_13D12_6 0x40C0003D a b c)
  unfold Fits wordT29_24C19_13D12_6
  exact ⟨by omega, by omega, by omega⟩

theorem fxabort (a b) : Statement (.fxabort a b) := by
  change Fits 4 false (wordC19_13D12_6 0x00D0003D a b)
  unfold Fits wordC19_13D12_6
  exact ⟨by omega, by omega, by omega⟩

theorem tcsnap (a b) : Statement (.tcsnap a b) := by
  change Fits 4 false (wordT29_24D12_6 0x00EF803D a b)
  unfold Fits wordT29_24D12_6
  exact ⟨by omega, by omega, by omega⟩

theorem tflush (a) : Statement (.tflush a) := by
  change Fits 4 false (wordT29_24 0x00FF9F3D a)
  unfold Fits wordT29_24
  exact ⟨by omega, by omega, by omega⟩

theorem sli (a b) : Statement (.sli a b) := by
  change Fits 4 true (wordD25_21I15_0 0x04000000 a b)
  unfold Fits wordD25_21I15_0
  exact ⟨by omega, by omega, fun _ h => by cases h⟩

theorem saddi (a b c) : Statement (.saddi a b c) := by
  change Fits 4 true (wordD25_21A20_16I15_0 0x08000000 a b c)
  unfold Fits wordD25_21A20_16I15_0
  exact ⟨by omega, by omega, fun _ h => by cases h⟩

theorem saluAdd (a b c) : Statement (.saluAdd a b c) := by
  change Fits 4 true (wordD25_21A20_16B15_11 0x0C000000 a b c)
  unfold Fits wordD25_21A20_16B15_11
  exact ⟨by omega, by omega, fun _ h => by cases h⟩

theorem saluSub (a b c) : Statement (.saluSub a b c) := by
  change Fits 4 true (wordD25_21A20_16B15_11 0x0C000001 a b c)
  unfold Fits wordD25_21A20_16B15_11
  exact ⟨by omega, by omega, fun _ h => by cases h⟩

theorem saluMul (a b c) : Statement (.saluMul a b c) := by
  change Fits 4 true (wordD25_21A20_16B15_11 0x0C000002 a b c)
  unfold Fits wordD25_21A20_16B15_11
  exact ⟨by omega, by omega, fun _ h => by cases h⟩

theorem saluAnd (a b c) : Statement (.saluAnd a b c) := by
  change Fits 4 true (wordD25_21A20_16B15_11 0x0C000003 a b c)
  unfold Fits wordD25_21A20_16B15_11
  exact ⟨by omega, by omega, fun _ h => by cases h⟩

theorem saluOr (a b c) : Statement (.saluOr a b c) := by
  change Fits 4 true (wordD25_21A20_16B15_11 0x0C000004 a b c)
  unfold Fits wordD25_21A20_16B15_11
  exact ⟨by omega, by omega, fun _ h => by cases h⟩

theorem saluXor (a b c) : Statement (.saluXor a b c) := by
  change Fits 4 true (wordD25_21A20_16B15_11 0x0C000005 a b c)
  unfold Fits wordD25_21A20_16B15_11
  exact ⟨by omega, by omega, fun _ h => by cases h⟩

theorem saluShl (a b c) : Statement (.saluShl a b c) := by
  change Fits 4 true (wordD25_21A20_16B15_11 0x0C000006 a b c)
  unfold Fits wordD25_21A20_16B15_11
  exact ⟨by omega, by omega, fun _ h => by cases h⟩

theorem saluShr (a b c) : Statement (.saluShr a b c) := by
  change Fits 4 true (wordD25_21A20_16B15_11 0x0C000007 a b c)
  unfold Fits wordD25_21A20_16B15_11
  exact ⟨by omega, by omega, fun _ h => by cases h⟩

theorem sld (a b c) : Statement (.sld a b c) := by
  change Fits 4 true (wordD25_21A20_16I15_0 0x10000000 a b c)
  unfold Fits wordD25_21A20_16I15_0
  exact ⟨by omega, by omega, fun _ h => by cases h⟩

theorem sst (a b c) : Statement (.sst a b c) := by
  change Fits 4 true (wordD25_21A20_16I15_0 0x14000000 a b c)
  unfold Fits wordD25_21A20_16I15_0
  exact ⟨by omega, by omega, fun _ h => by cases h⟩

theorem b (a) : Statement (.b a) := by
  change Fits 4 true (wordI15_0 0x18000000 a)
  unfold Fits wordI15_0
  exact ⟨by omega, by omega, fun _ h => by cases h⟩

theorem bEqz (a b) : Statement (.bEqz a b) := by
  change Fits 4 true (wordA20_16I15_0 0x18200000 a b)
  unfold Fits wordA20_16I15_0
  exact ⟨by omega, by omega, fun _ h => by cases h⟩

theorem bNez (a b) : Statement (.bNez a b) := by
  change Fits 4 true (wordA20_16I15_0 0x18400000 a b)
  unfold Fits wordA20_16I15_0
  exact ⟨by omega, by omega, fun _ h => by cases h⟩

theorem bLtz (a b) : Statement (.bLtz a b) := by
  change Fits 4 true (wordA20_16I15_0 0x18600000 a b)
  unfold Fits wordA20_16I15_0
  exact ⟨by omega, by omega, fun _ h => by cases h⟩

theorem bGez (a b) : Statement (.bGez a b) := by
  change Fits 4 true (wordA20_16I15_0 0x18800000 a b)
  unfold Fits wordA20_16I15_0
  exact ⟨by omega, by omega, fun _ h => by cases h⟩

theorem floop (a b) : Statement (.floop a b) := by
  change Fits 4 true (wordA20_16I15_0 0x1C000000 a b)
  unfold Fits wordA20_16I15_0
  exact ⟨by omega, by omega, fun _ h => by cases h⟩

theorem stepend : Statement (.stepend) := by
  change Fits 4 true 0x20000000
  unfold Fits
  exact ⟨by omega, by omega, fun _ h => by cases h⟩

theorem fend : Statement (.fend) := by
  change Fits 4 true 0x24000000
  unfold Fits
  exact ⟨by omega, by omega, fun _ h => by cases h⟩

theorem fld (a b c d) : Statement (.fld a b c d) := by
  change Fits 4 true (wordD25_21A20_16N15_11I10_0 0x28000000 a b c d)
  unfold Fits wordD25_21A20_16N15_11I10_0
  exact ⟨by omega, by omega, fun _ h => by cases h⟩

theorem fst (a b c d) : Statement (.fst a b c d) := by
  change Fits 4 true (wordD25_21A20_16N15_11I10_0 0x2C000000 a b c d)
  unfold Fits wordD25_21A20_16N15_11I10_0
  exact ⟨by omega, by omega, fun _ h => by cases h⟩

theorem fredf (a b c d) : Statement (.fredf a b c d) := by
  change Fits 4 true (wordD25_21A20_16N15_11I10_0 0x30000000 a b c d)
  unfold Fits wordD25_21A20_16N15_11I10_0
  exact ⟨by omega, by omega, fun _ h => by cases h⟩

theorem fbc (a b c) : Statement (.fbc a b c) := by
  change Fits 4 true (wordD25_21A20_16H6_6 0x34000000 a b c)
  unfold Fits wordD25_21A20_16H6_6
  exact ⟨by omega, by omega, fun _ h => by cases h⟩

theorem fext (a b c) : Statement (.fext a b c) := by
  change Fits 4 true (wordD25_21A20_16L9_6 0x38000000 a b c)
  unfold Fits wordD25_21A20_16L9_6
  exact ⟨by omega, by omega, fun _ h => by cases h⟩

theorem fins (a b c) : Statement (.fins a b c) := by
  change Fits 4 true (wordD25_21A20_16L9_6 0x3C000000 a b c)
  unfold Fits wordD25_21A20_16L9_6
  exact ⟨by omega, by omega, fun _ h => by cases h⟩

theorem fopAdd (a b c d) : Statement (.fopAdd a b c d) := by
  change Fits 4 true (wordD25_21A20_16B15_11N5_4 0x40000000 a b c d)
  unfold Fits wordD25_21A20_16B15_11N5_4
  exact ⟨by omega, by omega, fun _ h => by cases h⟩

theorem fopSub (a b c d) : Statement (.fopSub a b c d) := by
  change Fits 4 true (wordD25_21A20_16B15_11N5_4 0x40000001 a b c d)
  unfold Fits wordD25_21A20_16B15_11N5_4
  exact ⟨by omega, by omega, fun _ h => by cases h⟩

theorem fopMul (a b c d) : Statement (.fopMul a b c d) := by
  change Fits 4 true (wordD25_21A20_16B15_11N5_4 0x40000002 a b c d)
  unfold Fits wordD25_21A20_16B15_11N5_4
  exact ⟨by omega, by omega, fun _ h => by cases h⟩

theorem fopDiv (a b c d) : Statement (.fopDiv a b c d) := by
  change Fits 4 true (wordD25_21A20_16B15_11N5_4 0x40000003 a b c d)
  unfold Fits wordD25_21A20_16B15_11N5_4
  exact ⟨by omega, by omega, fun _ h => by cases h⟩

theorem fopMin (a b c d) : Statement (.fopMin a b c d) := by
  change Fits 4 true (wordD25_21A20_16B15_11N5_4 0x40000004 a b c d)
  unfold Fits wordD25_21A20_16B15_11N5_4
  exact ⟨by omega, by omega, fun _ h => by cases h⟩

theorem fopMax (a b c d) : Statement (.fopMax a b c d) := by
  change Fits 4 true (wordD25_21A20_16B15_11N5_4 0x40000005 a b c d)
  unfold Fits wordD25_21A20_16B15_11N5_4
  exact ⟨by omega, by omega, fun _ h => by cases h⟩

theorem fopFma (a b c d e) : Statement (.fopFma a b c d e) := by
  change Fits 4 true (wordD25_21A20_16B15_11C10_6N5_4 0x40000006 a b c d e)
  unfold Fits wordD25_21A20_16B15_11C10_6N5_4
  exact ⟨by omega, by omega, fun _ h => by cases h⟩

theorem fopFnma (a b c d e) : Statement (.fopFnma a b c d e) := by
  change Fits 4 true (wordD25_21A20_16B15_11C10_6N5_4 0x40000007 a b c d e)
  unfold Fits wordD25_21A20_16B15_11C10_6N5_4
  exact ⟨by omega, by omega, fun _ h => by cases h⟩

theorem fopSqrt (a b c) : Statement (.fopSqrt a b c) := by
  change Fits 4 true (wordD25_21A20_16N5_4 0x40000008 a b c)
  unfold Fits wordD25_21A20_16N5_4
  exact ⟨by omega, by omega, fun _ h => by cases h⟩

theorem fopMov (a b c) : Statement (.fopMov a b c) := by
  change Fits 4 true (wordD25_21A20_16N5_4 0x40000009 a b c)
  unfold Fits wordD25_21A20_16N5_4
  exact ⟨by omega, by omega, fun _ h => by cases h⟩

theorem iopAdd (a b c d) : Statement (.iopAdd a b c d) := by
  change Fits 4 true (wordD25_21A20_16B15_11N5_4 0x44000000 a b c d)
  unfold Fits wordD25_21A20_16B15_11N5_4
  exact ⟨by omega, by omega, fun _ h => by cases h⟩

theorem iopSub (a b c d) : Statement (.iopSub a b c d) := by
  change Fits 4 true (wordD25_21A20_16B15_11N5_4 0x44000001 a b c d)
  unfold Fits wordD25_21A20_16B15_11N5_4
  exact ⟨by omega, by omega, fun _ h => by cases h⟩

theorem iopAnd (a b c d) : Statement (.iopAnd a b c d) := by
  change Fits 4 true (wordD25_21A20_16B15_11N5_4 0x44000002 a b c d)
  unfold Fits wordD25_21A20_16B15_11N5_4
  exact ⟨by omega, by omega, fun _ h => by cases h⟩

theorem iopOr (a b c d) : Statement (.iopOr a b c d) := by
  change Fits 4 true (wordD25_21A20_16B15_11N5_4 0x44000003 a b c d)
  unfold Fits wordD25_21A20_16B15_11N5_4
  exact ⟨by omega, by omega, fun _ h => by cases h⟩

theorem iopXor (a b c d) : Statement (.iopXor a b c d) := by
  change Fits 4 true (wordD25_21A20_16B15_11N5_4 0x44000004 a b c d)
  unfold Fits wordD25_21A20_16B15_11N5_4
  exact ⟨by omega, by omega, fun _ h => by cases h⟩

theorem iopShl (a b c d) : Statement (.iopShl a b c d) := by
  change Fits 4 true (wordD25_21A20_16B15_11N5_4 0x44000005 a b c d)
  unfold Fits wordD25_21A20_16B15_11N5_4
  exact ⟨by omega, by omega, fun _ h => by cases h⟩

theorem iopShr (a b c d) : Statement (.iopShr a b c d) := by
  change Fits 4 true (wordD25_21A20_16B15_11N5_4 0x44000006 a b c d)
  unfold Fits wordD25_21A20_16B15_11N5_4
  exact ⟨by omega, by omega, fun _ h => by cases h⟩

theorem iopSel (a b c d e) : Statement (.iopSel a b c d e) := by
  change Fits 4 true (wordD25_21A20_16B15_11C10_6N5_4 0x44000007 a b c d e)
  unfold Fits wordD25_21A20_16B15_11C10_6N5_4
  exact ⟨by omega, by omega, fun _ h => by cases h⟩

theorem iopFclt (a b c d) : Statement (.iopFclt a b c d) := by
  change Fits 4 true (wordD25_21A20_16B15_11N5_4 0x44000008 a b c d)
  unfold Fits wordD25_21A20_16B15_11N5_4
  exact ⟨by omega, by omega, fun _ h => by cases h⟩

theorem iopIeq (a b c d) : Statement (.iopIeq a b c d) := by
  change Fits 4 true (wordD25_21A20_16B15_11N5_4 0x44000009 a b c d)
  unfold Fits wordD25_21A20_16B15_11N5_4
  exact ⟨by omega, by omega, fun _ h => by cases h⟩

theorem fcvt (a b c) : Statement (.fcvt a b c) := by
  change Fits 4 true (wordD25_21A20_16C10_6 0x48000000 a b c)
  unfold Fits wordD25_21A20_16C10_6
  exact ⟨by omega, by omega, fun _ h => by cases h⟩

theorem fdq (a b c d e) : Statement (.fdq a b c d e) := by
  change Fits 4 true (wordD25_21A20_16B15_11C10_6O3_0 0x4C000000 a b c d e)
  unfold Fits wordD25_21A20_16B15_11C10_6O3_0
  exact ⟨by omega, by omega, fun _ h => by cases h⟩

theorem frq (a b c d e) : Statement (.frq a b c d e) := by
  change Fits 4 true (wordD25_21A20_16B15_11C10_6O3_0 0x50000000 a b c d e)
  unfold Fits wordD25_21A20_16B15_11C10_6O3_0
  exact ⟨by omega, by omega, fun _ h => by cases h⟩

theorem frot (a b c d) : Statement (.frot a b c d) := by
  change Fits 4 true (wordD25_21A20_16C10_6V0_0 0x54000000 a b c d)
  unfold Fits wordD25_21A20_16C10_6V0_0
  exact ⟨by omega, by omega, fun _ h => by cases h⟩

theorem wbld (a b c) : Statement (.wbld a b c) := by
  change Fits 4 true (wordD25_21A20_16N1_0 0x58000000 a b c)
  unfold Fits wordD25_21A20_16N1_0
  exact ⟨by omega, by omega, fun _ h => by cases h⟩

theorem fflg (a b) : Statement (.fflg a b) := by
  change Fits 4 true (wordD25_21C6_6 0x5C000000 a b)
  unfold Fits wordD25_21C6_6
  exact ⟨by omega, by omega, fun _ h => by cases h⟩

theorem regroupComplete (a b) : Statement (.regroupComplete a b) := fits_event

theorem groupSlotQuota (a b) : Statement (.groupSlotQuota a b) := fits_event

theorem groupAged (a b c) : Statement (.groupAged a b c) := fits_event

theorem starveForced (a b c) : Statement (.starveForced a b c) := fits_event

theorem storePerformed (a) : Statement (.storePerformed a) := fits_event

theorem loadDataReturn (a) : Statement (.loadDataReturn a) := fits_event

theorem atomicPerform (a) : Statement (.atomicPerform a) := fits_event

theorem l1Writeback (a b) : Statement (.l1Writeback a b) := fits_event

theorem rdcRequestArrive (a) : Statement (.rdcRequestArrive a) := fits_event

theorem rangeLockGrant (a) : Statement (.rangeLockGrant a) := fits_event

theorem engineBytesArrive (a) : Statement (.engineBytesArrive a) := fits_event

theorem ringSlotClaim (a) : Statement (.ringSlotClaim a) := fits_event

theorem copyCommandComplete (a) : Statement (.copyCommandComplete a) := fits_event

theorem gseCommandComplete (a) : Statement (.gseCommandComplete a) := fits_event

theorem matrixPhaseEnd (a) : Statement (.matrixPhaseEnd a) := fits_event

theorem matrixOperationComplete (a) : Statement (.matrixOperationComplete a) := fits_event

theorem aallocGrant (a) : Statement (.aallocGrant a) := fits_event

theorem qtenWrite (a) : Statement (.qtenWrite a) := fits_event

theorem queueTableWake (a) : Statement (.queueTableWake a) := fits_event

theorem ringLineWake (a) : Statement (.ringLineWake a) := fits_event

theorem launchRecord (a) : Statement (.launchRecord a) := fits_event

theorem tlbInvalidationRecord (a) : Statement (.tlbInvalidationRecord a) := fits_event

theorem tlbInvalidationComplete (a) : Statement (.tlbInvalidationComplete a) := fits_event

theorem markerRecord (a) : Statement (.markerRecord a) := fits_event

theorem startTickReached (a) : Statement (.startTickReached a) := fits_event

theorem launchDispatch (a) : Statement (.launchDispatch a) := fits_event

theorem clusterPlace (a b c) : Statement (.clusterPlace a b c) := fits_event

theorem stageDrainComplete (a) : Statement (.stageDrainComplete a) := fits_event

theorem sliceExpire (a) : Statement (.sliceExpire a) := fits_event

theorem blockSave (a b) : Statement (.blockSave a b) := fits_event

theorem queueResume (a) : Statement (.queueResume a) := fits_event

theorem spawnBinTimerExpire (a b) : Statement (.spawnBinTimerExpire a b) := fits_event

theorem spawnBlockDispatch (a b) : Statement (.spawnBlockDispatch a b) := fits_event

theorem launchComplete (a) : Statement (.launchComplete a) := fits_event

theorem hostPendDecrement (a b) : Statement (.hostPendDecrement a b) := fits_event

theorem fixerKernelAdmit (a) : Statement (.fixerKernelAdmit a) := fits_event

theorem fixerInstanceStart (a) : Statement (.fixerInstanceStart a) := fits_event

theorem fixerKernelComplete (a) : Statement (.fixerKernelComplete a) := fits_event

theorem kseCommandBegin (a) : Statement (.kseCommandBegin a) := fits_event

theorem kseCommandComplete (a) : Statement (.kseCommandComplete a) := fits_event

theorem collectiveBegin (a) : Statement (.collectiveBegin a) := fits_event

theorem collectiveComplete (a b) : Statement (.collectiveComplete a b) := fits_event

theorem peerFlitTimeout (a) : Statement (.peerFlitTimeout a) := fits_event

theorem peerLossReport (a) : Statement (.peerLossReport a) := fits_event

theorem channelRequestServe (a b c) : Statement (.channelRequestServe a b c) := fits_event

theorem requestAged (a b) : Statement (.requestAged a b) := fits_event

theorem burstCrcError (a b c) : Statement (.burstCrcError a b c) := fits_event

theorem burstReplayExhausted (a b) : Statement (.burstReplayExhausted a b) := fits_event

theorem laneCrcThreshold (a b c) : Statement (.laneCrcThreshold a b c) := fits_event

theorem laneRepair (a b c) : Statement (.laneRepair a b c) := fits_event

theorem repair (a b) : Statement (.repair a b) := fits_event

theorem retrain (a b) : Statement (.retrain a b) := fits_event

theorem retrainDone (a b) : Statement (.retrainDone a b) := fits_event

theorem eyeSample (a b c d e) : Statement (.eyeSample a b c d e) := fits_event

theorem rowSwap (a b c d e) : Statement (.rowSwap a b c d e) := fits_event

theorem retire (a b) : Statement (.retire a b) := fits_event

theorem errorCountClear (a b) : Statement (.errorCountClear a b) := fits_event

theorem irqstClear (a b) : Statement (.irqstClear a b) := fits_event

theorem missCounterClear (a b) : Statement (.missCounterClear a b) := fits_event

theorem hctlWrite (a b) : Statement (.hctlWrite a b) := fits_event

theorem heatHalve (a) : Statement (.heatHalve a) := fits_event

theorem heatClear (a) : Statement (.heatClear a) := fits_event

theorem heatPassDone (a) : Statement (.heatPassDone a) := fits_event

theorem cxlLinkDown (a) : Statement (.cxlLinkDown a) := fits_event

theorem migrationSubmit (a) : Statement (.migrationSubmit a) := fits_event

theorem migrationComplete (a) : Statement (.migrationComplete a) := fits_event

theorem tctlWrite (a) : Statement (.tctlWrite a) := fits_event

theorem tdropClear : Statement (.tdropClear) := fits_event

theorem halt : Statement (.halt) := fits_event

theorem resume : Statement (.resume) := fits_event

theorem step : Statement (.step) := fits_event

theorem timebaseLowRead (a b c d) : Statement (.timebaseLowRead a b c d) := fits_event

theorem timebaseHighRead (a b c d) : Statement (.timebaseHighRead a b c d) := fits_event

theorem seedLowRead (a b c d e) : Statement (.seedLowRead a b c d e) := fits_event

theorem counterSnapshotRead (a b c d) : Statement (.counterSnapshotRead a b c d) := fits_event

theorem powerUp : Statement (.powerUp) := fits_event

theorem coldReset : Statement (.coldReset) := fits_event

theorem warmReset : Statement (.warmReset) := fits_event

theorem windowRead (a) : Statement (.windowRead a) := fits_event

theorem windowWrite (a b) : Statement (.windowWrite a b) := fits_event

theorem firmwareStage (a b c) : Statement (.firmwareStage a b c) := fits_event

theorem firmwareActivate : Statement (.firmwareActivate) := fits_event

theorem selfTestLogRead : Statement (.selfTestLogRead) := fits_event

theorem retirementTableRead : Statement (.retirementTableRead) := fits_event

theorem unknownCommand (a) : Statement (.unknownCommand a) := fits_event

theorem getVersion : Statement (.getVersion) := fits_event

theorem getCapabilities : Statement (.getCapabilities) := fits_event

theorem negotiateAlgorithms (a b) : Statement (.negotiateAlgorithms a b) := fits_event

theorem getDigests : Statement (.getDigests) := fits_event

theorem getCertificate (a) : Statement (.getCertificate a) := fits_event

theorem challenge (a) : Statement (.challenge a) := fits_event

theorem getMeasurements (a) : Statement (.getMeasurements a) := fits_event

theorem pkidWrite (a b) : Statement (.pkidWrite a b) := fits_event

theorem qtbWrite (a b) : Statement (.qtbWrite a b) := fits_event

theorem mirqClear (a) : Statement (.mirqClear a) := fits_event

theorem pwrSample (a) : Statement (.pwrSample a) := fits_event

theorem selfTestStart (a b c d e) : Statement (.selfTestStart a b c d e) := fits_event

theorem selfTestComplete (a b c d e) : Statement (.selfTestComplete a b c d e) := fits_event

theorem registerWrite (a b) : Statement (.registerWrite a b) := fits_event

theorem unassignedEncoding (a) : Statement (.unassignedEncoding a) := fits_event

theorem fetchFault (a b c) : Statement (.fetchFault a b c) := fits_event

theorem fixerUnassignedOp (a) : Statement (.fixerUnassignedOp a) := fits_event

theorem fixerFetchFault : Statement (.fixerFetchFault) := fits_event

theorem twinericLinkFailure (a b) : Statement (.twinericLinkFailure a b) := fits_event

theorem cxlLinkRetrain (a) : Statement (.cxlLinkRetrain a) := fits_event

theorem powerLoss : Statement (.powerLoss) := fits_event

theorem peerRequest (a b c d e) : Statement (.peerRequest a b c d e) := fits_event

theorem hostAccess (a b c d) : Statement (.hostAccess a b c d) := fits_event

end Sys2Proof.Laws.Size
end

