-- ==== Sys2Proof/Tests/Slice0.lean ====
section
/-! SUPPORT. Tests: a state that meets the conditions of each instruction and event, as the statements say them; words of the spec
decoded; ill-formed instructions; a few of the spec's own results. -/

set_option maxRecDepth 1000000

namespace Sys2Proof.Tests
open Sys2Proof Sys2Proof.Machine

/-! ### Small states -/

/-- A page at 0x10000 that grants everything. -/
def page : TlbEntry :=
  { asid := 0, va := 0x10000, len := 0x10000, pa := 0x10000, r := true, w := true, x := true, cw := false, nl := false, dirty := true }

/-- A thread with registers. -/
def thread (regs : SMap Word) : Thread := { placeThread with regs := regs }

/-- A launch with a handler. -/
def launch : Launch := { placeLaunch with rcd := { placeLaunch.rcd with trap := 0x18000 } }

/-- A block of one thread on core 0, whose instruction is being executed. -/
def withBlock (b : Block) : State :=
  { State.reset.placeReady with
    launches := [(1, launch)]
    cores := [(0, { blocks := [(0, b)], tlb := [page] })]
    issue := ⟨0, 0, 0, 0x10000, [⟨false, 0⟩]⟩ }

def withThread (t : Thread) : State := withBlock { placeBlock with threads := [(0, t)] }
def withRegs (regs : SMap Word) : State := withThread (thread regs)

/-- Whether an answer is there. -/
def fine {ε α : Type} : Except ε α → Bool
  | .ok _ => true
  | .error _ => false

theorem of_fine {ε α : Type} {x : Except ε α} (h : fine x = true) : ∃ a, x = .ok a := by
  cases x with
  | ok a => exact ⟨a, rfl⟩
  | error _ => cases h

/-- An instruction of a table meets the conditions of its completion in a state. -/
def Meets (tab : Instr → Option SoloForm) (i : Instr) (s : State) : Prop :=
  ∃ f l t, tab i = some f ∧ s.Solo l t f.roles ∧ f.ok s l t

/-- A thread 0 whose path it is alone, with nothing on its way to it and its operand checks passing. -/
theorem solo {tab : Instr → Option SoloForm} {i : Instr} {s : State} {f : SoloForm} {t : Thread} (hf : tab i = some f)
    (ht : s.lane? ⟨false, 0⟩ = some t)
    (hs : s.loads = [] ∧ s.atomics = [] ∧ s.issue.lanes = [⟨false, 0⟩] ∧ t.atAnchor = false ∧ check t f.roles = none)
    (hok : f.ok s ⟨false, 0⟩ t) : Meets tab i s :=
  ⟨f, _, t, hf, ⟨⟨hs.1, hs.2.1⟩, ⟨hs.2.2.1, ht⟩, rfl, hs.2.2.2.1, hs.2.2.2.2⟩, hok⟩

/-- An aligned address in the page, in registers 2 and 3. -/
def at2 : State := withRegs [(2, 0x10400), (4, 7)]

def withOf (f : Thread → Thread) : State := withThread (f (thread [(2, 0x10400)]))
def withCv (k : Nat) (c : CvReg) : State := withBlock { placeBlock with threads := [(0, thread [(2, 1)])], cvs := [(k, c)] }

theorem test_movs : Meets sequencerForm (.movs 0x060 5) (withRegs []) := solo rfl rfl (by decide) (by decide)
theorem test_sets : Meets sequencerForm (.sets 0x0A0 2) (withRegs [(2, 1)]) := solo rfl rfl (by decide) (by decide)
theorem test_call : Meets sequencerForm (.call 4 0) (withRegs []) := solo rfl rfl (by decide) (.inl (by decide))
theorem test_calli : Meets sequencerForm (.calli 0 2) at2 := solo rfl rfl (by decide) ⟨by decide, .inl (by decide)⟩
theorem test_calli_spills : Meets sequencerForm (.calli 0 2) (withOf fun t => { t with rsd := 4, sp := 0x10808 }) :=
  solo rfl rfl (by decide) ⟨by decide, .inr ⟨by decide, by decide, by decide, of_fine (by decide)⟩⟩
theorem test_jmpi : Meets sequencerForm (.jmpi 0 2) at2 := solo rfl rfl (by decide) (by decide)
theorem test_ret : Meets sequencerForm (.ret 0) (withOf fun t => { t with rsd := 1, ret := [0x10004] }) :=
  solo rfl rfl (by decide) ⟨by decide, .inl (by decide)⟩
theorem test_trap : Meets sequencerForm (.trap 3) (withRegs []) := solo rfl rfl (by decide) (by decide)
theorem test_trapret : Meets sequencerForm .trapret (withOf fun t => { t with handler := true }) := solo rfl rfl (by decide) rfl
theorem test_exit : Meets sequencerForm .exit (withRegs []) := solo rfl rfl (by decide) trivial
theorem test_yield : Meets sequencerForm .yield (withRegs []) := solo rfl rfl (by decide) trivial
theorem test_bar : Meets sequencerForm .bar (withRegs []) := solo rfl rfl (by decide) trivial
theorem test_regroup : Meets sequencerForm .regroup (withRegs []) := solo rfl rfl (by decide) trivial
theorem test_cvarm : Meets sequencerForm (.cvarm 1 2) (withCv 1 {}) := solo rfl rfl (by decide) (by decide)
theorem test_cvsign : Meets sequencerForm (.cvsign 1) (withCv 1 { e := 1 }) := solo rfl rfl (by decide) ⟨by decide, rfl⟩
theorem test_cvsync : Meets sequencerForm (.cvsync 1) (withCv 1 { e := 2 }) := solo rfl rfl (by decide) ⟨by decide, rfl⟩
theorem test_cvwait : Meets sequencerForm (.cvwait 1) (withOf fun t => { t with sphValid := 2 }) :=
  solo rfl rfl (by decide) ⟨by decide, by decide⟩
theorem test_oswait : Meets sequencerForm (.oswait 0) (withRegs []) := solo rfl rfl (by decide) trivial
theorem test_tmark : Meets sequencerForm (.tmark 7 2) at2 := solo rfl rfl (by decide) trivial
theorem test_tflush : Meets sequencerForm (.tflush 3) (withRegs []) := solo rfl rfl (by decide) (by decide)
theorem test_tcsnap : Meets sequencerForm (.tcsnap 3 2) at2 :=
  solo rfl rfl (by decide) ⟨by decide, by decide, by decide⟩

theorem test_prf : Meets memoryForm (.prf 1 2) at2 := solo rfl rfl (by decide) trivial
theorem test_stB8 : Meets memoryForm (.stB8 3 0 0 2 4) at2 :=
  solo rfl rfl (by decide) ⟨by decide, by decide, by decide, of_fine (by decide)⟩
theorem test_stB16 : Meets memoryForm (.stB16 0 0 0 2 4) at2 :=
  solo rfl rfl (by decide) ⟨by decide, by decide, by decide, of_fine (by decide)⟩
theorem test_stB32 : Meets memoryForm (.stB32 0 2 2 2 4) at2 :=
  solo rfl rfl (by decide) ⟨by decide, by decide, by decide, of_fine (by decide)⟩
theorem test_stB64 : Meets memoryForm (.stB64 0 0 0 2 4) at2 :=
  solo rfl rfl (by decide) ⟨by decide, by decide, by decide, of_fine (by decide)⟩
theorem test_stB128 : Meets memoryForm (.stB128 15 4 0 2 4) at2 :=
  solo rfl rfl (by decide) ⟨by decide, by decide, by decide, of_fine (by decide)⟩
theorem test_zline : Meets memoryForm (.zline 0 0 0 2) at2 :=
  solo rfl rfl (by decide) ⟨by decide, by decide, by decide, of_fine (by decide)⟩
theorem test_cwb : Meets memoryForm (.cwb 0 2) at2 := solo rfl rfl (by decide) ⟨by decide, of_fine (by decide)⟩
theorem test_cinv : Meets memoryForm (.cinv 0 2) at2 := solo rfl rfl (by decide) ⟨by decide, of_fine (by decide)⟩
theorem test_fence : Meets memoryForm (.fence 2 4) at2 := solo rfl rfl (by decide) (by decide)
theorem test_rcflush : Meets memoryForm (.rcflush 0 2) at2 := solo rfl rfl (by decide) ⟨by decide, of_fine (by decide)⟩

/-! ### Instructions of each lane (witnesses of LatchingCompletes, PlainCompletes, ExchangeCompletes, LanesOnlyFrame) -/

/-- Two threads on one path, with registers, a latch and a loop. -/
def pair : State :=
  let t : Thread := { thread [(2, 5), (4, 1)] with latches := [1], lc := [1, 0, 0] }
  { withBlock { placeBlock with nthreads := 2, threads := [(0, t), (1, { t with idx := 1, rank := 1, regs := [(2, 0)] })] } with
    issue := ⟨0, 0, 0, 0x10000, [⟨false, 0⟩, ⟨false, 1⟩]⟩ }

/-- Something holds of each lane of the pair. -/
def onPair (q : Thread → Bool) : Bool :=
  pair.issue.lanes.all fun l => match pair.lane? l with | some t => q t | none => false

theorem each_of_pair {q : Thread → Bool} {p : Thread → Prop} (h : onPair q = true) (hp : ∀ t, q t = true → p t) : pair.EachLane p := by
  refine ⟨by decide, fun l hl => ?_⟩
  have := List.all_eq_true.1 h l hl
  revert this
  cases pair.lane? l with
  | none => intro h; cases h
  | some t => exact fun h => ⟨t, rfl, hp t h⟩

def latches (i : Instr) : Bool :=
  match latchForm i with
  | some f => onPair fun t => (check t (f.dst.role :: f.srcs)).isNone && !t.atAnchor
  | none => false

def plain (i : Instr) : Bool :=
  match plainForm i with
  | some f => onPair fun t => (check t f.roles).isNone && f.ok t
  | none => false

def exchanges (i : Instr) : Bool :=
  match exchForm i with
  | some f => onPair fun t => (check t (f.dst.role :: f.srcs)).isNone && t.replay.isNone
  | none => false

theorem latches_meets {i : Instr} (h : latches i = true) :
    ∃ f, latchForm i = some f ∧ pair.Quiet ∧ pair.EachLane fun t => Passes t (f.dst.role :: f.srcs) := by
  unfold latches at h
  split at h
  · exact ⟨_, ‹_›, ⟨rfl, rfl⟩, each_of_pair h fun t ht => by simpa [Passes] using ht⟩
  · cases h

theorem plain_meets {i : Instr} (h : plain i = true) :
    ∃ f, plainForm i = some f ∧ pair.Quiet ∧ pair.EachLane fun t => check t f.roles = none ∧ f.ok t = true := by
  unfold plain at h
  split at h
  · exact ⟨_, ‹_›, ⟨rfl, rfl⟩, each_of_pair h fun t ht => by simpa using ht⟩
  · cases h

theorem exchanges_meets {i : Instr} (h : exchanges i = true) :
    ∃ f, exchForm i = some f ∧ pair.Quiet ∧ pair.EachLane fun t => check t (f.dst.role :: f.srcs) = none ∧ t.replay = none := by
  unfold exchanges at h
  split at h
  · exact ⟨_, ‹_›, ⟨rfl, rfl⟩, each_of_pair h fun t ht => by simpa using ht⟩
  · cases h

theorem test_latching : ([
    .iadd 0 4 2 6, .isub 0 4 2 6, .imul 0 4 2 6, .and 0 4 2 6, .or 0 4 2 6, .xor 0 4 2 6, .shl 0 4 2 6, .shr 0 4 2 6,
    .sar 0 4 2 6, .iminS32 0 4 2 6, .imaxS32 0 4 2 6, .iminN32 0 4 2 6, .imaxN32 0 4 2 6, .bfxS32 0 4 2 6,
    .bfxN32 0 4 2 6, .mov 0 4 2 6, .bfiB32 0 4 2 6, .popcB32 0 2 6, .iaddB64 0 4 2 6, .isubB64 0 4 2 6,
    .imulwS32 0 4 2 6, .imulwN32 0 4 2 6, .shlB64 0 4 2 6, .shrB64 0 4 2 6, .iaddImm 9 2 6, .imulImm 9 2 6,
    .andImm 9 2 6, .orImm 9 2 6, .xorImm 9 2 6, .shlImm 9 2 6, .shrImm 9 2 6, .sarImm 9 2 6, .iadd16 0 3 1,
    .isub16 0 3 1, .imul16 0 3 1, .and16 0 3 1, .or16 0 3 1, .xor16 0 3 1, .shl16 0 3 1, .shr16 0 3 1, .sar16 0 3 1,
    .mov16 0 3 1, .fadd16 0 3 1, .fsub16 0 3 1, .fmul16 0 3 1, .fmin16 0 3 1, .fmax16 0 3 1, .fmac16 0 3 1,
    .fadd 0 4 2 6, .fsub 0 4 2 6, .fmul 0 4 2 6, .fdiv 0 4 2 6, .fmin 0 4 2 6, .fmax 0 4 2 6, .fsgnj 0 4 2 6,
    .faddF16 0 4 2 6, .fmulF16 0 4 2 6, .fmaxF16 0 4 2 6, .faddBf16 0 4 2 6, .fmulBf16 0 4 2 6, .fmaxBf16 0 4 2 6,
    .faddF64 0 4 2 6, .fmulF64 0 4 2 6, .fdivF64 0 4 2 6, .fminF64 0 4 2 6, .fmaxF64 0 4 2 6, .fsqrtF64 0 2 6,
    .frint 0 2 6, .exp2 0 2 6, .log2 0 2 6, .rcp 0 2 6, .rsq 0 2 6, .sqrt 0 2 6, .sin 0 2 6, .cos 0 2 6, .tanh 0 2 6,
    .fmaF32 0 1 1 4 2 6, .fmaF16x2 0 1 1 4 2 6, .fmaBf16x2 0 1 1 4 2 6, .fmaF64 0 1 0 4 2 6, .ceq 0 4 2 1,
    .cne 0 4 2 1, .clt 0 4 2 1, .cle 0 4 2 1, .cgt 0 4 2 1, .cge 0 4 2 1, .ctrue 0 4 2 1, .cfalse 0 4 2 1,
    .cord 0 4 2 1, .cuno 0 4 2 1, .cueq 0 4 2 1, .cune 0 4 2 1, .cult 0 4 2 1, .cule 0 4 2 1, .cugt 0 4 2 1,
    .cuge 0 4 2 1, .plop 6 1 0 2, .pland 6 1 0 2, .plor 6 1 0 2, .plxor 6 1 0 2, .sel 0 1 4 2 6] : List Instr).all latches = true := by decide

theorem test_plain : ([
    .mvk 5 6, .mvkh 5 6, .setwb 16, .xset 1 20, .xadd 1 3, .nop, .loop 8 4 0, .loopi 8 3 2, .lbrk 0, .lcont 0,
    .tsmp] : List Instr).all plain = true := by decide

theorem test_exchange : ([
    .shflIdx 0 4 2 6, .shflUp 0 4 2 6, .shflDn 0 4 2 6, .shflXor 0 4 2 6, .qxchXor 0 2 2 6, .qxchBc 0 2 2 6,
    .gqMask 0 2 6, .gqEvery 0 2 6, .gqSome 0 2 6, .gqSame 0 2 6, .peersB32 0 2 6, .peersB64 0 2 6, .bflyS64 0 4 2 6,
    .scanAdd 0 2 6, .scanFadd 0 2 6, .scanMax 0 2 6, .scanMin 0 2 6, .scanxAdd 0 2 6, .scanxFadd 0 2 6,
    .scanxMax 0 2 6, .scanxMin 0 2 6, .gredAdd 0 2 6, .gredFadd 0 2 6, .gredMax 0 2 6, .gredMin 0 2 6,
    .cmpct 0 4 2 6, .expand 0 4 2 6, .remap 0 2 6] : List Instr).all exchanges = true := by decide

/-- One lane of the pair leaves, the other stays (BranchCompletes with U clear). -/
theorem test_br : pair.EachLane fun _ => True := each_of_pair (q := fun _ => true) (by decide) fun _ _ => trivial

/-- All lanes agree (BranchCompletes with U set). -/
theorem test_br_uniform : ∃ b, ∀ l ∈ pair.issue.lanes, l.helper = false → (pair.lane? l).map (fun t => t.pred 1 != bit1 0) = some b :=
  ⟨false, by decide⟩

/-- Two lanes disagree (BranchDisagreementTraps). -/
def split2 : State := pair.setLane ⟨false, 0⟩ { thread [] with preds := 3 }

theorem test_br_disagrees : ∃ t v : Thread, split2.issue.lanes = [⟨false, 0⟩, ⟨false, 1⟩] ∧ split2.lane? ⟨false, 0⟩ = some t ∧
    split2.lane? ⟨false, 1⟩ = some v ∧ t.pred 1 ≠ v.pred 1 :=
  ⟨_, _, rfl, rfl, rfl, by decide⟩

/-! ### Loads, stores, atomics and reductions (witnesses of LoadsComplete, LoadFrame, LoadDelivers, StoreFrame, MisalignedTraps,
AtomicsComplete, ReductionsComplete) -/

def thread2 : Thread := thread [(2, 0x10400), (4, 7)]

theorem solo2 {rs : List Role} (h : check thread2 rs = none) : at2.Solo ⟨false, 0⟩ thread2 rs :=
  ⟨⟨rfl, rfl⟩, ⟨rfl, rfl⟩, rfl, rfl, h⟩

theorem of_access {s : State} {w : Who} {va n : Nat} {need : Need} {at_ : Bool} {z : State → Place → Bool}
    (h : fine (s.watchedAccess w va n need at_ z).2 = true) : ∃ s1 p, s.watchedAccess w va n need at_ z = (s1, .ok p) :=
  let ⟨p, hp⟩ := of_fine h
  ⟨_, p, Prod.ext rfl hp⟩

/-- The conditions of a load, as a Bool on the small state. -/
def loads (i : Instr) : Bool :=
  match loadForm i with
  | some f => (ldWord f.o f.sc).isNone && (check thread2 f.roles).isNone && f.addr thread2 % f.n == 0 &&
      fine ((at2.sampling f.roles).1.watchedAccess ⟨0, 0, 0⟩ (f.addr thread2) f.n .r false (sizedAt f.sc.toNat)).2
  | none => false

theorem loads_meets {i : Instr} (h : loads i = true) : ∃ f s1 p, loadForm i = some f ∧ ldWord f.o f.sc = none ∧
    at2.Solo ⟨false, 0⟩ thread2 f.roles ∧ f.addr thread2 % f.n = 0 ∧
    (at2.sampling f.roles).1.watchedAccess ⟨0, 0, 0⟩ (f.addr thread2) f.n .r false (sizedAt f.sc.toNat) = (s1, .ok p) := by
  unfold loads at h
  split at h
  · simp only [Bool.and_eq_true, Option.isNone_iff_eq_none, beq_iff_eq] at h
    obtain ⟨s1, p, hp⟩ := of_access h.2
    exact ⟨_, s1, p, ‹_›, h.1.1.1, solo2 h.1.1.2, h.1.2, hp⟩
  · cases h

theorem test_loads : ([.ldN8 15 4 1 2 4, .ldS8 0 0 0 2 4, .ldN16 1 1 0 2 4, .ldS16 0 2 2 2 4, .ldB32 0 3 1 2 4, .ldB64 0 5 1 2 4,
    .ldB128 2 4 2 2 4] : List Instr).all loads = true := by decide

theorem settled (s : State) (h : s.stores = [] ∧ s.atomics = [] ∧ s.reds = [] ∧ s.rdc = [] ∧ s.owners = [] ∧ s.recent = [])
    (hc : s.cores.all (fun p => p.2.l1.isEmpty) = true) (hw : s.win = [(mgmtBase + 8, 8)]) : s.Settled := by
  refine ⟨h.1, h.2.1, h.2.2.1, h.2.2.2.1, h.2.2.2.2.1, h.2.2.2.2.2, fun core ln => ?_, fun u => ?_⟩
  · have : (s.coreAt core).l1 = [] := by
      unfold State.coreAt sgetD
      revert hc
      generalize s.cores = m
      induction m with
      | nil => exact fun _ => rfl
      | cons p m ih =>
        intro hc
        simp only [List.all_cons, Bool.and_eq_true, List.isEmpty_iff] at hc
        unfold sget
        split
        · exact hc.1
        · exact ih hc.2
    unfold Core.l1Line
    rw [this]
    show hasDirty emptyLine = false
    decide
  · have : sget s.win (unitBase u + 0x80) = none := by
      rw [hw]
      have : mgmtBase + 8 ≠ unitBase u + 0x80 := by unfold unitBase mgmtBase; omega
      unfold sget
      rw [if_neg this]
      rfl
    unfold State.winBit State.winAt
    rw [this]
    have : (unitBase u + 0x80) % 0x10000 = 0x80 := by unfold unitBase; omega
    simp only [Option.getD_none, winReset, this]
    split
    · decide
    · split
      · exfalso; unfold unitBase mgmtBase at *; omega
      · rfl

theorem test_load_frame : ∃ f s1 p, loadForm (.ldB32 0 0 0 2 4) = some f ∧ ldWord f.o f.sc = none ∧
    at2.Solo ⟨false, 0⟩ thread2 f.roles ∧ f.addr thread2 % f.n = 0 ∧
    (at2.sampling f.roles).1.watchedAccess (at2.who ⟨false, 0⟩) (f.addr thread2) f.n .r false (sizedAt f.sc.toNat) = (s1, .ok p) ∧
    s1.Settled ∧ s1.lane? ⟨false, 0⟩ = (at2.sampling f.roles).1.lane? ⟨false, 0⟩ :=
  ⟨_, _, ⟨0x10400, false⟩, rfl, by decide, solo2 (by decide), by decide, rfl,
    settled _ ⟨rfl, rfl, rfl, rfl, rfl, rfl⟩ (by decide) rfl, rfl⟩

theorem test_store_frame : ∃ f s1 p, storeForm (.stB64 1 0 0 2 4) = some f ∧ stWord f.o.toNat f.sc = none ∧
    at2.Solo ⟨false, 0⟩ thread2 f.roles ∧ thread2.full = false ∧ f.addr thread2 % f.n = 0 ∧
    at2.watchedAccess (at2.who ⟨false, 0⟩) (f.addr thread2) f.n .w false (sizedAt f.sc.toNat) = (s1, .ok p) ∧
    s1.Settled ∧ s1.lane? ⟨false, 0⟩ = at2.lane? ⟨false, 0⟩ :=
  ⟨_, at2, ⟨0x10408, false⟩, rfl, by decide, solo2 (by decide), by decide, by decide, rfl,
    settled _ ⟨rfl, rfl, rfl, rfl, rfl, rfl⟩ (by decide) rfl, rfl⟩

theorem test_load_delivers : ∃ (s : State) (x : Load) (t : Thread), s.loads.find? (fun y => y.id == 7) = some x ∧ x.sample = none ∧
    s.thr? x.who = some t ∧ (x.dst.map (·.1)).Nodup :=
  ⟨{ at2 with loads := [⟨7, ⟨0, 0, 0⟩, [(4, 1), (5, 2)], ⟨0x10400, 0x10000⟩, true, 0x208, none⟩] }, _, thread2, rfl, rfl, rfl, by decide⟩

/-- A thread whose address is odd. -/
def odd2 : Thread := thread [(2, 0x10401)]

theorem test_misaligned_load : ∃ f, loadForm (.ldN16 0 0 0 2 4) = some f ∧ ldWord f.o f.sc = none ∧
    (withThread odd2).Solo ⟨false, 0⟩ odd2 f.roles ∧ f.addr odd2 % f.n ≠ 0 :=
  ⟨_, rfl, by decide, ⟨⟨rfl, rfl⟩, ⟨rfl, rfl⟩, rfl, rfl, by decide⟩, by decide⟩

theorem test_misaligned_store : ∃ f, storeForm (.stB128 0 0 0 2 4) = some f ∧ stWord f.o.toNat f.sc = none ∧
    (withThread odd2).Solo ⟨false, 0⟩ odd2 f.roles ∧ odd2.full = false ∧ f.addr odd2 % f.n ≠ 0 :=
  ⟨_, rfl, by decide, ⟨⟨rfl, rfl⟩, ⟨rfl, rfl⟩, rfl, rfl, by decide⟩, by decide, by decide⟩

/-- The conditions of an atomic, and of a reduction. -/
def atomics (i : Instr) : Bool :=
  match atomForm i with
  | some f => (atWord f.op f.ty.toNat f.o.toNat f.sc.toNat).isNone && (check thread2 f.roles).isNone &&
      (thread2.val64 f.a).toNat % f.span == 0 &&
      match at2.watchedAccess ⟨0, 0, 0⟩ (thread2.val64 f.a).toNat f.span f.need true (fun s p => !atomInL1 f.sc.toNat s p) with
      | (_, .ok p) => !unsupported at2 p f.fp (f.width == 16)
      | _ => false
  | none => false

def reductions (i : Instr) : Bool :=
  match redForm i with
  | some f => (rdWord f.op f.ty.toNat f.sc.toNat).isNone && (check thread2 f.roles).isNone && !thread2.full &&
      (thread2.val64 f.a).toNat % f.width == 0 &&
      match at2.watchedAccess ⟨0, 0, 0⟩ (thread2.val64 f.a).toNat f.width .w true unsized with
      | (_, .ok p) => !unsupported at2 p (decide (8 ≤ f.op)) (f.width == 16)
      | _ => false
  | none => false

theorem atomics_meets {i : Instr} (h : atomics i = true) : ∃ f s1 p, atomForm i = some f ∧
    atWord f.op f.ty.toNat f.o.toNat f.sc.toNat = none ∧ at2.Solo ⟨false, 0⟩ thread2 f.roles ∧ (thread2.val64 f.a).toNat % f.span = 0 ∧
    at2.watchedAccess ⟨0, 0, 0⟩ (thread2.val64 f.a).toNat f.span f.need true (fun s p => !atomInL1 f.sc.toNat s p) = (s1, .ok p) ∧
    unsupported at2 p f.fp (f.width == 16) = false := by
  unfold atomics at h
  split at h
  · simp only [Bool.and_eq_true, Option.isNone_iff_eq_none, beq_iff_eq] at h
    obtain ⟨⟨⟨h1, h2⟩, h3⟩, h4⟩ := h
    split at h4
    · exact ⟨_, _, _, ‹_›, h1, solo2 h2, h3, ‹_›, by simpa using h4⟩
    · cases h4
  · cases h

theorem reductions_meets {i : Instr} (h : reductions i = true) : ∃ f s1 p, redForm i = some f ∧
    rdWord f.op f.ty.toNat f.sc.toNat = none ∧ at2.Solo ⟨false, 0⟩ thread2 f.roles ∧ thread2.full = false ∧
    (thread2.val64 f.a).toNat % f.width = 0 ∧
    at2.watchedAccess ⟨0, 0, 0⟩ (thread2.val64 f.a).toNat f.width .w true unsized = (s1, .ok p) ∧
    unsupported at2 p (decide (8 ≤ f.op)) (f.width == 16) = false := by
  unfold reductions at h
  split at h
  · simp only [Bool.and_eq_true, Option.isNone_iff_eq_none, beq_iff_eq, Bool.not_eq_true'] at h
    obtain ⟨⟨⟨⟨h1, h2⟩, h3⟩, h4⟩, h5⟩ := h
    split at h5
    · exact ⟨_, _, _, ‹_›, h1, solo2 h2, h3, h4, ‹_›, by simpa using h5⟩
    · cases h5
  · cases h

theorem test_atomics : ([.atomAdd 0 0 0 2 4, .atomMinS 1 1 1 2 4, .atomMaxS 0 4 3 2 4, .atomMinN 0 0 0 2 4, .atomMaxN 1 0 0 2 4,
    .atomAnd 0 5 1 2 4, .atomOr 0 0 0 2 4, .atomXor 0 0 0 2 4, .atomXchg 2 0 0 2 4, .atomCas 2 3 0 2 4, .atomFadd 0 0 0 2 4,
    .atomFmin 0 0 0 2 4, .atomFmax 0 0 0 2 4, .atomBinc 0 0 0 2 4, .atomWinc 0 0 0 2 4, .atomDdecN 0 0 0 2 4, .atomDdecS 0 0 0 2 4,
    .atomLaddN 0 0 0 2 4, .atomLaddS 1 0 0 2 4, .atomLd 2 0 1 2 4] : List Instr).all atomics = true := by decide

theorem test_reductions : ([.redAdd 0 0 0 2 4, .redMinS 1 1 1 2 4, .redMaxS 0 4 0 2 4, .redMinN 0 0 0 2 4, .redMaxN 1 0 0 2 4,
    .redAnd 0 3 1 2 4, .redOr 0 0 0 2 4, .redXor 0 0 0 2 4, .redFadd 0 0 0 2 4, .redFmin 0 0 0 2 4, .redFmax 0 0 0 2 4,
    .redFadda 0 0 0 2 4] : List Instr).all reductions = true := by decide

/-! ### The copy and gather-scatter engines (witnesses of CopyCompletes, GatherCompletes) -/

/-- Registers from a list, 16 on. -/
def run16 (ws : List Nat) : SMap Word := ws.zipIdx.map fun p => (16 + p.2, BitVec.ofNat 32 p.1)

/-- Four 32-bit elements from 0x10400 to 0x10800. -/
def tileWords : List Nat := [0x10400, 0, 0x10800, 0, 1, 0, 0, 4, 4, 0x300]

theorem of_fine2 {ε α ε' β : Type} {x : Except ε α} {f : α → Except ε' β}
    (h : (match x with | .ok a => fine (f a) | .error _ => false) = true) : ∃ a b, x = .ok a ∧ f a = .ok b := by
  cases x with
  | ok a => exact let ⟨b, hb⟩ := of_fine h; ⟨a, b, rfl, hb⟩
  | error _ => cases h

theorem test_cpl : Meets copyForm (.cpl 0 3 16) (withRegs (run16 [0x10400, 0, 0x10800, 0])) := solo rfl rfl (by decide) (by decide)
theorem test_cpt : Meets copyForm (.cpt 3 16) (withRegs (run16 tileWords)) :=
  solo rfl rfl (by decide) ⟨rfl, _, _, rfl, rfl, by decide, by decide⟩
theorem test_cptr : Meets copyForm (.cptr 3 16) (withRegs (run16 [0x10400, 0, 40, 1, 1, 0, 0, 4, 4, 0x300])) :=
  solo rfl rfl (by decide) ⟨rfl, _, _, rfl, rfl, by decide, by decide⟩
/-- FP32 to FP8, with no scale. -/
theorem test_cptc : Meets copyForm (.cptc 3 16) (withRegs (run16 (tileWords ++ [0x41, 0, 0, 0, 0]))) :=
  solo rfl rfl (by decide) ⟨rfl, _, _, rfl, rfl, by decide, by decide⟩
theorem test_cpml : Meets copyForm (.cpml 3 4 16) (withRegs ((4, 1) :: run16 tileWords)) :=
  solo rfl rfl (by decide) ⟨⟨by decide, by decide, of_fine (by decide)⟩, by decide⟩
theorem test_cpms : Meets copyForm (.cpms 3 4 16) (withRegs ((4, 1) :: run16 [0x10400, 0, 0, 0, 16, 16, 32, 0, 0])) :=
  solo rfl rfl (by decide) ⟨⟨by decide, by decide, by decide⟩, by decide⟩
theorem test_expect : Meets copyForm (.expect 3 4) (withRegs [(4, 64)]) :=
  solo rfl rfl (by decide) ⟨by decide, _, rfl, by decide, by decide⟩
theorem test_wany : Meets copyForm (.wany 0 6 4) (withRegs [(4, 8)]) :=
  solo rfl rfl (by decide) ⟨by decide, by decide, by decide, _, rfl, by decide⟩
theorem test_wall : Meets copyForm (.wall 1 4) (withRegs [(4, 8)]) :=
  solo rfl rfl (by decide) ⟨by decide, by decide, by decide, _, rfl, by decide⟩
theorem test_ffrdy : Meets copyForm (.ffrdy 0 6 4) (withRegs [(4, 8)]) :=
  solo rfl rfl (by decide) ⟨by decide, by decide, by decide, _, rfl, by decide⟩

/-- A ring header of two slots of 128 bytes in the block's stage, and its address in registers 4 and 5. -/
def withRing : State :=
  let s := withRegs [(5, 256)]
  { s with
    launches := [(1, { launch with rcd := { launch.rcd with bstg := 4096 } })]
    stage := (leOf 4 1 ++ leOf 4 0 ++ leOf 4 2 ++ leOf 4 128 ++ List.replicate 48 0).zipIdx.map fun (p : Byte × Nat) => (stageBase + p.2, p.1) }

theorem test_awaitf : Meets copyForm (.awaitf 6 4) withRing := solo rfl rfl (by decide) ⟨rfl, trivial, by decide, of_fine (by decide)⟩
theorem test_relslot : Meets copyForm (.relslot 4) withRing := solo rfl rfl (by decide) ⟨rfl, trivial, by decide, of_fine (by decide)⟩

/-- Four 32-bit elements of eight at 0x10400, to 0x10800, with a trailer at 0x10A00. -/
def gsWords (ctl ibase : Nat) : List Nat := [0x10400, 0, 0x10800, 0, ctl, 8, 0, 0, 0x10A00, 0, 0, ibase, 0]

theorem test_gsg : Meets gatherForm (.gsg 3 4 16) (withRegs ((4, 4) :: run16 (gsWords 2 60))) :=
  solo rfl rfl (by decide) ⟨rfl, rfl, by decide, by decide, by decide⟩
theorem test_gsgm : Meets gatherForm (.gsgm 3 4 16) (withRegs ((4, 4) :: run16 (gsWords 2 0x10C00))) :=
  solo rfl rfl (by decide) ⟨rfl, rfl, by decide, by decide, by decide⟩
theorem test_gss : Meets gatherForm (.gss 3 4 16) (withRegs ((4, 4) :: run16 (gsWords 2 60))) :=
  solo rfl rfl (by decide) ⟨rfl, rfl, by decide, by decide, by decide⟩
theorem test_gssm : Meets gatherForm (.gssm 3 4 16) (withRegs ((4, 4) :: run16 (gsWords 2 0x10C00))) :=
  solo rfl rfl (by decide) ⟨rfl, rfl, by decide, by decide, by decide⟩

/-- A tag that is ready, and a trailer without a fault. -/
def withReady : State := withBlock { placeBlock with threads := [(0, thread2)], tags := [(3, { armed := true })] }

theorem test_gswt : Meets gatherForm (.gswt 0 3 6 2) withReady :=
  solo rfl rfl (by decide) ⟨by decide, by decide, by decide, by decide, _, rfl, fun _ => ⟨(0, 0), rfl, by decide⟩⟩
theorem test_gspoll : Meets gatherForm (.gspoll 1 3 6 2) at2 :=
  solo rfl rfl (by decide) ⟨by decide, by decide, by decide, by decide, _, rfl, fun h => absurd h (by decide)⟩

/-! ### The matrix engine, the splat unit and the converter (witnesses of MatrixCompletes, SplatCompletes, ConverterCompletes) -/

/-- A region of one unit, and a convergence register that wants one sign. -/
def withRegion (tok : Token) (regs : SMap Word) : State :=
  withBlock { placeBlock with threads := [(0, thread regs)], cvs := [(2, { e := 1 })], regions := [⟨1, 1, tok, 0, []⟩] }

/-- E4M3 by E4M3 into FP32E: M 64, N 16, K 32. -/
def matWords8 : List Nat := [0xC44, 0x2000, 1, 0x10020, 0, 0, 0, 0]

theorem test_mma : Meets matrixForm (.mma 0 0 1 2 16) (withRegion .engine (run16 matWords8)) :=
  solo rfl rfl (by decide) ⟨_, _, _, rfl, rfl, rfl, rfl, by decide⟩
theorem test_mmam : Meets matrixForm (.mmam 1 0 0 2 16) (withRegion .engine (run16 (matWords8 ++ [0x10400, 0, 0]))) :=
  solo rfl rfl (by decide) ⟨_, _, _, rfl, rfl, rfl, rfl, by decide⟩
theorem test_aalloc : Meets matrixForm (.aalloc 1 4 6) (withRegs [(4, 2)]) :=
  solo rfl rfl (by decide) ⟨rfl, trivial, by decide, by decide, rfl⟩
theorem test_afree : Meets matrixForm (.afree 4) (withRegion .block [(4, 1)]) :=
  solo rfl rfl (by decide) ⟨rfl, trivial, _, _, rfl, rfl, rfl, by decide⟩
theorem test_aacq : Meets matrixForm (.aacq 4) (withRegion .engine [(4, 1)]) :=
  solo rfl rfl (by decide) ⟨rfl, trivial, _, _, rfl, rfl, trivial⟩
theorem test_arel : Meets matrixForm (.arel 4) (withRegion .block [(4, 1)]) :=
  solo rfl rfl (by decide) ⟨rfl, trivial, _, _, rfl, rfl, trivial⟩
theorem test_azero : Meets matrixForm (.azero 4) (withRegion .block [(4, 1)]) :=
  solo rfl rfl (by decide) ⟨rfl, trivial, _, _, rfl, rfl, rfl⟩
theorem test_mtag : Meets matrixForm (.mtag 4 6 8) (withRegs [(4, 0xC44)]) := solo rfl rfl (by decide) (by decide)

theorem test_sproj : Meets splatForm (.sproj 16 32) (withRegs []) := solo rfl rfl (by decide) (by decide)
theorem test_skey : Meets splatForm (.skey 4 2 6) (withRegs [(2, 5), (4, 9)]) := solo rfl rfl (by decide) (by decide)
theorem test_sinit : Meets splatForm (.sinit 4) (withRegs [(4, 9)]) := solo rfl rfl (by decide) (by decide)
theorem test_sinitr : Meets splatForm .sinitr (withRegs []) := solo rfl rfl (by decide) (by decide)
theorem test_srd : Meets splatForm (.srd 16) (withRegs []) := solo rfl rfl (by decide) (by decide)
theorem test_swr : Meets splatForm (.swr 16) (withRegs []) := solo rfl rfl (by decide) (by decide)
theorem test_sload : Meets splatForm (.sload 0 2 16) at2 :=
  solo rfl rfl (by decide) ⟨⟨by decide, by decide, rfl, rfl⟩, trivial, by decide, by decide, _, _, _, rfl, rfl, rfl⟩
theorem test_sblend : Meets splatForm (.sblend 4 16 6) (withRegs [(4, 9)]) := solo rfl rfl (by decide) (by decide)
theorem test_sgrad : Meets splatForm (.sgrad 4 16 32) (withRegs [(4, 9)]) := solo rfl rfl (by decide) (by decide)

theorem test_cvt : Meets converterForm (.cvt 0 4 6 8) (withRegs [(4, 0x21)]) := solo rfl rfl (by decide) (by decide)
theorem test_qnt : Meets converterForm (.qnt 0 4 16 24) (withRegs [(4, 0x41)]) :=
  solo rfl rfl (by decide) ⟨rfl, trivial, rfl, rfl, rfl, by decide⟩
theorem test_dqnt : Meets converterForm (.dqnt 0 4 16 24) (withRegs [(4, 0x41)]) :=
  solo rfl rfl (by decide) ⟨rfl, trivial, rfl, rfl, rfl, by decide⟩
theorem test_qscl : Meets converterForm (.qscl 0 4 16 24) (withRegs [(4, 0x1041)]) :=
  solo rfl rfl (by decide) ⟨rfl, trivial, rfl, rfl, rfl, by decide⟩
theorem test_rot : Meets converterForm (.rot 0 4 16 24) (withRegs [(4, 0x11)]) :=
  solo rfl rfl (by decide) ⟨rfl, trivial, rfl, rfl, rfl, by decide⟩
theorem test_irot : Meets converterForm (.irot 1 4 16 24) (withRegs [(4, 0x11)]) :=
  solo rfl rfl (by decide) ⟨rfl, trivial, rfl, rfl, rfl, by decide⟩
theorem test_seed : Meets converterForm (.seed 0 7 4 6) (withRegs [(4, 9)]) := solo rfl rfl (by decide) (by decide)
theorem test_seedr : Meets converterForm (.seedr 0 0 4 6) (withRegs [(4, 9), (6, 3)]) := solo rfl rfl (by decide) (by decide)
theorem test_tagmk : Meets converterForm (.tagmk 0 4 6) (withRegs [(4, 0)]) := solo rfl rfl (by decide) (by decide)
theorem test_sgen : Meets converterForm (.sgen 0 2 4 6)
    { withRegs [(4, 9)] with launches := [(1, { launch with seeds := [{}, {}, ⟨77, 3⟩] })] } :=
  solo rfl rfl (by decide) (by decide)
theorem test_ard : Meets converterForm (.ard 4 2 16) (withRegion .block [(2, 1), (4, 0x1C)]) :=
  solo rfl rfl (by decide) ⟨rfl, trivial, rfl, rfl, rfl, by decide, _, _, rfl, rfl, rfl⟩
theorem test_awr : Meets converterForm (.awr 4 2 16) (withRegion .block [(2, 1), (4, 0xC1)]) :=
  solo rfl rfl (by decide) ⟨rfl, trivial, rfl, rfl, rfl, by decide, _, _, rfl, rfl, rfl⟩
theorem test_asv : Meets converterForm (.asv 0 2 16) (withRegion .block [(2, 1)]) :=
  solo rfl rfl (by decide) ⟨rfl, trivial, rfl, rfl, rfl, by decide, _, _, rfl, rfl, rfl⟩
theorem test_arst : Meets converterForm (.arst 0 2 16) (withRegion .block [(2, 1)]) :=
  solo rfl rfl (by decide) ⟨rfl, trivial, rfl, rfl, rfl, by decide, _, _, rfl, rfl, rfl⟩

/-! ### The device: sorts, collectives, launches, spawns, kernels (witnesses of DeviceCompletes) -/

theorem of_some {α : Type} {x : Option α} (h : x.isSome = true) : ∃ a, x = some a := by
  cases x with
  | some a => exact ⟨a, rfl⟩
  | none => cases h

theorem of_ok {ε α : Type} {x : Except ε α} {p : α → Prop} [DecidablePred p]
    (h : (match x with | .ok a => decide (p a) | .error _ => false) = true) : ∃ a, x = .ok a ∧ p a := by
  cases x with
  | ok a => exact ⟨a, rfl, of_decide_eq_true h⟩
  | error _ => cases h

theorem of_someIn {α : Type} {x : Option α} {p : α → Prop} [DecidablePred p]
    (h : (match x with | some a => decide (p a) | none => false) = true) : ∃ a, x = some a ∧ p a := by
  cases x with
  | some a => exact ⟨a, rfl, of_decide_eq_true h⟩
  | none => cases h

/-- Bytes put at physical addresses. -/
def put (s : State) (xs : List (Nat × List Byte)) : State := { s with mem := xs.foldl (fun m x => bsetMany m x.1 x.2) s.mem }

/-- Tables at 0x1000 that map the first 2 MiB onto themselves, with every permission. -/
def tables : List (Nat × List Byte) := [(0x1000, leOf 8 0x2001), (0x2000, leOf 8 0x3001), (0x3000, leOf 8 0x4001), (0x4000, leOf 8 0xDF)]

/-- A queue of the launch's own address space with a node table of 4 at 0x10800, and that launch over those tables. -/
def withQueue (regs : SMap Word) (xs : List (Nat × List Byte)) : State :=
  let s := put (withRegs regs) (tables ++ xs)
  { s with
    launches := [(1, { launch with root := 0x1000 })]
    queues := [(0, { ring := 0, lgsz := 0, prio := 0, launchOk := true, preempt := true, asid := 0, root := 0x1000, slice := 0, ntb := 0x10800,
                     ncnt := 4, save := 0, saven := 0 })] }

/-- A ring of 16 key records at 0x10800. -/
def keyHeader : List (Nat × List Byte) := [(0x10400, leOf 8 0x10800 ++ leOf 8 16)]

theorem test_kemit : Meets deviceForm (.kemit 6 16) (put (withRegs (run16 [0x10400, 0, 1, 2, 3])) keyHeader) :=
  solo rfl rfl (by decide) ⟨by decide, by decide, by decide, of_fine (by decide)⟩

/-- A sort of 32-bit keys: ring, destination, scratch, control, status. -/
def keySort (ctl tspec : Nat) : List Nat := [0x10400, 0, 0x10A00, 0, 0x10B00, 0, ctl, tspec, 0x10C00, 0, 4, 0, 0, 0x10D00, 0]

theorem test_ksort : Meets deviceForm (.ksort 3 4 16) (withRegs (run16 (keySort 0x180 0))) :=
  solo rfl rfl (by decide) ⟨by decide, by decide, by decide, by decide, by decide, by decide, by decide⟩
theorem test_ksortBat : Meets deviceForm (.ksortBat 3 4 16) (withRegs (run16 (keySort 0x180 0 ++ [2, 8]))) :=
  solo rfl rfl (by decide) ⟨by decide, by decide, by decide, by decide, by decide, by decide, by decide⟩
theorem test_ksel : Meets deviceForm (.ksel 3 4 16) (withRegs (run16 (keySort 0x20180 0))) :=
  solo rfl rfl (by decide) ⟨by decide, by decide, by decide, by decide, by decide, by decide, by decide⟩
theorem test_kselBat : Meets deviceForm (.kselBat 3 4 16) (withRegs (run16 (keySort 0x20180 0 ++ [2, 8]))) :=
  solo rfl rfl (by decide) ⟨by decide, by decide, by decide, by decide, by decide, by decide, by decide⟩
theorem test_kcs : Meets deviceForm (.kcs 3 4 16) (withRegs (run16 (keySort 0x980 0x300))) :=
  solo rfl rfl (by decide) ⟨by decide, by decide, by decide, by decide, by decide, by decide, by decide⟩

/-- A collective over 4 elements at the scope of the package. -/
def collWords (ctl : Nat) : List Nat := [0x10400, 0, 0x10800, 0, 0x10C00, 0, 0, 0, 4, ctl, 0, 0]

theorem test_ocomp : Meets deviceForm (.ocomp 3 6 16) (withRegs (run16 (collWords 0x1003))) :=
  solo rfl rfl (by decide) ⟨by decide, by decide, by decide, by decide, by decide, by decide, rfl, by decide⟩
theorem test_ored : Meets deviceForm (.ored 3 6 16) (withRegs (run16 (collWords 0xB004))) :=
  solo rfl rfl (by decide) ⟨by decide, by decide, by decide, by decide, by decide, by decide, rfl, by decide⟩
theorem test_cbar : Meets deviceForm (.cbar 3 6 16) (withRegs (run16 (collWords 4))) :=
  solo rfl rfl (by decide) ⟨by decide, by decide, by decide, by decide, by decide, by decide, rfl, by decide⟩
theorem test_cfail : Meets deviceForm (.cfail 6 4) (withRegs []) := solo rfl rfl (by decide) (by decide)

theorem no_tag {s : State} : ∀ k : BitVec 6, none = some k → s.badTag k.toNat = none := fun _ h => by cases h

theorem test_launch : Meets deviceForm (.launch 6 16) (withQueue (run16 [0x10400, 0, 0]) []) :=
  solo rfl rfl (by decide) ⟨by decide, by decide, no_tag,
    let ⟨bs, h⟩ := of_fine (by decide); ⟨bs, h, by decide⟩⟩
theorem test_launchSig : Meets deviceForm (.launchSig 3 6 16) (withQueue (run16 [0x10400, 0, 0]) []) :=
  solo rfl rfl (by decide) ⟨by decide, by decide, fun _ h => by cases h; decide,
    let ⟨bs, h⟩ := of_fine (by decide); ⟨bs, h, by decide⟩⟩
theorem test_spawn : Meets deviceForm (.spawn 2 6 16) (withRegs (run16 [0x10800, 0, 5, 6])) :=
  solo rfl rfl (by decide) ⟨by decide, by decide, no_tag, by decide⟩
theorem test_spawnNow : Meets deviceForm (.spawnNow 4 6 16) (withRegs (run16 [0x10800, 0])) :=
  solo rfl rfl (by decide) ⟨by decide, by decide, no_tag, by decide⟩
theorem test_tgsig : Meets deviceForm (.tgsig 6 4) (withQueue [(4, 1)] [(0x10820, leOf 4 2)]) :=
  solo rfl rfl (by decide) ⟨by decide, by decide, no_tag, _, rfl, .inl (by decide)⟩
theorem test_binflush : Meets deviceForm (.binflush 6 4)
    (let s := withRegs [(4, 0x10800)]; s.setCore 0 { s.coreAt 0 with bins := [(2, ⟨1, 0x10800, [[1]], false, none, 0⟩)] }) :=
  solo rfl rfl (by decide) ⟨by decide, by decide, no_tag, of_some (by decide)⟩

/-- A payload at 0x10400: one instance at 0x10000, seeds at 0x10500, status at 0x10600, undo area at 0x20000. -/
def payload : List (Nat × List Byte) :=
  [(0x10400, leOf 8 0x10000 ++ leOf 8 1 ++ leOf 8 0x10500 ++ leOf 8 0x10600 ++ leOf 8 0x20000 ++ leOf 4 2432)]

theorem test_fxrun : Meets deviceForm (.fxrun 6 4) (withQueue [(4, 0x10400)] payload) :=
  solo rfl rfl (by decide) ⟨by decide, by decide, no_tag, of_ok (by decide)⟩
theorem test_fxrunSig : Meets deviceForm (.fxrunSig 3 6 4) (withQueue [(4, 0x10400)] payload) :=
  solo rfl rfl (by decide) ⟨by decide, by decide, fun _ h => by cases h; decide, of_ok (by decide)⟩
theorem test_fxabort : Meets deviceForm (.fxabort 6 4) (withQueue [(4, 0x10400)] []) :=
  solo rfl rfl (by decide) ⟨by decide, by decide, no_tag, trivial⟩

/-! ### Fixers (witnesses of FixerCompletes, FixerFrame, FixerMovesComplete) -/

/-- An instance with an address in s1, control words in s2 and s3, and lines logged or not. -/
def inst : FxInst := { freshInst placeKernel 0 with s := [0, 0x10400, 0x11, 0x41, 0, 0, 0, 0, 0, 0, 0, 0, 0, 0, 0, 0] }

def kernel : Kernel :=
  { placeKernel with pay := 0x10700, ninst := 1, stat := 0x10600, undo := 0x20000, ubytes := 2432, insts := [(0, inst)] }

/-- Kernel 1 executes its instance 0. -/
def fixing : State := { put State.reset.placeReady tables with kernels := [(1, kernel)], fx := (1, 0) }

theorem fixing_meets : fixing.Fixing kernel inst := ⟨rfl, rfl⟩

/-- A fixer instruction meets the conditions of its completion. -/
def Fixes (i : Instr) : Prop := ∃ f, fixerForm i = some f ∧ fixing.Fixing kernel inst ∧ f.ok kernel inst

theorem fixes {i : Instr} {f : FixerForm} (h : fixerForm i = some f) (hok : f.ok kernel inst) : Fixes i := ⟨f, h, fixing_meets, hok⟩

theorem scal {rs : List (BitVec 5)} (h : rs.all (fun r => decide (r.toNat < 16)) = true) : scalars rs :=
  fun r hr => of_decide_eq_true (List.all_eq_true.1 h r hr)

/-- Scalars and branches. -/
theorem test_fixer_scalars : Fixes (.sli 15 9) ∧ Fixes (.saddi 1 1 64) ∧ Fixes (.saluAdd 4 1 2) ∧ Fixes (.saluSub 4 1 2) ∧
    Fixes (.saluMul 4 1 2) ∧ Fixes (.saluAnd 4 1 2) ∧ Fixes (.saluOr 4 1 2) ∧ Fixes (.saluXor 4 1 2) ∧ Fixes (.saluShl 4 1 2) ∧
    Fixes (.saluShr 4 1 2) ∧ Fixes (.b 3) ∧ Fixes (.bEqz 4 3) ∧ Fixes (.bNez 1 3) ∧ Fixes (.bLtz 1 3) ∧ Fixes (.bGez 1 3) ∧
    Fixes (.floop 1 3) ∧ Fixes (.fbc 0 1 0) ∧ Fixes (.fext 4 0 15) ∧ Fixes (.fins 0 1 15) ∧ Fixes (.fflg 4 1) :=
  ⟨fixes rfl (scal (by decide)), fixes rfl (scal (by decide)), fixes rfl (scal (by decide)),
   fixes rfl (scal (by decide)), fixes rfl (scal (by decide)), fixes rfl (scal (by decide)),
   fixes rfl (scal (by decide)), fixes rfl (scal (by decide)), fixes rfl (scal (by decide)),
   fixes rfl (scal (by decide)), fixes rfl (scal (by decide)), fixes rfl (scal (by decide)),
   fixes rfl (scal (by decide)), fixes rfl (scal (by decide)), fixes rfl (scal (by decide)),
   fixes rfl (scal (by decide)), fixes rfl (scal (by decide)), fixes rfl (scal (by decide)),
   fixes rfl (scal (by decide)), fixes rfl (scal (by decide))⟩

/-- Lane operations, at runs that end at f23 or stand above it. -/
theorem test_fixer_lanes : Fixes (.fopAdd 20 0 24 3) ∧ Fixes (.fopSub 0 4 8 3) ∧ Fixes (.fopMul 31 0 1 0) ∧ Fixes (.fopDiv 0 1 2 0) ∧
    Fixes (.fopMin 0 1 2 0) ∧ Fixes (.fopMax 0 1 2 0) ∧ Fixes (.fopFma 0 4 8 12 3) ∧ Fixes (.fopFnma 0 4 8 31 3) ∧ Fixes (.fopSqrt 0 1 1) ∧
    Fixes (.fopMov 0 1 1) ∧ Fixes (.iopAdd 0 1 2 0) ∧ Fixes (.iopSub 0 1 2 0) ∧ Fixes (.iopAnd 0 1 2 0) ∧ Fixes (.iopOr 0 1 2 0) ∧
    Fixes (.iopXor 0 1 2 0) ∧ Fixes (.iopShl 0 1 2 0) ∧ Fixes (.iopShr 0 1 2 0) ∧ Fixes (.iopSel 0 1 2 3 0) ∧ Fixes (.iopFclt 0 1 2 0) ∧
    Fixes (.iopIeq 0 1 2 0) :=
  ⟨fixes rfl ⟨by decide, by decide⟩, fixes rfl ⟨by decide, by decide⟩, fixes rfl ⟨by decide, by decide⟩,
   fixes rfl ⟨by decide, by decide⟩, fixes rfl ⟨by decide, by decide⟩, fixes rfl ⟨by decide, by decide⟩,
   fixes rfl ⟨by decide, by decide⟩, fixes rfl ⟨by decide, by decide⟩, fixes rfl ⟨by decide, by decide⟩,
   fixes rfl ⟨by decide, by decide⟩, fixes rfl ⟨by decide, by decide⟩, fixes rfl ⟨by decide, by decide⟩,
   fixes rfl ⟨by decide, by decide⟩, fixes rfl ⟨by decide, by decide⟩, fixes rfl ⟨by decide, by decide⟩,
   fixes rfl ⟨by decide, by decide⟩, fixes rfl ⟨by decide, by decide⟩, fixes rfl ⟨by decide, by decide⟩,
   fixes rfl ⟨by decide, by decide⟩, fixes rfl ⟨by decide, by decide⟩⟩

/-- Runs in formats. -/
theorem test_fixer_formats : Fixes (.fcvt 0 2 2) ∧ Fixes (.fdq 0 2 4 3 0) ∧ Fixes (.frq 0 2 4 3 0) ∧ Fixes (.frot 0 2 2 1) ∧
    Fixes (.wbld 30 31 0) :=
  ⟨fixes rfl (by decide), fixes rfl (by decide), fixes rfl (by decide), fixes rfl (by decide), fixes rfl ⟨by decide, by decide⟩⟩

/-- A fixer instruction that reaches memory meets the conditions of its completion. -/
def Moves (i : Instr) : Prop := ∃ f, fixerMove i = some f ∧ fixing.Fixing kernel inst ∧ f.ok fixing kernel inst

theorem moves {i : Instr} {f : FixerMove} (h : fixerMove i = some f) (hok : f.ok fixing kernel inst) : Moves i := ⟨f, h, fixing_meets, hok⟩

theorem test_sld : Moves (.sld 4 1 8) := moves rfl ⟨scal (by decide), by decide, of_fine (by decide)⟩
theorem test_sst : Moves (.sst 4 1 8) := moves rfl ⟨scal (by decide), by decide, by decide⟩
theorem test_fld : Moves (.fld 24 1 7 0) := moves rfl (of_ok (p := fun ls => (fxEach _ _ _ ls).2.2 = none) (by decide))
theorem test_fst : Moves (.fst 0 1 0 0) := moves rfl (of_ok (p := fun ls => (fxEach _ _ _ ls).2.2 = none) (by decide))
theorem test_fredf : Moves (.fredf 0 1 0 1) := moves rfl (of_ok (p := fun ls => (fxEach _ _ _ ls).2.2 = none) (by decide))
theorem test_stepend : Moves .stepend := moves rfl (by decide)

/-- At the end of a step nothing is left to commit. -/
theorem test_fend : ∃ f s k x, fixerMove .fend = some f ∧ s.Fixing k x ∧ f.ok s k x :=
  let x := { inst with fresh := true }
  ⟨_, { fixing with kernels := [(1, { kernel with insts := [(0, x)] })] }, _, x, rfl, ⟨rfl, rfl⟩, ⟨by decide, by decide⟩⟩

/-! ### Events and inputs (witnesses of TrafficTakesPlace, EnginesTakePlace, LaunchesTakePlace, KernelsTakePlace, PartitionsTakePlace,
TracingTakesPlace, ManagementTakesPlace) -/

/-- An event of a table meets the conditions of its effect in a state. -/
def Takes (tab : Instr → Option EventForm) (i : Instr) (s : State) : Prop := ∃ f, tab i = some f ∧ f.ok s

theorem takes {tab : Instr → Option EventForm} {i : Instr} {s : State} {f : EventForm} (h : tab i = some f) (hok : f.ok s) : Takes tab i s :=
  ⟨f, h, hok⟩

/-- A store, a load, an atomic, a reduction and a credit in flight, numbered 7. -/
def busy : State :=
  { at2 with
    stores := [⟨7, ⟨0, 0, 0⟩, .write 0x10400 (leOf 4 1), 0⟩]
    loads := [⟨7, ⟨0, 0, 0⟩, [(4, 1)], ⟨0x10400, 0x10000⟩, false, 0x208, none⟩]
    atomics := [{ id := 7, core := 0, blk := 0, op := 0, ty := 0, pa := 0x10400, inL1 := false, lanes := [(0, some 4, 1, 0)], va := 0x10400, pc := 0 }]
    reds := [{ id := 7, core := 0, whos := [⟨0, 0, 0⟩], op := 0, ty := 0, pa := 0x10400, val := 1, va := 0x10400, pc := 0, launch := 1, queue := 0, lin := 0 }]
    arrivals := [⟨7, 1, 0, 3, 16, 0⟩] }

/-- A command numbered 7. -/
def cmd (major sub : Nat) (ws : List Nat) : Cmd :=
  { id := 7, major := major, sub := sub, mode := 0, tag := 3, core := 0, blk := 0, grp := 0, thr := 0, launch := 1, queue := 0, asid := 0,
    root := 0x1000, cmdId := 0, desc := ws.map (BitVec.ofNat 32), lanes := [(0, 0)] }

def withCmd (c : Cmd) : State := { at2 with cmds := [(7, c)] }

theorem test_storePerformed : Takes trafficEvent (.storePerformed 7) busy := takes rfl ⟨_, rfl⟩
theorem test_loadDataReturn : Takes trafficEvent (.loadDataReturn 7) busy := takes rfl ⟨_, rfl⟩
theorem test_atomicPerform : Takes trafficEvent (.atomicPerform 7) busy := takes rfl ⟨_, rfl⟩
theorem test_l1Writeback : Takes trafficEvent (.l1Writeback 0 0x208) busy := takes rfl trivial
theorem test_rdcRequestArrive : Takes trafficEvent (.rdcRequestArrive 7) busy := takes rfl ⟨_, rfl⟩
theorem test_engineBytesArrive : Takes trafficEvent (.engineBytesArrive 7) busy := takes rfl ⟨_, _, rfl, rfl⟩
theorem test_rangeLockGrant : Takes trafficEvent (.rangeLockGrant 7) { at2 with waiting := [cmd 25 1 tileWords] } :=
  takes rfl ⟨_, rfl, by decide, by decide, by decide⟩
theorem test_regroupComplete : Takes trafficEvent (.regroupComplete 0 0) (withBlock { placeBlock with regroupDue := true }) :=
  takes rfl ⟨_, rfl, rfl, by decide⟩
theorem test_groupSlotQuota : Takes trafficEvent (.groupSlotQuota 0 0) at2 := takes rfl trivial
theorem test_groupAged : Takes trafficEvent (.groupAged 0 0 0) at2 := takes rfl trivial
theorem test_starveForced : Takes trafficEvent (.starveForced 0 0 0)
    (withBlock { placeBlock with
      threads := [(0, thread []), (1, { thread [] with idx := 1, pc := 0x10008, starve := 64 })]
      readyAt := [(0, 0)] }) :=
  takes rfl ⟨_, (0x10000, [(0, thread [])]), (0x10008, [(1, { thread [] with idx := 1, pc := 0x10008, starve := 64 })]),
    rfl, rfl, by decide, by decide, by decide, by decide⟩
theorem test_unassignedEncoding : Takes trafficEvent (.unassignedEncoding 0x3F) at2 := takes rfl trivial
theorem test_fetchFault : Takes trafficEvent (.fetchFault 9 4 0x10000) at2 := takes rfl trivial

/-- A ring copy that waits for a slot, and its state. -/
def ringCopy : Cmd := { cmd 25 1 tileWords with aux := [stageBase, 1, 2 ^ 40] }

def ringWaits : State := { withRing with cmds := [(7, ringCopy)] }

theorem ring_claims : ∃ x, ringWaits.claimOf ringCopy = some x ∧ ringWaits.blocked 7 (ringCopy.slotLocks (ringCopy.ctx ringWaits) x.1.slsz x.2) = false :=
  of_someIn (by decide)

theorem test_ringSlotClaim : Takes engineEvent (.ringSlotClaim 7) ringWaits :=
  takes rfl (let ⟨x, h, h'⟩ := ring_claims; ⟨ringCopy, x.1, x.2, rfl, h, h'⟩)
theorem test_copyCommandComplete : Takes engineEvent (.copyCommandComplete 7) (withCmd (cmd 25 1 tileWords)) :=
  takes rfl ⟨_, rfl, by decide⟩
theorem test_gseCommandComplete : Takes engineEvent (.gseCommandComplete 7) (withCmd (cmd 26 0 (gsWords 2 60))) := takes rfl ⟨_, rfl, rfl⟩
theorem test_matrixPhaseEnd : Takes engineEvent (.matrixPhaseEnd 7) (withCmd { cmd 27 0 matWords8 with aux := [2, 0, 0] }) :=
  takes rfl ⟨_, rfl, by decide⟩
theorem test_matrixOperationComplete : Takes engineEvent (.matrixOperationComplete 7) (withCmd { cmd 27 0 matWords8 with begun := true }) :=
  takes rfl ⟨_, rfl, by decide⟩
theorem test_aallocGrant : Takes engineEvent (.aallocGrant 0)
    (at2.setCore 0 { at2.coreAt 0 with accReqs := [⟨0, [⟨false, 0⟩], 2, 6, 1⟩] }) := takes rfl ⟨_, rfl, by decide⟩
theorem test_startTickReached : Takes engineEvent (.startTickReached 7) (withCmd { cmd 25 1 tileWords with held := true }) :=
  takes rfl ⟨_, rfl, by decide⟩
theorem test_kseCommandBegin : Takes engineEvent (.kseCommandBegin 7) (withCmd (cmd 30 1 (keySort 0x180 0))) := takes rfl ⟨_, rfl, by decide⟩
theorem test_kseCommandComplete : Takes engineEvent (.kseCommandComplete 7) (withCmd { cmd 30 1 (keySort 0x180 0) with begun := true }) :=
  takes rfl ⟨_, rfl, by decide⟩
theorem test_collectiveBegin : Takes engineEvent (.collectiveBegin 7) (withCmd (cmd 30 5 (collWords 0xB004))) := takes rfl ⟨_, rfl, by decide⟩
theorem test_collectiveComplete : Takes engineEvent (.collectiveComplete 7 [])
    (withCmd { cmd 30 5 (collWords 0xB004) with begun := true, aux := [0, 0, 1, 0, 0] }) := takes rfl ⟨_, rfl, by decide⟩
theorem test_peerFlitTimeout : Takes engineEvent (.peerFlitTimeout 5)
    { withCmd { cmd 30 5 (collWords 0xB004) with begun := true } with
      cycle := 30000000, linksDown := [(5, 0)], launches := [(1, { launch with group := [0, 5] })] } := takes rfl ⟨0, rfl, by decide, by decide⟩
theorem test_peerLossReport : Takes engineEvent (.peerLossReport 5) at2 := takes rfl trivial
theorem test_twinericLinkFailure : Takes engineEvent (.twinericLinkFailure 5 false) at2 := takes rfl (by decide)

/-- The queue of withQueue, and its launch in another state. -/
def withLaunch (f : Launch → Launch) (g : Queue → Queue) : State :=
  let s := withQueue [] []
  { s with launches := smod s.launches 1 f, queues := smod s.queues 0 g }

theorem test_qtenWrite : Takes launchEvent (.qtenWrite 1) at2 := takes rfl (by decide)
theorem test_queueTableWake : Takes launchEvent (.queueTableWake 0) (at2.setWin (mgmtBase + 0x018) 1) := takes rfl (by decide)
theorem test_ringLineWake : Takes launchEvent (.ringLineWake 0) at2 := takes rfl trivial
theorem test_launchRecord : Takes launchEvent (.launchRecord 0) at2 := takes rfl trivial
theorem test_tlbInvalidationRecord : Takes launchEvent (.tlbInvalidationRecord 0) at2 := takes rfl trivial
theorem test_markerRecord : Takes launchEvent (.markerRecord 0) at2 := takes rfl trivial
theorem test_tlbInvalidationComplete : Takes launchEvent (.tlbInvalidationComplete 7)
    { withQueue [] [] with tlbInvs := [⟨7, 0, 0, 0x10000, 4096, 1, 0, {}⟩] } := takes rfl ⟨_, _, rfl, rfl⟩
theorem test_launchDispatch : Takes launchEvent (.launchDispatch 1) (withLaunch (fun l => { l with state := .waiting }) id) :=
  takes rfl ⟨_, rfl, by decide, .inl (by decide)⟩
theorem test_clusterPlace : Takes launchEvent (.clusterPlace 1 0 0)
    (withLaunch (fun l => { l with state := .dispatching, next := 0, rcd := { l.rcd with regs := 16 } }) id) :=
  takes rfl (let ⟨sp, h⟩ := of_some (by decide); ⟨_, .cluster 0, sp, rfl, by decide, by decide, by decide, by decide, .inl (by decide), h⟩)
theorem test_stageDrainComplete : Takes launchEvent (.stageDrainComplete 1) (withLaunch (fun l => { l with draining := some (0, 4096) }) id) :=
  takes rfl ⟨_, rfl⟩
theorem test_sliceExpire : Takes launchEvent (.sliceExpire 0)
    { withLaunch id (fun q => { q with slice := 1, sliceStart := some 0 }) with cycle := 3 } := takes rfl ⟨_, 0, rfl, rfl, by decide, by decide⟩
theorem test_blockSave : Takes launchEvent (.blockSave 0 0) (withLaunch id fun q => { q with preempted := true }) :=
  takes rfl ⟨_, _, _, rfl, rfl, rfl, rfl, by decide, by decide⟩
theorem test_queueResume : Takes launchEvent (.queueResume 0) { withLaunch id (fun q => { q with preempted := true }) with cores := [] } :=
  takes rfl ⟨_, rfl, rfl, by decide⟩

/-- A bin of one thread, closed or with a timer. -/
def withBin (b : Bin) : State :=
  let s := withLaunch (fun l => { l with rcd := { l.rcd with regs := 16, slots := 64 } }) id
  s.setCore 0 { s.coreAt 0 with bins := [(2, b)] }

theorem test_spawnBinTimerExpire : Takes launchEvent (.spawnBinTimerExpire 0 2) (withBin ⟨1, 0x10800, [[1]], false, some 0, 0⟩) :=
  takes rfl ⟨_, 0, rfl, rfl, rfl, by decide⟩
theorem test_spawnBlockDispatch : Takes launchEvent (.spawnBlockDispatch 0 2) (withBin ⟨1, 0x10800, [[1]], true, none, 0⟩) :=
  takes rfl (let ⟨o, h⟩ := of_some (by decide); let ⟨k, h'⟩ := of_some (by decide)
    ⟨_, _, o, k, rfl, rfl, h, h', rfl, by decide, by decide⟩)
theorem test_launchComplete : Takes launchEvent (.launchComplete 1) { withLaunch (fun l => { l with next := 1 }) id with cores := [] } :=
  takes rfl ⟨_, rfl, by decide⟩
theorem test_hostPendDecrement : Takes launchEvent (.hostPendDecrement 0 1) (withQueue [] []) := takes rfl ⟨_, rfl⟩

/-- The kernel as an event finds it. -/
def withKernel (k : Kernel) : State := { fixing with kernels := [(1, k)] }

theorem test_fixerKernelAdmit : Takes kernelEvent (.fixerKernelAdmit 1)
    (let k := { kernel with admitted := false, locks := [⟨0, [(0x10800, 0x10880)], false, true, 1⟩] }; { withKernel k with waiting := [k.cmd] }) :=
  takes rfl ⟨_, _, rfl, rfl, by decide⟩
theorem test_fixerInstanceStart : Takes kernelEvent (.fixerInstanceStart 1) (withKernel { kernel with insts := [], next := 0 }) :=
  takes rfl ⟨_, 0, rfl, rfl, rfl, rfl, by decide, .inr (by decide)⟩
theorem test_fixerKernelComplete : Takes kernelEvent (.fixerKernelComplete 1) (withKernel { kernel with insts := [], nend := 1 }) :=
  takes rfl ⟨_, rfl, by decide⟩
theorem test_fixerUnassignedOp : Takes kernelEvent (.fixerUnassignedOp 0xFFFFFFFF) fixing := takes rfl ⟨_, _, fixing_meets⟩
theorem test_fixerFetchFault : Takes kernelEvent .fixerFetchFault fixing := takes rfl ⟨_, _, fixing_meets⟩

/-- Partition 0 with a request of channel 3 for 0x10400, in a ready package. -/
def unit0 (x : MemUnit) : State := at2.setUnit 0 x

def req : MemReq := { id := 7, ch := 3, pa := 0x10400, by_ := {}, at_ := 0 }
def failing (tries : Nat) (failed : Bool) : State := unit0 { bursts := [(3, ⟨req, tries, 1, failed⟩)], wants := [(3, 5)] }

theorem test_channelRequestServe : Takes partitionEvent (.channelRequestServe 0 3 0) (unit0 { reqs := [req] }) := takes rfl (by decide)
theorem test_requestAged : Takes partitionEvent (.requestAged 0 3) (unit0 { reqs := [req] }) := takes rfl trivial
theorem test_burstCrcError : Takes partitionEvent (.burstCrcError 0 3 1) (failing 7 false) := takes rfl (by decide)
theorem test_burstReplayExhausted : Takes partitionEvent (.burstReplayExhausted 0 3) (failing 8 false) :=
  takes rfl ⟨by decide, _, rfl, rfl, by decide⟩
theorem test_laneCrcThreshold : Takes partitionEvent (.laneCrcThreshold 0 3 1)
    ((unit0 { errs := [(3, 1, 0)] }).setWin (unitBase 0 + 0x38) 0) := takes rfl (by decide)
theorem test_laneRepair : Takes partitionEvent (.laneRepair 0 3 true) (failing 8 true) :=
  takes rfl ⟨by decide, by decide, fun _ h => by cases h; rfl⟩
theorem test_repair : Takes partitionEvent (.repair 0 0x80000103) at2 := takes rfl (by decide)
theorem test_retrain : Takes partitionEvent (.retrain 7 0x80000003) at2 := takes rfl (by decide)
theorem test_retrainDone : Takes partitionEvent (.retrainDone 0 3) (unit0 { retraining := [3] }) := takes rfl (by decide)
theorem test_eyeSample : Takes partitionEvent (.eyeSample 7 31 75 1 2) at2 := takes rfl (by decide)
theorem test_rowSwap : Takes partitionEvent (.rowSwap 0 3 1 9 10) ((unit0 { acts := [(3, 1, 9, 0)] }).setWin (unitBase 0 + 0x60) 1) :=
  takes rfl (by decide)
theorem test_retire : Takes partitionEvent (.retire 0 0x80000803) at2 := takes rfl (by decide)
theorem test_errorCountClear : Takes partitionEvent (.errorCountClear 11 0x2C) at2 := takes rfl (by decide)
theorem test_irqstClear : Takes partitionEvent (.irqstClear 0 0x1FF) at2 := takes rfl (by decide)
theorem test_missCounterClear : Takes partitionEvent (.missCounterClear 0 0x1FFC) at2 := takes rfl (by decide)
theorem test_hctlWrite : Takes partitionEvent (.hctlWrite 0 0x3F) at2 := takes rfl (by decide)
theorem test_heatHalve : Takes partitionEvent (.heatHalve 0) at2 := takes rfl (by decide)
theorem test_heatClear : Takes partitionEvent (.heatClear 0) at2 := takes rfl (by decide)
theorem test_heatPassDone : Takes partitionEvent (.heatPassDone 0) (unit0 { heatPass := 1 }) := takes rfl (by decide)
theorem test_cxlLinkDown : Takes partitionEvent (.cxlLinkDown 3) at2 := takes rfl (by decide)
theorem test_cxlLinkRetrain : Takes partitionEvent (.cxlLinkRetrain 3) at2 := takes rfl (by decide)

/-- A descriptor of a 4 KiB page, at the low address 0x10400. -/
def migrating : State := (put at2 [(0x10400, leOf 8 0x11000 ++ leOf 8 0x12000 ++ leOf 8 0x13000)]).setWin mgBase 0x10400

theorem of_read {σ α β : Type} {x : σ × Option α} {f : σ → α → Option β}
    (h : (match x with | (s, some a) => (f s a).isSome | _ => false) = true) : ∃ s a b, x = (s, some a) ∧ f s a = some b := by
  obtain ⟨s, _ | a⟩ := x
  · cases h
  · exact let ⟨b, hb⟩ := of_some h; ⟨s, a, b, rfl, hb⟩

theorem test_migrationSubmit : Takes partitionEvent (.migrationSubmit 0) migrating :=
  takes rfl ⟨by decide, by decide, by decide, of_read (by decide)⟩
theorem test_migrationComplete : Takes partitionEvent (.migrationComplete 7)
    { at2 with migrations := [⟨7, 0x11000, 0x12000, 0x13000, 0, 0, 0, 0, 1, 0x14000, 0x11000, [], 0, 0, false⟩] } := takes rfl ⟨_, _, rfl, rfl⟩

theorem test_tctlWrite : Takes traceEvent (.tctlWrite 0x301) (at2.setWin (traceBase + 0x10) 0x1000) := takes rfl (by decide)
theorem test_tdropClear : Takes traceEvent .tdropClear at2 := takes rfl (by decide)
theorem test_halt : Takes traceEvent .halt at2 := takes rfl (by decide)
theorem test_resume : Takes traceEvent .resume at2 := takes rfl (by decide)
theorem test_step : Takes traceEvent .step at2 := takes rfl (by decide)
theorem test_timebaseLowRead : Takes traceEvent (.timebaseLowRead 0 0 0 6) at2 := takes rfl trivial
theorem test_timebaseHighRead : Takes traceEvent (.timebaseHighRead 0 0 0 6) at2 := takes rfl trivial
theorem test_seedLowRead : Takes traceEvent (.seedLowRead 0 0 0 7 6) at2 := takes rfl (by decide)
theorem test_counterSnapshotRead : Takes traceEvent (.counterSnapshotRead 0 0 0 6) at2 := takes rfl trivial

theorem test_powerUp : Takes managementEvent .powerUp State.reset := takes rfl (by decide)
theorem test_coldReset : Takes managementEvent .coldReset at2 := takes rfl trivial
theorem test_warmReset : Takes managementEvent .warmReset at2 := takes rfl (by decide)
theorem test_powerLoss : Takes managementEvent .powerLoss at2 := takes rfl trivial
theorem test_windowRead : Takes managementEvent (.windowRead mgmtBase) at2 := takes rfl (by decide)
theorem test_windowWrite : Takes managementEvent (.windowWrite (mgmtBase + 0x024) 3000) at2 := takes rfl ⟨by decide, by decide, rfl⟩
theorem test_registerWrite : Takes managementEvent (.registerWrite (mgmtBase + 0x024) 3000) at2 := takes rfl (by decide)
theorem test_firmwareStage : Takes managementEvent (.firmwareStage 2 1 []) at2 := takes rfl trivial
theorem test_firmwareActivate : Takes managementEvent .firmwareActivate
    { at2 with firmware := { slotB := some ⟨2, 1, [], true, true, true⟩ } } := takes rfl ⟨_, rfl, by decide⟩
theorem test_selfTestLogRead : Takes managementEvent .selfTestLogRead at2 := takes rfl trivial
theorem test_retirementTableRead : Takes managementEvent .retirementTableRead at2 := takes rfl trivial
theorem test_unknownCommand : Takes managementEvent (.unknownCommand 0x7F) at2 := takes rfl (by decide)
theorem test_getVersion : Takes managementEvent .getVersion at2 := takes rfl trivial
theorem test_getCapabilities : Takes managementEvent .getCapabilities at2 := takes rfl trivial
theorem test_negotiateAlgorithms : Takes managementEvent (.negotiateAlgorithms 0xFFFF 0xFFFF) at2 := takes rfl (by decide)
theorem test_getDigests : Takes managementEvent .getDigests at2 := takes rfl trivial
theorem test_getCertificate : Takes managementEvent (.getCertificate 0) at2 := takes rfl rfl
theorem test_challenge : Takes managementEvent (.challenge []) at2 := takes rfl trivial
theorem test_getMeasurements : Takes managementEvent (.getMeasurements []) at2 := takes rfl trivial
theorem test_pkidWrite : Takes managementEvent (.pkidWrite 2047 true) State.reset := takes rfl (by decide)
theorem test_qtbWrite : Takes managementEvent (.qtbWrite 0x010 0x1000) at2 := takes rfl (by decide)
theorem test_mirqClear : Takes managementEvent (.mirqClear 1) at2 := takes rfl (by decide)
theorem test_pwrSample : Takes managementEvent (.pwrSample 3601) at2 := takes rfl trivial
theorem test_selfTestStart : Takes managementEvent (.selfTestStart 4 0 3 9 0) at2 := takes rfl (by decide)
theorem test_selfTestComplete : Takes managementEvent (.selfTestComplete 1 0 3 9 2) { at2 with tests := [⟨1, 0, 3, 9, 0⟩] } :=
  takes rfl (by decide)
theorem test_peerRequest : Takes managementEvent (.peerRequest 5 0x10400 8 [] false) at2 := takes rfl (by decide)
theorem test_hostAccess : Takes managementEvent (.hostAccess 0x10400 8 [1] true) at2 := takes rfl (by decide)

/-! ### Decoding (words of the spec, or written from its encodings) -/

/-- A 16-bit and a 32-bit arithmetic word, moves of constants, special registers, index registers. -/
theorem test_decode_arithmetic : decode (toBytes 2 0x1482) = .ok (.iadd16 0 5 4, []) ∧ decode (toBytes 2 0x247E) = .ok (.fmac16 0 9 3, []) ∧
    decode (toBytes 4 0x08508101) = .ok (.iadd 0 5 4 4, []) ∧ decode (toBytes 4 0xFF8060C5) = .ok (.iaddImm (-1) 3 3, []) ∧
    decode (toBytes 4 0x882840D1) = .ok (.clt 2 5 4 3, []) ∧ decode (toBytes 4 0x08103153) = .ok (.plop 8 4 3 5, []) ∧
    decode (toBytes 4 0x10508195) = .ok (.sel 0 2 5 4 6, []) ∧ decode (toBytes 4 0x1FC12217) = .ok (.rsq 0 9 8, []) ∧
    decode (toBytes 4 0xFFFEC287) = .ok (.mvk (-5) 10, []) := ⟨rfl, rfl, rfl, rfl, rfl, rfl, rfl, rfl, rfl⟩

/-- Loads, stores, fences, atomics, reductions. -/
theorem test_decode_memory : decode (toBytes 4 0x22C0412B) = .ok (.ldB32 2 1 1 2 4, []) ∧
    decode (toBytes 4 0x06A0416D) = .ok (.stB32 0 3 1 2 5, []) ∧ decode (toBytes 4 0x0C026019) = .ok (.fence 2 3, []) ∧
    decode (toBytes 4 0x0E000019) = .ok (.oswait 0, []) ∧ decode (toBytes 4 0x18A0412F) = .ok (.atomFadd 0 3 0 2 4, []) ∧
    decode (toBytes 4 0x1C804171) = .ok (.redFadd 0 3 1 2 5, []) := ⟨rfl, rfl, rfl, rfl, rfl, rfl⟩

/-- Control flow, convergence variables, exchanges. -/
theorem test_decode_sequencer : decode (toBytes 4 0xFFFFFD1D) = .ok (.call (-6) 0, []) ∧ decode (toBytes 4 0x0000019F) = .ok (.calli 0 6, []) ∧
    decode (toBytes 4 0x0000219F) = .ok (.calli 1 6, []) ∧ decode (toBytes 4 0x0600A01F) = .ok (.trap 5, []) ∧
    decode (toBytes 4 0x02004263) = .ok (.cvarm 2 9, []) ∧ decode (toBytes 4 0x04026023) = .ok (.cvsync 3, []) ∧
    decode (toBytes 4 0x06006023) = .ok (.cvwait 3, []) ∧ decode (toBytes 4 0x18908165) = .ok (.shflXor 0 9 4 5, []) ∧
    decode (toBytes 4 0x0040C1E7) = .ok (.scanxAdd 0 6 7, []) := ⟨rfl, rfl, rfl, rfl, rfl, rfl, rfl, rfl, rfl⟩

/-- Launches, copies, gather-scatter. -/
theorem test_decode_engines : decode (toBytes 4 0x0081413D) = .ok (.launch 10 4, []) ∧ decode (toBytes 4 0x4581413D) = .ok (.launchSig 5 10 4, []) ∧
    decode (toBytes 4 0x0391843D) = .ok (.spawn 3 12 16, []) ∧ decode (toBytes 4 0x4391843D) = .ok (.spawnNow 3 12 16, []) ∧
    decode (toBytes 4 0x00A0A1BD) = .ok (.tgsig 5 6, []) ∧ decode (toBytes 4 0x00B0E43D) = .ok (.binflush 7 16, []) ∧
    decode (toBytes 4 0x430F8133) = .ok (.cpl 1 3 4, []) ∧ decode (toBytes 4 0x011F8533) = .ok (.cpt 1 20, []) ∧
    decode (toBytes 4 0x022F8533) = .ok (.cptr 2 20, []) ∧ decode (toBytes 4 0x043F8533) = .ok (.cptc 4 20, []) ∧
    decode (toBytes 4 0x05410533) = .ok (.cpml 5 8 20, []) ∧ decode (toBytes 4 0x06510533) = .ok (.cpms 6 8 20, []) ∧
    decode (toBytes 4 0x036F81B3) = .ok (.expect 3 6, []) ∧ decode (toBytes 4 0x007140B3) = .ok (.wany 0 10 2, []) ∧
    decode (toBytes 4 0x408F80B3) = .ok (.wall 1 2, []) ∧ decode (toBytes 4 0x009160B3) = .ok (.ffrdy 0 11 2, []) ∧
    decode (toBytes 4 0x00A0A333) = .ok (.awaitf 5 12, []) ∧ decode (toBytes 4 0x00BF8333) = .ok (.relslot 12, []) ∧
    decode (toBytes 4 0x01014A35) = .ok (.gsg 1 10 40, []) ∧ decode (toBytes 4 0x00416C35) = .ok (.gswt 0 0 11 48, []) :=
  ⟨rfl, rfl, rfl, rfl, rfl, rfl, rfl, rfl, rfl, rfl, rfl, rfl, rfl, rfl, rfl, rfl, rfl, rfl, rfl, rfl⟩

/-- The converter, the matrix engine, sorts, the splat unit, collectives, tracing. -/
theorem test_decode_units : decode (toBytes 4 0x00308169) = .ok (.cvt 0 3 4 5, []) ∧ decode (toBytes 4 0x10C10429) = .ok (.dqnt 0 12 8 16, []) ∧
    decode (toBytes 4 0x3030C0A9) = .ok (.seed 0 3 6 2, []) ∧ decode (toBytes 4 0x4800C2A9) = .ok (.sgen 0 0 6 10, []) ∧
    decode (toBytes 4 0x00206139) = .ok (.aalloc 2 3 4, []) ∧ decode (toBytes 4 0x0FC09F39) = .ok (.afree 4, []) ∧
    decode (toBytes 4 0x29C36839) = .ok (.ard 28 27 32, []) ∧ decode (toBytes 4 0x38736839) = .ok (.asv 7 27 32, []) ∧
    decode (toBytes 4 0x4881C1F9) = .ok (.mtag 8 14 7, []) ∧ decode (toBytes 4 0x00C0A23D) = .ok (.fxrun 5 8, []) ∧
    decode (toBytes 4 0x42C0A23D) = .ok (.fxrunSig 2 5 8, []) ∧ decode (toBytes 4 0x0001053D) = .ok (.kemit 8 20, []) ∧
    decode (toBytes 4 0x42218A3D) = .ok (.kselBat 2 12 40, []) ∧ decode (toBytes 4 0x07C0843B) = .ok (.sproj 4 16, []) ∧
    decode (toBytes 4 0x0812063B) = .ok (.sload 1 16 24, []) ∧ decode (toBytes 4 0x10C305BB) = .ok (.sblend 12 24 22, []) ∧
    decode (toBytes 4 0x3860A23B) = .ok (.skey 6 5 8, []) ∧ decode (toBytes 4 0x01414A3D) = .ok (.ocomp 1 10 40, []) ∧
    decode (toBytes 4 0x00714A3D) = .ok (.cfail 10 40, []) ∧ decode (toBytes 4 0x02EF853D) = .ok (.tcsnap 2 20, []) ∧
    decode (toBytes 4 0x01FF9F3D) = .ok (.tflush 1, []) :=
  ⟨rfl, rfl, rfl, rfl, rfl, rfl, rfl, rfl, rfl, rfl, rfl, rfl, rfl, rfl, rfl, rfl, rfl, rfl, rfl, rfl, rfl⟩

/-- Words of the fixer program of chapter 14. -/
theorem test_decode_fixer : decodeFixer 0x104C0000 = some (.sld 2 12 0) ∧ decodeFixer 0x37220040 = some (.fbc 25 2 1) ∧
    decodeFixer 0x28081800 = some (.fld 0 8 3 0) ∧ decodeFixer 0x4D885340 = some (.fdq 12 8 10 13 0) ∧
    decodeFixer 0x42992032 = some (.fopMul 20 25 4 3) ∧ decodeFixer 0x41986536 = some (.fopFma 12 24 12 20 3) ∧
    decodeFixer 0x42900038 = some (.fopSqrt 20 16 3) ∧ decodeFixer 0x401CA037 = some (.fopFnma 0 28 20 0 3) ∧
    decodeFixer 0x51305341 = some (.frq 9 16 10 13 1) ∧ decodeFixer 0x4A800380 = some (.fcvt 20 0 14) ∧
    decodeFixer 0x2D0A1000 = some (.fst 8 10 2 0) ∧ decodeFixer 0x20000000 = some .stepend ∧ decodeFixer 0x24000000 = some .fend :=
  ⟨rfl, rfl, rfl, rfl, rfl, rfl, rfl, rfl, rfl, rfl, rfl, rfl, rfl⟩

/-- Major 31 has no word; a reserved bit that is set makes a word reserved. -/
theorem test_decode_rejects : decode (toBytes 4 0x3F) = .error (.unassigned 0x3F) ∧ decode (toBytes 4 0x14000039) = .error (.reserved 0x14000039) :=
  ⟨rfl, rfl⟩

/-- The round trips are about these, among others. -/
theorem test_round_trips : (Instr.fmac16 0 9 3).bytes = 2 ∧ (Instr.stB32 0 3 1 2 5).bytes = 4 ∧ (Instr.stB32 0 3 1 2 5).isFixer = false ∧
    (Instr.stB32 0 3 1 2 5).wf = true ∧ (Instr.fld 0 8 3 0).isFixer = true ∧ (Instr.fld 0 8 3 0).wf = true := by decide

/-! ### Well-formedness: one ill-formed term for each check -/

theorem test_ill_formed : ([.iadd 0 5 127 4, .iadd 0 127 5 4, .iadd 0 5 4 116, .mvk 0 120, .stB128 0 0 0 2 124, .afree 116, .ceq 0 4 5 0,
    .plop 8 1 2 0, .fence 2 5, .ldB32 0 0 3 2 4, .ldB32 0 5 0 2 4, .stB32 0 0 3 2 4, .stB32 0 5 0 2 4, .atomAdd 2 0 0 2 4, .atomAdd 0 5 2 2 4,
    .atomXchg 3 0 0 2 4, .atomLd 0 0 2 2 4, .redAdd 2 0 0 2 4, .redFadd 0 5 0 2 4, .setwb 8, .setwb 1024, .loop 0 2 0, .loop 1 2 3,
    .loopi 0 2 0, .lbrk 3, .cpl 3 0 4, .cpt 0 116, .kemit 116 4, .aalloc 0 3 4, .sli 16 0, .fld 25 0 7 0, .fld 0 0 8 0,
    .fopAdd 24 0 0 1, .fopAdd 0 23 0 1, .wbld 31 0 0, .wbld 0 31 1] : List Instr).all (fun i => !i.wf) = true := by decide

/-! ### Steps (witnesses of StepRunsDecoded, StepTrapsUndecoded, StepRunsFixerWord, StepTakesInput, EndCheck and the frames) -/

/-- A word of `mvk v10, #0x5678` about to run from reset. -/
def running : State := State.reset.placeReady.placeDensil 0x159E0287

def firstPath : Issue := ⟨0, 0, 0, 0x10000, [⟨false, 0⟩]⟩

/-- The fetch of a placed word. -/
def fetched (s : State) : State × Except (Nat × Nat × Nat) (List Byte) :=
  let p := s.takeChoice.livePath firstPath
  (s.takeChoice.onPath p).fetch p.core p.blk p.pc

/-- Of the step's premises: nothing waits, the path is chosen and has a lane, and no breakpoint stops it. -/
def Ready (s : State) : Prop :=
  s.agenda = [] ∧ s.sel = some (.path firstPath) ∧ (s.takeChoice.livePath firstPath).lanes ≠ [] ∧
    (fetched s).1.breakLanes (s.takeChoice.livePath firstPath) = []

theorem test_step_ready : Ready running := ⟨rfl, rfl, by decide, by decide⟩

theorem test_step_decodes : ∃ s1 bs rest i, fetched running = (s1, .ok bs) ∧ decode bs = .ok (i, rest) :=
  ⟨_, [0x87, 0x02, 0x9E, 0x15], [], .mvk 0x5678 10, rfl, rfl⟩

/-- Major 31, a reserved bit, and a page that is absent. -/
theorem test_step_unassigned : let s := State.reset.placeDensil 0x3F
    Ready s ∧ ∃ s1 bs w, fetched s = (s1, .ok bs) ∧ decode bs = .error (.unassigned w) :=
  ⟨⟨rfl, rfl, by decide, by decide⟩, _, [0x3F, 0, 0, 0], 0x3F, rfl, rfl⟩

theorem test_step_reserved : let s := State.reset.placeDensil 0x14000039
    Ready s ∧ ∃ s1 bs w, fetched s = (s1, .ok bs) ∧ decode bs = .error (.reserved w) :=
  ⟨⟨rfl, rfl, by decide, by decide⟩, _, [0x39, 0, 0, 0x14], 0x14000039, rfl, rfl⟩

/-- tflush #1 with the field of b0 in place of 124 (19 R437). -/
theorem test_step_descriptor : let s := State.reset.placeDensil 0x01FF9D3D
    Ready s ∧ ∃ s1 bs w, fetched s = (s1, .ok bs) ∧ decode bs = .error (.descriptor w) :=
  ⟨⟨rfl, rfl, by decide, by decide⟩, _, [0x3D, 0x9D, 0xFF, 0x01], 0x01FF9D3D, rfl, rfl⟩

theorem test_step_fetch_fault : let s := { running with cores := [(0, { blocks := [(0, placeBlock)] })] }
    Ready s ∧ ∃ s1 e, fetched s = (s1, .error e) :=
  ⟨⟨rfl, rfl, by decide, by decide⟩, _, (9, 4, 0x10000), rfl⟩

/-- `stepend`, an unassigned opcode and a reserved field, each about to run on a fixer. -/
def fixerWord (w : Nat) : State := State.reset.placeFixer w

def fxFetched (s : State) : State × Option Nat := ((s.dropChoice.onInst 1 0).servedKernel placeKernel).fxFetch placeKernel placeAt

theorem test_step_fixer : (fixerWord 0x20000000).agenda = [] ∧ (fixerWord 0x20000000).sel = some (.fixer 1 0) ∧
    sget (fixerWord 0x20000000).kernels 1 = some placeKernel ∧ sget placeKernel.insts 0 = some (freshInst placeKernel 0) ∧
    (fxFetched (fixerWord 0x20000000)).2 = some 0x20000000 ∧ decodeFixer 0x20000000 = some .stepend := ⟨rfl, rfl, rfl, rfl, rfl, rfl⟩

theorem test_step_fixer_unassigned : (fxFetched (fixerWord 0xFFFFFFFF)).2 = some 0xFFFFFFFF ∧ decodeFixer 0xFFFFFFFF = none ∧
    fixerUnassigned 0xFFFFFFFF = true := ⟨rfl, rfl, rfl⟩

theorem test_step_fixer_reserved : (fxFetched (fixerWord 0x20000001)).2 = some 0x20000001 ∧ decodeFixer 0x20000001 = none ∧
    fixerUnassigned 0x20000001 = false := ⟨rfl, rfl, rfl⟩

theorem test_step_input : ({ State.reset with agenda := [.powerUp] } : State).agenda = .powerUp :: [] := rfl

/-- An outcome that is a next state. -/
def goesOn (x : Host.Outcome State Fault Refusal) : Bool :=
  match x with
  | .next _ => true
  | _ => false

theorem of_goesOn {x : Host.Outcome State Fault Refusal} (h : goesOn x = true) : ∃ u, x = .next u := by
  cases x with
  | next u => exact ⟨u, rfl⟩
  | _ => cases h

/-- A step answers from a state whose memory is canonical (MemoryKept). -/
theorem test_memory_kept : running.MemOk ∧ ∃ t, Machine.step running = .next t := ⟨by unfold State.MemOk; decide, of_goesOn (by decide)⟩

/-- The frames' instructions answer (LanesOnlyFrame, SoloFrame, LoadFrame, StoreFrame, FixerFrame, LoadDelivers). -/
theorem test_frames_answer : (∃ u, exec (.iadd 0 4 2 6) pair = .next u) ∧ (∃ u, exec (.mvk 3 6) pair = .next u) ∧
    (∃ u, exec (.shflXor 0 4 2 6) pair = .next u) ∧ (∃ u, exec (.jmpi 0 2) at2 = .next u) ∧ (∃ u, exec (.ldB32 0 0 0 2 4) at2 = .next u) ∧
    (∃ u, exec (.stB32 0 0 0 2 4) at2 = .next u) ∧ (∃ u, exec (.saluAdd 4 1 2) fixing = .next u) ∧ ∃ u, exec (.loadDataReturn 7) busy = .next u :=
  ⟨of_goesOn (by decide), of_goesOn (by decide), of_goesOn (by decide), of_goesOn (by decide), of_goesOn (by decide),
   of_goesOn (by decide), of_goesOn (by decide), of_goesOn (by decide)⟩

theorem test_solo_frame : threadOnly (.jmpi 0 2) = true ∧ soloForm (.jmpi 0 2) = sequencerForm (.jmpi 0 2) := ⟨rfl, rfl⟩

/-! ### Registers, operands, loops, traps (witnesses of BytesReadBack to CommandsWaitForRanges) -/

theorem test_bytes_read_back : (at2.putBytes 0x10 [1, 2, 3, 4]).byteAt 0x13 = 4 ∧ (at2.putBytes 0x10 [1, 2, 3, 4]).byteAt 0x14 = 0 ∧
    (at2.putBytes stageBase [9]).byteAt stageBase = 9 := by decide

/-- Each kind of operand field, at the ends of its range; x1 is 5, a latch 8 and the window base 16. -/
def fields : Thread := { thread [(16, 1), (127, 2), (5, 3)] with wb := 16, xs := [0, 5, 0, 0], latches := [8], idx := 9 }

theorem test_operand_fields : fields.val 0 = 1 ∧ fields.val 111 = 2 ∧ fields.val 113 = 3 ∧ fields.val 116 = 8 ∧ fields.val 124 = 0 ∧
    fields.val 125 = 9 ∧ fields.val 126 = 0xFFFFFFFF ∧ check fields [.src 127] = some (.trap 3 1 0 0) ∧
    check fields [.dst 116] = some (.trap 3 2 0 0) ∧ check fields [.dst 115] = none := by decide

theorem test_pair_operands : fields.val64 126 = 0xFFFFFFFFFFFFFFFF ∧ check fields [.src64 1] = some (.trap 3 3 0 0) ∧
    check fields [.src64 113] = some (.trap 3 3 0 0) ∧ fields.val64 0 = 1 ∧ fields.val64 116 = 8 := by decide

/-- An allocation of 48 registers is reached at field 32. -/
theorem test_allocation : let t := { fields with nregs := 48 }
    check t [.src 32] = some (.trap 6 0 0 0) ∧ check t [.src 31] = none ∧ check t [.dst64 32] = some (.trap 6 0 0 0) ∧ check t [.dst64 30] = none := by
  decide

/-- Two levels that end at 0x10004; the inner one, level 1, has one round left, the outer two. -/
def looping : Thread := { thread [] with lc := [2, 1, 0], le := [0x10004, 0x10004, 0], ls := [0x10000, 0xFF00, 0] }

theorem test_end_check : (looping.goSeq 0x10004).lc = [1, 0, 0] ∧ (looping.goSeq 0x10004).pc = 0x10000 ∧ (looping.goSeq 0x10008).pc = 0x10008 ∧
    (looping.goSeq 0x10008).lc = [2, 1, 0] ∧ ({ looping with handler := true }.goSeq 0x10004).lc = [2, 1, 0] := by decide

/-- A launch with a handler, a thread outside and inside it; a launch without one. -/
theorem test_trap_entry : at2.launch? 1 = some launch ∧ launch.rcd.trap ≠ BitVec.allOnes 64 ∧
    at2.block? 0 0 = some { placeBlock with threads := [(0, thread2)] } ∧ at2.thr? ⟨0, 0, 0⟩ = some thread2 ∧ thread2.handler = false ∧
    at2.Solo ⟨false, 0⟩ thread2 [] ∧ (withOf fun t => { t with handler := true }).thr? ⟨0, 0, 0⟩ = some { thread [(2, 0x10400)] with handler := true } :=
  ⟨rfl, by decide, rfl, rfl, rfl, solo2 (by decide), rfl⟩

theorem test_trap_handler : ∃ t, exec (.trap 5) at2 = .next t ∧ (t.thr? ⟨0, 0, 0⟩).map (fun v => (v.trcause, v.trpc, v.pc, v.handler)) =
    some (0x520, 0x10004, 0x18000, true) := ⟨_, rfl, by decide⟩

theorem test_trap_halts : let s := withOf fun t => { t with handler := true }
    ∃ t, exec (.trap 5) s = .next t ∧ (t.thr? ⟨0, 0, 0⟩).map (·.halted) = some (some (0x22, 4)) ∧ t.due.length = 1 := ⟨_, rfl, by decide, by decide⟩

/-- A return outside a handler, inside one, and inside one with a halt held. -/
theorem test_trapret_cases : (∃ t, exec .trapret at2 = .next t ∧ (t.thr? ⟨0, 0, 0⟩).map (·.trcause) = some 0x1203) ∧
    (∃ t, exec .trapret (withOf fun t => { t with handler := true, trpc := 0x10008 }) = .next t ∧
      (t.thr? ⟨0, 0, 0⟩).map (fun v => (v.pc, v.handler, v.halted)) = some (0x10008, false, none)) ∧
    ∃ t, exec .trapret (withOf fun t => { t with handler := true, haltHeld := true }) = .next t ∧
      (t.thr? ⟨0, 0, 0⟩).map (·.halted) = some (some (0x22, 1)) := ⟨⟨_, rfl, by decide⟩, ⟨_, rfl, by decide⟩, _, rfl, by decide⟩

/-- A thread with no handler and no store outstanding, which exits and is the last of its block. -/
theorem test_no_handler_exit : let s := { at2 with launches := [(1, { launch with rcd := { launch.rcd with trap := BitVec.allOnes 64 } })] }
    (s.exitThread ⟨0, 0, 0⟩).2 = [] ∧ ((s.takeTrap ⟨0, 0, 0⟩ 3 1 0 0).block? 0 0).isNone = true ∧ s.Alone ⟨false, 0⟩ thread2 ∧
    s.who ⟨false, 0⟩ = ⟨0, 0, 0⟩ := by
  refine ⟨by decide, by decide, ⟨rfl, rfl⟩, rfl⟩

/-- A thread with no handler and a store outstanding. -/
theorem test_no_handler : let s := { withOf fun t => { t with osc := 1 } with launches := [(1, { launch with rcd := { launch.rcd with trap := BitVec.allOnes 64 } })] }
    (s.thr? ⟨0, 0, 0⟩).map (fun t => (t.osc, t.handler)) = some (1, false) ∧ (s.takeTrap ⟨0, 0, 0⟩ 3 1 0 0).due.length = 1 := by decide

/-- A command that meets no range, and one that meets a range held by an earlier one. -/
def holding : State := { at2 with locks := [⟨1, [(0x10400, 0x10480)], true, false, 9⟩] }

theorem test_commands_wait : let c := { cmd 12 0 [] with locks := [⟨1, [(0x10400, 0x10480)], true, true, 7⟩] }
    holding.lane? ⟨false, 0⟩ = some thread2 ∧ holding.fresh.mustWait c = true ∧ at2.fresh.mustWait c = false := by decide

/-- Two threads that store, sign and run on, one after the other. -/
def storers : State :=
  { withBlock { placeBlock with
      nthreads := 2
      threads := [(0, thread [(2, 0x10400), (4, 7)]), (1, { thread [(2, 0x10404), (4, 8)] with idx := 1, rank := 1 })]
      cvs := [(1, { e := 2 })] } with
    issue := ⟨0, 0, 0, 0x10000, [⟨false, 0⟩, ⟨false, 1⟩]⟩ }

theorem free {s : State} {l : LaneRef} (h : s.loads = [] ∧ s.atomics = []) : s.Free l :=
  ⟨fun x hx => (by rw [h.1] at hx; cases hx), fun a ha => (by rw [h.2] at ha; cases ha)⟩

theorem ready_two {f h : SoloForm} {s : State} {l m : LaneRef} {t u : Thread} (hl : s.lane? l = some t)
    (hm : ((f.at h l).eff s l t).lane? m = some u) (hs : s.loads = [] ∧ s.atomics = [])
    (hs' : ((f.at h l).eff s l t).loads = [] ∧ ((f.at h l).eff s l t).atomics = [])
    (hc : check t (f.at h l).roles = none ∧ check u (f.at h m).roles = none) (hok : (f.at h l).ok s l t)
    (hok' : (f.at h m).ok ((f.at h l).eff s l t) m u) : f.ready h s [l, m] :=
  ⟨t, hl, fun _ => free hs, hc.1, hok, u, hm, fun _ => free hs', hc.2, hok', trivial⟩

theorem test_lanes_in_turn : ∃ f, laneByLane (.cvsign 1) = true ∧ soloForm (.cvsign 1) = some f ∧
    f.ready ((helperForm (.cvsign 1)).getD SoloForm.never) storers storers.issue.lanes :=
  ⟨_, rfl, rfl, ready_two rfl rfl ⟨rfl, rfl⟩ ⟨rfl, rfl⟩ ⟨by decide, by decide⟩ ⟨by decide, rfl⟩ ⟨by decide, rfl⟩⟩

/-- A thread and a helper of its quad. -/
def mixed : State :=
  { withBlock { placeBlock with
      threads := [(0, thread [(2, 0x10400), (4, 7)])]
      helpers := [(1, { thread [(4, 1)] with idx := 1, rank := 1, helper := true })] } with
    issue := ⟨0, 0, 0, 0x10000, [⟨false, 0⟩, ⟨true, 1⟩]⟩ }

theorem test_store_with_helper : ∃ f, laneByLane (.stB32 0 1 0 2 4) = true ∧ soloForm (.stB32 0 1 0 2 4) = some f ∧
    f.ready ((helperForm (.stB32 0 1 0 2 4)).getD SoloForm.never) mixed mixed.issue.lanes :=
  ⟨_, rfl, rfl, ready_two rfl rfl ⟨rfl, rfl⟩ ⟨rfl, rfl⟩ ⟨by decide, by decide⟩
    ⟨by decide, by decide, by decide, of_fine (by decide)⟩ rfl⟩

theorem test_loads_in_turn : ∃ f, loadForm (.ldB32 0 0 0 2 4) = some f ∧ ldWord f.o f.sc = none ∧
    (f.inLane (mixed.sampling f.roles).2).ready f.inHelper (mixed.sampling f.roles).1 mixed.issue.lanes :=
  ⟨_, rfl, by decide, _, rfl, fun _ => free ⟨rfl, rfl⟩, by decide, ⟨by decide, of_fine (by decide)⟩, _, rfl,
    fun h => absurd h (by decide), by decide, trivial, trivial⟩

/-- Two live lanes enter an instruction that acts for both. -/
theorem collected_two {β : Type} {rs : List Role} {hp : Thread → Thread} {en : State → LaneRef → Thread → State → β → Prop}
    {s s1 s2 : State} {l m : LaneRef} {t u : Thread} {x y : β} (hl : s.lane? l = some t) (hm : s1.lane? m = some u)
    (h : l.helper = false ∧ m.helper = false ∧ check t rs = none ∧ check u rs = none) (hf : s.loads = [] ∧ s.atomics = [])
    (hf' : s1.loads = [] ∧ s1.atomics = []) (he : en s l t s1 x) (he' : en s1 m u s2 y) : Collected rs hp en s [l, m] s2 [x, y] :=
  ⟨t, hl, h.2.2.1, .inr ⟨h.1, free hf, s1, x, [y], he, rfl, u, hm, h.2.2.2, .inr ⟨h.2.1, free hf', s2, y, [], he', rfl, rfl, rfl⟩⟩⟩

/-- Two atomics, and two reductions, of one path. -/
theorem test_atomics_together : ∃ f u xs, atomForm (.atomAdd 0 0 0 2 4) = some f ∧ atWord f.op f.ty.toNat f.o.toNat f.sc.toNat = none ∧
    Collected f.roles (·.advance 4) f.entry storers storers.issue.lanes u xs :=
  ⟨_, storers, _, rfl, by decide, collected_two rfl rfl (by decide) ⟨rfl, rfl⟩ ⟨rfl, rfl⟩ ⟨by decide, _, rfl, rfl, rfl⟩
    ⟨by decide, _, rfl, rfl, rfl⟩⟩

theorem test_reductions_together : ∃ f u xs, redForm (.redAdd 0 0 0 2 4) = some f ∧ rdWord f.op f.ty.toNat f.sc.toNat = none ∧
    Collected f.roles (·.advance 4) f.entry storers storers.issue.lanes u xs :=
  ⟨_, storers, _, rfl, by decide, collected_two rfl rfl (by decide) ⟨rfl, rfl⟩ ⟨rfl, rfl⟩ ⟨rfl, by decide, _, rfl, rfl, rfl⟩
    ⟨rfl, by decide, _, rfl, rfl, rfl⟩⟩

/-- Two threads with the same words from register 16 on, and a count in register 4. -/
def alike (ws : List Nat) (c d : Nat) : State :=
  { withBlock { placeBlock with
      nthreads := 2
      threads := [(0, thread ((4, BitVec.ofNat 32 c) :: run16 ws)),
                  (1, { thread ((4, BitVec.ofNat 32 d) :: run16 ws) with idx := 1, rank := 1 })]
      regions := [⟨1, 1, .block, 0, []⟩] } with
    issue := ⟨0, 0, 0, 0x10000, [⟨false, 0⟩, ⟨false, 1⟩]⟩ }

def copies : State := alike [0x10400, 0, 0x10800, 0] 0 0

theorem test_cpl_together : ∃ u xs, Collected [] (·.advance 4) (copyEntry 0 3 16) copies copies.issue.lanes u xs :=
  ⟨_, _, collected_two rfl rfl (by decide) ⟨rfl, rfl⟩ ⟨rfl, rfl⟩ ⟨rfl, by decide, by decide, rfl, rfl⟩ ⟨rfl, by decide, by decide, rfl, rfl⟩⟩

def emits : State := put (alike [0x10400, 0, 1, 2, 3] 0 0) keyHeader

theorem test_kemit_together : ∃ u xs, Collected [.dst64 6, .src64 16, .rw 16 5] (fun t => (t.setVal64 6 (BitVec.allOnes 64)).advance 4)
    (emitEntry 16) emits emits.issue.lanes u xs :=
  ⟨_, _, collected_two rfl rfl (by decide) ⟨rfl, rfl⟩ ⟨rfl, rfl⟩ ⟨rfl, rfl, rfl⟩ ⟨rfl, rfl, rfl⟩⟩

theorem each_two {s : State} {l m : LaneRef} {t u : Thread} {p : Thread → Prop} (hs : s.issue.lanes = [l, m]) (hn : l ≠ m)
    (hl : s.lane? l = some t) (hm : s.lane? m = some u) (ht : p t) (hu : p u) : s.EachLane p := by
  refine ⟨by rw [hs]; simp [hn], fun x hx => ?_⟩
  rw [hs] at hx
  simp only [List.mem_cons, List.not_mem_nil, or_false] at hx
  rcases hx with rfl | rfl
  · exact ⟨t, hl, ht⟩
  · exact ⟨u, hm, hu⟩

theorem test_expect_together : let s := alike [] 64 32
    s.Quiet ∧ s.EachLane (fun t => check t [.src 4] = none) ∧ s.liveLanes ≠ [] ∧ (s.block? 0 0).isSome = true :=
  ⟨⟨rfl, rfl⟩, each_two rfl (by decide) rfl rfl (by decide) (by decide), by decide, rfl⟩

/-- Two lanes that take a region, and two that name different regions. -/
theorem test_group_agrees : ∃ f t, groupForm (.aacq 4) = some f ∧ f.word ∧ (alike [] 1 1).Quiet ∧
    (alike [] 1 1).EachLane (fun u => check u f.roles = none ∧ u.atAnchor = false ∧ f.enters u) ∧
    (⟨false, 0⟩, t) ∈ (alike [] 1 1).group ∧ (∀ p ∈ (alike [] 1 1).group, p.1.helper = false → f.same t p.2) ∧
    f.ok (alike [] 1 1) t (alike [] 1 1).group :=
  ⟨_, thread [(4, 1)], rfl, rfl, ⟨rfl, rfl⟩, each_two rfl (by decide) rfl rfl ⟨by decide, rfl, trivial⟩ ⟨by decide, rfl, trivial⟩,
    .head _, fun p hp _ => by
      have : p.2.val 4 = 1 := by revert p; decide
      exact this.symm, _, _, rfl, rfl, trivial⟩

theorem test_group_disagrees : ∃ f t v, groupForm (.aacq 4) = some f ∧ f.word ∧ (alike [] 1 2).Quiet ∧
    (alike [] 1 2).EachLane (fun u => checkEntry u f.roles = none ∧ u.atAnchor = false ∧ f.enters u) ∧
    (alike [] 1 2).lane? ⟨false, 0⟩ = some t ∧ (alike [] 1 2).lane? ⟨false, 1⟩ = some v ∧ ¬f.same t v :=
  ⟨_, _, _, rfl, rfl, ⟨rfl, rfl⟩, each_two rfl (by decide) rfl rfl ⟨by decide, rfl, trivial⟩ ⟨by decide, rfl, trivial⟩, rfl, rfl,
    show ¬_ = _ by decide⟩

/-- Two lanes with different targets and different return addresses (BranchDisagreementTraps). -/
def parting : State :=
  { withBlock { placeBlock with
      nthreads := 2
      threads := [(0, { thread [(2, 0x10400)] with rsd := 1, ret := [0x10004] }),
                  (1, { thread [(2, 0x10500)] with idx := 1, rank := 1, rsd := 1, ret := [0x10008] })] } with
    issue := ⟨0, 0, 0, 0x10000, [⟨false, 0⟩, ⟨false, 1⟩]⟩ }

theorem test_transfers_disagree : ∃ t v, parting.lane? ⟨false, 0⟩ = some t ∧ parting.lane? ⟨false, 1⟩ = some v ∧ parting.Quiet ∧
    parting.EachLane (fun u => check u [.src64 2] = none) ∧ parting.EachLane (fun u => u.rsd ≠ 0) ∧
    (∀ x ∈ parting.liveLanes, 0 ≤ x.idx) ∧ t.val64 2 ≠ v.val64 2 ∧ nth t.ret 0 0 ≠ nth v.ret 0 0 :=
  ⟨_, _, rfl, rfl, ⟨rfl, rfl⟩, each_two rfl (by decide) rfl rfl (by decide) (by decide),
    each_two rfl (by decide) rfl rfl (by decide) (by decide), fun _ _ => Nat.zero_le _, by decide, by decide⟩

/-- A helper of group 0 that is the path's one lane, with registers. -/
def helpWith (f : Thread → Thread) : State :=
  { withBlock { placeBlock with threads := [(0, thread [])], helpers := [(1, { f (thread []) with idx := 1, rank := 1, helper := true })] } with
    issue := ⟨0, 0, 0, 0x10000, [⟨true, 1⟩]⟩ }

def helping : State := helpWith id

/-- A helper lane meets the conditions of its table. -/
def Helps (i : Instr) (s : State) : Prop :=
  ∃ f l t, helperForm i = some f ∧ s.Alone l t ∧ l.helper = true ∧ check t f.roles = none ∧ f.ok s l t

theorem helps {i : Instr} {s : State} {f : SoloForm} {t : Thread} (h : helperForm i = some f) (ht : s.lane? ⟨true, 1⟩ = some t)
    (hs : s.issue.lanes = [⟨true, 1⟩]) (hc : check t f.roles = none) (hok : f.ok s ⟨true, 1⟩ t) : Helps i s :=
  ⟨f, _, t, h, ⟨hs, ht⟩, rfl, hc, hok⟩

theorem test_helper_store : Helps (.stB32 0 0 0 2 4) helping := helps rfl rfl rfl (by decide) rfl
theorem test_helper_atomic : Helps (.atomAdd 0 0 0 2 4) helping := helps rfl rfl rfl (by decide) rfl
theorem test_helper_call : Helps (.calli 0 2) helping := helps rfl rfl rfl (by decide) ⟨by decide, by decide⟩
theorem test_helper_ret : Helps (.ret 1) (helpWith fun t => { t with rsd := 5, ret := [1, 2, 3, 4] }) :=
  helps rfl rfl rfl (by decide) (by decide)
theorem test_helper_sets : Helps (.sets 0x0A0 2) helping := helps rfl rfl rfl (by decide) (by decide)
theorem test_helper_command : Helps (.cpt 3 16) helping := helps rfl rfl rfl (by decide) rfl
theorem test_helper_wait : Helps (.wany 0 6 4) helping := helps rfl rfl rfl (by decide) ⟨by decide, rfl, rfl⟩
theorem test_helper_sort : Helps (.ksort 3 4 16) (helpWith fun t => { t with regs := run16 (keySort 0x180 0) }) :=
  helps rfl rfl rfl (by decide) ⟨rfl, rfl, rfl, rfl⟩
theorem test_helper_launch : Helps (.launch 6 16) helping := helps rfl rfl rfl (by decide) ⟨rfl, rfl, no_tag⟩
theorem test_helper_splat : Helps (.sgrad 4 16 32) helping := helps rfl rfl rfl (by decide) ⟨rfl, rfl, rfl, by decide⟩
theorem test_helper_seed : Helps (.seed 0 7 4 6) helping := helps rfl rfl rfl (by decide) ⟨rfl, rfl⟩
theorem test_helper_load : ∃ t, helping.Alone ⟨true, 1⟩ t ∧ ldWord 0 0 = none ∧ check t [.dst 4, .src64 2] = none :=
  ⟨_, ⟨rfl, rfl⟩, rfl, by decide⟩

/-! ### Registers of the package (witnesses of WindowWriteActs, GuardedAccessesIgnored) -/

theorem test_window_write : at2.darkWindow traceBase = false ∧ at2.reachable traceBase = true ∧ ∃ t, exec (writeOf traceBase 1) at2 = .next t :=
  ⟨by decide, by decide, of_goesOn (by decide)⟩

/-- The registers of the management window before bring-up has passed any stage, and after it has passed all. -/
theorem test_window_management : State.reset.bstate < 8 ∧ State.reset.winBit (mgmtBase + 0x018) 0 = false ∧ at2.passed 7 = true ∧
    at2.reachable (mgmtBase + 0x024) = true ∧ State.reset.takes (mgmtBase + 0x024) 3000 = true ∧
    ∃ t, exec (.pkidWrite 5 true) State.reset = .next t := ⟨by decide, by decide, by decide, by decide, by decide, of_goesOn (by decide)⟩

/-- A unit that an S8 does not have, a dark window, a late stage and a queue table in use. -/
theorem test_guarded : at2.reachable (unitBase 40) = false ∧ at2.darkWindow (unitBase 40) = false ∧ State.reset.darkWindow traceBase = true ∧
    5 ≤ at2.bstate ∧ (at2.setWin (mgmtBase + 0x018) 1).winBit (mgmtBase + 0x018) 0 = true ∧ 2048 ≤ (2048#32).toNat ∧
    State.reset.passed 7 = false := by decide

/-! ### Worked examples of the spec -/

/-- 05: the reciprocal square root of 4, a comparison with NaN, a pair sum. -/
theorem test_rsq : ((withRegs [(9, 0x40800000)]).lane? ⟨false, 0⟩).isSome = true ∧
    (∃ f, latchForm (.rsq 0 9 8) = some f ∧ (f.op (thread [(9, 0x40800000)])).1 = 0x3F000000) := ⟨by decide, _, rfl, by decide⟩
theorem test_clt_nan : ∃ f, latchForm (.clt 2 4 2 3) = some f ∧ f.op (thread [(2, 0x7FC00000)]) = (0, 0x100) := ⟨_, rfl, by decide⟩
theorem test_mvkh : ∃ f, plainForm (.mvkh 0x48D1 10) = some f ∧ (f.eff (thread [(10, 0x5678)])).reg 10 = 0x12345678 := ⟨_, rfl, by decide⟩

/-- 05 R104, R99: a signed field and a pair sum. -/
theorem test_bfx : ∃ f, latchForm (.bfxS32 0 4 3 2) = some f ∧ lo32 (f.op (thread [(3, 0xF80), (4, 0x804)])).1 = 0xFFFFFFF8 := ⟨_, rfl, by decide⟩
theorem test_iaddB64 : ∃ f, latchForm (.iaddB64 0 10 8 6) = some f ∧
    (f.op (thread [(8, 0xFFFFFFFF), (9, 1), (10, 1)])).1 = 0x200000000 := ⟨_, rfl, by decide⟩

/-- 16 R387: a key of tile 1 at depth 2. -/
theorem test_skey_value : ∃ f : SoloForm, splatForm (.skey 6 5 8) = some f ∧
    ((f.eff (withRegs [(5, 1), (6, 0x40000000)]) ⟨false, 0⟩ (thread [(5, 1), (6, 0x40000000)])).lane? ⟨false, 0⟩).map
      (fun t => (t.reg 8, t.reg 9)) = some (0, 0x140) := ⟨_, rfl, by decide⟩

/-- 05 R111: one rounding. -/
theorem test_fma_once : ∃ f, latchForm (.fmaF32 0 0 1 12 11 10) = some f ∧
    f.op (thread [(11, 0x3F800001), (12, 0x3F7FFFFE), (10, 0xBF800000)]) = (0xA8800000, 0) := ⟨_, rfl, by decide⟩

end Sys2Proof.Tests
end

section
/-! PROOFS. The instructions of latchForm, plainForm and exchForm are each one shared operation over the lanes of the path (04
R80, R95; 05 R96; 08 R194), and that operation changes the threads of those lanes alone. -/

namespace Sys2Proof.Machine

open Sys2Proof

/-! ### Latching instructions -/

/-- Each instruction of the table is a latching operation with the operands and the function that the table gives. -/
theorem exec_eq_latchOp {i : Instr} {f : LatchForm} (s : State) (h : latchForm i = some f) :
    exec i s = latchOp f.len f.dst f.n f.srcs f.op s := by
  cases i <;> cases h <;> rfl

theorem exec_of_latchForm {i : Instr} {f : LatchForm} {s : State} (h : latchForm i = some f) (hq : s.Quiet)
    (he : s.EachLane fun t => Passes t (f.dst.role :: f.srcs)) :
    exec i s = .next (s.eachLane fun t => t.finish f.len f.dst f.n (readsLatch f.srcs) (f.op t).1 (f.op t).2) := by
  rw [exec_eq_latchOp s h]
  exact latchOp_next f.len f.dst f.n f.srcs f.op s hq he.1 he.2

/-! ### Plain instructions -/

theorem setsCheck_window {t : Thread} {w : BitVec 12} (h16 : w.toNat % 16 = 0) (hlt : w.toNat < 1024) (hn : w.toNat < t.nregs) :
    setsCheck t 0x20 (w.zeroExtend 32) = none := by
  have hw : (w.zeroExtend 32).toNat = w.toNat := by simp; omega
  simp [setsCheck, hw, h16, Nat.not_le.2 hlt, Nat.not_le.2 hn]

theorem loopReserved_ok {l : BitVec 2} {o : BitVec 13} (hl : l.toNat ≠ 3) (ho : o ≠ 0) : loopReserved l (o == 0) = .ok () := by
  simpa [loopReserved, hl] using ho

/-- A loop with no reserved field, or on a path of no lane, is a plain operation: its reserved fields stop every lane of the path. -/
theorem execLoop_eq_plainOp (o : BitVec 13) (a : BitVec 7) (l : BitVec 2) (s : State)
    (h : s.issue.lanes = [] ∨ l.toNat ≠ 3 ∧ o ≠ 0) :
    execLoop o a l s = plainOp [.src a] (fun t => .ok (t.startLoop l.toNat (o.zeroExtend 32) (t.val a))) s := by
  unfold execLoop
  rcases h with hnil | ⟨hl, ho⟩
  · split <;> simp [plainOp, State.lanes, State.lanesOf, hnil]
  · rw [loopReserved_ok hl ho]

theorem execLoopi_eq_plainOp (o : BitVec 13) (n : BitVec 7) (l : BitVec 2) (s : State)
    (h : s.issue.lanes = [] ∨ l.toNat ≠ 3 ∧ o ≠ 0) :
    execLoopi o n l s = plainOp [] (fun t => .ok (t.startLoop l.toNat (o.zeroExtend 32) (n.zeroExtend 32))) s := by
  unfold execLoopi
  rcases h with hnil | ⟨hl, ho⟩
  · split <;> simp [plainOp, State.lanes, State.lanesOf, hnil]
  · rw [loopReserved_ok hl ho]

/-- Each instruction of the table is a plain operation whose function gives the table's change wherever the table's condition
holds. A path of no lane meets the condition of every instruction. -/
theorem exec_eq_plainOp {i : Instr} {f : PlainForm} (s : State) (h : plainForm i = some f)
    (hok : s.issue.lanes = [] ∨ ∃ t, f.ok t = true) :
    ∃ g, (∀ t, f.ok t = true → g t = .ok (f.eff t)) ∧ exec i s = plainOp f.roles g s := by
  cases i with
  | setwb w =>
    cases h
    refine ⟨_, fun t ht => ?_, rfl⟩
    simp only [Bool.and_eq_true, decide_eq_true_eq] at ht
    obtain ⟨⟨h16, hlt⟩, hn⟩ := ht
    rw [setsCheck_window h16 hlt hn]
    simp [Thread.writeSpecial]
  | loop o a l =>
    cases h
    exact ⟨_, fun _ _ => rfl, execLoop_eq_plainOp o a l s (hok.imp_right fun ⟨_, ht⟩ => by simpa using ht)⟩
  | loopi o n l =>
    cases h
    exact ⟨_, fun _ _ => rfl, execLoopi_eq_plainOp o n l s (hok.imp_right fun ⟨_, ht⟩ => by simpa using ht)⟩
  | lbrk l | lcont l =>
    cases h
    refine ⟨_, fun t ht => ?_, rfl⟩
    simp only [Bool.and_eq_true, decide_eq_true_eq] at ht
    exact (if_neg ht.1).trans (if_neg ht.2)
  | _ => cases h <;> exact ⟨_, fun _ _ => rfl, rfl⟩

theorem exec_of_plainForm {i : Instr} {f : PlainForm} {s : State} (h : plainForm i = some f) (hq : s.Quiet)
    (he : s.EachLane fun t => check t f.roles = none ∧ f.ok t = true) : exec i s = .next (s.eachLane f.eff) := by
  obtain ⟨hn, hp⟩ := he
  have hok : s.issue.lanes = [] ∨ ∃ t, f.ok t = true := or_iff_not_imp_left.2 fun hne =>
    have ⟨l, hl⟩ := List.exists_mem_of_ne_nil _ hne
    (hp l hl).imp fun _ ht => ht.2.2
  obtain ⟨g, hg, hx⟩ := exec_eq_plainOp s h hok
  rw [hx]
  exact plainOp_next f.roles g f.eff s hq hn fun l hl => (hp l hl).imp fun t ⟨ht, hc, ho⟩ => ⟨ht, hc, hg t ho⟩

/-! ### Exchange instructions -/

theorem takeFrom_ite (ps : List XLane) (p : XLane) (c : Prop) [Decidable c] (r : Nat) :
    takeFrom ps p (if c then some r else none) = if c then fromRank ps p r else p.a := by
  split <;> rfl

theorem word64_bit (c : Prop) [Decidable c] : word64 (if c then 1 else 0) = if c then 1 else 0 := by
  split <;> rfl

/-- A shuffle whose source rank is within the group under a condition: A of that rank, else the lane's own A. -/
theorem shuffle_of_ite (n : BitVec 1) (d a b : BitVec 7) (c : Nat → Nat → Prop) [∀ r x, Decidable (c r x)] (g : Nat → Nat → Nat) :
    shuffle n d a b (fun r x => if c r x then some (g r x) else none) =
      exchange (.r32 d) n [.src a, .src b] (fun t => word64 (t.val a)) (fun t => t.val b)
        fun _ ps p => (if c p.rank p.b.toNat then fromRank ps p (g p.rank p.b.toNat) else p.a, 0) := by
  simp only [shuffle, takeFrom_ite]

/-- A query that asks for a truth value. -/
theorem groupQuery_of_bool (n : BitVec 1) (d a : BitVec 7) (q : List XLane → Bool) :
    groupQuery n d a (fun ps => if q ps then 1 else 0) =
      exchange (.r32 d) n [.src a] (fun t => word64 (t.val a)) (fun _ => 0) fun _ ps _ => (if q ps then 1 else 0, 0) := by
  simp only [groupQuery, word64_bit]

/-- Each instruction of the table is an exchange of the operands and with the result that the table gives. -/
theorem exec_eq_exchange {i : Instr} {f : ExchForm} (s : State) (h : exchForm i = some f) :
    ∃ n, bit1 n = f.n ∧ exec i s = exchange f.dst n f.srcs f.a f.b (f.res s) s := by
  cases i with
  | shflUp n vb a d =>
    cases h
    exact ⟨n, rfl, congrFun (shuffle_of_ite n d a vb (fun r x => x ≤ r) (fun r x => r - x)) s⟩
  | shflDn n vb a d =>
    cases h
    exact ⟨n, rfl, congrFun (shuffle_of_ite n d a vb (fun r x => r + x ≤ 31) (fun r x => r + x)) s⟩
  | gqEvery n a d =>
    cases h
    exact ⟨n, rfl, congrFun (groupQuery_of_bool n d a fun ps => (liveX ps).all fun p => p.a != 0) s⟩
  | gqSome n a d =>
    cases h
    exact ⟨n, rfl, congrFun (groupQuery_of_bool n d a fun ps => (liveX ps).any fun p => p.a != 0) s⟩
  | gqSame n a d =>
    cases h
    exact ⟨n, rfl, congrFun (groupQuery_of_bool n d a fun ps => (liveX ps).all fun p => (liveX ps).all fun q => p.a == q.a) s⟩
  | bflyS64 n k a d =>
    simp only [exchForm, Option.ite_none_right_eq_some, Option.some.injEq] at h
    obtain ⟨hk, rfl⟩ := h
    exact ⟨n, rfl, if_neg (Nat.not_lt.2 hk)⟩
  | _ => cases h <;> exact ⟨_, rfl, rfl⟩

theorem exec_of_exchForm {i : Instr} {f : ExchForm} {s : State} (h : exchForm i = some f) (hq : s.Quiet)
    (he : s.EachLane fun t => check t (f.dst.role :: f.srcs) = none ∧ t.replay = none) : exec i s = .next (s.exchanged f) := by
  obtain ⟨n, hn, hx⟩ := exec_eq_exchange s h
  rw [hx, exchange_next f.dst n f.srcs f.a f.b (f.res s) s hq he.2, hn]
  rfl

/-! ### The frame of a change of lanes -/

theorem LanesOnly.refl (s : State) : LanesOnly s s :=
  ⟨fun _ => rfl, fun _ _ => rfl, fun _ _ _ => rfl, rfl, rfl, rfl, rfl, rfl, rfl, rfl, rfl⟩

/-- Two changes of lanes of one path are a change of its lanes. -/
theorem LanesOnly.trans {s u v : State} (hi : u.issue = s.issue) (h : LanesOnly s u) (h' : LanesOnly u v) : LanesOnly s v where
  memory a := (h'.memory a).trans (h.memory a)
  others l hl := (h'.others l (by rwa [hi])).trans (h.others l hl)
  blocks c b hb := (h'.blocks c b (by rwa [hi])).trans (h.blocks c b hb)
  regs := by
    have hr := h'.regs
    rw [hi] at hr
    exact hr.trans h.regs
  launches := h'.launches.trans h.launches
  windows := h'.windows.trans h.windows
  work := by
    obtain ⟨hl, hs, ha, hr, hc⟩ := h.work
    rw [← hl, ← hs, ← ha, ← hr, ← hc]
    exact h'.work

/-- A thread set in its block leaves the block's own registers. -/
theorem ownRegs_setThread (b : Block) (l : LaneRef) (t : Thread) :
    ((b.setThread l t).cvs, (b.setThread l t).tags, (b.setThread l t).cpflg, (b.setThread l t).mxflg, (b.setThread l t).regions,
      (b.setThread l t).cam) = (b.cvs, b.tags, b.cpflg, b.mxflg, b.regions, b.cam) := by
  unfold Block.setThread
  split <;> rfl

theorem lanesOnly_setLane {s : State} {l : LaneRef} (t : Thread) (hl : l ∈ s.issue.lanes) : LanesOnly s (s.setLane l t) where
  memory a := by simp [State.byteAt]
  others m hm := lane?_setLane_ne s l m t fun e => hm (e ▸ hl)
  blocks c b hb := block?_modBlock_ne s _ _ c b _ hb
  regs := by
    unfold State.setLane
    rw [block?_modBlock_same, Option.map_map]
    exact congrArg (Option.map · _) (funext fun b => ownRegs_setThread b l t)
  launches := setLane_launches s l t
  windows := setLane_win s l t
  work := ⟨setLane_loads s l t, setLane_stores s l t, setLane_atomics s l t, setLane_reds s l t, setLane_cmds s l t⟩

theorem lanesOnly_modLane {s : State} {l : LaneRef} (f : Thread → Thread) (hl : l ∈ s.issue.lanes) : LanesOnly s (s.modLane l f) := by
  unfold State.modLane
  split
  · exact lanesOnly_setLane _ hl
  · exact LanesOnly.refl s

/-- Changes of lanes of the path, one after the other, each of its own: a list names the lanes and the changes. -/
theorem lanesOnly_foldl {β : Type} (lane : β → LaneRef) (g : β → Thread → Thread) (xs : List β) (s : State)
    (h : ∀ x ∈ xs, lane x ∈ s.issue.lanes) : LanesOnly s (xs.foldl (fun u x => u.modLane (lane x) (g x)) s) := by
  induction xs generalizing s with
  | nil => exact LanesOnly.refl s
  | cons x xs ih =>
    have hi : (s.modLane (lane x) (g x)).issue = s.issue := by simp
    refine LanesOnly.trans hi (lanesOnly_modLane (g x) (h x (by simp))) (ih _ fun y hy => ?_)
    rw [hi]
    exact h y (by simp [hy])

theorem lanesOnly_eachLane (s : State) (f : Thread → Thread) : LanesOnly s (s.eachLane f) :=
  lanesOnly_foldl id (fun _ => f) s.issue.lanes s fun _ hl => hl

/-- The participants of an exchange are lanes of the path. -/
theorem lane_mem_of_mem_taking {s : State} {a : Thread → Dword} {b : Thread → Word} {p : XLane} (h : p ∈ s.taking a b) :
    p.lane ∈ s.issue.lanes := by
  obtain ⟨l, hl, hp⟩ := List.mem_filterMap.1 h
  obtain ⟨t, -, rfl⟩ := Option.map_eq_some_iff.1 hp
  exact hl

theorem lanesOnly_exchanged (s : State) (f : ExchForm) : LanesOnly s (s.exchanged f) :=
  lanesOnly_foldl XLane.lane _ (s.taking f.a f.b) s fun _ hp => lane_mem_of_mem_taking hp

/-- Settles O19: under the conditions of its completion an instruction of the three tables leaves changes of the lanes of its path,
which have the frame. -/
theorem lanesOnlyFrame : Obligations.LanesOnlyFrame := by
  intro i s u hq hx hform
  rcases hform with ⟨f, hf, he⟩ | ⟨f, hf, he⟩ | ⟨f, hf, he⟩
  · rw [exec_of_latchForm hf hq he] at hx
    cases hx
    exact lanesOnly_eachLane s _
  · rw [exec_of_plainForm hf hq he] at hx
    cases hx
    exact lanesOnly_eachLane s f.eff
  · rw [exec_of_exchForm hf hq he] at hx
    cases hx
    exact lanesOnly_exchanged s f

end Sys2Proof.Machine
end

section
/-! PROOFS. The load-store unit on one live thread (06 R124-R138): an operation over memory, in a lane that passes its checks, meets
its address's checks alone, and then does what the tables say. -/

namespace Sys2Proof.Machine

open Sys2Proof

/-! ### What a lane that passes its checks meets -/

theorem wordCheck_none {c : Option (Nat × Nat)} (h : c = none) (go : State → Out) (s : State) : wordCheck c go s = go s := by
  rw [h]; rfl

/-- A thread with room in its count of outstanding stores is not held. -/
theorem counted_of_room (f : State → LaneRef → Thread → LaneOut) (s : State) (l : LaneRef) {t : Thread} (h : t.full = false) :
    counted f s l t = f s l t := by
  simp [counted, h]

/-- An instruction that accesses memory, in a live lane that passes its checks. -/
theorem memoryOp_solo (roles : List Role) (f : State → LaneRef → Thread → LaneOut) {s : State} {l : LaneRef} {t : Thread}
    (h : s.Solo l t roles) : memoryOp roles f s = .next (endLane l (f s l t)) := by
  unfold memoryOp
  rw [lanes_solo s l t roles _ h]
  simp [h.quiet, h.alone.2, checkEntry_of_check h.passes]

/-- A granted access stays granted where the checks that rank between it and the watchpoints pass at its place. -/
theorem lateAccess_of_watched {s s1 : State} {w : Who} {va n : Nat} {need : Need} {at_ : Bool} {sized : State → Place → Bool} {p : Place}
    {late : Place → Option Stop} (h : s.watchedAccess w va n need at_ sized = (s1, .ok p)) (hl : late p = none) :
    s.lateAccess w va n need at_ sized late = (s1, .ok p) := by
  unfold State.watchedAccess State.lateAccess at h
  unfold State.lateAccess
  cases hacc : s.access w va n need at_ sized with
  | mk s2 r =>
    rw [hacc] at h
    cases r with
    | error e => cases h
    | ok p2 =>
      dsimp only at h ⊢
      cases hwatch : s2.watch w va n need.writes at_ with
      | mk s3 stop =>
        rw [hwatch] at h
        cases stop with
        | some e => cases h
        | none =>
          obtain ⟨rfl, ⟨⟩⟩ := Prod.mk.inj h
          rw [hl]

/-- An access that is granted leaves a state and a place, and what follows it starts there. -/
theorem State.Grants.exists_place {s : State} {l : LaneRef} {va n : Nat} {need : Need} {at_ : Bool} {sized : State → Place → Bool}
    (h : s.Grants l va n need at_ sized) : ∃ s1 p, s.watchedAccess (s.who l) va n need at_ sized = (s1, .ok p) ∧
      ∀ k, s.granted l va n need at_ sized k = k s1 p := by
  obtain ⟨p, hp⟩ := h
  refine ⟨(s.watchedAccess (s.who l) va n need at_ sized).1, p, Prod.ext rfl hp, fun k => ?_⟩
  unfold State.granted
  split
  · rename_i s1 p1 e
    rw [e] at hp ⊢
    cases hp
    rfl
  · rename_i s1 e1 e
    rw [e] at hp
    cases hp

/-! ### Stores -/

@[simp] theorem leOf_length (n v : Nat) : (leOf n v).length = n := by simp [leOf]

/-- A store's data has the bytes that its form says. -/
theorem storeData_length (t : Thread) (v : BitVec 7) (n : Nat) : (storeData t v n).length = n := by
  unfold storeData
  split
  · subst n
    rfl
  · split <;> simp [*]

/-- A store of a live lane to an aligned address that is granted. -/
theorem storeLane_granted {s s1 : State} {l : LaneRef} {va : Nat} {bs : List Byte} {p : Place} (o sc : Nat) (hl : l.helper = false)
    (ha : va % bs.length = 0) (hw : s.watchedAccess (s.who l) va bs.length .w false (if bs.length = 128 then unsized else sizedAt sc) = (s1, .ok p)) :
    s.storeLane va bs o sc none l = ((s1.storeAs (s.who l) p bs o sc).advanceLane l, none) := by
  unfold State.storeLane
  dsimp only
  rw [hl, if_neg Bool.false_ne_true, if_neg (not_not_intro ha), lateAccess_of_watched hw rfl]

/-- A store on a path of one live thread, under the conditions of the table. -/
theorem storeOp_solo {n : Nat} {q : BitVec 4} {sc : BitVec 3} {o : BitVec 2} {a v : BitVec 7} {s : State} {l : LaneRef} {t : Thread}
    (hn : n ≠ 128) (h : s.Solo l t (memoryForm.storing n q sc o a v).roles) (hok : (memoryForm.storing n q sc o a v).ok s l t) :
    storeOp n q sc o a v s = .next ((memoryForm.storing n q sc o a v).eff s l t) := by
  obtain ⟨hword, hroom, halign, hgrant⟩ := hok
  obtain ⟨s1, p, hw, hk⟩ := hgrant.exists_place
  have hsolo : s.Solo l t [storeRole v n, .src64 a] := h
  have hlen := storeData_length t v n
  unfold storeOp
  rw [wordCheck_none hword, memoryOp_solo _ _ hsolo, counted_of_room _ _ _ hroom, poisonOf_of_check hsolo.passes,
    storeLane_granted o.toNat sc.toNat h.live (hlen.symm ▸ halign) (by rw [hlen, if_neg hn]; exact hw)]
  simp only [memoryForm.storing, hk, endLane]

/-- `zline`: the store of a line of zeros, then the size records of the line are cleared. -/
theorem execZline_solo {q : BitVec 4} {sc : BitVec 3} {o : BitVec 1} {a : BitVec 7} {f : SoloForm} {s : State} {l : LaneRef} {t : Thread}
    (hf : memoryForm (.zline q sc o a) = some f) (h : s.Solo l t f.roles) (hok : f.ok s l t) :
    execZline q sc o a s = .next (f.eff s l t) := by
  cases hf
  obtain ⟨hword, hroom, halign, hgrant⟩ := hok
  obtain ⟨s1, p, hw, hk⟩ := hgrant.exists_place
  have hst : s.storeLane (lsuAddr t a q 128) (List.replicate 128 0) o.toNat sc.toNat none l =
      ((s1.storeAs (s.who l) p (List.replicate 128 0) o.toNat sc.toNat).advanceLane l, none) := by
    refine storeLane_granted _ _ h.live ?_ ?_ <;> rw [List.length_replicate]
    · exact halign
    · exact hw
  unfold execZline
  rw [wordCheck_none hword, memoryOp_solo _ _ h, counted_of_room _ _ _ hroom, poisonOf_of_check h.passes]
  dsimp only
  rw [hst, hk]
  simp only [h.live, Bool.false_eq_true, if_false]
  generalize (s1.storeAs (s.who l) p (List.replicate 128 0) o.toNat sc.toNat).advanceLane l = s2
  rcases s2.translate (s2.ctxOf s2.issue.core s2.issue.blk) (lsuAddr t a q 128) .w with ⟨s3, e | p'⟩
  · rfl
  · rfl

/-! ### Lines, fences and counts -/

/-- An access that passes its checks, with the state after it. -/
theorem access_ok {s : State} {w : Who} {va n : Nat} {need : Need} {at_ : Bool} {sized : State → Place → Bool}
    (h : ∃ p, (s.access w va n need at_ sized).2 = .ok p) : ∃ s1 p, s.access w va n need at_ sized = (s1, .ok p) := by
  obtain ⟨p, hp⟩ := h
  exact ⟨(s.access w va n need at_ sized).1, p, Prod.ext rfl hp⟩

theorem cleanLine_solo {drop : Bool} {q : BitVec 4} {a : BitVec 7} {s : State} {l : LaneRef} {t : Thread}
    (h : s.Solo l t (memoryForm.cleaning drop q a).roles) (hok : (memoryForm.cleaning drop q a).ok s l t) :
    cleanLine drop q a s = .next ((memoryForm.cleaning drop q a).eff s l t) := by
  obtain ⟨hroom, hacc⟩ := hok
  obtain ⟨s1, p, hacc⟩ := access_ok hacc
  have hsolo : s.Solo l t [.src64 a] := h
  unfold cleanLine
  rw [memoryOp_solo _ _ hsolo, counted_of_room _ _ _ hroom, poisonOf_of_check hsolo.passes]
  unfold memoryForm.cleaning
  simp only [h.live, Bool.false_eq_true, if_false, hacc, endLane]
  rfl

theorem execPrf_solo {q : BitVec 4} {a : BitVec 7} {f : SoloForm} {s : State} {l : LaneRef} {t : Thread}
    (hf : memoryForm (.prf q a) = some f) (h : s.Solo l t f.roles) : execPrf q a s = .next (f.eff s l t) := by
  cases hf
  unfold execPrf
  rw [stateOp_solo _ _ s l t h]
  simp only [h.live, Bool.false_eq_true, if_false]
  rcases s.access (s.who l) (lineStart (lsuAddr t a q 128)) 128 .r false unsized with ⟨s1, e | p⟩
  · rfl
  · rfl

theorem execFence_solo {r : BitVec 2} {sc : BitVec 3} {f : SoloForm} {s : State} {l : LaneRef} {t : Thread}
    (hf : memoryForm (.fence r sc) = some f) (h : s.Solo l t f.roles) (hok : f.ok s l t) : execFence r sc s = .next (f.eff s l t) := by
  cases hf
  unfold execFence
  rw [wordCheck_none (if_neg (Nat.not_lt.2 hok)), stateOp_solo _ _ s l t h]
  simp only [h.live, Bool.false_eq_true, if_false]
  rfl

theorem execRcflush_solo {k : BitVec 12} {a : BitVec 7} {f : SoloForm} {s : State} {l : LaneRef} {t : Thread}
    (hf : memoryForm (.rcflush k a) = some f) (h : s.Solo l t f.roles) (hok : f.ok s l t) : execRcflush k a s = .next (f.eff s l t) := by
  cases hf
  obtain ⟨hroom, ls, hls⟩ := hok
  have hfl : memoryForm.flushed s t k a = ((memoryForm.flushed s t k a).1, .ok ls) := Prod.ext rfl hls
  have hfl' := hfl
  unfold memoryForm.flushed at hfl'
  unfold execRcflush
  rw [stateOp_solo _ _ s l t h, counted_of_room _ _ _ hroom]
  simp only [h.live, Bool.false_eq_true, if_false, State.who]
  rw [hfl]
  rw [hfl']
  rfl

/-- Settles O21: each instruction of the table is a store, or is completed by its own lemma above. -/
theorem memoryOpsComplete : Obligations.MemoryOpsComplete := by
  intro i f s l t hf h hok
  cases i with
  | prf q a => exact execPrf_solo hf h
  | stB8 q sc o a v | stB16 q sc o a v | stB32 q sc o a v | stB64 q sc o a v | stB128 q sc o a v =>
    cases hf
    exact storeOp_solo (by decide) h hok
  | zline q sc o a => exact execZline_solo hf h hok
  | cwb q a | cinv q a =>
    cases hf
    exact cleanLine_solo h hok
  | fence r sc => exact execFence_solo hf h hok
  | rcflush k a => exact execRcflush_solo hf h hok
  | _ => cases hf

end Sys2Proof.Machine
end

section
/-! PROOFS. A load on one live thread (06 R124-R131; 19 R440): it fixes its data when it issues, and it leaves memory and threads as
they were; its data then returns. -/

namespace Sys2Proof.Machine

open Sys2Proof

/-! ### The sampling of loads -/

/-- A thread whose mark for sampling is set or cleared. -/
def Thread.marked (t : Thread) (b : Bool) : Thread := { t with tsmp := b }

/-- No operand check looks at the mark. -/
theorem check_marked (t : Thread) (b : Bool) (rs : List Role) : check (t.marked b) rs = check t rs := rfl

/-- A lane is read from the block of the path. -/
theorem lane?_of_block? {s u : State} (hi : u.issue = s.issue) (hb : ∀ c b, u.block? c b = s.block? c b) (l : LaneRef) :
    u.lane? l = s.lane? l := by
  simp [State.lane?, hi, hb]

/-- A core set with the blocks that it had: each block reads as before. -/
theorem block?_setCore {s : State} {c : Nat} {x : Core} (h : x.blocks = (s.coreAt c).blocks) (k b : Nat) :
    (s.setCore c x).block? k b = s.block? k b := by
  unfold State.block?
  by_cases hk : k = c
  · rw [hk, coreAt_setCore_same, h]
  · rw [coreAt_setCore_ne _ _ _ _ hk]

theorem ldLanes_solo {s : State} {l : LaneRef} {t : Thread} {rs : List Role} (h : s.Solo l t rs) : s.ldLanes rs = [l] := by
  simp [State.ldLanes, State.liveLanes, h.alone.1, h.alone.2, h.live, checkEntry_of_check h.passes]

/-- A load counted by the core of the path (19 R440). -/
def State.countedLoad (s : State) : State :=
  s.setCore s.issue.core { s.coreAt s.issue.core with ldCount := (s.coreAt s.issue.core).ldCount + 1 }

@[simp] theorem countedLoad_lane? (s : State) (l : LaneRef) : s.countedLoad.lane? l = s.lane? l :=
  lane?_of_block? (s := s) (u := s.countedLoad) rfl (block?_setCore rfl) l

/-- A load of one live thread counts, and takes the mark of its thread. -/
theorem sampling_state {s : State} {l : LaneRef} {t : Thread} {rs : List Role} (h : s.Solo l t rs) :
    (s.sampling rs).1 = if t.tsmp then s.countedLoad.setLane l (t.marked false) else s.countedLoad := by
  have hl : s.countedLoad.lane? l = some t := (countedLoad_lane? s l).trans h.alone.2
  have hm : s.countedLoad.modLane l (fun t => { t with tsmp := false }) = s.countedLoad.setLane l (t.marked false) :=
    modLane_of_lane _ _ _ _ hl
  unfold State.countedLoad at hl hm ⊢
  unfold State.sampling
  rw [ldLanes_solo h]
  simp [hl, hm]

/-- After the count of a load and the marks, the path is still one of that thread, but for its mark. -/
theorem sampling_solo {s : State} {l : LaneRef} {t : Thread} {rs : List Role} (h : s.Solo l t rs) :
    (s.sampling rs).1.issue = s.issue ∧ ∃ b, (s.sampling rs).1.Solo l (t.marked b) rs := by
  have hl : s.countedLoad.lane? l = some t := (countedLoad_lane? s l).trans h.alone.2
  rw [sampling_state h]
  split
  · refine ⟨by simp [State.countedLoad], false, ⟨?_, ⟨?_, ?_⟩, h.live, h.first, (check_marked t false rs).trans h.passes⟩⟩
    · simpa [State.Quiet, State.countedLoad] using h.quiet
    · simpa [State.countedLoad] using h.alone.1
    · rw [lane?_setLane_same _ _ _ _ hl, h.live]
      rfl
  · exact ⟨rfl, t.tsmp, ⟨h.quiet, ⟨h.alone.1, hl⟩, h.live, h.first, h.passes⟩⟩

/-! ### Completion -/

/-- What a granted load of a thread leaves: the bytes that it finds, widened, on their way to its registers, with the sample that it
may be, and the thread advanced (06 R125, R129). -/
def State.sentLoad (s : State) (f : LoadForm) (smp : Option LaneRef) (w : Who) (l : LaneRef) (t : Thread) (p : Place) : State :=
  let x : Option Sample := if smp = some l then some ⟨f.addr t, s.levelOf w p f.n f.sc.toNat, s.cycle⟩ else none
  let r := s.loadAs w p f.n f.o.toNat f.sc.toNat
  (({ r.1 with loads := r.1.loads ++ [⟨r.1.nextId, w, f.words t r.2.1, ⟨BitVec.ofNat 64 (f.addr t), t.pc⟩, r.2.2, lineOf p.pa, x⟩] } :
    State).fresh).advanceLane l

/-- Each instruction of the table is the load with the operands that the table gives. -/
theorem exec_eq_loadOp {i : Instr} {f : LoadForm} (s : State) (h : loadForm i = some f) :
    exec i s = loadOp f.n f.signed f.q f.sc f.o f.a f.v s := by
  cases i <;> cases h <;> rfl

/-- A load of a live lane to an aligned address that is granted: the bytes that it finds, widened, are on their way. -/
theorem loadLane_granted {f : LoadForm} {s s1 : State} {l : LaneRef} {t : Thread} {p : Place} (smp : Option LaneRef)
    (h : s.Solo l t f.roles) (ha : f.addr t % f.n = 0)
    (hw : s.watchedAccess (s.who l) (f.addr t) f.n .r false (sizedAt f.sc.toNat) = (s1, .ok p)) :
    s.loadLane smp f.n f.signed f.q f.sc.toNat f.o.toNat f.a f.v l t =
      (s1.sentLoad f smp (s.who l) l t p, none) := by
  have hp : poisonOf t [.src64 f.a] = none := (firstSome_none _).2 fun x hx =>
    (firstSome_none _).1 (poisonOf_of_check h.passes) x (List.mem_cons_of_mem _ hx)
  unfold LoadForm.addr at ha hw
  unfold State.loadLane
  rw [hp, h.live]
  dsimp only
  rw [if_neg Bool.false_ne_true, if_neg (not_not_intro ha), lateAccess_of_watched hw rfl]
  rfl

theorem exec_of_loadForm {i : Instr} {f : LoadForm} {s s1 : State} {l : LaneRef} {t : Thread} {p : Place} (hf : loadForm i = some f)
    (hword : ldWord f.o f.sc = none) (h : s.Solo l t f.roles) (ha : f.addr t % f.n = 0)
    (hw : (s.sampling f.roles).1.watchedAccess (s.who l) (f.addr t) f.n .r false (sizedAt f.sc.toNat) = (s1, .ok p)) :
    exec i s = .next (s1.sentLoad f (s.sampling f.roles).2 (s.who l) l t p) := by
  obtain ⟨hi, b, hs⟩ := sampling_solo h
  have hwho : (s.sampling f.roles).1.who l = s.who l := by simp [State.who, hi]
  rw [exec_eq_loadOp s hf]
  unfold loadOp
  rw [wordCheck_none hword]
  refine (memoryOp_solo f.roles _ hs).trans ?_
  rw [loadLane_granted _ hs ha (hwho.symm ▸ hw), hwho]
  rfl

/-- Settles O31: the state that the table names is that in which the load has been sent. -/
theorem loadsComplete : Obligations.LoadsComplete := fun _ _ _ _ _ _ _ hf hword h ha hw => exec_of_loadForm hf hword h ha hw

end Sys2Proof.Machine
end

section
/-! PROOFS. Where nothing is on its way to memory, reading it moves lines among the caches, makes requests and counts, and leaves
every byte and every thread as they were (06 R129, R131, R132). -/

namespace Sys2Proof.Machine

open Sys2Proof

/-! ### What only caches, requests and counts change -/

/-- The parts of the machine, memory, the reducing cache, the windows, the path and the blocks of every core are the same. -/
structure CachesOnly (s u : State) : Prop where
  hw : u.hw = s.hw
  mem : u.mem = s.mem
  stage : u.stage = s.stage
  rdc : u.rdc = s.rdc
  win : u.win = s.win
  issue : u.issue = s.issue
  blocks : ∀ c b, u.block? c b = s.block? c b

theorem CachesOnly.refl (s : State) : CachesOnly s s := ⟨rfl, rfl, rfl, rfl, rfl, rfl, fun _ _ => rfl⟩

theorem CachesOnly.trans {s u v : State} (h : CachesOnly s u) (h' : CachesOnly u v) : CachesOnly s v where
  hw := h'.hw.trans h.hw
  mem := h'.mem.trans h.mem
  stage := h'.stage.trans h.stage
  rdc := h'.rdc.trans h.rdc
  win := h'.win.trans h.win
  issue := h'.issue.trans h.issue
  blocks c b := (h'.blocks c b).trans (h.blocks c b)

theorem CachesOnly.sameMemory {s u : State} (h : CachesOnly s u) : SameMemory s u := fun a => by
  simp [State.byteAt, h.mem, h.stage]

theorem CachesOnly.lane? {s u : State} (h : CachesOnly s u) (l : LaneRef) : u.lane? l = s.lane? l :=
  lane?_of_block? h.issue h.blocks l

theorem CachesOnly.ite {c : Prop} [Decidable c] {s a b : State} (ha : CachesOnly s a) (hb : CachesOnly s b) :
    CachesOnly s (if c then a else b) := by
  split
  · exact ha
  · exact hb

/-- A core set with its blocks. -/
theorem cachesOnly_setCore {s : State} {c : Nat} {x : Core} (h : x.blocks = (s.coreAt c).blocks) : CachesOnly s (s.setCore c x) :=
  ⟨rfl, rfl, rfl, rfl, rfl, rfl, block?_setCore h⟩

theorem cachesOnly_request (s : State) (pa : Nat) : CachesOnly s (s.request pa) where
  hw := request_hw s pa
  mem := request_mem s pa
  stage := request_stage s pa
  rdc := request_rdc s pa
  win := request_win s pa
  issue := request_issue s pa
  blocks c b := by simp [State.block?, State.coreAt]

theorem cachesOnly_enterL2 (s : State) (ln : Nat) : CachesOnly s (s.enterL2 ln) := by
  unfold State.enterL2
  split
  · exact .ite ⟨rfl, rfl, rfl, rfl, rfl, rfl, fun _ _ => rfl⟩ ⟨rfl, rfl, rfl, rfl, rfl, rfl, fun _ _ => rfl⟩
  · exact .refl s

/-! ### Reading where nothing is on its way -/

/-- No store, atomic or reduction is in flight, no line is dirty or in the reducing cache, and no page heat is counted. -/
structure State.AtRest (s : State) : Prop where
  stores : s.stores = []
  atomics : s.atomics = []
  reds : s.reds = []
  lines : s.rdc = []
  clean : ∀ core ln, hasDirty ((s.coreAt core).l1Line ln) = false
  cold : ∀ u, s.winBit (unitBase u + 0x80) 0 = false

theorem State.Settled.atRest {s : State} (h : s.Settled) : s.AtRest := ⟨h.stores, h.atomics, h.reds, h.lines, h.clean, h.cold⟩

/-- Page heat that is not counted stays. -/
theorem heat_of_cold {s : State} (h : ∀ u, s.winBit (unitBase u + 0x80) 0 = false) (pa : Nat) : s.heat pa = s := by
  unfold State.heat
  split
  · rfl
  · simp [h]

/-- A line comes to its home: it enters the L2, by a request. -/
theorem cachesOnly_homeLine {s : State} (h : s.rdc = []) (ln : Nat) : CachesOnly s (s.homeLine ln).1 := by
  have hfull : s.makeFull ln = (s, false) := by simp [State.makeFull, h, sget]
  unfold State.homeLine
  rw [hfull]
  simp only [h, sget, Option.isSome_none, Bool.false_eq_true, if_false]
  split
  · exact .refl s
  split
  · exact .refl s
  · exact (cachesOnly_enterL2 s ln).trans (cachesOnly_request _ _)

theorem cachesOnly_touchHome {s : State} (hr : s.rdc = []) (hc : ∀ u, s.winBit (unitBase u + 0x80) 0 = false) (ln : Nat) :
    CachesOnly s (s.touchHome ln).1 := by
  unfold State.touchHome
  rw [heat_of_cold hc]
  exact cachesOnly_homeLine hr ln

theorem cachesOnly_homeRead {s : State} (hr : s.rdc = []) (hc : ∀ u, s.winBit (unitBase u + 0x80) 0 = false) (pa n : Nat) :
    CachesOnly s (s.homeRead pa n).1 := by
  have ht := cachesOnly_touchHome hr hc (lineOf pa)
  unfold State.homeRead
  generalize s.touchHome (lineOf pa) = x at ht ⊢
  exact ht.trans ⟨rfl, rfl, rfl, rfl, rfl, rfl, fun _ _ => rfl⟩

theorem lineDone_of_no_store {s : State} (h : s.stores = []) (core ln : Nat) : s.lineDone core ln = s := by
  simp only [State.lineDone, h, List.filter_nil, List.foldl_nil]
  rw [← h]

/-- A clean line has nothing to write back, and no store waits for its write-back. -/
theorem writeBack_atRest {s : State} (h : s.AtRest) (core ln : Nat) : s.writeBack core ln = s := by
  have hclean : ∀ b : Requester, ({ s with by_ := b } : State).cleanLine core ln = { s with by_ := b } := fun b =>
    if_neg (Bool.eq_false_iff.1 (h.clean core ln))
  have hby : (if s.by_.id = coreRequester core then s else s.servedFor (coreRequester core) (s.coreLaunch core)) =
      { s with by_ := if s.by_.id = coreRequester core then s.by_ else
        (s.servedFor (coreRequester core) (s.coreLaunch core)).by_ } := by
    split <;> rfl
  unfold State.writeBack
  rw [hby]
  dsimp only
  rw [hclean]
  exact lineDone_of_no_store h.stores core ln

theorem cachesOnly_dropLine {s : State} (h : s.AtRest) (core ln : Nat) : CachesOnly s (s.dropLine core ln) := by
  unfold State.dropLine
  rw [writeBack_atRest h]
  exact cachesOnly_setCore rfl

theorem cachesOnly_l1Room {s : State} (h : s.AtRest) (core ln : Nat) : CachesOnly s (s.l1Room core ln) := by
  have hd : (s.drawn 1).AtRest := ⟨h.stores, h.atomics, h.reds, h.lines, h.clean, h.cold⟩
  have hdrawn : CachesOnly s (s.drawn 1) := ⟨rfl, rfl, rfl, rfl, rfl, rfl, fun _ _ => rfl⟩
  exact .ite (.refl s) (hdrawn.trans (cachesOnly_dropLine hd core _))

theorem cachesOnly_fill {s : State} (h : s.AtRest) (core ln : Nat) (refresh : Bool) : CachesOnly s (s.fill core ln refresh) := by
  have hroom := cachesOnly_l1Room h core ln
  have hcold : ∀ u, (s.l1Room core ln).winBit (unitBase u + 0x80) 0 = false := fun u => by
    have := h.cold u
    simpa [State.winBit, State.winAt, hroom.win, hroom.hw] using this
  exact (hroom.trans (cachesOnly_touchHome (hroom.rdc.trans h.lines) hcold ln)).trans (cachesOnly_setCore rfl)

theorem settleLine_atRest {s : State} (h : s.AtRest) (w : Who) (ln : Nat) : s.settleLine w ln = s := by
  simp [State.settleLine, h.stores, h.reds, h.atomics]

theorem settleSent_atRest {s : State} (h : s.AtRest) (core ln : Nat) : s.settleSent core ln = s := by
  simp [State.settleSent, h.stores]

theorem settleAll_atRest {s : State} (h : s.AtRest) (w : Who) : s.settleAll w = s := by
  simp [State.settleAll, State.settleReds, State.settleAtomics, h.stores, h.reds, h.atomics]

theorem cachesOnly_readAs {s : State} (h : s.AtRest) (w : Who) (p : Place) (n scope : Nat) : CachesOnly s (s.readAs w p n scope).1 := by
  unfold State.readAs
  simp only [settleLine_atRest h, settleSent_atRest h, ite_self]
  split
  · exact .ite (.ite (.refl s) (cachesOnly_fill h _ _ _)) (cachesOnly_fill h _ _ _)
  · exact cachesOnly_homeRead h.lines h.cold p.pa n

/-! ### A load where nothing is on its way -/

/-- An access that meets no other is kept for races to come, and nothing else changes. -/
theorem meet_settled {s : State} (h : s.Settled) (w : Who) (pa n : Nat) (write : Bool) :
    CachesOnly s (s.meet w pa n write) ∧ (s.meet w pa n write).AtRest := by
  have hr : ∀ a : Recent, s.racing a = [] := fun a => by
    have hnil : (sectorsOf a.lo a.n).flatMap (fun _ => ([] : List Nat)) = [] := by simp
    simp [State.racing, h.races, sgetD, sget, hnil]
  unfold State.meet
  simp only [hr, List.foldl_nil]
  exact ⟨⟨rfl, rfl, rfl, rfl, rfl, rfl, fun _ _ => rfl⟩, ⟨h.stores, h.atomics, h.reds, h.lines, h.clean, h.cold⟩⟩

theorem promote_of_no_owner {s : State} (h : s.owners = []) (core ln : Nat) : s.promote core ln = s := by
  simp [State.promote, h, sget]

theorem cachesOnly_acquireAt (s : State) (w : Who) (scope : Nat) : CachesOnly s (s.acquireAt w scope) := by
  have hn : CachesOnly s (s.noteAcquire [w]) := ⟨rfl, rfl, rfl, rfl, rfl, rfl, fun _ _ => rfl⟩
  exact .ite hn (hn.trans (cachesOnly_setCore rfl))

/-- A load of at most 16 bytes, at each order and scope. -/
theorem cachesOnly_loadAs {s : State} (h : s.Settled) (w : Who) (p : Place) {n : Nat} (hn : n ≤ 16) (order scope : Nat) :
    CachesOnly s (s.loadAs w p n order scope).1 := by
  have hs : CachesOnly s s ∧ s.AtRest := ⟨.refl s, h.atRest⟩
  have hbefore : let u := if order = 2 then s else if order = 0 then s.meet w p.pa n false else s; CachesOnly s u ∧ u.AtRest := by
    dsimp only
    split
    · exact hs
    split
    · exact meet_settled h w p.pa n false
    · exact hs
  have hread : ∀ sc, CachesOnly s ((if order = 2 then s else if order = 0 then s.meet w p.pa n false else s).readAs w p n sc).1 :=
    fun sc => hbefore.1.trans (cachesOnly_readAs hbefore.2 w p n sc)
  unfold State.loadAs
  simp only [promote_of_no_owner h.owners, settleAll_atRest h.atRest, ite_self, State.meetParts, if_pos hn]
  exact .ite (hread _) ((hread _).trans (cachesOnly_acquireAt _ w _))

/-! ### The frame of a load -/

/-- The next instruction's place, and the loops that it ends, are no registers. -/
theorem endCheckFrom_sameRegisters {t : Thread} (ks : List Nat) (u : Thread) (np : Dword) (h : SameRegisters t u) :
    SameRegisters t (endCheckFrom u np ks).1 := by
  induction ks generalizing u with
  | nil => exact h
  | cons k ks ih =>
    have hlc : ∀ c, SameRegisters t { u with lc := c } := fun c =>
      ⟨h.regs, h.preds, h.latches, h.window, h.flags, h.stack, h.traps, h.handler, h.pixel⟩
    unfold endCheckFrom
    split
    · dsimp only
      split
      · exact hlc _
      · exact ih _ (hlc _)
    · exact ih u h

theorem goSeq_sameRegisters {t u : Thread} (np : Dword) (h : SameRegisters t u) : SameRegisters t (u.goSeq np) := by
  have hpc : ∀ {v : Thread} (x : Dword), SameRegisters t v → SameRegisters t { v with pc := x } := fun x hv =>
    ⟨hv.regs, hv.preds, hv.latches, hv.window, hv.flags, hv.stack, hv.traps, hv.handler, hv.pixel⟩
  unfold Thread.goSeq
  split
  · exact hpc _ h
  · exact hpc _ (endCheckFrom_sameRegisters [2, 1, 0] u np h)

/-- An instruction that completes in sequence leaves its thread's registers. -/
theorem advance_sameRegisters {t u : Thread} (len : Nat) (h : SameRegisters t u) : SameRegisters t (u.advance len) := by
  refine goSeq_sameRegisters _ ?_
  unfold Thread.endReplay
  split
  · split
    · exact ⟨h.regs, h.preds, h.latches, h.window, h.flags, h.stack, h.traps, h.handler, h.pixel⟩
    · exact h
  · exact h

theorem loadForm_size {i : Instr} {f : LoadForm} (h : loadForm i = some f) : f.n ≤ 16 := by
  cases i <;> cases h <;> simp

/-- A load sent differs from what its reading leaves by its entry among the loads, and by its thread. -/
theorem sentLoad_eq_advanceLane (s : State) (f : LoadForm) (smp : Option LaneRef) (w : Who) (l : LaneRef) (t : Thread) (p : Place) :
    ∃ v, CachesOnly (s.loadAs w p f.n f.o.toNat f.sc.toNat).1 v ∧ s.sentLoad f smp w l t p = v.advanceLane l := by
  refine ⟨_, ?_, rfl⟩
  exact ⟨rfl, rfl, rfl, rfl, rfl, rfl, fun _ _ => rfl⟩

/-- Settles O32: what the load finds is read with memory at rest, which moves lines among the caches only; the thread is marked as
sampled at most, and advances. -/
theorem loadFrame : Obligations.LoadFrame := by
  intro i f s s1 u l t p hf hword h ha hw hset hlane hx
  rw [exec_of_loadForm hf hword h ha hw] at hx
  obtain ⟨-, b, hsolo⟩ := sampling_solo h
  have hc := cachesOnly_loadAs hset (s.who l) p (loadForm_size hf) f.o.toNat f.sc.toNat
  obtain ⟨v, hv, he⟩ := sentLoad_eq_advanceLane s1 f (s.sampling f.roles).2 (s.who l) l t p
  cases he ▸ hx
  replace hv := hc.trans hv
  have hl : v.lane? l = some (t.marked b) := (hv.lane? l).trans (hlane.trans hsolo.alone.2)
  refine ⟨fun a => ?_, ⟨(t.marked b).advance 4, ?_, ?_⟩, fun m hm => ?_⟩
  · rw [← hv.sameMemory a]
    simp [State.byteAt, State.advanceLane]
  · unfold State.advanceLane
    rw [modLane_of_lane _ _ _ _ hl, lane?_setLane_same _ _ _ _ hl, h.live]
    rfl
  · exact advance_sameRegisters 4 ⟨rfl, rfl, rfl, ⟨rfl, rfl⟩, rfl, ⟨rfl, rfl, rfl⟩, ⟨rfl, rfl, rfl, rfl, rfl, rfl⟩, rfl, rfl⟩
  · exact (lane?_modLane_ne _ _ _ _ hm).trans (hv.lane? m)

end Sys2Proof.Machine
end

section
/-! PROOFS. The data of a load returns (06 R129, R130): its registers take their words, and their marks where the data is bad. -/

namespace Sys2Proof.Machine

open Sys2Proof

/-! ### A thread that receives data -/

/-- A register written with a word, and poisoned where its data is bad. -/
def Thread.receive (p : Option Poison) (t : Thread) (d : Nat × Word) : Thread :=
  match p with
  | some q => { t.setReg d.1 d.2 with poison := sput (t.setReg d.1 d.2).poison d.1 q }
  | none => t.setReg d.1 d.2

theorem deliver_eq_modThr (s : State) (w : Who) (dst : List (Nat × Word)) (p : Option Poison) :
    s.deliver w dst p = s.modThr w fun t => dst.foldl (Thread.receive p) t := rfl

@[simp] theorem receive_reg_same (p : Option Poison) (t : Thread) (d : Nat × Word) : (t.receive p d).reg d.1 = d.2 := by
  cases p <;> exact setReg_reg_same t d.1 d.2

theorem receive_reg_ne (p : Option Poison) (t : Thread) {d : Nat × Word} {r : Nat} (h : r ≠ d.1) : (t.receive p d).reg r = t.reg r := by
  cases p <;> exact setReg_reg_ne t d.1 r d.2 h

@[simp] theorem receive_poison_same (p : Option Poison) (t : Thread) (d : Nat × Word) : sget (t.receive p d).poison d.1 = p := by
  cases p with
  | none => exact sget_sdel_same _ _
  | some q => exact sget_sput_same _ _ _

theorem receive_poison_ne (p : Option Poison) (t : Thread) {d : Nat × Word} {r : Nat} (h : r ≠ d.1) :
    sget (t.receive p d).poison r = sget t.poison r := by
  cases p with
  | none => exact sget_sdel_ne _ _ _ h
  | some q => exact (sget_sput_ne _ _ _ _ h).trans (sget_sdel_ne _ _ _ h)

/-- A register that no datum is for keeps its word and its mark. -/
theorem receiveAll_of_not_mem (p : Option Poison) (dst : List (Nat × Word)) (t : Thread) {r : Nat} (h : r ∉ dst.map (·.1)) :
    (dst.foldl (Thread.receive p) t).reg r = t.reg r ∧ sget (dst.foldl (Thread.receive p) t).poison r = sget t.poison r := by
  induction dst generalizing t with
  | nil => exact ⟨rfl, rfl⟩
  | cons d dst ih =>
    rw [List.map_cons, List.mem_cons, not_or] at h
    obtain ⟨hreg, hmark⟩ := ih (t.receive p d) h.2
    exact ⟨hreg.trans (receive_reg_ne p t h.1), hmark.trans (receive_poison_ne p t h.1)⟩

/-- Each of distinct registers holds its word, with the mark of the data. -/
theorem receiveAll_of_mem (p : Option Poison) {dst : List (Nat × Word)} (hn : (dst.map (·.1)).Nodup) (t : Thread) {d : Nat × Word}
    (h : d ∈ dst) : (dst.foldl (Thread.receive p) t).reg d.1 = d.2 ∧ sget (dst.foldl (Thread.receive p) t).poison d.1 = p := by
  induction dst generalizing t with
  | nil => cases h
  | cons e dst ih =>
    obtain ⟨he, hn⟩ := List.nodup_cons.1 hn
    rcases List.mem_cons.1 h with rfl | h
    · obtain ⟨hreg, hmark⟩ := receiveAll_of_not_mem p dst (t.receive p d) he
      exact ⟨hreg.trans (receive_reg_same p t d), hmark.trans (receive_poison_same p t d)⟩
    · exact ih hn (t.receive p e) h

/-- The predicates, the PC and the latches receive nothing. -/
theorem receiveAll_keeps (p : Option Poison) (dst : List (Nat × Word)) (t : Thread) :
    (dst.foldl (Thread.receive p) t).preds = t.preds ∧ (dst.foldl (Thread.receive p) t).pc = t.pc ∧
      (dst.foldl (Thread.receive p) t).latches = t.latches := by
  induction dst generalizing t with
  | nil => exact ⟨rfl, rfl, rfl⟩
  | cons d dst ih =>
    obtain ⟨hpreds, hpc, hlatches⟩ := ih (t.receive p d)
    cases p <;> exact ⟨hpreds, hpc, hlatches⟩

/-! ### Delivery -/

theorem thr?_modThr_same {s : State} {w : Who} {t : Thread} (f : Thread → Thread) (h : s.thr? w = some t) :
    (s.modThr w f).thr? w = some (f t) := by
  obtain ⟨b, hb, -⟩ := Option.bind_eq_some_iff.1 h
  unfold State.modThr
  rw [h]
  simp [State.setThr, State.thr?, block?_modBlock_same, hb]

/-- A returned load that is not sampled is off the way, and its thread has received it. -/
theorem exec_loadDataReturn_unsampled {s : State} {id : Nat} {x : Load} (hx : s.loads.find? (fun y => y.id == id) = some x)
    (hs : x.sample = none) : exec (.loadDataReturn id) s = .next (({ s with loads := s.loads.filter fun y => y.id != x.id } : State).deliver
      x.who x.dst (if x.bad then some x.mark else none)) := by
  have he : exec (.loadDataReturn id) s = execLoadDataReturn id s := rfl
  rw [he]
  simp only [execLoadDataReturn, hx, State.returnLoad, hs, Option.isSome_none, Bool.false_eq_true, if_false, State.returnOne]

/-- Settles O33: the load's thread has received the words in distinct registers, with the mark where the data is bad. -/
theorem loadDelivers : Obligations.LoadDelivers := by
  intro s u id x t hx hs ht hn hu
  rw [exec_loadDataReturn_unsampled hx hs, deliver_eq_modThr] at hu
  cases hu
  obtain ⟨hpreds, hpc, hlatches⟩ := receiveAll_keeps (if x.bad then some x.mark else none) x.dst t
  refine ⟨fun a => by simp [State.byteAt], by simp, _, thr?_modThr_same _ ht, fun r hr => (receiveAll_of_not_mem _ _ t hr).1,
    fun d hd => (receiveAll_of_mem _ hn t hd).1, hpreds, hpc, hlatches, fun hb d hd => ?_, fun hb d hd => ?_⟩
  · rw [(receiveAll_of_mem _ hn t hd).2, hb]
    rfl
  · rw [(receiveAll_of_mem _ hn t hd).2, hb]
    rfl

end Sys2Proof.Machine
end

section
/-! PROOFS. Atomics and reductions (06 R151-R163): the lanes of a path enter in turn, and one request is sent for each address. -/

namespace Sys2Proof.Machine

open Sys2Proof

/-! ### Lanes with nothing on their way -/

/-- A lane to which nothing is on its way waits for none of its registers. -/
theorem settleRegs_free {s : State} {l : LaneRef} (h : s.Free l) (a n : Nat) : s.settleRegs (s.who l) a n = s := by
  obtain ⟨hloads, hatomics⟩ := h
  have hl : ∀ q : Load → Bool, (s.loads.filter fun x => x.who == s.who l && q x) = [] := fun q =>
    List.filter_eq_nil_iff.2 fun x hx => by simp [hloads x hx]
  have ha : ∀ q : Atomic → Nat × Option Nat × Nat × Nat → Bool,
      (s.atomics.filter fun x => x.core == (s.who l).core && x.blk == (s.who l).blk && x.lanes.any fun y => y.1 == (s.who l).thr && q x y) = [] := by
    refine fun q => List.filter_eq_nil_iff.2 fun x hx hc => ?_
    simp only [Bool.and_eq_true, beq_iff_eq, List.any_eq_true] at hc
    obtain ⟨⟨hcore, hblk⟩, y, hy, hthr, -⟩ := hc
    exact hatomics x hx y hy (by rw [hcore, hblk, hthr])
  unfold State.settleRegs
  dsimp only
  rw [hl, List.foldl_nil, ha, List.foldl_nil]

theorem settleRoles_free {s : State} {l : LaneRef} (h : s.Free l) (t : Thread) (rs : List Role) : s.settleRoles l t rs = s := by
  unfold State.settleRoles
  split
  · rfl
  · induction rs with
    | nil => rfl
    | cons r rs ih =>
      rw [List.foldl_cons]
      dsimp only
      rw [settleRegs_free h, ite_self]
      exact ih

theorem settleRoles_helper {l : LaneRef} (h : l.helper = true) (s : State) (t : Thread) (rs : List Role) : s.settleRoles l t rs = s := by
  simp [State.settleRoles, h]

theorem free_of_quiet {s : State} (h : s.Quiet) (l : LaneRef) : s.Free l := by
  simp [State.Free, h.1, h.2]

/-! ### The entry of lanes -/

/-- One lane enters an atomic or a reduction: it stops, passes on, is held, or joins those that have entered. -/
def State.enterAtomStep (roles : List Role) (n w : Nat) (need : Need) (sized : State → Place → Bool) (fp hold : Bool) (a v : BitVec 7)
    (acc : State × List AtLane) (l : LaneRef) : State × List AtLane :=
  match acc.1.lane? l with
  | none => acc
  | some t0 =>
    let s1 := acc.1.settleRoles l t0 roles
    let t := (s1.lane? l).getD t0
    match checkEntry t roles with
    | some e => (s1.stopLane l e, acc.2)
    | none =>
      if l.helper then (s1.advanceLane l, acc.2)
      else if hold && t.full then (s1.setLane l (t.hold (.held .stores)), acc.2)
      else
        match s1.enterAtom n w need sized fp a v (poisonOf t roles) l t with
        | (s2, .error e) => (s2.stopLane l e, acc.2)
        | (s2, .ok x) => (s2, acc.2 ++ [x])

theorem enterAtoms_eq_foldl (s : State) (roles : List Role) (n w : Nat) (need : Need) (sized : State → Place → Bool) (fp hold : Bool)
    (a v : BitVec 7) : s.enterAtoms roles n w need sized fp hold a v =
      s.issue.lanes.foldl (State.enterAtomStep roles n w need sized fp hold a v) (s, []) := rfl

section Entry

variable {roles : List Role} {n w : Nat} {need : Need} {sized : State → Place → Bool} {fp hold : Bool} {a v : BitVec 7}
  {s : State} {l : LaneRef} {t : Thread}

/-- A helper lane whose fields pass goes on with no effect. -/
theorem enterAtomStep_helper (hl : l.helper = true) (ht : s.lane? l = some t) (hc : check t roles = none) (acc : List AtLane) :
    State.enterAtomStep roles n w need sized fp hold a v (s, acc) l = (s.setLane l (t.advance 4), acc) := by
  simp [State.enterAtomStep, ht, settleRoles_helper hl, checkEntry_of_check hc, hl, State.advanceLane, modLane_of_lane s l t _ ht]

/-- A live lane that has room and whose checks pass joins the lanes that have entered. -/
theorem enterAtomStep_live {s1 : State} {x : AtLane} (hl : l.helper = false) (ht : s.lane? l = some t) (hfree : s.Free l)
    (hc : check t roles = none) (hroom : (hold && t.full) = false) (he : s.enterAtom n w need sized fp a v none l t = (s1, .ok x))
    (acc : List AtLane) : State.enterAtomStep roles n w need sized fp hold a v (s, acc) l = (s1, acc ++ [x]) := by
  simp only [State.enterAtomStep, ht, settleRoles_free hfree, Option.getD_some, checkEntry_of_check hc, poisonOf_of_check hc, hl, hroom,
    Bool.false_eq_true, if_false, he]

/-- Lanes that enter in turn, where each entry is what the lane's checks answer. -/
theorem enterAtoms_collected {entry : State → LaneRef → Thread → State → AtLane → Prop}
    (hentry : ∀ s l t s1 x, entry s l t s1 x → (hold && t.full) = false ∧ s.enterAtom n w need sized fp a v none l t = (s1, .ok x))
    {u : State} {xs : List AtLane} (h : Collected roles (·.advance 4) entry s s.issue.lanes u xs) :
    s.enterAtoms roles n w need sized fp hold a v = (u, xs) := by
  have key : ∀ (ls : List LaneRef) (s : State) (xs acc : List AtLane), Collected roles (·.advance 4) entry s ls u xs →
      ls.foldl (State.enterAtomStep roles n w need sized fp hold a v) (s, acc) = (u, acc ++ xs) := by
    intro ls
    induction ls with
    | nil =>
      rintro s xs acc ⟨rfl, rfl⟩
      simp
    | cons l ls ih =>
      rintro s xs acc ⟨t, ht, hc, ⟨hl, hrest⟩ | ⟨hl, hfree, s1, x, ys, he, rfl, hrest⟩⟩
      · rw [List.foldl_cons, enterAtomStep_helper hl ht hc]
        exact ih _ _ _ hrest
      · obtain ⟨hroom, he⟩ := hentry s l t s1 x he
        rw [List.foldl_cons, enterAtomStep_live hl ht hfree hc hroom he, ih _ _ _ hrest, List.append_assoc]
        rfl
  rw [enterAtoms_eq_foldl]
  exact key _ s xs [] h

/-- A lane whose address is aligned and granted, to memory that supports the operation. -/
theorem enterAtom_granted {s1 : State} {p : Place} (ha : (t.val64 a).toNat % n = 0)
    (hw : s.watchedAccess (s.who l) (t.val64 a).toNat n need true sized = (s1, .ok p)) (hu : unsupported s p fp (w == 16) = false) :
    s.enterAtom n w need sized fp a v none l t = (s1, .ok (t.atomLane l a v w p)) := by
  unfold State.enterAtom
  dsimp only
  rw [if_neg (not_not_intro ha), lateAccess_of_watched hw (by simp [hu])]
  rfl

/-- On a path of one live thread, that thread's lane has entered alone. -/
theorem collected_solo {entry : State → LaneRef → Thread → State → AtLane → Prop} {help : Thread → Thread} {s1 : State} {x : AtLane}
    (h : s.Solo l t roles) (he : entry s l t s1 x) : Collected roles help entry s s.issue.lanes s1 [x] := by
  rw [h.alone.1]
  exact ⟨t, h.alone.2, h.passes, .inr ⟨h.live, free_of_quiet h.quiet l, s1, x, [], he, rfl, rfl, rfl⟩⟩

end Entry

/-- One lane has one address. -/
theorem addresses_singleton (x : AtLane) : addresses [x] = [x.va] := rfl

theorem filter_va_singleton (x : AtLane) : ([x].filter fun y => y.va == x.va) = [x] := by simp

/-! ### Atomics -/

/-- Each instruction of the table is the atomic with the operands that the table gives. -/
theorem exec_eq_atomOp {i : Instr} {f : AtomForm} (s : State) (h : atomForm i = some f) :
    exec i s = atomOp f.op f.ty f.sc f.o f.a f.v s := by
  cases i <;> cases h <;> rfl

theorem AtomForm.entry_enterAtom {f : AtomForm} {s : State} {l : LaneRef} {t : Thread} {s1 : State} {x : AtLane}
    (h : f.entry s l t s1 x) : s.enterAtom f.span f.width f.need (fun s p => !atomInL1 f.sc.toNat s p) f.fp f.a f.v none l t =
      (s1, .ok x) := by
  obtain ⟨ha, p, hw, hu, rfl⟩ := h
  exact enterAtom_granted ha hw hu

theorem exec_of_atomForm {i : Instr} {f : AtomForm} {s u : State} {xs : List AtLane} (hf : atomForm i = some f)
    (hword : atWord f.op f.ty.toNat f.o.toNat f.sc.toNat = none)
    (h : Collected f.roles (·.advance 4) f.entry s s.issue.lanes u xs) :
    exec i s = .next (xs.foldl (fun s x => s.advanceLane x.lane) ((addresses xs).foldl (fun s va =>
      s.sendAtomic f.op f.ty.toNat f.o.toNat f.sc.toNat f.v s.issue.pc (xs.filter fun x => x.va == va)) u)) := by
  have he : s.enterAtoms (atomRoles f.op f.ty.toNat f.a f.v) f.span f.width f.need (fun s p => !atomInL1 f.sc.toNat s p) f.fp false
      f.a f.v = (u, xs) := enterAtoms_collected (fun _ _ _ _ _ hx => ⟨rfl, AtomForm.entry_enterAtom hx⟩) h
  rw [exec_eq_atomOp s hf]
  unfold atomOp
  rw [wordCheck_none hword]
  unfold AtomForm.span AtomForm.width AtomForm.need AtomForm.fp at he
  dsimp only
  rw [he]

/-- Settles O36: the lanes of a path enter in turn; a path of one live thread is one whose only lane enters. -/
theorem atomicsComplete : Obligations.AtomicsComplete := by
  refine ⟨fun i f s s1 l t p hf hword h ha hw hu => ?_, fun i f s u xs hf hword h => exec_of_atomForm hf hword h⟩
  have hone : Collected f.roles (·.advance 4) f.entry s s.issue.lanes s1 [t.atomLane l f.a f.v f.width p] :=
    collected_solo h ⟨ha, p, hw, hu, rfl⟩
  rw [exec_of_atomForm hf hword hone, addresses_singleton]
  simp only [List.foldl_cons, List.foldl_nil, filter_va_singleton]
  rfl

/-! ### Reductions -/

/-- Each instruction of the table is the reduction with the operands that the table gives. -/
theorem exec_eq_redOp {i : Instr} {f : RedForm} (s : State) (h : redForm i = some f) :
    exec i s = redOp f.op f.ty f.sc f.o f.a f.v s := by
  cases i <;> cases h <;> rfl

theorem RedForm.entry_enterAtom {f : RedForm} {s : State} {l : LaneRef} {t : Thread} {s1 : State} {x : AtLane}
    (h : f.entry s l t s1 x) : (true && t.full) = false ∧
      s.enterAtom f.width f.width .w unsized (decide (8 ≤ f.op)) f.a f.v none l t = (s1, .ok x) := by
  obtain ⟨hroom, ha, p, hw, hu, rfl⟩ := h
  exact ⟨hroom, enterAtom_granted ha hw hu⟩

theorem exec_of_redForm {i : Instr} {f : RedForm} {s u : State} {xs : List AtLane} (hf : redForm i = some f)
    (hword : rdWord f.op f.ty.toNat f.sc.toNat = none) (h : Collected f.roles (·.advance 4) f.entry s s.issue.lanes u xs) :
    exec i s = .next (xs.foldl (fun s x => s.advanceLane x.lane) ((addresses xs).foldl (fun s va =>
      s.sendRed f.op f.ty.toNat f.o.toNat f.sc.toNat (xs.filter fun x => x.va == va)) u)) := by
  have he : s.enterAtoms [storeRole f.v f.width, .src64 f.a] f.width f.width .w unsized (decide (8 ≤ f.op)) true f.a f.v = (u, xs) :=
    enterAtoms_collected (fun _ _ _ _ _ hx => RedForm.entry_enterAtom hx) h
  rw [exec_eq_redOp s hf]
  unfold redOp
  rw [wordCheck_none hword]
  unfold RedForm.width at he
  dsimp only
  rw [he]

/-- Settles O37: the lanes of a path enter in turn; a path of one live thread is one whose only lane enters. -/
theorem reductionsComplete : Obligations.ReductionsComplete := by
  refine ⟨fun i f s s1 l t p hf hword h hroom ha hw hu => ?_, fun i f s u xs hf hword h => exec_of_redForm hf hword h⟩
  have hone : Collected f.roles (·.advance 4) f.entry s s.issue.lanes s1 [t.atomLane l f.a f.v f.width p] :=
    collected_solo h ⟨hroom, ha, p, hw, hu, rfl⟩
  rw [exec_of_redForm hf hword hone, addresses_singleton]
  simp only [List.foldl_cons, List.foldl_nil, filter_va_singleton]
  rfl

end Sys2Proof.Machine
end

section
/-! PROOFS. Traps that an instruction takes and leaves (07 R186-R188; 19 R442): the entry of a handler, a fault inside one, and the
return. -/

namespace Sys2Proof.Machine

open Sys2Proof

/-! ### Trap entry -/

section Entry

variable {s : State} {w : Who} {b : Block} {t : Thread} {lc : Launch}

/-- Outside a handler, of a launch that names one, the thread enters it. -/
theorem trapWith_enters (hb : s.block? w.core w.blk = some b) (ht : sget b.threads w.thr = some t) (hl : s.launch? b.launch = some lc)
    (hout : t.handler = false) (hnamed : lc.rcd.trap ≠ BitVec.allOnes 64) (fuel cause sub : Nat) (adr : Dword) (det : Word)
    (resume at_ : Dword) : s.trapWith (fuel + 1) w cause sub adr det resume at_ =
      s.setThr w (t.enterHandler cause sub adr det resume lc.rcd.trap) := by
  simp only [State.trapWith, hb, ht, hl, hout, Option.map_some, Option.getD_some, Bool.false_eq_true, if_false, if_neg hnamed]

/-- Inside a handler the thread enters it again, its group halts, and the fault's record is due. -/
theorem trapWith_halts (hb : s.block? w.core w.blk = some b) (ht : sget b.threads w.thr = some t) (hl : s.launch? b.launch = some lc)
    (hin : t.handler = true) (fuel cause sub : Nat) (adr : Dword) (det : Word) (resume at_ : Dword) :
    s.trapWith (fuel + 1) w cause sub adr det resume at_ =
      { (s.setThr w (t.enterHandler cause sub adr det resume lc.rcd.trap)).haltGroup w.core w.blk t.group 0x22 4 with
        due := s.due ++ [trapRecord b t cause sub at_ adr det] } := by
  simp [State.trapWith, State.haltGroup, hb, ht, hl, hin]

end Entry

/-! ### Lanes as threads of their block -/

/-- A live lane is the thread of its index in the path's block. -/
theorem lane?_eq_thr? {l : LaneRef} (h : l.helper = false) (s : State) : s.lane? l = s.thr? (s.who l) := by
  simp only [State.lane?, State.thr?, State.who, Block.thread?, h, Bool.false_eq_true, if_false]
  cases (s.block? s.issue.core s.issue.blk).bind fun b => sget b.threads l.idx <;> rfl

/-- The thread of a live lane, in a block that is known. -/
theorem thread_of_lane {s : State} {l : LaneRef} {t : Thread} {b : Block} (hl : l.helper = false) (ht : s.lane? l = some t)
    (hb : s.block? s.issue.core s.issue.blk = some b) : sget b.threads l.idx = some t := by
  rw [lane?_eq_thr? hl] at ht
  simpa [State.thr?, State.who, hb] using ht

/-! ### trap and trapret -/

/-- `trap #n` on a path of one live thread takes the trap with the next instruction to return to. -/
theorem exec_trap_solo {s : State} {l : LaneRef} {t : Thread} {rs : List Role} (h : s.Solo l t rs) (n : BitVec 8) :
    exec (.trap n) s = .next (s.trapWith trapFuel (s.who l) 0x20 n.toNat 0 0 (t.pc + 4) t.pc) := by
  show execTrap n s = _
  unfold execTrap
  rw [lanes_solo s l t rs _ h, h.live]
  rfl

/-- `trapret` on a path of one live thread: the return in a handler, a trap outside one. -/
theorem exec_trapret_solo {s : State} {l : LaneRef} {t : Thread} {rs : List Role} (h : s.Solo l t rs) :
    exec .trapret s = .next (if t.handler then s.setLane l t.returnFromTrap else s.takeTrap (s.who l) 3 0x12 0 0) := by
  show execTrapret s = _
  unfold execTrapret
  rw [lanes_solo s l t rs _ h]
  cases t.handler with
  | true => rfl
  | false => simp [endLane, State.stopLane, h.live]

/-- Settles O55: the instruction takes a trap, which enters the handler, or halts the group of a thread inside one. -/
theorem trapInstruction : Obligations.TrapInstruction := by
  intro n s l t b lc h hb hlc
  have ht : sget b.threads l.idx = some t := thread_of_lane h.live h.alone.2 hb
  refine ⟨fun hout hnamed => ?_, fun hin => ?_⟩ <;> rw [exec_trap_solo h]
  · exact congrArg _ (trapWith_enters (w := s.who l) hb ht hlc hout hnamed _ _ _ _ _ _ _)
  · exact congrArg _ (trapWith_halts (w := s.who l) hb ht hlc hin _ _ _ _ _ _ _)

/-- Settles O56: inside a handler the thread returns, with a halt held for it or without; outside one it traps. -/
theorem trapReturn : Obligations.TrapReturn := by
  intro s l t h
  rw [exec_trapret_solo h]
  refine ⟨fun hin hfree => ?_, fun hin hheld => ?_, fun hout => ?_⟩
  · simp [hin, Thread.returnFromTrap, hfree, Thread.dropLatches, join64]
  · simp [hin, Thread.returnFromTrap, hheld, Thread.dropLatches, join64]
  · simp [hout]

end Sys2Proof.Machine
end

section
/-! SUPPORT. What the lanes of a path give, each from its own thread (01 R451; 07 R174, R178): whether the live lanes give one value,
which of them leads, and what a path enters when every lane passes its checks. -/

namespace Sys2Proof.Machine

open Sys2Proof

/-! ### Lanes that give values -/

/-- Lanes are uniform when any two live lanes of them give one value. -/
theorem uniform_iff {β : Type} [DecidableEq β] (vs : List (LaneRef × β)) :
    uniform vs = true ↔ ∀ p ∈ vs, ∀ q ∈ vs, p.1.helper = false → q.1.helper = false → p.2 = q.2 := by
  have hlive : ∀ p, p ∈ vs.filter (fun v => !v.1.helper) ↔ p ∈ vs ∧ p.1.helper = false := fun p => by simp
  unfold uniform
  dsimp only
  split
  · next hnil =>
    refine ⟨fun _ p hp q _ hhp _ => ?_, fun _ => rfl⟩
    have hmem := (hlive p).2 ⟨hp, hhp⟩
    rw [hnil] at hmem
    cases hmem
  · next v rest hcons =>
    simp only [List.all_eq_true, decide_eq_true_eq]
    rw [hcons] at hlive
    constructor
    · intro h p hp q hq hhp hhq
      have hv : ∀ x ∈ v :: rest, x.2 = v.2 := List.forall_mem_cons.2 ⟨rfl, h⟩
      rw [hv p ((hlive p).2 ⟨hp, hhp⟩), hv q ((hlive q).2 ⟨hq, hhq⟩)]
    · intro h x hx
      obtain ⟨hxs, hxl⟩ := (hlive x).1 (.tail _ hx)
      obtain ⟨hvs, hvl⟩ := (hlive v).1 (.head _)
      exact h x hxs v hvs hxl hvl

/-- Two live lanes with different values. -/
theorem uniform_of_ne {β : Type} [DecidableEq β] {vs : List (LaneRef × β)} {p q : LaneRef × β} (hp : p ∈ vs) (hq : q ∈ vs)
    (hhp : p.1.helper = false) (hhq : q.1.helper = false) (hne : p.2 ≠ q.2) : uniform vs = false :=
  Bool.eq_false_iff.2 fun h => hne ((uniform_iff vs).1 h p hp q hq hhp hhq)

/-- The leader is the live lane that minimises the logical index. -/
theorem leader_eq_argmin {β : Type} (vs : List (LaneRef × β)) :
    leader vs = ((vs.filter fun v => !v.1.helper).argmin (·.1.idx)).map (·.2) := by
  unfold leader List.argmin
  congr 2
  funext m v
  cases m <;> rfl

/-- Where a live lane gives a value, there is a leader. -/
theorem exists_leader {β : Type} {vs : List (LaneRef × β)} {p : LaneRef × β} (hp : p ∈ vs) (hhp : p.1.helper = false) :
    ∃ w, leader vs = some w := by
  rw [leader_eq_argmin]
  cases h : (vs.filter fun v => !v.1.helper).argmin (·.1.idx) with
  | some q => exact ⟨q.2, rfl⟩
  | none =>
    have hmem : p ∈ vs.filter fun v => !v.1.helper := by simp [hp, hhp]
    rw [List.argmin_eq_none.1 h] at hmem
    cases hmem

theorem mem_liveLanes {s : State} {l : LaneRef} : l ∈ s.liveLanes ↔ l ∈ s.issue.lanes ∧ l.helper = false := by
  simp [State.liveLanes]

/-- Live lanes are told apart by their logical indices. -/
theorem live_lane_ext {l m : LaneRef} (hl : l.helper = false) (hm : m.helper = false) (h : l.idx = m.idx) : l = m := by
  cases l
  cases m
  simp_all

/-- The leader's value is that of a live lane of the lowest logical index, where such lanes give one value. -/
theorem leader_of_lowest {β : Type} {vs : List (LaneRef × β)} {p : LaneRef × β} (hp : p ∈ vs) (hhp : p.1.helper = false)
    (hlow : ∀ q ∈ vs, q.1.helper = false → p.1.idx ≤ q.1.idx) (hsame : ∀ q ∈ vs, q.1 = p.1 → q.2 = p.2) :
    leader vs = some p.2 := by
  obtain ⟨w, hw⟩ := exists_leader hp hhp
  rw [leader_eq_argmin, Option.map_eq_some_iff] at hw
  obtain ⟨q, hq, -⟩ := hw
  have hmem : p ∈ vs.filter fun v => !v.1.helper := by simp [hp, hhp]
  have hle : q.1.idx ≤ p.1.idx := List.le_of_mem_argmin (f := fun v : LaneRef × β => v.1.idx) hmem hq
  obtain ⟨hqs, hhq⟩ : q ∈ vs ∧ q.1.helper = false := by simpa using List.argmin_mem hq
  have heq : q.1 = p.1 := live_lane_ext hhq hhp (le_antisymm hle (hlow q hqs hhq))
  rw [leader_eq_argmin, hq, Option.map_some, hsame q hqs heq]

/-- A mask is made of what is asked of its own lanes. -/
theorem rankMask_congr {ls : List LaneRef} {f g : LaneRef → Bool} (h : ∀ l ∈ ls, f l = g l) (s : State) :
    s.rankMask ls f = s.rankMask ls g :=
  List.foldl_ext _ _ _ fun _ l hl => by rw [h l hl]

/-! ### The threads of a path -/

/-- What the lanes of the path give, each from its own thread. -/
def State.giving {β : Type} (s : State) (val : Thread → β) : List (LaneRef × β) :=
  s.issue.lanes.filterMap fun l => (s.lane? l).map fun t => (l, val t)

section Giving

variable {β : Type} {s : State} {val : Thread → β}

theorem mem_giving {p : LaneRef × β} : p ∈ s.giving val ↔ p.1 ∈ s.issue.lanes ∧ ∃ t, s.lane? p.1 = some t ∧ val t = p.2 := by
  simp only [State.giving, List.mem_filterMap, Option.map_eq_some_iff]
  constructor
  · rintro ⟨l, hl, t, ht, rfl⟩
    exact ⟨hl, t, ht, rfl⟩
  · rintro ⟨hl, t, ht, hv⟩
    exact ⟨p.1, hl, t, ht, by rw [hv]⟩

theorem group_eq_giving (s : State) : s.group = s.giving fun t => t := rfl

/-- What is made of the values that the lanes give, the lanes give. -/
theorem map_giving {γ : Type} (f : β → γ) : (s.giving val).map (fun p => (p.1, f p.2)) = s.giving fun t => f (val t) := by
  simp only [State.giving, List.map_filterMap, Option.map_map]
  rfl

/-- Every lane of the path gives a value. -/
theorem giving_lanes (h : ∀ l ∈ s.issue.lanes, ∃ t, s.lane? l = some t) : (s.giving val).map (·.1) = s.issue.lanes := by
  unfold State.giving
  generalize s.issue.lanes = ls at h ⊢
  induction ls with
  | nil => rfl
  | cons l ls ih =>
    obtain ⟨t, ht⟩ := h l (.head _)
    rw [List.filterMap_cons, ht]
    exact congrArg _ (ih fun m hm => h m (.tail _ hm))

theorem giving_live (h : ∀ l ∈ s.issue.lanes, ∃ t, s.lane? l = some t) :
    ((s.giving val).filter fun v => !v.1.helper).map (·.1) = s.liveLanes := by
  rw [State.liveLanes, ← giving_lanes (val := val) h, List.filter_map]
  rfl

/-- Looked up among those that the live lanes give, a live lane's value is that of its thread. -/
theorem find_giving {l : LaneRef} {t : Thread} (hl : l ∈ s.issue.lanes) (hlive : l.helper = false) (ht : s.lane? l = some t) :
    ((s.giving val).filter fun v => !v.1.helper).find? (fun v => v.1 == l) = some (l, val t) := by
  cases h : ((s.giving val).filter fun v => !v.1.helper).find? (fun v => v.1 == l) with
  | none =>
    have hmem : (l, val t) ∈ (s.giving val).filter fun v => !v.1.helper :=
      List.mem_filter.2 ⟨mem_giving.2 ⟨hl, t, ht, rfl⟩, by simp [hlive]⟩
    exact absurd (beq_self_eq_true l) (List.find?_eq_none.1 h _ hmem)
  | some p =>
    obtain ⟨x, y⟩ := p
    have hx : x = l := by simpa using List.find?_some h
    obtain ⟨-, u, hu, rfl⟩ := mem_giving.1 (List.mem_filter.1 (List.mem_of_find?_eq_some h)).1
    subst hx
    cases ht.symm.trans hu
    rfl

end Giving

/-! ### What every lane of a path enters -/

section Entering

variable {β : Type} {s : State} {roles : List Role}

/-- A fold in which each lane of the path adds its value, and which changes nothing. -/
theorem foldl_giving {val : Thread → β} {step : State × List (LaneRef × β) → LaneRef → State × List (LaneRef × β)}
    (h : ∀ l ∈ s.issue.lanes, ∃ t, s.lane? l = some t ∧ ∀ acc, step (s, acc) l = (s, acc ++ [(l, val t)])) :
    s.issue.lanes.foldl step (s, []) = (s, s.giving val) := by
  have key : ∀ (ls : List LaneRef) (acc : List (LaneRef × β)),
      (∀ l ∈ ls, ∃ t, s.lane? l = some t ∧ ∀ acc, step (s, acc) l = (s, acc ++ [(l, val t)])) →
      ls.foldl step (s, acc) = (s, acc ++ ls.filterMap fun l => (s.lane? l).map fun t => (l, val t)) := by
    intro ls
    induction ls with
    | nil => intro acc _; simp
    | cons l ls ih =>
      intro acc h
      obtain ⟨t, ht, hstep⟩ := h l (.head _)
      rw [List.foldl_cons, hstep, ih _ fun m hm => h m (.tail _ hm)]
      simp [ht]
  simpa [State.giving] using key s.issue.lanes [] h

/-- The condition under which every lane of the path reaches the agreement. -/
abbrev State.Enters (s : State) (roles : List Role) : Prop := s.EachLane fun t => checkEntry t roles = none ∧ t.atAnchor = false

/-- Lanes whose word registers pass enter a group-wide instruction with their words. -/
theorem enterGroup_next (hq : s.Quiet) (hp : s.Enters roles) (anchor : Option (Dst × Bool)) (key : Thread → β) :
    s.enterGroup anchor roles key = (s, s.giving key) :=
  foldl_giving fun l hl =>
    have ⟨t, ht, hc, ha⟩ := hp.2 l hl
    ⟨t, ht, fun acc => by simp [ht, hq, hc, ha]⟩

/-- Lanes whose operands pass supply them. -/
theorem collect_next (hq : s.Quiet) (hp : s.EachLane fun t => check t roles = none) (val : Thread → β) :
    s.collect roles val = (s, s.giving val) :=
  foldl_giving fun l hl =>
    have ⟨t, ht, hc⟩ := hp.2 l hl
    ⟨t, ht, fun acc => by simp [ht, hq, hc]⟩

/-- Lanes that pass a further check go on with their threads. -/
theorem screen_next {f : Thread → Option Stop} (hp : s.EachLane fun t => f t = none) :
    s.screen s.issue.lanes f = (s, s.group) :=
  foldl_giving (val := fun t => t) fun l hl =>
    have ⟨t, ht, hf⟩ := hp.2 l hl
    ⟨t, ht, fun acc => by simp [ht, hf]⟩

theorem State.EachLane.exists_thread {p : Thread → Prop} (h : s.EachLane p) : ∀ l ∈ s.issue.lanes, ∃ t, s.lane? l = some t :=
  fun l hl => (h.2 l hl).imp fun _ ht => ht.1

theorem State.EachLane.mono {p q : Thread → Prop} (h : s.EachLane p) (hpq : ∀ t, p t → q t) : s.EachLane q :=
  ⟨h.1, fun l hl => (h.2 l hl).imp fun t ht => ⟨ht.1, hpq t ht.2⟩⟩

end Entering

/-! ### Lanes that disagree -/

/-- Two live lanes of the path, with their threads. -/
structure State.LivePair (s : State) (l m : LaneRef) (t v : Thread) : Prop where
  left : l ∈ s.issue.lanes
  right : m ∈ s.issue.lanes
  left_live : l.helper = false
  right_live : m.helper = false
  left_thread : s.lane? l = some t
  right_thread : s.lane? m = some v

section Disagreement

variable {s : State} {l m : LaneRef} {t v : Thread}

/-- Two live lanes that give different values. -/
theorem not_uniform_giving {β : Type} [DecidableEq β] (h : s.LivePair l m t v) {val : Thread → β} (hne : val t ≠ val v) :
    uniform (s.giving val) = false :=
  uniform_of_ne (p := (l, val t)) (q := (m, val v)) (mem_giving.2 ⟨h.left, t, h.left_thread, rfl⟩)
    (mem_giving.2 ⟨h.right, v, h.right_thread, rfl⟩) h.left_live h.right_live hne

/-- Where there is a live lane, one of those that give values leads. -/
theorem exists_leader_giving {β : Type} (h : s.LivePair l m t v) (val : Thread → β) : ∃ w, leader (s.giving val) = some w :=
  exists_leader (p := (l, val t)) (mem_giving.2 ⟨h.left, t, h.left_thread, rfl⟩) h.left_live

/-- The live lane of the lowest logical index leads those that give values. -/
theorem leader_giving {β : Type} (h : s.LivePair l m t v) (hlow : ∀ x ∈ s.liveLanes, l.idx ≤ x.idx) (val : Thread → β) :
    leader (s.giving val) = some (val t) := by
  have hmem : (l, val t) ∈ s.giving val := mem_giving.2 ⟨h.left, t, h.left_thread, rfl⟩
  refine leader_of_lowest hmem h.left_live (fun q hq hhq => ?_) fun q hq he => ?_
  · exact hlow q.1 (mem_liveLanes.2 ⟨(mem_giving.1 hq).1, hhq⟩)
  · obtain ⟨-, u, hu, hval⟩ := mem_giving.1 hq
    rw [he] at hu
    cases h.left_thread.symm.trans hu
    exact hval.symm

/-- The mask of the live lanes that a transfer sets apart: what it asks of the value that a lane has given is asked of its thread. -/
theorem rankMask_giving {β : Type} {val : Thread → β} (hs : ∀ l ∈ s.issue.lanes, ∃ t, s.lane? l = some t) {g : LaneRef → Bool}
    {f : Thread → Bool}
    (hg : ∀ x u, ((s.giving val).filter fun v => !v.1.helper).find? (fun v => v.1 == x) = some (x, val u) → g x = f u) :
    s.rankMask s.liveLanes g = s.rankMask s.liveLanes fun x => ((s.lane? x).map f).getD false := by
  refine rankMask_congr (fun x hx => ?_) s
  obtain ⟨hmem, hlive⟩ := mem_liveLanes.1 hx
  obtain ⟨u, hu⟩ := hs x hmem
  rw [hg x u (find_giving hmem hlive hu), hu]
  rfl

end Disagreement

end Sys2Proof.Machine
end

section
/-! PROOFS. Branches, transfers and instructions for a whole group (01 R451; 07 R173, R174, R178): lanes that agree take their own way,
and lanes that disagree all trap. -/

namespace Sys2Proof.Machine

open Sys2Proof

/-! ### Branches -/

/-- Whether a lane branches. -/
def State.branches (s : State) (q : BitVec 1) (p : BitVec 6) (l : LaneRef) : Bool :=
  match s.lane? l with
  | some t => t.pred p.toNat != bit1 q
  | none => false

theorem branches_eq_getD (s : State) (q : BitVec 1) (p : BitVec 6) (l : LaneRef) :
    s.branches q p l = ((s.lane? l).map fun t => t.pred p.toNat != bit1 q).getD false := by
  unfold State.branches
  cases s.lane? l <;> rfl

theorem branches_of_lane {s : State} {l : LaneRef} {t : Thread} (h : s.lane? l = some t) (q : BitVec 1) (p : BitVec 6) :
    s.branches q p l = (t.pred p.toNat != bit1 q) := by
  rw [branches_eq_getD, h]
  rfl

/-- Lanes that each make a change of their own thread. -/
theorem lanes_eq_eachLane (s : State) (g : Thread → Thread) : s.lanes (fun s l t => (s.setLane l (g t), none)) = s.eachLane g := by
  refine List.foldl_ext _ _ _ fun u l _ => ?_
  unfold State.laneStep State.modLane
  cases u.lane? l <;> rfl

/-- `br`: with U set and live lanes that differ, all of these trap; else each lane goes its own way. -/
theorem exec_br (o : BitVec 18) (q : BitVec 1) (p : BitVec 6) (u : BitVec 1) (s : State) : exec (.br o q p u) s =
    if bit1 u ∧ !uniform (s.liveLanes.map fun l => (l, s.branches q p l)) then
      .next (s.trapLanes s.liveLanes 4 1 0 (s.rankMask s.liveLanes (s.branches q p)))
    else .next (s.eachLane fun t => if t.pred p.toNat != bit1 q then t.goTo (t.pc + 2 * o.signExtend 64) else t.advance 4) := by
  rw [← lanes_eq_eachLane]
  rfl

/-- Settles O29: where U is clear, or the live lanes are of one outcome, none traps. -/
theorem branchCompletes : Obligations.BranchCompletes := by
  intro o q p u s _ hu
  rw [exec_br, if_neg]
  rintro ⟨hset, hdiffer⟩
  rcases hu with rfl | ⟨b, hb⟩
  · cases hset
  · have hone : ∀ x ∈ s.liveLanes.map fun l => (l, s.branches q p l), x.2 = b := by
      intro x hx
      obtain ⟨l, hl, rfl⟩ := List.mem_map.1 hx
      obtain ⟨hmem, hlive⟩ := mem_liveLanes.1 hl
      rw [branches_eq_getD, hb l hmem hlive]
      rfl
    rw [(uniform_iff _).2 fun x hx y hy _ _ => (hone x hx).trans (hone y hy).symm] at hdiffer
    cases hdiffer

/-! ### Branches and transfers that disagree -/

section Disagreement

variable {s : State} {l m : LaneRef} {t v : Thread}

/-- Two live lanes whose predicates differ, at a branch with U set. -/
theorem exec_br_disagrees (h : s.LivePair l m t v) {p : BitVec 6} (hne : t.pred p.toNat ≠ v.pred p.toNat) (o : BitVec 18)
    (q : BitVec 1) : exec (.br o q p 1) s = .next (s.trapLanes s.liveLanes 4 1 0 (s.rankMask s.liveLanes (s.branches q p))) := by
  have hmem : ∀ x ∈ s.issue.lanes, x.helper = false → (x, s.branches q p x) ∈ s.liveLanes.map fun l => (l, s.branches q p l) :=
    fun x hx hh => List.mem_map.2 ⟨x, mem_liveLanes.2 ⟨hx, hh⟩, rfl⟩
  have hdiffer : s.branches q p l ≠ s.branches q p m := by
    rw [branches_of_lane h.left_thread, branches_of_lane h.right_thread]
    simpa using hne
  have huni := uniform_of_ne (hmem l h.left h.left_live) (hmem m h.right h.right_live) h.left_live h.right_live hdiffer
  rw [exec_br, if_pos ⟨rfl, by rw [huni]; rfl⟩]

/-- A transfer with U set to different targets. -/
theorem indirect_disagrees (h : s.LivePair l m t v) (hlow : ∀ x ∈ s.liveLanes, l.idx ≤ x.idx) (hq : s.Quiet) {a : BitVec 7}
    (hp : s.EachLane fun u => check u [.src64 a] = none) (hne : t.val64 a ≠ v.val64 a)
    (go : State → LaneRef → Thread → Dword → LaneOut) : s.indirect 1 a go = s.trapLanes s.liveLanes 4 2 0
      (s.rankMask s.liveLanes fun x => ((s.lane? x).map fun y => y.val64 a != t.val64 a).getD false) := by
  unfold State.indirect
  rw [collect_next hq hp]
  dsimp only
  rw [if_pos ⟨rfl, by rw [not_uniform_giving h hne]; rfl⟩, giving_live hp.exists_thread, leader_giving h hlow,
    rankMask_giving (val := fun u => u.val64 a) hp.exists_thread]
  intro x u hx
  rw [hx]
  rfl

/-- A fold whose steps do nothing to a state leaves it. -/
theorem foldl_stays {α β : Type} {step : α → β → α} {a : α} {xs : List β} (h : ∀ x ∈ xs, step a x = a) : xs.foldl step a = a :=
  List.foldlRecOn (motive := (· = a)) xs step rfl fun b hb x hx => by rw [hb, h x hx]

/-- The return address that `ret` pops. -/
def Thread.returnTop (t : Thread) : Dword := nth t.ret 0 0

/-- Where every lane holds a return address, each gives its own. -/
theorem pops_giving (hp : s.EachLane fun u => u.rsd ≠ 0) {f : LaneRef → Option (LaneRef × Dword)}
    (hf : ∀ x u, s.lane? x = some u → u.rsd ≠ 0 → f x = some (x, u.returnTop)) :
    s.issue.lanes.filterMap f = s.giving Thread.returnTop :=
  List.filterMap_congr fun x hx => by
    obtain ⟨u, hu, hr⟩ := hp.2 x hx
    rw [hf x u hu hr, hu]
    rfl

/-- `ret` with U set and different return addresses. -/
theorem exec_ret_disagrees (h : s.LivePair l m t v) (hlow : ∀ x ∈ s.liveLanes, l.idx ≤ x.idx)
    (hp : s.EachLane fun u => u.rsd ≠ 0) (hne : t.returnTop ≠ v.returnTop) : exec (.ret 1) s = .next (s.trapLanes s.liveLanes 4 3 0
      (s.rankMask s.liveLanes fun x => ((s.lane? x).map fun y => y.returnTop != t.returnTop).getD false)) := by
  show execRet 1 s = _
  unfold execRet
  rw [pops_giving hp fun x u hu hr => by simp only [hu, if_neg hr, Thread.returnTop], foldl_stays fun x hx => ?_]
  · dsimp only
    rw [if_pos ⟨rfl, by rw [not_uniform_giving h hne]; rfl⟩, giving_live hp.exists_thread, leader_giving h hlow,
      rankMask_giving (val := Thread.returnTop) hp.exists_thread]
    intro x u hx
    rw [hx]
    rfl
  · obtain ⟨u, hu, hr⟩ := hp.2 x hx
    simp only [hu, if_neg hr]

/-! ### Shared words that disagree -/

/-- A group-wide instruction whose shared words differ: no lane takes part, and the live lanes trap. -/
theorem agree_disagrees {β : Type} [DecidableEq β] (h : s.LivePair l m t v) (hq : s.Quiet) {roles : List Role}
    (hp : s.Enters roles) {word : Option (Nat × Nat)} (hword : word = none) {key : Thread → β} (hne : key t ≠ key v)
    (anchor : Option (Dst × Bool)) (cause sub : Nat) :
    s.agree word anchor roles key cause sub = (s.trapLanes s.liveLanes cause sub 0 0, none) := by
  obtain ⟨w, hw⟩ := exists_leader_giving h key
  have hlive : ((s.giving key).map (·.1)).filter (fun l => !l.helper) = s.liveLanes := by rw [giving_lanes hp.exists_thread]; rfl
  rw [hword]
  unfold State.agree
  simp only [enterGroup_next hq hp, hw, not_uniform_giving h hne, hlive, Bool.false_eq_true, if_false]

end Disagreement

section Groups

variable {s : State} {l m : LaneRef} {t v : Thread}

/-! Each operation of a whole group ends where its lanes disagree. -/

theorem groupConvert_disagrees (h : s.LivePair l m t v) (hq : s.Quiet) {d a b : BitVec 7} (hp : s.Enters [.src64 b])
    (hword : firstSome [cvtSource b, cvtRun a, (Role.dst d).illegal] = none)
    (hne : ¬(t.val64 b = v.val64 b ∧ converting.mode b t = converting.mode b v)) (n : BitVec 1) (plan : Ccw → CvPlan) (res : RunResult) :
    groupConvert n d a b plan res s = .next (s.trapLanes s.liveLanes 0x10 0x20 0 0) := by
  have hkey : (t.val64 b, converting.mode b t) ≠ (v.val64 b, converting.mode b v) := fun e => hne (Prod.mk.inj e)
  have hagree := agree_disagrees (key := fun t => (t.val64 b, converting.mode b t)) h hq hp hword hkey (some (.r32 d, bit1 n)) 0x10 0x20
  unfold converting.mode at hagree
  unfold groupConvert
  dsimp only
  rw [hagree]

theorem moveAcc_disagrees (h : s.LivePair l m t v) (hq : s.Quiet) {roles : List Role} (hp : s.Enters roles) {word : Option (Nat × Nat)}
    (hword : word = none) {key : Thread → Word × Dword × Nat} (hne : key t ≠ key v) (d : BitVec 7) (plan : Word → Dword → MovePlan)
    (eff : State → List (LaneRef × Thread) → Region → Word → Dword → Nat → State) :
    moveAcc word roles d key plan eff s = .next (s.trapLanes s.liveLanes 0x10 0x20 0 0) := by
  unfold moveAcc
  rw [agree_disagrees h hq hp hword hne]

theorem regionOp_disagrees (h : s.LivePair l m t v) (hq : s.Quiet) {a : BitVec 7} (hp : s.Enters [.src a]) (hword : mxSource a = none)
    (hne : t.val a ≠ v.val a) (bad : State → Region → Option Stop) (f : State → List LaneRef → Region → State) :
    regionOp a bad f s = .next (s.trapLanes s.liveLanes 0x10 0x20 0 0) := by
  unfold regionOp
  rw [agree_disagrees (key := fun t => t.val a) h hq hp hword hne]

theorem ringInstr_disagrees (h : s.LivePair l m t v) (hq : s.Quiet) {d : BitVec 7} (hp : s.Enters [.src64 d]) {word : Option (Nat × Nat)}
    (hword : firstSome [descField d, word] = none) (hne : t.val64 d ≠ v.val64 d) (extra : List Role)
    (f : State → Ring → List LaneRef → State) : ringInstr word extra d f s = .next (s.trapLanes s.liveLanes 4 0x10 0 0) := by
  unfold ringInstr
  rw [agree_disagrees (key := fun t => t.val64 d) h hq hp hword hne]

theorem execAalloc_disagrees (h : s.LivePair l m t v) (hq : s.Quiet) {p : BitVec 6} {a d : BitVec 7} (hp : s.Enters [.src a, .dst d])
    (hword : firstSome [mxSource a, (Role.dst d).illegal, (Role.pdst p).illegal] = none) (hne : t.val a ≠ v.val a) :
    execAalloc p a d s = .next (s.trapLanes s.liveLanes 0x10 0x20 0 0) := by
  unfold execAalloc
  dsimp only
  rw [agree_disagrees (key := fun t => t.val a) h hq hp hword hne]

theorem execSload_disagrees (h : s.LivePair l m t v) (hq : s.Quiet) {sc : BitVec 3} {a d : BitVec 7} (hp : s.Enters [.src64 a])
    (hword : (recordLoad sc a d).word) (hne : t.val64 a ≠ v.val64 a) :
    execSload sc a d s = .next (s.trapLanes s.liveLanes 0x10 0x70 0 0) := by
  obtain ⟨hscope, hspecial, hlegal, hrun⟩ := hword
  unfold execSload
  dsimp only
  rw [if_neg (Nat.not_le.2 hscope), if_neg hspecial, hlegal, hrun,
    agree_disagrees (word := firstSome [none, none, none]) (key := fun t => t.val64 a) h hq hp rfl hne]

/-- The words on which the lanes of a gather or scatter agree: its descriptor and its count. -/
def gsWords (c d : BitVec 7) (t : Thread) : List Word × Nat := (descRun t d 13, (t.val c).toNat)

/-- A gather or scatter whose descriptors or counts differ. -/
theorem gsInstr_disagrees (h : s.LivePair l m t v) (hq : s.Quiet) {sub : Nat} {c d : BitVec 7}
    (hword : firstSome [descField d, (Role.src c).illegal] = none)
    (hp : s.EachLane fun u => checkEntry u [.src c] = none ∧ u.atAnchor = false ∧ runBeyond u d 13 = none)
    (hne : ¬(descRun t d 13 = descRun v d 13 ∧ t.val c = v.val c)) (tag : BitVec 6) :
    gsInstr sub tag c d s = .next (s.trapLanes s.liveLanes 0x10 0x50 0 0) := by
  have hdiffer : gsWords c d t ≠ gsWords c d v := fun e => hne ⟨congrArg Prod.fst e, BitVec.eq_of_toNat_eq (congrArg Prod.snd e)⟩
  obtain ⟨w, hw⟩ := exists_leader_giving h (gsWords c d)
  have hwords : (s.giving fun u => u).map (fun p => (p.1, descRun p.2 d 13, (p.2.val c).toNat)) = s.giving (gsWords c d) :=
    map_giving (gsWords c d)
  unfold gsInstr
  simp only [settleRun_quiet _ _ _ _ hq, hword, enterGroup_next hq (hp.mono fun _ hu => ⟨hu.1, hu.2.1⟩), giving_lanes hp.exists_thread,
    screen_next (hp.mono fun _ hu => hu.2.2), group_eq_giving, hwords, hw, not_uniform_giving h hdiffer, Bool.not_false, if_true]
  rfl

/-- Each instruction of the table, where two live lanes differ in its shared words. -/
theorem groupForm_disagrees (h : s.LivePair l m t v) (hq : s.Quiet) {i : Instr} {f : GroupForm} (hf : groupForm i = some f)
    (hword : f.word) (hp : s.EachLane fun u => checkEntry u f.roles = none ∧ u.atAnchor = false ∧ f.enters u) (hne : ¬f.same t v) :
    exec i s = .next (s.trapLanes s.liveLanes f.cause f.sub 0 0) := by
  have hentry : s.Enters f.roles := hp.mono fun _ hu => ⟨hu.1, hu.2.1⟩
  cases i with
  | qnt n b a d | dqnt n b a d | qscl n b a d | rot n b a d | irot n b a d =>
    cases hf
    exact groupConvert_disagrees h hq hentry hword hne n _ _
  | ard b a d =>
    cases hf
    exact moveAcc_disagrees (key := ardKey a b) h hq hentry hword hne d _ _
  | awr b a d =>
    cases hf
    exact moveAcc_disagrees (key := fun t => (t.val a, t.val64 b, 0)) h hq hentry hword hne d _ _
  | asv k a d | arst k a d =>
    cases hf
    exact moveAcc_disagrees (key := fun t => (t.val a, 0, 0)) h hq hentry hword hne d _ _
  | afree a =>
    cases hf
    exact (regionOp_disagrees h hq hentry hword hne _ _ : execAfree a s = _)
  | aacq a =>
    cases hf
    exact (regionOp_disagrees h hq hentry hword hne _ _ : execAacq a s = _)
  | arel a =>
    cases hf
    exact (regionOp_disagrees h hq hentry hword hne _ _ : execArel a s = _)
  | azero a =>
    cases hf
    exact (regionOp_disagrees h hq hentry hword hne _ _ : execAzero a s = _)
  | aalloc p a d =>
    cases hf
    exact execAalloc_disagrees h hq hentry hword hne
  | gsg tag c d | gsgm tag c d | gss tag c d | gssm tag c d =>
    cases hf
    exact gsInstr_disagrees h hq hword hp hne tag
  | sload sc a d =>
    cases hf
    exact execSload_disagrees h hq hentry hword hne
  | awaitf c d =>
    cases hf
    exact (ringInstr_disagrees h hq hentry hword hne _ _ : execAwaitf c d s = _)
  | relslot d =>
    cases hf
    exact (ringInstr_disagrees h hq hentry hword hne _ _ : execRelslot d s = _)
  | _ => cases hf

end Groups

/-- Settles O30: lanes that disagree at a branch, at a transfer, or on the shared words of a group-wide instruction. -/
theorem branchDisagreementTraps : Obligations.BranchDisagreementTraps := by
  intro s l m t v hl hm hhl hhm ht hv
  have h : s.LivePair l m t v := ⟨hl, hm, hhl, hhm, ht, hv⟩
  refine ⟨fun o q p hne => ?_, fun a i hi hq hp hlow hne => ?_, fun hp hlow hne => exec_ret_disagrees h hlow hp hne,
    fun i f hf hword hq hp hne => groupForm_disagrees h hq hf hword hp hne⟩
  · rw [exec_br_disagrees h hne, funext (branches_eq_getD s q p)]
  · have hout := fun go => congrArg (Host.Outcome.next : State → Out) (indirect_disagrees h hlow hq hp hne go)
    rcases hi with rfl | rfl
    · exact hout _
    · exact hout _

end Sys2Proof.Machine
end

section
/-! PROOFS. The exchange network (08 R199-R206, R209): an instruction of exchForm is the shared exchange of R194 with the operands
and the result of the table, in which every lane of the path that passes its checks takes part. -/

namespace Sys2Proof.Machine

open Sys2Proof

/-- Settles O18: the instruction is the exchange of its form, which every lane enters; `test_exchange` holds a path that meets the
conditions for each instruction of the table. -/
theorem exchangeCompletes : Obligations.ExchangeCompletes := by
  intro i f s hf hq he
  exact exec_of_exchForm hf hq he

end Sys2Proof.Machine
end

section
/-! PROOFS. Sort commands, collective commands and commands to the device (09 R226-R229; 14 R358, R362; 15 R370-R372; 17 R400-R402,
R410) on one live thread: each kind of instruction, in a lane that passes its checks, does what its table says. -/

namespace Sys2Proof.Machine

open Sys2Proof

/-! ### Checks that pass -/

/-- Of operands whose checks pass, the checks of any pass. -/
theorem check_of_subset {t : Thread} {qs rs : List Role} (hsub : qs ⊆ rs) (h : check t rs = none) : check t qs = none := by
  have hall := (firstSome_none _).1 h
  have hmap : ∀ {β : Type} (f : Role → β), qs.map f ⊆ rs.map f := fun f => List.map_subset f hsub
  have hfields : checkFields t qs = none := by
    have hrs := (firstSome_none _).1 (Option.map_eq_none_iff.1 (hall (checkFields t rs) (by simp)))
    refine Option.map_eq_none_iff.2 ((firstSome_none _).2 fun x hx => hrs x ?_)
    simp only [List.mem_append] at hx ⊢
    exact hx.imp (Or.imp (Or.imp (hmap _ ·) (hmap _ ·)) (hmap _ ·)) (hmap _ ·)
  refine (firstSome_none _).2 fun x hx => ?_
  simp only [List.cons_append, List.mem_cons, List.mem_append] at hx hall
  rcases hx with rfl | hx
  · exact hfields
  · exact hall x (.inr (hx.imp (hmap _ ·) (hmap _ ·)))

/-- What the word and the windows decide of a source that passes. -/
theorem fields_of_check_src {t : Thread} {c : BitVec 7} (h : check t [.src c] = none) :
    (Role.src c).illegal = none ∧ (Role.src c).noLatch t = none ∧ (Role.src c).beyond t = none := by
  have hall := (firstSome_none _).1 (Option.map_eq_none_iff.1 ((firstSome_none _).1 h _ (.head _)))
  exact ⟨hall _ (by simp), hall _ (by simp), hall _ (by simp)⟩

/-! ### Commands to the device -/

/-- A lane whose fields, tag and operands pass: the command acts. -/
theorem deviceOp_solo {tag : Option (BitVec 6)} {c d : BitVec 7} {roles : List Role} (f : State → LaneRef → Thread → LaneOut) {s : State}
    {l : LaneRef} {t : Thread} (h : s.Solo l t (Role.dst c :: roles)) (hdesc : descField d = none) (hcnt : cntDest c = none)
    (htag : ∀ k, tag = some k → s.badTag k.toNat = none) : deviceOp tag c d roles f s = .next (endLane l (f s l t)) := by
  have htag : (tag.bind fun k => s.badTag k.toNat) = none := Option.bind_eq_none_iff.2 htag
  have hpoison : poisonOf t roles = none := poisonOf_of_check (check_of_subset (List.subset_cons_self _ _) h.passes)
  have hstops : firstSome [(descField d).map plainStop, (cntDest c).map plainStop, (tag.bind fun k => s.badTag k.toNat).map plainStop,
      checkEntry t (Role.dst c :: roles)] = none := by
    rw [hdesc, hcnt, htag, checkEntry_of_check h.passes]
    rfl
  unfold deviceOp
  rw [lanes_solo s l t _ _ h]
  simp only [settleRoles_quiet _ _ _ _ h.quiet, h.alone.2, Option.getD_some, hstops, h.live, Bool.false_eq_true, if_false, hpoison]

/-- A command of the table `device`, from what its own lane function answers. -/
theorem deviceOp_of_device {tag : Option (BitVec 6)} {c d : BitVec 7} {roles : List Role} {ok : State → State → LaneRef → Thread → Prop}
    {eff : State → State → LaneRef → Thread → State} {f : State → LaneRef → Thread → LaneOut} {s : State} {l : LaneRef} {t : Thread}
    (h : s.Solo l t (device tag c d roles ok eff).roles) (hok : (device tag c d roles ok eff).ok s l t)
    (hf : ok s (s.releaseAt (s.who l) 3) l t → f s l t = (eff s (s.releaseAt (s.who l) 3) l t, none)) :
    deviceOp tag c d roles f s = .next ((device tag c d roles ok eff).eff s l t) := by
  obtain ⟨hdesc, hcnt, htag, hown⟩ := hok
  rw [deviceOp_solo f h hdesc hcnt htag, hf hown]
  rfl

/-- `launch`: a record that is read, for a queue that takes it. -/
theorem postLaunch_posting {tag : Option (BitVec 6)} {c d : BitVec 7} {s : State} {l : LaneRef} {t : Thread}
    (h : s.Solo l t (posting tag c d).roles) (hok : (posting tag c d).ok s l t) :
    deviceOp tag c d [.src64 d, .rw d 3] (fun s l t => s.postLaunch (tag.map (·.toNat)) c d l t) s =
      .next ((posting tag c d).eff s l t) := by
  refine deviceOp_of_device h hok fun ⟨bs, hread, hpost⟩ => ?_
  unfold State.postLaunch
  dsimp only
  rcases hrd : (s.releaseAt (s.who l) 3).readPosted (s.who l) (t.val64 d).toNat with ⟨s1, r⟩
  rw [hrd] at hread hpost
  cases hread
  exact if_pos hpost

/-- `fxrun`: a payload that is read and accepted. -/
theorem runKernel_dispatching {tag : Option (BitVec 6)} {c d : BitVec 7} {s : State} {l : LaneRef} {t : Thread}
    (h : s.Solo l t (dispatching tag c d).roles) (hok : (dispatching tag c d).ok s l t) :
    deviceOp tag c d [.src64 d] (fun s l t => s.runKernel (tag.map (·.toNat)) c d l t) s =
      .next ((dispatching tag c d).eff s l t) := by
  refine deviceOp_of_device h hok fun ⟨bs, hread, hacc⟩ => ?_
  unfold State.runKernel
  dsimp only
  rcases hrd : (s.releaseAt (s.who l) 3).readPosted (s.who l) (t.val64 d).toNat with ⟨s1, r⟩
  rw [hrd] at hread hacc
  cases hread
  simp only [hacc, reduceCtorEq, if_false]

/-- `spawn` and `spawn.now`: an even entry, and a bin that takes the thread. -/
theorem spawnOp_spawning {now : Bool} {n : BitVec 3} {c d : BitVec 7} {s : State} {l : LaneRef} {t : Thread}
    (h : s.Solo l t (spawning now n c d).roles) (hok : (spawning now n c d).ok s l t) :
    spawnOp now n c d s = .next ((spawning now n c d).eff s l t) := by
  have hn : n.toNat ≤ 4 := hok.2.2.2.1
  unfold spawnOp
  rw [wordCheck_none (if_neg (Nat.not_lt.2 hn))]
  refine deviceOp_of_device h hok fun ⟨_, heven, htaken⟩ => ?_
  simp only [heven, Nat.zero_ne_one, if_false]
  generalize (s.releaseAt (s.who l) 3).spawnThread now (t.val64 d) (t.regRun (t.absReg d.toNat + 2) n.toNat) = x at htaken ⊢
  rw [htaken]
  rfl

/-- `tgsig`: a node of the issuing queue that the decrement lowers. -/
theorem execTgsig_solo {c d : BitVec 7} {f : SoloForm} {s : State} {l : LaneRef} {t : Thread} (hf : deviceForm (.tgsig c d) = some f)
    (h : s.Solo l t f.roles) (hok : f.ok s l t) : execTgsig c d s = .next (f.eff s l t) := by
  cases hf
  refine deviceOp_of_device h hok fun ⟨q, hq, hlow⟩ => ?_
  simp only [hq]
  exact congrArg (fun v : Word => (State.modLane _ l fun t => (t.setVal c v).advance 4, none)) (if_pos hlow)

/-- `binflush`: a filling bin of the entry closes. -/
theorem execBinflush_solo {c d : BitVec 7} {f : SoloForm} {s : State} {l : LaneRef} {t : Thread}
    (hf : deviceForm (.binflush c d) = some f) (h : s.Solo l t f.roles) (hok : f.ok s l t) :
    execBinflush c d s = .next (f.eff s l t) := by
  cases hf
  refine deviceOp_of_device h hok fun ⟨x, hx⟩ => ?_
  simp only [hx]

/-- `fxabort`: it has no condition beyond its fields. -/
theorem execFxabort_solo {c d : BitVec 7} {f : SoloForm} {s : State} {l : LaneRef} {t : Thread}
    (hf : deviceForm (.fxabort c d) = some f) (h : s.Solo l t f.roles) (hok : f.ok s l t) :
    execFxabort c d s = .next (f.eff s l t) := by
  cases hf
  refine deviceOp_of_device h hok fun _ => ?_
  generalize (s.releaseAt (s.who l) 3).abortPayload (t.val64 d).toNat = x
  rfl

/-! ### Sorts and collectives -/

/-- A sort command whose descriptor and tag pass, with room for it. -/
theorem kseInstr_sorting {sub mode : Nat} {tag : BitVec 6} {c d : BitVec 7} {s : State} {l : LaneRef} {t : Thread}
    (h : s.Solo l t (sorting sub mode tag c d).roles) (hok : (sorting sub mode tag c d).ok s l t) :
    kseInstr sub mode tag c d s = .next ((sorting sub mode tag c d).eff s l t) := by
  obtain ⟨hdesc, hrun, hearly, htag, hlate, hroom, hheld⟩ := hok
  have hsrc : check t [.src c] = none := h.passes
  obtain ⟨hlegal, hlatch, hbeyond⟩ := fields_of_check_src hsrc
  unfold kseInstr
  rw [wordCheck_none hdesc, lanes_solo s l t _ _ h]
  simp only [settleLaneRun_quiet _ _ _ _ h.quiet, settleRoles_quiet _ _ _ _ h.quiet, h.alone.2, Option.getD_some, State.kseLane, h.live,
    hlegal, hlatch, hbeyond, hrun, hearly, htag, hlate, checkEntry_of_check hsrc, poisonOf_of_check hsrc, ite_self, Option.map_none,
    Bool.false_eq_true, if_false, firstSome, Nat.not_le.2 hroom, hheld, or_self, endLane, sorting]

/-- A collective command whose descriptor and tag pass, of a launch that has lost no rank, with room for it. -/
theorem collInstr_joining {sub : Nat} {tag : BitVec 6} {c d : BitVec 7} {s : State} {l : LaneRef} {t : Thread}
    (h : s.Solo l t (joining sub tag c d).roles) (hok : (joining sub tag c d).ok s l t) :
    collInstr sub tag c d s = .next ((joining sub tag c d).eff s l t) := by
  obtain ⟨hdesc, hcnt, heven, hrun, hearly, htag, hlate, hranks, hheld⟩ := hok
  have hown : check t [.dst c, .rw d 12] = none := h.passes
  have hdst : check t [.dst c] = none := check_of_subset (by simp) hown
  unfold collInstr
  rw [wordCheck_none (by rw [hdesc, hcnt]; rfl), lanes_solo s l t _ _ h]
  simp only [settleLaneRun_quiet _ _ _ _ h.quiet, settleRoles_quiet _ _ _ _ h.quiet, h.alone.2, Option.getD_some, State.collLane, h.live,
    hrun, hearly, htag, hlate, hown, hdst, heven, stopIf, ite_self, Option.map_none, Bool.false_eq_true, if_false, Nat.reduceBEq,
    List.cons_append, List.nil_append, firstSome, hranks, hheld, ne_eq, not_true_eq_false, endLane, joining]

/-- `cfail`: it has no condition beyond its fields. -/
theorem execCfail_solo {c d : BitVec 7} {f : SoloForm} {s : State} {l : LaneRef} {t : Thread} (hf : deviceForm (.cfail c d) = some f)
    (h : s.Solo l t f.roles) (hok : f.ok s l t) : execCfail c d s = .next (f.eff s l t) := by
  cases hf
  obtain ⟨hdesc, hcnt⟩ := hok
  unfold execCfail
  rw [wordCheck_none (by rw [hdesc, hcnt]; rfl), stateOp_solo _ _ s l t h]
  simp only [h.live, Bool.false_eq_true, if_false, endLane]

/-! ### Key rings -/

/-- The record that a lane emits, with the address of its header. -/
def Thread.emitted (t : Thread) (l : LaneRef) (d : BitVec 7) : Emit :=
  let w := descRun t d 5
  ⟨l, pairAt w 0, wordBytes (wordAt w 2) ++ wordBytes (wordAt w 3) ++ wordBytes (wordAt w 4) ++ leOf 4 0⟩

/-- A live lane with room in its count of outstanding stores takes part with its record. -/
theorem emitLane_solo {c d : BitVec 7} {s : State} {l : LaneRef} {t : Thread} (h : s.Solo l t [.dst64 c, .src64 d, .rw d 5])
    (hroom : t.full = false) : s.emitLane c d l = (s, [t.emitted l d]) := by
  simp only [State.emitLane, h.alone.2, settleRoles_quiet _ _ _ _ h.quiet, Option.getD_some, checkEntry_of_check h.passes,
    poisonOf_of_check h.passes, h.live, hroom, Bool.false_eq_true, if_false]
  rfl

/-- One lane has one header. -/
theorem headersOf_singleton (e : Emit) : headersOf [e] = [e.hdr] := rfl

theorem filter_hdr_singleton (e : Emit) : ([e].filter fun x => x.hdr == e.hdr) = [e] := by simp

/-- The one lane of a header that passes: CNT advances by 1, and the record goes to the slot that CNT named, where the ring has it. -/
theorem emitGroup_one {s s1 : State} {c : BitVec 7} {e : Emit} {p : Place} {r : KeyRing}
    (h : s.emitHeader [s.who e.lane] e.hdr = (s1, .ok (p, r))) : s.emitGroup c e.hdr [e] =
      let s2 := s1.homeWrite (p.pa + 16) (leOf 8 (r.cnt + 1))
      let slot := r.cnt % 2 ^ 64
      (if slot < r.cap then s2.emitStore (s2.who e.lane) ((r.rbase + 16 * slot) % 2 ^ 64) e.rcd else s2).modLane e.lane fun t =>
        (t.setVal64 c (BitVec.ofNat 64 slot)).advance 4 := by
  unfold State.emitGroup
  rw [List.map_singleton, h]
  rfl

/-- `kemit`: its one lane claims the slot that the ring's count names. -/
theorem execKemit_solo {c d : BitVec 7} {f : SoloForm} {s : State} {l : LaneRef} {t : Thread} (hf : deviceForm (.kemit c d) = some f)
    (h : s.Solo l t f.roles) (hok : f.ok s l t) : execKemit c d s = .next (f.eff s l t) := by
  cases hf
  obtain ⟨hdesc, hcnt, hroom, ⟨p, r⟩, hhdr⟩ := hok
  have hheader : s.emitHeader [s.who l] (t.emitted l d).hdr = ((s.emitHeader [s.who l] (t.emitted l d).hdr).1, .ok (p, r)) :=
    Prod.ext rfl hhdr
  unfold execKemit
  rw [wordCheck_none (by rw [hdesc, hcnt]; rfl), h.alone.1]
  simp only [List.foldl_cons, List.foldl_nil, emitLane_solo h hroom, List.nil_append, headersOf_singleton, filter_hdr_singleton]
  rw [emitGroup_one hheader]
  unfold Thread.emitted at hheader ⊢
  dsimp only at hheader ⊢
  rw [hheader]

/-- Settles O26: each instruction of the table is one of the operations above. -/
theorem deviceCompletes : Obligations.DeviceCompletes := by
  intro i f s l t hf h hok
  cases i with
  | kemit c d => exact execKemit_solo hf h hok
  | ksort tag c d | ksortBat tag c d | ksel tag c d | kselBat tag c d | kcs tag c d =>
    cases hf
    exact kseInstr_sorting h hok
  | ocomp tag c d | ored tag c d | cbar tag c d =>
    cases hf
    exact collInstr_joining h hok
  | cfail c d => exact execCfail_solo hf h hok
  | launch c d | launchSig tag c d =>
    cases hf
    exact postLaunch_posting h hok
  | spawn n c d | spawnNow n c d =>
    cases hf
    exact spawnOp_spawning h hok
  | tgsig c d => exact execTgsig_solo hf h hok
  | binflush c d => exact execBinflush_solo hf h hok
  | fxrun c d | fxrunSig tag c d =>
    cases hf
    exact runKernel_dispatching h hok
  | fxabort c d => exact execFxabort_solo hf h hok
  | _ => cases hf

end Sys2Proof.Machine
end

section
/-! PROOFS. Queues, launches, blocks and bins (09 R210-R235). Every event of launchEvent does what the table says, but for the end of a
time slice in a state whose queues are no sparse map: there `exec` puts the queue in its place among the keys, and the table changes it
where it stands. -/

namespace Sys2Proof.Machine

open Sys2Proof

/-! ### A sparse map changed at a key -/

section SparseMaps

variable {β : Type} {m : SMap β} {k : Nat}

theorem sdel_of_keysAbove (h : KeysAbove k m) : sdel m k = m :=
  List.filter_eq_self.2 fun p hp => decide_eq_true (h p hp).ne'

theorem smod_of_keysAbove (h : KeysAbove k m) (f : β → β) : smod m k f = m := by
  unfold smod
  rw [List.map_congr_left fun p hp => if_neg (h p hp).ne', List.map_id']

theorem splace_of_keysAbove (h : KeysAbove k m) (v : β) : splace k v m = (k, v) :: m := by
  cases m with
  | nil => rfl
  | cons p m => exact if_pos (h p (.head _))

theorem mem_of_sget {v : β} (h : sget m k = some v) : (k, v) ∈ m := by
  induction m with
  | nil => cases h
  | cons p m ih =>
    unfold sget at h
    split at h
    · next hk =>
      cases hk
      cases h
      exact .head _
    · exact .tail _ (ih h)

/-- Where the keys rise, a value changed at its key is the changed value put there. -/
theorem sput_eq_smod (hm : keysRise m = true) {v : β} (hv : sget m k = some v) (f : β → β) : sput m k (f v) = smod m k f := by
  induction m with
  | nil => cases hv
  | cons p m ih =>
    obtain ⟨habove, hrise⟩ := (keysRise_cons p m).1 hm
    by_cases hk : p.1 = k
    · subst hk
      obtain rfl : p.2 = v := by simpa [sget] using hv
      have hdel : sdel (p :: m) p.1 = m := by simpa [sdel] using sdel_of_keysAbove habove
      have hmod : smod (p :: m) p.1 f = (p.1, f p.2) :: m := by simpa [smod] using smod_of_keysAbove habove f
      rw [sput, hdel, hmod, splace_of_keysAbove habove]
    · have hv : sget m k = some v := by simpa [sget, hk] using hv
      have hlt : ¬k < p.1 := (habove _ (mem_of_sget hv)).le.not_gt
      have hdel : sdel (p :: m) k = p :: sdel m k := by simp [sdel, hk]
      have hmod : smod (p :: m) k f = p :: smod m k f := by simp [smod, hk]
      rw [sput, hdel, hmod, ← ih hrise hv, splace, if_neg hlt, sput]

end SparseMaps

section Events

variable {s : State} {f : EventForm}

/-! ### Queues and records -/

theorem execQtenWrite_of_ok {v : Word} (hf : launchEvent (.qtenWrite v) = some f) (h : f.ok s) : execQtenWrite v s = .next (f.eff s) := by
  cases hf
  exact congrArg _ (if_pos h)

theorem execQueueTableWake_of_ok {line : Nat} (hf : launchEvent (.queueTableWake line) = some f) (h : f.ok s) :
    execQueueTableWake line s = .next (f.eff s) := by
  cases hf
  obtain ⟨hwatch, hline⟩ := h
  exact if_neg (by simp [hwatch, hline])

theorem execTlbInvalidationComplete_of_ok {id : Nat} (hf : launchEvent (.tlbInvalidationComplete id) = some f) (h : f.ok s) :
    execTlbInvalidationComplete id s = .next (f.eff s) := by
  cases hf
  obtain ⟨x, q, hx, hq⟩ := h
  unfold execTlbInvalidationComplete
  simp only [hx, hq]

theorem execHostPendDecrement_of_ok {k node : Nat} (hf : launchEvent (.hostPendDecrement k node) = some f) (h : f.ok s) :
    execHostPendDecrement k node s = .next (f.eff s) := by
  cases hf
  obtain ⟨q, hq⟩ := h
  unfold execHostPendDecrement
  simp only [hq]

/-! ### Dispatch and placement -/

/-- No launch of the same start tick comes before this one. -/
theorem execLaunchDispatch_of_ok {k : Nat} (hf : launchEvent (.launchDispatch k) = some f) (h : f.ok s) :
    execLaunchDispatch k s = .next (f.eff s) := by
  cases hf
  obtain ⟨l, hl, hmay, hfirst⟩ := h
  unfold execLaunchDispatch
  simp only [hl, hmay]
  refine if_neg ?_
  rintro (hnot | ⟨htick, hlate⟩)
  · cases hnot
  · rcases hfirst with h0 | hnone
    · exact htick h0
    · rw [hnone] at hlate
      cases hlate

/-- No earlier launch can be placed on the die, the work fits it, no drain holds it up, and its blocks have their cores. -/
theorem execClusterPlace_of_ok {k die qoff : Nat} (hf : launchEvent (.clusterPlace k die qoff) = some f) (h : f.ok s) :
    execClusterPlace k die qoff s = .next (f.eff s) := by
  cases hf
  obtain ⟨l, w, spots, hl, hdie, hbefore, hfits, hheld, hstage, hspots⟩ := h
  have hdrain : ¬(l.stageOf w ≠ 0 ∧ l.draining = none) := fun ⟨hne, hnone⟩ => hstage.elim hne fun hd => hd hnone
  unfold execClusterPlace
  simp only [hl, hbefore, Nat.not_le.2 hdie, hfits, hheld, hdrain, hspots]
  cases w with
  | resume bs | group g | cluster c =>
    unfold launchEvent.spread at hspots
    simp [hspots]

theorem execStageDrainComplete_of_ok {k : Nat} (hf : launchEvent (.stageDrainComplete k) = some f) (h : f.ok s) :
    execStageDrainComplete k s = .next (f.eff s) := by
  cases hf
  obtain ⟨d, hd⟩ := h
  unfold execStageDrainComplete
  simp only [hd]

/-! ### Time slices and pre-emption -/

/-- The one event that needs the queues to be a sparse map: `exec` puts the queue, and the table changes it. -/
theorem execSliceExpire_of_ok {k : Nat} (hf : launchEvent (.sliceExpire k) = some f) (h : f.ok s) (hm : keysRise s.queues = true) :
    execSliceExpire k s = .next (f.eff s) := by
  cases hf
  obtain ⟨q, t, hq, ht, hslice, hpast⟩ := h
  have hput := sput_eq_smod hm hq fun q => { q with sliceOver := true }
  simp only [ht] at hput
  unfold execSliceExpire
  simp only [hq, ht]
  rw [if_pos ⟨hslice, hpast⟩, hput]

theorem execBlockSave_of_ok {core blk : Nat} (hf : launchEvent (.blockSave core blk) = some f) (h : f.ok s) :
    execBlockSave core blk s = .next (f.eff s) := by
  cases hf
  obtain ⟨b, l, q, hb, hl, hq, hpre, hquiet, hlater⟩ := h
  unfold execBlockSave
  simp only [hb, hl, hq, hpre, hquiet, hlater, Option.map_some, Option.getD_some]
  rfl

/-- A queue with no resident block: its save area is written first, or its launches go on. -/
theorem execQueueResume_of_ok {k : Nat} (hf : launchEvent (.queueResume k) = some f) (h : f.ok s) :
    execQueueResume k s = .next (f.eff s) := by
  cases hf
  obtain ⟨q, hq, hpre, hres⟩ := h
  unfold execQueueResume
  simp only [hq, hpre, hres]
  rw [if_neg (by decide)]
  exact (apply_ite Host.Outcome.next _ _ _).symm

/-! ### Spawn bins and the end of a launch -/

theorem execSpawnBinTimerExpire_of_ok {core n : Nat} (hf : launchEvent (.spawnBinTimerExpire core n) = some f) (h : f.ok s) :
    execSpawnBinTimerExpire core n s = .next (f.eff s) := by
  cases hf
  obtain ⟨b, t, hb, ht, hopen, hpast⟩ := h
  unfold execSpawnBinTimerExpire
  simp only [hb, ht, hopen, Nat.not_lt.2 hpast]
  rfl

theorem execSpawnBlockDispatch_of_ok {core n : Nat} (hf : launchEvent (.spawnBlockDispatch core n) = some f) (h : f.ok s) :
    execSpawnBlockDispatch core n s = .next (f.eff s) := by
  cases hf
  obtain ⟨b, l, off, slot, hb, hl, hoff, hslot, hclosed, hfirst, hstate⟩ := h
  unfold launchEvent.want at hoff
  unfold execSpawnBlockDispatch launchEvent.want
  simp only [hb, hl, hoff, hslot, hclosed, hfirst]
  exact if_neg (by simpa using hstate)

theorem execLaunchComplete_of_ok {k : Nat} (hf : launchEvent (.launchComplete k) = some f) (h : f.ok s) :
    execLaunchComplete k s = .next (f.eff s) := by
  cases hf
  obtain ⟨l, hl, hover⟩ := h
  unfold execLaunchComplete
  simp only [hl, hover]
  rfl

end Events

/-- Each event of the table, under its conditions, in a state whose queues are a sparse map where a time slice ends. -/
theorem exec_of_launchEvent {i : Instr} {f : EventForm} {s : State} (hf : launchEvent i = some f) (h : f.ok s)
    (hm : ∀ k, i = .sliceExpire k → keysRise s.queues = true) : exec i s = .next (f.eff s) := by
  cases i with
  | qtenWrite v => exact execQtenWrite_of_ok hf h
  | queueTableWake line => exact execQueueTableWake_of_ok hf h
  | ringLineWake q | launchRecord q | tlbInvalidationRecord q | markerRecord q =>
    cases hf
    rfl
  | tlbInvalidationComplete id => exact execTlbInvalidationComplete_of_ok hf h
  | launchDispatch k => exact execLaunchDispatch_of_ok hf h
  | clusterPlace k die qoff => exact execClusterPlace_of_ok hf h
  | stageDrainComplete k => exact execStageDrainComplete_of_ok hf h
  | sliceExpire k => exact execSliceExpire_of_ok hf h (hm k rfl)
  | blockSave core blk => exact execBlockSave_of_ok hf h
  | queueResume k => exact execQueueResume_of_ok hf h
  | spawnBinTimerExpire core n => exact execSpawnBinTimerExpire_of_ok hf h
  | spawnBlockDispatch core n => exact execSpawnBlockDispatch_of_ok hf h
  | launchComplete k => exact execLaunchComplete_of_ok hf h
  | hostPendDecrement k node => exact execHostPendDecrement_of_ok hf h
  | _ => cases hf

/-! ### The time slice of a queue out of its place -/

/-- A queue whose time slice of one tick began at reset. -/
def slicedQueue : Queue := { queueOf [] with slice := 1, sliceStart := some 0 }

/-- A state at tick 1 whose queues stand in falling order of their numbers. -/
def fallingQueues : State := { State.reset with cycle := 3, queues := [(1, slicedQueue), (0, slicedQueue)] }

/-- The end of the time slice of queue 1 puts it after queue 0. -/
theorem exec_sliceExpire_fallingQueues : exec (.sliceExpire 1) fallingQueues =
    .next { fallingQueues with queues := [(0, slicedQueue), (1, { slicedQueue with sliceOver := true })] } := rfl

/-- Refutes O43: where the queues of a state are no sparse map, the end of the time slice of queue 1 leaves them in the order 0, 1 and
the table leaves them in the order 1, 0. With rising keys every event holds (`exec_of_launchEvent`). -/
theorem not_launchesTakePlace : ¬ Obligations.LaunchesTakePlace := by
  intro h
  have hx := h (.sliceExpire 1) _ fallingQueues rfl ⟨slicedQueue, 0, rfl, rfl, by decide, by decide⟩
  rw [exec_sliceExpire_fallingQueues] at hx
  have hkeys : [0, 1] = [1, 0] := congrArg (fun u : State => u.queues.map Prod.fst) (Host.Outcome.next.inj hx)
  exact absurd hkeys (by decide)

end Sys2Proof.Machine
end

section
/-! PROOFS. Conversions, rotations, seeds and accumulator moves on one live thread (10 R251-R261; 13 R329-R331): a conversion and a
move are each one shared operation of a whole group (01 R451), which the path's one lane passes to its end. -/

namespace Sys2Proof.Machine

open Sys2Proof

/-! ### A group-wide conversion and a group-wide move -/

/-- A conversion whose control word, tag, runs and operands pass, for the one lane that takes part. -/
theorem groupConvert_solo {n : BitVec 1} {d a b : BitVec 7} {plan : Ccw → CvPlan} {res : RunResult} {s : State} {l : LaneRef}
    {t : Thread} (h : s.Solo l t (converting n d a b plan res).solo.roles) (hok : (converting n d a b plan res).solo.ok s l t) :
    groupConvert n d a b plan res s = .next ((converting n d a b plan res).solo.eff s l t) := by
  obtain ⟨hword, -, hreserved, hbad, htag, hlanes⟩ := hok
  obtain ⟨hsource, hdest, hpoison⟩ := hlanes (l, t) (.head _)
  have hsolo : s.Solo l t [.src64 b] := h
  dsimp only at hreserved hbad htag hsource hdest hpoison
  unfold groupConvert
  dsimp only
  rw [hword, agree_solo s l t _ _ _ _ _ hsolo]
  dsimp only
  rw [if_neg (Bool.eq_false_iff.1 hreserved), settleRun_quiet _ _ _ _ h.quiet, settleRun_quiet _ _ _ _ h.quiet,
    screen_one s l t _ h.alone.2 (by rw [hsource, hdest]; rfl), hbad, htag, List.map_singleton,
    screen_one s l t _ h.alone.2 (by rw [poisonOf_of_check hsolo.passes, hpoison]; rfl)]
  rfl

/-- A move whose words, tag, run of registers and accumulators pass, for the one live lane that takes part. -/
theorem moveAcc_solo {word : Option (Nat × Nat)} {roles : List Role} {d : BitVec 7} {key : Thread → Word × Dword × Nat}
    {plan : Word → Dword → MovePlan} {eff : State → List (LaneRef × Thread) → Region → Word → Dword → Nat → State} {s : State}
    {l : LaneRef} {t : Thread} (h : s.Solo l t (moving word roles d key plan eff).solo.roles)
    (hok : (moving word roles d key plan eff).solo.ok s l t) :
    moveAcc word roles d key plan eff s = .next ((moving word roles d key plan eff).solo.eff s l t) := by
  obtain ⟨rfl, -, hreserved, hbad, htag, hlanes, blk, r, hblk, hacc, hregion⟩ := hok
  obtain ⟨heven, hdest, hpoison⟩ := hlanes (l, t) (.head _)
  have hsolo : s.Solo l t roles := h
  unfold GroupForm.solo moving
  dsimp only at hreserved hbad htag heven hdest hpoison hacc hregion ⊢
  have hpair : ((plan (key t).1 (key t).2.1).pair && t.absReg d.toNat % 2 == 1) = false := by
    simpa using heven
  have hreads : firstSome (poisonOf t roles :: (plan (key t).1 (key t).2.1).reads.map fun i =>
      (sget t.poison (t.absReg d.toNat + i)).map poisonStop) = none := by
    refine (firstSome_none _).2 (List.forall_mem_cons.2 ⟨poisonOf_of_check hsolo.passes, List.forall_mem_map.2 fun i hi => ?_⟩)
    rw [hpoison i hi]
    rfl
  unfold moveAcc
  rw [agree_solo s l t _ _ _ _ _ hsolo]
  dsimp only
  rw [if_neg (Bool.eq_false_iff.1 hreserved), settleRun_quiet _ _ _ _ h.quiet,
    screen_one s l t _ h.alone.2 (by rw [hpair, hdest]; rfl), hblk]
  dsimp only
  rw [hbad, hacc, htag, List.map_singleton, screen_one s l t _ h.alone.2 hreads]
  simp only [stopOf, Option.map_none, firstSome, Option.bind_some, hregion, List.all_cons, List.all_nil, h.live, Bool.false_and,
    Bool.false_eq_true, if_false]

/-! ### One element, seeds and tags -/

/-- `cvt`: its own checks are all that a lane meets. -/
theorem execCvt_solo {n : BitVec 1} {b a d : BitVec 7} {f : SoloForm} {s : State} {l : LaneRef} {t : Thread}
    (hf : converterForm (.cvt n b a d) = some f) (h : s.Solo l t f.roles) (hok : f.ok s l t) :
    execCvt n b a d s = .next (f.eff s l t) := by
  cases hf
  obtain ⟨hfirst, hcheck⟩ := hok
  unfold execCvt
  rw [lanes_solo s l t _ _ h]
  simp only [settleRoles_quiet _ _ _ _ h.quiet, h.alone.2, Option.getD_some, hfirst, hcheck, Bool.false_eq_true, if_false]
  rfl

/-- A destination that passes its checks is one that the word may name. -/
theorem illegal_of_check {t : Thread} {r : Role} {rs : List Role} (h : check t (r :: rs) = none) : r.illegal = none := by
  have hfields : checkFields t (r :: rs) = none := (firstSome_none _).1 h _ (.head _)
  exact (firstSome_none _).1 (Option.map_eq_none_iff.1 hfields) _ (.head _)

/-- An instruction of the seed table whose operands pass, where its slot gives a value: that value is latched and written. -/
theorem tableLane_solo {dst : Dst} {n : BitVec 1} {a : BitVec 7} {roles : List Role}
    {f : State → LaneRef → Thread → State × Except Stop Dword} {s s1 : State} {l : LaneRef} {t : Thread} {v : Dword}
    (h : s.Solo l t (dst.role :: roles)) (hsource : cvtSource a = none) (hf : f s l t = (s1, .ok v)) :
    tableLane dst n a roles f s = .next (s1.modLane l fun t => t.finish 4 dst (bit1 n) false v 0) := by
  have hfields : firstSome [cvtSource a, dst.role.illegal] = none := by rw [hsource, illegal_of_check h.passes]; rfl
  unfold tableLane
  rw [lanes_solo s l t _ _ h]
  simp only [settleRoles_quiet _ _ _ _ h.quiet, h.alone.2, Option.getD_some, h.first, hfields, h.passes, hf, Bool.false_eq_true,
    if_false, endLane]

/-- Settles O27: each instruction of the table is a conversion or a move of a whole group, `cvt`, or a value of the seed table;
`test_cvt` to `test_arst` hold a path that meets the conditions of each. -/
theorem converterCompletes : Obligations.ConverterCompletes := by
  intro i f s l t hf h hok
  cases i with
  | cvt n b a d => exact execCvt_solo hf h hok
  | qnt n b a d | dqnt n b a d | qscl n b a d | rot n b a d | irot n b a d =>
    cases hf
    exact groupConvert_solo h hok
  | seed n k a d =>
    cases hf
    obtain ⟨-, hsource⟩ := hok
    exact (tableLane_solo (dst := .r32 d) h hsource (if_neg (Bool.eq_false_iff.1 h.live)) : execSeed n k a d s = _)
  | seedr n k a d =>
    cases hf
    obtain ⟨-, hsource⟩ := hok
    exact (tableLane_solo (dst := .r32 d) h hsource (if_neg (Bool.eq_false_iff.1 h.live)) : execSeedr n k a d s = _)
  | tagmk n a d =>
    cases hf
    obtain ⟨-, hsource⟩ := hok
    exact (tableLane_solo (dst := .r32 d) h hsource rfl : execTagmk n a d s = _)
  | sgen n k a d =>
    cases hf
    obtain ⟨-, hsource, hwritten⟩ := hok
    exact (tableLane_solo (dst := .r64 d) h hsource (if_neg hwritten) : execSgen n k a d s = _)
  | ard b a d =>
    cases hf
    exact (moveAcc_solo h hok : execArd b a d s = _)
  | awr b a d =>
    cases hf
    exact (moveAcc_solo h hok : execAwr b a d s = _)
  | asv k a d =>
    cases hf
    exact (moveAcc_solo h hok : execAsv k a d s = _)
  | arst k a d =>
    cases hf
    exact (moveAcc_solo h hok : execArst k a d s = _)
  | _ => cases hf

end Sys2Proof.Machine
end

section
/-! PROOFS. The engines and the links to peers (11 R267, R280; 12 R298; 13 R314, R326, R335; 15 R373, R378; 17 R399, R407, R409): an
event of a command finds it by its number, passes the event's own conditions, and does what the table says. -/

namespace Sys2Proof.Machine

open Sys2Proof

/-! ### Commands found by their numbers -/

/-- An event of a command does what its table says, where it does so for the command of that number. -/
theorem next_of_ofCmd {id : Nat} {ok : State → Cmd → Prop} {eff : State → Cmd → State} {event : State → Out} {s : State}
    (h : (ofCmd id ok eff).ok s) (hevent : ∀ c, sget s.cmds id = some c → ok s c → event s = .next (eff s c)) :
    event s = .next ((ofCmd id ok eff).eff s) := by
  obtain ⟨c, hc, hok⟩ := h
  unfold ofCmd
  simp only [hevent c hc hok, hc]

section Events

variable {s : State} {f : EventForm}

/-! ### Copies and gathers -/

/-- A ring copy that may claim a slot, whose entries can be registered. -/
theorem execRingSlotClaim_of_ok {id : Nat} (hf : engineEvent (.ringSlotClaim id) = some f) (h : f.ok s) :
    execRingSlotClaim id s = .next (f.eff s) := by
  cases hf
  obtain ⟨c, r, k, hc, hclaim, hfree⟩ := h
  unfold execRingSlotClaim
  simp only [hc, hclaim, hfree, Bool.false_eq_true, if_false]

/-- A copy that waits for no slot completes for its block, or for its node of the task graph. -/
theorem execCopyCommandComplete_of_ok {id : Nat} (hf : engineEvent (.copyCommandComplete id) = some f) (h : f.ok s) :
    execCopyCommandComplete id s = .next (f.eff s) := by
  cases hf
  refine next_of_ofCmd h fun c hc ⟨hmajor, hready⟩ => ?_
  unfold execCopyCommandComplete
  simp only [hc, hmajor, hready, ne_eq, not_true_eq_false, decide_false, Bool.or_self, Bool.false_eq_true, if_false]
  exact (apply_ite Host.Outcome.next _ _ _).symm

theorem execGseCommandComplete_of_ok {id : Nat} (hf : engineEvent (.gseCommandComplete id) = some f) (h : f.ok s) :
    execGseCommandComplete id s = .next (f.eff s) := by
  cases hf
  refine next_of_ofCmd h fun c hc hmajor => ?_
  unfold execGseCommandComplete
  simp only [hc, hmajor, if_true]

/-! ### The matrix engine -/

theorem execMatrixPhaseEnd_of_ok {id : Nat} (hf : engineEvent (.matrixPhaseEnd id) = some f) (h : f.ok s) :
    execMatrixPhaseEnd id s = .next (f.eff s) := by
  cases hf
  refine next_of_ofCmd h fun c hc ⟨hmajor, hreads⟩ => ?_
  unfold execMatrixPhaseEnd
  simp only [hc]
  exact if_neg (by simp [hmajor, hreads])

/-- No operation of the core was issued before this one. -/
theorem execMatrixOperationComplete_of_ok {id : Nat} (hf : engineEvent (.matrixOperationComplete id) = some f) (h : f.ok s) :
    execMatrixOperationComplete id s = .next (f.eff s) := by
  cases hf
  refine next_of_ofCmd h fun c hc ⟨hmajor, hbegun, hfirst⟩ => ?_
  unfold execMatrixOperationComplete
  simp only [hc]
  exact if_neg (by simp only [hmajor, hbegun, hfirst]; decide)

theorem execAallocGrant_of_ok {core : Nat} (hf : engineEvent (.aallocGrant core) = some f) (h : f.ok s) :
    execAallocGrant core s = .next (f.eff s) := by
  cases hf
  obtain ⟨q, hq, hroom⟩ := h
  unfold execAallocGrant
  simp only [hq, Nat.not_lt.2 hroom, if_false]

/-! ### Start ticks, sorts and collectives -/

theorem execStartTickReached_of_ok {id : Nat} (hf : engineEvent (.startTickReached id) = some f) (h : f.ok s) :
    execStartTickReached id s = .next (f.eff s) := by
  cases hf
  refine next_of_ofCmd h fun c hc ⟨hheld, hpast, hruns⟩ => ?_
  unfold execStartTickReached
  simp only [hc]
  exact if_neg (by simp [hheld, hpast, hruns])

/-- A sort in its turn registers its entries and begins, or waits for them. -/
theorem execKseCommandBegin_of_ok {id : Nat} (hf : engineEvent (.kseCommandBegin id) = some f) (h : f.ok s) :
    execKseCommandBegin id s = .next (f.eff s) := by
  cases hf
  refine next_of_ofCmd h fun c hc hturn => ?_
  unfold execKseCommandBegin
  simp only [hc, hturn, Bool.not_true, Bool.false_eq_true, if_false]
  exact (apply_ite Host.Outcome.next _ _ _).symm

theorem execKseCommandComplete_of_ok {id : Nat} (hf : engineEvent (.kseCommandComplete id) = some f) (h : f.ok s) :
    execKseCommandComplete id s = .next (f.eff s) := by
  cases hf
  refine next_of_ofCmd h fun c hc ⟨hkse, hbegun⟩ => ?_
  unfold execKseCommandComplete
  simp only [hc]
  exact if_neg (by simp [hkse, hbegun])

/-- A collective in its turn, of a launch that has lost no peer, registers its entries and begins, or waits for them. -/
theorem execCollectiveBegin_of_ok {id : Nat} (hf : engineEvent (.collectiveBegin id) = some f) (h : f.ok s) :
    execCollectiveBegin id s = .next (f.eff s) := by
  cases hf
  refine next_of_ofCmd h fun c hc ⟨hturn, hpeers⟩ => ?_
  unfold execCollectiveBegin
  simp only [hc, hturn, hpeers, Bool.not_true, Bool.false_eq_true, if_false]
  exact (apply_ite Host.Outcome.next _ _ _).symm

/-- A collective that has begun completes with the inputs of every rank. -/
theorem execCollectiveComplete_of_ok {id : Nat} {peers : List PeerInput} (hf : engineEvent (.collectiveComplete id peers) = some f)
    (h : f.ok s) : execCollectiveComplete id peers s = .next (f.eff s) := by
  cases hf
  refine next_of_ofCmd h fun c hc ⟨hcoll, hbegun, hall⟩ => ?_
  obtain ⟨ins, hins⟩ := Option.isSome_iff_exists.1 hall
  unfold execCollectiveComplete
  simp only [hc, hins]
  exact if_neg (by simp [hcoll, hbegun])

/-! ### Links to peers -/

theorem execPeerFlitTimeout_of_ok {pkg : Nat} (hf : engineEvent (.peerFlitTimeout pkg) = some f) (h : f.ok s) :
    execPeerFlitTimeout pkg s = .next (f.eff s) := by
  cases hf
  obtain ⟨t, ht, hlate, hneeded⟩ := h
  unfold execPeerFlitTimeout
  simp only [ht]
  exact if_pos ⟨hlate, hneeded⟩

theorem execTwinericLinkFailure_of_ok {pkg : Nat} {rerouted : Bool} (hf : engineEvent (.twinericLinkFailure pkg rerouted) = some f)
    (h : f.ok s) : execTwinericLinkFailure pkg rerouted s = .next (f.eff s) := by
  cases hf
  obtain ⟨rfl, hup⟩ := h
  exact if_neg (by simp [hup])

end Events

/-- Settles O42: each event of the table, by its own lemma above; `test_ringSlotClaim` to `test_twinericLinkFailure` hold a state that
meets the conditions of each. -/
theorem enginesTakePlace : Obligations.EnginesTakePlace := by
  intro i f s hf h
  cases i with
  | ringSlotClaim id => exact execRingSlotClaim_of_ok hf h
  | copyCommandComplete id => exact execCopyCommandComplete_of_ok hf h
  | gseCommandComplete id => exact execGseCommandComplete_of_ok hf h
  | matrixPhaseEnd id => exact execMatrixPhaseEnd_of_ok hf h
  | matrixOperationComplete id => exact execMatrixOperationComplete_of_ok hf h
  | aallocGrant core => exact execAallocGrant_of_ok hf h
  | startTickReached id => exact execStartTickReached_of_ok hf h
  | kseCommandBegin id => exact execKseCommandBegin_of_ok hf h
  | kseCommandComplete id => exact execKseCommandComplete_of_ok hf h
  | collectiveBegin id => exact execCollectiveBegin_of_ok hf h
  | collectiveComplete id peers => exact execCollectiveComplete_of_ok hf h
  | peerFlitTimeout pkg => exact execPeerFlitTimeout_of_ok hf h
  | peerLossReport pkg =>
    cases hf
    rfl
  | twinericLinkFailure pkg rerouted => exact execTwinericLinkFailure_of_ok hf h
  | _ => cases hf

end Sys2Proof.Machine
end

section
/-! PROOFS. The copy engine on one live thread (11 R265-R280): each kind of copy command, a look at copy tags, and an instruction of a
ring, in a lane that passes its checks, does what its table says. -/

namespace Sys2Proof.Machine

open Sys2Proof

section Solo

variable {s : State} {l : LaneRef} {t : Thread}

/-! ### Commands sent -/

/-- A command with room in its engine, and in its block where it must wait for a slot, is sent. -/
theorem sendCopy_of_room (l : LaneRef) {c : Cmd} (hroom : s.copiesOf s.issue.core < 64)
    (hheld : c.awaitsSlot = true → s.heldMax s.issue.core s.issue.blk = false) : s.sendCopy l c = s.copySent l c := by
  unfold State.sendCopy
  rw [if_neg (Nat.not_le.2 hroom), if_neg fun ⟨hwaits, hfull⟩ => Bool.eq_false_iff.1 (hheld hwaits) hfull]
  rfl

/-- Of checks that all pass in order, none stops the lane. -/
theorem firstRanked_of_firstSome {l : List (Option Stop)} (h : firstSome l = none) : firstRanked l = none :=
  firstRanked_none l ((firstSome_none l).1 h)

/-- A run of registers whose checks pass lies in the allocation, and none of it is poisoned. -/
theorem runCheck_none {d : BitVec 7} {n : Nat} : runCheck t d n = none ↔ runBeyond t d n = none ∧ runPoison t d n = none := by
  unfold runCheck
  rw [firstSome_none]
  simp

/-! ### Lane copies and tile copies -/

/-- `cpl`, in its one lane, whose addresses and run of registers pass. -/
theorem cplLane_solo {n tag : Nat} {d : BitVec 7} (h : s.Solo l t []) (htag : s.badTag tag = none)
    (heven : t.absReg d.toNat % 2 = 0) (hrun : runCheck t d 4 = none)
    (hcheck : (s.cplCheck n (pairAt (descRun t d 4) 0) (pairAt (descRun t d 4) 2)).2 = none) :
    s.cplLane n tag d l = ((s.cplCheck n (pairAt (descRun t d 4) 0) (pairAt (descRun t d 4) 2)).1,
      [(l, pairAt (descRun t d 4) 0, pairAt (descRun t d 4) 2)]) := by
  obtain ⟨hbeyond, hpoison⟩ := runCheck_none.1 hrun
  unfold State.cplLane
  simp only [settleLaneRun_quiet _ _ _ _ h.quiet, h.alone.2, h.live, htag, heven, hbeyond, hpoison, hcheck, stopIf, firstSome,
    Option.map_none, Nat.reduceBEq, Bool.false_eq_true, if_false]

theorem execCpl_solo {m : BitVec 2} {tag : BitVec 6} {d : BitVec 7} {f : SoloForm} (hf : copyForm (.cpl m tag d) = some f)
    (h : s.Solo l t f.roles) (hok : f.ok s l t) : execCpl m tag d s = .next (f.eff s l t) := by
  cases hf
  obtain ⟨hmode, hdesc, htag, heven, hrun, hcheck, -⟩ := hok
  unfold execCpl
  rw [wordCheck_none (by rw [if_neg hmode, hdesc]), h.alone.1]
  simp only [List.foldl_cons, List.foldl_nil, cplLane_solo h htag heven hrun hcheck, List.nil_append]

/-- A tile command whose descriptor passes, and whose ring is sound after the release, where it names one. -/
theorem tileInstr_tiling {sub : Nat} {tag : BitVec 6} {d : BitVec 7} (h : s.Solo l t (tiling sub tag d).roles)
    (hok : (tiling sub tag d).ok s l t) :
    tileInstr sub tag d s = .next ((tiling sub tag d).eff s l t) := by
  obtain ⟨hfield, desc, r, hdesc, hring, hroom, hheld⟩ := hok
  unfold tileInstr tiling
  rw [wordCheck_none hfield, lanes_solo s l t _ _ h]
  simp only [settleLaneRun_quiet _ _ _ _ h.quiet, h.alone.2, Option.getD_some, State.tileLane, h.live, hdesc, hring,
    Bool.false_eq_true, if_false, sendCopy_of_room l hroom hheld, endLane]

/-! ### Multicasts -/

/-- `cpml`: the tile's descriptor and the mask of receivers pass. -/
theorem execCpml_solo {tag : BitVec 6} {c d : BitVec 7} {f : SoloForm} (hf : copyForm (.cpml tag c d) = some f)
    (h : s.Solo l t f.roles) (hok : f.ok s l t) : execCpml tag c d s = .next (f.eff s l t) := by
  cases hf
  obtain ⟨⟨hfield, hmask, desc, hdesc⟩, hroom, hslot⟩ := hok
  have hown : check t [.src c] = none := h.passes
  simp only [hdesc] at hslot
  have hsend := sendCopy_of_room l hroom fun hwaits => absurd hwaits (Bool.eq_false_iff.1 hslot)
  unfold execCpml copying
  rw [wordCheck_none hfield, lanes_solo s l t _ _ h]
  simp only [settleLaneRun_quiet _ _ _ _ h.quiet, settleRoles_quiet _ _ _ _ h.quiet, h.alone.2, Option.getD_some, h.live, hown, hdesc,
    firstRanked_of_firstSome hmask, hsend, Option.isSome_none, Bool.false_eq_true, if_false, endLane]

/-- `cpms`: the slices' descriptor, the mask of receivers and the tag pass. -/
theorem execCpms_solo {tag : BitVec 6} {c d : BitVec 7} {f : SoloForm} (hf : copyForm (.cpms tag c d) = some f)
    (h : s.Solo l t f.roles) (hok : f.ok s l t) : execCpms tag c d s = .next (f.eff s l t) := by
  cases hf
  obtain ⟨⟨hfield, hrun, hchecks⟩, hroom, hslot⟩ := hok
  have hown : check t [.src c] = none := h.passes
  have hsend := sendCopy_of_room l hroom fun hwaits => absurd hwaits (Bool.eq_false_iff.1 hslot)
  have hstops : firstRanked ((s.badTag tag.toNat).map plainStop :: maskStop (t.val c).toNat s.issueLaunch.rcd.cblk ++
      (sliceStop (descRun t d 9) ++ [sliceAlign (descRun t d 9)])) = none :=
    firstRanked_none _ fun x hx => (firstSome_none _).1 hchecks x (by
      simp only [List.mem_cons, List.mem_append] at hx ⊢
      tauto)
  unfold execCpms copying
  rw [wordCheck_none hfield, lanes_solo s l t _ _ h]
  simp only [settleLaneRun_quiet _ _ _ _ h.quiet, settleRoles_quiet _ _ _ _ h.quiet, h.alone.2, Option.getD_some, h.live, hown, hrun,
    hstops, hsend, Option.isSome_none, Bool.false_eq_true, if_false, endLane]

/-! ### Copy tags -/

/-- A change of the issuing block depends on what it does to that block alone. -/
theorem modIssueBlock_congr {b : Block} {f g : Block → Block} (hb : s.block? s.issue.core s.issue.blk = some b)
    (h : f b = g b) : s.modIssueBlock f = s.modIssueBlock g := by
  unfold State.modIssueBlock State.modBlock
  simp only [hb, h]

/-- `expect`: its one lane's count reaches a tag of the block that it does not overflow. -/
theorem execExpect_solo {tag : BitVec 6} {d : BitVec 7} {f : SoloForm} (hf : copyForm (.expect tag d) = some f)
    (h : s.Solo l t f.roles) (hok : f.ok s l t) : execExpect tag d s = .next (f.eff s l t) := by
  cases hf
  obtain ⟨hfield, b, hb, htag, hroom⟩ := hok
  have hnamed : s.badTag tag.toNat = none := by
    unfold State.badTag
    rw [hb]
    exact if_neg (Nat.not_le.2 htag)
  have hlive : ([(l, (t.val d).toNat)].filter fun v => !v.1.helper) = [(l, (t.val d).toNat)] := by simp [h.live]
  unfold execExpect
  rw [wordCheck_none hfield]
  simp only [hnamed, collect_solo s l t _ _ h, hlive, hb, List.foldl_cons, List.foldl_nil, Nat.zero_add, Int.not_lt.2 hroom,
    List.cons_ne_nil, if_false]
  exact congrArg (fun u : State => Host.Outcome.next (u.advanceLane l)) (modIssueBlock_congr hb rfl)

/-- A look at copy tags, in a lane whose mask names tags of the block: it finds the bitmap of the ready ones. -/
theorem observe_solo {m : BitVec 2} {roles : List Role} {cnt : Option (BitVec 7)} {d : BitVec 7}
    (f : State → LaneRef → Thread → Nat → Nat → LaneOut) {b : Block} (h : s.Solo l t (roles ++ [.src64 d])) (hmode : m.toNat ≠ 3)
    (hfield : descField d = none) (hcnt : cnt.bind cntDest = none) (hb : s.block? s.issue.core s.issue.blk = some b)
    (hmask : (t.val64 d).toNat < 2 ^ b.ntags) :
    observe m roles cnt d f s = .next (endLane l (f s l t b.readyMap (t.val64 d).toNat)) := by
  unfold observe
  rw [wordCheck_none (by rw [if_neg hmode, hfield, hcnt]; rfl), lanes_solo s l t _ _ h]
  simp only [settleRoles_quiet _ _ _ _ h.quiet, h.alone.2, Option.getD_some, hb, h.live, h.passes, stopIf, Nat.not_le.2 hmask,
    decide_false, Bool.and_false, Bool.false_eq_true, if_false, firstRanked_none [none, none] (by simp)]

/-- A look at copy tags does what the table says, where its own part goes on once the look is met and holds its lane until then. -/
theorem observe_observing {m : BitVec 2} {roles : List Role} {cnt : Option (BitVec 7)} {d : BitVec 7} {met hit : Nat → Nat → Bool}
    {w : Nat → Wait} {eff : Nat → Thread → Thread} {f : State → LaneRef → Thread → Nat → Nat → LaneOut}
    (h : s.Solo l t (observing m roles cnt d met hit w eff).roles) (hok : (observing m roles cnt d met hit w eff).ok s l t)
    (hmet : ∀ map mask, met map mask = true →
      f s l t map mask = ((s.observed m l (hit map mask)).modLane l fun t => (eff (Nat.land map mask) t).advance 4, none))
    (hwait : ∀ map mask, met map mask = false → f s l t map mask = (s.setLane l (t.hold (w mask)), none)) :
    observe m roles cnt d f s = .next ((observing m roles cnt d met hit w eff).eff s l t) := by
  obtain ⟨hmode, hfield, hcnt, b, hb, hmask⟩ := hok
  unfold observing
  rw [observe_solo f h hmode hfield hcnt hb hmask]
  simp only [hb, Option.map_some, Option.getD_some]
  cases hm : met b.readyMap (t.val64 d).toNat with
  | true => rw [hmet _ _ hm, if_pos rfl, endLane]
  | false => rw [hwait _ _ hm, if_neg Bool.false_ne_true, endLane]

/-- `exec` and the table write one test of two numbers in two ways. -/
theorem bne_eq_decide_ne (x y : Nat) : (x != y) = decide (x ≠ y) := by
  simp [bne, beq_eq_decide]

/-- `wany` waits for some masked tag, and where it masks none for nothing. -/
theorem execWany_solo {m : BitVec 2} {c d : BitVec 7} {f : SoloForm} (hf : copyForm (.wany m c d) = some f)
    (h : s.Solo l t f.roles) (hok : f.ok s l t) : execWany m c d s = .next (f.eff s l t) := by
  cases hf
  refine observe_observing h hok (fun map mask hmet => ?_) fun map mask hwait => ?_
  · simp only [Bool.or_eq_true, decide_eq_true_eq] at hmet
    dsimp only
    rw [if_neg fun ⟨hnone, hmask⟩ => hmet.elim (· hnone) hmask, bne_eq_decide_ne]
  · simp only [Bool.or_eq_false_iff, decide_eq_false_iff_not, not_not] at hwait
    exact if_pos hwait

/-- `wall` waits for every masked tag. -/
theorem execWall_solo {m : BitVec 2} {d : BitVec 7} {f : SoloForm} (hf : copyForm (.wall m d) = some f)
    (h : s.Solo l t f.roles) (hok : f.ok s l t) : execWall m d s = .next (f.eff s l t) := by
  cases hf
  refine observe_observing h hok (fun map mask hmet => ?_) fun map mask hwait => ?_
  · rw [if_neg (not_not_intro (of_decide_eq_true hmet)), bne_eq_decide_ne]
  · exact if_pos (of_decide_eq_false hwait)

/-- `ffrdy` waits for nothing. -/
theorem execFfrdy_solo {m : BitVec 2} {c d : BitVec 7} {f : SoloForm} (hf : copyForm (.ffrdy m c d) = some f)
    (h : s.Solo l t f.roles) (hok : f.ok s l t) : execFfrdy m c d s = .next (f.eff s l t) := by
  cases hf
  refine observe_observing h hok (fun map mask _ => ?_) fun _ _ hwait => nomatch hwait
  simp only [h.live, Bool.false_eq_true, if_false, bne_eq_decide_ne]

/-! ### Rings -/

/-- A header that is sound lies in stage memory. -/
theorem ringPlace_of_ringAt {c : VCtx} {va ntags : Nat} {r : Ring} (h : s.ringAt c va ntags = .ok r) :
    ∃ pa, ringPlace c va = some pa := by
  unfold State.ringAt at h
  cases hplace : ringPlace c va with
  | none =>
    rw [hplace] at h
    cases h
  | some pa => exact ⟨pa, rfl⟩

/-- A ring instruction whose header is sound: its own part acts on the ring, in the one lane, once that lane's stores to the header
are done. -/
theorem ringInstr_ringing {word : Option (Nat × Nat)} {extra : List Role} {d : BitVec 7} {f : State → List LaneRef → Ring → State}
    {g : State → Ring → List LaneRef → State} (h : s.Solo l t (ringing word extra d f).solo.roles)
    (hok : (ringing word extra d f).solo.ok s l t) (hg : ∀ s r, g s r [l] = f s [l] r) :
    ringInstr word extra d g s = .next ((ringing word extra d f).solo.eff s l t) := by
  obtain ⟨hword, -, hextra, r, hring⟩ := hok
  have hsolo : s.Solo l t [.src64 d] := h
  have hlive : liveOf [(l, t)] = [l] := by simp [liveOf, h.live]
  have hpasses : check t extra = none := hextra (l, t) (.head _)
  have hword : firstSome [descField d, word] = none := hword
  unfold ringing.ring at hring
  obtain ⟨pa, hplace⟩ := ringPlace_of_ringAt hring
  unfold ringing.settled at hring
  unfold ringInstr GroupForm.solo ringing ringing.ring ringing.settled
  rw [hword, agree_solo s l t _ _ _ _ _ hsolo]
  dsimp only at hring hplace ⊢
  rw [screen_one s l t _ h.alone.2 (by rw [hpasses, poisonOf_of_check hsolo.passes]; rfl)]
  simp only [hplace, hlive, List.map_cons, List.map_nil, List.foldl_cons, List.foldl_nil, h.live, Bool.false_eq_true,
    if_false] at hring ⊢
  simp only [hring, hg]

/-- `awaitf` holds its lane while the ring has no filled slot, and then gives the slot's number. -/
theorem execAwaitf_solo {c d : BitVec 7} {f : SoloForm} (hf : copyForm (.awaitf c d) = some f)
    (h : s.Solo l t f.roles) (hok : f.ok s l t) : execAwaitf c d s = .next (f.eff s l t) := by
  cases hf
  refine ringInstr_ringing h hok fun s r => ?_
  simp only [List.foldl_cons, List.foldl_nil, List.filter_cons, List.filter_nil, h.live, Bool.not_false, Bool.false_eq_true, if_true,
    if_false]

/-- `relslot` counts one more slot released. -/
theorem execRelslot_solo {d : BitVec 7} {f : SoloForm} (hf : copyForm (.relslot d) = some f)
    (h : s.Solo l t f.roles) (hok : f.ok s l t) : execRelslot d s = .next (f.eff s l t) := by
  cases hf
  refine ringInstr_ringing h hok fun s r => ?_
  simp only [List.foldl_cons, List.foldl_nil, List.filter_cons, List.filter_nil, List.any_cons, List.any_nil, h.live, Bool.not_false,
    Bool.true_or, Bool.false_eq_true, if_true, if_false, State.advanceAll]

end Solo

/-- Settles O22: each instruction of the table is a copy command, a look at copy tags, `expect`, or an instruction of a ring;
`test_cpl` to `test_relslot` hold a path that meets the conditions of each. -/
theorem copyCompletes : Obligations.CopyCompletes := by
  intro i f s l t hf h hok
  cases i with
  | cpl m tag d => exact execCpl_solo hf h hok
  | cpt tag d | cptr tag d | cptc tag d =>
    cases hf
    exact tileInstr_tiling h hok
  | cpml tag c d => exact execCpml_solo hf h hok
  | cpms tag c d => exact execCpms_solo hf h hok
  | expect tag d => exact execExpect_solo hf h hok
  | wany m c d => exact execWany_solo hf h hok
  | wall m d => exact execWall_solo hf h hok
  | ffrdy m c d => exact execFfrdy_solo hf h hok
  | awaitf c d => exact execAwaitf_solo hf h hok
  | relslot d => exact execRelslot_solo hf h hok
  | _ => cases hf

end Sys2Proof.Machine
end

section
/-! PROOFS. The gather-scatter engine on one live thread (12 R285-R299): a command whose descriptor, registers and tag pass is issued, and
a look at its tag waits or reads the trailer as its table says. -/

namespace Sys2Proof.Machine

open Sys2Proof

section Solo

variable {s : State} {l : LaneRef} {t : Thread} {c d : BitVec 7}

/-! ### One live lane enters, agrees with itself and has nothing to settle -/

/-- The one lane enters with the words that its thread gives. -/
theorem enterGroup_solo {β : Type} {roles : List Role} (h : s.Solo l t roles) (anchor : Option (Dst × Bool)) (key : Thread → β) :
    s.enterGroup anchor roles key = (s, [(l, key t)]) := by
  simp [State.enterGroup, h.alone.1, h.alone.2, h.quiet, h.first, checkEntry_of_check h.passes]

/-- A live lane alone leads with its own words. -/
theorem leader_one {β : Type} (hl : l.helper = false) (v : β) : leader [(l, v)] = some v :=
  leader_of_lowest (p := (l, v)) (.head _) hl (by simp) (by simp)

/-- One lane does not disagree. -/
theorem uniform_one {β : Type} [DecidableEq β] (l : LaneRef) (v : β) : uniform [(l, v)] = true :=
  (uniform_iff _).2 (by simp)

/-- With nothing on its way to a register, a command's runs are settled. -/
theorem settleGs_quiet (hq : s.Quiet) (g : Gs) (ls : List LaneRef) : s.settleGs g ls = s := if_pos hq

/-! ### Commands -/

/-- A command that finds room among the 32 of its core is issued with the registers of its one live lane. -/
theorem sendGs_gathering {sub : Nat} {tag : BitVec 6} (hroom : s.gathersOf s.issue.core < 32) :
    s.sendGs sub tag.toNat (t.val c).toNat (descRun t d 13) (gsOf sub (t.val c).toNat (descRun t d 13)) [(l, t)] =
      (gathering sub tag c d).eff s t [(l, t)] := by
  unfold State.sendGs
  exact if_neg (Nat.not_le.2 hroom)

/-- A gather or a scatter whose words, descriptor, registers and tag pass, where its engine has room. -/
theorem gsInstr_gathering {sub : Nat} {tag : BitVec 6} (h : s.Solo l t (gathering sub tag c d).solo.roles)
    (hok : (gathering sub tag c d).solo.ok s l t) :
    gsInstr sub tag c d s = .next ((gathering sub tag c d).solo.eff s l t) := by
  obtain ⟨hword, hbeyond, hcheck, hroom, hlanes⟩ := hok
  obtain ⟨hpoison, hregs⟩ := hlanes (l, t) (.head _)
  have hsolo : s.Solo l t [.src c] := h
  have hword : firstSome [descField d, (Role.src c).illegal] = none := hword
  have hagree := screen_one s l t (fun v => runBeyond v d 13) h.alone.2 hbeyond
  have hsupply := screen_one s l t (fun v => firstSome [poisonOf v [.src c], runPoison v d 13,
      (gsOf sub (t.val c).toNat (descRun t d 13)).poisonOf v]) h.alone.2 <| by
    rw [poisonOf_of_check hsolo.passes, hpoison, hregs]
    rfl
  unfold gsInstr
  simp only [settleRun_quiet _ _ _ _ h.quiet, hword, enterGroup_solo hsolo, List.map_cons, List.map_nil, hagree, leader_one h.live,
    uniform_one, hcheck, settleGs_quiet h.quiet, hsupply, sendGs_gathering hroom, List.all_cons, List.all_nil, h.live, Bool.not_true,
    Bool.false_and, Bool.false_eq_true, if_false]
  rfl

/-! ### Looks at the tag -/

/-- A lane that finds its tag ready, and reads a status that does not trap, gives that status to Cnt. -/
theorem gsSeen_of_status {m : BitVec 2} {st : Nat × Nat} (hread : (polling.seen m d s l t).2 = .ok st)
    (hmode : (bitOf st.1 1 && bitOf st.1 4) = false) :
    s.gsSeen m c d l t =
      ((polling.seen m d s l t).1.modLane l fun t => (t.setVal c (BitVec.ofNat 32 st.1)).advance 4, none) := by
  unfold polling.seen at hread ⊢
  unfold State.gsSeen
  dsimp only
  rcases hseen : (s.acquireAt (s.who l) (tagScope m)).readTrailer m l (t.val64 d).toNat with ⟨s1, r⟩
  rw [hseen] at hread
  cases hread
  exact if_neg (Bool.eq_false_iff.1 hmode)

/-- A look at a tag of the block: once the tag is ready it reads the trailer, and until then it does its own part. -/
theorem gsWaiting_polling {m : BitVec 2} {tag : BitVec 6} {idle : State → LaneRef → Thread → State}
    (h : s.Solo l t (polling m tag c d idle).roles) (hok : (polling m tag c d idle).ok s l t) :
    gsWaiting m tag c d (fun s l t => (idle s l t, none)) s = .next ((polling m tag c d idle).eff s l t) := by
  obtain ⟨hmode, hdesc, hcnt, htag, b, hb, hready⟩ := hok
  have hsolo : s.Solo l t [.dst c, .src64 d] := h
  have hpoison : poisonOf t [.src64 d] = none := poisonOf_of_check (check_of_subset (List.subset_cons_self _ _) hsolo.passes)
  unfold gsWaiting
  rw [wordCheck_none (by rw [if_neg hmode, hdesc, hcnt]; rfl), lanes_solo s l t _ _ hsolo]
  simp only [settleRoles_quiet _ _ _ _ h.quiet, h.alone.2, Option.getD_some, h.live, htag, checkEntry_of_check hsolo.passes,
    Option.map_none, firstRanked_none [none, none] (by simp), hpoison, hb, Bool.false_eq_true, if_false]
  unfold polling
  simp only [hb, Option.map_some, Option.getD_some]
  cases hr : (b.tagAt tag.toNat).ready with
  | false => rfl
  | true =>
    obtain ⟨st, hread, hstatus⟩ := hready hr
    rw [if_pos rfl, if_pos rfl, gsSeen_of_status hread hstatus]
    rcases hseen : polling.seen m d s l t with ⟨s1, r⟩
    rw [hseen] at hread
    cases hread
    rfl

end Solo

/-- Settles O23: each instruction of the table is a command or a look at a tag; `test_gsg` to `test_gspoll` hold a path that meets the
conditions of each. -/
theorem gatherCompletes : Obligations.GatherCompletes := by
  intro i f s l t hf h hok
  cases i with
  | gsg tag c d | gsgm tag c d | gss tag c d | gssm tag c d =>
    cases hf
    exact gsInstr_gathering h hok
  | gswt m tag c d | gspoll m tag c d =>
    cases hf
    exact gsWaiting_polling h hok
  | _ => cases hf

end Sys2Proof.Machine
end

section
/-! PROOFS. The matrix engine on one live thread (13 R313-R332): a sign that no earlier phase delays, a token instruction of a region,
a request for accumulator units, and the tag of C, each in a lane that passes its checks. -/

namespace Sys2Proof.Machine

open Sys2Proof

section Solo

variable {s : State} {l : LaneRef} {t : Thread}

/-- Of the operands that passed its checks, the lane reads none that is poisoned: it passes that screen too. -/
theorem screen_poisonOf_solo {roles : List Role} (h : s.Solo l t roles) :
    (s.screen [l] fun t => poisonOf t roles) = (s, [(l, t)]) :=
  screen_one s l t _ h.alone.2 (poisonOf_of_check h.passes)

/-! ### Signs -/

/-- A sign whose register drains no earlier phase, and whose checks pass, is taken. -/
theorem matSign_of_ok {mem z p w : Bool} {k : Nat} {d : BitVec 7} {granted : Bool} {b : Block} {c : CvReg} {home : Nat × Nat}
    (hb : s.block? s.issue.core s.issue.blk = some b) (hcv : (s.signAt b l t p k).cv = some c) (hhome : s.signHome b p = some home)
    (hfree : c.draining = false) (hchecks : signChecks (s.signAt b l t p k) t d mem z p = none) :
    s.matSign mem z p w k d granted l t = (s.takeSign mem z p w k d granted l t c (pairOdd b p) home, none) := by
  have hodd : pairOdd b p = (s.signAt b l t p k).odd := rfl
  unfold State.matSign
  simp only [hb, hodd]
  generalize s.signAt b l t p k = x at hcv hchecks ⊢
  obtain ⟨cv, odd, badPair, signed, clash, quad, launch, block⟩ := x
  cases hcv
  simp only [Option.map_some, Option.getD_some, hfree, Bool.not_false, Bool.and_true, Bool.false_eq_true, if_false, hchecks, hhome]

/-- `mma` and `mmam`: nothing is on its way to the registers of the sign, which its phase takes. -/
theorem lanes_signing {mem : Bool} {z p w : BitVec 1} {k : BitVec 4} {d : BitVec 7} (h : s.Solo l t (signing mem z p w k d).roles)
    (hok : (signing mem z p w k d).ok s l t) :
    s.lanes (matLane mem (bit1 z) (bit1 p) (bit1 w) k.toNat d) = (signing mem z p w k d).eff s l t := by
  obtain ⟨b, c, home, hb, hcv, hhome, hfree, hchecks⟩ := hok
  rw [lanes_solo s l t _ _ h]
  unfold matLane signing
  simp only [settleSign_quiet _ _ _ _ h.quiet, h.alone.2, h.live, Option.getD_some, Bool.false_eq_true, if_false,
    matSign_of_ok hb hcv hhome hfree hchecks, hb, hcv, hhome, endLane]

/-! ### Regions -/

/-- A token instruction whose handle names a region that meets what it asks: it acts on the region, in the one lane. -/
theorem regionOp_region {a : BitVec 7} {ok : State → Region → Prop} {f g : State → List LaneRef → Region → State}
    {bad : State → Region → Option Stop} (h : s.Solo l t (region a ok f).solo.roles) (hok : (region a ok f).solo.ok s l t)
    (hbad : ∀ r, ok s r → bad s r = none) (hg : ∀ r, g s [l] r = f s [l] r) :
    regionOp a bad g s = .next ((region a ok f).solo.eff s l t) := by
  obtain ⟨hword, -, b, r, hb, hr, hmeets⟩ := hok
  have hword : mxSource a = none := hword
  have hsolo : s.Solo l t [.src a] := h
  unfold regionOp GroupForm.solo region
  rw [hword, agree_solo s l t _ _ _ _ _ hsolo]
  simp only [hb, hr, hbad r hmeets, screen_poisonOf_solo hsolo, Option.bind_some, List.all_cons,
    List.all_nil, h.live, Bool.false_and, Bool.false_eq_true, if_false, List.map_cons, List.map_nil, hg]

/-- Of one live lane, the lanes that are no helpers are that lane. -/
theorem filter_live_one (h : l.helper = false) : ([l].filter fun l => !l.helper) = [l] := by
  simp [h]

/-- `afree`: the block holds the region, and no operation uses it. -/
theorem execAfree_solo {a : BitVec 7} {f : SoloForm} (hf : matrixForm (.afree a) = some f) (h : s.Solo l t f.roles)
    (hok : f.ok s l t) : execAfree a s = .next (f.eff s l t) := by
  cases hf
  refine regionOp_region h hok (fun r ⟨hheld, hidle⟩ => ?_) fun _ => rfl
  rw [hheld, hidle]
  rfl

/-- `aacq`: it has no condition beyond its region; the lanes that an operation in flight holds are those that are no helpers. -/
theorem execAacq_solo {a : BitVec 7} {f : SoloForm} (hf : matrixForm (.aacq a) = some f) (h : s.Solo l t f.roles)
    (hok : f.ok s l t) : execAacq a s = .next (f.eff s l t) := by
  cases hf
  refine regionOp_region h hok (fun _ _ => rfl) fun r => ?_
  rw [filter_live_one h.live]
  simp only [List.foldl_cons, List.foldl_nil, h.live, Bool.false_eq_true, if_false]

/-- `arel`: it has no condition beyond its region. -/
theorem execArel_solo {a : BitVec 7} {f : SoloForm} (hf : matrixForm (.arel a) = some f) (h : s.Solo l t f.roles)
    (hok : f.ok s l t) : execArel a s = .next (f.eff s l t) := by
  cases hf
  exact regionOp_region h hok (fun _ _ => rfl) fun _ => rfl

/-- `azero`: the block holds the region. -/
theorem execAzero_solo {a : BitVec 7} {f : SoloForm} (hf : matrixForm (.azero a) = some f) (h : s.Solo l t f.roles)
    (hok : f.ok s l t) : execAzero a s = .next (f.eff s l t) := by
  cases hf
  refine regionOp_region h hok (fun r hheld => ?_) fun _ => rfl
  rw [hheld]
  rfl

/-! ### Allocation and tags -/

/-- `aalloc`: from 1 to 64 units are asked for. -/
theorem execAalloc_solo {p : BitVec 6} {a d : BitVec 7} {f : SoloForm} (hf : matrixForm (.aalloc p a d) = some f)
    (h : s.Solo l t f.roles) (hok : f.ok s l t) : execAalloc p a d s = .next (f.eff s l t) := by
  cases hf
  obtain ⟨hword, -, hpos, hmax, hblock⟩ := hok
  obtain ⟨b, hb⟩ := Option.isSome_iff_exists.1 hblock
  have hword : firstSome [mxSource a, (Role.dst d).illegal, (Role.pdst p).illegal] = none := hword
  have hsolo : s.Solo l t [.src a, .dst d] := h
  unfold execAalloc GroupForm.solo allocating
  dsimp only
  rw [hword, agree_solo s l t _ _ _ _ _ hsolo]
  simp only [hpos, Nat.not_lt.2 hmax, or_self, screen_poisonOf_solo hsolo, hb, List.all_cons,
    List.all_nil, h.live, Bool.false_and, Bool.false_eq_true, if_false, List.map_cons, List.map_nil]

/-- `mtag`: neither the tags nor the format is reserved, and the tags pass their checks. -/
theorem execMtag_solo {b a d : BitVec 7} {f : SoloForm} (hf : matrixForm (.mtag b a d) = some f) (h : s.Solo l t f.roles)
    (hok : f.ok s l t) : execMtag b a d s = .next (f.eff s l t) := by
  cases hf
  obtain ⟨hsources, htagA, htagB, hfmt, htags⟩ := hok
  have hsolo : s.Solo l t [.dst d, .src64 a, .src b] := h
  have hword : firstSome [mxSource a, mxSource b, (Role.dst d).illegal] = none := by
    rw [firstSome_none] at hsources ⊢
    simpa [illegal_of_check hsolo.passes] using hsources
  unfold execMtag
  rw [lanes_solo s l t _ _ h]
  simp only [settleRoles_quiet _ _ _ _ h.quiet, h.alone.2, Option.getD_some, hword, htagA, htagB, hfmt, hsolo.passes, htags,
    Bool.false_eq_true, or_self, and_false, if_false, endLane]

end Solo

/-- Settles O24: each instruction of the table is a sign, an instruction of one region, a request for units, or the tag of C;
`test_mma` to `test_mtag` hold a path that meets the conditions of each. -/
theorem matrixCompletes : Obligations.MatrixCompletes := by
  intro i f s l t hf h hok
  cases i with
  | mma z p w k d | mmam z p w k d =>
    cases hf
    exact congrArg Host.Outcome.next (lanes_signing h hok)
  | aalloc p a d => exact execAalloc_solo hf h hok
  | afree a => exact execAfree_solo hf h hok
  | aacq a => exact execAacq_solo hf h hok
  | arel a => exact execArel_solo hf h hok
  | azero a => exact execAzero_solo hf h hok
  | mtag b a d => exact execMtag_solo hf h hok
  | _ => cases hf

end Sys2Proof.Machine
end

section
/-! PROOFS. Fixer words (14 R346-R353): the fields of each layout, and the decoding of every fixer instruction's own word. -/

namespace Sys2Proof

/-! ### Fields of a word -/

/-- A field read as bits is an operand where the number that it holds is the operand's. -/
theorem bf_eq_iff {w lo wd : Nat} {x : BitVec wd} : bf w lo wd = x ↔ fld w lo wd = x.toNat := by
  rw [← BitVec.toNat_inj]
  simp [bf, fld]

/-- The op and the operand d together. -/
@[simp] theorem fld_op_d {w v : Nat} : fld w 21 11 = v ↔ fld w 26 6 = v / 2 ^ 5 ∧ fld w 21 5 = v % 2 ^ 5 := by
  unfold fld
  omega

/-- The upper half of a word. -/
@[simp] theorem fld_upper {w v : Nat} : fld w 16 16 = v ↔ fld w 26 6 = v / 2 ^ 10 ∧ fld w 21 5 = v / 2 ^ 5 % 2 ^ 5 ∧ fld w 16 5 = v % 2 ^ 5 := by
  unfold fld
  omega

/-- The whole word. -/
@[simp] theorem fld_whole {w v : Nat} : fld w 0 32 = v ↔ fld w 26 6 = v / 2 ^ 26 ∧ fld w 0 26 = v % 2 ^ 26 := by
  unfold fld
  omega

section Layouts

variable {w base : Nat} {d a b c n5 : BitVec 5} {i : BitVec 16} {i11 : BitVec 11} {l o : BitVec 4} {n : BitVec 2} {v : BitVec 1}

/-! ### The layouts of fixer words -/

theorem fields_dI (hb : base % 2 ^ 26 = 0) (hlt : base < 2 ^ 32) (hw : wordD25_21I15_0 base d i = w) :
    fld w 26 6 = base / 2 ^ 26 ∧ fld w 16 5 = 0 ∧ bf w 21 5 = d ∧ bf w 0 16 = i := by
  subst hw
  simp only [bf_eq_iff, fld, wordD25_21I15_0]
  exact ⟨by omega, by omega, by omega, by omega⟩

theorem fields_daI (hb : base % 2 ^ 26 = 0) (hlt : base < 2 ^ 32) (hw : wordD25_21A20_16I15_0 base d a i = w) :
    fld w 26 6 = base / 2 ^ 26 ∧ bf w 21 5 = d ∧ bf w 16 5 = a ∧ bf w 0 16 = i := by
  subst hw
  simp only [bf_eq_iff, fld, wordD25_21A20_16I15_0]
  exact ⟨by omega, by omega, by omega, by omega⟩

theorem fields_dab (hb : base % 2 ^ 26 < 2 ^ 11) (hlt : base < 2 ^ 32) (hw : wordD25_21A20_16B15_11 base d a b = w) :
    fld w 26 6 = base / 2 ^ 26 ∧ fld w 0 11 = base % 2 ^ 26 ∧ bf w 21 5 = d ∧ bf w 16 5 = a ∧ bf w 11 5 = b := by
  subst hw
  simp only [bf_eq_iff, fld, wordD25_21A20_16B15_11]
  exact ⟨by omega, by omega, by omega, by omega, by omega⟩

theorem fields_I (hb : base % 2 ^ 26 = 0) (hlt : base < 2 ^ 32) (hw : wordI15_0 base i = w) :
    fld w 26 6 = base / 2 ^ 26 ∧ fld w 21 5 = 0 ∧ fld w 16 5 = 0 ∧ bf w 0 16 = i := by
  subst hw
  simp only [bf_eq_iff, fld, wordI15_0]
  exact ⟨by omega, by omega, by omega, by omega⟩

theorem fields_aI (hb : base % 2 ^ 21 = 0) (hlt : base < 2 ^ 32) (hw : wordA20_16I15_0 base a i = w) :
    fld w 26 6 = base / 2 ^ 26 ∧ fld w 21 5 = base / 2 ^ 21 % 2 ^ 5 ∧ bf w 16 5 = a ∧ bf w 0 16 = i := by
  subst hw
  simp only [bf_eq_iff, fld, wordA20_16I15_0]
  exact ⟨by omega, by omega, by omega, by omega⟩

theorem fields_line (hb : base % 2 ^ 26 = 0) (hlt : base < 2 ^ 32) (hw : wordD25_21A20_16N15_11I10_0 base d a n5 i11 = w) :
    fld w 26 6 = base / 2 ^ 26 ∧ bf w 21 5 = d ∧ bf w 16 5 = a ∧ bf w 11 5 = n5 ∧ bf w 0 11 = i11 := by
  subst hw
  simp only [bf_eq_iff, fld, wordD25_21A20_16N15_11I10_0]
  exact ⟨by omega, by omega, by omega, by omega, by omega⟩

theorem fields_half (hb : base % 2 ^ 26 = 0) (hlt : base < 2 ^ 32) (hw : wordD25_21A20_16H6_6 base d a v = w) :
    fld w 26 6 = base / 2 ^ 26 ∧ fld w 0 6 = 0 ∧ fld w 7 9 = 0 ∧ bf w 21 5 = d ∧ bf w 16 5 = a ∧ bf w 6 1 = v := by
  subst hw
  simp only [bf_eq_iff, fld, wordD25_21A20_16H6_6]
  exact ⟨by omega, by omega, by omega, by omega, by omega, by omega⟩

theorem fields_lane (hb : base % 2 ^ 26 = 0) (hlt : base < 2 ^ 32) (hw : wordD25_21A20_16L9_6 base d a l = w) :
    fld w 26 6 = base / 2 ^ 26 ∧ fld w 0 6 = 0 ∧ fld w 10 6 = 0 ∧ bf w 21 5 = d ∧ bf w 16 5 = a ∧ bf w 6 4 = l := by
  subst hw
  simp only [bf_eq_iff, fld, wordD25_21A20_16L9_6]
  exact ⟨by omega, by omega, by omega, by omega, by omega, by omega⟩

theorem fields_run1 (hb : base % 2 ^ 26 < 16) (hlt : base < 2 ^ 32) (hw : wordD25_21A20_16N5_4 base d a n = w) :
    fld w 26 6 = base / 2 ^ 26 ∧ fld w 0 4 = base % 2 ^ 26 ∧ fld w 6 10 = 0 ∧ bf w 21 5 = d ∧ bf w 16 5 = a ∧ bf w 4 2 = n := by
  subst hw
  simp only [bf_eq_iff, fld, wordD25_21A20_16N5_4]
  exact ⟨by omega, by omega, by omega, by omega, by omega, by omega⟩

theorem fields_run2 (hb : base % 2 ^ 26 < 16) (hlt : base < 2 ^ 32) (hw : wordD25_21A20_16B15_11N5_4 base d a b n = w) :
    fld w 26 6 = base / 2 ^ 26 ∧ fld w 0 4 = base % 2 ^ 26 ∧ fld w 6 5 = 0 ∧ bf w 21 5 = d ∧ bf w 16 5 = a ∧ bf w 11 5 = b ∧
      bf w 4 2 = n := by
  subst hw
  simp only [bf_eq_iff, fld, wordD25_21A20_16B15_11N5_4]
  exact ⟨by omega, by omega, by omega, by omega, by omega, by omega, by omega⟩

theorem fields_run3 (hb : base % 2 ^ 26 < 16) (hlt : base < 2 ^ 32) (hw : wordD25_21A20_16B15_11C10_6N5_4 base d a b c n = w) :
    fld w 26 6 = base / 2 ^ 26 ∧ fld w 0 4 = base % 2 ^ 26 ∧ bf w 21 5 = d ∧ bf w 16 5 = a ∧ bf w 11 5 = b ∧ bf w 6 5 = c ∧
      bf w 4 2 = n := by
  subst hw
  simp only [bf_eq_iff, fld, wordD25_21A20_16B15_11C10_6N5_4]
  exact ⟨by omega, by omega, by omega, by omega, by omega, by omega, by omega⟩

theorem fields_format (hb : base % 2 ^ 26 = 0) (hlt : base < 2 ^ 32) (hw : wordD25_21A20_16C10_6 base d a c = w) :
    fld w 26 6 = base / 2 ^ 26 ∧ fld w 0 6 = 0 ∧ fld w 11 5 = 0 ∧ bf w 21 5 = d ∧ bf w 16 5 = a ∧ bf w 6 5 = c := by
  subst hw
  simp only [bf_eq_iff, fld, wordD25_21A20_16C10_6]
  exact ⟨by omega, by omega, by omega, by omega, by omega, by omega⟩

theorem fields_quant (hb : base % 2 ^ 26 = 0) (hlt : base < 2 ^ 32) (hw : wordD25_21A20_16B15_11C10_6O3_0 base d a b c o = w) :
    fld w 26 6 = base / 2 ^ 26 ∧ fld w 4 2 = 0 ∧ bf w 21 5 = d ∧ bf w 16 5 = a ∧ bf w 11 5 = b ∧ bf w 6 5 = c ∧ bf w 0 4 = o := by
  subst hw
  simp only [bf_eq_iff, fld, wordD25_21A20_16B15_11C10_6O3_0]
  exact ⟨by omega, by omega, by omega, by omega, by omega, by omega, by omega⟩

theorem fields_rot (hb : base % 2 ^ 26 = 0) (hlt : base < 2 ^ 32) (hw : wordD25_21A20_16C10_6V0_0 base d a c v = w) :
    fld w 26 6 = base / 2 ^ 26 ∧ fld w 1 5 = 0 ∧ fld w 11 5 = 0 ∧ bf w 21 5 = d ∧ bf w 16 5 = a ∧ bf w 6 5 = c ∧ bf w 0 1 = v := by
  subst hw
  simp only [bf_eq_iff, fld, wordD25_21A20_16C10_6V0_0]
  exact ⟨by omega, by omega, by omega, by omega, by omega, by omega, by omega⟩

theorem fields_master (hb : base % 2 ^ 26 = 0) (hlt : base < 2 ^ 32) (hw : wordD25_21A20_16N1_0 base d a n = w) :
    fld w 26 6 = base / 2 ^ 26 ∧ fld w 2 14 = 0 ∧ bf w 21 5 = d ∧ bf w 16 5 = a ∧ bf w 0 2 = n := by
  subst hw
  simp only [bf_eq_iff, fld, wordD25_21A20_16N1_0]
  exact ⟨by omega, by omega, by omega, by omega, by omega⟩

theorem fields_flags (hb : base % 2 ^ 26 = 0) (hlt : base < 2 ^ 32) (hw : wordD25_21C6_6 base d v = w) :
    fld w 26 6 = base / 2 ^ 26 ∧ fld w 0 6 = 0 ∧ fld w 7 14 = 0 ∧ bf w 21 5 = d ∧ bf w 6 1 = v := by
  subst hw
  simp only [bf_eq_iff, fld, wordD25_21C6_6]
  exact ⟨by omega, by omega, by omega, by omega, by omega⟩

end Layouts

/-! ### The decoding of each word -/

/-- Settles O3: the op of a word leaves the rows of its own op, and of these the fields of its layout leave one. -/
theorem fixerRoundTrip : Obligations.FixerRoundTrip := by
  intro i hfixer _
  generalize hw : encodeWord i = w
  cases i with
  | sli d i =>
    obtain ⟨hop, hzero, hd, hi⟩ := fields_dI (by decide) (by decide) hw
    simp [decodeFixer, hop, hzero, hd, hi]
  | saddi d a i | sld d a i | sst d a i =>
    obtain ⟨hop, hd, ha, hi⟩ := fields_daI (by decide) (by decide) hw
    simp [decodeFixer, hop, hd, ha, hi]
  | saluAdd d a b | saluSub d a b | saluMul d a b | saluAnd d a b | saluOr d a b | saluXor d a b | saluShl d a b | saluShr d a b =>
    obtain ⟨hop, hfn, hd, ha, hb⟩ := fields_dab (by decide) (by decide) hw
    simp [decodeFixer, hop, hfn, hd, ha, hb]
  | b i =>
    obtain ⟨hop, hcond, ha, hi⟩ := fields_I (by decide) (by decide) hw
    simp [decodeFixer, hop, hcond, ha, hi]
  | bEqz a i | bNez a i | bLtz a i | bGez a i | floop a i =>
    obtain ⟨hop, hcond, ha, hi⟩ := fields_aI (by decide) (by decide) hw
    simp [decodeFixer, hop, hcond, ha, hi]
  | stepend | fend =>
    subst hw
    decide
  | fld d a n i | fst d a n i | fredf d a n i =>
    obtain ⟨hop, hd, ha, hn, hi⟩ := fields_line (by decide) (by decide) hw
    simp [decodeFixer, hop, hd, ha, hn, hi]
  | fbc d a h =>
    obtain ⟨hop, hlow, hzero, hd, ha, hh⟩ := fields_half (by decide) (by decide) hw
    simp [decodeFixer, hop, hlow, hzero, hd, ha, hh]
  | fext d a l | fins d a l =>
    obtain ⟨hop, hlow, hzero, hd, ha, hl⟩ := fields_lane (by decide) (by decide) hw
    simp [decodeFixer, hop, hlow, hzero, hd, ha, hl]
  | fopAdd d a b n | fopSub d a b n | fopMul d a b n | fopDiv d a b n | fopMin d a b n | fopMax d a b n | iopAdd d a b n | iopSub d a b n
  | iopAnd d a b n | iopOr d a b n | iopXor d a b n | iopShl d a b n | iopShr d a b n | iopFclt d a b n | iopIeq d a b n =>
    obtain ⟨hop, hfn, hzero, hd, ha, hb, hn⟩ := fields_run2 (by decide) (by decide) hw
    simp [decodeFixer, hop, hfn, hzero, hd, ha, hb, hn]
  | fopFma d a b c n | fopFnma d a b c n | iopSel d a b c n =>
    obtain ⟨hop, hfn, hd, ha, hb, hc, hn⟩ := fields_run3 (by decide) (by decide) hw
    simp [decodeFixer, hop, hfn, hd, ha, hb, hc, hn]
  | fopSqrt d a n | fopMov d a n =>
    obtain ⟨hop, hfn, hzero, hd, ha, hn⟩ := fields_run1 (by decide) (by decide) hw
    simp [decodeFixer, hop, hfn, hzero, hd, ha, hn]
  | fcvt d a c =>
    obtain ⟨hop, hlow, hzero, hd, ha, hc⟩ := fields_format (by decide) (by decide) hw
    simp [decodeFixer, hop, hlow, hzero, hd, ha, hc]
  | fdq d a b c o | frq d a b c o =>
    obtain ⟨hop, hzero, hd, ha, hb, hc, ho⟩ := fields_quant (by decide) (by decide) hw
    simp [decodeFixer, hop, hzero, hd, ha, hb, hc, ho]
  | frot d a c v =>
    obtain ⟨hop, hzero, hgap, hd, ha, hc, hv⟩ := fields_rot (by decide) (by decide) hw
    simp [decodeFixer, hop, hzero, hgap, hd, ha, hc, hv]
  | wbld d a n =>
    obtain ⟨hop, hzero, hd, ha, hn⟩ := fields_master (by decide) (by decide) hw
    simp [decodeFixer, hop, hzero, hd, ha, hn]
  | fflg d c =>
    obtain ⟨hop, hlow, hzero, hd, hc⟩ := fields_flags (by decide) (by decide) hw
    simp [decodeFixer, hop, hlow, hzero, hd, hc]
  | _ => cases hfixer

end Sys2Proof
end

section
/-! PROOFS. The instructions of a fixer (14 R346-R353, R359, R360), on the instances of a kernel: one shared run of the executing
one, which an instruction of registers, a scalar access, a line instruction and a commit each pass to its end. -/

namespace Sys2Proof.Machine

open Sys2Proof

section Fixing

variable {s : State} {k : Kernel} {x : FxInst}

/-! ### Operand checks that pass -/

theorem badS_none {rs : List (BitVec 5)} (h : scalars rs) (word : Nat) : badS word rs = none :=
  if_neg fun hany => by
    obtain ⟨r, hr, hbad⟩ := List.any_eq_true.1 hany
    exact absurd (h r hr) (Nat.not_lt.2 (of_decide_eq_true hbad))

theorem badRun_none {rs : List (Nat × Nat)} (h : ∀ r ∈ rs, r.1 + r.2 ≤ 32) (word : Nat) : badRun word rs = none :=
  if_neg fun hany => by
    obtain ⟨r, hr, hbad⟩ := List.any_eq_true.1 hany
    exact absurd (h r hr) (Nat.not_le.2 (of_decide_eq_true hbad))

/-- A run of n + 1 registers whose operands each stay below f24 or from f24 on (R349). -/
theorem badOperands_none {d : BitVec 5} {rs : List (BitVec 5)} {n : BitVec 2} (hd : 24 ≤ d.toNat → n = 0)
    (h : ∀ r ∈ rs, 24 ≤ r.toNat ∨ r.toNat + n.toNat ≤ 23) (word : Nat) :
    badOperands word (n.toNat + 1) d.toNat (rs.map (·.toNat)) = none := by
  refine if_neg ?_
  rintro (⟨hhigh, hlong⟩ | hany)
  · simp [hd hhigh] at hlong
  · simp only [List.any_eq_true, List.mem_map, Bool.and_eq_true, decide_eq_true_eq] at hany
    obtain ⟨_, ⟨r, hr, rfl⟩, hlow, hpast⟩ := hany
    have := h r hr
    omega

/-! ### The run of the executing one of a kernel's instances -/

/-- What an instruction of a fixer leaves where it does not fault. -/
theorem fxRun_of_fixing {f : State → Kernel → FxInst → State × FxInst × Option FxErr} {s1 : State} {x1 : FxInst} (h : s.Fixing k x)
    (hf : f (s.servedKernel k) k x = (s1, x1, none)) : fxRun f s = .next (s1.putServed x1) := by
  simp only [fxRun, h.kernel, h.inst, hf]
  rfl

theorem fxPure_of_fixing {f : Kernel → FxInst → Except FxErr FxInst} {x1 : FxInst} (h : s.Fixing k x) (hf : f k x = .ok x1) :
    fxPure f s = .next ((s.servedKernel k).putServed x1) :=
  fxRun_of_fixing h (by rw [hf])

theorem fxChecked_of_fixing {check : Option FxErr} {f : Kernel → FxInst → FxInst} (h : s.Fixing k x) (hc : check = none) :
    fxChecked [check] f s = .next ((s.servedKernel k).putServed (f k x)) :=
  fxPure_of_fixing h (by rw [hc]; rfl)

theorem fxGuarded_of_fixing {check : Kernel → FxInst → Option FxErr} {f : Kernel → FxInst → FxInst} (h : s.Fixing k x)
    (hc : check k x = none) : fxGuarded check f s = .next ((s.servedKernel k).putServed (f k x)) :=
  fxPure_of_fixing h (by rw [hc])

/-! ### Registers -/

/-- A branch on a scalar that exists. -/
theorem fxBranch_of_fixing {cond : Nat} {p : Dword → Bool} {a : BitVec 5} {i : BitVec 16} (h : s.Fixing k x) (hok : (branch a i p).ok k x) :
    fxBranch cond p a i s = .next ((s.servedKernel k).putServed ((branch a i p).eff k x)) :=
  fxChecked_of_fixing h (badS_none hok (fxI 6 cond a.toNat i))

/-- A lane operation whose operands pass. -/
theorem fxLaneOp_of_fixing {op fn : Nat} {d a b c : BitVec 5} {used : List (BitVec 5)} {n : BitVec 2} {g : Word → Word → Word → Word × Word}
    (h : s.Fixing k x) (hok : (lanewise d a b c used n g).ok k x) :
    fxLaneOp op fn d a b c used n g s = .next ((s.servedKernel k).putServed ((lanewise d a b c used n g).eff k x)) := by
  obtain ⟨hd, hrs⟩ := hok
  exact fxChecked_of_fixing h (badOperands_none hd hrs _)

/-- `floop`: the count that reaches 0 goes on, and any other branches. -/
theorem execFloop_of_fixing {a : BitVec 5} {i : BitVec 16} (h : s.Fixing k x) (ha : scalars [a]) :
    execFloop a i s = .next ((s.servedKernel k).putServed
      (if x.sreg a = 1 then (x.setS a 0).step else (x.setS a (x.sreg a - 1)).jump i)) := by
  refine (fxChecked_of_fixing h (badS_none ha _)).trans ?_
  dsimp only
  by_cases hone : x.sreg a = 1
  · rw [hone]
    rfl
  · rw [if_pos (sub_ne_zero.2 hone), if_neg hone]

theorem execWbld_of_fixing {d a : BitVec 5} {n : BitVec 2} {f : FixerForm} (hf : fixerForm (.wbld d a n) = some f) (h : s.Fixing k x)
    (hok : f.ok k x) : execWbld d a n s = .next ((s.servedKernel k).putServed (f.eff k x)) := by
  cases hf
  obtain ⟨ha, hd⟩ := hok
  refine fxChecked_of_fixing h (badRun_none ?_ _)
  simp only [List.forall_mem_cons]
  exact ⟨ha, hd, by simp⟩

/-- Each instruction of the table gives its fixer the registers of the table, once its checks pass. -/
theorem exec_of_fixerForm {i : Instr} {f : FixerForm} (hf : fixerForm i = some f) (h : s.Fixing k x) (hok : f.ok k x) :
    exec i s = .next ((s.servedKernel k).putServed (f.eff k x)) := by
  cases i with
  | sli d i | saddi d a i | saluAdd d a b | saluSub d a b | saluMul d a b | saluAnd d a b | saluOr d a b | saluXor d a b | saluShl d a b
  | saluShr d a b | fbc d a half | fext d a l | fins d a l | fflg d c =>
    cases hf
    exact fxChecked_of_fixing h (badS_none hok _)
  | b i =>
    cases hf
    exact fxBranch_of_fixing (cond := 0) h hok
  | bEqz a i | bNez a i | bLtz a i | bGez a i =>
    cases hf
    exact fxBranch_of_fixing h hok
  | floop a i =>
    cases hf
    exact execFloop_of_fixing h hok
  | fopAdd d a b n | fopSub d a b n | fopMul d a b n | fopDiv d a b n | fopMin d a b n | fopMax d a b n | fopFma d a b c n | fopFnma d a b c n
  | fopSqrt d a n | fopMov d a n | iopAdd d a b n | iopSub d a b n | iopAnd d a b n | iopOr d a b n | iopXor d a b n | iopShl d a b n
  | iopShr d a b n | iopSel d a b c n | iopFclt d a b n | iopIeq d a b n =>
    cases hf
    exact fxLaneOp_of_fixing h hok
  | fcvt d a c | fdq d a b c o | frq d a b c o | frot d a c v =>
    cases hf
    exact fxGuarded_of_fixing h hok
  | wbld d a n => exact execWbld_of_fixing hf h hok
  | _ => cases hf

end Fixing

/-- Settles O38: of the kernel's instances, the one replaced has the registers, flags and PC of the table. -/
theorem fixerCompletes : Obligations.FixerCompletes := fun _ _ _ _ _ hf h hok => exec_of_fixerForm hf h hok

/-! ### The frame of an instruction of registers -/

theorem sget_smod_same {β : Type} (m : SMap β) (k : Nat) (f : β → β) : sget (smod m k f) k = (sget m k).map f := by
  induction m with
  | nil => rfl
  | cons p m ih =>
    unfold smod at ih ⊢
    by_cases hp : p.1 = k
    · simp [sget, hp]
    · simpa [sget, hp] using ih

theorem sget_smod_ne {β : Type} (m : SMap β) {k j : Nat} (f : β → β) (h : j ≠ k) : sget (smod m k f) j = sget m j := by
  induction m with
  | nil => rfl
  | cons p m ih =>
    unfold smod at ih ⊢
    by_cases hp : p.1 = k
    · simpa [sget, hp, h.symm] using ih
    · simp only [List.map_cons, if_neg hp, sget, ih]

/-- A request's name is all that changes where one of a kernel's instances is served. -/
theorem servedKernel_eq (s : State) (k : Kernel) : ∃ r, s.servedKernel k = { s with by_ := r } := by
  unfold State.servedKernel
  split
  · exact ⟨_, rfl⟩
  · exact ⟨_, rfl⟩

theorem putServed_kernels (s : State) (x : FxInst) : (s.putServed x).kernels =
    smod s.kernels s.fx.1 fun y => { y with insts := sput y.insts s.fx.2 { x with fresh := false } } := rfl

/-- Settles O39: of the kernel's instances, the one served and replaced is the one place of the state that
changes, but for the name of the requests. -/
theorem fixerFrame : Obligations.FixerFrame := by
  intro i f s u k x hf h hok hx
  rw [exec_of_fixerForm hf h hok] at hx
  cases hx
  obtain ⟨r, hr⟩ := servedKernel_eq s k
  rw [hr]
  have hkernel : sget s.kernels s.fx.1 = some k := h.kernel
  refine ⟨fun _ => rfl, rfl, rfl, rfl, fun m hm => ?_, fun j hj => ?_⟩
  · rw [putServed_kernels]
    exact sget_smod_ne _ _ hm
  · simp [putServed_kernels, sget_smod_same, hkernel, sget_sput_ne _ _ _ _ hj]

end Sys2Proof.Machine
end

section
/-! PROOFS. The instructions of a fixer that reach memory or their kernel (14 R347, R348, R359, R360): a scalar access, a line
instruction and a commit, each of which does what the table says where none of its checks fails. -/

namespace Sys2Proof.Machine

open Sys2Proof

section Fixing

variable {s : State} {k : Kernel} {x : FxInst}

@[simp] theorem servedKernel_fx (s : State) (k : Kernel) : (s.servedKernel k).fx = s.fx := by
  obtain ⟨r, hr⟩ := servedKernel_eq s k
  rw [hr]

/-! ### Scalar accesses and lines -/

theorem execSld_of_fixing {d a : BitVec 5} {i : BitVec 16} {f : FixerMove} (hf : fixerMove (.sld d a i) = some f) (h : s.Fixing k x)
    (hok : f.ok s k x) : execSld d a i s = .next (f.eff s k x) := by
  cases hf
  obtain ⟨hregs, halign, bs, hload⟩ := hok
  have hload : (s.servedKernel k).fxLoad k (fxAddr8 x a i) 8 = (((s.servedKernel k).fxLoad k (fxAddr8 x a i) 8).1, .ok bs) :=
    Prod.ext rfl hload
  dsimp only
  rw [hload]
  refine fxRun_of_fixing h ?_
  simp only [badS_none hregs, halign, not_true_eq_false, ne_eq, if_false]
  rw [hload]

theorem execSst_of_fixing {d a : BitVec 5} {i : BitVec 16} {f : FixerMove} (hf : fixerMove (.sst d a i) = some f) (h : s.Fixing k x)
    (hok : f.ok s k x) : execSst d a i s = .next (f.eff s k x) := by
  cases hf
  obtain ⟨hregs, halign, hstore⟩ := hok
  refine fxRun_of_fixing h ?_
  simp only [badS_none hregs, halign, not_true_eq_false, ne_eq, if_false, servedKernel_fx]
  generalize (s.servedKernel k).fxStore k s.fx.2 x (fxAddr8 x a i) (leOf 8 (x.sreg d).toNat) = r at hstore ⊢
  obtain ⟨s1, x1, e⟩ := r
  cases hstore
  rfl

/-- A line instruction whose lines are in place, none of which faults. -/
theorem fxLineOp_of_fixing {op : Nat} {d a n : BitVec 5} {i : BitVec 11}
    {g : Kernel → State → FxInst → Nat → Nat → State × FxInst × Option FxErr} (h : s.Fixing k x) (hok : (lining op d a n i g).ok s k x) :
    fxLineOp op d a n i g s = .next ((lining op d a n i g).eff s k x) := by
  obtain ⟨ls, hlines, hnone⟩ := hok
  unfold lining
  simp only [hlines]
  refine fxRun_of_fixing h ?_
  simp only [hlines]
  exact Prod.ext rfl (Prod.ext rfl hnone)

/-! ### Commits -/

theorem execStepend_of_fixing {f : FixerMove} (hf : fixerMove .stepend = some f) (h : s.Fixing k x) (hok : f.ok s k x) :
    execStepend s = .next (f.eff s k x) := by
  cases hf
  have hok : (s.commitStep k s.fx.2 x).2.2 = none := hok
  simp only [execStepend, h.kernel, h.inst]
  generalize s.commitStep k s.fx.2 x = r at hok ⊢
  obtain ⟨s1, x1, e⟩ := r
  cases hok
  rfl

/-- `fend`: what has run since the last commit is committed, and the slice is free. -/
theorem execFend_of_fixing {f : FixerMove} (hf : fixerMove .fend = some f) (h : s.Fixing k x) (hok : f.ok s k x) :
    execFend s = .next (f.eff s k x) := by
  cases hf
  obtain ⟨hcommit, hfree⟩ := hok
  unfold fixerMove.committed at hcommit hfree ⊢
  unfold fixerMove.ending at hfree ⊢
  simp only [execFend, h.kernel, h.inst]
  generalize (if x.fresh then (s, x, none) else s.commitStep k s.fx.2 x) = r at hcommit hfree ⊢
  obtain ⟨s1, x1, e⟩ := r
  cases hcommit
  dsimp only at hfree ⊢
  generalize s1.fxWrites k _ = q at hfree ⊢
  obtain ⟨s2, r⟩ := q
  cases hfree
  rfl

end Fixing

/-- Settles O40: each instruction of the table, by its own lemma above; `test_sld` to `test_fend` hold a kernel's state that meets
the conditions of each. -/
theorem fixerMovesComplete : Obligations.FixerMovesComplete := by
  intro i f s k x hf h hok
  cases i with
  | sld d a i => exact execSld_of_fixing hf h hok
  | sst d a i => exact execSst_of_fixing hf h hok
  | fld d a n i | fst d a n i | fredf d a n i =>
    cases hf
    exact fxLineOp_of_fixing h hok
  | stepend => exact execStepend_of_fixing hf h hok
  | fend => exact execFend_of_fixing hf h hok
  | _ => cases hf

end Sys2Proof.Machine
end

section
/-! PROOFS. What a step executes (07 R166; 14 R344, R346, R347; log entry 4): noting the ready groups changes cores alone, so that the
agenda, the choice and the kernels are those of the state before; then an input or a fixer word is executed. -/

namespace Sys2Proof.Machine

open Sys2Proof

/-! ### What noting the ready groups leaves alone -/

/-- Nothing but cores has changed. -/
def OnlyCores (s u : State) : Prop := u = { s with cores := u.cores }

theorem OnlyCores.refl (s : State) : OnlyCores s s := rfl

theorem OnlyCores.trans {s u v : State} (h : OnlyCores s u) (h' : OnlyCores u v) : OnlyCores s v := by
  unfold OnlyCores at h h' ⊢
  rw [h', h]

theorem onlyCores_foldl {β : Type} {f : State → β → State} (h : ∀ s x, OnlyCores s (f s x)) (xs : List β) (s : State) :
    OnlyCores s (xs.foldl f s) := by
  induction xs generalizing s with
  | nil => exact .refl s
  | cons x xs ih => exact (h s x).trans (ih (f s x))

theorem onlyCores_modBlock (s : State) (c b : Nat) (f : Block → Block) : OnlyCores s (s.modBlock c b f) := by
  unfold State.modBlock
  split
  · rfl
  · rfl

theorem onlyCores_noteReady (s : State) (core : Nat) (ready : List (Nat × Nat)) : OnlyCores s (s.noteReady core ready) :=
  onlyCores_foldl (fun s k => onlyCores_modBlock s core k _) _ s

theorem onlyCores_noteGroups (s : State) : OnlyCores s s.noteGroups := by
  refine onlyCores_foldl (fun t p => ?_) _ s
  split
  · exact .refl t
  · exact onlyCores_noteReady t p.1 _

@[simp] theorem noteGroups_agenda (s : State) : s.noteGroups.agenda = s.agenda := by rw [onlyCores_noteGroups s]
@[simp] theorem noteGroups_sel (s : State) : s.noteGroups.sel = s.sel := by rw [onlyCores_noteGroups s]
@[simp] theorem noteGroups_kernels (s : State) : s.noteGroups.kernels = s.kernels := by rw [onlyCores_noteGroups s]

/-! ### The step -/

/-- Settles O9: the agenda is as it was when the ready groups have been noted. -/
theorem stepTakesInput : Obligations.StepTakesInput := by
  intro s i rest h
  simp only [step, State.cycleOn, noteGroups_agenda, h]

/-- With no input waiting, the step executes the one of a kernel's instances that is chosen. -/
theorem step_of_fixer {s : State} {kn n : Nat} (hagenda : s.agenda = []) (hsel : s.sel = some (.fixer kn n)) :
    step s = endCycle none (s.noteGroups.dropChoice.runFixer kn n) := by
  simp [step, State.cycleOn, State.act, State.runChosen, hagenda, hsel]

/-- Of a kernel's instances, one whose word is fetched executes that word. -/
theorem runFixer_of_fetch {s s1 : State} {kn n w : Nat} {k : Kernel} {x : FxInst} (hk : sget s.kernels kn = some k)
    (hx : sget k.insts n = some x) (hw : ((s.onInst kn n).servedKernel k).fxFetch k x.pc.toNat = (s1, some w)) :
    s.runFixer kn n = s1.runWord w := by
  simp only [State.runFixer, hk, hx, hw]

/-- Settles O8: the step is the end of a cycle after the word fetched, which decodes or is unassigned or reserved. -/
theorem stepRunsFixerWord : Obligations.StepRunsFixerWord := by
  intro s s1 kn n w k x hagenda hsel hk hx hw
  have hkernel : sget s.noteGroups.dropChoice.kernels kn = some k := (congrArg (sget · kn) (noteGroups_kernels s)).trans hk
  have hstep : step s = endCycle none (s1.runWord w) := by
    rw [step_of_fixer hagenda hsel, runFixer_of_fetch hkernel hx hw]
  unfold State.runWord at hstep
  refine ⟨fun i hi => ?_, fun hnone hun => ?_, fun hnone hun => ?_⟩
  · simpa only [hi] using hstep
  · simpa only [hnone, hun, if_true] using hstep
  · simpa only [hnone, hun, Bool.false_eq_true, if_false] using hstep

end Sys2Proof.Machine
end

section
/-! PROOFS. The events of fixer kernels (14 R345-R347, R356, R357): each finds its kernel, passes its own conditions, and does what the
table says. -/

namespace Sys2Proof.Machine

open Sys2Proof

section Events

variable {s : State} {f : EventForm}

/-- A kernel that waits no longer begins, with its range locked. -/
theorem execFixerKernelAdmit_of_ok {n : Nat} (hf : kernelEvent (.fixerKernelAdmit n) = some f) (h : f.ok s) :
    execFixerKernelAdmit n s = .next (f.eff s) := by
  cases hf
  obtain ⟨k, c, hk, hc, hwaits⟩ := h
  unfold execFixerKernelAdmit
  simp only [hk, hc, hwaits, Bool.false_eq_true, if_false]

/-- A slice to restart is read, or fails its kernel; with none left the next of its instances starts in a free one. -/
theorem execFixerInstanceStart_of_ok {n : Nat} (hf : kernelEvent (.fixerInstanceStart n) = some f) (h : f.ok s) :
    execFixerInstanceStart n s = .next (f.eff s) := by
  cases hf
  obtain ⟨k, m, hk, hadmitted, hstopping, hpreempted, hbusy, hslice⟩ := h
  have hmay : ¬(!k.admitted || k.stopping || k.preempted || decide (64 ≤ s.fixersBusy k.part)) = true := by
    simp [hadmitted, hstopping, hpreempted, hbusy]
  unfold execFixerInstanceStart
  simp only [hk]
  rw [if_neg hmay]
  cases hrestarts : k.restarts with
  | cons m rest =>
    dsimp only
    rcases (s.modKernel n fun y => { y with restarts := rest }).fxRead k (k.slice m) 2304 with ⟨s2, e | bs⟩
    · rfl
    · rfl
  | nil =>
    obtain ⟨-, hnext, hfree⟩ := hslice.resolve_left (by simp [hrestarts])
    simp only [hfree, Nat.not_le.2 hnext, if_false]

/-- A kernel whose instances have ended completes; its block may then retire. -/
theorem execFixerKernelComplete_of_ok {n : Nat} (hf : kernelEvent (.fixerKernelComplete n) = some f) (h : f.ok s) :
    execFixerKernelComplete n s = .next (f.eff s) := by
  cases hf
  obtain ⟨k, hk, hended⟩ := h
  unfold execFixerKernelComplete
  simp only [hk, hended, Bool.not_true, Bool.false_eq_true, if_false]
  generalize State.graph _ _ = s2
  cases k.owner.bind fun o => s2.findLin o.1 o.2 with
  | none => rfl
  | some w => rfl

end Events

/-- Settles O44: each event of the table, by its own lemma above; `test_fixerKernelAdmit` to `test_fixerFetchFault` hold a state that
meets the conditions of each. -/
theorem kernelsTakePlace : Obligations.KernelsTakePlace := by
  intro i f s hf h
  cases i with
  | fixerKernelAdmit n => exact execFixerKernelAdmit_of_ok hf h
  | fixerInstanceStart n => exact execFixerInstanceStart_of_ok hf h
  | fixerKernelComplete n => exact execFixerKernelComplete_of_ok hf h
  | fixerUnassignedOp w | fixerFetchFault =>
    cases hf
    rfl
  | _ => cases hf

end Sys2Proof.Machine
end

section
/-! PROOFS. Memory partitions, expansion ports and migrations (18 R415-R431): an event or a register write that passes its own conditions
does what the table says. -/

namespace Sys2Proof.Machine

open Sys2Proof

section Events

variable {s : State} {f : EventForm}

/-! ### Channels -/

/-- A channel serves the burst that it replays, or else its next request. -/
theorem execChannelRequestServe_of_ok {unit ch ecc : Nat} (hf : partitionEvent (.channelRequestServe unit ch ecc) = some f) (h : f.ok s) :
    execChannelRequestServe unit ch ecc s = .next (f.eff s) := by
  cases hf
  obtain ⟨hunit, hretrain, hserved⟩ := h
  unfold execChannelRequestServe
  unfold State.served? at hserved ⊢
  simp only [hunit, hretrain, decide_false, Bool.not_true, Bool.or_self, Bool.false_eq_true, if_false]
  cases hburst : sget (s.unitAt unit).bursts ch with
  | some bu =>
    simp only [hburst] at hserved ⊢
    cases hfailed : bu.failed with
    | true => simp [hfailed] at hserved
    | false => rfl
  | none =>
    simp only [hburst] at hserved ⊢
    cases hnext : s.nextReq unit ch with
    | none => simp [hnext] at hserved
    | some p => rfl

/-- The burst that fails its CRC is the one that replays already, with one more try, or else the next request's. -/
theorem execBurstCrcError_of_ok {unit ch lane : Nat} (hf : partitionEvent (.burstCrcError unit ch lane) = some f) (h : f.ok s) :
    execBurstCrcError unit ch lane s = .next (f.eff s) := by
  cases hf
  obtain ⟨hunit, hlane, hretrain, hreplayed⟩ := h
  unfold execBurstCrcError
  unfold State.replayed? at hreplayed ⊢
  simp only [hunit, hretrain, Nat.not_le.2 hlane, decide_false, Bool.not_true, Bool.or_self, Bool.false_eq_true, if_false]
  cases hburst : sget (s.unitAt unit).bursts ch with
  | some bu =>
    simp only [hburst] at hreplayed ⊢
    cases hover : (bu.failed || decide (8 ≤ bu.tries)) with
    | true => simp [hover] at hreplayed
    | false => rfl
  | none =>
    simp only [hburst] at hreplayed ⊢
    cases hnext : s.nextReq unit ch with
    | none => simp [hnext] at hreplayed
    | some p => rfl

theorem execBurstReplayExhausted_of_ok {unit ch : Nat} (hf : partitionEvent (.burstReplayExhausted unit ch) = some f) (h : f.ok s) :
    execBurstReplayExhausted unit ch s = .next (f.eff s) := by
  cases hf
  obtain ⟨hretrain, bu, hburst, hfailed, htries⟩ := h
  unfold execBurstReplayExhausted
  simp only [hburst, hfailed, hretrain, Nat.not_lt.2 htries, decide_false, Bool.or_self, Bool.false_eq_true, if_false]

/-! ### Lanes -/

theorem execLaneCrcThreshold_of_ok {unit ch lane : Nat} (hf : partitionEvent (.laneCrcThreshold unit ch lane) = some f) (h : f.ok s) :
    execLaneCrcThreshold unit ch lane s = .next (f.eff s) := by
  cases hf
  obtain ⟨hunit, hwant, hpast⟩ := h
  exact congrArg _ (if_pos (by simp [hunit, hwant, hpast, State.pastLimit]))

/-- With no replay outstanding, the first lane wanted is switched, or a failed burst alone is re-issued. -/
theorem execLaneRepair_of_ok {unit ch : Nat} {ok : Bool} (hf : partitionEvent (.laneRepair unit ch ok) = some f) (h : f.ok s) :
    execLaneRepair unit ch ok s = .next (f.eff s) := by
  cases hf
  obtain ⟨hunit, hretrain, hburst⟩ := h
  refine (if_neg ?_).trans ?_
  · cases hb : sget (s.unitAt unit).bursts ch with
    | none => simp [hunit, hretrain]
    | some bu => simp [hunit, hretrain, hburst bu hb]
  · dsimp only
    cases (s.unitAt unit).wants.find? fun w => w.1 == ch with
    | none => rfl
    | some w => rfl

theorem execRepair_of_ok {unit : Nat} {value : Word} (hf : partitionEvent (.repair unit value) = some f) (h : f.ok s) :
    execRepair unit value s = .next (f.eff s) := by
  cases hf
  obtain ⟨hopen, hunit, hzero, hgo⟩ := h
  exact if_neg (by simp [hopen, hunit, hzero, hgo])

theorem execRetrain_of_ok {unit : Nat} {value : Word} (hf : partitionEvent (.retrain unit value) = some f) (h : f.ok s) :
    execRetrain unit value s = .next (f.eff s) := by
  cases hf
  obtain ⟨hopen, hunit, hzero, hgo⟩ := h
  exact if_neg (by simp [hopen, hunit, hzero, hgo])

/-- A sample is kept, and a low one raises its event and asks for a repair where the threshold says so. -/
theorem execEyeSample_of_ok {unit ch lane hm vm : Nat} (hf : partitionEvent (.eyeSample unit ch lane hm vm) = some f) (h : f.ok s) :
    execEyeSample unit ch lane hm vm s = .next (f.eff s) := by
  cases hf
  obtain ⟨hpart, hunit, hch, hlane⟩ := h
  unfold execEyeSample
  rw [if_neg (by simp [hpart, hunit, hch, hlane])]
  dsimp only [MemUnit.carries]
  by_cases hlow : hm % 256 < (s.winAt (unitBase unit + 0x50)).toNat % 256 ∨ vm % 256 < (s.winAt (unitBase unit + 0x50)).toNat / 256 % 256
  · have hlowb : (decide (hm % 256 < (s.winAt (unitBase unit + 0x50)).toNat % 256) ||
        decide (vm % 256 < (s.winAt (unitBase unit + 0x50)).toNat / 256 % 256)) = true := by simpa using hlow
    simp only [hlow, hlowb, if_true, Bool.true_and]
  · have hlowb : (decide (hm % 256 < (s.winAt (unitBase unit + 0x50)).toNat % 256) ||
        decide (vm % 256 < (s.winAt (unitBase unit + 0x50)).toNat / 256 % 256)) = false := by simpa using hlow
    simp only [hlow, hlowb, Bool.false_and, Bool.false_eq_true, if_false]

/-! ### Rows and registers -/

theorem execRowSwap_of_ok {unit ch bank row partner : Nat} (hf : partitionEvent (.rowSwap unit ch bank row partner) = some f) (h : f.ok s) :
    execRowSwap unit ch bank row partner s = .next (f.eff s) := by
  cases hf
  obtain ⟨hunit, hother, hpartner, hacts⟩ := h
  exact if_neg (by simpa [hunit, hother, hacts] using hpartner)

theorem execRetire_of_ok {unit : Nat} {value : Word} (hf : partitionEvent (.retire unit value) = some f) (h : f.ok s) :
    execRetire unit value s = .next (f.eff s) := by
  cases hf
  obtain ⟨hopen, hunit, hzero, hgo⟩ := h
  exact if_neg (by simp [hopen, hunit, hzero, hgo])

theorem execErrorCountClear_of_ok {unit off : Nat} (hf : partitionEvent (.errorCountClear unit off) = some f) (h : f.ok s) :
    execErrorCountClear unit off s = .next (f.eff s) := by
  cases hf
  obtain ⟨hopen, hunit, hoff⟩ := h
  exact if_pos (by simpa [hopen, hunit, or_assoc] using hoff)

theorem execIrqstClear_of_ok {unit : Nat} {value : Word} (hf : partitionEvent (.irqstClear unit value) = some f) (h : f.ok s) :
    execIrqstClear unit value s = .next (f.eff s) := by
  cases hf
  obtain ⟨hopen, hunit, hvalue⟩ := h
  exact if_pos (by simp [hopen, hunit, hvalue])

theorem execMissCounterClear_of_ok {unit off : Nat} (hf : partitionEvent (.missCounterClear unit off) = some f) (h : f.ok s) :
    execMissCounterClear unit off s = .next (f.eff s) := by
  cases hf
  obtain ⟨hopen, hunit, hlo, hhi, haligned⟩ := h
  exact if_pos (by simp [hopen, hunit, hlo, hhi, haligned])

/-! ### Page heat -/

theorem execHctlWrite_of_ok {unit : Nat} {value : Word} (hf : partitionEvent (.hctlWrite unit value) = some f) (h : f.ok s) :
    execHctlWrite unit value s = .next (f.eff s) := by
  cases hf
  obtain ⟨hopen, hunit, hvalue⟩ := h
  exact if_neg (by simp [hopen, hunit, hvalue])

theorem execHeatHalve_of_ok {unit : Nat} (hf : partitionEvent (.heatHalve unit) = some f) (h : f.ok s) :
    execHeatHalve unit s = .next (f.eff s) := by
  cases hf
  obtain ⟨hopen, hunit, hidle⟩ := h
  exact if_pos (by simp [hopen, hunit, hidle])

theorem execHeatClear_of_ok {unit : Nat} (hf : partitionEvent (.heatClear unit) = some f) (h : f.ok s) :
    execHeatClear unit s = .next (f.eff s) := by
  cases hf
  obtain ⟨hopen, hunit, hidle⟩ := h
  exact if_pos (by simp [hopen, hunit, hidle])

/-! ### Expansion ports -/

theorem execCxlLinkDown_of_ok {port : Nat} (hf : partitionEvent (.cxlLinkDown port) = some f) (h : f.ok s) :
    execCxlLinkDown port s = .next (f.eff s) := by
  cases hf
  obtain ⟨hport, hunit⟩ := h
  exact if_neg (by simp [hport, hunit])

theorem execCxlLinkRetrain_of_ok {port : Nat} (hf : partitionEvent (.cxlLinkRetrain port) = some f) (h : f.ok s) :
    execCxlLinkRetrain port s = .next (f.eff s) := by
  cases hf
  obtain ⟨hport, hunit⟩ := h
  exact if_neg (by simp [hport, hunit])

/-! ### Migrations -/

/-- A descriptor that is read and has its meaning starts a migration. -/
theorem execMigrationSubmit_of_ok {value : Word} (hf : partitionEvent (.migrationSubmit value) = some f) (h : f.ok s) :
    execMigrationSubmit value s = .next (f.eff s) := by
  cases hf
  obtain ⟨hopen, hroom, haligned, s1, bs, m, hread, hdesc⟩ := h
  unfold execMigrationSubmit
  dsimp only
  rw [if_neg (by simpa [hopen, hroom] using haligned)]
  simp only [hread, hdesc, Option.map_some, Option.getD_some]

/-- The oldest migration ends where its page cannot be reached, makes a round while it has one to make, and else freezes its page and
ends. -/
theorem execMigrationComplete_of_ok {id : Nat} (hf : partitionEvent (.migrationComplete id) = some f) (h : f.ok s) :
    execMigrationComplete id s = .next (f.eff s) := by
  cases hf
  obtain ⟨m, rest, hm, rfl⟩ := h
  unfold execMigrationComplete
  simp only [hm, ne_eq, not_true_eq_false, if_false]
  by_cases hlost : m.failed = false ∧ (s.servedAs 0xF6 3).canMigrate m = true
  · rw [if_pos hlost, if_neg (by simp [hlost])]
    by_cases hround : m.log ≠ [] ∧ m.used < m.rounds
    · rw [if_pos hround, if_pos (by simpa [Migration.mayRecopy] using hround)]
    · rw [if_neg hround, if_neg (by simpa [Migration.mayRecopy] using hround)]
      generalize (s.servedAs 0xF6 3).settleMigration m = r
      rcases r.1.casPtes m 0 (if m.size = 1 then 16 else 1) with ⟨s2, _ | _⟩
      · rfl
      · rfl
  · rw [if_neg hlost, if_pos (by simpa [imp_iff_not_or] using hlost)]

end Events

/-- Settles O45: each event of the table, by its own lemma above; `test_channelRequestServe` to `test_migrationComplete` hold a state
that meets the conditions of each. -/
theorem partitionsTakePlace : Obligations.PartitionsTakePlace := by
  intro i f s hf h
  cases i with
  | channelRequestServe unit ch ecc => exact execChannelRequestServe_of_ok hf h
  | requestAged unit ch =>
    cases hf
    rfl
  | burstCrcError unit ch lane => exact execBurstCrcError_of_ok hf h
  | burstReplayExhausted unit ch => exact execBurstReplayExhausted_of_ok hf h
  | laneCrcThreshold unit ch lane => exact execLaneCrcThreshold_of_ok hf h
  | laneRepair unit ch ok => exact execLaneRepair_of_ok hf h
  | repair unit value => exact execRepair_of_ok hf h
  | retrain unit value => exact execRetrain_of_ok hf h
  | retrainDone unit ch =>
    cases hf
    exact if_pos h
  | eyeSample unit ch lane hm vm => exact execEyeSample_of_ok hf h
  | rowSwap unit ch bank row partner => exact execRowSwap_of_ok hf h
  | retire unit value => exact execRetire_of_ok hf h
  | errorCountClear unit off => exact execErrorCountClear_of_ok hf h
  | irqstClear unit value => exact execIrqstClear_of_ok hf h
  | missCounterClear unit off => exact execMissCounterClear_of_ok hf h
  | hctlWrite unit value => exact execHctlWrite_of_ok hf h
  | heatHalve unit => exact execHeatHalve_of_ok hf h
  | heatClear unit => exact execHeatClear_of_ok hf h
  | heatPassDone unit =>
    cases hf
    exact if_neg h
  | cxlLinkDown port => exact execCxlLinkDown_of_ok hf h
  | cxlLinkRetrain port => exact execCxlLinkRetrain_of_ok hf h
  | migrationSubmit value => exact execMigrationSubmit_of_ok hf h
  | migrationComplete id => exact execMigrationComplete_of_ok hf h
  | _ => cases hf

end Sys2Proof.Machine
end

section
/-! PROOFS. Accesses to register windows (18 R414, R415; 19 R433; 20 R443-R445): what the rules bar changes nothing, and a write through
the Bexkai port does what the instruction of its register does. -/

namespace Sys2Proof.Machine

open Sys2Proof

section Windows

variable {s : State} {off : Nat} {value : Word}

/-! ### Barred accesses -/

theorem writeRegister_unreachable (h : s.reachable off = false) (value : Word) : s.writeRegister off value = s := if_pos (by simp [h])

theorem fromHost_before (h : s.passed 7 = false) (f : State → State) : s.fromHost f = s := if_neg (by simp [h])

theorem fromHost_after (h : s.passed 7 = true) (f : State → State) : s.fromHost f = f s := if_pos h

/-- What changes nothing changes nothing through the host port either. -/
theorem fromHost_of_fixed {f : State → State} (h : f s = s) : s.fromHost f = s := by
  rw [State.fromHost, h, ite_self]

theorem windowWrite_unreachable (h : s.reachable off = false) (value : Word) : s.windowWrite off value = .next s := if_pos (by simp [h])

/-- A write through the port is answered once it is done. -/
theorem execWindowWrite_of_next {t : State} (hlit : s.darkWindow off = false) (hw : s.windowWrite off value = .next t) :
    exec (.windowWrite off value) s = .next (t.answerData []) := by
  show execWindowWrite off value s = _
  simp only [execWindowWrite, hlit, hw, Bool.false_eq_true, if_false]

theorem execWindowRead_unreachable (hlit : s.darkWindow off = false) (h : s.reachable off = false) :
    exec (.windowRead off) s = .next (s.answerData (wordBytes (BitVec.allOnes 32))) := by
  show execWindowRead off s = _
  simp only [execWindowRead, hlit, h, Bool.false_eq_true, if_false]

theorem execPkidWrite_barred {b : Bool} (h : b = false ∨ 5 ≤ s.bstate ∨ 2048 ≤ value.toNat) : exec (.pkidWrite value b) s = .next s := by
  refine if_neg ?_
  simp only [Bool.and_eq_true, decide_eq_true_eq]
  rintro ⟨⟨rfl, hstage⟩, hrange⟩
  rcases h with h | h | h
  · cases h
  · exact absurd hstage (Nat.not_lt.2 h)
  · exact absurd hrange (Nat.not_lt.2 h)

theorem writeQtb_inUse (h : s.winBit (mgmtBase + 0x018) 0 = true) (off : Nat) (value : Word) : s.writeQtb off value = s := if_pos h

end Windows

/-- Settles O49: each bar by its own lemma above; `test_guarded` holds a state behind each. -/
theorem guardedAccessesIgnored : Obligations.GuardedAccessesIgnored := by
  intro s off value
  refine ⟨fun h => ?_, fun h hlit => ⟨execWindowWrite_of_next hlit (windowWrite_unreachable h value), execWindowRead_unreachable hlit h⟩,
    fun hdark => ⟨if_pos hdark, congrArg _ (if_pos hdark)⟩, execPkidWrite_barred (.inl rfl),
    fun h _ => execPkidWrite_barred (.inr (.inl h)), fun h _ => execPkidWrite_barred (.inr (.inr h)), fun h => ?_, fun h => ?_⟩
  · show Host.Outcome.next (s.fromHost fun s => s.writeRegister off value) = _
    exact congrArg _ (fromHost_of_fixed (writeRegister_unreachable h value))
  · show Host.Outcome.next (s.fromHost fun s => s.writeQtb off value) = _
    exact congrArg _ (fromHost_of_fixed (writeQtb_inUse h off value))
  · exact ⟨congrArg _ (fromHost_before h _), congrArg _ (fromHost_before h _), congrArg _ (fromHost_before h _),
      congrArg _ (fromHost_before h _)⟩

/-! ### Writes of a partition's or port's window -/

section UnitWrites

variable {s : State} {u o off : Nat} {value : Word}

/-- An offset of a unit's window is the base of the window and the offset of the register in it. -/
theorem unitBase_of_unitAtOff (h : unitAtOff off = some u) : unitBase u + off % 0x10000 = off := by
  obtain ⟨⟨hlo, -⟩, hu⟩ := Option.ite_none_right_eq_some.1 h
  cases hu
  unfold unitBase
  omega

theorem windowsOpen_of_reachable (hr : s.reachable off = true) (hm : off / 4096 ≠ mgmtBase / 4096) : s.windowsOpen = true := by
  simp only [State.reachable, hm, Bool.and_eq_true, Bool.or_eq_true, beq_iff_eq, false_or] at hr
  exact hr.2

theorem passed_of_windowsOpen (h : s.windowsOpen = true) : s.passed 7 = true := by
  have h8 : s.bstate = 8 := by simpa using (Bool.and_eq_true_iff.1 h).2
  simp [State.passed, h8]

theorem hasPartition_port (h : 8 ≤ u) (s : State) : s.hasPartition u = false := by simp [State.hasPartition, Nat.not_lt.2 h]

theorem portReads0_iff : portReads0 u o = true ↔ 8 ≤ u ∧ (0x50 ≤ o ∧ o < 0x7C ∨ 0x2000 ≤ o ∧ o < 0x6000) := by
  simp only [portReads0, Bool.and_eq_true, Bool.or_eq_true, decide_eq_true_eq]

/-- What reads 0 in a port's window takes no value: its registers are those of partitions. -/
theorem writeUnit_of_portReads0 (h : portReads0 u o = true) (value : Word) : s.writeUnit u o value = s := by
  obtain ⟨hport, ho⟩ := portReads0_iff.1 h
  unfold State.writeUnit
  split <;> simp only [State.writeIf, Nat.not_lt.2 hport] <;> grind

theorem writeRegister_unit (hr : s.reachable off = true) (hu : unitAtOff off = some u) (value : Word) :
    s.writeRegister off value = s.writeUnit u (off % 0x10000) value := by
  simp [State.writeRegister, hr, hu]

theorem exec_registerWrite (h7 : s.passed 7 = true) (off : Nat) (value : Word) :
    exec (.registerWrite off value) s = .next (s.writeRegister off value) := congrArg _ (fromHost_after h7 _)

theorem exec_qtbWrite (h7 : s.passed 7 = true) (off : Nat) (value : Word) : exec (.qtbWrite off value) s = .next (s.writeQtb off value) :=
  congrArg _ (fromHost_after h7 _)

theorem exec_qtenWrite (h7 : s.passed 7 = true) (value : Word) : exec (.qtenWrite value) s = .next (s.writeQten value) :=
  congrArg _ (fromHost_after h7 _)

theorem exec_mirqClear (h7 : s.passed 7 = true) (value : Word) : exec (.mirqClear value) s = .next (s.writeMirq value) :=
  congrArg _ (fromHost_after h7 _)

theorem exec_registerWrite_unit (hr : s.reachable off = true) (h7 : s.passed 7 = true) (hu : unitAtOff off = some u) (value : Word) :
    exec (.registerWrite off value) s = .next (s.writeUnit u (off % 0x10000) value) :=
  (exec_registerWrite h7 off value).trans (congrArg _ (writeRegister_unit hr hu value))

/-- In a port's window, what reads 0 is left as it is also by the instruction of the register. -/
theorem exec_writeOf_of_portReads0 (hr : s.reachable off = true) (h7 : s.passed 7 = true) (hu : unitAtOff off = some u)
    (h : portReads0 u (off % 0x10000) = true) : exec (writeOf off value) s = .next s := by
  obtain ⟨hport, ho⟩ := portReads0_iff.1 h
  have hnone := hasPartition_port hport s
  simp only [writeOf, hu]
  split_ifs
  any_goals omega
  · exact if_pos (by simp [hnone])
  · exact if_pos (by simp [hnone])
  · exact if_pos (by simp [hnone])
  · exact (exec_registerWrite_unit hr h7 hu value).trans (congrArg _ (writeUnit_of_portReads0 h value))

/-- A write of a unit's register does what the instruction of that register does. -/
theorem unitWrite_eq_exec (hr : s.reachable off = true) (h7 : s.passed 7 = true) (hu : unitAtOff off = some u) (value : Word) :
    s.unitWrite u (off % 0x10000) value = exec (writeOf off value) s := by
  by_cases hport : portReads0 u (off % 0x10000) = true
  · rw [exec_writeOf_of_portReads0 hr h7 hu hport]
    exact if_pos hport
  · have hreg := exec_registerWrite_unit hr h7 hu value
    have hplain : exec (.registerWrite off value) s = .next (s.writeRegister (unitBase u + off % 0x10000) value) := by
      rw [unitBase_of_unitAtOff hu]
      exact exec_registerWrite h7 off value
    simp only [writeOf, hu, State.unitWrite, if_neg hport]
    generalize off % 0x10000 = o at *
    split
    · rfl
    · split
      case h_10 =>
        by_cases h1 : value = 1
        · subst h1
          rfl
        · by_cases h2 : value = 2
          · subst h2
            rfl
          · simp only [h1, h2, if_false, and_false]
            exact hreg.symm
      case h_11 => simp_all
      all_goals rfl

end UnitWrites

section WindowWrites

variable {s : State} {off : Nat}

theorem exec_ite (c : Prop) [Decidable c] (i j : Instr) (s : State) : exec (if c then i else j) s = if c then exec i s else exec j s :=
  apply_ite (exec · s) c i j

/-- The halt command register takes no value of its own. -/
theorem writeRegister_haltCommand (value : Word) : s.writeRegister (traceBase + 0x314) value = s := by
  unfold State.writeRegister
  split <;> rfl

/-- A write of the halt command register is the command of the value that it takes. -/
theorem exec_writeOf_haltCommand (h7 : s.passed 7 = true) (value : Word) :
    exec (writeOf (traceBase + 0x314) value) s =
      if value = 1 then execHalt s else if value = 2 then execResume s else if value = 3 then execStep s else .next s := by
  by_cases h1 : value = 1
  · subst h1
    rfl
  by_cases h2 : value = 2
  · subst h2
    rfl
  by_cases h3 : value = 3
  · subst h3
    rfl
  rw [if_neg h1, if_neg h2, if_neg h3]
  have hplain : writeOf (traceBase + 0x314) value = .registerWrite (traceBase + 0x314) value := by
    show (if _ ∧ value = 1 then _ else if _ ∧ value = 2 then _ else if _ ∧ value = 3 then _ else _) = _
    rw [if_neg fun h => h1 h.2, if_neg fun h => h2 h.2, if_neg fun h => h3 h.2]
    rfl
  rw [hplain, exec_registerWrite h7, writeRegister_haltCommand]

/-- A write of a reachable register, where the host port answers, does what the instruction of that register does. -/
theorem windowWrite_eq_exec (hr : s.reachable off = true) (h7 : s.passed 7 = true) (value : Word) :
    s.windowWrite off value = exec (writeOf off value) s := by
  unfold State.windowWrite
  rw [if_neg (by simp [hr])]
  cases hu : unitAtOff off with
  | some u => exact unitWrite_eq_exec hr h7 hu value
  | none =>
    by_cases hhalt : off = traceBase + 0x314
    · subst hhalt
      exact (exec_writeOf_haltCommand h7 value).symm
    · unfold writeOf
      rw [hu]
      dsimp only
      iterate 3
        rw [exec_ite]
        refine ite_congr rfl (fun _ => rfl) fun _ => ?_
      have hcommand : ∀ v : Word, ¬(off = traceBase + 0x314 ∧ value = v) := fun _ h => hhalt h.1
      rw [if_neg hhalt, if_neg (hcommand 1), if_neg (hcommand 2), if_neg (hcommand 3), exec_ite]
      refine ite_congr rfl (fun _ => rfl) fun _ => ?_
      iterate 2
        rw [exec_ite]
        refine ite_congr rfl (fun _ => (exec_qtbWrite h7 _ value).symm) fun _ => ?_
      rw [exec_ite]
      refine ite_congr rfl (fun _ => (exec_qtenWrite h7 value).symm) fun _ => ?_
      rw [exec_ite]
      refine ite_congr rfl (fun _ => (exec_mirqClear h7 value).symm) fun _ => ?_
      exact (exec_registerWrite h7 off value).symm

end WindowWrites

section ManagementWrites

variable {s : State} {k : Nat}

theorem darkWindow_management (hk : k < 4096) (s : State) : s.darkWindow (mgmtBase + k) = false := by
  have : (mgmtBase + k) / 4096 = mgmtBase / 4096 := by unfold mgmtBase; omega
  simp [State.darkWindow, this]

theorem reachable_management (hk : k < 4096) (h4 : k % 4 = 0) (s : State) : s.reachable (mgmtBase + k) = true := by
  have hpage : (mgmtBase + k) / 4096 = mgmtBase / 4096 := by unfold mgmtBase; omega
  have halign : (mgmtBase + k) % 4 = 0 := by unfold mgmtBase; omega
  have hunit : unitAtOff (mgmtBase + k) = none := if_neg (by unfold mgBase mgmtBase; omega)
  simp [State.reachable, State.hasWindow, hpage, halign, hunit]

theorem winAt_setWin_ne {a b : Nat} (s : State) (v : Word) (h : b ≠ a) : (s.setWin a v).winAt b = s.winAt b := by
  unfold State.winAt
  rw [setWin_win, sget_sput_ne _ _ _ _ h]
  rfl

/-- Until bring-up reaches stage 8, QTEN is only recorded: the queue table is not read. -/
theorem writeQten_early (h : s.bstate < 8) (value : Word) : s.writeQten value = s.setWin (mgmtBase + 0x018) (value &&& 1#32) := by
  have hb : (s.setWin (mgmtBase + 0x018) (value &&& 1#32)).bstate = s.bstate := by
    simp only [State.bstate, winAt_setWin_ne s _ (show mgmtBase + 0x008 ≠ mgmtBase + 0x018 by decide)]
  have hw : (s.setWin (mgmtBase + 0x018) (value &&& 1#32)).watching = false := by
    simp [State.watching, hb, Nat.ne_of_lt h]
  simp only [State.writeQten, hw, Bool.and_false, Bool.false_eq_true, if_false]

theorem not_unreachable_management (hk : k < 4096) (h4 : k % 4 = 0) (s : State) : ¬(!s.reachable (mgmtBase + k)) = true := by
  simp [reachable_management hk h4]

theorem windowWrite_pkid (s : State) (value : Word) : s.windowWrite (mgmtBase + 0x004) value = execPkidWrite value true s :=
  if_neg (not_unreachable_management (by decide) rfl s)

theorem windowWrite_qtbLow (s : State) (value : Word) : s.windowWrite (mgmtBase + 0x010) value = .next (s.writeQtb 0x010 value) :=
  if_neg (not_unreachable_management (by decide) rfl s)

theorem windowWrite_qtbHigh (s : State) (value : Word) : s.windowWrite (mgmtBase + 0x014) value = .next (s.writeQtb 0x014 value) :=
  if_neg (not_unreachable_management (by decide) rfl s)

theorem windowWrite_qten (s : State) (value : Word) : s.windowWrite (mgmtBase + 0x018) value = .next (s.writeQten value) :=
  if_neg (not_unreachable_management (by decide) rfl s)

theorem windowWrite_mirq (s : State) (value : Word) : s.windowWrite (mgmtBase + 0x030) value = .next (s.writeMirq value) :=
  if_neg (not_unreachable_management (by decide) rfl s)

theorem takes_pwrth (s : State) (value : Word) :
    s.takes (mgmtBase + 0x024) value = (decide (100 ≤ value.toNat) && decide (value.toNat ≤ 4000)) := Bool.or_false _

theorem takes_mien (s : State) (value : Word) : s.takes (mgmtBase + 0x034) value = decide (value.toNat < 16) := Bool.false_or _

theorem windowWrite_pwrth (s : State) (value : Word) : s.windowWrite (mgmtBase + 0x024) value =
    .next (if s.takes (mgmtBase + 0x024) value then s.setWin (mgmtBase + 0x024) value else s) := by
  have h := not_unreachable_management (k := 0x024) (by decide) rfl s
  have hwindow : s.windowWrite (mgmtBase + 0x024) value = .next (s.writeRegister (mgmtBase + 0x024) value) := if_neg h
  have hregister : s.writeRegister (mgmtBase + 0x024) value = s.writeIf (decide (100 ≤ value.toNat) && decide (value.toNat ≤ 4000))
      (mgmtBase + 0x024) value :=
    if_neg h
  rw [hwindow, hregister, takes_pwrth, State.writeIf]

theorem windowWrite_mien (s : State) (value : Word) : s.windowWrite (mgmtBase + 0x034) value =
    .next (if s.takes (mgmtBase + 0x034) value then s.setWin (mgmtBase + 0x034) value else s) := by
  have h := not_unreachable_management (k := 0x034) (by decide) rfl s
  have hwindow : s.windowWrite (mgmtBase + 0x034) value = .next (s.writeRegister (mgmtBase + 0x034) value) := if_neg h
  have hregister : s.writeRegister (mgmtBase + 0x034) value = s.writeIf (decide (value.toNat < 16)) (mgmtBase + 0x034) value :=
    if_neg h
  rw [hwindow, hregister, takes_mien, State.writeIf]

/-- A write of a management register through the port is answered, whatever the stage of bring-up. -/
theorem execWindowWrite_management {value : Word} {t : State} (hk : k < 4096) (h : s.windowWrite (mgmtBase + k) value = .next t) :
    exec (.windowWrite (mgmtBase + k) value) s = .next (t.answerData []) :=
  execWindowWrite_of_next (darkWindow_management hk s) h

end ManagementWrites

/-- Settles O48: a write where the host port answers is the instruction of its register (`windowWrite_eq_exec`); the registers of
the management window one by one, at every stage. -/
theorem windowWriteActs : Obligations.WindowWriteActs := by
  intro s off value
  refine ⟨fun t hlit hr hport ht => ?_, ?_, ?_, ?_, ?_, ?_⟩
  · have h7 : s.passed 7 = true := by
      by_cases hm : off / 4096 = mgmtBase / 4096
      · exact hport hm
      · exact passed_of_windowsOpen (windowsOpen_of_reachable hr hm)
    exact execWindowWrite_of_next hlit ((windowWrite_eq_exec hr h7 value).trans ht)
  · rintro rfl t ht
    refine execWindowWrite_management (by decide) (Eq.trans ?_ ht)
    exact windowWrite_pkid s value
  · rintro (⟨rfl, hpage⟩ | rfl) hfree
    · refine execWindowWrite_management (by decide) ((windowWrite_qtbLow s value).trans (congrArg _ ?_))
      rw [State.writeQtb, hfree, if_neg Bool.false_ne_true, if_pos (.inl ⟨rfl, hpage⟩)]
    · refine execWindowWrite_management (by decide) ((windowWrite_qtbHigh s value).trans (congrArg _ ?_))
      rw [State.writeQtb, hfree, if_neg Bool.false_ne_true, if_pos (.inr rfl)]
  · rintro rfl hstage
    exact execWindowWrite_management (by decide) ((windowWrite_qten s value).trans (congrArg _ (writeQten_early hstage value)))
  · rintro rfl
    exact execWindowWrite_management (by decide) (windowWrite_mirq s value)
  · rintro (rfl | rfl)
    · exact execWindowWrite_management (by decide) (windowWrite_pwrth s value)
    · exact execWindowWrite_management (by decide) (windowWrite_mien s value)

end Sys2Proof.Machine
end

section
/-! PROOFS. The register windows at reset (18 R414, R415; 19 R433; 20 R444, R445). -/

namespace Sys2Proof.Machine

open Sys2Proof

section Reset

variable {u o a : Nat}

theorem winAt_reset (a : Nat) : State.reset.winAt a = winReset .s8 a := rfl

/-- Above the units' windows only PWRTH has a reset value. -/
theorem winReset_high (h : mgBase ≤ a) (hp : a ≠ mgmtBase + 0x024) : winReset .s8 a = 0 := by
  rw [winReset, if_neg fun hr => Nat.not_lt.2 h hr.2, if_neg hp]

theorem winReset_unit (hu : u < 12) (ho : o < 0x10000) : winReset .s8 (unitBase u + o) = BitVec.ofNat 32 (unitReset o) := by
  have hmod : (unitBase u + o) % 0x10000 = o := by unfold unitBase; omega
  rw [winReset, if_pos (by unfold unitBase mgBase; omega), hmod]

theorem readRegister_management (ho : o < 0x1000) (h0 : o ≠ 0) (s : State) : s.readRegister (mgmtBase + o) = s.winAt (mgmtBase + o) := by
  have hunit : unitAtOff (mgmtBase + o) = none := if_neg (by unfold mgBase mgmtBase; omega)
  simp only [State.readRegister, hunit]
  rw [if_neg (by unfold mgBase mgmtBase; omega), if_neg (by unfold mgBase mgmtBase; omega), if_neg (by unfold traceBase mgmtBase; omega),
    if_neg (by omega)]

theorem readRegister_trace (ho : o < 0x1000) (s : State) :
    s.readRegister (traceBase + o) = if o = 0x318 then s.hst else s.winAt (traceBase + o) := by
  have hunit : unitAtOff (traceBase + o) = none := if_neg (by unfold mgBase traceBase; omega)
  simp only [State.readRegister, hunit, Nat.add_left_cancel_iff]
  rw [if_neg (by unfold mgBase traceBase; omega), if_neg (by unfold mgBase traceBase; omega)]
  have hid : traceBase + o ≠ mgmtBase := by unfold traceBase mgmtBase; omega
  rw [if_neg hid]

/-- A register that holds a value and is no port's zero reads as its reset value. -/
theorem readUnit_reset (hu : u < 12) (ho : o < 0x10000) (hread : portReads0 u o = false) (hval : o ∉ [0x000, 0x070, 0x074, 0x084]) :
    State.reset.readUnit u o = BitVec.ofNat 32 (unitReset o) := by
  simp only [List.mem_cons, List.not_mem_nil, or_false, not_or] at hval
  obtain ⟨h0, h1, h2, h3⟩ := hval
  rw [State.readUnit, if_neg (by simp [hread]), if_neg h0, if_neg h1, if_neg h2, if_neg h3, winAt_reset, winReset_unit hu ho]

/-- The error counters of lanes, the eye margins and the miss counters read 0. -/
theorem readUnit_reset_counter (hu : u < 12) (ho : 0x400 ≤ o ∧ o < 0x600 ∨ 0x1000 ≤ o ∧ o < 0x6000) : State.reset.readUnit u o = 0 := by
  by_cases hread : portReads0 u o = true
  · exact if_pos hread
  · rw [readUnit_reset hu (by omega) (by simpa using hread) (by simp; omega)]
    have : unitReset o = 0 := by unfold unitReset; split <;> omega
    rw [this]
    rfl

end Reset

/-- Settles O11: the registers by window, each by its reset value; the rest is the empty state. -/
theorem resetValues : Obligations.ResetValues := by
  refine ⟨rfl, rfl, fun o ho h0 hp => ?_, fun o ho => ?_, fun u hu => ?_, fun u hu => ?_, rfl, rfl, rfl, rfl, rfl, rfl, rfl, rfl, rfl,
    rfl, rfl, rfl, rfl⟩
  · rw [readRegister_management ho h0, winAt_reset, winReset_high (by unfold mgBase mgmtBase; omega) (by omega)]
  · rw [readRegister_trace ho]
    split
    · rfl
    · rw [winAt_reset, winReset_high (by unfold mgBase traceBase; omega) (by unfold mgmtBase traceBase; omega)]
  · have hlow : ∀ o < 0x50, portReads0 u o = false := by simp [portReads0]; omega
    have hhigh : ∀ o, 0x7C ≤ o → o < 0x2000 → portReads0 u o = false := by simp [portReads0]; omega
    refine ⟨?_, ?_, ?_, ?_, ?_, ?_, fun o ho => readUnit_reset_counter hu ho⟩
    · exact readUnit_reset hu (by decide) (hlow _ (by decide)) (by decide)
    · exact readUnit_reset hu (by decide) (hlow _ (by decide)) (by decide)
    · exact readUnit_reset hu (by decide) (hlow _ (by decide)) (by decide)
    · exact readUnit_reset hu (by decide) (hlow _ (by decide)) (by decide)
    · exact readUnit_reset hu (by decide) (hhigh _ (by decide) (by decide)) (by decide)
    · intro o ho
      have hkind : ∀ o ∈ [0x020, 0x024, 0x028, 0x02C, 0x030, 0x034, 0x044, 0x084, 0x088, 0x08C, 0x090, 0x094, 0x098, 0x09C],
          (o < 0x50 ∨ 0x7C ≤ o ∧ o < 0x2000) ∧ (o = 0x084 ∨ o ∉ [0x000, 0x070, 0x074, 0x084] ∧ unitReset o = 0) := by decide
      obtain ⟨hplace, rfl | ⟨hval, hzero⟩⟩ := hkind o ho
      · exact if_neg (by simp [hhigh])
      · have hread : portReads0 u o = false := hplace.elim (hlow o) fun h => hhigh o h.1 h.2
        rw [readUnit_reset hu (by omega) hread hval, hzero]
        rfl
  · have hread : ∀ o, portReads0 u o = false := by simp [portReads0, hu]
    have hu12 : u < 12 := by omega
    exact ⟨readUnit_reset hu12 (by decide) (hread _) (by decide), readUnit_reset hu12 (by decide) (hread _) (by decide),
      readUnit_reset hu12 (by decide) (hread _) (by decide), if_neg (by simp [hread])⟩

end Sys2Proof.Machine
end

section
/-! PROOFS. The splat blend unit (16 R383-R395): each instruction of splatForm on a path of one live thread. -/

namespace Sys2Proof.Machine

open Sys2Proof

/-! ### What an access of memory keeps of the path -/

/-- The path and the blocks of every core are the same. -/
structure BlocksKept (s u : State) : Prop where
  issue : u.issue = s.issue
  blocks : ∀ c b, u.block? c b = s.block? c b

theorem BlocksKept.refl (s : State) : BlocksKept s s := ⟨rfl, fun _ _ => rfl⟩

theorem BlocksKept.trans {s u v : State} (h : BlocksKept s u) (h' : BlocksKept u v) : BlocksKept s v :=
  ⟨h'.issue.trans h.issue, fun c b => (h'.blocks c b).trans (h.blocks c b)⟩

theorem BlocksKept.lane? {s u : State} (h : BlocksKept s u) (l : LaneRef) : u.lane? l = s.lane? l :=
  lane?_of_block? h.issue h.blocks l

theorem BlocksKept.of_cores {s u : State} (hi : u.issue = s.issue) (hc : u.cores = s.cores) : BlocksKept s u :=
  ⟨hi, fun c b => by simp only [State.block?, State.coreAt, hc]⟩

theorem BlocksKept.ite {c : Prop} [Decidable c] {s a b : State} (ha : BlocksKept s a) (hb : BlocksKept s b) :
    BlocksKept s (if c then a else b) := by
  split
  · exact ha
  · exact hb

/-- Steps that each keep the blocks keep them together. -/
theorem blocksKept_foldl {α β : Type} (f : State × α → β → State × α) (hf : ∀ acc x, BlocksKept acc.1 (f acc x).1) (xs : List β)
    (acc : State × α) : BlocksKept acc.1 (xs.foldl f acc).1 := by
  induction xs generalizing acc with
  | nil => exact .refl _
  | cons x xs ih => exact (hf acc x).trans (ih _)

theorem CachesOnly.blocksKept {s u : State} (h : CachesOnly s u) : BlocksKept s u := ⟨h.issue, h.blocks⟩

theorem blocksKept_by (s : State) (b : Requester) : BlocksKept s { s with by_ := b } := .of_cores rfl rfl

theorem blocksKept_asUnit {s : State} {id cls : Nat} {f : State → State} (hf : ∀ v, BlocksKept v (f v)) : BlocksKept s (s.asUnit id cls f) :=
  (blocksKept_by s _).trans ((hf _).trans (blocksKept_by _ _))

theorem blocksKept_modUnit (s : State) (u : Nat) (f : MemUnit → MemUnit) : BlocksKept s (s.modUnit u f) :=
  .of_cores (modUnit_issue s u f) (modUnit_cores s u f)

theorem blocksKept_setTlb (s : State) (k : Nat) (es : List TlbEntry) : BlocksKept s (s.setCore k { s.coreAt k with tlb := es }) :=
  ⟨rfl, block?_setCore rfl⟩

theorem blocksKept_makeFull (s : State) (ln : Nat) : BlocksKept s (s.makeFull ln).1 := by
  unfold State.makeFull
  split
  · exact .refl s
  split
  · exact .refl s
  split <;> exact .of_cores rfl rfl

theorem blocksKept_homeLine (s : State) (ln : Nat) : BlocksKept s (s.homeLine ln).1 := by
  have hfull := blocksKept_makeFull s ln
  have hfetch : ∀ (u : State) (lost : Bool), BlocksKept s u → BlocksKept s
      (if ln ∈ u.l2 then (u, lost) else if u.downAt (ln * 128) then (u, true)
        else ((if lost then u else u.enterL2 ln).request (ln * 128), lost)).1 := by
    intro u lost hu
    split
    · exact hu
    split
    · exact hu
    · exact (BlocksKept.ite hu (hu.trans (cachesOnly_enterL2 u ln).blocksKept)).trans (cachesOnly_request _ _).blocksKept
  exact hfetch _ _ (.ite (hfull.trans (.of_cores rfl rfl)) hfull)

theorem blocksKept_putBytes (s : State) (pa : Nat) (bs : List Byte) : BlocksKept s (s.putBytes pa bs) :=
  .of_cores (putBytes_issue s pa bs) (putBytes_cores s pa bs)

theorem blocksKept_noteWrite (s : State) (pa : Nat) : BlocksKept s (s.noteWrite pa) := .of_cores rfl rfl

theorem blocksKept_heat (s : State) (pa : Nat) : BlocksKept s (s.heat pa) := by
  unfold State.heat
  split
  · exact .refl s
  dsimp only
  split
  · exact .refl s
  split
  · exact (blocksKept_modUnit _ _ _).trans (blocksKept_asUnit fun v =>
      (blocksKept_homeLine v _).trans ((blocksKept_noteWrite _ _).trans (blocksKept_putBytes _ _ _)))
  · exact blocksKept_modUnit _ _ _

theorem blocksKept_touchHome (s : State) (ln : Nat) : BlocksKept s (s.touchHome ln).1 :=
  (blocksKept_heat s _).trans (blocksKept_homeLine _ ln)

theorem blocksKept_homeRead (s : State) (pa n : Nat) : BlocksKept s (s.homeRead pa n).1 :=
  (blocksKept_touchHome s (lineOf pa)).trans (.of_cores rfl rfl)

theorem blocksKept_writeAt (s : State) (id pa : Nat) (bs : List Byte) : BlocksKept s (s.writeAt id pa bs) := by
  have hput := blocksKept_putBytes s pa bs
  exact .ite (.of_cores (failWrite_issue _ _ _) (failWrite_cores _ _ _))
    (.ite hput (hput.trans (.of_cores (keepOld_issue _ _ _ _ _) (keepOld_cores _ _ _ _ _))))

theorem blocksKept_homeWrite (s : State) (pa : Nat) (bs : List Byte) : BlocksKept s (s.homeWrite pa bs) :=
  (blocksKept_noteWrite s pa).trans ((blocksKept_touchHome _ _).trans (blocksKept_writeAt _ _ _ _))

theorem blocksKept_walkFrom (levels : List Nat) (s : State) (asid va : Nat) (need : Need) (table : Nat) :
    BlocksKept s (s.walkFrom asid va need table levels).1 := by
  induction levels generalizing s table with
  | nil => exact .refl s
  | cons level levels ih =>
    have hread := blocksKept_homeRead s (normPlace s.pkid table + 8 * (va / 2 ^ (12 + 9 * level) % 512)) 8
    unfold State.walkFrom
    split
    · exact .refl s
    dsimp only
    split
    · exact hread
    split
    · exact hread
    split
    · split
      · exact hread
      split
      · exact hread
      split
      · exact hread
      · exact hread.trans (.ite (.refl _) (blocksKept_homeWrite _ _ _))
    · split
      · exact hread
      · exact hread.trans (ih _ _)

/-- A translation changes of a core its TLB alone. -/
theorem blocksKept_translate (s : State) (c : VCtx) (va : Nat) (need : Need) : BlocksKept s (s.translate c va need).1 := by
  unfold State.translate
  split
  · exact .refl s
  split
  · split
    · exact .refl s
    · split <;> exact .refl s
  dsimp only
  split
  · split <;> exact .refl s
  · have hwalk := (blocksKept_by s { s.by_ with id := 0xF0 }).trans
      ((blocksKept_walkFrom [4, 3, 2, 1, 0] _ c.asid va need c.root).trans (blocksKept_by _ s.by_))
    split
    · exact hwalk
    split
    · split <;> exact hwalk.trans (blocksKept_setTlb _ _ _)
    · split <;> exact hwalk

theorem blocksKept_access (s : State) (w : Who) (va n : Nat) (need : Need) (atomic : Bool) (sized : State → Place → Bool) :
    BlocksKept s (s.access w va n need atomic sized).1 := by
  have h := blocksKept_translate s (s.ctxOf w.core w.blk) va need
  unfold State.access
  dsimp only
  split
  · rename_i e; rw [e] at h; exact h
  · rename_i e
    rw [e] at h
    split
    · exact h
    · split <;> exact h

theorem blocksKept_recordPlaces (s : State) (w : Who) (va scope : Nat) : BlocksKept s (s.recordPlaces w va scope).1 := by
  refine blocksKept_foldl _ (fun acc i => ?_) _ (s, (none, []))
  have h := blocksKept_access acc.1 w ((va + 16 * i) % 2 ^ 64) 16 .r false (sizedAt scope)
  split <;> rename_i e <;> rw [e] at h <;> exact h

section Splats

variable {s : State} {l : LaneRef} {t : Thread}

/-! ### The shared operations of the unit -/

/-- An instruction of the unit whose fields are all permitted acts in the one lane. -/
theorem sbOp_solo {fields : List (Option (Nat × Nat))} {roles : List Role} (f : State → LaneRef → Thread → LaneOut)
    (h : s.Solo l t roles) (hf : ∀ x ∈ fields, x = none) : sbOp fields roles f s = .next (endLane l (f s l t)) :=
  (wordCheck_none ((firstSome_none fields).2 hf) _ s).trans (stateOp_solo roles f s l t h)

theorem entryStop_none {b : BitVec 7} (h : (t.val b).toNat < 0x00FFFFFF) : entryStop t b = none :=
  if_neg fun hs => Nat.not_le.2 h hs.2

/-- A blending instruction whose fields are all permitted, of a splat in range, acts in the one lane. -/
theorem blendOp_solo {fields : List (Option (Nat × Nat))} {b : BitVec 7} {roles : List Role} (f : State → LaneRef → Thread → LaneOut)
    (h : s.Solo l t roles) (hf : ∀ x ∈ fields, x = none) (hb : (t.val b).toNat < 0x00FFFFFF) :
    blendOp fields b roles f s = .next (endLane l (f s l t)) := by
  unfold blendOp
  rw [wordCheck_none ((firstSome_none fields).2 hf), lanes_solo s l t roles _ h]
  simp only [settleRoles_quiet _ _ _ _ h.quiet, h.alone.2, Option.getD_some, entryStop_none hb, h.passes, firstSome]

/-- An instruction that latches nothing, and stops no thread, acts in the one lane. -/
theorem plainOp_solo {roles : List Role} {f : Thread → Except Stop Thread} {g : Thread → Thread} (h : s.Solo l t roles)
    (hf : ∀ t, f t = .ok (g t)) : plainOp roles f s = .next (s.setLane l (g t)) := by
  obtain ⟨hlanes, ht⟩ := h.alone
  rw [plainOp_next roles f g s h.quiet (by simp [hlanes]) (by simp [hlanes, ht, h.passes, hf]), hlanes]
  exact congrArg _ (modLane_of_lane s l t g ht)

/-! ### Record loads -/

theorem recordLoad_fields {sc : BitVec 3} {a d : BitVec 7} (h : (recordLoad sc a d).word) :
    firstSome [if 5 ≤ sc.toNat then some (2, 0) else none,
      if 116 ≤ a.toNat ∧ a.toNat < 124 then some (3, 0x70) else (Role.src64 a).illegal, sbRunD d] = none := by
  obtain ⟨hsc, ha, hsource, hd⟩ := h
  rw [if_neg (Nat.not_le.2 hsc), if_neg ha, hsource, hd]
  rfl

/-- A record whose parts are granted and that meets no watchpoint is sent to the one lane: the accesses before it have left the thread
as it was. -/
theorem execSload_solo {sc : BitVec 3} {a d : BitVec 7} (h : s.Solo l t [.src64 a]) (hok : (recordLoad sc a d).solo.ok s l t) :
    execSload sc a d s = .next ((recordLoad sc a d).solo.eff s l t) := by
  obtain ⟨hword, -, hrun, halign, l0, rest, places, hlive, hplaces, hwatch⟩ := hok
  have hl : liveOf [(l, t)] = [l] := filter_live_one h.live
  have hz : recordLoad.zeroed d s [(l, t)] = s := by simp [recordLoad.zeroed, h.live]
  rw [hl] at hlive hwatch
  cases hlive
  rw [hz] at hplaces hwatch
  obtain ⟨s4, hs4⟩ : ∃ s4, s.recordPlaces (s.who l) (t.val64 a).toNat sc.toNat = (s4, .ok places) := ⟨_, Prod.ext rfl hplaces⟩
  have hlane : s4.lane? l = some t := by
    have hkept := blocksKept_recordPlaces s (s.who l) (t.val64 a).toNat sc.toNat
    rw [hs4] at hkept
    exact (hkept.lane? l).trans h.alone.2
  have hfits : (s.screen [l] fun t => runBeyond t d 12) = (s, [(l, t)]) := screen_one s l t _ h.alone.2 (hrun _ List.mem_cons_self)
  have hsound : (s4.screen [l] fun t => poisonOf t [.src64 a]) = (s4, [(l, t)]) := screen_one s4 l t _ hlane (poisonOf_of_check h.passes)
  have hwatch : (s4.watchLanes [l] (t.val64 a).toNat 48).2 = [l] := by rwa [hs4] at hwatch
  unfold execSload GroupForm.solo recordLoad
  dsimp only
  rw [recordLoad_fields hword, agree_solo s l t _ _ _ _ _ h]
  simp only [settleRun_quiet _ _ _ _ h.quiet, hfits, List.map_cons, List.map_nil,
    filter_live_one h.live, List.foldl_cons, List.foldl_nil, h.live, Bool.false_eq_true, if_false, halign, ne_eq, not_true_eq_false,
    hs4, hsound, hl, hz, hwatch]
  rfl

end Splats

/-- Settles O25: each instruction of the table is an operation of the unit whose fields and operands pass, in the one lane;
`test_sproj` to `test_sgrad` hold a path that meets the conditions of each. -/
theorem splatCompletes : Obligations.SplatCompletes := by
  intro i f s l t hf h hok
  cases i with
  | sproj a d =>
    cases hf
    obtain ⟨ha, hd⟩ := hok
    refine (sbOp_solo _ h (by simp [ha, hd])).trans ?_
    simp only [h.live, Bool.false_eq_true, if_false]
    rfl
  | skey b a d =>
    cases hf
    obtain ⟨ha, hb, hd⟩ := hok
    refine (sbOp_solo _ h (by simp [ha, hb, hd])).trans ?_
    simp only [h.live, Bool.false_eq_true, if_false]
    rfl
  | sinit a =>
    cases hf
    have ha : sbSrc a = none := hok
    refine (sbOp_solo _ h (by simp [ha])).trans ?_
    simp only [h.live, Bool.false_eq_true, if_false]
    rfl
  | sinitr =>
    cases hf
    have hthread : t.helper = false := hok
    show execSinitr s = _
    unfold execSinitr
    rw [plainOp_solo h (fun _ => rfl), if_neg (by simp [hthread])]
  | srd d =>
    cases hf
    have hd : sbRunD d = none := hok
    refine (sbOp_solo _ h (by simp [hd])).trans ?_
    simp only [h.live, Bool.false_eq_true, if_false]
    rfl
  | swr a =>
    cases hf
    obtain ⟨ha, hpad, hctl⟩ := hok
    refine (sbOp_solo _ h (by simp [ha])).trans ?_
    simp only [hpad, Nat.not_le.2 hctl, h.live, ne_eq, not_true_eq_false, or_self, Bool.false_eq_true, if_false]
    rfl
  | sload sc a d =>
    cases hf
    exact execSload_solo h hok
  | sblend b a d =>
    cases hf
    obtain ⟨ha, hb, hd, hentry⟩ := hok
    show execSblend b a d s = _
    unfold execSblend
    rw [blendOp_solo _ h (by simp [ha, hb, hd]) hentry]
    simp only [h.live, Bool.false_eq_true, if_false]
    rfl
  | sgrad b a d =>
    cases hf
    obtain ⟨ha, hb, hd, hentry⟩ := hok
    show execSgrad b a d s = _
    unfold execSgrad
    rw [blendOp_solo _ h (by simp [ha, hb, hd]) hentry]
    simp only [h.live, Bool.false_eq_true, if_false]
    rfl
  | _ => cases hf

end Sys2Proof.Machine
end
